-- ==== Sys2Proof/Word.lean ====
section
/-! DEFINITION. The byte of the ports (R201: windows are counted in whole bytes). -/

namespace Sys2Proof

/-- One byte as a port clocks it. -/
abbrev Byte := BitVec 8

end Sys2Proof
end

