-- ==== Sys2Proof/Syntax.lean ====
section
/-! DEFINITION. The commands of the hub: one constructor per row of the table. A request carries its
port and its arguments as the frame carries them: a whole number or an enumerated code as the number
its bytes give, an optional field as present or absent (R204). So a value outside its range can be
sent, and its owner refuses it (R202). -/

namespace Sys2Proof

/-- The three ports (R200). -/
inductive Port where
  | L
  | T
  | C
  deriving DecidableEq, Repr, Inhabited

/-- The level of a pin or of an encoder phase input. -/
inductive Level where
  | low
  | high
  deriving DecidableEq, Repr, Inhabited

/-- CONFIGURE_STAGE's arguments, in the order of R22. Enables, preferred channel: codes. -/
structure StageArgs where
  fEnable : Nat
  pEnable : Nat
  preferred : Nat
  fOffset : Int
  fStep : Nat
  fMaxStep : Nat
  pOffset : Int
  pGain : Nat
  pZero : Nat
  pMin : Nat
  tolerance : Nat
  disagreeLimit : Nat
  windowLength : Nat
  period : Nat
  riseWindow : Nat
  deriving DecidableEq, Repr, Inhabited

/-- SEEK_HISTORY's target (R34). -/
inductive SeekTarget where
  | oldest
  | newestNext
  | sequence (s : Nat)
  | unknown (tag : Nat)
  deriving DecidableEq, Repr, Inhabited

/-- WRITE_VERTICAL's fields after the index (R61). Depth mode and method: codes. -/
structure VerticalArgs where
  x : Nat
  depthMode : Nat
  depth : Option Nat
  method : Nat
  countTime : Nat
  next : Nat
  deriving DecidableEq, Repr, Inhabited

/-- WRITE_METER's fields after the meter number (R64). -/
structure MeterArgs where
  a : Nat
  b : Nat
  pulses : Nat
  ident : Nat
  deriving DecidableEq, Repr, Inhabited

/-- The plan of DEFINE_SLOT (R65), by its tag (R204). -/
inductive PlanArg where
  | empty
  | listed (first count : Nat)
  | linked (first : Nat)
  | unknown (tag : Nat)
  deriving DecidableEq, Repr, Inhabited

/-- The passes of DEFINE_SLOT (R65). -/
inductive PassesArg where
  | number (n : Nat)
  | index
  | unknown (tag : Nat)
  deriving DecidableEq, Repr, Inhabited

/-- The trigger of DEFINE_SLOT (R65). Senses: codes. -/
inductive TriggerArg where
  | port
  | stageRise (threshold : Int) (sense : Nat)
  | warningLevel (level sense : Nat)
  | interval (hours : Nat)
  | upstream (minClass : Nat)
  | unknown (tag : Nat)
  deriving DecidableEq, Repr, Inhabited

/-- DEFINE_SLOT's fields after the slot number, in the order of R65. Mode and sense: codes. -/
structure SlotArgs where
  plan : PlanArg
  mode : Nat
  passes : PassesArg
  meter : Nat
  coefficient : Nat
  settleTime : Nat
  settledSense : Nat
  pauseLimit : Nat
  tolerance : Nat
  moveTimeout : Nat
  homeTimeout : Nat
  trigger : TriggerArg
  deriving DecidableEq, Repr, Inhabited

/-- READ_RESULT's selector (R130). -/
inductive ResultSelector where
  | newest
  | oldest
  | ident (n : Nat)
  | unknown (tag : Nat)
  deriving DecidableEq, Repr, Inhabited

/-- A value for each of the three levels above CALM. -/
structure Tri (α : Type) where
  one : α
  two : α
  three : α
  deriving DecidableEq, Repr, Inhabited

/-- SET_LEVEL_CRITERIA's arguments, in the order of R136. -/
structure CriteriaArgs where
  stage : Tri (Option Int)
  discharge : Tri (Option Nat)
  rise : Tri (Option Nat)
  hysteresis : Nat
  dischargeHysteresis : Nat
  dwell : Nat
  deriving DecidableEq, Repr, Inhabited

/-- A retreat level of SET_RETREAT (R148): a number or NONE. -/
inductive RetreatLevelArg where
  | number (n : Nat)
  | none
  | unknown (tag : Nat)
  deriving DecidableEq, Repr, Inhabited

/-- UPSTREAM_REPORT's arguments (R162 and the layout of section 11.6). -/
structure ReportArgs where
  address : Nat
  stamp : Nat
  cls : Nat
  stage : Int
  level : Nat
  deriving DecidableEq, Repr, Inhabited

/-- One entry of the class map of SET_UPSTREAM_FILTER (R161): a cap or DROP. -/
inductive CapArg where
  | cap (n : Nat)
  | drop
  | unknown (tag : Nat)
  deriving DecidableEq, Repr, Inhabited

/-- SET_UPSTREAM_FILTER's arguments (R161). The two enables: codes. -/
structure FilterArgs where
  hashEnable : Nat
  acceptAll : Nat
  staleLimit : Nat
  classMap : Vector CapArg 8
  deriving DecidableEq, Repr, Inhabited

/-- CONFIGURE_LINE's arguments (R178). The function is its tag and its output number; direction,
polarity, pull-up enable and arm are codes. -/
structure LineArgs where
  line : Nat
  function : Nat
  output : Nat
  direction : Nat
  polarity : Nat
  pullUp : Nat
  arm : Nat
  deriving DecidableEq, Repr, Inhabited

/-- Why a frame is refused before it reaches an owner, with what its reply carries (R202). -/
inductive FrameFault where
  /-- The frame check fails: the code byte, the argument length byte and the number of argument
  bytes counted. -/
  | frame (code len counted : Nat)
  /-- The code is not in the catalogue. -/
  | unknown (code : Nat)
  /-- The port's role is not among the request's roles. -/
  | role (code : Nat)
  deriving DecidableEq, Repr, Inhabited

/-- The commands, in the order of the table. A request stands for the release of chip select on a
window whose frame is that request (R201). The `edge` of a pulse counts only at the first millisecond of
the gate (R11, log entry 17). -/
inductive Instr where
  | readReply (p : Port)
  | readClock (p : Port)
  | setClock (p : Port) (value : Nat)
  | readStage (p : Port)
  | readStageConfig (p : Port)
  | configureStage (p : Port) (a : StageArgs)
  | checkGauge (p : Port) (channel : Nat) (reading : Int)
  | readHistory (p : Port) (maximum advance : Nat)
  | seekHistory (p : Port) (target : SeekTarget)
  | readHistoryState (p : Port)
  | setHistoryThreshold (p : Port) (threshold : Nat)
  | setHistoryInterval (p : Port) (minutes : Nat)
  | readRating (p : Port)
  | rateStage (p : Port) (stage : Int)
  | rateDischarge (p : Port) (discharge : Nat)
  | readStaged (p : Port)
  | writeStagedPoint (p : Port) (index : Nat) (h : Int) (q : Nat)
  | clearStaged (p : Port)
  | installRating (p : Port)
  | setShift (p : Port) (shift : Int)
  | setExtrapolationLimit (p : Port) (limit : Nat)
  | readVertical (p : Port) (index : Nat)
  | writeVertical (p : Port) (index : Nat) (a : VerticalArgs)
  | clearVertical (p : Port) (index : Nat)
  | readMeter (p : Port) (meter : Nat)
  | writeMeter (p : Port) (meter : Nat) (a : MeterArgs)
  | readSlot (p : Port) (slot : Nat)
  | defineSlot (p : Port) (slot : Nat) (a : SlotArgs)
  | armSlot (p : Port) (slot : Nat)
  | disarmSlot (p : Port) (slot : Nat)
  | startRun (p : Port) (slot : Nat)
  | clearRequest (p : Port) (slot : Nat)
  | setSlotPriority (p : Port) (priority : Nat)
  | readSlotState (p : Port)
  | getTarget (p : Port)
  | readRunState (p : Port)
  | positionReached (p : Port) (distance : Nat) (sounded : Option Nat)
  | depthReached (p : Port)
  | homeReached (p : Port)
  | proceed (p : Port)
  | cancelRun (p : Port)
  | carriageFault (p : Port) (code : Nat)
  | clearTrip (p : Port)
  | resetEngine (p : Port)
  | readResult (p : Port) (selector : ResultSelector)
  | readPass (p : Port)
  | readPassVertical (p : Port) (ordinal : Nat)
  | readWarning (p : Port)
  | setLevelCriteria (p : Port) (a : CriteriaArgs)
  | setRetreat (p : Port) (stage : Option Int) (level : RetreatLevelArg)
  | setWarningOutput (p : Port) (output showLevel kind : Nat)
  | overrideOn (p : Port) (mask : BitVec 8)
  | overrideOff (p : Port) (mask : BitVec 8)
  | overrideAuto (p : Port) (mask : BitVec 8)
  | silence (p : Port)
  | upstreamReport (p : Port) (a : ReportArgs)
  | readUpstreamEntry (p : Port) (index : Nat)
  | readUpstreamState (p : Port)
  | setUpstreamEntry (p : Port) (index address stepDown travel : Nat)
  | setHash (p : Port) (marks : BitVec 64)
  | setUpstreamFilter (p : Port) (a : FilterArgs)
  | clearUpstreamCounters (p : Port)
  | readLines (p : Port) (clear : Nat)
  | readLineConfig (p : Port)
  | configureLine (p : Port) (a : LineArgs)
  | writeLines (p : Port) (mask : BitVec 16) (values : Vector Nat 16)
  | fetchNotices (p : Port)
  | peekNotices (p : Port)
  | readNoticeRoutes (p : Port)
  | setNoticeEnable (p : Port) (marks : BitVec 24)
  | setAttention (p : Port) (master oneShot : Nat)
  | setRoute (p : Port) (source : Nat) (route : BitVec 8)
  | stationReset (p : Port)
  | badFrame (p : Port) (f : FrameFault)
  | resetNActivation
  | resetNRelease
  | porAssert
  | porRelease
  | encoderPhaseChange (a b : Level)
  | pPulse (edge : Bool)
  | stationClockAdvance
  | stageSample
  | moveTimerExpiry
  | settleTimerExpiry
  | countTimerExpiry
  | pauseTimerExpiry
  | homeTimerExpiry
  | dwellTimerExpiry
  | intervalTimerExpiry (slot : Nat)
  | delayTimerExpiry (entry : Nat)
  | staleTimerExpiry (entry : Nat)
  | linePinChange (line : Nat) (outside : Option Level)
  | uptimeAdvance
  | windowOpen (p : Port)
  | discardedWindow (p : Port)
  deriving DecidableEq, Repr, Inhabited

end Sys2Proof
end

