-- ==== Sys2Proof/Decode.lean ====
section
/-! DEFINITION. The bytes of the ports. The field encoding of R204, the catalogue of section 11.4, and
the Port Unit's reading of a window into its command by the checks of R202; after it the encoder of
request frames. The table of commands gives no bits for any row, so `decodeTableWord` answers none. -/

namespace Sys2Proof

/-! ## Fields (R204) -/

/-- A whole number of one byte. -/
def u8 (n : Nat) : List Byte := [BitVec.ofNat 8 n]

/-- A whole number of two bytes, most significant first. -/
def u16 (n : Nat) : List Byte := u8 (n / 256) ++ u8 n

/-- A whole number of four bytes, most significant first. -/
def u32 (n : Nat) : List Byte := u16 (n / 65536) ++ u16 n

/-- A whole number wider than four bytes, in eight. DESIGN CHOICE, log entry 12. -/
def u64 (n : Nat) : List Byte := u32 (n / 4294967296) ++ u32 n

/-- A signed number of two bytes, two's complement. -/
def i16 (z : Int) : List Byte := u16 (z % 65536).toNat

/-- A signed number of four bytes, two's complement. -/
def i32 (z : Int) : List Byte := u32 (z % 4294967296).toNat

/-- A set of members 0..8k-1 in k bytes: member m has weight 2^(m mod 8) in byte m div 8, byte 0 first. -/
def setBytes : Nat → Nat → List Byte
  | 0, _ => []
  | k + 1, n => u8 n ++ setBytes k (n / 256)

/-- A field with two values: 0 for the first value listed, 1 for the second. -/
def twoValued (isFirst : Bool) : List Byte := u8 (if isFirst then 0 else 1)

/-- Byte i of the arguments as a whole number, 0 where there is none. -/
def byteAt (a : List Byte) (i : Nat) : Nat := (a.getD i 0).toNat

/-- The two-byte number at i. -/
def word2At (a : List Byte) (i : Nat) : Nat := byteAt a i * 256 + byteAt a (i + 1)

/-- The four-byte number at i. -/
def word4At (a : List Byte) (i : Nat) : Nat := word2At a i * 65536 + word2At a (i + 2)

/-- The signed two-byte number at i. -/
def int2At (a : List Byte) (i : Nat) : Int :=
  if word2At a i < 32768 then (word2At a i : Int) else (word2At a i : Int) - 65536

/-- The set carried in the k bytes at i, as the number whose bit m is member m. -/
def setAt (a : List Byte) (i : Nat) : Nat → Nat
  | 0 => 0
  | k + 1 => byteAt a i + 256 * setAt a (i + 1) k

/-- Mark m of the presence mask whose k bytes stand at i. Marks beyond the optional fields are not
read (DESIGN CHOICE, log entry 14). -/
def present (a : List Byte) (i k m : Nat) : Bool := (setAt a i k).testBit m

/-- An optional field: its value where its mark is set. -/
def optField {α : Type} (mark : Bool) (x : α) : Option α := if mark then some x else none

/-! ## The catalogue (section 11.4) -/

/-- Ports of each set of roles in the catalogue. -/
def anyPort : List Port := [.L, .T, .C]

/-- The roles and the argument length of a request code; none where the code is not in the catalogue.
The length follows from the argument list of the owning rule under R204. That the twenty marks of 0x93
(R192) are one set of three bytes, and not twenty two-valued fields, is the model's reading (log entry 26). -/
def catalogue : Nat → Option (List Port × Nat)
  | 0x00 => some (anyPort, 0)
  | 0x01 => some (anyPort, 0)
  | 0x02 => some ([.L, .T], 4)
  | 0x03 => some (anyPort, 0)
  | 0x04 => some (anyPort, 0)
  | 0x05 => some ([.L], 25)
  | 0x06 => some ([.L], 3)
  | 0x10 => some (anyPort, 2)
  | 0x11 => some (anyPort, 5)
  | 0x12 => some (anyPort, 0)
  | 0x13 => some (anyPort, 1)
  | 0x14 => some ([.L], 1)
  | 0x20 => some (anyPort, 0)
  | 0x21 => some (anyPort, 2)
  | 0x22 => some (anyPort, 4)
  | 0x23 => some ([.L], 0)
  | 0x24 => some ([.L], 7)
  | 0x25 => some ([.L], 0)
  | 0x26 => some ([.L], 0)
  | 0x27 => some ([.L], 2)
  | 0x28 => some ([.L], 2)
  | 0x30 => some (anyPort, 1)
  | 0x31 => some ([.L, .C], 12)
  | 0x32 => some ([.L, .C], 1)
  | 0x33 => some (anyPort, 1)
  | 0x34 => some ([.L], 10)
  | 0x35 => some (anyPort, 1)
  | 0x36 => some ([.L], 24)
  | 0x37 => some ([.L, .C], 1)
  | 0x38 => some ([.L, .C], 1)
  | 0x39 => some ([.L, .C], 1)
  | 0x3A => some ([.L, .C], 1)
  | 0x3B => some ([.L], 1)
  | 0x3C => some (anyPort, 0)
  | 0x40 => some (anyPort, 0)
  | 0x41 => some (anyPort, 0)
  | 0x42 => some ([.C], 7)
  | 0x43 => some ([.C], 0)
  | 0x44 => some ([.C], 0)
  | 0x45 => some ([.L, .C], 0)
  | 0x46 => some ([.L, .C], 0)
  | 0x47 => some ([.C], 1)
  | 0x48 => some ([.C], 0)
  | 0x49 => some ([.C], 0)
  | 0x50 => some (anyPort, 5)
  | 0x51 => some (anyPort, 0)
  | 0x52 => some (anyPort, 1)
  | 0x60 => some (anyPort, 0)
  | 0x61 => some ([.L], 31)
  | 0x62 => some ([.L], 5)
  | 0x63 => some ([.L], 3)
  | 0x64 => some ([.L, .T], 1)
  | 0x65 => some ([.L, .T], 1)
  | 0x66 => some ([.L, .T], 1)
  | 0x67 => some (anyPort, 0)
  | 0x70 => some ([.T], 10)
  | 0x71 => some (anyPort, 1)
  | 0x72 => some (anyPort, 0)
  | 0x73 => some ([.L], 6)
  | 0x74 => some ([.L], 8)
  | 0x75 => some ([.L], 20)
  | 0x76 => some ([.L], 0)
  | 0x80 => some (anyPort, 1)
  | 0x81 => some (anyPort, 0)
  | 0x82 => some ([.L], 7)
  | 0x83 => some ([.L], 18)
  | 0x90 => some (anyPort, 0)
  | 0x91 => some (anyPort, 0)
  | 0x92 => some (anyPort, 0)
  | 0x93 => some (anyPort, 3)
  | 0x94 => some (anyPort, 2)
  | 0x95 => some ([.L], 2)
  | 0xF0 => some ([.L], 0)
  | _ => none

/-- The ports that may send a request code (R200). -/
def rolesOf (code : Nat) : List Port := (catalogue code).elim [] Prod.fst

/-! ## Reading arguments -/

def stageArgsAt (a : List Byte) : StageArgs :=
  { fEnable := byteAt a 0, pEnable := byteAt a 1, preferred := byteAt a 2,
    fOffset := int2At a 3, fStep := word2At a 5, fMaxStep := word2At a 7,
    pOffset := int2At a 9, pGain := word4At a 11, pZero := word2At a 15,
    pMin := word2At a 17, tolerance := word2At a 19, disagreeLimit := byteAt a 21,
    windowLength := byteAt a 22, period := byteAt a 23, riseWindow := byteAt a 24 }

def seekTargetAt (a : List Byte) : SeekTarget :=
  match byteAt a 0 with
  | 0 => .oldest
  | 1 => .newestNext
  | 2 => .sequence (word4At a 1)
  | t => .unknown t

def verticalArgsAt (a : List Byte) : VerticalArgs :=
  { x := word4At a 1, depthMode := byteAt a 5,
    depth := optField (present a 6 1 0) (word2At a 7),
    method := byteAt a 9, countTime := byteAt a 10, next := byteAt a 11 }

def meterArgsAt (a : List Byte) : MeterArgs :=
  { a := word2At a 1, b := word4At a 3, pulses := byteAt a 7, ident := word2At a 8 }

def planArgAt (a : List Byte) : PlanArg :=
  match byteAt a 1 with
  | 0 => .empty
  | 1 => .listed (byteAt a 2) (byteAt a 3)
  | 2 => .linked (byteAt a 2)
  | t => .unknown t

def passesArgAt (a : List Byte) : PassesArg :=
  match byteAt a 5 with
  | 0 => .number (byteAt a 6)
  | 1 => .index
  | t => .unknown t

def triggerArgAt (a : List Byte) : TriggerArg :=
  match byteAt a 20 with
  | 0 => .port
  | 1 => .stageRise (int2At a 21) (byteAt a 23)
  | 2 => .warningLevel (byteAt a 21) (byteAt a 22)
  | 3 => .interval (byteAt a 21)
  | 4 => .upstream (byteAt a 21)
  | t => .unknown t

def slotArgsAt (a : List Byte) : SlotArgs :=
  { plan := planArgAt a, mode := byteAt a 4, passes := passesArgAt a, meter := byteAt a 7,
    coefficient := word2At a 8, settleTime := byteAt a 10, settledSense := byteAt a 11,
    pauseLimit := word2At a 12, tolerance := word2At a 14, moveTimeout := word2At a 16,
    homeTimeout := word2At a 18, trigger := triggerArgAt a }

def selectorAt (a : List Byte) : ResultSelector :=
  match byteAt a 0 with
  | 0 => .newest
  | 1 => .oldest
  | 2 => .ident (word4At a 1)
  | t => .unknown t

def criteriaArgsAt (a : List Byte) : CriteriaArgs :=
  { stage := ⟨optField (present a 0 2 0) (int2At a 2), optField (present a 0 2 1) (int2At a 4),
      optField (present a 0 2 2) (int2At a 6)⟩,
    discharge := ⟨optField (present a 0 2 3) (word4At a 8), optField (present a 0 2 4) (word4At a 12),
      optField (present a 0 2 5) (word4At a 16)⟩,
    rise := ⟨optField (present a 0 2 6) (word2At a 20), optField (present a 0 2 7) (word2At a 22),
      optField (present a 0 2 8) (word2At a 24)⟩,
    hysteresis := word2At a 26, dischargeHysteresis := word2At a 28, dwell := byteAt a 30 }

def retreatLevelAt (a : List Byte) : RetreatLevelArg :=
  match byteAt a 3 with
  | 0 => .number (byteAt a 4)
  | 1 => .none
  | t => .unknown t

def reportArgsAt (a : List Byte) : ReportArgs :=
  { address := word2At a 0, stamp := word4At a 2, cls := byteAt a 6, stage := int2At a 7,
    level := byteAt a 9 }

def capArgAt (a : List Byte) (i : Nat) : CapArg :=
  match byteAt a i with
  | 0 => .cap (byteAt a (i + 1))
  | 1 => .drop
  | t => .unknown t

def filterArgsAt (a : List Byte) : FilterArgs :=
  { hashEnable := byteAt a 0, acceptAll := byteAt a 1, staleLimit := word2At a 2,
    classMap := Vector.ofFn fun i => capArgAt a (4 + 2 * i.val) }

def lineArgsAt (a : List Byte) : LineArgs :=
  { line := byteAt a 0, function := byteAt a 1, output := byteAt a 2, direction := byteAt a 3,
    polarity := byteAt a 4, pullUp := byteAt a 5, arm := byteAt a 6 }

/-- The command of a request code with these arguments; none where the code is not in the catalogue. -/
def requestOf (p : Port) (code : Nat) (a : List Byte) : Option Instr :=
  match code with
  | 0x00 => some (.readReply p)
  | 0x01 => some (.readClock p)
  | 0x02 => some (.setClock p (word4At a 0))
  | 0x03 => some (.readStage p)
  | 0x04 => some (.readStageConfig p)
  | 0x05 => some (.configureStage p (stageArgsAt a))
  | 0x06 => some (.checkGauge p (byteAt a 0) (int2At a 1))
  | 0x10 => some (.readHistory p (byteAt a 0) (byteAt a 1))
  | 0x11 => some (.seekHistory p (seekTargetAt a))
  | 0x12 => some (.readHistoryState p)
  | 0x13 => some (.setHistoryThreshold p (byteAt a 0))
  | 0x14 => some (.setHistoryInterval p (byteAt a 0))
  | 0x20 => some (.readRating p)
  | 0x21 => some (.rateStage p (int2At a 0))
  | 0x22 => some (.rateDischarge p (word4At a 0))
  | 0x23 => some (.readStaged p)
  | 0x24 => some (.writeStagedPoint p (byteAt a 0) (int2At a 1) (word4At a 3))
  | 0x25 => some (.clearStaged p)
  | 0x26 => some (.installRating p)
  | 0x27 => some (.setShift p (int2At a 0))
  | 0x28 => some (.setExtrapolationLimit p (word2At a 0))
  | 0x30 => some (.readVertical p (byteAt a 0))
  | 0x31 => some (.writeVertical p (byteAt a 0) (verticalArgsAt a))
  | 0x32 => some (.clearVertical p (byteAt a 0))
  | 0x33 => some (.readMeter p (byteAt a 0))
  | 0x34 => some (.writeMeter p (byteAt a 0) (meterArgsAt a))
  | 0x35 => some (.readSlot p (byteAt a 0))
  | 0x36 => some (.defineSlot p (byteAt a 0) (slotArgsAt a))
  | 0x37 => some (.armSlot p (byteAt a 0))
  | 0x38 => some (.disarmSlot p (byteAt a 0))
  | 0x39 => some (.startRun p (byteAt a 0))
  | 0x3A => some (.clearRequest p (byteAt a 0))
  | 0x3B => some (.setSlotPriority p (byteAt a 0))
  | 0x3C => some (.readSlotState p)
  | 0x40 => some (.getTarget p)
  | 0x41 => some (.readRunState p)
  | 0x42 => some (.positionReached p (word4At a 0) (optField (present a 4 1 0) (word2At a 5)))
  | 0x43 => some (.depthReached p)
  | 0x44 => some (.homeReached p)
  | 0x45 => some (.proceed p)
  | 0x46 => some (.cancelRun p)
  | 0x47 => some (.carriageFault p (byteAt a 0))
  | 0x48 => some (.clearTrip p)
  | 0x49 => some (.resetEngine p)
  | 0x50 => some (.readResult p (selectorAt a))
  | 0x51 => some (.readPass p)
  | 0x52 => some (.readPassVertical p (byteAt a 0))
  | 0x60 => some (.readWarning p)
  | 0x61 => some (.setLevelCriteria p (criteriaArgsAt a))
  | 0x62 => some (.setRetreat p (optField (present a 0 1 0) (int2At a 1)) (retreatLevelAt a))
  | 0x63 => some (.setWarningOutput p (byteAt a 0) (byteAt a 1) (byteAt a 2))
  | 0x64 => some (.overrideOn p (BitVec.ofNat 8 (setAt a 0 1)))
  | 0x65 => some (.overrideOff p (BitVec.ofNat 8 (setAt a 0 1)))
  | 0x66 => some (.overrideAuto p (BitVec.ofNat 8 (setAt a 0 1)))
  | 0x67 => some (.silence p)
  | 0x70 => some (.upstreamReport p (reportArgsAt a))
  | 0x71 => some (.readUpstreamEntry p (byteAt a 0))
  | 0x72 => some (.readUpstreamState p)
  | 0x73 => some (.setUpstreamEntry p (byteAt a 0) (word2At a 1) (byteAt a 3) (word2At a 4))
  | 0x74 => some (.setHash p (BitVec.ofNat 64 (setAt a 0 8)))
  | 0x75 => some (.setUpstreamFilter p (filterArgsAt a))
  | 0x76 => some (.clearUpstreamCounters p)
  | 0x80 => some (.readLines p (byteAt a 0))
  | 0x81 => some (.readLineConfig p)
  | 0x82 => some (.configureLine p (lineArgsAt a))
  | 0x83 => some (.writeLines p (BitVec.ofNat 16 (setAt a 0 2)) (Vector.ofFn fun i => byteAt a (2 + i.val)))
  | 0x90 => some (.fetchNotices p)
  | 0x91 => some (.peekNotices p)
  | 0x92 => some (.readNoticeRoutes p)
  | 0x93 => some (.setNoticeEnable p (BitVec.ofNat 24 (setAt a 0 3)))
  | 0x94 => some (.setAttention p (byteAt a 0) (byteAt a 1))
  | 0x95 => some (.setRoute p (byteAt a 0) (BitVec.ofNat 8 (setAt a 1 1)))
  | 0xF0 => some (.stationReset p)
  | _ => none

/-! ## Windows (R201, R202) -/

/-- What a master clocked in one window: the whole bytes, and whether a byte of fewer than eight bits
was clocked before the release (R201). -/
structure WindowBits where
  bytes : List Byte
  broken : Bool
  deriving DecidableEq, Repr

/-- The frame check of R202. The bytes after the second of a READ_REPLY are filler and are not
counted against the argument length (R203). -/
def frameBad (w : WindowBits) : Bool :=
  let code := byteAt w.bytes 0
  let len := byteAt w.bytes 1
  w.broken || decide (w.bytes.length < 2) || decide (60 < len)
    || (code != 0 && w.bytes.length - 2 != len)
    || ((catalogue code).elim false fun e => e.2 != len)

/-- The command a window spells at the release of chip select: the checks of R202 in their order, and
no frame where no bit was clocked (R201). That the argument bytes counted in the reply of a READ_REPLY which is a
bad frame take in its filler bytes is the model's choice (log entry 14). -/
def commandOfWindow (p : Port) (w : WindowBits) : Instr :=
  let code := byteAt w.bytes 0
  if w.bytes = [] ∧ w.broken = false then .discardedWindow p
  else if frameBad w then .badFrame p (.frame code (byteAt w.bytes 1) (w.bytes.length - 2))
  else match catalogue code with
    | none => .badFrame p (.unknown code)
    | some e =>
      if p ∈ e.1 then (requestOf p code (w.bytes.drop 2)).getD (.badFrame p (.unknown code))
      else .badFrame p (.role code)

/-- The command that an opcode-table word spells. The table gives no row any bits: none. -/
def decodeTableWord (_nbits _w : Nat) : Option Instr := none

/-! ## The encoder of request frames -/

def markOf {α : Type} (m : Nat) (o : Option α) : Nat := if o.isSome then 2 ^ m else 0

def encStageArgs (a : StageArgs) : List Byte :=
  u8 a.fEnable ++ u8 a.pEnable ++ u8 a.preferred ++ i16 a.fOffset ++ u16 a.fStep ++ u16 a.fMaxStep
    ++ i16 a.pOffset ++ u32 a.pGain ++ u16 a.pZero ++ u16 a.pMin ++ u16 a.tolerance
    ++ u8 a.disagreeLimit ++ u8 a.windowLength ++ u8 a.period ++ u8 a.riseWindow

def encSeekTarget : SeekTarget → List Byte
  | .oldest => u8 0 ++ u32 0
  | .newestNext => u8 1 ++ u32 0
  | .sequence s => u8 2 ++ u32 s
  | .unknown t => u8 t ++ u32 0

def encVerticalArgs (a : VerticalArgs) : List Byte :=
  u32 a.x ++ u8 a.depthMode ++ setBytes 1 (markOf 0 a.depth) ++ u16 (a.depth.getD 0) ++ u8 a.method
    ++ u8 a.countTime ++ u8 a.next

def encPlanArg : PlanArg → List Byte
  | .empty => u8 0 ++ u16 0
  | .listed f n => u8 1 ++ u8 f ++ u8 n
  | .linked f => u8 2 ++ u8 f ++ u8 0
  | .unknown t => u8 t ++ u16 0

def encPassesArg : PassesArg → List Byte
  | .number n => u8 0 ++ u8 n
  | .index => u8 1 ++ u8 0
  | .unknown t => u8 t ++ u8 0

def encTriggerArg : TriggerArg → List Byte
  | .port => u8 0 ++ u16 0 ++ u8 0
  | .stageRise h sense => u8 1 ++ i16 h ++ u8 sense
  | .warningLevel l sense => u8 2 ++ u8 l ++ u8 sense ++ u8 0
  | .interval h => u8 3 ++ u8 h ++ u16 0
  | .upstream c => u8 4 ++ u8 c ++ u16 0
  | .unknown t => u8 t ++ u16 0 ++ u8 0

def encSlotArgs (a : SlotArgs) : List Byte :=
  encPlanArg a.plan ++ u8 a.mode ++ encPassesArg a.passes ++ u8 a.meter ++ u16 a.coefficient
    ++ u8 a.settleTime ++ u8 a.settledSense ++ u16 a.pauseLimit ++ u16 a.tolerance ++ u16 a.moveTimeout
    ++ u16 a.homeTimeout ++ encTriggerArg a.trigger

def encSelector : ResultSelector → List Byte
  | .newest => u8 0 ++ u32 0
  | .oldest => u8 1 ++ u32 0
  | .ident n => u8 2 ++ u32 n
  | .unknown t => u8 t ++ u32 0

def encCriteriaArgs (a : CriteriaArgs) : List Byte :=
  setBytes 2 (markOf 0 a.stage.one + markOf 1 a.stage.two + markOf 2 a.stage.three
      + markOf 3 a.discharge.one + markOf 4 a.discharge.two + markOf 5 a.discharge.three
      + markOf 6 a.rise.one + markOf 7 a.rise.two + markOf 8 a.rise.three)
    ++ i16 (a.stage.one.getD 0) ++ i16 (a.stage.two.getD 0) ++ i16 (a.stage.three.getD 0)
    ++ u32 (a.discharge.one.getD 0) ++ u32 (a.discharge.two.getD 0) ++ u32 (a.discharge.three.getD 0)
    ++ u16 (a.rise.one.getD 0) ++ u16 (a.rise.two.getD 0) ++ u16 (a.rise.three.getD 0)
    ++ u16 a.hysteresis ++ u16 a.dischargeHysteresis ++ u8 a.dwell

def encRetreatLevel : RetreatLevelArg → List Byte
  | .number n => u8 0 ++ u8 n
  | .none => u8 1 ++ u8 0
  | .unknown t => u8 t ++ u8 0

def encCap : CapArg → List Byte
  | .cap n => u8 0 ++ u8 n
  | .drop => u8 1 ++ u8 0
  | .unknown t => u8 t ++ u8 0

/-- The request code and the argument bytes of a request; none for a command that is no request. -/
def encodeRequest : Instr → Option (Nat × List Byte)
  | .readReply _ => some (0x00, [])
  | .readClock _ => some (0x01, [])
  | .setClock _ v => some (0x02, u32 v)
  | .readStage _ => some (0x03, [])
  | .readStageConfig _ => some (0x04, [])
  | .configureStage _ a => some (0x05, encStageArgs a)
  | .checkGauge _ c r => some (0x06, u8 c ++ i16 r)
  | .readHistory _ m a => some (0x10, u8 m ++ u8 a)
  | .seekHistory _ t => some (0x11, encSeekTarget t)
  | .readHistoryState _ => some (0x12, [])
  | .setHistoryThreshold _ n => some (0x13, u8 n)
  | .setHistoryInterval _ n => some (0x14, u8 n)
  | .readRating _ => some (0x20, [])
  | .rateStage _ h => some (0x21, i16 h)
  | .rateDischarge _ q => some (0x22, u32 q)
  | .readStaged _ => some (0x23, [])
  | .writeStagedPoint _ i h q => some (0x24, u8 i ++ i16 h ++ u32 q)
  | .clearStaged _ => some (0x25, [])
  | .installRating _ => some (0x26, [])
  | .setShift _ z => some (0x27, i16 z)
  | .setExtrapolationLimit _ n => some (0x28, u16 n)
  | .readVertical _ i => some (0x30, u8 i)
  | .writeVertical _ i a => some (0x31, u8 i ++ encVerticalArgs a)
  | .clearVertical _ i => some (0x32, u8 i)
  | .readMeter _ i => some (0x33, u8 i)
  | .writeMeter _ i a => some (0x34, u8 i ++ u16 a.a ++ u32 a.b ++ u8 a.pulses ++ u16 a.ident)
  | .readSlot _ i => some (0x35, u8 i)
  | .defineSlot _ i a => some (0x36, u8 i ++ encSlotArgs a)
  | .armSlot _ i => some (0x37, u8 i)
  | .disarmSlot _ i => some (0x38, u8 i)
  | .startRun _ i => some (0x39, u8 i)
  | .clearRequest _ i => some (0x3A, u8 i)
  | .setSlotPriority _ c => some (0x3B, u8 c)
  | .readSlotState _ => some (0x3C, [])
  | .getTarget _ => some (0x40, [])
  | .readRunState _ => some (0x41, [])
  | .positionReached _ d o => some (0x42, u32 d ++ setBytes 1 (markOf 0 o) ++ u16 (o.getD 0))
  | .depthReached _ => some (0x43, [])
  | .homeReached _ => some (0x44, [])
  | .proceed _ => some (0x45, [])
  | .cancelRun _ => some (0x46, [])
  | .carriageFault _ c => some (0x47, u8 c)
  | .clearTrip _ => some (0x48, [])
  | .resetEngine _ => some (0x49, [])
  | .readResult _ t => some (0x50, encSelector t)
  | .readPass _ => some (0x51, [])
  | .readPassVertical _ n => some (0x52, u8 n)
  | .readWarning _ => some (0x60, [])
  | .setLevelCriteria _ a => some (0x61, encCriteriaArgs a)
  | .setRetreat _ h l => some (0x62, setBytes 1 (markOf 0 h) ++ i16 (h.getD 0) ++ encRetreatLevel l)
  | .setWarningOutput _ k l t => some (0x63, u8 k ++ u8 l ++ u8 t)
  | .overrideOn _ m => some (0x64, setBytes 1 m.toNat)
  | .overrideOff _ m => some (0x65, setBytes 1 m.toNat)
  | .overrideAuto _ m => some (0x66, setBytes 1 m.toNat)
  | .silence _ => some (0x67, [])
  | .upstreamReport _ a => some (0x70, u16 a.address ++ u32 a.stamp ++ u8 a.cls ++ i16 a.stage ++ u8 a.level)
  | .readUpstreamEntry _ i => some (0x71, u8 i)
  | .readUpstreamState _ => some (0x72, [])
  | .setUpstreamEntry _ i a d t => some (0x73, u8 i ++ u16 a ++ u8 d ++ u16 t)
  | .setHash _ m => some (0x74, setBytes 8 m.toNat)
  | .setUpstreamFilter _ a =>
    some (0x75, u8 a.hashEnable ++ u8 a.acceptAll ++ u16 a.staleLimit ++ (a.classMap.toList.map encCap).flatten)
  | .clearUpstreamCounters _ => some (0x76, [])
  | .readLines _ c => some (0x80, u8 c)
  | .readLineConfig _ => some (0x81, [])
  | .configureLine _ a =>
    some (0x82, u8 a.line ++ u8 a.function ++ u8 a.output ++ u8 a.direction ++ u8 a.polarity ++ u8 a.pullUp
      ++ u8 a.arm)
  | .writeLines _ m v => some (0x83, setBytes 2 m.toNat ++ (v.toList.map u8).flatten)
  | .fetchNotices _ => some (0x90, [])
  | .peekNotices _ => some (0x91, [])
  | .readNoticeRoutes _ => some (0x92, [])
  | .setNoticeEnable _ m => some (0x93, setBytes 3 m.toNat)
  | .setAttention _ m o => some (0x94, u8 m ++ u8 o)
  | .setRoute _ n r => some (0x95, u8 n ++ setBytes 1 r.toNat)
  | .stationReset _ => some (0xF0, [])
  | .badFrame _ _ => none
  | .resetNActivation => none
  | .resetNRelease => none
  | .porAssert => none
  | .porRelease => none
  | .encoderPhaseChange _ _ => none
  | .pPulse _ => none
  | .stationClockAdvance => none
  | .stageSample => none
  | .moveTimerExpiry => none
  | .settleTimerExpiry => none
  | .countTimerExpiry => none
  | .pauseTimerExpiry => none
  | .homeTimerExpiry => none
  | .dwellTimerExpiry => none
  | .intervalTimerExpiry _ => none
  | .delayTimerExpiry _ => none
  | .staleTimerExpiry _ => none
  | .linePinChange _ _ => none
  | .uptimeAdvance => none
  | .windowOpen _ => none
  | .discardedWindow _ => none

/-- The request frame of a request: code, argument length, arguments (section 11.6). -/
def encodeFrame (i : Instr) : Option (List Byte) :=
  (encodeRequest i).map fun e => u8 e.1 ++ u8 e.2.length ++ e.2

end Sys2Proof
end

