-- ==== Sys2Proof/Config.lean ====
section
/-! DEFINITION. The limits the spec fixes, and the one value it leaves open. -/

namespace Sys2Proof.Config

/-- The last value of the station clock and of the uptime count (R3, R4). -/
def clockMax : Nat := 4294967295

/-- The most records the history ring holds (R30). -/
def ringSize : Nat := 96

/-- The most results the result log holds (R129). -/
def logSize : Nat := 8

/-- The most verticals a pass fetches (R93). -/
def passVerticals : Nat := 40

/-- The most pending items of a delay queue (R164). -/
def queueSize : Nat := 4

/-- The greatest discharge the part computes or records, L/s (R47). -/
def dischargeMax : Nat := 4000000

/-- Whether a time of so many milliseconds, reported in whole seconds, counts its broken second as
a whole one. The spec gives such times "in seconds" (R67, R155, R171) and does not say how a part
of a second is counted. DESIGN CHOICE, log entry 13: a free value, so a claim holds for either. -/
opaque partSecondUp : Nat → Bool

end Sys2Proof.Config
end

