-- ==== Sys2Proof/Machine/State.lean ====
section
/-! DEFINITION. What the part holds, block by block, and the state after a power-on reset. Quantities
the manual counts are numbers; what it names is an inductive type; what it numbers as a set of marks is
a bit vector. -/

namespace Sys2Proof.Machine

/-! ## Shapes shared by the blocks -/

/-- One value for each port. -/
structure PerPort (α : Type) where
  l : α
  t : α
  c : α
  deriving DecidableEq, Repr, Inhabited

/-- A timer of the part (R4): stopped, running to an uptime in ms, or held with ms left. -/
inductive Timer where
  | stopped
  | running (due : Nat)
  | held (left : Nat)
  deriving DecidableEq, Repr, Inhabited

/-- The reply codes (R203). NONE is an empty buffer. -/
inductive ReplyCode where
  | ok
  | empty
  | range
  | state
  | inUse
  | role
  | unknown
  | badFrame
  deriving DecidableEq, Repr, Inhabited

/-- A reply frame: its status and its data (section 11.6). -/
structure Reply where
  status : ReplyCode
  data : List Byte
  deriving DecidableEq, Repr, Inhabited

/-! ## Station Clock (R3, R4) -/

structure StationClock where
  /-- The station clock, seconds. -/
  clock : Nat := 0
  /-- Milliseconds since the station clock last advanced or was set (R3). -/
  clockPhase : Nat := 0
  /-- The uptime count, seconds. -/
  uptime : Nat := 0
  /-- The millisecond phase, 0..999. -/
  phase : Nat := 0
  deriving DecidableEq, Repr, Inhabited

/-! ## Stage Unit (chapter 1) -/

inductive Channel where
  | f
  | p
  deriving DecidableEq, Repr, Inhabited

inductive StageStatus where
  | starting
  | good
  | suspect
  | single
  | lost
  deriving DecidableEq, Repr, Inhabited

inductive Judgement where
  | none
  | invalid
  | accepted
  | rejected
  | reanchored
  deriving DecidableEq, Repr, Inhabited

inductive Signal where
  | none
  | present
  | loss
  deriving DecidableEq, Repr, Inhabited

/-- The stage configuration with its power-on values (R22). -/
structure StageConfig where
  fEnable : Bool := false
  pEnable : Bool := false
  preferred : Channel := .f
  fOffset : Int := 0
  fStep : Nat := 1000
  fMaxStep : Nat := 150
  pOffset : Int := 0
  pGain : Nat := 65536
  pZero : Nat := 0
  pMin : Nat := 1000
  tolerance : Nat := 50
  disagreeLimit : Nat := 6
  windowLength : Nat := 6
  period : Nat := 10
  riseWindow : Nat := 4
  deriving DecidableEq, Repr, Inhabited

/-- A channel's last value with its raw term and its OVER_RANGE mark (R8, R13). -/
structure LastValue where
  value : Int
  raw : Int
  overRange : Bool
  deriving DecidableEq, Repr, Inhabited

/-- The Stage Unit with its power-on values (R25). -/
structure StageUnit where
  cfg : StageConfig := {}
  /-- The encoder phase inputs as last seen (R6). Inputs: log entry 7. -/
  phaseA : Level := .low
  phaseB : Level := .low
  count : Int := 0
  encoderError : Bool := false
  fLast : Option LastValue := none
  fJudgement : Judgement := .none
  anchor : Option Int := none
  runLength : Nat := 0
  runValue : Int := 0
  /-- Pulses counted in the gate now open (R11). -/
  gateCount : Nat := 0
  lastN : Nat := 0
  signal : Signal := .none
  pLast : Option LastValue := none
  disagree : Nat := 0
  status : StageStatus := .starting
  window : List Int := []
  stilled : Option Int := none
  stilledOver : Bool := false
  rise : Option Int := none
  stamp : Nat := 0
  sampleUptime : Nat := 0
  /-- The sample timer: the uptime in ms at which it expires (R5). -/
  sampleDue : Nat := 10000
  deriving DecidableEq, Repr, Inhabited

/-! ## Rating Unit (chapter 3) -/

structure Breakpoint where
  h : Int
  q : Nat
  deriving DecidableEq, Repr, Inhabited

inductive RatingMark where
  | none
  | below
  | above
  | aboveLimit
  deriving DecidableEq, Repr, Inhabited

/-- A discharge result (R48). -/
structure DischargeResult where
  discharge : Option Nat := none
  mark : RatingMark := .none
  version : Nat := 0
  effective : Option Int := none
  deriving DecidableEq, Repr, Inhabited

/-- The Rating Unit with its power-on values (R58). -/
structure RatingUnit where
  active : List Breakpoint := []
  version : Nat := 0
  staged : Vector (Option Breakpoint) 24 := Vector.replicate 24 none
  shift : Int := 0
  limit : Nat := 500
  current : DischargeResult := {}
  stageUsed : Option Int := none
  deriving DecidableEq, Repr, Inhabited

/-! ## History Store (chapter 2) -/

/-- One interval record (R29). -/
structure IntervalRecord where
  seq : Nat
  stamp : Nat
  stage : Option Int
  peak : Option Int
  status : StageStatus
  discharge : Option Nat
  mark : RatingMark
  highest : Nat
  deriving DecidableEq, Repr, Inhabited

/-- The History Store with its power-on values (R38). -/
structure HistoryStore where
  ring : List IntervalRecord := []
  nextSeq : Nat := 1
  mark : Nat := 0
  interval : Nat := 15
  peak : Option Int := none
  worst : StageStatus := .starting
  highest : Nat := 0
  cursors : PerPort Nat := ⟨1, 1, 1⟩
  thresholds : PerPort Nat := ⟨1, 1, 1⟩
  deriving DecidableEq, Repr, Inhabited

/-! ## Plan Store (chapter 4) -/

inductive DepthMode where
  | fixed
  | sound
  deriving DecidableEq, Repr, Inhabited

inductive Method where
  | p6
  | p28
  | p268
  | surf
  deriving DecidableEq, Repr, Inhabited

/-- A vertical record with its power-on values (R60). -/
structure VerticalRecord where
  used : Bool := false
  x : Nat := 0
  depthMode : DepthMode := .fixed
  depth : Option Nat := some 0
  method : Method := .p6
  countTime : Nat := 40
  next : Nat := 0
  deriving DecidableEq, Repr, Inhabited

/-- A meter record with its power-on values (R64). -/
structure MeterRecord where
  a : Nat := 0
  b : Nat := 0
  pulses : Nat := 1
  ident : Nat := 0
  deriving DecidableEq, Repr, Inhabited

inductive Plan where
  | empty
  | listed (first count : Nat)
  | linked (first : Nat)
  deriving DecidableEq, Repr, Inhabited

inductive RunMode where
  | traverse
  | stepped
  deriving DecidableEq, Repr, Inhabited

inductive Passes where
  | number (n : Nat)
  | index
  deriving DecidableEq, Repr, Inhabited

inductive SettledSense where
  | ignore
  | level
  deriving DecidableEq, Repr, Inhabited

inductive TriggerSense where
  | edge
  | level
  deriving DecidableEq, Repr, Inhabited

inductive Trigger where
  | port
  | stageRise (threshold : Int) (sense : TriggerSense)
  | warningLevel (level : Nat) (sense : TriggerSense)
  | interval (hours : Nat)
  | upstream (minClass : Nat)
  deriving DecidableEq, Repr, Inhabited

/-- A slot definition with its power-on values (R65). -/
structure SlotDefinition where
  plan : Plan := .empty
  mode : RunMode := .traverse
  passes : Passes := .number 1
  meter : Nat := 0
  coefficient : Nat := 880
  settleTime : Nat := 20
  settledSense : SettledSense := .ignore
  pauseLimit : Nat := 0
  tolerance : Nat := 500
  moveTimeout : Nat := 300
  homeTimeout : Nat := 600
  trigger : Trigger := .port
  deriving DecidableEq, Repr, Inhabited

structure Slot where
  definition : SlotDefinition := {}
  armed : Bool := false
  request : Bool := false
  timer : Timer := .stopped
  deriving DecidableEq, Repr, Inhabited

inductive Priority where
  | fixed
  | rotating
  deriving DecidableEq, Repr, Inhabited

/-- The Plan Store with its power-on values (R82). Pool record i stands at place i - 1. -/
structure PlanStore where
  pool : Vector VerticalRecord 64 := Vector.replicate 64 {}
  meters : Vector MeterRecord 4 := Vector.replicate 4 {}
  slots : Vector Slot 4 := Vector.replicate 4 {}
  order : List Nat := [0, 1, 2, 3]
  priority : Priority := .fixed
  activeSlot : Option Nat := none
  /-- The fetched set, in increasing order without repeats (R63). -/
  fetched : List Nat := []
  previousStage : Option Int := none
  deriving DecidableEq, Repr, Inhabited

/-! ## Run Engine (chapter 5) -/

inductive RunState where
  | idle
  | moving
  | lowering
  | settling
  | counting
  | holding
  | homing
  | tripped
  deriving DecidableEq, Repr, Inhabited

/-- The end causes, in the order R86 lists them; a homing cause is one of the first eight. -/
inductive EndCause where
  | complete
  | cancelled
  | retreat
  | timeout
  | planEmpty
  | planOrder
  | planTooLong
  | planShort
  | trip
  | reset
  | homeTimeout
  deriving DecidableEq, Repr, Inhabited

inductive HoldKind where
  | nextVertical
  | nextPass
  deriving DecidableEq, Repr, Inhabited

inductive Direction where
  | increasing
  | decreasing
  deriving DecidableEq, Repr, Inhabited

/-- The working vertical (R86, R115). -/
structure WorkingVertical where
  index : Nat := 0
  ordinal : Nat := 0
  x : Nat := 0
  depthMode : DepthMode := .fixed
  /-- The depth field of the record as fetched, which becomes the depth at arrival (R95). -/
  fetchedDepth : Option Nat := none
  methodFetched : Method := .p6
  countTime : Nat := 0
  next : Nat := 0
  depth : Option Nat := none
  methodUsed : Option Method := none
  pointDepths : List Nat := []
  pointOrdinal : Nat := 0
  methodReduced : Bool := false
  restarted : Bool := false
  deriving DecidableEq, Repr, Inhabited

/-- The point record (R86). While a count runs its counted time is the elapsed time of the count
timer, and while a point is paused its paused time grows from `pausedSince` (R101, R102). -/
structure PointRecord where
  pulses : Nat := 0
  countedMs : Nat := 0
  pausedMs : Nat := 0
  pausedSince : Option Nat := none
  paused : Bool := false
  restartWait : Bool := false
  deriving DecidableEq, Repr, Inhabited

inductive TripRecord where
  | none
  | limit (line : Nat)
  | fault (code : Nat)
  | homeTimeout
  deriving DecidableEq, Repr, Inhabited

structure LastEnd where
  runNumber : Nat
  slot : Option Nat
  cause : EndCause
  stamp : Nat
  deriving DecidableEq, Repr, Inhabited

/-- The Run Engine with its power-on values (R115). -/
structure RunEngine where
  state : RunState := .idle
  runNumber : Nat := 0
  slot : Option Nat := none
  homingCause : Option EndCause := none
  passNumber : Nat := 0
  holdKind : Option HoldKind := none
  fetchCount : Nat := 0
  direction : Option Direction := none
  ghStart : Int := 0
  ghStartHeld : Bool := true
  passOpen : Bool := false
  vertical : WorkingVertical := {}
  point : PointRecord := {}
  trip : TripRecord := .none
  lastEnd : Option LastEnd := none
  moveTimer : Timer := .stopped
  settleTimer : Timer := .stopped
  countTimer : Timer := .stopped
  pauseTimer : Timer := .stopped
  homeTimer : Timer := .stopped
  deriving DecidableEq, Repr, Inhabited

/-! ## Result Store (chapter 6) -/

inductive PassStatus where
  | complete
  | aborted
  deriving DecidableEq, Repr, Inhabited

structure MeasuredPoint where
  pulses : Nat
  countedMs : Nat
  velocity : Nat
  deriving DecidableEq, Repr, Inhabited

/-- What finalization gives an entry (R121 to R123). -/
structure Panel where
  span : Nat
  q : Nat
  area : Nat
  deriving DecidableEq, Repr, Inhabited

/-- One entry of the vertical table (R120). Span, q and a are present together. -/
structure TableEntry where
  ordinal : Nat
  index : Nat
  x : Nat
  depthMode : DepthMode
  methodFetched : Method
  countTime : Nat
  depth : Option Nat := none
  methodUsed : Option Method := none
  pointDepths : List Nat := []
  points : List MeasuredPoint := []
  mean : Option Nat := none
  complete : Bool := false
  panel : Option Panel := none
  methodReduced : Bool := false
  restarted : Bool := false
  velocityClamped : Bool := false
  deriving DecidableEq, Repr, Inhabited

/-- One pass result (R128). -/
structure PassResult where
  id : Nat
  runNumber : Nat
  passNumber : Nat
  slot : Nat
  meter : Nat
  meterIdent : Nat
  status : PassStatus
  cause : EndCause
  startStamp : Nat
  endStamp : Nat
  verticals : Nat
  width : Nat
  area : Option Nat
  measured : Option Nat
  meanVelocity : Option Nat
  ghStart : Int
  ghEnd : Int
  ghMean : Int
  ghHeld : Bool
  version : Nat
  rated : Option Nat
  ratingMark : RatingMark
  deviation : Option Int
  proposal : Option Int
  proposalClamped : Bool
  velocityClamped : Bool
  restarted : Bool
  methodReduced : Bool
  beyondRating : Bool
  deriving DecidableEq, Repr, Inhabited

inductive PassState where
  | none
  | opened
  | closed
  deriving DecidableEq, Repr, Inhabited

/-- The pass record with its power-on values (R131, R133). -/
structure PassRecord where
  state : PassState := .none
  runNumber : Nat := 0
  passNumber : Nat := 0
  slot : Option Nat := none
  meter : Option Nat := none
  meterIdent : Option Nat := none
  startStamp : Nat := 0
  ghStart : Option Int := none
  ghStartHeld : Bool := false
  resultId : Option Nat := none
  deriving DecidableEq, Repr, Inhabited

/-- The Result Store with its power-on values (R133). -/
structure ResultStore where
  log : List PassResult := []
  nextId : Nat := 1
  table : List TableEntry := []
  pass : PassRecord := {}
  deriving DecidableEq, Repr, Inhabited

/-! ## Warning Unit (chapter 7) -/

/-- The criteria with their power-on values (R136). -/
structure Criteria where
  stage : Tri (Option Int) := ⟨none, none, none⟩
  discharge : Tri (Option Nat) := ⟨none, none, none⟩
  rise : Tri (Option Nat) := ⟨none, none, none⟩
  hysteresis : Nat := 100
  dischargeHysteresis : Nat := 50
  dwell : Nat := 60
  deriving DecidableEq, Repr, Inhabited

inductive OutputKind where
  | steady
  | siren
  deriving DecidableEq, Repr, Inhabited

inductive Override where
  | auto
  | on
  | off
  deriving DecidableEq, Repr, Inhabited

/-- One warning output (R151 to R153). -/
structure WarningOutput where
  showLevel : Nat
  kind : OutputKind
  override : Override := .auto
  automatic : Bool := false
  driven : Bool := false
  deriving DecidableEq, Repr, Inhabited

/-- The Warning Unit with its power-on values (R156). Levels are numbered CALM 0, WATCH 1, WARNING 2,
DANGER 3 (R135). -/
structure WarningUnit where
  level : Nat := 0
  criteria : Criteria := {}
  demanded : Nat := 0
  partStage : Nat := 0
  partDischarge : Nat := 0
  partRise : Nat := 0
  partFloor : Nat := 0
  floor : Nat := 0
  dwell : Timer := .stopped
  retreatStage : Option Int := none
  retreatLevel : Option Nat := none
  retreat : Bool := false
  silence : Bool := false
  outputs : Vector WarningOutput 4 :=
    #v[{ showLevel := 1, kind := .steady }, { showLevel := 2, kind := .steady },
       { showLevel := 2, kind := .siren }, { showLevel := 3, kind := .siren }]
  deriving DecidableEq, Repr, Inhabited

/-! ## Upstream Filter (chapter 8) -/

/-- The last report of an entry; arrival is uptime in ms (R158). -/
structure LastReport where
  stamp : Nat
  stage : Int
  level : Nat
  cls : Nat
  arrival : Nat
  deriving DecidableEq, Repr, Inhabited

/-- A pending item: its value and its effective time, uptime in ms (R164). -/
structure QueueItem where
  value : Nat
  effective : Nat
  deriving DecidableEq, Repr, Inhabited

/-- An entry of the station table with its power-on values (R158, R173). -/
structure StationEntry where
  address : Nat := 0
  stepDown : Nat := 0
  travel : Nat := 0
  last : Option LastReport := none
  contribution : Nat := 0
  stale : Bool := false
  queue : List QueueItem := []
  deriving DecidableEq, Repr, Inhabited

structure UpstreamCounters where
  table : Nat := 0
  neighbour : Nat := 0
  droppedClass : Nat := 0
  droppedOrder : Nat := 0
  droppedFilter : Nat := 0
  deriving DecidableEq, Repr, Inhabited

/-- The Upstream Filter with its power-on values (R173). A class map entry is a cap, or none for
DROP (R161). -/
structure UpstreamFilter where
  entries : Vector StationEntry 16 := Vector.replicate 16 {}
  hash : BitVec 64 := 0
  hashEnable : Bool := false
  acceptAll : Bool := false
  staleLimit : Nat := 120
  classMap : Vector (Option Nat) 8 := Vector.replicate 8 (some 0)
  counters : UpstreamCounters := {}
  floor : Nat := 0
  deriving DecidableEq, Repr, Inhabited

/-! ## Field Lines (chapter 9) -/

inductive LineFunction where
  | general
  | meterIn
  | settledIn
  | limitIn
  | ackIn
  | permitOut
  | warnOut (k : Nat)
  deriving DecidableEq, Repr, Inhabited

inductive LineDirection where
  | input
  | output
  deriving DecidableEq, Repr, Inhabited

/-- A field line with its power-on values (R175, R186). Polarity `high`: a high pin is active. -/
structure FieldLine where
  function : LineFunction := .general
  direction : LineDirection := .input
  polarity : Level := .high
  pullUp : Bool := false
  latch : Bool := false
  arm : Bool := false
  changed : Bool := false
  /-- The level forced on the pin from outside, or none while the outside leaves it open (R176). An
  input: log entry 7. -/
  forced : Option Level := none
  /-- The level now on the pin (R176). At reset: log entry 7. -/
  pin : Level := .low
  deriving DecidableEq, Repr, Inhabited

inductive Permit where
  | active
  | released
  | withdrawn
  deriving DecidableEq, Repr, Inhabited

/-- Field Lines with their power-on values (R186). -/
structure FieldLines where
  line : Vector FieldLine 16 := Vector.replicate 16 {}
  permit : Permit := .released
  warnKept : Vector Bool 4 := Vector.replicate 4 false
  deriving DecidableEq, Repr, Inhabited

/-! ## Notice Unit (chapter 10) -/

/-- The twenty notice sources, in the order of R188. -/
inductive Source where
  | levelRise
  | levelFall
  | retreat
  | stageStatus
  | signalLoss
  | floatSpike
  | disagree
  | beyondRating
  | ratingInstalled
  | runStarted
  | carriageWanted
  | proceedWanted
  | passDone
  | runEnded
  | trip
  | upstreamAccepted
  | upstreamStale
  | lineChange
  | historyReady
  | silenced
  deriving DecidableEq, Repr, Inhabited

/-- The five whole-part conditions (R188). -/
inductive Condition where
  | retreat
  | beyondRating
  | carriageWanted
  | proceedWanted
  | trip
  deriving DecidableEq, Repr, Inhabited

/-- One port's notices with their power-on values (R198). Bit n of a set is source n. -/
structure PortNotices where
  pendingSet : BitVec 20 := 0
  enables : BitVec 20 := 0
  master : Bool := false
  oneShot : Bool := false
  attention : Bool := false
  historyReady : Bool := false
  deriving DecidableEq, Repr, Inhabited

/-- The Notice Unit with its power-on values (R198). A route is a set of ports, L bit 0, T bit 1,
C bit 2. -/
structure NoticeUnit where
  routes : Vector (BitVec 3) 20 :=
    #v[3, 3, 7, 1, 1, 1, 1, 3, 1, 1, 5, 5, 1, 5, 5, 3, 3, 1, 1, 1]
  port : PerPort PortNotices := ⟨{}, {}, {}⟩
  retreat : Bool := false
  beyondRating : Bool := false
  carriageWanted : Bool := false
  proceedWanted : Bool := false
  trip : Bool := false
  deriving DecidableEq, Repr, Inhabited

/-! ## Port Unit (chapter 11) -/

/-- An open window: the reply frame fixed at its opening, and whether nothing is taken at its
release (R201, R206). -/
structure OpenWindow where
  shiftOut : List Byte
  discard : Bool
  deriving DecidableEq, Repr, Inhabited

structure PortState where
  buffer : Option Reply := none
  window : Option OpenWindow := none
  deriving DecidableEq, Repr, Inhabited

/-- The Port Unit with its power-on values (R203, R207). -/
structure PortUnit where
  port : PerPort PortState := ⟨{}, {}, {}⟩
  resetN : Bool := false
  por : Bool := false
  deriving DecidableEq, Repr, Inhabited

/-! ## The part -/

/-- The whole part, and the queue of the commands that wait. -/
structure State where
  clock : StationClock := {}
  stage : StageUnit := {}
  history : HistoryStore := {}
  rating : RatingUnit := {}
  plan : PlanStore := {}
  engine : RunEngine := {}
  results : ResultStore := {}
  warning : WarningUnit := {}
  upstream : UpstreamFilter := {}
  lines : FieldLines := {}
  notices : NoticeUnit := {}
  ports : PortUnit := {}
  /-- The commands waiting, first in first out (the model's own). -/
  pending : List Instr := []
  deriving DecidableEq, Repr, Inhabited

/-- The part right after a power-on reset (the table of section 11.5), with no command waiting. -/
def State.reset : State := {}

/-- Why the machine stops with a fault. No command of this part stops it: every request is answered
and every event has its effect. -/
inductive Fault where
  /-- Raised by nothing. Safe: no state reaches it. -/
  | none
  deriving DecidableEq, Repr

/-- Why a command has no meaning. -/
inductive Refusal where
  /-- The command's arm has no meaning yet. Raised by an arm of `exec` that is rejected by name; safe. -/
  | notModelled (mnemonic : String)
  deriving DecidableEq, Repr

end Sys2Proof.Machine
end

