-- ==== Sys2Proof/Machine/Operands.lean ====
section
/-! DEFINITION. Arithmetic of the conventions (R1), access to tables and to a port's own state, and the
reading and writing of enumerated codes (R204): the operand forms of the commands and of the replies. -/

namespace Sys2Proof.Machine

/-! ## Arithmetic (R1) -/

/-- The quotient of whole numbers rounded to the nearest, exact halves away from zero. The spec
forms intermediates in 64 bits, which none of its ranges exceeds: log entry 22. -/
def roundDiv (a : Int) (b : Nat) : Int :=
  if 0 ≤ a then ((2 * a.natAbs + b) / (2 * b) : Nat) else -((2 * a.natAbs + b) / (2 * b) : Nat)

/-- A value clamped to a range (R1). -/
def clamp (lo hi z : Int) : Int := if z < lo then lo else if hi < z then hi else z

/-- A count that stays at its maximum once there. -/
def saturate (top n : Nat) : Nat := if top < n then top else n

/-- Distance of two whole numbers. -/
def distance (a b : Int) : Nat := (a - b).natAbs

/-- Whether a whole number lies in a range. -/
def within (lo hi n : Nat) : Bool := decide (lo ≤ n ∧ n ≤ hi)

/-- Whether a signed number lies in a range. -/
def withinInt (lo hi z : Int) : Bool := decide (lo ≤ z ∧ z ≤ hi)

/-- The stage range of the conventions and of every stage field (R8, R39, R136). -/
def stageInRange (z : Int) : Bool := withinInt (-1000) 15000 z

/-- Milliseconds as whole seconds; how a part of a second counts is free (log entry 13). -/
def wholeSeconds (ms : Nat) : Nat :=
  if ms % 1000 = 0 then ms / 1000
  else if Config.partSecondUp ms then ms / 1000 + 1 else ms / 1000

/-! ## Tables -/

/-- The record at a place of a table; the default record where the table has no such place. -/
def at' {α : Type} [Inhabited α] {n : Nat} (v : Vector α n) (i : Nat) : α := v[i]?.getD default

/-- A table with the record at a place replaced; a place outside it changes nothing. -/
def put {α : Type} {n : Nat} (v : Vector α n) (i : Nat) (x : α) : Vector α n := v.setIfInBounds i x

/-! ## Ports -/

def PerPort.get {α : Type} (a : PerPort α) : Port → α
  | .L => a.l
  | .T => a.t
  | .C => a.c

def PerPort.set {α : Type} (a : PerPort α) (p : Port) (x : α) : PerPort α :=
  match p with
  | .L => { a with l := x }
  | .T => { a with t := x }
  | .C => { a with c := x }

def PerPort.mapPorts {α β : Type} (f : Port → α → β) (a : PerPort α) : PerPort β :=
  ⟨f .L a.l, f .T a.t, f .C a.c⟩

/-- A port's code and its place in a set of ports (R204). -/
def portCode : Port → Nat
  | .L => 0
  | .T => 1
  | .C => 2

/-- The value of a criterion for level j in 1..3. -/
def triAt {α : Type} (t : Tri α) : Nat → α
  | 0 => t.one
  | 1 => t.one
  | 2 => t.two
  | _ => t.three

/-! ## Enumerated codes (R204): the position in the list that defines the field -/

/-- A yes or no field, or another field of two values: true for the first value listed. -/
def twoValuedOf : Nat → Option Bool
  | 0 => some true
  | 1 => some false
  | _ => none

def channelOf : Nat → Option Channel
  | 0 => some .f
  | 1 => some .p
  | _ => none

def depthModeOf : Nat → Option DepthMode
  | 0 => some .fixed
  | 1 => some .sound
  | _ => none

def methodOf : Nat → Option Method
  | 0 => some .p6
  | 1 => some .p28
  | 2 => some .p268
  | 3 => some .surf
  | _ => none

def runModeOf : Nat → Option RunMode
  | 0 => some .traverse
  | 1 => some .stepped
  | _ => none

def settledSenseOf : Nat → Option SettledSense
  | 0 => some .ignore
  | 1 => some .level
  | _ => none

def triggerSenseOf : Nat → Option TriggerSense
  | 0 => some .edge
  | 1 => some .level
  | _ => none

def priorityOf : Nat → Option Priority
  | 0 => some .fixed
  | 1 => some .rotating
  | _ => none

def outputKindOf : Nat → Option OutputKind
  | 0 => some .steady
  | 1 => some .siren
  | _ => none

def directionOf : Nat → Option LineDirection
  | 0 => some .input
  | 1 => some .output
  | _ => none

/-- HIGH is listed first (R175). -/
def polarityOf : Nat → Option Level
  | 0 => some .high
  | 1 => some .low
  | _ => none

/-- A line function from its tag and output number (R175, R178). -/
def lineFunctionOf (tag output : Nat) : Option LineFunction :=
  match tag with
  | 0 => some .general
  | 1 => some .meterIn
  | 2 => some .settledIn
  | 3 => some .limitIn
  | 4 => some .ackIn
  | 5 => some .permitOut
  | 6 => if output ≤ 3 then some (.warnOut output) else none
  | _ => none

def replyCodeValue : ReplyCode → Nat
  | .ok => 0
  | .empty => 1
  | .range => 2
  | .state => 3
  | .inUse => 4
  | .role => 5
  | .unknown => 6
  | .badFrame => 7

def statusCode : StageStatus → Nat
  | .starting => 0
  | .good => 1
  | .suspect => 2
  | .single => 3
  | .lost => 4

def judgementCode : Judgement → Nat
  | .none => 0
  | .invalid => 1
  | .accepted => 2
  | .rejected => 3
  | .reanchored => 4

def signalCode : Signal → Nat
  | .none => 0
  | .present => 1
  | .loss => 2

def channelCode : Channel → Nat
  | .f => 0
  | .p => 1

def ratingMarkCode : RatingMark → Nat
  | .none => 0
  | .below => 1
  | .above => 2
  | .aboveLimit => 3

def depthModeCode : DepthMode → Nat
  | .fixed => 0
  | .sound => 1

def methodCode : Method → Nat
  | .p6 => 0
  | .p28 => 1
  | .p268 => 2
  | .surf => 3

def runStateCode : RunState → Nat
  | .idle => 0
  | .moving => 1
  | .lowering => 2
  | .settling => 3
  | .counting => 4
  | .holding => 5
  | .homing => 6
  | .tripped => 7

def endCauseCode : EndCause → Nat
  | .complete => 0
  | .cancelled => 1
  | .retreat => 2
  | .timeout => 3
  | .planEmpty => 4
  | .planOrder => 5
  | .planTooLong => 6
  | .planShort => 7
  | .trip => 8
  | .reset => 9
  | .homeTimeout => 10

def holdKindCode : HoldKind → Nat
  | .nextVertical => 0
  | .nextPass => 1

def directionCode : Direction → Nat
  | .increasing => 0
  | .decreasing => 1

def permitCode : Permit → Nat
  | .active => 0
  | .released => 1
  | .withdrawn => 2

def passStateCode : PassState → Nat
  | .none => 0
  | .opened => 1
  | .closed => 2

def overrideCode : Override → Nat
  | .auto => 0
  | .on => 1
  | .off => 2

/-- A line function: its tag and, in the space after it, its output number. -/
def lineFunctionBytes : LineFunction → List Byte
  | .general => u8 0 ++ u8 0
  | .meterIn => u8 1 ++ u8 0
  | .settledIn => u8 2 ++ u8 0
  | .limitIn => u8 3 ++ u8 0
  | .ackIn => u8 4 ++ u8 0
  | .permitOut => u8 5 ++ u8 0
  | .warnOut k => u8 6 ++ u8 k

/-! ## Optional fields of a reply (R204) -/

/-- The presence mask of the optional fields, in k bytes, the first field at mark 0. -/
def maskNat : List Bool → Nat
  | [] => 0
  | b :: bs => (if b then 1 else 0) + 2 * maskNat bs

def maskBytes (k : Nat) (bs : List Bool) : List Byte := setBytes k (maskNat bs)

/-- The bytes of an optional field: its value, or zeros. -/
def optU8 (o : Option Nat) : List Byte := u8 (o.getD 0)
def optU16 (o : Option Nat) : List Byte := u16 (o.getD 0)
def optU32 (o : Option Nat) : List Byte := u32 (o.getD 0)
def optI16 (o : Option Int) : List Byte := i16 (o.getD 0)

/-- A list of varying length, preceded by its count in one byte. -/
def counted {α : Type} (f : α → List Byte) (l : List α) : List Byte :=
  u8 l.length ++ (l.map f).flatten

/-- A list whose length is fixed, without a count. -/
def eachOf {α : Type} (f : α → List Byte) (l : List α) : List Byte := (l.map f).flatten

/-- A set of named members, each a Bool in order, in k bytes. -/
def flagSet (k : Nat) (bs : List Bool) : List Byte := setBytes k (maskNat bs)

/-! ## Replies -/

def okReply (data : List Byte) : Reply := ⟨.ok, data⟩
def emptyReply (data : List Byte) : Reply := ⟨.empty, data⟩
def rangeReply (data : List Byte) : Reply := ⟨.range, data⟩
def stateReply : Reply := ⟨.state, []⟩
def inUseReply : Reply := ⟨.inUse, []⟩

/-- The reply frame shifted out for a buffer (R201, section 11.6). -/
def replyFrame : Option Reply → List Byte
  | none => u8 15 ++ u16 0
  | some r => u8 (replyCodeValue r.status) ++ u16 r.data.length ++ r.data

end Sys2Proof.Machine
end

