-- ==== Sys2Proof/Machine/Flags.lean ====
section
/-! DEFINITION. The Notice Unit: raising an event, handing a condition, judging the attention line
(R189 to R195). These are the flags of the part; every block raises its notices through here. -/

namespace Sys2Proof.Machine

/-- The number of a source (R188). -/
def sourceNumber : Source → Nat
  | .levelRise => 0
  | .levelFall => 1
  | .retreat => 2
  | .stageStatus => 3
  | .signalLoss => 4
  | .floatSpike => 5
  | .disagree => 6
  | .beyondRating => 7
  | .ratingInstalled => 8
  | .runStarted => 9
  | .carriageWanted => 10
  | .proceedWanted => 11
  | .passDone => 12
  | .runEnded => 13
  | .trip => 14
  | .upstreamAccepted => 15
  | .upstreamStale => 16
  | .lineChange => 17
  | .historyReady => 18
  | .silenced => 19

/-- The source of a whole-part condition. -/
def conditionSource : Condition → Source
  | .retreat => .retreat
  | .beyondRating => .beyondRating
  | .carriageWanted => .carriageWanted
  | .proceedWanted => .proceedWanted
  | .trip => .trip

/-- The set with one member. -/
def member (n : Nat) : BitVec 20 := 1#20 <<< n

def addMember (x : BitVec 20) (n : Nat) : BitVec 20 := x ||| member n

def dropMember (x : BitVec 20) (n : Nat) : BitVec 20 := x &&& ~~~ member n

/-- Whether a source is routed to a port (R189). -/
def NoticeUnit.routed (n : NoticeUnit) (source : Nat) (p : Port) : Bool :=
  (at' n.routes source).getLsbD (portCode p)

/-- Whether a whole-part condition holds now (R188). -/
def NoticeUnit.holds (n : NoticeUnit) : Condition → Bool
  | .retreat => n.retreat
  | .beyondRating => n.beyondRating
  | .carriageWanted => n.carriageWanted
  | .proceedWanted => n.proceedWanted
  | .trip => n.trip

def NoticeUnit.setHolds (n : NoticeUnit) (c : Condition) (v : Bool) : NoticeUnit :=
  match c with
  | .retreat => { n with retreat := v }
  | .beyondRating => { n with beyondRating := v }
  | .carriageWanted => { n with carriageWanted := v }
  | .proceedWanted => { n with proceedWanted := v }
  | .trip => { n with trip := v }

/-- The attention line judged again (R194). -/
def PortNotices.judge (x : PortNotices) : PortNotices :=
  { x with attention := x.master && (x.pendingSet &&& x.enables != 0#20) }

/-- A source joins or leaves a port's pending set, and its attention line is judged (R190, R191). -/
def PortNotices.mark (x : PortNotices) (n : Nat) (v : Bool) : PortNotices :=
  let y := { x with pendingSet := if v then addMember x.pendingSet n else dropMember x.pendingSet n }
  y.judge

/-- An event joins the pending set of every port in its route (R190). -/
def NoticeUnit.raise (n : NoticeUnit) (e : Source) : NoticeUnit :=
  { n with port := n.port.mapPorts fun p x =>
      if n.routed (sourceNumber e) p then x.mark (sourceNumber e) true else x }

/-- A condition comes to hold or stops holding (R191). A handing that changes nothing changes no
pending set. -/
def NoticeUnit.hand (n : NoticeUnit) (c : Condition) (v : Bool) : NoticeUnit :=
  let m := n.setHolds c v
  let k := sourceNumber (conditionSource c)
  if n.holds c = v then n
  else { m with port := n.port.mapPorts fun p x => if n.routed k p then x.mark k v else x }

/-- A port's own HISTORY_READY comes to hold or stops holding (R191, R36). -/
def NoticeUnit.handReady (n : NoticeUnit) (p : Port) (v : Bool) : NoticeUnit :=
  let x := n.port.get p
  if x.historyReady = v then n
  else
    let y := { x with historyReady := v }
    let z := if n.routed (sourceNumber .historyReady) p then y.mark (sourceNumber .historyReady) v else y
    { n with port := n.port.set p z }

/-- The condition sources that hold now for a port and are routed to it (R195 step 3, R199). -/
def NoticeUnit.holdingSet (n : NoticeUnit) (p : Port) : BitVec 20 :=
  let one (source : Source) (v : Bool) : BitVec 20 :=
    if v && n.routed (sourceNumber source) p then member (sourceNumber source) else 0#20
  one .retreat n.retreat ||| one .beyondRating n.beyondRating ||| one .carriageWanted n.carriageWanted
    ||| one .proceedWanted n.proceedWanted ||| one .trip n.trip
    ||| one .historyReady (n.port.get p).historyReady

/-- FETCH_NOTICES on one port: the pending set is emptied, holding conditions are added back, the
one-shot flag acts and the attention line is judged (R195). -/
def NoticeUnit.fetch (n : NoticeUnit) (p : Port) : NoticeUnit :=
  let x := n.port.get p
  let y := { x with pendingSet := n.holdingSet p, master := x.master && !x.oneShot }
  { n with port := n.port.set p y.judge }

/-- A source's route replaced (R189): a port removed has its pending bit cleared; a port added has a
condition pending at once when it holds; an event added is not pending. -/
def NoticeUnit.setRoute (n : NoticeUnit) (source : Nat) (route : BitVec 3) : NoticeUnit :=
  let m := { n with routes := put n.routes source route }
  { m with port := m.port.mapPorts fun p x =>
      if m.routed source p then
        if n.routed source p then x
        else if (m.holdingSet p).getLsbD source then x.mark source true else x
      else if n.routed source p then x.mark source false
      else x }

/-- The clearing half of a station reset: master enables, one-shot flags and everything pending
before it (R199). -/
def NoticeUnit.clearForReset (n : NoticeUnit) : NoticeUnit :=
  let clear (x : PortNotices) := { x with pendingSet := 0#20, master := false, oneShot := false }
  { n with port := n.port.mapPorts fun _ x => (clear x).judge }

/-- The restoring half: every condition that holds after the reset is pending again (R199). -/
def NoticeUnit.restoreAfterReset (n : NoticeUnit) : NoticeUnit :=
  let add (p : Port) (x : PortNotices) := { x with pendingSet := x.pendingSet ||| n.holdingSet p }
  { n with port := n.port.mapPorts fun p x => (add p x).judge }

/-! ## The same operations on the part -/

def raise (e : Source) (s : State) : State := { s with notices := s.notices.raise e }

def raiseIf (b : Bool) (e : Source) (s : State) : State := if b then raise e s else s

def handCondition (c : Condition) (v : Bool) (s : State) : State :=
  { s with notices := s.notices.hand c v }

def handReady (p : Port) (v : Bool) (s : State) : State :=
  { s with notices := s.notices.handReady p v }

end Sys2Proof.Machine
end

