-- ==== Sys2Proof/Machine/Ops.lean ====
section
/-! DEFINITION. The operations the blocks share: time and timers (R4), windows and replies (R200 to
R207), line values and drives (R175 to R184). -/

namespace Sys2Proof.Machine

/-! ## Time and timers (R4) -/

/-- Uptime with its phase, in milliseconds. -/
def nowMs (s : State) : Nat := s.clock.uptime * 1000 + s.clock.phase

def Timer.isRunning : Timer → Bool
  | .running _ => true
  | _ => false

/-- The time a timer has left, ms. -/
def Timer.left (t : Timer) (now : Nat) : Nat :=
  match t with
  | .stopped => 0
  | .running due => due - now
  | .held left => left

/-- A running timer held with the time it has left; it does not advance while held. -/
def Timer.hold (t : Timer) (now : Nat) : Timer :=
  match t with
  | .running due => .held (due - now)
  | t => t

/-- A held timer runs on from where it was held. -/
def Timer.resume (t : Timer) (now : Nat) : Timer :=
  match t with
  | .held left => .running (now + left)
  | t => t

/-- A timer started now with a duration in ms. -/
def startTimer (s : State) (ms : Nat) : Timer := .running (nowMs s + ms)

/-- The uptime count advances by one second's end: its phase passes to 0, and the station clock's own
phase takes the time that passed (R4). -/
def advanceUptime (s : State) : State :=
  { s with clock :=
    { s.clock with
      uptime := if s.clock.uptime < Config.clockMax then s.clock.uptime + 1 else s.clock.uptime
      phase := 0
      clockPhase := s.clock.clockPhase + (1000 - s.clock.phase) } }

/-- One millisecond within a second (R4). -/
def passMillisecond (s : State) : State :=
  { s with clock :=
    { s.clock with phase := s.clock.phase + 1, clockPhase := s.clock.clockPhase + 1 } }

/-! ## Windows and replies (R200 to R207) -/

def setPort (p : Port) (x : PortState) (s : State) : State :=
  { s with ports := { s.ports with port := s.ports.port.set p x } }

/-- Chip select is released on a port: its window is no longer open (R201). -/
def closeWindow (p : Port) (s : State) : State :=
  setPort p { s.ports.port.get p with window := none } s

/-- Whether nothing is taken at the release of a port's window: POR is active (R207), or the window
opened while RESET_N was active or was open at a reset (R201, R206). A release for which no WINDOW_OPEN
was sent stands for a whole window, which opens and closes at once (log entry 3). -/
def windowDead (p : Port) (s : State) : Bool :=
  s.ports.por ||
    match (s.ports.port.get p).window with
    | some w => w.discard
    | none => s.ports.resetN

/-- The reply made for a frame replaces the port's buffer (R203). -/
def setReply (p : Port) (r : Reply) (s : State) : State :=
  setPort p { s.ports.port.get p with buffer := some r } s

/-- The ROLE reply: the code and the port's role (R202). -/
def roleReply (code : Nat) (p : Port) : Reply := ⟨.role, u8 code ++ u8 (portCode p)⟩

/-- The take of a request frame that passed the frame and code checks: the role check, then the owner's
rule, then the reply in the port's buffer (R200 to R203). A window to be discarded takes nothing. -/
def request (code : Nat) (p : Port) (s : State) (owner : State → State × Reply) : State :=
  if windowDead p s then closeWindow p s
  else if p ∈ rolesOf code then
    setReply p (owner (closeWindow p s)).2 (owner (closeWindow p s)).1
  else setReply p (roleReply code p) (closeWindow p s)

/-- A request that reads and changes no state but the port's reply buffer. -/
def readRequest (code : Nat) (p : Port) (s : State) (reply : State → Reply) : State :=
  request code p s fun t => (t, reply t)

/-- A window opens: the part fixes the reply frame it shifts out (R201). While POR is active it shifts
out filler only (R207); while RESET_N is active the window will be discarded (R206). -/
def openWindow (p : Port) (s : State) : State :=
  let x := s.ports.port.get p
  match x.window with
  | some _ => s
  | none =>
    let w : OpenWindow :=
      { shiftOut := if s.ports.por then [] else replyFrame x.buffer
        discard := s.ports.por || s.ports.resetN }
    setPort p { x with window := some w } s

/-- A reset reaches the ports: every buffer is NONE, and a window open now is to be discarded and
shifts out filler from here (R201, R205). -/
def PortState.atReset (x : PortState) : PortState :=
  { buffer := none, window := x.window.map fun _ => { shiftOut := [], discard := true } }

def resetPorts (s : State) : State :=
  { s with ports := { s.ports with port := s.ports.port.mapPorts fun _ x => x.atReset } }

/-- The part does not act while POR is active: an event has its effect only outside (R207). -/
def unlessPor (s : State) (f : State → State) : State := if s.ports.por then s else f s

/-! ## Field lines: values, drives and change of state (R175, R176, R181 to R184) -/

/-- The pin state: the pin level read through the polarity (R175). -/
def FieldLine.pinState (l : FieldLine) : Bool := l.pin == l.polarity

/-- The pin level that the polarity gives a value (R176). -/
def FieldLine.levelFor (l : FieldLine) (v : Bool) : Level :=
  match l.polarity, v with
  | .high, true => .high
  | .high, false => .low
  | .low, true => .low
  | .low, false => .high

/-- The trip hold applies while the permit value is WITHDRAWN (R183). -/
def FieldLines.tripHold (f : FieldLines) : Bool := f.permit == .withdrawn

/-- Whether the trip hold applies to a line (R183, R185). -/
def FieldLines.heldLine (f : FieldLines) (l : FieldLine) : Bool :=
  f.tripHold && match l.function with
    | .meterIn => true
    | .settledIn => true
    | .permitOut => true
    | _ => false

/-- The line value (R175, R181, R182, R183). -/
def FieldLines.value (f : FieldLines) (l : FieldLine) : Bool :=
  match l.function with
  | .general =>
    match l.direction with
    | .input => l.pinState
    | .output => l.latch
  | .meterIn => l.pinState && !f.tripHold
  | .settledIn => l.pinState && !f.tripHold
  | .limitIn => l.pinState
  | .ackIn => l.pinState
  | .permitOut => f.permit == .active
  | .warnOut k => at' f.warnKept k

/-- The watched value of a line (R184). -/
def FieldLines.watched (f : FieldLines) (l : FieldLine) : Bool :=
  match l.direction with
  | .input => l.pinState
  | .output => f.value l

/-- The level at which a line drives its pin, or none where it does not drive (R176, R181). -/
def FieldLines.drive (f : FieldLines) (l : FieldLine) : Option Level :=
  match l.direction with
  | .input => none
  | .output =>
    if l.function = .permitOut ∧ f.permit = .withdrawn then none else some (l.levelFor (f.value l))

/-- Whether a line's pull-up acts: its enable is set, the line does not drive its pin low, and it is
not the PERMIT_OUT line of a withdrawn permit (R176, R181). -/
def FieldLines.pullUpActs (f : FieldLines) (l : FieldLine) : Bool :=
  l.pullUp && f.drive l != some .low && !(l.function == .permitOut && f.permit == .withdrawn)

/-- The level a line's pin takes: that of the line's own drive, else the level forced on it from outside,
else high where the pull-up acts (R176). A pin that nothing holds keeps its level: log entry 7. -/
def FieldLines.pinLevel (f : FieldLines) (l : FieldLine) : Level :=
  match f.drive l, l.forced with
  | some v, _ => v
  | none, some v => v
  | none, none => if f.pullUpActs l then .high else l.pin

/-- What a line presents to its pin: its drive, and whether its pull-up acts (R176). -/
def FieldLines.presented (f : FieldLines) (l : FieldLine) : Option Level × Bool :=
  (f.drive l, f.pullUpActs l)

/-- The pins after a change of the lines: a pin takes its level anew where what its line presents to it
has changed, and every other pin stays (R176). -/
def FieldLines.settlePins (f old : FieldLines) : FieldLines :=
  let settle (i : Nat) (l : FieldLine) : FieldLine :=
    if f.presented l = old.presented (at' old.line i) then l else { l with pin := f.pinLevel l }
  { f with line := f.line.mapIdx settle }

/-- The index of the first line with a function. -/
def FieldLines.find? (f : FieldLines) (fn : LineFunction) : Option Nat :=
  (List.range 16).find? fun i => (at' f.line i).function == fn

/-- Whether any line with a function has an active value. -/
def FieldLines.anyActive (f : FieldLines) (fn : LineFunction) : Bool :=
  (List.range 16).any fun i => (at' f.line i).function == fn && f.value (at' f.line i)

/-- Whether an armed line's watched value differs between two states of the lines (R184). -/
def lineMoved (old new : FieldLines) (i : Nat) : Bool :=
  (at' new.line i).arm && (old.watched (at' old.line i) != new.watched (at' new.line i))

/-- The change-of-state judgement over all lines after a change from `old` (R184). -/
def judgeLines (old : FieldLines) (s : State) : State :=
  let mark (i : Nat) (l : FieldLine) : FieldLine :=
    if lineMoved old s.lines i then { l with changed := true } else l
  raiseIf ((List.range 16).any (lineMoved old s.lines)) .lineChange
    { s with lines := { s.lines with line := s.lines.line.mapIdx mark } }

/-- The lines take new contents that change line values: the drives follow, and each change is
judged (R176, R184). -/
def changeLines (f : FieldLines) (s : State) : State :=
  judgeLines s.lines { s with lines := f.settlePins s.lines }

/-- The Run Engine hands Field Lines a permit value (R85, R181). -/
def handPermit (v : Permit) (s : State) : State :=
  if s.lines.permit = v then s else changeLines { s.lines with permit := v } s

/-- The Warning Unit hands Field Lines its driven values (R153, R182). -/
def handDriven (v : Vector Bool 4) (s : State) : State :=
  if s.lines.warnKept = v then s else changeLines { s.lines with warnKept := v } s

end Sys2Proof.Machine
end

