-- ==== Sys2Proof/Machine/HistoryOps.lean ====
section
/-! DEFINITION. Operations of the History Store (chapter 2): the open interval, the append at a
boundary, cursors, unread counts and HISTORY_READY. -/

namespace Sys2Proof.Machine

/-- The rank of a status for the worst status of an interval (R28). -/
def statusRank : StageStatus → Nat
  | .good => 0
  | .single => 1
  | .suspect => 2
  | .starting => 3
  | .lost => 4

def worseStatus (a b : StageStatus) : StageStatus := if statusRank a < statusRank b then b else a

/-- The peak after a present or absent stage is offered (R28). -/
def raisePeak (peak stage : Option Int) : Option Int :=
  match peak, stage with
  | p, none => p
  | none, some v => some v
  | some p, some v => some (if p < v then v else p)

/-- An offer of the Stage Unit enters the open interval (R28). -/
def HistoryStore.takeOffer (h : HistoryStore) (stage : Option Int) (status : StageStatus) : HistoryStore :=
  { h with peak := raisePeak h.peak stage, worst := worseStatus h.worst status }

/-- A change of the warning level enters the open interval (R28). -/
def HistoryStore.takeLevel (h : HistoryStore) (level : Nat) : HistoryStore :=
  { h with highest := max h.highest level }

def HistoryStore.oldest (h : HistoryStore) : Option Nat := h.ring.head?.map IntervalRecord.seq

def HistoryStore.newest (h : HistoryStore) : Option Nat := h.ring.getLast?.map IntervalRecord.seq

/-- Whether a cursor lies before the ring (R31). -/
def HistoryStore.behind (h : HistoryStore) (cursor : Nat) : Bool :=
  match h.oldest with
  | none => false
  | some o => decide (cursor < o)

/-- The unread count of a cursor (R31). -/
def HistoryStore.unread (h : HistoryStore) (cursor : Nat) : Nat :=
  if h.behind cursor then h.ring.length
  else
    match h.newest with
    | none => 0
    | some n => n + 1 - cursor

/-- The gap of a cursor (R31). -/
def HistoryStore.gap (h : HistoryStore) (cursor : Nat) : Nat :=
  match h.oldest with
  | none => 0
  | some o => saturate 65535 (o - cursor)

/-- The cursor moved to the oldest record when it lies before the ring (R32 step 1). -/
def HistoryStore.caughtUp (h : HistoryStore) (cursor : Nat) : Nat :=
  if h.behind cursor then h.oldest.getD cursor else cursor

/-- The records from a cursor onward (R32). -/
def HistoryStore.recordsFrom (h : HistoryStore) (cursor count : Nat) : List IntervalRecord :=
  (h.ring.filter fun r => decide (cursor ≤ r.seq)).take count

/-- The stage field of the k-th newest record (R19). -/
def HistoryStore.stageBack (h : HistoryStore) (k : Nat) : Option Int :=
  match h.ring.reverse[k - 1]? with
  | some r => r.stage
  | none => none

/-- The ring with a record appended; the oldest leaves when it already holds 96 (R30). -/
def HistoryStore.appendRecord (h : HistoryStore) (r : IntervalRecord) : HistoryStore :=
  { h with
    ring := (if Config.ringSize ≤ h.ring.length then h.ring.drop 1 else h.ring) ++ [r]
    nextSeq := h.nextSeq + 1
    mark := r.stamp }

/-- The record that a boundary closes now (R29). -/
def closingRecord (s : State) : IntervalRecord :=
  { seq := s.history.nextSeq
    stamp := s.clock.clock
    stage := s.stage.stilled
    peak := s.history.peak
    status := s.history.worst
    discharge := s.rating.current.discharge
    mark := s.rating.current.mark
    highest := s.history.highest }

/-- A port's HISTORY_READY judged again (R36). -/
def judgeReady (p : Port) (s : State) : State :=
  handReady p
    (decide (s.history.thresholds.get p ≤ s.history.unread (s.history.cursors.get p))) s

/-- A boundary: the record is appended, the next interval is seeded, and each port's condition is
judged again (R27 to R31, R36). -/
def takeBoundary (s : State) : State :=
  let h := s.history.appendRecord (closingRecord s)
  let h' := { h with peak := s.stage.stilled, worst := s.stage.status, highest := s.warning.level }
  judgeReady .C (judgeReady .T (judgeReady .L { s with history := h' }))

/-- Whether the station clock's value is a boundary (R27). -/
def atBoundary (s : State) : Bool :=
  decide (s.clock.clock % (s.history.interval * 60) = 0 ∧ s.history.mark < s.clock.clock)

/-- A port's cursor moved, and its condition judged again (R31, R36). -/
def moveCursor (p : Port) (cursor : Nat) (s : State) : State :=
  judgeReady p { s with history := { s.history with cursors := s.history.cursors.set p cursor } }

end Sys2Proof.Machine
end

