-- ==== Sys2Proof/Machine/RatingOps.lean ====
section
/-! DEFINITION. Operations of the Rating Unit (chapter 3): the discharge for a stage, the inverse
rating, the shift proposal and the current discharge. -/

namespace Sys2Proof.Machine

/-- The first segment whose upper breakpoint lies at or above the effective stage (R46). -/
def segmentFor (he : Int) : List Breakpoint → Option (Breakpoint × Breakpoint)
  | a :: b :: rest => if he ≤ b.h then some (a, b) else segmentFor he (b :: rest)
  | _ => none

/-- The last segment of a table (R47). -/
def lastSegment : List Breakpoint → Option (Breakpoint × Breakpoint)
  | [a, b] => some (a, b)
  | _ :: b :: rest => lastSegment (b :: rest)
  | _ => none

/-- The discharge along a segment at an effective stage (R46, R47). -/
def alongSegment (a b : Breakpoint) (he : Int) : Int :=
  roundDiv (((b.q : Int) - a.q) * (he - a.h)) (b.h - a.h).toNat

/-- A discharge saturated to its range (R47). -/
def saturateDischarge (q : Int) : Nat := (clamp 0 Config.dischargeMax q).toNat

/-- The table read at an effective stage: the discharge and its mark (R46, R47). -/
def readTable (table : List Breakpoint) (limit : Nat) (he : Int) : Option (Nat × RatingMark) :=
  match table with
  | [] => none
  | first :: _ =>
    if he ≤ first.h then some (first.q, .below)
    else
      match segmentFor he table with
      | some (a, b) => some (saturateDischarge (a.q + alongSegment a b he), .none)
      | none =>
        match lastSegment table with
        | none => some (first.q, .below)
        | some (a, b) =>
          let top := b.h + limit
          let hc := if he ≤ top then he else top
          let q := b.q + roundDiv (((b.q : Int) - a.q) * (hc - b.h)) (b.h - a.h).toNat
          some (saturateDischarge q, if he ≤ top then .above else .aboveLimit)

/-- The version of the table in service, 0 when there is none (R46, R48). -/
def RatingUnit.tableVersion (r : RatingUnit) : Nat := if r.active = [] then 0 else r.version

/-- The discharge for a stage (R46 to R48). -/
def RatingUnit.dischargeFor (r : RatingUnit) (stage : Option Int) : DischargeResult :=
  match stage with
  | none => { version := r.tableVersion }
  | some h =>
    match readTable r.active r.limit (h + r.shift) with
    | none => { version := r.tableVersion }
    | some (q, mark) =>
      { discharge := some q, mark := mark, version := r.tableVersion, effective := some (h + r.shift) }

/-- The first rising segment that reaches a discharge (R52). -/
def risingSegment (q : Nat) : List Breakpoint → Option (Breakpoint × Breakpoint)
  | a :: b :: rest => if q ≤ b.q ∧ a.q < b.q then some (a, b) else risingSegment q (b :: rest)
  | _ => none

/-- The inverse rating: the effective stage of a discharge (R52). -/
def inverseRating (table : List Breakpoint) (q : Nat) : Option Int :=
  match table with
  | first :: second :: _ =>
    match table.getLast? with
    | none => none
    | some last =>
      if q < first.q ∨ last.q < q then none
      else if q = first.q ∧ second.q = first.q then some first.h
      else (risingSegment q table).map fun (a, b) =>
        a.h + roundDiv (((q : Int) - a.q) * (b.h - a.h)) (b.q - a.q)
  | _ => none

/-- The shift proposal with its CLAMPED mark (R53). -/
def shiftProposal (hEq : Option Int) (ghMean : Int) : Option Int × Bool :=
  match hEq with
  | none => (none, false)
  | some h =>
    (some (clamp (-500) 500 (h - ghMean)), !withinInt (-500) 500 (h - ghMean))

/-- Whether a mark lies beyond the rating (R50, R126). -/
def RatingMark.beyond : RatingMark → Bool
  | .above => true
  | .aboveLimit => true
  | _ => false

/-- The current discharge recomputed for a stage, and BEYOND_RATING judged on it (R49, R50). -/
def recomputeDischarge (stage : Option Int) (s : State) : State :=
  let result := s.rating.dischargeFor stage
  handCondition .beyondRating result.mark.beyond
    { s with rating := { s.rating with current := result, stageUsed := stage } }

/-- The staged count: the highest written index plus one, or 0 (R40). -/
def stagedCount (staged : Vector (Option Breakpoint) 24) : Nat :=
  (List.range 24).foldl (fun n i => if (at' staged i).isSome then i + 1 else n) 0

/-- Why a staged table fails its check: failure kind and index reported (R42). -/
inductive StagedFault where
  | count (n : Nat)
  | emptyIndex (i : Nat)
  | stageOrder (i : Nat)
  | dischargeOrder (i : Nat)
  deriving DecidableEq, Repr

/-- The check of the staged breakpoints from index i on, the one before them given (R42). -/
def checkStagedFrom (i : Nat) (before : Option Breakpoint) : List (Option Breakpoint) → Option StagedFault
  | [] => none
  | none :: _ => some (.emptyIndex i)
  | some b :: rest =>
    match before with
    | none => checkStagedFrom (i + 1) (some b) rest
    | some a =>
      if ¬ a.h < b.h then some (.stageOrder i)
      else if b.q < a.q then some (.dischargeOrder i)
      else checkStagedFrom (i + 1) (some b) rest

/-- The check of INSTALL_RATING (R42). -/
def checkStaged (staged : Vector (Option Breakpoint) 24) : Option StagedFault :=
  let n := stagedCount staged
  if n < 2 then some (.count n) else checkStagedFrom 0 none (staged.toList.take n)

/-- The breakpoints an install makes active (R43). -/
def stagedPoints (staged : Vector (Option Breakpoint) 24) : List Breakpoint :=
  (staged.toList.take (stagedCount staged)).filterMap id

/-- The version after an install (R43). -/
def nextVersion (v : Nat) : Nat := if v = 0 then 1 else if v < 255 then v + 1 else 1

end Sys2Proof.Machine
end

