-- ==== Sys2Proof/Machine/ResultOps.lean ====
section
/-! DEFINITION. Operations of the Result Store (chapter 6): point velocity, mean velocity, panels,
totals and the pass result. -/

namespace Sys2Proof.Machine

/-- The definition of the active slot, fixed for the run (R66, R77). -/
def activeDefinition (s : State) : SlotDefinition :=
  (at' s.plan.slots (s.engine.slot.getD 0)).definition

/-- The active slot's meter record (R116). -/
def activeMeter (s : State) : MeterRecord := at' s.plan.meters (activeDefinition s).meter

/-! ## Point and vertical (R116 to R119) -/

/-- The point velocity before its clamp (R116). -/
def rawVelocity (m : MeterRecord) (pulses countedMs : Nat) : Nat :=
  if pulses = 0 then 0 else m.a + (roundDiv ((m.b : Int) * pulses) (m.pulses * countedMs)).toNat

/-- The point velocity, clamped to 10,000 mm/s (R116). -/
def pointVelocity (m : MeterRecord) (pulses countedMs : Nat) : Nat :=
  saturate 10000 (rawVelocity m pulses countedMs)

/-- The mean velocity of a vertical by the method used (R119); 0 where it has no points. -/
def meanVelocity (method : Option Method) (velocities : List Nat) (coefficient : Nat) : Nat :=
  match method, velocities with
  | some .p6, [v] => v
  | some .p28, [a, b] => (roundDiv ((a : Int) + b) 2).toNat
  | some .p268, [a, b, c] => (roundDiv ((a : Int) + 2 * b + c) 4).toNat
  | some .surf, [v] => (roundDiv ((v : Int) * coefficient) 1000).toNat
  | _, _ => 0

/-- The newest entry of a table changed; the others kept. -/
def onNewest (f : TableEntry → TableEntry) : List TableEntry → List TableEntry
  | [] => []
  | [e] => [f e]
  | e :: rest => e :: onNewest f rest

/-- The vertical table of a state changed. -/
def withTable (t : List TableEntry) (s : State) : State :=
  { s with results := { s.results with table := t } }

/-- An ended point is appended to the working vertical's entry (R116, R117). -/
def recordPoint (pulses countedMs : Nat) (s : State) : State :=
  let m := activeMeter s
  let v := pointVelocity m pulses countedMs
  let clamped := decide (10000 < rawVelocity m pulses countedMs)
  withTable (onNewest (fun e =>
    { e with points := e.points ++ [⟨pulses, countedMs, v⟩]
             velocityClamped := e.velocityClamped || clamped }) s.results.table) s

/-- A restarted point marks the entry (R117). -/
def recordRestart (s : State) : State :=
  withTable (onNewest (fun e => { e with restarted := true }) s.results.table) s

/-- The arrival writes depth, method used, point depths and METHOD_REDUCED (R118). -/
def recordArrival (v : WorkingVertical) (s : State) : State :=
  withTable (onNewest (fun e =>
    { e with depth := v.depth, methodUsed := v.methodUsed, pointDepths := v.pointDepths
             methodReduced := e.methodReduced || v.methodReduced }) s.results.table) s

/-- A completion writes the mean velocity and marks the entry complete (R119). -/
def recordCompletion (s : State) : State :=
  let c := (activeDefinition s).coefficient
  withTable (onNewest (fun e =>
    { e with mean := some (meanVelocity e.methodUsed (e.points.map MeasuredPoint.velocity) c)
             complete := true }) s.results.table) s

/-! ## Panels (R121 to R123) -/

/-- Vertical discharge and area of an entry for a span (R123). -/
def panelFor (e : TableEntry) (span : Nat) : Panel :=
  let v := e.mean.getD 0
  let d := e.depth.getD 0
  { span := span
    q := (roundDiv ((v : Int) * d * span) 2000).toNat
    area := (roundDiv ((d : Int) * span) 2).toNat }

/-- An entry finalized with a span; an entry that is not complete, or is finalized already, is left
as it is (R121, R122). -/
def finalizeEntry (span : Nat) (e : TableEntry) : TableEntry :=
  if e.complete && e.panel.isNone then { e with panel := some (panelFor e span) } else e

/-- The span of the newest entry when the next vertical lies at x (R121). -/
def spanAtFetch (table : List TableEntry) (x : Nat) : Nat :=
  match table.reverse with
  | [] => 0
  | [e] => distance x e.x
  | _ :: before :: _ => distance x before.x

/-- The span of the newest entry at a close (R122). -/
def spanAtClose (table : List TableEntry) : Nat :=
  match table.reverse with
  | e :: before :: _ => distance e.x before.x
  | _ => 0

/-- A fetched vertical joins the table, and the vertical before it is finalized (R120, R121). -/
def recordFetch (v : WorkingVertical) (s : State) : State :=
  let old := s.results.table
  let entry : TableEntry :=
    { ordinal := v.ordinal, index := v.index, x := v.x, depthMode := v.depthMode,
      methodFetched := v.methodFetched, countTime := v.countTime }
  withTable (onNewest (finalizeEntry (spanAtFetch old v.x)) old ++ [entry]) s

/-! ## Pass start and close (R122 to R131) -/

/-- A pass begins: the pass record is filled and the vertical table cleared (R91, R131). -/
def beginPass (s : State) : State :=
  let d := activeDefinition s
  { s with results := { s.results with
      table := []
      pass :=
        { state := .opened
          runNumber := s.engine.runNumber
          passNumber := s.engine.passNumber
          slot := s.engine.slot
          meter := some d.meter
          meterIdent := some (activeMeter s).ident
          startStamp := s.clock.clock
          ghStart := some s.engine.ghStart
          ghStartHeld := s.engine.ghStartHeld
          resultId := none } } }

def sumPanels (f : Panel → Nat) (table : List TableEntry) : Nat :=
  (table.map fun e => (e.panel.map f).getD 0).sum

/-- The distance between the first and the last entry (R124, R127). -/
def tableWidth (table : List TableEntry) : Nat :=
  match table.head?, table.getLast? with
  | some a, some b => distance b.x a.x
  | _, _ => 0

def completeCount (table : List TableEntry) : Nat := (table.filter TableEntry.complete).length

/-- Measured discharge of a COMPLETE pass (R124). -/
def measuredDischarge (table : List TableEntry) : Nat :=
  saturate Config.dischargeMax (roundDiv (sumPanels Panel.q table : Nat) 1000).toNat

/-- Mean velocity of a COMPLETE pass, absent when the area sum is 0 (R124). -/
def passVelocity (table : List TableEntry) : Option Nat :=
  let a := sumPanels Panel.area table
  if a = 0 then none else some (roundDiv ((sumPanels Panel.q table : Int) * 1000) a).toNat

/-- The deviation from the rated discharge (R126). -/
def deviationOf (q : Nat) (rated : Option Nat) : Option Int :=
  match rated with
  | none => none
  | some r => if r = 0 then none else some (clamp (-9999) 9999 (roundDiv (((q : Int) - r) * 1000) r))

/-- The pass result of a close, the table being finalized (R124 to R128). -/
def passResult (s : State) (status : PassStatus) (cause : EndCause) (ghEnd : Int) (ghEndHeld : Bool) :
    PassResult :=
  let table := s.results.table
  let ghMean := roundDiv (s.engine.ghStart + ghEnd) 2
  let rated := s.rating.dischargeFor (some ghMean)
  let q := measuredDischarge table
  let proposal := shiftProposal (inverseRating s.rating.active q) ghMean
  let done := status == .complete
  { id := s.results.nextId
    runNumber := s.engine.runNumber
    passNumber := s.engine.passNumber
    slot := s.engine.slot.getD 0
    meter := s.results.pass.meter.getD 0
    meterIdent := s.results.pass.meterIdent.getD 0
    status := status
    cause := cause
    startStamp := s.results.pass.startStamp
    endStamp := s.clock.clock
    verticals := completeCount table
    width := tableWidth table
    area := if done then some (roundDiv (sumPanels Panel.area table : Nat) 100).toNat else none
    measured := if done then some q else none
    meanVelocity := if done then passVelocity table else none
    ghStart := s.engine.ghStart
    ghEnd := ghEnd
    ghMean := ghMean
    ghHeld := s.engine.ghStartHeld || ghEndHeld
    version := rated.version
    rated := if done then rated.discharge else none
    ratingMark := if done then rated.mark else .none
    deviation := if done then deviationOf q rated.discharge else none
    proposal := if done then proposal.1 else none
    proposalClamped := done && proposal.2
    velocityClamped := table.any TableEntry.velocityClamped
    restarted := table.any TableEntry.restarted
    methodReduced := table.any TableEntry.methodReduced
    beyondRating := done && rated.mark.beyond }

/-- The log with a result appended; the oldest leaves when it already holds 8 (R129). -/
def appendResult (log : List PassResult) (r : PassResult) : List PassResult :=
  (if Config.logSize ≤ log.length then log.drop 1 else log) ++ [r]

def nextResultId (n : Nat) : Nat := if n < 4294967295 then n + 1 else 1

/-- The newest entry finalized at a close (R122). -/
def finalizeAtClose (s : State) : State :=
  withTable (onNewest (finalizeEntry (spanAtClose s.results.table)) s.results.table) s

/-- A close writes the pass result (R122 to R128) and closes the pass record (R131). -/
def writeResult (status : PassStatus) (cause : EndCause) (ghEnd : Int) (ghEndHeld : Bool) (s : State) :
    State :=
  let t := finalizeAtClose s
  let r := passResult t status cause ghEnd ghEndHeld
  { t with results := { t.results with
      log := appendResult t.results.log r
      nextId := nextResultId t.results.nextId
      pass := { t.results.pass with state := .closed, resultId := some r.id } } }

end Sys2Proof.Machine
end

