-- ==== Sys2Proof/Machine/RunOps.lean ====
section
/-! DEFINITION. Operations of the Run Engine and of the Plan Store's taking of slots (chapters 4 and
5): states and permit, closing, recall, the end of a run, passes, fetches, points, trips, takes. -/

namespace Sys2Proof.Machine

/-! ## Slots and the pool (R63 to R65, R68) -/

/-- Whether a status says that the stilled stage is a current measurement (R16). -/
def StageStatus.current : StageStatus → Bool
  | .good => true
  | .suspect => true
  | .single => true
  | _ => false

/-- Whether a trigger's flag is of the LEVEL kind (R68). -/
def Trigger.isLevel : Trigger → Bool
  | .stageRise _ .level => true
  | .warningLevel _ .level => true
  | _ => false

def slotAt (s : State) (k : Nat) : Slot := at' s.plan.slots k

/-- One slot changed, the rest of the Plan Store kept. -/
def updateSlot (k : Nat) (f : Slot → Slot) (s : State) : State :=
  { s with plan := { s.plan with slots := put s.plan.slots k (f (slotAt s k)) } }

/-- Pool record i, 1..64; an unused record for any other index (R60). -/
def poolRecord (s : State) (i : Nat) : VerticalRecord :=
  if i = 0 then {} else at' s.plan.pool (i - 1)

/-- Whether a pool record is in use (R63). -/
def recordInUse (s : State) (i : Nat) : Bool :=
  match s.plan.activeSlot with
  | none => false
  | some k =>
    match (slotAt s k).definition.plan with
    | .empty => false
    | .listed first count => decide (first ≤ i ∧ i < first + count)
    | .linked _ => s.plan.fetched.contains i

/-- A member joins a set kept in increasing order (R63). -/
def insertMember (i : Nat) : List Nat → List Nat
  | [] => [i]
  | j :: rest => if i < j then i :: j :: rest else if i = j then j :: rest else j :: insertMember i rest

/-! ## Engine state, permit and conditions (R84, R85) -/

def RunState.permit : RunState → Permit
  | .idle => .released
  | .tripped => .withdrawn
  | _ => .active

def RunState.carriageWanted : RunState → Bool
  | .moving => true
  | .lowering => true
  | .homing => true
  | _ => false

/-- The states from which a recall is made (R88, R108, R109). -/
def RunState.recallable : RunState → Bool
  | .moving => true
  | .lowering => true
  | .settling => true
  | .counting => true
  | .holding => true
  | _ => false

/-- Whether a run is active in a state (R84). -/
def RunState.runActive : RunState → Bool
  | .idle => false
  | .tripped => false
  | _ => true

def withEngine (e : RunEngine) (s : State) : State := { s with engine := e }

/-- The engine enters a state: the hold kind is kept in HOLDING only and the homing cause in HOMING
only (R86); the permit value and the three conditions are judged (R85). -/
def enter (st : RunState) (s : State) : State :=
  let e := { s.engine with
    state := st
    holdKind := if st = .holding then s.engine.holdKind else none
    homingCause := if st = .homing then s.engine.homingCause else none }
  handCondition .trip (st == .tripped)
    (handCondition .proceedWanted (st == .holding)
      (handCondition .carriageWanted st.carriageWanted
        (handPermit st.permit (withEngine e s))))

/-! ## The point's times (R101 to R103) -/

/-- The counted time of the point now: the elapsed time of the count timer (R101). -/
def countedNow (s : State) : Nat :=
  match s.engine.countTimer with
  | .stopped => s.engine.point.countedMs
  | t => s.engine.vertical.countTime * 1000 - t.left (nowMs s)

/-- The paused time of the point now (R102). While it grows it is at most the pause limit when there is
one (R86); otherwise it is the time recorded, which stands after the run's end (R89, R114). -/
def pausedNow (s : State) : Nat :=
  match s.engine.point.pausedSince with
  | none => s.engine.point.pausedMs
  | some t =>
    let total := s.engine.point.pausedMs + (nowMs s - t)
    let limit := (activeDefinition s).pauseLimit * 1000
    if limit = 0 then total else saturate limit total

/-- Every timer of the engine stopped, the point record keeping its times as they stand. -/
def stopTimers (s : State) : State :=
  withEngine { s.engine with
    point := { s.engine.point with
      countedMs := countedNow s
      pausedMs := pausedNow s
      pausedSince := none }
    moveTimer := .stopped
    settleTimer := .stopped
    countTimer := .stopped
    pauseTimer := .stopped
    homeTimer := .stopped } s

/-! ## Closing a pass, recall, end of a run (R87 to R89, R79) -/

/-- The gauge height now: the stilled stage of the last offer, with its held mark (R87, R91). The
Stage Unit's value is that of its last offer: log entry 8. -/
def gaugeHeight (s : State) : Int × Bool := (s.stage.stilled.getD 0, !s.stage.status.current)

/-- The open pass is closed (R87). -/
def closePass (status : PassStatus) (cause : EndCause) (s : State) : State :=
  let t := writeResult status cause (gaugeHeight s).1 (gaugeHeight s).2 s
  raise .passDone (withEngine { t.engine with passOpen := false } t)

def closeIfOpen (cause : EndCause) (s : State) : State :=
  if s.engine.passOpen then closePass .aborted cause s else s

/-- A recall with a cause (R88). -/
def recallRun (cause : EndCause) (s : State) : State :=
  let t := closeIfOpen cause (stopTimers s)
  let u := enter .homing (withEngine { t.engine with homingCause := some cause } t)
  withEngine { u.engine with
    homeTimer := startTimer u ((activeDefinition u).homeTimeout * 1000) } u

/-- The Plan Store acts on the end of the active run (R79). -/
def planEnd (cause : EndCause) (s : State) : State :=
  match s.plan.activeSlot with
  | none => s
  | some k =>
    let disarm (x : Slot) : Slot :=
      { x with armed := false, timer := .stopped, request := x.definition.trigger.isLevel && x.request }
    let t := if cause = .complete then updateSlot k disarm s else s
    let order :=
      if cause = .complete ∧ s.plan.priority = .rotating then s.plan.order.erase k ++ [k] else s.plan.order
    { t with plan := { t.plan with order := order, activeSlot := none } }

/-- A run ends, the engine having entered IDLE or TRIPPED (R89). -/
def endRun (cause : EndCause) (s : State) : State :=
  let e := { s.engine with
    lastEnd := some ⟨s.engine.runNumber, s.engine.slot, cause, s.clock.clock⟩
    slot := none }
  planEnd cause (withEngine e (raise .runEnded s))

/-! ## Fetch (R92, R93) -/

/-- The pool index the next fetch reads (R92). An empty plan has none: log entry 20. -/
def nextIndex (s : State) : Nat :=
  match (activeDefinition s).plan with
  | .empty => 0
  | .listed first _ => first + s.engine.fetchCount
  | .linked first => if s.engine.fetchCount = 0 then first else s.engine.vertical.next

/-- Whether the pass has more verticals (R92). -/
def hasMore (s : State) : Bool :=
  match (activeDefinition s).plan with
  | .empty => false
  | .listed _ count => decide (s.engine.fetchCount < count)
  | .linked _ => s.engine.vertical.next != 0

/-- The check of a fetch: the cause of its first failure (R93). -/
def fetchFault (s : State) (r : VerticalRecord) : Option EndCause :=
  let n := s.engine.fetchCount
  let x := s.engine.vertical.x
  if Config.passVerticals ≤ n then some .planTooLong
  else if r.used = false then some .planEmpty
  else if n = 1 ∧ r.x = x then some .planOrder
  else if 2 ≤ n ∧ s.engine.direction = some .increasing ∧ r.x ≤ x then some .planOrder
  else if 2 ≤ n ∧ s.engine.direction = some .decreasing ∧ x ≤ r.x then some .planOrder
  else none

/-- The direction after a fetch (R93): set at the second. -/
def directionAfter (s : State) (r : VerticalRecord) : Option Direction :=
  if s.engine.fetchCount = 1 then
    some (if s.engine.vertical.x < r.x then .increasing else .decreasing)
  else s.engine.direction

/-- The working vertical of a fetched record (R92 step 2). -/
def workingOf (i ordinal : Nat) (r : VerticalRecord) : WorkingVertical :=
  { index := i, ordinal := ordinal, x := r.x, depthMode := r.depthMode, fetchedDepth := r.depth,
    methodFetched := r.method, countTime := r.countTime, next := r.next }

/-- MOVING or LOWERING is entered and the move timer started (R92, R96, R98, R104). -/
def enterMove (st : RunState) (s : State) : State :=
  let t := enter st s
  withEngine { t.engine with
    moveTimer := startTimer t ((activeDefinition t).moveTimeout * 1000) } t

/-- A fetch that passed its checks (R92). -/
def fetchRecord (i : Nat) (r : VerticalRecord) (s : State) : State :=
  let v := workingOf i (s.engine.fetchCount + 1) r
  let e := { s.engine with
    fetchCount := s.engine.fetchCount + 1
    direction := directionAfter s r
    vertical := v
    point := {} }
  let t := withEngine e s
  let t := { t with plan := { t.plan with fetched := insertMember i t.plan.fetched } }
  enterMove .moving (recordFetch v t)

/-- A fetch (R92, R93). -/
def fetch (s : State) : State :=
  let i := nextIndex s
  let r := poolRecord s i
  match fetchFault s r with
  | some cause => recallRun cause s
  | none => fetchRecord i r s

/-! ## Runs and passes (R90, R91, R105 to R107) -/

/-- A number that grows by one, from 65,535 to 1 (R90, R91). -/
def nextNumber (n : Nat) : Nat := if n < 65535 then n + 1 else 1

/-- A pass starts with its number (R91). -/
def startPass (number : Nat) (s : State) : State :=
  let e := { s.engine with
    passNumber := number
    fetchCount := 0
    direction := none
    ghStart := (gaugeHeight s).1
    ghStartHeld := (gaugeHeight s).2
    passOpen := true }
  fetch (beginPass (withEngine e s))

/-- The engine starts a run from a slot (R90). -/
def startRun (k : Nat) (s : State) : State :=
  let e := { s.engine with
    runNumber := nextNumber s.engine.runNumber
    slot := some k
    homingCause := none }
  startPass 1 (raise .runStarted (withEngine e s))

/-- HOLDING is entered with a hold kind (R105, R106). -/
def hold (kind : HoldKind) (s : State) : State :=
  enter .holding (withEngine { s.engine with holdKind := some kind } s)

/-- Whether passes remain (R105). -/
def passesRemain (s : State) : Bool :=
  match (activeDefinition s).passes with
  | .index => true
  | .number n => decide (s.engine.passNumber < n)

/-- The normal end of a pass (R105). -/
def endPass (s : State) : State :=
  if 3 ≤ s.engine.fetchCount then
    let t := closePass .complete .complete s
    if passesRemain t then
      match (activeDefinition t).mode with
      | .traverse => startPass (nextNumber t.engine.passNumber) t
      | .stepped => hold .nextPass t
    else recallRun .complete t
  else recallRun .planShort s

/-- A vertical completes (R106). -/
def completeVertical (s : State) : State :=
  let t := recordCompletion s
  if hasMore t then
    match (activeDefinition t).mode with
    | .traverse => fetch t
    | .stepped => hold .nextVertical t
  else endPass t

/-! ## Points (R96, R100 to R104) -/

/-- The method used at an arrival and whether it is reduced (R96). A vertical of depth 0 keeps its
method: log entry 19. -/
def methodAtDepth (method : Method) (depth : Nat) : Method × Bool :=
  if depth = 0 then (method, false)
  else
    match method with
    | .p28 => if depth < 750 then (.p6, true) else (.p28, false)
    | .p268 => if depth < 750 then (.p6, true) else (.p268, false)
    | m => (m, false)

/-- The fractions of depth of a method, in thousandths, in increasing order (R96). -/
def fractionsOf : Method → List Nat
  | .p6 => [600]
  | .p28 => [200, 800]
  | .p268 => [200, 600, 800]
  | .surf => [0]

/-- The point depths of a vertical (R96); none at depth 0. -/
def pointDepthsOf (method : Method) (depth : Nat) : List Nat :=
  if depth = 0 then []
  else (fractionsOf method).map fun f => (roundDiv ((depth : Int) * f) 1000).toNat

/-- The point is restarted by the end of its pause time (R103). -/
def restartPoint (s : State) : State :=
  recordRestart (withEngine { s.engine with
    point := { s.engine.point with
      pulses := 0, countedMs := 0, pausedMs := 0, pausedSince := none, restartWait := true }
    vertical := { s.engine.vertical with restarted := true }
    countTimer := .stopped
    pauseTimer := .stopped } s)

/-- The pause timer of a point that becomes paused: started at its first pause, run on at a later
one, not used with a limit of 0 (R103). -/
def pauseTimerAtPause (s : State) : Timer :=
  let limit := (activeDefinition s).pauseLimit * 1000
  if limit = 0 then .stopped
  else
    match s.engine.pauseTimer with
    | .held left => .running (nowMs s + left)
    | .stopped => startTimer s limit
    | t => t

/-- The point becomes paused (R102). A pause timer with no time left expires at once: log entry 18. -/
def pausePoint (s : State) : State :=
  let timer := pauseTimerAtPause s
  let t := withEngine { s.engine with
    point := { s.engine.point with paused := true, pausedSince := some (nowMs s) }
    countTimer := s.engine.countTimer.hold (nowMs s)
    pauseTimer := timer } s
  if timer.isRunning && timer.left (nowMs s) == 0 then restartPoint t else t

/-- Counting begins (R100). -/
def startCounting (s : State) : State :=
  let d := activeDefinition s
  let t := enter .counting (withEngine { s.engine with
    point := {}
    settleTimer := .stopped
    pauseTimer := .stopped } s)
  let u := withEngine { t.engine with
    countTimer := startTimer t (t.engine.vertical.countTime * 1000) } t
  if d.settledSense = .level ∧ u.lines.anyActive .settledIn = false then pausePoint u else u

/-- SETTLING is entered; a settle time of 0 expires at its start (R100). -/
def startSettling (s : State) : State :=
  let t := enter .settling s
  let settle := (activeDefinition t).settleTime
  if settle = 0 then startCounting t
  else withEngine { t.engine with settleTimer := startTimer t (settle * 1000) } t

/-- The engine goes to the current point's depth: a point at the surface needs no lowering (R96). -/
def goToPoint (s : State) : State :=
  match s.engine.vertical.pointDepths with
  | 0 :: _ => startSettling s
  | _ => enterMove .lowering s

/-- The working vertical laid out at an arrival with a depth (R95, R96). -/
def arrivalOf (v : WorkingVertical) (depth : Nat) : WorkingVertical :=
  { v with
    depth := some depth
    methodUsed := some (methodAtDepth v.methodFetched depth).1
    methodReduced := v.methodReduced || (methodAtDepth v.methodFetched depth).2
    pointDepths := pointDepthsOf (methodAtDepth v.methodFetched depth).1 depth
    pointOrdinal := if depth = 0 then 0 else 1 }

/-- A taken POSITION_REACHED: the move timer stops, the points are laid out and handed on (R95, R96). -/
def arrive (depth : Nat) (s : State) : State :=
  let v := arrivalOf s.engine.vertical depth
  let t := recordArrival v (withEngine { s.engine with vertical := v, moveTimer := .stopped } s)
  if depth = 0 then completeVertical t else goToPoint t

/-- A point ends (R101, R104). -/
def endPoint (s : State) : State :=
  let ms := s.engine.vertical.countTime * 1000
  let t := recordPoint s.engine.point.pulses ms (withEngine { s.engine with
    point := { s.engine.point with countedMs := ms, pausedMs := pausedNow s, pausedSince := none }
    countTimer := .stopped
    pauseTimer := .stopped } s)
  if t.engine.vertical.pointOrdinal < t.engine.vertical.pointDepths.length then
    enterMove .lowering (withEngine { t.engine with
      vertical := { t.engine.vertical with pointOrdinal := t.engine.vertical.pointOrdinal + 1 }
      point := {} } t)
  else completeVertical t

/-- The SETTLED_IN line activates in COUNTING under sense LEVEL: a restart wait ends, or a paused
point resumes; a count held with no time left ends (R101 to R103). -/
def settledActivation (s : State) : State :=
  if s.engine.point.restartWait then
    withEngine { s.engine with
      point := { s.engine.point with restartWait := false, paused := false, pausedSince := none }
      countTimer := startTimer s (s.engine.vertical.countTime * 1000) } s
  else if s.engine.point.paused then
    let timer := s.engine.countTimer.resume (nowMs s)
    let t := withEngine { s.engine with
      point := { s.engine.point with paused := false, pausedMs := pausedNow s, pausedSince := none }
      countTimer := timer
      pauseTimer := s.engine.pauseTimer.hold (nowMs s) } s
    if timer.isRunning && timer.left (nowMs s) == 0 then endPoint t else t
  else s

/-- The SETTLED_IN line goes inactive in COUNTING under sense LEVEL (R102). -/
def settledDeactivation (s : State) : State :=
  if s.engine.point.restartWait || s.engine.point.paused then s else pausePoint s

/-- A passage of the SETTLED_IN line reaches the engine (R102, R177). -/
def settledPassage (active : Bool) (s : State) : State :=
  if s.engine.state = .counting ∧ (activeDefinition s).settledSense = .level then
    if active then settledActivation s else settledDeactivation s
  else s

/-- A meter pulse reaches the engine (R101). -/
def meterPulse (s : State) : State :=
  if s.engine.state = .counting ∧ s.engine.point.paused = false ∧ s.engine.point.restartWait = false then
    withEngine { s.engine with
      point := { s.engine.point with pulses := saturate 65535 (s.engine.point.pulses + 1) } } s
  else s

/-! ## Trip (R110) -/

/-- A trip; in TRIPPED it leaves the state and the record as they were (R110). -/
def tripEngine (record : TripRecord) (s : State) : State :=
  if s.engine.state = .tripped then s
  else
    let t := closeIfOpen .trip (stopTimers s)
    let u := enter .tripped (withEngine { t.engine with trip := record } t)
    if s.engine.state.runActive then endRun .trip u else u

/-! ## Taking a slot (R76, R77) -/

/-- Whether a slot is armed with its request flag set. -/
def slotAsks (s : State) (k : Nat) : Bool := (slotAt s k).armed && (slotAt s k).request

/-- The five take conditions of R76 in the order of its table: ENGINE, RETREAT, STAGE, LINES, REQUEST. -/
def takeConditions (s : State) : List Bool :=
  [ s.engine.state == .idle,
    !s.warning.retreat,
    s.stage.stilled.isSome && s.stage.status.current,
    (s.lines.find? .meterIn).isSome && (s.lines.find? .permitOut).isSome,
    (List.range 4).any (slotAsks s) ]

/-- The slot that an attempt takes now (R76, R77). -/
def eligibleSlot (s : State) : Option Nat :=
  if (takeConditions s).all id then s.plan.order.find? (slotAsks s) else none

/-- A slot is taken (R77). -/
def takeSlot (k : Nat) (s : State) : State :=
  let clear (x : Slot) : Slot := { x with request := x.definition.trigger.isLevel && x.request }
  let t := updateSlot k clear s
  startRun k { t with plan := { t.plan with activeSlot := some k, fetched := [] } }

/-- A take attempt (R76). -/
def takeAttempt (s : State) : State :=
  match eligibleSlot s with
  | none => s
  | some k => takeSlot k s

/-- The engine enters IDLE at the end of a run; the Plan Store acts on the end and attempts a take
(R89, R76). -/
def endIdle (cause : EndCause) (s : State) : State := takeAttempt (endRun cause (enter .idle s))

/-- Retreat comes into force (R109). -/
def retreatRecall (s : State) : State :=
  if s.engine.state.recallable then recallRun .retreat s else s

end Sys2Proof.Machine
end

