-- ==== Sys2Proof/Machine/WarningOps.lean ====
section
/-! DEFINITION. Operations of the Warning Unit (chapter 7): the parts of the demanded level, the level
and its dwell, retreat, the outputs and the handing on of an evaluation. -/

namespace Sys2Proof.Machine

/-! ## The demanded level (R137 to R141) -/

/-- The inputs of an evaluation (R142). -/
structure EvalInputs where
  stage : Option Int
  status : StageStatus
  rise : Option Int
  discharge : Option Nat
  now : Nat
  deriving DecidableEq, Repr

/-- The inputs as they stand: the last offer of the Stage Unit and the current discharge (R142). -/
def evalInputs (s : State) : EvalInputs :=
  { stage := s.stage.stilled, status := s.stage.status, rise := s.stage.rise,
    discharge := s.rating.current.discharge, now := nowMs s }

/-- The greatest level 1..3 whose criterion is met, or 0. -/
def highestMet (met : Nat → Bool) : Nat :=
  if met 3 then 3 else if met 2 then 2 else if met 1 then 1 else 0

/-- The stage criterion of level j (R137). -/
def stageMet (w : WarningUnit) (stage : Option Int) (j : Nat) : Bool :=
  match triAt w.criteria.stage j, stage with
  | some t, some z => if w.level < j then decide (t ≤ z) else decide (t - w.criteria.hysteresis ≤ z)
  | _, _ => false

/-- The lowered discharge threshold (R138). -/
def loweredDischarge (c : Criteria) (q : Nat) : Int :=
  roundDiv ((q : Int) * (1000 - (c.dischargeHysteresis : Int))) 1000

/-- The discharge criterion of level j (R138). -/
def dischargeMet (w : WarningUnit) (discharge : Option Nat) (j : Nat) : Bool :=
  match triAt w.criteria.discharge j, discharge with
  | some t, some q =>
    if w.level < j then decide (t ≤ q) else decide (loweredDischarge w.criteria t ≤ q)
  | _, _ => false

/-- The rise criterion of level j (R139). -/
def riseMet (w : WarningUnit) (rise : Option Int) (j : Nat) : Bool :=
  match triAt w.criteria.rise j, rise with
  | some t, some z => decide ((t : Int) ≤ z)
  | _, _ => false

/-- The demanded level and its four parts formed against the level held (R141). -/
def formDemand (i : EvalInputs) (w : WarningUnit) : WarningUnit :=
  let a := highestMet (stageMet w i.stage)
  let b := highestMet (dischargeMet w i.discharge)
  let c := highestMet (riseMet w i.rise)
  { w with
    partStage := a
    partDischarge := b
    partRise := c
    partFloor := w.floor
    demanded := max (max a b) (max c w.floor) }

/-! ## The level and the dwell (R143 to R145) -/

/-- The dwell timer when the demand is below the level (R144). -/
def dwellBelow (i : EvalInputs) (w : WarningUnit) : Timer :=
  let full := w.criteria.dwell * 60000
  if i.status.current then
    match w.dwell with
    | .stopped => .running (i.now + full)
    | .running due => .running due
    | .held left => .running (i.now + left)
  else
    match w.dwell with
    | .stopped => .held full
    | .running due => .held (due - i.now)
    | .held left => .held left

/-- The level takes the demanded level at once (R143). -/
def riseLevel (w : WarningUnit) : WarningUnit :=
  { w with level := w.demanded, silence := false, dwell := .stopped }

/-- The level falls one step; a fall to CALM clears silence, and the dwell is over (R145). -/
def fallLevel (w : WarningUnit) : WarningUnit :=
  { w with level := w.level - 1, silence := w.silence && w.level - 1 != 0, dwell := .stopped }

/-- Whether a dwell that this evaluation starts or resumes has no time to run: it expires at its
start (R145; log entry 9). -/
def dwellSpent (i : EvalInputs) (before : Timer) (after : Timer) : Bool :=
  !before.isRunning && after.isRunning && after.left i.now == 0

/-- R143 to R145 worked through: the unit with its level settled, and the changes of the level in
order, each as the level before and after. Each fall lowers the level, so three rounds settle it. -/
def settleLevel : Nat → EvalInputs → WarningUnit → WarningUnit × List (Nat × Nat)
  | 0, i, w => (formDemand i w, [])
  | k + 1, i, w =>
    let d := formDemand i w
    if d.level < d.demanded then (riseLevel d, [(d.level, d.demanded)])
    else if d.demanded = d.level then ({ d with dwell := .stopped }, [])
    else
      let t := dwellBelow i d
      if dwellSpent i d.dwell t then
        let r := settleLevel k i (fallLevel d)
        (r.1, (d.level, d.level - 1) :: r.2)
      else ({ d with dwell := t }, [])

/-! ## Retreat (R149) -/

/-- The retreat state after an evaluation (R149). -/
def retreatAfter (w : WarningUnit) (stage : Option Int) : Bool :=
  let byLevel : Bool :=
    match w.retreatLevel with
    | none => false
    | some l => decide (l ≤ w.level)
  if w.retreat then
    byLevel ||
      match w.retreatStage, stage with
      | some r, some z => decide (r - w.criteria.hysteresis ≤ z)
      | _, _ => false
  else
    byLevel ||
      match w.retreatStage, stage with
      | some r, some z => decide (r ≤ z)
      | _, _ => false

/-! ## Outputs (R151, R153) -/

/-- An output with its automatic and driven values formed again (R151, R153). -/
def formOutput (level : Nat) (silence : Bool) (o : WarningOutput) : WarningOutput :=
  let a := decide (o.showLevel ≤ level) && (o.kind == .steady || !silence)
  { o with
    automatic := a
    driven := match o.override with
      | .auto => a
      | .on => true
      | .off => false }

/-- The output values formed again, and the driven values handed to Field Lines (R153). -/
def formOutputs (s : State) : State :=
  let outputs := s.warning.outputs.map (formOutput s.warning.level s.warning.silence)
  handDriven (outputs.map WarningOutput.driven)
    { s with warning := { s.warning with outputs := outputs } }

/-! ## Handing on (R146, R70) -/

/-- The WARNING_LEVEL judgement of one slot at a change of the level: its flag afterward. A change that
does not cross the slot's level leaves the flag as it was (R70). -/
def levelFlag (before after : Nat) (x : Slot) : Bool :=
  match x.definition.trigger with
  | .warningLevel l .edge => x.request || (x.armed && decide (before < l ∧ l ≤ after))
  | .warningLevel l .level =>
    if before < l ∧ l ≤ after then true
    else if l ≤ before ∧ after < l then false
    else x.request
  | _ => x.request

/-- Whether that judgement sets the flag of an armed slot (R68, R70). -/
def levelSets (before after : Nat) (x : Slot) : Bool :=
  x.armed &&
    match x.definition.trigger with
    | .warningLevel l _ => decide (before < l ∧ l ≤ after)
    | _ => false

/-- The Plan Store takes a change of the level: flags, and a take attempt when one was set on an armed
slot (R70, R68; log entry 10). -/
def judgeLevelTriggers (before after : Nat) (s : State) : State :=
  let t := { s with plan := { s.plan with
    slots := s.plan.slots.map fun x => { x with request := levelFlag before after x } } }
  if s.plan.slots.any (levelSets before after) then takeAttempt t else t

/-- One change of the level handed to the History Store and to the Plan Store (R146 step 3). -/
def handLevelChange (s : State) (c : Nat × Nat) : State :=
  judgeLevelTriggers c.1 c.2 { s with history := s.history.takeLevel c.2 }

/-- LEVEL_RISE or LEVEL_FALL for one change (R143, R145). -/
def raiseChange (s : State) (c : Nat × Nat) : State :=
  raise (if c.1 < c.2 then .levelRise else .levelFall) s

/-- The results of an evaluation handed on in the order of R146, the level being settled with these
changes. -/
def handOn (changes : List (Nat × Nat)) (s : State) : State :=
  let was := s.warning.retreat
  let now := retreatAfter s.warning s.stage.stilled
  let s := changes.foldl raiseChange s
  let s := handCondition .retreat now { s with warning := { s.warning with retreat := now } }
  let s := if !was && now then retreatRecall s else s
  let s := changes.foldl handLevelChange s
  let s := formOutputs s
  if was && !now then takeAttempt s else s

/-- An evaluation (R142). -/
def evaluate (s : State) : State :=
  let r := settleLevel 4 (evalInputs s) s.warning
  handOn r.2 { s with warning := r.1 }

/-- The expiry of the dwell timer: the level falls one step, and the expiry is then an evaluation
(R145). -/
def dwellExpiry (s : State) : State :=
  if s.warning.level = 0 then { s with warning := { s.warning with dwell := .stopped } }
  else
    let r := settleLevel 4 (evalInputs s) (fallLevel s.warning)
    handOn ((s.warning.level, s.warning.level - 1) :: r.2) { s with warning := r.1 }

/-- The upstream floor handed to the Warning Unit, which keeps it and evaluates (R140). -/
def handFloor (floor : Nat) (s : State) : State :=
  evaluate { s with warning := { s.warning with floor := floor } }

/-- A taken silence (R154): at WATCH or above silence is set, SILENCED raised and the outputs formed
again; at CALM nothing. -/
def takeSilence (s : State) : State :=
  if s.warning.level = 0 then s
  else formOutputs (raise .silenced { s with warning := { s.warning with silence := true } })

end Sys2Proof.Machine
end

