-- ==== Sys2Proof/Machine/StageOps.lean ====
section
/-! DEFINITION. Operations of the Stage Unit (chapter 1): conversion, judgement, selection, stilling,
rise, and what an offer does in its four users. -/

namespace Sys2Proof.Machine

/-! ## Channel F (R6 to R10) -/

/-- The place of a phase state in the rising order 00, 10, 11, 01 (R6). -/
def phasePlace : Level → Level → Nat
  | .low, .low => 0
  | .high, .low => 1
  | .high, .high => 2
  | .low, .high => 3

/-- A change of the encoder phases (R6, R7). -/
def StageUnit.turn (u : StageUnit) (a b : Level) : StageUnit :=
  let step := (phasePlace a b + 4 - phasePlace u.phaseA u.phaseB) % 4
  let v := { u with phaseA := a, phaseB := b }
  match step with
  | 1 => { v with count := if u.count < 2147483647 then u.count + 1 else u.count }
  | 3 => { v with count := if -2147483648 < u.count then u.count - 1 else u.count }
  | 2 => { v with encoderError := true }
  | _ => v

/-- A converted value: offset plus raw term, clamped, with OVER_RANGE when clamped (R8, R13). -/
def converted (offset raw : Int) : LastValue :=
  { value := clamp (-1000) 15000 (offset + raw), raw := raw, overRange := !stageInRange (offset + raw) }

/-- The conversion of channel F (R8). -/
def StageUnit.convertF (u : StageUnit) : LastValue :=
  converted u.cfg.fOffset (roundDiv (u.count * u.cfg.fStep) 1000)

/-- Whether channel F is valid for conversion (R8). -/
def StageUnit.fValid (u : StageUnit) : Bool := u.cfg.fEnable && !u.encoderError

/-- The judgement of a converted F value against the anchor and the candidate run (R9, R10): the unit
after it, and whether FLOAT_SPIKE is raised. -/
def StageUnit.judgeF (u : StageUnit) (v : Int) : StageUnit × Bool :=
  let near (z : Int) : Bool := decide (distance v z ≤ u.cfg.fMaxStep)
  let accept (j : Judgement) : StageUnit :=
    { u with fJudgement := j, anchor := some v, runLength := 0 }
  match u.anchor with
  | none => (accept .accepted, false)
  | some a =>
    if near a then (accept .accepted, false)
    else if u.runLength ≠ 0 ∧ near u.runValue then
      if 2 ≤ u.runLength then (accept .reanchored, true)
      else ({ u with fJudgement := .rejected, runLength := u.runLength + 1, runValue := v }, false)
    else ({ u with fJudgement := .rejected, runLength := 1, runValue := v }, true)

/-- Steps 1 and 2 of a sample (R5): channel F is read, converted and judged; the encoder-error mark
is cleared (R7). The second part is whether FLOAT_SPIKE is raised. -/
def StageUnit.sampleF (u : StageUnit) : StageUnit × Bool :=
  if u.fValid then
    let v := u.convertF
    let r := u.judgeF v.value
    ({ r.1 with fLast := some v, encoderError := false }, r.2)
  else ({ u with fJudgement := .invalid, encoderError := false }, false)

/-- The F value valid for selection after a sample's judgement (R9, R10). -/
def StageUnit.fSelected (u : StageUnit) : Option LastValue :=
  match u.fJudgement with
  | .accepted => u.fLast
  | .reanchored => u.fLast
  | _ => none

/-! ## Channel P (R11 to R13) -/

/-- The conversion of channel P for a pulse count (R13). -/
def StageUnit.convertP (u : StageUnit) (n : Nat) : LastValue :=
  converted u.cfg.pOffset (roundDiv (((n : Int) - u.cfg.pZero) * u.cfg.pGain) 65536)

/-- Whether channel P is valid for a pulse count (R12). -/
def StageUnit.pValid (u : StageUnit) (n : Nat) : Bool := u.cfg.pEnable && decide (u.cfg.pMin ≤ n)

/-- The signal state after a sample (R12). -/
def StageUnit.signalAfter (u : StageUnit) (n : Nat) : Signal :=
  if u.cfg.pEnable then if u.cfg.pMin ≤ n then .present else .loss else .none

/-- Whether the passage between two signal states raises SIGNAL_LOSS: a loss begin or a loss end (R12). -/
def signalRaises : Signal → Signal → Bool
  | .present, .loss => true
  | .loss, .present => true
  | _, _ => false

/-- Step 3 of a sample (R5): the gate ends, the count is taken and judged. The second part is the P
value valid for selection, the third whether SIGNAL_LOSS is raised. -/
def StageUnit.sampleP (u : StageUnit) : StageUnit × Option LastValue × Bool :=
  let n := u.gateCount
  let v := u.convertP n
  let after := u.signalAfter n
  let w := { u with gateCount := 0, lastN := n, signal := after }
  if u.pValid n then ({ w with pLast := some v }, some v, signalRaises u.signal after)
  else (w, none, signalRaises u.signal after)

/-! ## Selection, stilling, rise (R14 to R19) -/

/-- The selected value and the status (R14). -/
def selectChannel (c : StageConfig) (f p : Option LastValue) : Option LastValue × StageStatus :=
  match f, p with
  | some a, some b =>
    (some (match c.preferred with
      | .f => a
      | .p => b),
     if distance a.value b.value ≤ c.tolerance then .good else .suspect)
  | some a, none => (some a, .single)
  | none, some b => (some b, .single)
  | none, none => (none, .lost)

/-- The disagreement counter after a sample (R15). -/
def disagreeAfter (count : Nat) (status : StageStatus) : Nat :=
  match status with
  | .suspect => saturate 255 (count + 1)
  | _ => 0

/-- The window after a value joins it: the oldest leaves when it already held N (R17). -/
def joinWindow (n : Nat) (window : List Int) (v : Int) : List Int :=
  (if n ≤ window.length then window.drop (window.length + 1 - n) else window) ++ [v]

/-- The rounded mean of the values a window holds (R18). -/
def windowMean (window : List Int) : Int := roundDiv window.sum window.length

/-- Step 5 of a sample: stilling (R17, R18). -/
def StageUnit.still (u : StageUnit) (selected : Option LastValue) : StageUnit :=
  match selected with
  | none => u
  | some v =>
    let w := joinWindow u.cfg.windowLength u.window v.value
    { u with window := w, stilled := some (windowMean w), stilledOver := v.overRange }

/-- Rise against the k-th newest record of the ring (R19). -/
def riseOf (stilled back : Option Int) : Option Int :=
  match stilled, back with
  | some z, some b => some (z - b)
  | _, _ => none

/-! ## The offer (R20) -/

/-- The STAGE_RISE judgement of one slot (R69): its flag afterward. -/
def riseFlag (before now : Option Int) (x : Slot) : Bool :=
  match x.definition.trigger with
  | .stageRise t .edge =>
    x.request || (x.armed &&
      match before, now with
      | some b, some z => decide (b < t ∧ t ≤ z)
      | _, _ => false)
  | .stageRise t .level =>
    match now with
    | some z => decide (t ≤ z)
    | none => false
  | _ => x.request

/-- The Plan Store takes an offer: STAGE_RISE slots are judged, the previous offered stage is replaced
and a take is attempted (R69, R76). -/
def offerToPlan (s : State) : State :=
  let now := s.stage.stilled
  takeAttempt { s with plan := { s.plan with
    slots := s.plan.slots.map fun x => { x with request := riseFlag s.plan.previousStage now x }
    previousStage := now } }

/-- The Stage Unit offers its result: the Rating Unit, the Warning Unit, the History Store and the Plan
Store take it, in the order R20 lists them (log entry 5). -/
def offer (s : State) : State :=
  let rated := evaluate (recomputeDischarge s.stage.stilled s)
  offerToPlan
    { rated with history := rated.history.takeOffer rated.stage.stilled rated.stage.status }

/-- A status is set, STAGE_STATUS raised when it changes (R16, R26). That the second of two station resets, which
finds STARTING, raises no STAGE_STATUS although R206 speaks of its events as raised a second time, is the model's
reading (log entry 6). -/
def setStatus (status : StageStatus) (s : State) : State :=
  raiseIf (s.stage.status != status) .stageStatus
    { s with stage := { s.stage with status := status } }

/-- The sample timer restarted with the configured period, the gate then open discarded (R5, R11). -/
def restartSample (s : State) : State :=
  { s with stage := { s.stage with
    sampleDue := nowMs s + s.stage.cfg.period * 1000
    gateCount := 0 } }

/-- STARTING is set between samples and offered (R16, R20). -/
def startOver (s : State) : State := offer (setStatus .starting s)

/-- What CONFIGURE_STAGE and CHECK_GAUGE both clear: window, anchor, candidate run, counter (R23, R24). -/
def StageUnit.clearTracking (u : StageUnit) : StageUnit :=
  { u with window := [], anchor := none, runLength := 0, disagree := 0 }

/-- What a sample makes of the Stage Unit: the unit but for its status, the status, and whether
FLOAT_SPIKE, SIGNAL_LOSS and DISAGREE are raised. -/
structure SampleOutcome where
  unit : StageUnit
  status : StageStatus
  spike : Bool
  loss : Bool
  disagree : Bool
  deriving DecidableEq, Repr

/-- Steps 1 to 5 of a sample (R5): both channels, selection, the disagreement counter and stilling. -/
def StageUnit.sample (u : StageUnit) : SampleOutcome :=
  let f := u.sampleF
  let p := f.1.sampleP
  let sel := selectChannel u.cfg f.1.fSelected p.2.1
  let count := disagreeAfter u.disagree sel.2
  { unit := ({ p.1 with disagree := count }).still sel.1
    status := sel.2
    spike := f.2
    loss := p.2.2
    disagree := sel.2 == .suspect && decide (u.disagree < u.cfg.disagreeLimit)
      && count == u.cfg.disagreeLimit }

/-- Step 6 and the stamps of a sample (R5, R19, R21), and the timer's restart. -/
def stampSample (u : StageUnit) (s : State) : State :=
  { s with stage := { u with
    rise := riseOf u.stilled (s.history.stageBack u.cfg.riseWindow)
    stamp := s.clock.clock
    sampleUptime := s.clock.uptime
    sampleDue := nowMs s + u.cfg.period * 1000 } }

/-- A stage sample (R5): the events it raises, the status, and the offer. -/
def takeSample (s : State) : State :=
  let o := s.stage.sample
  offer (setStatus o.status
    (raiseIf o.disagree .disagree (raiseIf o.loss .signalLoss
      (raiseIf o.spike .floatSpike (stampSample o.unit s)))))

end Sys2Proof.Machine
end

