-- ==== Sys2Proof/Machine/UpstreamOps.lean ====
section
/-! DEFINITION. Operations of the Upstream Filter (chapter 8): the bin of an address, table acceptance,
the delay queue, staleness and the floor. -/

namespace Sys2Proof.Machine

/-- The bin of an address (R160). -/
def hashBin (address : Nat) : Nat :=
  let a := BitVec.ofNat 16 address
  (a ^^^ (a >>> 6) ^^^ (a >>> 12)).toNat % 64

def entryAt (s : State) (i : Nat) : StationEntry := at' s.upstream.entries i

/-- One entry of the station table replaced. -/
def setEntry (i : Nat) (e : StationEntry) (s : State) : State :=
  { s with upstream := { s.upstream with entries := put s.upstream.entries i e } }

/-- The entry that holds an address (R162); address 0 marks an empty entry and holds none. -/
def UpstreamFilter.find? (u : UpstreamFilter) (address : Nat) : Option Nat :=
  if address = 0 then none
  else (List.range 16).find? fun i => (at' u.entries i).address == address

/-- The greatest contribution held by any entry (R167). -/
def UpstreamFilter.greatest (u : UpstreamFilter) : Nat :=
  (u.entries.toList.map StationEntry.contribution).foldl max 0

/-- The floor formed again; a value that differs from the one last handed is handed to the Warning
Unit (R167). -/
def formFloor (s : State) : State :=
  let floor := s.upstream.greatest
  if floor = s.upstream.floor then s
  else handFloor floor { s with upstream := { s.upstream with floor := floor } }

/-- The uptime in ms at which an entry becomes stale (R166): its stale timer. None when it is stale or
has no last arrival. -/
def staleDue (limit : Nat) (e : StationEntry) : Option Nat :=
  if e.stale then none else e.last.map fun r => r.arrival + limit * 60000

/-- An entry that has become stale (R166). -/
def StationEntry.madeStale (e : StationEntry) : StationEntry :=
  { e with stale := true, contribution := 0, queue := [] }

/-- How a contribution is handled (section 11.6). -/
inductive Handling where
  | queued
  | current
  | replaced
  deriving DecidableEq, Repr

def handlingCode : Handling → Nat
  | .queued => 0
  | .current => 1
  | .replaced => 2

/-- The newest item of a queue given a new value; its time is kept (R164). -/
def replaceNewest (value : Nat) : List QueueItem → List QueueItem
  | [] => []
  | [i] => [{ i with value := value }]
  | i :: rest => i :: replaceNewest value rest

/-- The contribution of a report (R163): its level less the step-down, at most the class cap. -/
def contributionOf (cap level stepDown : Nat) : Nat := min cap (level - stepDown)

/-- A contribution enters an entry: current at once without travel, else queued, or replacing the
newest item of a full queue (R163, R164). -/
def StationEntry.place (e : StationEntry) (c arrival : Nat) : StationEntry × Handling :=
  if e.travel = 0 then ({ e with contribution := c }, .current)
  else if e.queue.length < Config.queueSize then
    ({ e with queue := e.queue ++ [⟨c, arrival + e.travel * 60000⟩] }, .queued)
  else ({ e with queue := replaceNewest c e.queue }, .replaced)

/-- A table report accepted (R163): the entry refreshed, and its contribution placed. -/
def StationEntry.accept (e : StationEntry) (a : ReportArgs) (c now : Nat) : StationEntry × Handling :=
  StationEntry.place
    { e with last := some ⟨a.stamp, a.stage, a.level, a.cls, now⟩, stale := false } c now

/-- A counter that stays at 65,535 (R168). -/
def countUp (n : Nat) : Nat := saturate 65535 (n + 1)

/-- The dispositions of a report (R162). -/
inductive Disposition where
  | table
  | neighbour
  | droppedClass
  | droppedOrder
  | droppedFilter
  deriving DecidableEq, Repr

def dispositionCode : Disposition → Nat
  | .table => 0
  | .neighbour => 1
  | .droppedClass => 2
  | .droppedOrder => 3
  | .droppedFilter => 4

/-- The disposition of a report in range, by the first test that applies, and the entry that holds its
address (R162, R163). -/
def UpstreamFilter.dispose (u : UpstreamFilter) (a : ReportArgs) : Disposition :=
  match at' u.classMap a.cls with
  | none => .droppedClass
  | some _ =>
    match u.find? a.address with
    | some i =>
      match (at' u.entries i).last with
      | none => .table
      | some r => if a.stamp ≤ r.stamp then .droppedOrder else .table
    | none =>
      if (u.hashEnable && u.hash.getLsbD (hashBin a.address)) || u.acceptAll then .neighbour
      else .droppedFilter

/-- The counter of a disposition grows (R168). -/
def UpstreamCounters.count (c : UpstreamCounters) : Disposition → UpstreamCounters
  | .table => { c with table := countUp c.table }
  | .neighbour => { c with neighbour := countUp c.neighbour }
  | .droppedClass => { c with droppedClass := countUp c.droppedClass }
  | .droppedOrder => { c with droppedOrder := countUp c.droppedOrder }
  | .droppedFilter => { c with droppedFilter := countUp c.droppedFilter }

def countReport (d : Disposition) (s : State) : State :=
  { s with upstream := { s.upstream with counters := s.upstream.counters.count d } }

/-- Whether an accepted report of a class sets a slot's flag (R72). -/
def upstreamSets (cls : Nat) (x : Slot) : Bool :=
  x.armed &&
    match x.definition.trigger with
    | .upstream m => decide (m ≤ cls)
    | _ => false

/-- An accepted report's class handed to the Plan Store: flags are set and a take is attempted (R72). -/
def triggerUpstream (cls : Nat) (s : State) : State :=
  takeAttempt { s with plan := { s.plan with
    slots := s.plan.slots.map fun x => { x with request := x.request || upstreamSets cls x } } }

/-- The expiry of an entry's delay timer: its oldest item becomes its contribution, and a change forms
the floor again (R165). -/
def delayExpiry (i : Nat) (s : State) : State :=
  let e := entryAt s i
  match e.queue with
  | [] => s
  | item :: rest =>
    let t := setEntry i { e with contribution := item.value, queue := rest } s
    if item.value = e.contribution then t else formFloor t

/-- The expiry of an entry's stale timer (R166). -/
def staleExpiry (i : Nat) (s : State) : State :=
  let e := entryAt s i
  if e.last.isSome && !e.stale then formFloor (raise .upstreamStale (setEntry i e.madeStale s)) else s

/-- Whether an entry becomes stale at a new stale limit (R161). -/
def staleAt (limit now : Nat) (e : StationEntry) : Bool :=
  match staleDue limit e with
  | some due => decide (due ≤ now)
  | none => false

/-- Every entry judged at a new stale limit, UPSTREAM_STALE raised when any becomes stale, and the
floor formed once (R161). -/
def judgeStaleness (s : State) : State :=
  let spent := staleAt s.upstream.staleLimit (nowMs s)
  let entries := s.upstream.entries.map fun e => if spent e then e.madeStale else e
  let t := raiseIf (s.upstream.entries.any spent) .upstreamStale
    { s with upstream := { s.upstream with entries := entries } }
  if s.upstream.entries.any spent then formFloor t else t

end Sys2Proof.Machine
end

