-- ==== Sys2Proof/Machine/ResetOps.lean ====
section
/-! DEFINITION. The two resets (R205 to R207 and the reset rules of every chapter), and the engine's
part of RESET_ENGINE (R112). -/

namespace Sys2Proof.Machine

/-- The Stage Unit at a station reset, but for its status and timer (R26). -/
def StageUnit.atReset (u : StageUnit) : StageUnit :=
  { u with
    encoderError := false, fLast := none, pLast := none, fJudgement := .none, anchor := none,
    runLength := 0, runValue := 0, disagree := 0, window := [], rise := none }

/-- A slot at a station reset (R83). -/
def Slot.atReset (x : Slot) : Slot := { x with armed := false, request := false, timer := .stopped }

/-- Every change-of-state latch cleared (R187). -/
def clearLatches (s : State) : State :=
  { s with lines := { s.lines with line := s.lines.line.map fun l => { l with changed := false } } }

/-- Every slot disarmed, its flag cleared and its timer stopped (R83). -/
def disarmAll (s : State) : State :=
  { s with plan := { s.plan with slots := s.plan.slots.map Slot.atReset } }

/-- A run that is active ends with cause RESET, an open pass being closed first (R112, R113). -/
def endByReset (s : State) : State :=
  if s.engine.state.runActive then
    endRun .reset (enter .idle (closeIfOpen .reset (stopTimers s)))
  else s

/-- The dwell timer at a station reset (R157). -/
def stopDwell (s : State) : State := { s with warning := { s.warning with dwell := .stopped } }

def clearNotices (s : State) : State := { s with notices := s.notices.clearForReset }

def restoreNotices (s : State) : State := { s with notices := s.notices.restoreAfterReset }

/-- A station reset in every block (R205): the ports, the Notice Unit's emptying, Field Lines, the Plan
Store before the Run Engine, the Warning Unit, then the Stage Unit's STARTING and its offer, and last the
conditions that hold (R199). The order where R205 is silent, and what a second reset raises: log entry 6. -/
def stationReset (s : State) : State :=
  let t := stopDwell (endByReset (disarmAll (clearLatches (clearNotices (resetPorts s)))))
  restoreNotices (startOver (restartSample { t with stage := t.stage.atReset }))

/-- The power-on values with the inputs as they are: forced levels and pins, encoder phases, RESET_N, POR, open windows,
and the queue of commands (R207). -/
def powerOn (por : Bool) (s : State) : State :=
  { State.reset with
    stage := { State.reset.stage with phaseA := s.stage.phaseA, phaseB := s.stage.phaseB }
    lines := { State.reset.lines with line := s.lines.line.map fun l => { forced := l.forced, pin := l.forced.getD l.pin } }
    ports :=
      { port := s.ports.port.mapPorts fun _ x => x.atReset
        resetN := s.ports.resetN
        por := por }
    pending := s.pending }

end Sys2Proof.Machine
end

