-- ==== Sys2Proof/Machine/PortCommands.lean ====
section
/-! DEFINITION. The Port Unit's own commands: READ_REPLY, STATION_RESET, BAD_FRAME, the windows, RESET_N
and POR (chapter 11). -/

namespace Sys2Proof.Machine

/-- What a command answers. -/
abbrev Result := Host.Outcome State Fault Refusal

/-- READ_REPLY (R203): changes no state; its window closes. -/
def execReadReply (p : Port) (s : State) : Result := .next (closeWindow p s)

/-- STATION_RESET (R205): starts a station reset and leaves no reply. -/
def execStationReset (p : Port) (s : State) : Result :=
  .next <|
    if windowDead p s then closeWindow p s
    else if p ∈ rolesOf 0xF0 then stationReset (closeWindow p s)
    else setReply p (roleReply 0xF0 p) (closeWindow p s)

/-- The reply of a frame that fails a check of R202. The number of argument bytes counted is sent in
one byte, 255 for more (log entry 14). -/
def frameFaultReply (p : Port) : FrameFault → Reply
  | .frame code len n => ⟨.badFrame, u8 code ++ u8 len ++ u8 (saturate 255 n)⟩
  | .unknown code => ⟨.unknown, u8 code⟩
  | .role code => roleReply code p

/-- BAD_FRAME (R202): the reply replaces the port's buffer and nothing else changes. -/
def execBadFrame (p : Port) (f : FrameFault) (s : State) : Result :=
  .next <|
    if windowDead p s then closeWindow p s
    else setReply p (frameFaultReply p f) (closeWindow p s)

/-- WINDOW_OPEN (R201, R206, R207). -/
def execWindowOpen (p : Port) (s : State) : Result := .next (openWindow p s)

/-- DISCARDED_WINDOW (R201, R206): nothing is taken and the buffer is kept. -/
def execDiscardedWindow (p : Port) (s : State) : Result := .next (closeWindow p s)

def withResetN (v : Bool) (s : State) : State := { s with ports := { s.ports with resetN := v } }

/-- RESET_N passes to active (R206): a station reset; not read while POR is active (R207). -/
def execResetNActivation (s : State) : Result :=
  .next <|
    if s.ports.por || s.ports.resetN then withResetN true s else stationReset (withResetN true s)

/-- RESET_N passes to inactive (R206). -/
def execResetNRelease (s : State) : Result := .next (withResetN false s)

/-- POR passes to active (R207). -/
def execPorAssert (s : State) : Result := .next (powerOn true s)

/-- POR passes to inactive (R207). -/
def execPorRelease (s : State) : Result := .next (if s.ports.por then powerOn false s else s)

end Sys2Proof.Machine
end

