-- ==== Sys2Proof/Machine/StageCommands.lean ====
section
/-! DEFINITION. The Station Clock's and the Stage Unit's commands (chapter 1). -/

namespace Sys2Proof.Machine

/-! ## Clocks (R3, R4) -/

/-- READ_CLOCK (R3). -/
def execReadClock (p : Port) (s : State) : Result :=
  .next (readRequest 0x01 p s fun t => okReply (u32 t.clock.clock ++ u32 t.clock.uptime))

/-- SET_CLOCK (R3): the reply carries the value held before; the next advance follows one second after. -/
def execSetClock (p : Port) (value : Nat) (s : State) : Result :=
  .next <| request 0x02 p s fun t =>
    if Config.clockMax < value then (t, rangeReply [])
    else
      ({ t with clock := { t.clock with clock := value, clockPhase := 0 } },
        okReply (u32 t.clock.clock))

/-- The station clock's advance (R3), and the boundary it may reach (R27). -/
def advanceClock (s : State) : State :=
  if s.clock.clock < Config.clockMax then
    let t := { s with clock :=
      { s.clock with clock := s.clock.clock + 1, clockPhase := s.clock.clockPhase - 1000 } }
    if atBoundary t then takeBoundary t else t
  else { s with clock := { s.clock with clockPhase := s.clock.clockPhase - 1000 } }

/-- STATION_CLOCK_ADVANCE (R3, R27). -/
def execStationClockAdvance (s : State) : Result := .next (unlessPor s advanceClock)

/-- UPTIME_ADVANCE (R4). -/
def execUptimeAdvance (s : State) : Result := .next (unlessPor s advanceUptime)

/-! ## Field inputs (R6, R7, R11) -/

/-- ENCODER_PHASE_CHANGE (R6, R7). While POR is active only the inputs are seen. -/
def execEncoderPhaseChange (a b : Level) (s : State) : Result :=
  .next { s with stage :=
    if s.ports.por then { s.stage with phaseA := a, phaseB := b } else s.stage.turn a b }

/-- Whether a pulse now falls within the gate, whose 1,000 ms end at the expiry of the sample timer
(R11). Only at the gate's very first millisecond, which R11 does not place, is it `edge` that says
(log entry 17). -/
def gateOpen (edge : Bool) (s : State) : Bool :=
  decide (s.stage.sampleDue < nowMs s + 1000) || (edge && s.stage.sampleDue == nowMs s + 1000)

/-- P_PULSE (R11): a pulse within the gate counts; one outside it does not. -/
def execPPulse (edge : Bool) (s : State) : Result :=
  .next <| unlessPor s fun t =>
    if gateOpen edge t then
      { t with stage := { t.stage with gateCount := saturate 65535 (t.stage.gateCount + 1) } }
    else t

/-- STAGE_SAMPLE (R5). -/
def execStageSample (s : State) : Result := .next (unlessPor s takeSample)

/-! ## Requests (R21 to R24) -/

/-- A mark, coded set 0 and clear 1. -/
def markByte (v : Bool) : List Byte := twoValued v

/-- A mark of an optional field: its byte is 0 while the field is absent (R204). -/
def optMark : Option Bool → List Byte
  | none => u8 0
  | some v => markByte v

/-- READ_STAGE's data: the fields of R21, the mask covering stilled stage, rise, F last value with its
mark, anchor, candidate run value and P last value with its mark. That the run value, which R21 gives when the
length is 1 or more, is an optional field with a mark of its own, absent and so sent as 0 while the candidate
run is empty, is the model's reading (log entry 11). -/
def stageData (u : StageUnit) : List Byte :=
  maskBytes 1 [u.stilled.isSome, u.rise.isSome, u.fLast.isSome, u.anchor.isSome, u.runLength != 0,
      u.pLast.isSome]
    ++ optI16 u.stilled ++ u8 (statusCode u.status) ++ markByte u.stilledOver ++ optI16 u.rise
    ++ u8 u.window.length ++ u8 u.disagree ++ u32 u.stamp ++ u32 u.sampleUptime ++ i32 u.count
    ++ markByte u.encoderError ++ optI16 (u.fLast.map LastValue.value) ++ optMark (u.fLast.map LastValue.overRange)
    ++ u8 (judgementCode u.fJudgement) ++ optI16 u.anchor ++ u8 u.runLength
    ++ i16 (if u.runLength = 0 then 0 else u.runValue) ++ u16 u.lastN ++ u8 (signalCode u.signal)
    ++ optI16 (u.pLast.map LastValue.value) ++ optMark (u.pLast.map LastValue.overRange)

/-- READ_STAGE (R21). -/
def execReadStage (p : Port) (s : State) : Result :=
  .next (readRequest 0x03 p s fun t => okReply (stageData t.stage))

/-- The configuration fields in the order of R22. -/
def stageConfigData (c : StageConfig) : List Byte :=
  twoValued c.fEnable ++ twoValued c.pEnable ++ u8 (channelCode c.preferred) ++ i16 c.fOffset
    ++ u16 c.fStep ++ u16 c.fMaxStep ++ i16 c.pOffset ++ u32 c.pGain ++ u16 c.pZero ++ u16 c.pMin
    ++ u16 c.tolerance ++ u8 c.disagreeLimit ++ u8 c.windowLength ++ u8 c.period ++ u8 c.riseWindow

/-- READ_STAGE_CONFIG (R21). -/
def execReadStageConfig (p : Port) (s : State) : Result :=
  .next (readRequest 0x04 p s fun t => okReply (stageConfigData t.stage.cfg))

/-- An offset in its range (R8, R13, R24). -/
def offsetInRange (z : Int) : Bool := withinInt (-20000) 20000 z

/-- Whether the numbers of a CONFIGURE_STAGE lie in their ranges (R22). -/
def stageArgsInRange (a : StageArgs) : Bool :=
  offsetInRange a.fOffset && within 1 10000 a.fStep && within 1 2000 a.fMaxStep
    && offsetInRange a.pOffset && within 1 16777215 a.pGain && within 0 65535 a.pZero
    && within 1 65535 a.pMin && within 1 500 a.tolerance && within 1 255 a.disagreeLimit
    && within 1 32 a.windowLength && within 1 60 a.period && within 1 8 a.riseWindow

/-- The configuration a CONFIGURE_STAGE carries, or none where a field lies outside its range (R22). -/
def stageConfigOf (a : StageArgs) : Option StageConfig :=
  match twoValuedOf a.fEnable, twoValuedOf a.pEnable, channelOf a.preferred with
  | some f, some p, some c =>
    if stageArgsInRange a then
      some
        { fEnable := f, pEnable := p, preferred := c, fOffset := a.fOffset, fStep := a.fStep,
          fMaxStep := a.fMaxStep, pOffset := a.pOffset, pGain := a.pGain, pZero := a.pZero,
          pMin := a.pMin, tolerance := a.tolerance, disagreeLimit := a.disagreeLimit,
          windowLength := a.windowLength, period := a.period, riseWindow := a.riseWindow }
    else none
  | _, _, _ => none

/-- The Stage Unit under a new configuration, but for its status and timer (R23). -/
def StageUnit.configured (u : StageUnit) (c : StageConfig) : StageUnit :=
  { u.clearTracking with
    cfg := c, fLast := none, pLast := none, fJudgement := .none, signal := .none, rise := none }

/-- CONFIGURE_STAGE (R22, R23). -/
def execConfigureStage (p : Port) (a : StageArgs) (s : State) : Result :=
  .next <| request 0x05 p s fun t =>
    match stageConfigOf a with
    | none => (t, rangeReply [])
    | some c => (startOver (restartSample { t with stage := t.stage.configured c }), okReply [])

/-- A channel's last value under an offset that gives a reading (R24). -/
def gaugedValue (reading : Int) (v : LastValue) : LastValue :=
  { v with value := clamp (-1000) 15000 reading, overRange := !stageInRange reading }

/-- The Stage Unit after a taken CHECK_GAUGE, but for its status (R24). -/
def StageUnit.gauged (u : StageUnit) (c : Channel) (reading : Int) (v : LastValue) : StageUnit :=
  let offset := reading - v.raw
  match c with
  | .f =>
    { u.clearTracking with cfg := { u.cfg with fOffset := offset }, fLast := some (gaugedValue reading v) }
  | .p =>
    { u.clearTracking with cfg := { u.cfg with pOffset := offset }, pLast := some (gaugedValue reading v) }

/-- The last value of a channel. -/
def StageUnit.last (u : StageUnit) : Channel → Option LastValue
  | .f => u.fLast
  | .p => u.pLast

/-- CHECK_GAUGE (R24). -/
def execCheckGauge (p : Port) (channel : Nat) (reading : Int) (s : State) : Result :=
  .next <| request 0x06 p s fun t =>
    match channelOf channel with
    | none => (t, rangeReply [])
    | some c =>
      if !stageInRange reading then (t, rangeReply [])
      else
        match t.stage.last c with
        | none => (t, stateReply)
        | some v =>
          if !offsetInRange (reading - v.raw) then (t, rangeReply [])
          else
            (startOver { t with stage := t.stage.gauged c reading v }, okReply (i16 (reading - v.raw)))

end Sys2Proof.Machine
end

