-- ==== Sys2Proof/Machine/HistoryCommands.lean ====
section
/-! DEFINITION. The History Store's commands (chapter 2). -/

namespace Sys2Proof.Machine

/-- An interval record's bytes: the fields of R29 in order, the mask covering stage, peak and
discharge. That each record of the list has a mask of its own is the model's reading (log entry 11). -/
def recordData (r : IntervalRecord) : List Byte :=
  u32 r.seq ++ u32 r.stamp ++ maskBytes 1 [r.stage.isSome, r.peak.isSome, r.discharge.isSome]
    ++ optI16 r.stage ++ optI16 r.peak ++ u8 (statusCode r.status) ++ optU32 r.discharge
    ++ u8 (ratingMarkCode r.mark) ++ u8 r.highest

/-- The cursor after a READ_HISTORY (R32 steps 1 and 4). -/
def readCursor (h : HistoryStore) (cursor maximum : Nat) (advance : Bool) : Nat :=
  let c := h.caughtUp cursor
  if advance then c + (h.recordsFrom c (min maximum (h.unread c))).length else c

/-- The reply of a READ_HISTORY; the cursor and unread count stand as they are after it (R32). That they
follow the records of an OK reply only, an EMPTY reply having the data of step 2 alone, and that the number
of records returned is the list's own count, is the model's reading (log entry 11). -/
def historyReply (h : HistoryStore) (cursor maximum : Nat) (after : Nat) : Reply :=
  let c := h.caughtUp cursor
  if h.unread c = 0 then emptyReply (u32 c ++ u32 h.nextSeq)
  else
    okReply (u16 (h.gap cursor) ++ counted recordData (h.recordsFrom c (min maximum (h.unread c)))
      ++ u32 after ++ u8 (h.unread after))

/-- READ_HISTORY (R32). -/
def execReadHistory (p : Port) (maximum advance : Nat) (s : State) : Result :=
  .next <| request 0x10 p s fun t =>
    match twoValuedOf advance with
    | none => (t, rangeReply [])
    | some yes =>
      if !within 1 4 maximum then (t, rangeReply [])
      else
        let cursor := t.history.cursors.get p
        let after := readCursor t.history cursor maximum yes
        (moveCursor p after t, historyReply t.history cursor maximum after)

/-- The cursor a seek gives, or none where it is refused (R34). -/
def seekCursor (h : HistoryStore) : SeekTarget → Option Nat
  | .oldest => some (h.oldest.getD h.nextSeq)
  | .newestNext => some h.nextSeq
  | .sequence n =>
    match h.oldest, h.newest with
    | some o, some m => if o ≤ n ∧ n ≤ m then some n else none
    | _, _ => none
  | .unknown _ => none

/-- SEEK_HISTORY (R34). -/
def execSeekHistory (p : Port) (target : SeekTarget) (s : State) : Result :=
  .next <| request 0x11 p s fun t =>
    match seekCursor t.history target with
    | none => (t, rangeReply [])
    | some c => (moveCursor p c t, okReply (u32 c ++ u8 (t.history.unread c)))

/-- READ_HISTORY_STATE's data: the fields of R37, the mask covering oldest, newest and peak. -/
def historyStateData (p : Port) (s : State) : List Byte :=
  let h := s.history
  let c := h.cursors.get p
  u8 h.interval ++ u32 h.mark ++ u8 h.ring.length
    ++ maskBytes 1 [h.oldest.isSome, h.newest.isSome, h.peak.isSome]
    ++ optU32 h.oldest ++ optU32 h.newest ++ u32 h.nextSeq ++ optI16 h.peak ++ u8 (statusCode h.worst)
    ++ u8 h.highest ++ u32 c ++ u8 (h.unread c) ++ u16 (h.gap c) ++ u8 (h.thresholds.get p)
    ++ twoValued (s.notices.port.get p).historyReady

/-- READ_HISTORY_STATE (R37). -/
def execReadHistoryState (p : Port) (s : State) : Result :=
  .next (readRequest 0x12 p s fun t => okReply (historyStateData p t))

/-- SET_HISTORY_THRESHOLD (R36). -/
def execSetHistoryThreshold (p : Port) (threshold : Nat) (s : State) : Result :=
  .next <| request 0x13 p s fun t =>
    if !within 1 96 threshold then (t, rangeReply [])
    else
      (judgeReady p { t with history :=
          { t.history with thresholds := t.history.thresholds.set p threshold } },
        okReply (u8 (t.history.unread (t.history.cursors.get p))))

/-- The intervals of R35. -/
def intervals : List Nat := [5, 10, 15, 30, 60]

/-- SET_HISTORY_INTERVAL (R35). -/
def execSetHistoryInterval (p : Port) (minutes : Nat) (s : State) : Result :=
  .next <| request 0x14 p s fun t =>
    if minutes ∈ intervals then
      ({ t with history := { t.history with interval := minutes } }, okReply (u8 t.history.interval))
    else (t, rangeReply [])

end Sys2Proof.Machine
end

