-- ==== Sys2Proof/Machine/RatingCommands.lean ====
section
/-! DEFINITION. The Rating Unit's commands (chapter 3). -/

namespace Sys2Proof.Machine

def breakpointData (b : Breakpoint) : List Byte := i16 b.h ++ u32 b.q

/-- A discharge result's bytes: the fields of R48, the mask covering discharge and effective stage. -/
def dischargeData (r : DischargeResult) : List Byte :=
  maskBytes 1 [r.discharge.isSome, r.effective.isSome] ++ optU32 r.discharge ++ u8 (ratingMarkCode r.mark)
    ++ u8 r.version ++ optI16 r.effective

/-- READ_RATING's data: the fields of R56, the mask covering discharge, effective stage and stage used.
The point count is the list's own count: the model's reading (log entry 11). -/
def ratingData (s : State) : List Byte :=
  let r := s.rating
  u8 r.version ++ counted breakpointData r.active ++ i16 r.shift ++ u16 r.limit
    ++ maskBytes 1 [r.current.discharge.isSome, r.current.effective.isSome, r.stageUsed.isSome]
    ++ optU32 r.current.discharge ++ u8 (ratingMarkCode r.current.mark) ++ u8 r.current.version
    ++ optI16 r.current.effective ++ optI16 r.stageUsed ++ twoValued s.notices.beyondRating

/-- READ_RATING (R56). -/
def execReadRating (p : Port) (s : State) : Result :=
  .next (readRequest 0x20 p s fun t => okReply (ratingData t))

/-- RATE_STAGE (R54). -/
def execRateStage (p : Port) (stage : Int) (s : State) : Result :=
  .next <| readRequest 0x21 p s fun t =>
    if stageInRange stage then okReply (dischargeData (t.rating.dischargeFor (some stage)))
    else rangeReply []

/-- RATE_DISCHARGE (R55). -/
def execRateDischarge (p : Port) (discharge : Nat) (s : State) : Result :=
  .next <| readRequest 0x22 p s fun t =>
    if Config.dischargeMax < discharge then rangeReply []
    else
      let hEq := inverseRating t.rating.active discharge
      let implied := hEq.map fun h => h - t.rating.shift
      okReply (maskBytes 1 [hEq.isSome, implied.isSome] ++ optI16 hEq ++ optI16 implied
        ++ u8 t.rating.version)

/-- A staged index: EMPTY, or the breakpoint it holds (R57). -/
def stagedData : Option Breakpoint → List Byte
  | none => u8 0 ++ u16 0 ++ u32 0
  | some b => u8 1 ++ breakpointData b

/-- READ_STAGED (R57). The staged count is the list's own count: the model's reading (log entry 11). -/
def execReadStaged (p : Port) (s : State) : Result :=
  .next <| readRequest 0x23 p s fun t =>
    okReply (counted stagedData (t.rating.staged.toList.take (stagedCount t.rating.staged)))

/-- WRITE_STAGED_POINT (R40). -/
def execWriteStagedPoint (p : Port) (index : Nat) (h : Int) (q : Nat) (s : State) : Result :=
  .next <| request 0x24 p s fun t =>
    if within 0 23 index && stageInRange h && within 0 Config.dischargeMax q then
      let staged := put t.rating.staged index (some ⟨h, q⟩)
      ({ t with rating := { t.rating with staged := staged } }, okReply (u8 (stagedCount staged)))
    else (t, rangeReply [])

/-- CLEAR_STAGED (R41). -/
def execClearStaged (p : Port) (s : State) : Result :=
  .next <| request 0x25 p s fun t =>
    ({ t with rating := { t.rating with staged := Vector.replicate 24 none } },
      okReply (u8 (stagedCount t.rating.staged)))

/-- The current discharge recomputed for the stage of the last offer, and an evaluation (R43 to R45). -/
def rateAgain (s : State) : State := evaluate (recomputeDischarge s.stage.stilled s)

/-- The data of a refused install: failure kind and index reported (R42). -/
def stagedFaultData : StagedFault → List Byte
  | .count n => u8 0 ++ u8 n
  | .emptyIndex i => u8 1 ++ u8 i
  | .stageOrder i => u8 2 ++ u8 i
  | .dischargeOrder i => u8 3 ++ u8 i

/-- The staged breakpoints made active, the version advanced (R43). -/
def RatingUnit.install (r : RatingUnit) : RatingUnit :=
  { r with active := stagedPoints r.staged, version := nextVersion r.version }

/-- INSTALL_RATING (R42, R43). -/
def execInstallRating (p : Port) (s : State) : Result :=
  .next <| request 0x26 p s fun t =>
    match checkStaged t.rating.staged with
    | some fault => (t, rangeReply (stagedFaultData fault))
    | none =>
      let r := t.rating.install
      (rateAgain (raise .ratingInstalled { t with rating := r }),
        okReply (u8 r.version ++ u8 r.active.length))

/-- SET_SHIFT (R44). -/
def execSetShift (p : Port) (shift : Int) (s : State) : Result :=
  .next <| request 0x27 p s fun t =>
    if withinInt (-500) 500 shift then
      (rateAgain { t with rating := { t.rating with shift := shift } }, okReply (i16 t.rating.shift))
    else (t, rangeReply [])

/-- SET_EXTRAPOLATION_LIMIT (R45). -/
def execSetExtrapolationLimit (p : Port) (limit : Nat) (s : State) : Result :=
  .next <| request 0x28 p s fun t =>
    if within 0 2000 limit then
      (rateAgain { t with rating := { t.rating with limit := limit } }, okReply (u16 t.rating.limit))
    else (t, rangeReply [])

end Sys2Proof.Machine
end

