-- ==== Sys2Proof/Machine/PlanCommands.lean ====
section
/-! DEFINITION. The Plan Store's commands (chapter 4). -/

namespace Sys2Proof.Machine

/-! ## Vertical pool (R60 to R63) -/

def poolIndexInRange (i : Nat) : Bool := within 1 64 i

/-- One record of the pool replaced (R61). -/
def setPoolRecord (i : Nat) (r : VerticalRecord) (s : State) : State :=
  { s with plan := { s.plan with pool := put s.plan.pool (i - 1) r } }

/-- READ_VERTICAL's data: the fields of R60, then whether the record is in use. -/
def verticalData (r : VerticalRecord) (inUse : Bool) : List Byte :=
  twoValued r.used ++ u32 r.x ++ u8 (depthModeCode r.depthMode) ++ maskBytes 1 [r.depth.isSome]
    ++ optU16 r.depth ++ u8 (methodCode r.method) ++ u8 r.countTime ++ u8 r.next ++ twoValued inUse

/-- READ_VERTICAL (R62). -/
def execReadVertical (p : Port) (index : Nat) (s : State) : Result :=
  .next <| readRequest 0x30 p s fun t =>
    if poolIndexInRange index then okReply (verticalData (poolRecord t index) (recordInUse t index))
    else rangeReply []

/-- A depth is carried with FIXED, in its range, and not with SOUND (R60, R61). -/
def depthFits (mode : DepthMode) (depth : Option Nat) : Bool :=
  match mode, depth with
  | .fixed, some d => within 0 20000 d
  | .sound, none => true
  | _, _ => false

/-- The record a WRITE_VERTICAL makes, or none where a field lies outside its range (R61). -/
def verticalOf (a : VerticalArgs) : Option VerticalRecord :=
  match depthModeOf a.depthMode, methodOf a.method with
  | some mode, some method =>
    if within 0 400000 a.x && depthFits mode a.depth && within 20 180 a.countTime && within 0 64 a.next then
      some
        { used := true, x := a.x, depthMode := mode, depth := a.depth, method := method,
          countTime := a.countTime, next := a.next }
    else none
  | _, _ => none

/-- WRITE_VERTICAL (R61). -/
def execWriteVertical (p : Port) (index : Nat) (a : VerticalArgs) (s : State) : Result :=
  .next <| request 0x31 p s fun t =>
    match poolIndexInRange index, verticalOf a with
    | true, some r =>
      if recordInUse t index then (t, inUseReply)
      else (setPoolRecord index r t, okReply (twoValued (poolRecord t index).used))
    | _, _ => (t, rangeReply [])

/-- CLEAR_VERTICAL (R62). -/
def execClearVertical (p : Port) (index : Nat) (s : State) : Result :=
  .next <| request 0x32 p s fun t =>
    if !poolIndexInRange index then (t, rangeReply [])
    else if recordInUse t index then (t, inUseReply)
    else (setPoolRecord index {} t, okReply (twoValued (poolRecord t index).used))

/-! ## Meter records (R64) -/

/-- Whether a meter is refused for writing (R64): an armed slot's, or the active run's slot's. -/
def meterInUse (s : State) (meter : Nat) : Bool :=
  (List.range 4).any fun k =>
    (slotAt s k).definition.meter == meter && ((slotAt s k).armed || s.plan.activeSlot == some k)

/-- READ_METER (R64). -/
def execReadMeter (p : Port) (meter : Nat) (s : State) : Result :=
  .next <| readRequest 0x33 p s fun t =>
    if within 0 3 meter then
      let m := at' t.plan.meters meter
      okReply (u16 m.a ++ u32 m.b ++ u8 m.pulses ++ u16 m.ident ++ twoValued (meterInUse t meter))
    else rangeReply []

/-- Whether the fields of a WRITE_METER lie in their ranges (R64). -/
def meterArgsInRange (a : MeterArgs) : Bool :=
  within 0 500 a.a && within 0 4000000 a.b && within 1 8 a.pulses && within 0 65535 a.ident

/-- WRITE_METER (R64). -/
def execWriteMeter (p : Port) (meter : Nat) (a : MeterArgs) (s : State) : Result :=
  .next <| request 0x34 p s fun t =>
    if !(within 0 3 meter && meterArgsInRange a) then (t, rangeReply [])
    else if meterInUse t meter then (t, inUseReply)
    else
      let meters := put t.plan.meters meter ⟨a.a, a.b, a.pulses, a.ident⟩
      ({ t with plan := { t.plan with meters := meters } }, okReply [])

/-! ## Slot definitions (R65 to R67) -/

def slotInRange (k : Nat) : Bool := within 0 3 k

def planOf : PlanArg → Option Plan
  | .empty => some .empty
  | .listed f n => if within 1 64 f && within 3 40 n && decide (f + n ≤ 65) then some (.listed f n) else none
  | .linked f => if within 1 64 f then some (.linked f) else none
  | .unknown _ => none

def passesOf : PassesArg → Option Passes
  | .number n => if within 1 4 n then some (.number n) else none
  | .index => some .index
  | .unknown _ => none

def triggerOf : TriggerArg → Option Trigger
  | .port => some .port
  | .stageRise h sense => if stageInRange h then (triggerSenseOf sense).map (.stageRise h) else none
  | .warningLevel l sense => if within 1 3 l then (triggerSenseOf sense).map (.warningLevel l) else none
  | .interval h => if within 1 24 h then some (.interval h) else none
  | .upstream c => if within 0 7 c then some (.upstream c) else none
  | .unknown _ => none

/-- Whether each field of a DEFINE_SLOT lies in its range, in the order of its list: the slot number,
then the fields of R65. -/
def slotFieldsInRange (slot : Nat) (a : SlotArgs) : List Bool :=
  [ slotInRange slot, (planOf a.plan).isSome, (runModeOf a.mode).isSome, (passesOf a.passes).isSome,
    within 0 3 a.meter, within 800 950 a.coefficient, within 0 120 a.settleTime,
    (settledSenseOf a.settledSense).isSome, within 0 300 a.pauseLimit, within 10 5000 a.tolerance,
    within 10 900 a.moveTimeout, within 60 1800 a.homeTimeout, (triggerOf a.trigger).isSome ]

/-- The position of the first field at fault, if any. -/
def firstFault (fields : List Bool) : Option Nat := fields.findIdx? (!·)

/-- The definition that a DEFINE_SLOT carries (R65). -/
def definitionOf (a : SlotArgs) : Option SlotDefinition :=
  match planOf a.plan, runModeOf a.mode, passesOf a.passes, settledSenseOf a.settledSense,
      triggerOf a.trigger with
  | some plan, some mode, some passes, some sense, some trigger =>
    some
      { plan := plan, mode := mode, passes := passes, meter := a.meter, coefficient := a.coefficient,
        settleTime := a.settleTime, settledSense := sense, pauseLimit := a.pauseLimit,
        tolerance := a.tolerance, moveTimeout := a.moveTimeout, homeTimeout := a.homeTimeout,
        trigger := trigger }
  | _, _, _, _, _ => none

/-- Whether a meter record is empty (R64). -/
def meterEmpty (s : State) (meter : Nat) : Bool := (at' s.plan.meters meter).b == 0

/-- Settled sense LEVEL with no line of function SETTLED_IN (R66, R74). -/
def settledLineMissing (s : State) (d : SlotDefinition) : Bool :=
  d.settledSense == .level && (s.lines.find? .settledIn).isNone

/-- Checks 2 to 4 of R66 on a definition in range: the refusal, if any. The meter is field 4 of the
request's list and the settled sense field 7. -/
def defineRefusal (s : State) (slot : Nat) (d : SlotDefinition) : Option Reply :=
  if s.plan.activeSlot = some slot then some inUseReply
  else if d.plan ≠ .empty ∧ meterEmpty s d.meter = true then some (rangeReply (u8 4))
  else if d.plan ≠ .empty ∧ settledLineMissing s d = true then some (rangeReply (u8 7))
  else none

/-- DEFINE_SLOT (R66). -/
def execDefineSlot (p : Port) (slot : Nat) (a : SlotArgs) (s : State) : Result :=
  .next <| request 0x36 p s fun t =>
    match firstFault (slotFieldsInRange slot a), definitionOf a with
    | none, some d =>
      match defineRefusal t slot d with
      | some refusal => (t, refusal)
      | none =>
        (updateSlot slot (fun _ => { definition := d }) t, okReply (twoValued (slotAt t slot).armed))
    | fault, _ => (t, rangeReply (u8 (fault.getD 0)))

/-! The definition written back as the fields of the request (R67, R204). -/

def planArgOf : Plan → PlanArg
  | .empty => .empty
  | .listed f n => .listed f n
  | .linked f => .linked f

def passesArgOf : Passes → PassesArg
  | .number n => .number n
  | .index => .index

def triggerSenseCode : TriggerSense → Nat
  | .edge => 0
  | .level => 1

def triggerArgOf : Trigger → TriggerArg
  | .port => .port
  | .stageRise h sense => .stageRise h (triggerSenseCode sense)
  | .warningLevel l sense => .warningLevel l (triggerSenseCode sense)
  | .interval h => .interval h
  | .upstream c => .upstream c

def slotArgsOf (d : SlotDefinition) : SlotArgs :=
  { plan := planArgOf d.plan
    mode := match d.mode with
      | .traverse => 0
      | .stepped => 1
    passes := passesArgOf d.passes
    meter := d.meter, coefficient := d.coefficient, settleTime := d.settleTime
    settledSense := match d.settledSense with
      | .ignore => 0
      | .level => 1
    pauseLimit := d.pauseLimit, tolerance := d.tolerance, moveTimeout := d.moveTimeout
    homeTimeout := d.homeTimeout, trigger := triggerArgOf d.trigger }

/-- The time remaining on an interval timer, ms; absent unless the slot is an armed INTERVAL slot (R67). -/
def intervalLeft (s : State) (x : Slot) : Option Nat :=
  match x.armed, x.definition.trigger with
  | true, .interval _ => some (x.timer.left (nowMs s))
  | _, _ => none

/-- A slot's place in the order list, 1..4 (R67). -/
def orderPosition (s : State) (k : Nat) : Nat := s.plan.order.idxOf k + 1

/-- READ_SLOT's data (R67). -/
def slotData (s : State) (k : Nat) : List Byte :=
  let x := slotAt s k
  let left := (intervalLeft s x).map wholeSeconds
  encSlotArgs (slotArgsOf x.definition) ++ twoValued x.armed ++ twoValued x.request
    ++ maskBytes 1 [left.isSome] ++ optU32 left ++ u8 (orderPosition s k)
    ++ twoValued (s.plan.activeSlot == some k)

/-- READ_SLOT (R67). -/
def execReadSlot (p : Port) (slot : Nat) (s : State) : Result :=
  .next <| readRequest 0x35 p s fun t =>
    if slotInRange slot then okReply (slotData t slot) else rangeReply []

/-! ## Arming, requests, priority (R73 to R75, R80, R81) -/

/-- The refusal of an ARM_SLOT in range, if any (R74). -/
def armRefusal (s : State) (d : SlotDefinition) : Option Reply :=
  if d.plan = .empty then some stateReply
  else if meterEmpty s d.meter || settledLineMissing s d then some (rangeReply [])
  else none

/-- A LEVEL flag judged at an arming (R74): on the stilled stage of the last offer, or on the level held.
An EDGE flag stays as it is. -/
def armedFlag (s : State) (x : Slot) : Bool :=
  match x.definition.trigger with
  | .stageRise h .level =>
    match s.stage.stilled with
    | some z => decide (h ≤ z)
    | none => false
  | .warningLevel l .level => decide (l ≤ s.warning.level)
  | _ => x.request

/-- The period of an INTERVAL slot, ms. -/
def intervalPeriod (d : SlotDefinition) : Nat :=
  match d.trigger with
  | .interval h => h * 3600000
  | _ => 0

/-- The interval timer a slot has when it is armed or its timer expires (R71). -/
def intervalTimer (s : State) (d : SlotDefinition) : Timer :=
  match d.trigger with
  | .interval _ => startTimer s (intervalPeriod d)
  | _ => .stopped

/-- A slot newly armed (R74). -/
def armSlot (slot : Nat) (s : State) : State :=
  let arm (x : Slot) : Slot :=
    { x with armed := true, request := armedFlag s x, timer := intervalTimer s x.definition }
  takeAttempt (updateSlot slot arm s)

/-- ARM_SLOT (R74). -/
def execArmSlot (p : Port) (slot : Nat) (s : State) : Result :=
  .next <| request 0x37 p s fun t =>
    if !slotInRange slot then (t, rangeReply [])
    else
      match armRefusal t (slotAt t slot).definition with
      | some refusal => (t, refusal)
      | none => (if (slotAt t slot).armed then t else armSlot slot t, okReply [])

/-- A slot disarmed, and its active run recalled from the five states (R75, R108). -/
def disarmSlot (slot : Nat) (s : State) : State :=
  let t := updateSlot slot (fun x => { x with armed := false, request := false, timer := .stopped }) s
  if s.plan.activeSlot = some slot ∧ s.engine.state.recallable = true then recallRun .cancelled t else t

/-- DISARM_SLOT (R75). -/
def execDisarmSlot (p : Port) (slot : Nat) (s : State) : Result :=
  .next <| request 0x38 p s fun t =>
    if slotInRange slot then (disarmSlot slot t, okReply (twoValued (slotAt t slot).armed))
    else (t, rangeReply [])

/-- START_RUN's data: TAKEN, OTHER with the slot, or WAITING with the conditions not met (R73), sent as a
set whose member i is row i of the table of R76: the model's reading (log entry 11). -/
def startOutcome (s : State) (slot : Nat) : List Byte :=
  match eligibleSlot s with
  | some k => if k = slot then u8 0 ++ u8 0 else u8 1 ++ u8 k
  | none => u8 2 ++ flagSet 1 ((takeConditions s).map (!·))

/-- A slot's request flag set (R73). -/
def setRequest (slot : Nat) (s : State) : State :=
  updateSlot slot (fun x => { x with request := true }) s

/-- START_RUN (R73). -/
def execStartRun (p : Port) (slot : Nat) (s : State) : Result :=
  .next <| request 0x39 p s fun t =>
    if !slotInRange slot then (t, rangeReply [])
    else if (slotAt t slot).armed then
      (takeAttempt (setRequest slot t), okReply (startOutcome (setRequest slot t) slot))
    else (t, stateReply)

/-- CLEAR_REQUEST (R73). -/
def execClearRequest (p : Port) (slot : Nat) (s : State) : Result :=
  .next <| request 0x3A p s fun t =>
    if slotInRange slot then
      (updateSlot slot (fun x => { x with request := false }) t,
        okReply (twoValued (slotAt t slot).request))
    else (t, rangeReply [])

def priorityCode : Priority → Nat
  | .fixed => 0
  | .rotating => 1

/-- The priority and the order list, as they are reported (R80, R81). -/
def priorityData (s : State) : List Byte := u8 (priorityCode s.plan.priority) ++ eachOf u8 s.plan.order

/-- The order list after a priority is set (R80). -/
def orderFor (priority : Priority) (order : List Nat) : List Nat :=
  match priority with
  | .fixed => [0, 1, 2, 3]
  | .rotating => order

/-- SET_SLOT_PRIORITY (R80). -/
def execSetSlotPriority (p : Port) (priority : Nat) (s : State) : Result :=
  .next <| request 0x3B p s fun t =>
    match priorityOf priority with
    | none => (t, rangeReply [])
    | some pr =>
      ({ t with plan := { t.plan with priority := pr, order := orderFor pr t.plan.order } },
        okReply (priorityData t))

/-- READ_SLOT_STATE's data: the fields of R81, the mask covering active slot and previous offered
stage. The fetched set is sent as the list that R81 describes, with its count, and not as a set of marks,
and the flags of each slot and the five conditions as two-valued fields: the model's reading (log entry
11). -/
def slotStateData (s : State) : List Byte :=
  let slots := s.plan.slots.toList
  priorityData s ++ maskBytes 1 [s.plan.activeSlot.isSome, s.plan.previousStage.isSome]
    ++ optU8 s.plan.activeSlot ++ eachOf (fun x => twoValued (Slot.armed x)) slots
    ++ eachOf (fun x => twoValued (Slot.request x)) slots ++ eachOf twoValued (takeConditions s)
    ++ counted u8 s.plan.fetched ++ optI16 s.plan.previousStage

/-- READ_SLOT_STATE (R81). -/
def execReadSlotState (p : Port) (s : State) : Result :=
  .next (readRequest 0x3C p s fun t => okReply (slotStateData t))

end Sys2Proof.Machine
end

