-- ==== Sys2Proof/Machine/RunCommands.lean ====
section
/-! DEFINITION. The Run Engine's requests (chapter 5). -/

namespace Sys2Proof.Machine

/-! ## Targets (R94) -/

/-- The target of GET_TARGET (R94). -/
inductive Target where
  | station (x tolerance : Nat)
  | depth (d : Nat)
  | home
  | none
  deriving DecidableEq, Repr

/-- The depth of the current point (R94). -/
def currentDepth (v : WorkingVertical) : Nat := v.pointDepths.getD (v.pointOrdinal - 1) 0

/-- The target in the engine's state (R94). -/
def targetOf (s : State) : Target :=
  match s.engine.state with
  | .moving => .station s.engine.vertical.x (activeDefinition s).tolerance
  | .lowering => .depth (currentDepth s.engine.vertical)
  | .homing => .home
  | _ => .none

/-- A target: its tag, and a space of 6 bytes (R204). That the kind and the value of R94's table are one field of
four alternatives, and not a kind beside an optional value under a presence mark, is the model's reading (log
entry 11). -/
def targetBytes : Target → List Byte
  | .station x tolerance => u8 0 ++ u32 x ++ u16 tolerance
  | .depth d => u8 1 ++ u16 d ++ u32 0
  | .home => u8 2 ++ u16 0 ++ u32 0
  | .none => u8 3 ++ u16 0 ++ u32 0

/-- GET_TARGET's data (R94), the mask covering the hold kind. -/
def targetData (s : State) : List Byte :=
  let e := s.engine
  u8 (runStateCode e.state) ++ u16 e.runNumber ++ u16 e.passNumber ++ u8 e.vertical.ordinal
    ++ u8 e.vertical.index ++ u8 e.vertical.pointOrdinal ++ u8 e.vertical.pointDepths.length
    ++ maskBytes 1 [e.holdKind.isSome] ++ optU8 (e.holdKind.map holdKindCode) ++ targetBytes (targetOf s)

/-- GET_TARGET (R94). -/
def execGetTarget (p : Port) (s : State) : Result :=
  .next (readRequest 0x40 p s fun t => okReply (targetData t))

/-! ## Reading the engine (R114) -/

/-- A trip record: its tag and a space of one byte. -/
def tripData : TripRecord → List Byte
  | .none => u8 0 ++ u8 0
  | .limit line => u8 1 ++ u8 line
  | .fault code => u8 2 ++ u8 code
  | .homeTimeout => u8 3 ++ u8 0

/-- The engine's timers. -/
def engineTimers (e : RunEngine) : List Timer :=
  [e.moveTimer, e.settleTimer, e.countTimer, e.pauseTimer, e.homeTimer]

/-- The time remaining on the timer that is running, ms; absent when none runs (R114). -/
def timeRemaining (s : State) : Option Nat :=
  ((engineTimers s.engine).find? Timer.isRunning).map fun t => t.left (nowMs s)

def Timer.isHeld : Timer → Bool
  | .held _ => true
  | _ => false

/-- The time remaining on a held count or pause timer, ms; absent when neither is held (R114). It stands
beside the time of the timer that runs: log entry 27. -/
def heldRemaining (s : State) : Option Nat :=
  ([s.engine.countTimer, s.engine.pauseTimer].find? Timer.isHeld).map fun t => t.left (nowMs s)

/-- The last end record, or zeros. -/
def lastEndData : Option LastEnd → List Byte
  | none => u16 0 ++ u8 0 ++ u8 0 ++ u32 0
  | some e => u16 e.runNumber ++ u8 (e.slot.getD 0) ++ u8 (endCauseCode e.cause) ++ u32 e.stamp

/-- The working vertical in the order of R86. -/
def workingData (v : WorkingVertical) : List Byte :=
  u8 v.index ++ u8 v.ordinal ++ u32 v.x ++ u8 (depthModeCode v.depthMode)
    ++ u8 (methodCode v.methodFetched) ++ u8 v.countTime ++ u8 v.next ++ optU16 v.depth
    ++ optU8 (v.methodUsed.map methodCode) ++ counted u16 v.pointDepths ++ u8 v.pointOrdinal
    ++ flagSet 1 [v.methodReduced, v.restarted]

/-- READ_RUN_STATE's data (R114): state, the records of R86, time remaining, time remaining with a hold,
conditions, permit value. The mask covers slot, homing cause, hold kind, direction, depth, method used,
last end and the two times. The paused time, which a pause limit of 0 leaves without an upper bound, is sent
in 4 bytes, modulo 2^32 ms: the model's choice (log entry 12). -/
def runStateData (s : State) : List Byte :=
  let e := s.engine
  let v := e.vertical
  let left := timeRemaining s
  let withHold := heldRemaining s
  u8 (runStateCode e.state) ++ u16 e.runNumber
    ++ maskBytes 2 [e.slot.isSome, e.homingCause.isSome, e.holdKind.isSome, e.direction.isSome,
      v.depth.isSome, v.methodUsed.isSome, e.lastEnd.isSome, left.isSome, withHold.isSome]
    ++ optU8 e.slot ++ optU8 (e.homingCause.map endCauseCode) ++ u16 e.passNumber
    ++ optU8 (e.holdKind.map holdKindCode) ++ u8 e.fetchCount ++ optU8 (e.direction.map directionCode)
    ++ i16 e.ghStart ++ markByte e.ghStartHeld ++ workingData v
    ++ u16 e.point.pulses ++ u32 (countedNow s) ++ u32 (pausedNow s) ++ twoValued e.point.paused
    ++ twoValued e.point.restartWait ++ tripData e.trip ++ lastEndData e.lastEnd ++ optU32 left
    ++ optU32 withHold
    ++ twoValued e.state.carriageWanted ++ twoValued (e.state == .holding) ++ twoValued (e.state == .tripped)
    ++ u8 (permitCode e.state.permit)

/-- READ_RUN_STATE (R114). -/
def execReadRunState (p : Port) (s : State) : Result :=
  .next (readRequest 0x41 p s fun t => okReply (runStateData t))

/-! ## The controller's reports (R95 to R99) -/

/-- A taken report's answer carries what GET_TARGET would give after it (R94). -/
def answerTarget (s : State) : State × Reply := (s, okReply (targetData s))

/-- The depth a POSITION_REACHED gives the working vertical (R95), or none where a sounding is wanted
and none is carried. -/
def depthAtArrival (v : WorkingVertical) (sounded : Option Nat) : Option Nat :=
  match v.depthMode with
  | .fixed => some (v.fetchedDepth.getD 0)
  | .sound => sounded

/-- Whether the fields of a POSITION_REACHED lie in their ranges (R95). -/
def arrivalInRange (reported : Nat) (sounded : Option Nat) : Bool :=
  within 0 400000 reported && sounded.all (within 0 20000)

/-- Whether a reported distance lies within the position tolerance (R95). -/
def withinTolerance (s : State) (reported : Nat) : Bool :=
  decide (distance reported s.engine.vertical.x ≤ (activeDefinition s).tolerance)

/-- POSITION_REACHED (R95, R96). -/
def execPositionReached (p : Port) (reported : Nat) (sounded : Option Nat) (s : State) : Result :=
  .next <| request 0x42 p s fun t =>
    if t.engine.state ≠ .moving then (t, stateReply)
    else if arrivalInRange reported sounded && withinTolerance t reported then
      match depthAtArrival t.engine.vertical sounded with
      | none => (t, rangeReply [])
      | some d => answerTarget (arrive d t)
    else (t, rangeReply [])

/-- The move timer stops and SETTLING is entered (R97). -/
def depthArrived (s : State) : State :=
  startSettling (withEngine { s.engine with moveTimer := .stopped } s)

/-- DEPTH_REACHED (R97). -/
def execDepthReached (p : Port) (s : State) : Result :=
  .next <| request 0x43 p s fun t =>
    if t.engine.state = .lowering then answerTarget (depthArrived t) else (t, stateReply)

/-- The carriage is home: the run ends with the homing cause (R99). In HOMING a cause is always held. -/
def homeArrived (s : State) : State :=
  endIdle (s.engine.homingCause.getD .complete) (withEngine { s.engine with homeTimer := .stopped } s)

/-- HOME_REACHED (R99). -/
def execHomeReached (p : Port) (s : State) : Result :=
  .next <| request 0x44 p s fun t =>
    match t.engine.state with
    | .homing => answerTarget (homeArrived t)
    | .idle => answerTarget t
    | _ => (t, stateReply)

/-! ## PROCEED and the endings by request (R107, R108, R110 to R112) -/

/-- The held run goes on (R107). -/
def proceedRun (s : State) : State :=
  match s.engine.holdKind with
  | some .nextPass => startPass (nextNumber s.engine.passNumber) s
  | _ => fetch s

/-- PROCEED (R107). -/
def execProceed (p : Port) (s : State) : Result :=
  .next <| request 0x45 p s fun t =>
    if t.engine.state = .holding then answerTarget (proceedRun t) else (t, stateReply)

/-- CANCEL_RUN (R108). -/
def execCancelRun (p : Port) (s : State) : Result :=
  .next <| request 0x46 p s fun t =>
    if t.engine.state.recallable then (recallRun .cancelled t, okReply []) else (t, stateReply)

/-- CARRIAGE_FAULT (R110). -/
def execCarriageFault (p : Port) (code : Nat) (s : State) : Result :=
  .next <| request 0x47 p s fun t =>
    let u := tripEngine (.fault code) t
    (u, okReply (u8 (runStateCode u.engine.state)))

/-- Whether the engine may leave TRIPPED (R111, R112). -/
def tripClearable (s : State) : Bool := s.engine.state == .tripped && !s.lines.anyActive .limitIn

/-- CLEAR_TRIP (R111). -/
def execClearTrip (p : Port) (s : State) : Result :=
  .next <| request 0x48 p s fun t =>
    if tripClearable t then (takeAttempt (enter .idle t), okReply (tripData t.engine.trip))
    else (t, stateReply)

/-- Every request flag cleared and the order list restored (R83, R80). -/
def clearRequests (s : State) : State :=
  { s with plan := { s.plan with
      slots := s.plan.slots.map fun x => { x with request := false }
      order := [0, 1, 2, 3] } }

/-- RESET_ENGINE's effect (R112). The take attempt at the entry to IDLE follows the clearing of the
flags, finds none set and takes nothing. -/
def resetEngine (s : State) : State :=
  let t := endByReset s
  clearRequests (if tripClearable t then enter .idle t else t)

/-- RESET_ENGINE (R112). -/
def execResetEngine (p : Port) (s : State) : Result :=
  .next <| request 0x49 p s fun t =>
    (resetEngine t, okReply (u8 (runStateCode (resetEngine t).engine.state)))

end Sys2Proof.Machine
end

