-- ==== Sys2Proof/Machine/ResultCommands.lean ====
section
/-! DEFINITION. The Result Store's requests (chapter 6). -/

namespace Sys2Proof.Machine

def passStatusCode : PassStatus → Nat
  | .complete => 0
  | .aborted => 1

/-- The marks byte of a pass result (section 11.6). -/
def resultMarks (r : PassResult) : List Byte :=
  flagSet 1 [r.velocityClamped, r.restarted, r.methodReduced, r.beyondRating, r.ghHeld, r.proposalClamped]

/-- A pass result laid out as section 11.6 gives it, but for the ids that follow it. -/
def resultData (r : PassResult) : List Byte :=
  u32 r.id ++ u16 r.runNumber ++ u16 r.passNumber ++ u8 r.slot ++ u8 r.meter ++ u16 r.meterIdent
    ++ u8 (passStatusCode r.status) ++ u8 (endCauseCode r.cause) ++ u32 r.startStamp ++ u32 r.endStamp
    ++ u8 r.verticals
    ++ maskBytes 1 [r.area.isSome, r.measured.isSome, r.meanVelocity.isSome, r.rated.isSome,
      r.deviation.isSome, r.proposal.isSome]
    ++ u32 r.width ++ optU32 r.area ++ optU32 r.measured ++ optU16 r.meanVelocity
    ++ i16 r.ghStart ++ i16 r.ghEnd ++ i16 r.ghMean ++ u8 r.version ++ u8 (ratingMarkCode r.ratingMark)
    ++ optU32 r.rated ++ optI16 r.deviation ++ optI16 r.proposal ++ resultMarks r

def oldestId (log : List PassResult) : Option Nat := log.head?.map PassResult.id

def newestId (log : List PassResult) : Option Nat := log.getLast?.map PassResult.id

/-- The oldest and newest ids held. -/
def idsData (log : List PassResult) : List Byte := optU32 (oldestId log) ++ optU32 (newestId log)

/-- The result a selector names in the log (R130). -/
def selectResult (log : List PassResult) : ResultSelector → Option PassResult
  | .newest => log.getLast?
  | .oldest => log.head?
  | .ident n => log.find? fun r => r.id == n
  | .unknown _ => none

/-- Whether a selector lies in its range (R130). -/
def selectorInRange : ResultSelector → Bool
  | .ident n => within 1 4294967295 n
  | .unknown _ => false
  | _ => true

/-- READ_RESULT's reply (R130). -/
def resultReply (log : List PassResult) (selector : ResultSelector) : Reply :=
  if selectorInRange selector then
    match selectResult log selector with
    | some r => okReply (resultData r ++ idsData log)
    | none =>
      emptyReply (maskBytes 1 [(oldestId log).isSome, (newestId log).isSome] ++ idsData log)
  else rangeReply []

/-- READ_RESULT (R130). -/
def execReadResult (p : Port) (selector : ResultSelector) (s : State) : Result :=
  .next (readRequest 0x50 p s fun t => resultReply t.results.log selector)

/-- READ_PASS's data: the fields of R131, the mask covering slot, meter number, meter identifier,
GH_start with its held mark, and result id. The held mark is absent with GH_start: the model's reading
(log entry 11). The sums are wider than 4 bytes: log entry 12. -/
def passData (r : ResultStore) : List Byte :=
  let x := r.pass
  u8 (passStateCode x.state) ++ u16 x.runNumber ++ u16 x.passNumber
    ++ maskBytes 1 [x.slot.isSome, x.meter.isSome, x.meterIdent.isSome, x.ghStart.isSome,
      x.resultId.isSome]
    ++ optU8 x.slot ++ optU8 x.meter ++ optU16 x.meterIdent ++ u32 x.startStamp ++ optI16 x.ghStart
    ++ optMark (x.ghStart.map fun _ => x.ghStartHeld) ++ u8 r.table.length ++ u8 (completeCount r.table)
    ++ u64 (sumPanels Panel.q r.table) ++ u64 (sumPanels Panel.area r.table) ++ optU32 x.resultId

/-- READ_PASS (R131). -/
def execReadPass (p : Port) (s : State) : Result :=
  .next (readRequest 0x51 p s fun t => okReply (passData t.results))

def pointData (x : MeasuredPoint) : List Byte := u16 x.pulses ++ u32 x.countedMs ++ u16 x.velocity

/-- One entry's bytes: the fields of R120, the mask covering depth, method used, mean velocity, span, q
and a. -/
def entryData (e : TableEntry) : List Byte :=
  let finalized := e.panel.isSome
  u8 e.ordinal ++ u8 e.index ++ u32 e.x ++ u8 (depthModeCode e.depthMode)
    ++ u8 (methodCode e.methodFetched) ++ u8 e.countTime
    ++ maskBytes 1 [e.depth.isSome, e.methodUsed.isSome, e.mean.isSome, finalized, finalized, finalized]
    ++ optU16 e.depth ++ optU8 (e.methodUsed.map methodCode) ++ counted u16 e.pointDepths
    ++ counted pointData e.points ++ optU16 e.mean ++ twoValued e.complete
    ++ optU32 (e.panel.map Panel.span) ++ u64 ((e.panel.map Panel.q).getD 0)
    ++ optU32 (e.panel.map Panel.area) ++ flagSet 1 [e.methodReduced, e.restarted, e.velocityClamped]

/-- READ_PASS_VERTICAL's reply (R132). -/
def entryReply (r : ResultStore) (ordinal : Nat) : Reply :=
  if within 1 40 ordinal then
    match r.table[ordinal - 1]? with
    | some e => okReply (entryData e ++ u8 (passStateCode r.pass.state))
    | none => emptyReply (u8 r.table.length)
  else rangeReply []

/-- READ_PASS_VERTICAL (R132). -/
def execReadPassVertical (p : Port) (ordinal : Nat) (s : State) : Result :=
  .next (readRequest 0x52 p s fun t => entryReply t.results ordinal)

end Sys2Proof.Machine
end

