-- ==== Sys2Proof/Machine/WarningCommands.lean ====
section
/-! DEFINITION. The Warning Unit's requests (chapter 7). -/

namespace Sys2Proof.Machine

/-! ## Reading (R155) -/

/-- The dwell timer: its tag, and the time remaining in seconds in a space of two bytes (R204). -/
def dwellData (now : Nat) (t : Timer) : List Byte :=
  match t with
  | .stopped => u8 0 ++ u16 0
  | .running _ => u8 1 ++ u16 (wholeSeconds (t.left now))
  | .held _ => u8 2 ++ u16 (wholeSeconds (t.left now))

/-- A retreat level: a number, or NONE. -/
def retreatLevelData : Option Nat → List Byte
  | some l => u8 0 ++ u8 l
  | none => u8 1 ++ u8 0

def triList {α : Type} (t : Tri α) : List α := [t.one, t.two, t.three]

/-- The marks of the nine thresholds, in the order of `criteriaData` (log entry 11). -/
def criteriaMarks (c : Criteria) : List Bool :=
  (triList c.stage).map Option.isSome ++ (triList c.discharge).map Option.isSome
    ++ (triList c.rise).map Option.isSome

/-- The criteria of READ_WARNING (R155). That the thresholds go kind by kind, every T, then every Qt, then every
R, as R136 carries them, and not level by level, is the model's reading (log entry 11). -/
def criteriaData (c : Criteria) : List Byte :=
  eachOf optI16 (triList c.stage) ++ eachOf optU32 (triList c.discharge) ++ eachOf optU16 (triList c.rise)
    ++ u16 c.hysteresis ++ u16 c.dischargeHysteresis ++ u8 c.dwell

def outputKindCode : OutputKind → Nat
  | .steady => 0
  | .siren => 1

def outputData (o : WarningOutput) : List Byte :=
  u8 o.showLevel ++ u8 (outputKindCode o.kind) ++ u8 (overrideCode o.override) ++ twoValued o.automatic
    ++ twoValued o.driven

/-- READ_WARNING's data: the fields of R155, the mask covering the retreat stage and the thresholds. -/
def warningData (s : State) : List Byte :=
  let w := s.warning
  u8 w.level ++ u8 w.demanded ++ u8 w.partStage ++ u8 w.partDischarge ++ u8 w.partRise ++ u8 w.partFloor
    ++ u8 w.floor ++ dwellData (nowMs s) w.dwell ++ twoValued w.retreat
    ++ maskBytes 2 (w.retreatStage.isSome :: criteriaMarks w.criteria) ++ optI16 w.retreatStage
    ++ retreatLevelData w.retreatLevel ++ markByte w.silence ++ criteriaData w.criteria
    ++ eachOf outputData w.outputs.toList

/-- READ_WARNING (R155). -/
def execReadWarning (p : Port) (s : State) : Result :=
  .next (readRequest 0x60 p s fun t => okReply (warningData t))

/-! ## Criteria (R136) -/

/-- Whether each field of a SET_LEVEL_CRITERIA lies in its range, in the order of R136. -/
def criteriaFieldsInRange (a : CriteriaArgs) : List Bool :=
  (triList a.stage).map (·.all stageInRange) ++ (triList a.discharge).map (·.all (within 1 4000000))
    ++ (triList a.rise).map (·.all (within 1 5000))
    ++ [within 0 1000 a.hysteresis, within 0 500 a.dischargeHysteresis, within 0 240 a.dwell]

/-- The level at which the thresholds present, taken from level j on, first decrease; absent ones are
passed over (R136). -/
def firstDecrease (j : Nat) (before : Option Int) : List (Option Int) → Option Nat
  | [] => none
  | none :: rest => firstDecrease (j + 1) before rest
  | some t :: rest =>
    match before with
    | none => firstDecrease (j + 1) (some t) rest
    | some b => if t < b then some j else firstDecrease (j + 1) (some t) rest

/-- The kind and level at which the order of thresholds first fails (R136). -/
def orderFault (a : CriteriaArgs) : Option (Nat × Nat) :=
  let whole (t : Tri (Option Nat)) : List (Option Int) := (triList t).map (·.map Int.ofNat)
  match firstDecrease 1 none (triList a.stage), firstDecrease 1 none (whole a.discharge),
      firstDecrease 1 none (whole a.rise) with
  | some j, _, _ => some (0, j)
  | none, some j, _ => some (1, j)
  | none, none, some j => some (2, j)
  | none, none, none => none

/-- The criteria that a SET_LEVEL_CRITERIA carries. -/
def criteriaOf (a : CriteriaArgs) : Criteria :=
  ⟨a.stage, a.discharge, a.rise, a.hysteresis, a.dischargeHysteresis, a.dwell⟩

/-- SET_LEVEL_CRITERIA (R136). -/
def execSetLevelCriteria (p : Port) (a : CriteriaArgs) (s : State) : Result :=
  .next <| request 0x61 p s fun t =>
    match firstFault (criteriaFieldsInRange a), orderFault a with
    | some field, _ => (t, rangeReply (u8 field))
    | none, some fault => (t, rangeReply (u8 fault.1 ++ u8 fault.2))
    | none, none =>
      (evaluate { t with warning := { t.warning with criteria := criteriaOf a, dwell := .stopped } },
        okReply [])

/-! ## Retreat (R148) -/

/-- The retreat level a request carries: a level 1..3 or NONE; none outside the range. -/
def retreatLevelOf : RetreatLevelArg → Option (Option Nat)
  | .number n => if within 1 3 n then some (some n) else none
  | .none => some none
  | .unknown _ => none

/-- The retreat settings and state, as SET_RETREAT answers them. -/
def retreatData (w : WarningUnit) : List Byte :=
  maskBytes 1 [w.retreatStage.isSome] ++ optI16 w.retreatStage ++ retreatLevelData w.retreatLevel
    ++ twoValued w.retreat

/-- SET_RETREAT (R148). -/
def execSetRetreat (p : Port) (stage : Option Int) (level : RetreatLevelArg) (s : State) : Result :=
  .next <| request 0x62 p s fun t =>
    match retreatLevelOf level with
    | none => (t, rangeReply [])
    | some l =>
      if stage.all stageInRange then
        (evaluate { t with warning := { t.warning with retreatStage := stage, retreatLevel := l } },
          okReply (retreatData t.warning))
      else (t, rangeReply [])

/-! ## Outputs, overrides and silence (R151, R152, R154) -/

/-- One output replaced. -/
def setOutput (k : Nat) (o : WarningOutput) (s : State) : State :=
  { s with warning := { s.warning with outputs := put s.warning.outputs k o } }

/-- SET_WARNING_OUTPUT (R151). -/
def execSetWarningOutput (p : Port) (output showLevel kind : Nat) (s : State) : Result :=
  .next <| request 0x63 p s fun t =>
    match outputKindOf kind with
    | none => (t, rangeReply [])
    | some k =>
      if within 0 3 output && within 1 3 showLevel then
        let o := at' t.warning.outputs output
        (formOutputs (setOutput output { o with showLevel := showLevel, kind := k } t),
          okReply (u8 o.showLevel ++ u8 (outputKindCode o.kind)))
      else (t, rangeReply [])

/-- Every output in a mask takes an override (R152). -/
def setOverrides (v : Override) (mask : BitVec 8) (s : State) : State :=
  let one (k : Nat) (o : WarningOutput) : WarningOutput :=
    if mask.getLsbD k then { o with override := v } else o
  { s with warning := { s.warning with outputs := s.warning.outputs.mapIdx one } }

/-- What the three override requests share (R152). -/
def overrideRequest (code : Nat) (v : Override) (p : Port) (mask : BitVec 8) (s : State) : State :=
  request code p s fun t =>
    if 15 < mask.toNat then (t, rangeReply [])
    else
      (formOutputs (setOverrides v mask t),
        okReply (eachOf (fun o => u8 (overrideCode (WarningOutput.override o))) t.warning.outputs.toList))

/-- OVERRIDE_ON (R152). -/
def execOverrideOn (p : Port) (mask : BitVec 8) (s : State) : Result :=
  .next (overrideRequest 0x64 .on p mask s)

/-- OVERRIDE_OFF (R152). -/
def execOverrideOff (p : Port) (mask : BitVec 8) (s : State) : Result :=
  .next (overrideRequest 0x65 .off p mask s)

/-- OVERRIDE_AUTO (R152). -/
def execOverrideAuto (p : Port) (mask : BitVec 8) (s : State) : Result :=
  .next (overrideRequest 0x66 .auto p mask s)

/-- SILENCE (R154): the reply carries the level, and silence as it stood before and after. -/
def execSilence (p : Port) (s : State) : Result :=
  .next <| request 0x67 p s fun t =>
    let u := takeSilence t
    (u, okReply (u8 t.warning.level ++ markByte t.warning.silence ++ markByte u.warning.silence))

end Sys2Proof.Machine
end

