-- ==== Sys2Proof/Machine/UpstreamCommands.lean ====
section
/-! DEFINITION. The Upstream Filter's requests (chapter 8). -/

namespace Sys2Proof.Machine

/-! ## Reports (R162, R163, R169) -/

/-- Whether the fields of a report lie in their ranges (R162). -/
def reportInRange (a : ReportArgs) : Bool :=
  within 1 65535 a.address && within 0 4294967295 a.stamp && within 0 7 a.cls && stageInRange a.stage
    && within 0 3 a.level

/-- UPSTREAM_REPORT's data (section 11.6). -/
def reportData (d : Disposition) (entry contribution handling last : Nat) : List Byte :=
  u8 (dispositionCode d) ++ u8 entry ++ u8 contribution ++ u8 handling ++ u32 last ++ u8 0

/-- The class cap of a report; a class that is dropped has none. -/
def capOf (u : UpstreamFilter) (cls : Nat) : Nat := (at' u.classMap cls).getD 0

/-- An accepted report is handed on (R169 steps 3 and 4). -/
def handAccepted (cls : Nat) (s : State) : State := triggerUpstream cls (raise .upstreamAccepted s)

/-- A TABLE report (R163, R169). -/
def takeTableReport (i : Nat) (a : ReportArgs) (s : State) : State × Reply :=
  let e := entryAt s i
  let c := contributionOf (capOf s.upstream a.cls) a.level e.stepDown
  let r := e.accept a c (nowMs s)
  let t := countReport .table (setEntry i r.1 s)
  let u := if r.2 = .current then formFloor t else t
  (handAccepted a.cls u, okReply (reportData .table i c (handlingCode r.2) 0))

/-- The taking of a report in range (R162, R168, R169). -/
def takeReport (a : ReportArgs) (s : State) : State × Reply :=
  match s.upstream.dispose a, s.upstream.find? a.address with
  | .table, some i => takeTableReport i a s
  | .neighbour, _ =>
    (handAccepted a.cls (countReport .neighbour s), okReply (reportData .neighbour 255 0 0 0))
  | .droppedOrder, some i =>
    let last := ((entryAt s i).last.map LastReport.stamp).getD 0
    (countReport .droppedOrder s, okReply (reportData .droppedOrder i 0 0 last))
  | d, _ => (countReport d s, okReply (reportData d 255 0 0 0))

/-- UPSTREAM_REPORT (R162 to R169). -/
def execUpstreamReport (p : Port) (a : ReportArgs) (s : State) : Result :=
  .next <| request 0x70 p s fun t => if reportInRange a then takeReport a t else (t, rangeReply [])

/-! ## Reading (R171, R172) -/

/-- An uptime with its millisecond phase, held in ms (R158): seconds, then the phase. -/
def uptimeData (ms : Nat) : List Byte := u32 (ms / 1000) ++ u16 (ms % 1000)

def queueItemData (now : Nat) (x : QueueItem) : List Byte :=
  u8 x.value ++ uptimeData x.effective ++ u32 (wholeSeconds (x.effective - now))

/-- A class map entry: a cap, or DROP. -/
def capData : Option Nat → List Byte
  | some n => u8 0 ++ u8 n
  | none => u8 1 ++ u8 0

/-- READ_UPSTREAM_ENTRY's data: the fields of R158, each queued item with the time remaining to it, and
the further fields of R171. The mask covers the five last fields, the age, the stale time remaining and
the class cap. That the delay queue is sent once, in its place in R158 and with R171's time remaining in each
item, and not a second time, is the model's reading; that the class cap of a last class which the class map now
drops is sent, present, as the alternative DROP, is its choice where R171 speaks of a cap only (log entry 11). -/
def entryStateData (s : State) (i : Nat) : List Byte :=
  let e := entryAt s i
  let now := nowMs s
  let held := e.last.isSome
  let left := (staleDue s.upstream.staleLimit e).map fun due => wholeSeconds (due - now)
  u16 e.address ++ u8 e.stepDown ++ u16 e.travel
    ++ maskBytes 1 [held, held, held, held, held, held, left.isSome, held]
    ++ optU32 (e.last.map LastReport.stamp) ++ optI16 (e.last.map LastReport.stage)
    ++ optU8 (e.last.map LastReport.level) ++ optU8 (e.last.map LastReport.cls)
    ++ uptimeData ((e.last.map LastReport.arrival).getD 0) ++ u8 e.contribution ++ markByte e.stale
    ++ counted (queueItemData now) e.queue
    ++ optU32 (e.last.map fun r => wholeSeconds (now - r.arrival)) ++ optU32 left
    ++ (match e.last with
      | some r => capData (at' s.upstream.classMap r.cls)
      | none => u16 0)

/-- READ_UPSTREAM_ENTRY (R171). -/
def execReadUpstreamEntry (p : Port) (index : Nat) (s : State) : Result :=
  .next <| readRequest 0x71 p s fun t =>
    if within 0 15 index then okReply (entryStateData t index) else rangeReply []

/-- The filter settings in the order of R161. -/
def filterData (u : UpstreamFilter) : List Byte :=
  twoValued u.hashEnable ++ markByte u.acceptAll ++ u16 u.staleLimit ++ eachOf capData u.classMap.toList

def countersData (c : UpstreamCounters) : List Byte :=
  u16 c.table ++ u16 c.neighbour ++ u16 c.droppedClass ++ u16 c.droppedOrder ++ u16 c.droppedFilter

/-- The lowest index that holds the greatest contribution, absent when the floor is 0 (R172). -/
def floorIndex (u : UpstreamFilter) : Option Nat :=
  if u.floor = 0 then none
  else (List.range 16).find? fun i => (at' u.entries i).contribution == u.greatest

/-- READ_UPSTREAM_STATE's data (R172). -/
def upstreamData (u : UpstreamFilter) : List Byte :=
  let entries := u.entries.toList
  u8 u.floor ++ maskBytes 1 [(floorIndex u).isSome] ++ optU8 (floorIndex u)
    ++ u8 (entries.filter fun e => e.address != 0).length ++ u8 (entries.filter StationEntry.stale).length
    ++ filterData u ++ setBytes 8 u.hash.toNat ++ countersData u.counters

/-- READ_UPSTREAM_STATE (R172). -/
def execReadUpstreamState (p : Port) (s : State) : Result :=
  .next (readRequest 0x72 p s fun t => okReply (upstreamData t.upstream))

/-! ## Settings (R159 to R161, R168) -/

/-- Whether another entry holds a non-zero address (R159). -/
def addressElsewhere (u : UpstreamFilter) (index address : Nat) : Bool :=
  address != 0 && (List.range 16).any fun i => i != index && (at' u.entries i).address == address

/-- Whether the fields of a SET_UPSTREAM_ENTRY lie in their ranges (R159). -/
def entryArgsInRange (index address stepDown travel : Nat) : Bool :=
  within 0 15 index && within 0 65535 address && within 0 3 stepDown && within 0 1440 travel

/-- SET_UPSTREAM_ENTRY (R159). -/
def execSetUpstreamEntry (p : Port) (index address stepDown travel : Nat) (s : State) : Result :=
  .next <| request 0x73 p s fun t =>
    if entryArgsInRange index address stepDown travel && !addressElsewhere t.upstream index address then
      let e := entryAt t index
      let u := setEntry index { address := address, stepDown := stepDown, travel := travel } t
      (if 0 < e.contribution then formFloor u else u, okReply (u16 e.address ++ u8 e.contribution))
    else (t, rangeReply [])

/-- SET_HASH (R160). -/
def execSetHash (p : Port) (marks : BitVec 64) (s : State) : Result :=
  .next <| request 0x74 p s fun t =>
    ({ t with upstream := { t.upstream with hash := marks } }, okReply (setBytes 8 t.upstream.hash.toNat))

/-- A class map entry carried: a cap 0..3 or DROP; none outside the range (R161). -/
def capArgOf : CapArg → Option (Option Nat)
  | .cap n => if within 0 3 n then some (some n) else none
  | .drop => some none
  | .unknown _ => none

/-- The filter settings replaced (R161). -/
def UpstreamFilter.withSettings (u : UpstreamFilter) (enable all : Bool) (a : FilterArgs) :
    UpstreamFilter :=
  { u with
    hashEnable := enable
    acceptAll := all
    staleLimit := a.staleLimit
    classMap := a.classMap.map fun x => (capArgOf x).getD none }

/-- SET_UPSTREAM_FILTER (R161). -/
def execSetUpstreamFilter (p : Port) (a : FilterArgs) (s : State) : Result :=
  .next <| request 0x75 p s fun t =>
    match twoValuedOf a.hashEnable, twoValuedOf a.acceptAll with
    | some enable, some all =>
      if within 10 2880 a.staleLimit && a.classMap.all fun x => (capArgOf x).isSome then
        (judgeStaleness { t with upstream := t.upstream.withSettings enable all a },
          okReply (filterData t.upstream))
      else (t, rangeReply [])
    | _, _ => (t, rangeReply [])

/-- CLEAR_UPSTREAM_COUNTERS (R168). -/
def execClearUpstreamCounters (p : Port) (s : State) : Result :=
  .next <| request 0x76 p s fun t =>
    ({ t with upstream := { t.upstream with counters := {} } }, okReply (countersData t.upstream.counters))

end Sys2Proof.Machine
end

