-- ==== Sys2Proof/Machine/LineCommands.lean ====
section
/-! DEFINITION. The commands of Field Lines (chapter 9). -/

namespace Sys2Proof.Machine

def lineDirectionCode : LineDirection → Nat
  | .input => 0
  | .output => 1

/-- HIGH is listed first (R175). -/
def polarityCode : Level → Nat
  | .high => 0
  | .low => 1

def lineAt (s : State) (i : Nat) : FieldLine := at' s.lines.line i

/-! ## Reading (R185) -/

/-- One line's bytes in READ_LINES: function, direction, line value, trip hold, arm, change-of-state
latch. -/
def lineData (f : FieldLines) (l : FieldLine) : List Byte :=
  lineFunctionBytes l.function ++ u8 (lineDirectionCode l.direction) ++ twoValued (f.value l)
    ++ twoValued (f.heldLine l) ++ twoValued l.arm ++ markByte l.changed

def linesData (f : FieldLines) : List Byte := eachOf (lineData f) f.line.toList

/-- Every change-of-state latch that the reply returned set is cleared (R185). -/
def clearReturned (s : State) : State :=
  let one (l : FieldLine) : FieldLine := if l.changed then { l with changed := false } else l
  { s with lines := { s.lines with line := s.lines.line.map one } }

/-- READ_LINES (R185). -/
def execReadLines (p : Port) (clear : Nat) (s : State) : Result :=
  .next <| request 0x80 p s fun t =>
    match twoValuedOf clear with
    | none => (t, rangeReply [])
    | some yes => (if yes then clearReturned t else t, okReply (linesData t.lines))

/-- The configuration of a line: function, direction, polarity, pull-up enable, arm and latch (R185). -/
def lineConfigData (l : FieldLine) : List Byte :=
  lineFunctionBytes l.function ++ u8 (lineDirectionCode l.direction) ++ u8 (polarityCode l.polarity)
    ++ twoValued l.pullUp ++ twoValued l.arm ++ twoValued l.latch

/-- READ_LINE_CONFIG (R185). -/
def execReadLineConfig (p : Port) (s : State) : Result :=
  .next <| readRequest 0x81 p s fun t =>
    okReply (eachOf lineConfigData t.lines.line.toList ++ u8 (permitCode t.lines.permit)
      ++ eachOf twoValued t.lines.warnKept.toList)

/-! ## CONFIGURE_LINE (R178, R179) -/

/-- The direction that a function fixes, or that the request carries for GENERAL (R178). -/
def directionFor (f : LineFunction) (carried : LineDirection) : LineDirection :=
  match f with
  | .general => carried
  | .meterIn => .input
  | .settledIn => .input
  | .limitIn => .input
  | .ackIn => .input
  | .permitOut => .output
  | .warnOut _ => .output

/-- Whether a direction is passed over: the function is known and not GENERAL (R178; log entry 21). -/
def directionUnread (a : LineArgs) : Bool :=
  match lineFunctionOf a.function a.output with
  | some .general => false
  | some _ => true
  | none => false

/-- Whether each field of a CONFIGURE_LINE lies in its range (R178 check 1). -/
def lineFieldsInRange (a : LineArgs) : List Bool :=
  [ within 0 15 a.line, (lineFunctionOf a.function a.output).isSome,
    directionUnread a || (directionOf a.direction).isSome, (polarityOf a.polarity).isSome,
    (twoValuedOf a.pullUp).isSome, (twoValuedOf a.arm).isSome ]

/-- The configuration that a request carries, over the line's latch, its change-of-state latch cleared,
its pin and the level forced on it as they are (R179 step 1). -/
def configuredLine (a : LineArgs) (l : FieldLine) : Option FieldLine :=
  match lineFunctionOf a.function a.output, polarityOf a.polarity, twoValuedOf a.pullUp,
      twoValuedOf a.arm with
  | some f, some polarity, some pullUp, some arm =>
    some
      { l with
        function := f
        direction := directionFor f ((directionOf a.direction).getD .input)
        polarity := polarity
        pullUp := pullUp
        arm := arm
        changed := false }
  | _, _, _, _ => none

/-- How many other lines may hold a function before it is refused (R178 check 2); none for a function
without a limit. -/
def functionLimit : LineFunction → Option Nat
  | .general => none
  | .limitIn => some 2
  | _ => some 1

/-- The first of the other lines that hold a function, when they are as many as may hold it (R178
check 2). -/
def holdingLine (s : State) (line : Nat) (f : LineFunction) : Option Nat :=
  let others := (List.range 16).filter fun i => i != line && (lineAt s i).function == f
  match functionLimit f with
  | none => none
  | some k => if others.length < k then none else others.head?

/-- Whether a line of a running gauging would change its meaning (R178 check 3). -/
def runningLineChanges (s : State) (old new : FieldLine) : Bool :=
  s.plan.activeSlot.isSome &&
    (old.function == .meterIn || old.function == .settledIn || old.function == .permitOut) &&
    (old.function != new.function || old.polarity != new.polarity)

/-- Whether an armed slot would lose the SETTLED_IN line it reads (R178 check 4). -/
def settledLineTaken (s : State) (old new : FieldLine) : Bool :=
  old.function == .settledIn && new.function != .settledIn &&
    (List.range 4).any fun k =>
      (slotAt s k).armed && (slotAt s k).definition.settledSense == .level

/-- Checks 2 to 4 of R178: the refusal, if any. -/
def lineRefusal (s : State) (line : Nat) (new : FieldLine) : Option Reply :=
  match holdingLine s line new.function with
  | some i => some (rangeReply (u8 i))
  | none =>
    if runningLineChanges s (lineAt s line) new || settledLineTaken s (lineAt s line) new then
      some inUseReply
    else none

/-- Whether a line is a LIMIT_IN line with value active (R179 step 3). -/
def limitActive (f : FieldLines) (l : FieldLine) : Bool := l.function == .limitIn && f.value l

/-! ## WRITE_LINES (R180) -/

/-- Whether a WRITE_LINES writes the latch of a line: it is in the mask and GENERAL (R180). -/
def latchWritten (mask : BitVec 16) (i : Nat) (l : FieldLine) : Bool :=
  mask.getLsbD i && l.function == .general

/-- The latches written (R180); value code 0 is active. -/
def writeLatches (mask : BitVec 16) (values : Vector Nat 16) (f : FieldLines) : FieldLines :=
  let one (i : Nat) (l : FieldLine) : FieldLine :=
    if latchWritten mask i l then { l with latch := at' values i == 0 } else l
  { f with line := f.line.mapIdx one }

/-- WRITE_LINES's data: the set of lines written, and the sixteen latches before (R180), one byte each: log
entry 14. -/
def writtenData (mask : BitVec 16) (f : FieldLines) : List Byte :=
  flagSet 2 (f.line.mapIdx (latchWritten mask)).toList
    ++ eachOf (fun l => twoValued (FieldLine.latch l)) f.line.toList

/-- WRITE_LINES (R180). -/
def execWriteLines (p : Port) (mask : BitVec 16) (values : Vector Nat 16) (s : State) : Result :=
  .next <| request 0x83 p s fun t =>
    if values.all fun v => v ≤ 1 then
      (changeLines (writeLatches mask values t.lines) t, okReply (writtenData mask t.lines))
    else (t, rangeReply [])

/-! ## A pin change (R176, R177) -/

/-- A change of a line's value handed to the owner of its function (R177). -/
def handPassage (i : Nat) (f : LineFunction) (before after : Bool) (s : State) : State :=
  if before = after then s
  else
    match f, after with
    | .meterIn, true => meterPulse s
    | .settledIn, active => settledPassage active s
    | .limitIn, true => tripEngine (.limit i) s
    | .ackIn, true => takeSilence s
    | _, _ => s

/-- One line's change-of-state judgement (R184). -/
def judgeLine (i : Nat) (moved : Bool) (s : State) : State :=
  if moved && (lineAt s i).arm then
    raise .lineChange
      { s with lines := { s.lines with line := put s.lines.line i { lineAt s i with changed := true } } }
  else s

/-- A pin takes a new level (R176). -/
def setPin (i : Nat) (level : Level) (s : State) : State :=
  { s with lines := { s.lines with line := put s.lines.line i { lineAt s i with pin := level } } }

/-- A pin change with what it hands on; the judgement follows the hand-on (R177, R184). -/
def pinChange (i : Nat) (level : Level) (s : State) : State :=
  let t := setPin i level s
  judgeLine i (s.lines.watched (lineAt s i) != t.lines.watched (lineAt t i))
    (handPassage i (lineAt s i).function (s.lines.value (lineAt s i)) (t.lines.value (lineAt t i)) t)

/-- The outside forces a level on a line's pin, or leaves it open (R176). -/
def setForced (i : Nat) (outside : Option Level) (s : State) : State :=
  { s with lines := { s.lines with line := put s.lines.line i { lineAt s i with forced := outside } } }

/-- LINE_PIN_CHANGE (R176, R177): the outside forces a level on the pin or leaves it open, and a level that
the pin takes then is one pin change. A line that does not exist is no change (log entry 24); while POR is
active only the input is seen. -/
def execLinePinChange (line : Nat) (outside : Option Level) (s : State) : Result :=
  .next <|
    if 16 ≤ line then s
    else
      let t := setForced line outside s
      let level := t.lines.pinLevel (lineAt t line)
      if level = (lineAt s line).pin then t
      else if s.ports.por then setPin line level t
      else pinChange line level t

/-! ## A configuration put in force (R179) -/

/-- The new configuration with its drive and pull-up set, a pin change that follows being taken under it
(R176, R179 steps 1 and 2; log entry 28). The change of value that step 1 makes is not judged. -/
def presentLine (line : Nat) (new : FieldLine) (s : State) : State :=
  let f := { s.lines with line := put s.lines.line line new }
  let level := (at' (f.settlePins s.lines).line line).pin
  let t := { s with lines := f }
  if level = new.pin then t else pinChange line level t

/-- A configuration put in force (R179 steps 1 to 4). -/
def configureLine (line : Nat) (new : FieldLine) (s : State) : State :=
  let t := presentLine line new s
  let u :=
    if limitActive t.lines (lineAt t line) && !limitActive s.lines (lineAt s line) then
      tripEngine (.limit line) t
    else t
  takeAttempt u

/-- CONFIGURE_LINE (R178, R179). -/
def execConfigureLine (p : Port) (a : LineArgs) (s : State) : Result :=
  .next <| request 0x82 p s fun t =>
    match firstFault (lineFieldsInRange a), configuredLine a (lineAt t a.line) with
    | none, some new =>
      match lineRefusal t a.line new with
      | some refusal => (t, refusal)
      | none => (configureLine a.line new t, okReply (lineConfigData (lineAt t a.line)))
    | fault, _ => (t, rangeReply (u8 (fault.getD 0)))

end Sys2Proof.Machine
end

