-- ==== Sys2Proof/Machine/NoticeCommands.lean ====
section
/-! DEFINITION. The Notice Unit's requests (chapter 10). -/

namespace Sys2Proof.Machine

/-- A set of sources 0..19, in three bytes. -/
def sourcesData (x : BitVec 20) : List Byte := setBytes 3 x.toNat

/-- A port's own notice state. -/
def portNotices (p : Port) (s : State) : PortNotices := s.notices.port.get p

def setPortNotices (p : Port) (x : PortNotices) (s : State) : State :=
  { s with notices := { s.notices with port := s.notices.port.set p x } }

/-- FETCH_NOTICES's effect (R195). -/
def fetchNotices (p : Port) (s : State) : State := { s with notices := s.notices.fetch p }

/-- FETCH_NOTICES (R195): the fetched set, the pending set and the master enable after. -/
def execFetchNotices (p : Port) (s : State) : Result :=
  .next <| request 0x90 p s fun t =>
    let y := portNotices p (fetchNotices p t)
    (fetchNotices p t,
      okReply (sourcesData (portNotices p t).pendingSet ++ sourcesData y.pendingSet ++ markByte y.master))

/-- PEEK_NOTICES's data: the fields of R197 in order. R197 does not list the five whole-part conditions:
that they stand in the order of R188's table, one byte each, is the model's reading (log entry 11). -/
def peekData (p : Port) (s : State) : List Byte :=
  let x := portNotices p s
  let n := s.notices
  sourcesData x.pendingSet ++ sourcesData x.enables ++ markByte x.master ++ markByte x.oneShot
    ++ twoValued x.attention ++ twoValued n.retreat ++ twoValued n.beyondRating
    ++ twoValued n.carriageWanted ++ twoValued n.proceedWanted ++ twoValued n.trip
    ++ twoValued x.historyReady

/-- PEEK_NOTICES (R197). -/
def execPeekNotices (p : Port) (s : State) : Result :=
  .next (readRequest 0x91 p s fun t => okReply (peekData p t))

/-- A route, a set of ports. -/
def routeData (r : BitVec 3) : List Byte := setBytes 1 r.toNat

/-- READ_NOTICE_ROUTES (R197). -/
def execReadNoticeRoutes (p : Port) (s : State) : Result :=
  .next (readRequest 0x92 p s fun t => okReply (eachOf routeData t.notices.routes.toList))

/-- SET_NOTICE_ENABLE (R192). That its twenty marks are one set of three bytes, and that marks beyond source
19 are refused RANGE, is the model's reading: log entry 26. -/
def execSetNoticeEnable (p : Port) (marks : BitVec 24) (s : State) : Result :=
  .next <| request 0x93 p s fun t =>
    if marks.toNat < 1048576 then
      let x := portNotices p t
      (setPortNotices p { x with enables := marks.setWidth 20 }.judge t,
        okReply (sourcesData x.enables ++ sourcesData x.pendingSet))
    else (t, rangeReply [])

/-- SET_ATTENTION (R193). -/
def execSetAttention (p : Port) (master oneShot : Nat) (s : State) : Result :=
  .next <| request 0x94 p s fun t =>
    match twoValuedOf master, twoValuedOf oneShot with
    | some m, some o =>
      let x := portNotices p t
      (setPortNotices p { x with master := m, oneShot := o }.judge t,
        okReply (markByte x.master ++ markByte x.oneShot ++ sourcesData x.pendingSet))
    | _, _ => (t, rangeReply [])

/-- SET_ROUTE (R189). -/
def execSetRoute (p : Port) (source : Nat) (route : BitVec 8) (s : State) : Result :=
  .next <| request 0x95 p s fun t =>
    if within 0 19 source && decide (route.toNat < 8) then
      ({ t with notices := t.notices.setRoute source (route.setWidth 3) },
        okReply (routeData (at' t.notices.routes source)))
    else (t, rangeReply [])

end Sys2Proof.Machine
end

