-- ==== Sys2Proof/Machine/TimeEvents.lean ====
section
/-! DEFINITION. The expiries of the part's timers. Each command says that its timer expires now: it acts
when that timer runs in the state it belongs to, and has no effect otherwise (R4; log entry 1). -/

namespace Sys2Proof.Machine

/-- The move timer runs in MOVING and in LOWERING (R98). -/
def moveRuns (s : State) : Bool :=
  (s.engine.state == .moving || s.engine.state == .lowering) && s.engine.moveTimer.isRunning

/-- The move timer's expiry (R98). -/
def moveExpiry (s : State) : State := if moveRuns s then recallRun .timeout s else s

/-- MOVE_TIMER_EXPIRY (R98). -/
def execMoveTimerExpiry (s : State) : Result := .next (unlessPor s moveExpiry)

def settleRuns (s : State) : Bool := s.engine.state == .settling && s.engine.settleTimer.isRunning

/-- The settle timer's expiry (R100). -/
def settleExpiry (s : State) : State := if settleRuns s then startCounting s else s

/-- SETTLE_TIMER_EXPIRY (R100). -/
def execSettleTimerExpiry (s : State) : Result := .next (unlessPor s settleExpiry)

def countRuns (s : State) : Bool := s.engine.state == .counting && s.engine.countTimer.isRunning

/-- The count timer's expiry (R101). -/
def countExpiry (s : State) : State := if countRuns s then endPoint s else s

/-- COUNT_TIMER_EXPIRY (R101, R104). -/
def execCountTimerExpiry (s : State) : Result := .next (unlessPor s countExpiry)

def pauseRuns (s : State) : Bool := s.engine.state == .counting && s.engine.pauseTimer.isRunning

/-- The pause timer's expiry (R103). -/
def pauseExpiry (s : State) : State := if pauseRuns s then restartPoint s else s

/-- PAUSE_TIMER_EXPIRY (R103). -/
def execPauseTimerExpiry (s : State) : Result := .next (unlessPor s pauseExpiry)

def homeRuns (s : State) : Bool := s.engine.state == .homing && s.engine.homeTimer.isRunning

/-- The home timer's expiry (R99): the engine trips with HOME_TIMEOUT and the run ends with that
cause. No pass is open in HOMING. -/
def homeExpiry (s : State) : State :=
  if homeRuns s then
    let t := stopTimers s
    endRun .homeTimeout (enter .tripped (withEngine { t.engine with trip := .homeTimeout } t))
  else s

/-- HOME_TIMER_EXPIRY (R99). -/
def execHomeTimerExpiry (s : State) : Result := .next (unlessPor s homeExpiry)

/-- The dwell timer's expiry, when it runs (R144, R145). -/
def dwellTimerExpiry (s : State) : State := if s.warning.dwell.isRunning then dwellExpiry s else s

/-- DWELL_TIMER_EXPIRY (R145). -/
def execDwellTimerExpiry (s : State) : Result := .next (unlessPor s dwellTimerExpiry)

def intervalRuns (k : Nat) (s : State) : Bool := (slotAt s k).armed && (slotAt s k).timer.isRunning

/-- An interval timer's expiry (R71): the flag is set, the timer restarted, a take attempted. -/
def intervalExpiry (k : Nat) (s : State) : State :=
  if intervalRuns k s then
    takeAttempt
      (updateSlot k (fun y => { y with request := true, timer := intervalTimer s y.definition }) s)
  else s

/-- INTERVAL_TIMER_EXPIRY (R71). -/
def execIntervalTimerExpiry (slot : Nat) (s : State) : Result :=
  .next (unlessPor s (intervalExpiry slot))

/-- DELAY_TIMER_EXPIRY (R165): an empty queue has no delay timer. -/
def execDelayTimerExpiry (entry : Nat) (s : State) : Result := .next (unlessPor s (delayExpiry entry))

/-- STALE_TIMER_EXPIRY (R166): a stale entry, or one without a last arrival, has no stale timer. -/
def execStaleTimerExpiry (entry : Nat) (s : State) : Result := .next (unlessPor s (staleExpiry entry))

/-! ## What falls due (R3 to R5; log entry 2) -/

/-- Whether a running timer has reached its time. -/
def Timer.dueBy (t : Timer) (now : Nat) : Bool :=
  match t with
  | .running due => decide (due ≤ now)
  | _ => false

/-- The delay timer of an entry has reached the effective time of its oldest item (R165). -/
def delayDue (s : State) (i : Nat) : Bool :=
  match (entryAt s i).queue with
  | [] => false
  | x :: _ => decide (x.effective ≤ nowMs s)

/-- The timers of the part with the command each posts, and whether it is due now. -/
def dueList (s : State) : List (Bool × Instr) :=
  let now := nowMs s
  let e := s.engine
  [ (decide (1000 ≤ s.clock.clockPhase), .stationClockAdvance),
    (decide (s.stage.sampleDue ≤ now), .stageSample),
    (moveRuns s && e.moveTimer.dueBy now, .moveTimerExpiry),
    (settleRuns s && e.settleTimer.dueBy now, .settleTimerExpiry),
    (countRuns s && e.countTimer.dueBy now, .countTimerExpiry),
    (pauseRuns s && e.pauseTimer.dueBy now, .pauseTimerExpiry),
    (homeRuns s && e.homeTimer.dueBy now, .homeTimerExpiry),
    (s.warning.dwell.dueBy now, .dwellTimerExpiry) ]
    ++ (List.range 4).map (fun k =>
      (intervalRuns k s && (slotAt s k).timer.dueBy now, .intervalTimerExpiry k))
    ++ (List.range 16).map (fun i => (delayDue s i, .delayTimerExpiry i))
    ++ (List.range 16).map (fun i =>
      (staleAt s.upstream.staleLimit now (entryAt s i), .staleTimerExpiry i))
    ++ [(decide (999 ≤ s.clock.phase), .uptimeAdvance)]

/-- The command that falls due first in that order, if any. -/
def dueCommand (s : State) : Option Instr := ((dueList s).find? Prod.fst).map Prod.snd

/-- What the part does while no command waits (log entry 2): held while POR is active; else a due
command is posted, or a millisecond passes. -/
def idle (s : State) : State :=
  if s.ports.por then s
  else
    match dueCommand s with
    | some c => { s with pending := [c] }
    | none => passMillisecond s

end Sys2Proof.Machine
end

