-- ==== Sys2Proof/Machine/Dispatch.lean ====
section
/-! DEFINITION. Which meaning each command has: one arm per constructor, each one direct call. -/

namespace Sys2Proof.Machine

def exec (i : Instr) (s : State) : Host.Outcome State Fault Refusal :=
  match i with
  | .readReply p => Sys2Proof.Machine.execReadReply p s
  | .readClock p => Sys2Proof.Machine.execReadClock p s
  | .setClock p value => Sys2Proof.Machine.execSetClock p value s
  | .readStage p => Sys2Proof.Machine.execReadStage p s
  | .readStageConfig p => Sys2Proof.Machine.execReadStageConfig p s
  | .configureStage p a => Sys2Proof.Machine.execConfigureStage p a s
  | .checkGauge p channel reading => Sys2Proof.Machine.execCheckGauge p channel reading s
  | .readHistory p maximum advance => Sys2Proof.Machine.execReadHistory p maximum advance s
  | .seekHistory p target => Sys2Proof.Machine.execSeekHistory p target s
  | .readHistoryState p => Sys2Proof.Machine.execReadHistoryState p s
  | .setHistoryThreshold p threshold => Sys2Proof.Machine.execSetHistoryThreshold p threshold s
  | .setHistoryInterval p minutes => Sys2Proof.Machine.execSetHistoryInterval p minutes s
  | .readRating p => Sys2Proof.Machine.execReadRating p s
  | .rateStage p stage => Sys2Proof.Machine.execRateStage p stage s
  | .rateDischarge p discharge => Sys2Proof.Machine.execRateDischarge p discharge s
  | .readStaged p => Sys2Proof.Machine.execReadStaged p s
  | .writeStagedPoint p index h q => Sys2Proof.Machine.execWriteStagedPoint p index h q s
  | .clearStaged p => Sys2Proof.Machine.execClearStaged p s
  | .installRating p => Sys2Proof.Machine.execInstallRating p s
  | .setShift p shift => Sys2Proof.Machine.execSetShift p shift s
  | .setExtrapolationLimit p limit => Sys2Proof.Machine.execSetExtrapolationLimit p limit s
  | .readVertical p index => Sys2Proof.Machine.execReadVertical p index s
  | .writeVertical p index a => Sys2Proof.Machine.execWriteVertical p index a s
  | .clearVertical p index => Sys2Proof.Machine.execClearVertical p index s
  | .readMeter p meter => Sys2Proof.Machine.execReadMeter p meter s
  | .writeMeter p meter a => Sys2Proof.Machine.execWriteMeter p meter a s
  | .readSlot p slot => Sys2Proof.Machine.execReadSlot p slot s
  | .defineSlot p slot a => Sys2Proof.Machine.execDefineSlot p slot a s
  | .armSlot p slot => Sys2Proof.Machine.execArmSlot p slot s
  | .disarmSlot p slot => Sys2Proof.Machine.execDisarmSlot p slot s
  | .startRun p slot => Sys2Proof.Machine.execStartRun p slot s
  | .clearRequest p slot => Sys2Proof.Machine.execClearRequest p slot s
  | .setSlotPriority p priority => Sys2Proof.Machine.execSetSlotPriority p priority s
  | .readSlotState p => Sys2Proof.Machine.execReadSlotState p s
  | .getTarget p => Sys2Proof.Machine.execGetTarget p s
  | .readRunState p => Sys2Proof.Machine.execReadRunState p s
  | .positionReached p distance sounded => Sys2Proof.Machine.execPositionReached p distance sounded s
  | .depthReached p => Sys2Proof.Machine.execDepthReached p s
  | .homeReached p => Sys2Proof.Machine.execHomeReached p s
  | .proceed p => Sys2Proof.Machine.execProceed p s
  | .cancelRun p => Sys2Proof.Machine.execCancelRun p s
  | .carriageFault p code => Sys2Proof.Machine.execCarriageFault p code s
  | .clearTrip p => Sys2Proof.Machine.execClearTrip p s
  | .resetEngine p => Sys2Proof.Machine.execResetEngine p s
  | .readResult p selector => Sys2Proof.Machine.execReadResult p selector s
  | .readPass p => Sys2Proof.Machine.execReadPass p s
  | .readPassVertical p ordinal => Sys2Proof.Machine.execReadPassVertical p ordinal s
  | .readWarning p => Sys2Proof.Machine.execReadWarning p s
  | .setLevelCriteria p a => Sys2Proof.Machine.execSetLevelCriteria p a s
  | .setRetreat p stage level => Sys2Proof.Machine.execSetRetreat p stage level s
  | .setWarningOutput p output showLevel kind => Sys2Proof.Machine.execSetWarningOutput p output showLevel kind s
  | .overrideOn p mask => Sys2Proof.Machine.execOverrideOn p mask s
  | .overrideOff p mask => Sys2Proof.Machine.execOverrideOff p mask s
  | .overrideAuto p mask => Sys2Proof.Machine.execOverrideAuto p mask s
  | .silence p => Sys2Proof.Machine.execSilence p s
  | .upstreamReport p a => Sys2Proof.Machine.execUpstreamReport p a s
  | .readUpstreamEntry p index => Sys2Proof.Machine.execReadUpstreamEntry p index s
  | .readUpstreamState p => Sys2Proof.Machine.execReadUpstreamState p s
  | .setUpstreamEntry p index address stepDown travel => Sys2Proof.Machine.execSetUpstreamEntry p index address stepDown travel s
  | .setHash p marks => Sys2Proof.Machine.execSetHash p marks s
  | .setUpstreamFilter p a => Sys2Proof.Machine.execSetUpstreamFilter p a s
  | .clearUpstreamCounters p => Sys2Proof.Machine.execClearUpstreamCounters p s
  | .readLines p clear => Sys2Proof.Machine.execReadLines p clear s
  | .readLineConfig p => Sys2Proof.Machine.execReadLineConfig p s
  | .configureLine p a => Sys2Proof.Machine.execConfigureLine p a s
  | .writeLines p mask values => Sys2Proof.Machine.execWriteLines p mask values s
  | .fetchNotices p => Sys2Proof.Machine.execFetchNotices p s
  | .peekNotices p => Sys2Proof.Machine.execPeekNotices p s
  | .readNoticeRoutes p => Sys2Proof.Machine.execReadNoticeRoutes p s
  | .setNoticeEnable p marks => Sys2Proof.Machine.execSetNoticeEnable p marks s
  | .setAttention p master oneShot => Sys2Proof.Machine.execSetAttention p master oneShot s
  | .setRoute p source route => Sys2Proof.Machine.execSetRoute p source route s
  | .stationReset p => Sys2Proof.Machine.execStationReset p s
  | .badFrame p f => Sys2Proof.Machine.execBadFrame p f s
  | .resetNActivation => Sys2Proof.Machine.execResetNActivation s
  | .resetNRelease => Sys2Proof.Machine.execResetNRelease s
  | .porAssert => Sys2Proof.Machine.execPorAssert s
  | .porRelease => Sys2Proof.Machine.execPorRelease s
  | .encoderPhaseChange a b => Sys2Proof.Machine.execEncoderPhaseChange a b s
  | .pPulse edge => Sys2Proof.Machine.execPPulse edge s
  | .stationClockAdvance => Sys2Proof.Machine.execStationClockAdvance s
  | .stageSample => Sys2Proof.Machine.execStageSample s
  | .moveTimerExpiry => Sys2Proof.Machine.execMoveTimerExpiry s
  | .settleTimerExpiry => Sys2Proof.Machine.execSettleTimerExpiry s
  | .countTimerExpiry => Sys2Proof.Machine.execCountTimerExpiry s
  | .pauseTimerExpiry => Sys2Proof.Machine.execPauseTimerExpiry s
  | .homeTimerExpiry => Sys2Proof.Machine.execHomeTimerExpiry s
  | .dwellTimerExpiry => Sys2Proof.Machine.execDwellTimerExpiry s
  | .intervalTimerExpiry slot => Sys2Proof.Machine.execIntervalTimerExpiry slot s
  | .delayTimerExpiry entry => Sys2Proof.Machine.execDelayTimerExpiry entry s
  | .staleTimerExpiry entry => Sys2Proof.Machine.execStaleTimerExpiry entry s
  | .linePinChange line outside => Sys2Proof.Machine.execLinePinChange line outside s
  | .uptimeAdvance => Sys2Proof.Machine.execUptimeAdvance s
  | .windowOpen p => Sys2Proof.Machine.execWindowOpen p s
  | .discardedWindow p => Sys2Proof.Machine.execDiscardedWindow p s

end Sys2Proof.Machine
end

