-- ==== Sys2Proof/WellFormed.lean ====
section
/-! DEFINITION. Which commands a port or a field can send: every argument fits the bytes its frame
gives it (R204), the port may send the request (R200), and an event names a line, slot or entry that
the part has. A value outside the range of its field is well-formed: its owner refuses it (R202). -/

namespace Sys2Proof

def fits1 (n : Nat) : Bool := decide (n < 256)
def fits2 (n : Nat) : Bool := decide (n < 65536)
def fits4 (n : Nat) : Bool := decide (n < 4294967296)
def fitsS2 (z : Int) : Bool := decide (-32768 ≤ z ∧ z < 32768)

/-- A tag that is none of the first k alternatives. -/
def strayTag (k n : Nat) : Bool := decide (k ≤ n) && fits1 n

/-- The port a request or a window event comes from. -/
def Instr.port? : Instr → Option Port
  | .readReply p | .readClock p | .setClock p _ | .readStage p | .readStageConfig p
  | .configureStage p _ | .checkGauge p _ _ | .readHistory p _ _ | .seekHistory p _
  | .readHistoryState p | .setHistoryThreshold p _ | .setHistoryInterval p _ | .readRating p
  | .rateStage p _ | .rateDischarge p _ | .readStaged p | .writeStagedPoint p _ _ _ | .clearStaged p
  | .installRating p | .setShift p _ | .setExtrapolationLimit p _ | .readVertical p _
  | .writeVertical p _ _ | .clearVertical p _ | .readMeter p _ | .writeMeter p _ _ | .readSlot p _
  | .defineSlot p _ _ | .armSlot p _ | .disarmSlot p _ | .startRun p _ | .clearRequest p _
  | .setSlotPriority p _ | .readSlotState p | .getTarget p | .readRunState p | .positionReached p _ _
  | .depthReached p | .homeReached p | .proceed p | .cancelRun p | .carriageFault p _ | .clearTrip p
  | .resetEngine p | .readResult p _ | .readPass p | .readPassVertical p _ | .readWarning p
  | .setLevelCriteria p _ | .setRetreat p _ _ | .setWarningOutput p _ _ _ | .overrideOn p _
  | .overrideOff p _ | .overrideAuto p _ | .silence p | .upstreamReport p _ | .readUpstreamEntry p _
  | .readUpstreamState p | .setUpstreamEntry p _ _ _ _ | .setHash p _ | .setUpstreamFilter p _
  | .clearUpstreamCounters p | .readLines p _ | .readLineConfig p | .configureLine p _
  | .writeLines p _ _ | .fetchNotices p | .peekNotices p | .readNoticeRoutes p
  | .setNoticeEnable p _ | .setAttention p _ _ | .setRoute p _ _ | .stationReset p | .badFrame p _
  | .windowOpen p | .discardedWindow p => some p
  | .resetNActivation | .resetNRelease | .porAssert | .porRelease | .encoderPhaseChange _ _
  | .pPulse _ | .stationClockAdvance | .stageSample | .moveTimerExpiry | .settleTimerExpiry
  | .countTimerExpiry | .pauseTimerExpiry | .homeTimerExpiry | .dwellTimerExpiry
  | .intervalTimerExpiry _ | .delayTimerExpiry _ | .staleTimerExpiry _ | .linePinChange _ _
  | .uptimeAdvance => none

def StageArgs.fits (a : StageArgs) : Bool :=
  fits1 a.fEnable && fits1 a.pEnable && fits1 a.preferred && fitsS2 a.fOffset && fits2 a.fStep
    && fits2 a.fMaxStep && fitsS2 a.pOffset && fits4 a.pGain && fits2 a.pZero && fits2 a.pMin
    && fits2 a.tolerance && fits1 a.disagreeLimit && fits1 a.windowLength && fits1 a.period
    && fits1 a.riseWindow

def SeekTarget.fits : SeekTarget → Bool
  | .oldest | .newestNext => true
  | .sequence s => fits4 s
  | .unknown t => strayTag 3 t

def VerticalArgs.fits (a : VerticalArgs) : Bool :=
  fits4 a.x && fits1 a.depthMode && a.depth.all fits2 && fits1 a.method && fits1 a.countTime && fits1 a.next

def MeterArgs.fits (a : MeterArgs) : Bool :=
  fits2 a.a && fits4 a.b && fits1 a.pulses && fits2 a.ident

def PlanArg.fits : PlanArg → Bool
  | .empty => true
  | .listed f n => fits1 f && fits1 n
  | .linked f => fits1 f
  | .unknown t => strayTag 3 t

def PassesArg.fits : PassesArg → Bool
  | .number n => fits1 n
  | .index => true
  | .unknown t => strayTag 2 t

def TriggerArg.fits : TriggerArg → Bool
  | .port => true
  | .stageRise h s => fitsS2 h && fits1 s
  | .warningLevel l s => fits1 l && fits1 s
  | .interval h => fits1 h
  | .upstream c => fits1 c
  | .unknown t => strayTag 5 t

def SlotArgs.fits (a : SlotArgs) : Bool :=
  a.plan.fits && fits1 a.mode && a.passes.fits && fits1 a.meter && fits2 a.coefficient
    && fits1 a.settleTime && fits1 a.settledSense && fits2 a.pauseLimit && fits2 a.tolerance
    && fits2 a.moveTimeout && fits2 a.homeTimeout && a.trigger.fits

def ResultSelector.fits : ResultSelector → Bool
  | .newest | .oldest => true
  | .ident n => fits4 n
  | .unknown t => strayTag 3 t

def Tri.allOf {α : Type} (f : α → Bool) (t : Tri α) : Bool := f t.one && f t.two && f t.three

def CriteriaArgs.fits (a : CriteriaArgs) : Bool :=
  a.stage.allOf (·.all fitsS2) && a.discharge.allOf (·.all fits4) && a.rise.allOf (·.all fits2)
    && fits2 a.hysteresis && fits2 a.dischargeHysteresis && fits1 a.dwell

def RetreatLevelArg.fits : RetreatLevelArg → Bool
  | .number n => fits1 n
  | .none => true
  | .unknown t => strayTag 2 t

def ReportArgs.fits (a : ReportArgs) : Bool :=
  fits2 a.address && fits4 a.stamp && fits1 a.cls && fitsS2 a.stage && fits1 a.level

def CapArg.fits : CapArg → Bool
  | .cap n => fits1 n
  | .drop => true
  | .unknown t => strayTag 2 t

def FilterArgs.fits (a : FilterArgs) : Bool :=
  fits1 a.hashEnable && fits1 a.acceptAll && fits2 a.staleLimit && a.classMap.all CapArg.fits

def LineArgs.fits (a : LineArgs) : Bool :=
  fits1 a.line && fits1 a.function && fits1 a.output && fits1 a.direction && fits1 a.polarity
    && fits1 a.pullUp && fits1 a.arm

/-- A frame fault that some window on port p gives (R202). -/
def FrameFault.fits (p : Port) : FrameFault → Bool
  | .frame c n _ => fits1 c && fits1 n
  | .unknown c => fits1 c && (catalogue c).isNone
  | .role c => fits1 c && (catalogue c).isSome && !decide (p ∈ rolesOf c)

/-- Every argument fits its bytes; an event names something the part has. -/
def Instr.fits : Instr → Bool
  | .setClock _ v => fits4 v
  | .configureStage _ a => a.fits
  | .checkGauge _ c r => fits1 c && fitsS2 r
  | .readHistory _ m a => fits1 m && fits1 a
  | .seekHistory _ t => t.fits
  | .setHistoryThreshold _ n => fits1 n
  | .setHistoryInterval _ n => fits1 n
  | .rateStage _ h => fitsS2 h
  | .rateDischarge _ q => fits4 q
  | .writeStagedPoint _ i h q => fits1 i && fitsS2 h && fits4 q
  | .setShift _ z => fitsS2 z
  | .setExtrapolationLimit _ n => fits2 n
  | .readVertical _ i => fits1 i
  | .writeVertical _ i a => fits1 i && a.fits
  | .clearVertical _ i => fits1 i
  | .readMeter _ i => fits1 i
  | .writeMeter _ i a => fits1 i && a.fits
  | .readSlot _ i => fits1 i
  | .defineSlot _ i a => fits1 i && a.fits
  | .armSlot _ i => fits1 i
  | .disarmSlot _ i => fits1 i
  | .startRun _ i => fits1 i
  | .clearRequest _ i => fits1 i
  | .setSlotPriority _ c => fits1 c
  | .positionReached _ d o => fits4 d && o.all fits2
  | .carriageFault _ c => fits1 c
  | .readResult _ t => t.fits
  | .readPassVertical _ n => fits1 n
  | .setLevelCriteria _ a => a.fits
  | .setRetreat _ h l => h.all fitsS2 && l.fits
  | .setWarningOutput _ k l t => fits1 k && fits1 l && fits1 t
  | .upstreamReport _ a => a.fits
  | .readUpstreamEntry _ i => fits1 i
  | .setUpstreamEntry _ i a d t => fits1 i && fits2 a && fits1 d && fits2 t
  | .setUpstreamFilter _ a => a.fits
  | .readLines _ c => fits1 c
  | .configureLine _ a => a.fits
  | .writeLines _ _ v => v.all fits1
  | .setAttention _ m o => fits1 m && fits1 o
  | .setRoute _ n _ => fits1 n
  | .badFrame p f => f.fits p
  | .intervalTimerExpiry i => decide (i < 4)
  | .delayTimerExpiry i => decide (i < 16)
  | .staleTimerExpiry i => decide (i < 16)
  | .linePinChange i _ => decide (i < 16)
  | .readReply _ | .readClock _ | .readStage _ | .readStageConfig _ | .readHistoryState _
  | .readRating _ | .readStaged _ | .clearStaged _ | .installRating _ | .readSlotState _ | .getTarget _
  | .readRunState _ | .depthReached _ | .homeReached _ | .proceed _ | .cancelRun _ | .clearTrip _
  | .resetEngine _ | .readPass _ | .readWarning _ | .overrideOn _ _ | .overrideOff _ _
  | .overrideAuto _ _ | .silence _ | .readUpstreamState _ | .setHash _ _ | .clearUpstreamCounters _
  | .readLineConfig _ | .fetchNotices _ | .peekNotices _ | .readNoticeRoutes _ | .setNoticeEnable _ _
  | .stationReset _ | .resetNActivation | .resetNRelease | .porAssert | .porRelease
  | .encoderPhaseChange _ _ | .pPulse _ | .stationClockAdvance | .stageSample | .moveTimerExpiry
  | .settleTimerExpiry | .countTimerExpiry | .pauseTimerExpiry | .homeTimerExpiry | .dwellTimerExpiry
  | .uptimeAdvance | .windowOpen _ | .discardedWindow _ => true

/-- A request comes from a port that may send it (R200). -/
def Instr.roleFits (i : Instr) : Bool :=
  match encodeRequest i, i.port? with
  | some e, some p => decide (p ∈ rolesOf e.1)
  | _, _ => true

/-- A well-formed command. -/
def Instr.wf (i : Instr) : Bool := i.fits && i.roleFits

end Sys2Proof
end

