-- ==== Sys2Proof/Safety.lean ====
section
/-! DEFINITION. The words that claims are stated in: when a port's frame is taken, what a command
leaves unchanged, and the invariants of a safe run. -/

namespace Sys2Proof.Machine

/-! ## Taking a request -/

/-- A request of this code is handed to its owner at its release on port p (R200 to R202). -/
def Takes (p : Port) (code : Nat) (s : State) : Prop := windowDead p s = false ∧ p ∈ rolesOf code

/-- The reply in a port's buffer. -/
def bufferOf (p : Port) (s : State) : Option Reply := (s.ports.port.get p).buffer

/-- The catalogue codes of the requests that only read (section 11.4). -/
def readCodes : List Nat :=
  [0x01, 0x03, 0x04, 0x12, 0x20, 0x21, 0x22, 0x23, 0x30, 0x33, 0x35, 0x3C, 0x40, 0x41, 0x50, 0x51, 0x52,
    0x60, 0x71, 0x72, 0x81, 0x91, 0x92]

/-- A refusal code (R2, R203). -/
def ReplyCode.isRefusal : ReplyCode → Bool
  | .ok => false
  | .empty => false
  | _ => true

/-! ## What a command leaves unchanged -/

/-- The blocks of the part, and the model's queue. -/
inductive Block where
  | clock
  | stage
  | history
  | rating
  | plan
  | engine
  | results
  | warning
  | upstream
  | lines
  | notices
  | ports
  | pending
  deriving DecidableEq, Repr

/-- A block is the same in two states. -/
def sameBlock (s t : State) : Block → Prop
  | .clock => t.clock = s.clock
  | .stage => t.stage = s.stage
  | .history => t.history = s.history
  | .rating => t.rating = s.rating
  | .plan => t.plan = s.plan
  | .engine => t.engine = s.engine
  | .results => t.results = s.results
  | .warning => t.warning = s.warning
  | .upstream => t.upstream = s.upstream
  | .lines => t.lines = s.lines
  | .notices => t.notices = s.notices
  | .ports => t.ports = s.ports
  | .pending => t.pending = s.pending

/-- Every block but those listed is the same in two states. -/
def KeepsBut (changed : List Block) (s t : State) : Prop := ∀ b, b ∉ changed → sameBlock s t b

/-! ## Effects that several commands share -/

/-- A source is pending at every port it is routed to. -/
def PendingWhereRouted (source : Nat) (t : State) : Prop :=
  ∀ p, t.notices.routed source p = true → (t.notices.port.get p).pendingSet.getLsbD source = true

/-- A source is pending at every port as it was. -/
def PendingAsBefore (source : Nat) (s t : State) : Prop :=
  ∀ p, (t.notices.port.get p).pendingSet.getLsbD source = (s.notices.port.get p).pendingSet.getLsbD source

/-- Every timer of the engine but the home timer is stopped. -/
def WorkTimersStopped (e : RunEngine) : Prop :=
  e.moveTimer = .stopped ∧ e.settleTimer = .stopped ∧ e.countTimer = .stopped ∧ e.pauseTimer = .stopped

/-- What the result of a pass closed now carries whatever its status, the table being closed as given and the
rating in service as given: its numbers and stamps, its width, its gauge height from the stage at the close, the
rating's version and the marks of its entries (R87, R124, R125, R127, R128). -/
def ResultOf (table : List TableEntry) (rating : RatingUnit) (stage : Option Int) (s : State)
    (r : PassResult) : Prop :=
  r.id = s.results.nextId ∧ r.runNumber = s.engine.runNumber ∧ r.passNumber = s.engine.passNumber ∧
    (∀ k, s.engine.slot = some k → r.slot = k) ∧ (∀ m, s.results.pass.meter = some m → r.meter = m) ∧
    (∀ n, s.results.pass.meterIdent = some n → r.meterIdent = n) ∧
    r.startStamp = s.results.pass.startStamp ∧ r.endStamp = s.clock.clock ∧
    r.width = tableWidth table ∧ r.verticals = (table.filter TableEntry.complete).length ∧
    r.ghStart = s.engine.ghStart ∧ r.ghEnd = stage.getD 0 ∧ r.ghMean = roundDiv (r.ghStart + r.ghEnd) 2 ∧
    r.version = (if rating.active = [] then 0 else rating.version) ∧
    (r.velocityClamped = true ↔ ∃ e ∈ table, e.velocityClamped = true) ∧
    (r.restarted = true ↔ ∃ e ∈ table, e.restarted = true) ∧
    (r.methodReduced = true ↔ ∃ e ∈ table, e.methodReduced = true)

/-- A result carries GH_HELD: its GH_start was held, or the status at the close is STARTING or LOST (R125). -/
def HeldAt (status : StageStatus) (s : State) (r : PassResult) : Prop :=
  r.ghHeld = true ↔ s.engine.ghStartHeld = true ∨ status = .starting ∨ status = .lost

/-- A table with its newest entry changed. -/
def newestAs (f : TableEntry → TableEntry) (es : List TableEntry) : List TableEntry :=
  es.dropLast ++ (es.getLast?.map f).toList

/-- The distance between two stations. -/
def apart (x y : Nat) : Nat := ((x : Int) - y).natAbs

/-- The span of the newest entry at a close: a bank vertical's (R122). -/
def spanAtBank (es : List TableEntry) : Nat :=
  match es.getLast?, es.dropLast.getLast? with
  | some e, some b => apart e.x b.x
  | _, _ => 0

/-- An entry that is complete and not finalized is finalized with a span (R121 to R123). -/
def panelled (span : Nat) (e : TableEntry) : TableEntry :=
  if e.complete = true ∧ e.panel = none then { e with panel := some (panelFor e span) } else e

/-- The table at a close: its newest entry finalized as a bank vertical (R122). -/
def tableClosed (es : List TableEntry) : List TableEntry := newestAs (panelled (spanAtBank es)) es

/-- The results of s with a pass result appended and the pass record closed, the table being finalized (R122,
R129, R131). -/
def resultsClosed (r : PassResult) (s : State) : ResultStore :=
  ⟨appendResult s.results.log r, nextResultId s.results.nextId, tableClosed s.results.table,
    { s.results.pass with state := .closed, resultId := some r.id }⟩

/-- The pass open in s has been closed in t as ABORTED with a cause, the gauge height being held at the close as
this status says; its result has no totals and no comparison with the rating, and PASS_DONE is raised for it (R87,
R122, R125, R127 to R129, R131). -/
def ClosedAborted (held : StageStatus) (cause : EndCause) (s t : State) : Prop :=
  PendingWhereRouted 12 t ∧ ∃ r, t.results = resultsClosed r s ∧
    ResultOf t.results.table t.rating t.stage.stilled s r ∧ HeldAt held s r ∧
    r.status = .aborted ∧ r.cause = cause ∧ r.measured = none ∧
    r.area = none ∧ r.meanVelocity = none ∧ r.rated = none ∧ r.ratingMark = .none ∧ r.deviation = none ∧
    r.proposal = none ∧ r.proposalClamped = false ∧ r.beyondRating = false

/-- A pass open in s is closed as ABORTED in t, held as this status says; with none open the results are as they
were. -/
def ClosesOpenPass (held : StageStatus) (cause : EndCause) (s t : State) : Prop :=
  t.engine.passOpen = false ∧ (s.engine.passOpen = true → ClosedAborted held cause s t) ∧
    (s.engine.passOpen = false → t.results = s.results)

/-- The engine is in a state in t, with the permit value and the three conditions of that state (R84, R85,
R181). -/
def Entered (st : RunState) (t : State) : Prop :=
  t.engine.state = st ∧ t.lines.permit = st.permit ∧ t.notices.carriageWanted = st.carriageWanted ∧
    t.notices.proceedWanted = (st == .holding) ∧ t.notices.trip = (st == .tripped)

/-- The point record once its times no longer run: they stand as they are (R86, R101, R102). -/
def pointStopped (s : State) : PointRecord :=
  { s.engine.point with countedMs := countedNow s, pausedMs := pausedNow s, pausedSince := none }

/-- HOMING has been entered in t from s with a cause: the work timers are stopped and the home timer runs, no
pass is open, and every other record of the engine stands (R85, R86, R88). -/
def HomingBegun (cause : EndCause) (s t : State) : Prop :=
  Entered .homing t ∧ t.engine = { s.engine with
    state := .homing, holdKind := none, homingCause := some cause, passOpen := false, point := pointStopped s
    moveTimer := .stopped, settleTimer := .stopped, countTimer := .stopped, pauseTimer := .stopped
    homeTimer := .running (nowMs s + (activeDefinition s).homeTimeout * 1000) }

/-- The engine of s is recalled in t with a cause (R87, R88). -/
def Recalled (cause : EndCause) (s t : State) : Prop :=
  HomingBegun cause s t ∧ ClosesOpenPass t.stage.status cause s t

/-- The run of s has ended in t with a cause (R89). -/
def RunEnded (cause : EndCause) (s t : State) : Prop :=
  t.engine.lastEnd = some ⟨s.engine.runNumber, s.engine.slot, cause, s.clock.clock⟩ ∧
    PendingWhereRouted 13 t

/-- The engine has tripped (R110). -/
def Tripped (record : TripRecord) (t : State) : Prop :=
  Entered .tripped t ∧ t.engine.trip = record ∧ WorkTimersStopped t.engine ∧
    t.engine.homeTimer = .stopped ∧ t.engine.slot = none ∧ t.plan.activeSlot = none

/-- The point record stands in t as in s, its times as they are now (R86, R89). -/
def PointKept (s t : State) : Prop :=
  t.engine.point.pulses = s.engine.point.pulses ∧ t.engine.point.paused = s.engine.point.paused ∧
    t.engine.point.restartWait = s.engine.point.restartWait ∧ countedNow t = countedNow s ∧
    pausedNow t = pausedNow s

/-- The engine's records stand in t as in s until the next take (R89). -/
def RecordsKept (s t : State) : Prop :=
  t.engine.runNumber = s.engine.runNumber ∧ t.engine.passNumber = s.engine.passNumber ∧
    t.engine.fetchCount = s.engine.fetchCount ∧ t.engine.direction = s.engine.direction ∧
    t.engine.ghStart = s.engine.ghStart ∧ t.engine.ghStartHeld = s.engine.ghStartHeld ∧
    t.engine.vertical = s.engine.vertical ∧ PointKept s t

/-- The trip of an engine that was not TRIPPED: an open pass is closed ABORTED and an active run ends with cause
TRIP, no take follows, and the warning stays (R79, R89, R110). A trip with no pass open raises no PASS_DONE, and a
trip in IDLE ends no run. -/
def TripTaken (record : TripRecord) (s t : State) : Prop :=
  Tripped record t ∧ ClosesOpenPass t.stage.status .trip s t ∧ RecordsKept s t ∧
    t.plan = { s.plan with activeSlot := none } ∧ t.warning = s.warning ∧
    (s.engine.passOpen = false → PendingAsBefore 12 s t) ∧
    (s.engine.state ≠ .idle → RunEnded .trip s t) ∧
    (s.engine.state = .idle → t.engine.lastEnd = s.engine.lastEnd ∧ PendingAsBefore 13 s t)

/-! ## Lines and notices (R176, R181, R182, R184, R189 to R195) -/

/-- A line that a command leaves with its configuration, its latch and the level forced on it: its pin and its
change-of-state latch follow what it presents to its pin, which only a new permit or driven value changes
(R176, R181, R182, R184). -/
def LineFollows (i : Nat) (s t : State) : Prop :=
  let old := lineAt s i
  let new := lineAt t i
  { new with pin := old.pin, changed := old.changed } = old ∧
    (t.lines.presented new = s.lines.presented old → new = old) ∧
    (t.lines.presented new ≠ s.lines.presented old → new.pin = t.lines.pinLevel new) ∧
    new.changed = (old.changed || lineMoved s.lines t.lines i) ∧
    (lineMoved s.lines t.lines i = true → PendingWhereRouted 17 t)

/-- Every line follows what it presents to its pin. -/
def LinesFollow (s t : State) : Prop := ∀ i, i < 16 → LineFollows i s t

/-- The numbers of the five whole-part condition sources (R188). -/
def conditionNumbers : List (Condition × Nat) :=
  [(.retreat, 2), (.beyondRating, 7), (.carriageWanted, 10), (.proceedWanted, 11), (.trip, 14)]

/-- Nothing of the Notice Unit but these sources, with the attention lines that follow them, has changed from s
to t: the routes, the conditions that hold, and each port's settings and pending bits are the same (R189 to
R194). -/
def NoticesKeptBut (sources : List Nat) (s t : State) : Prop :=
  t.notices.routes = s.notices.routes ∧
    (∀ c k, (c, k) ∈ conditionNumbers → k ∉ sources → t.notices.holds c = s.notices.holds c) ∧
    ∀ p, (t.notices.port.get p).enables = (s.notices.port.get p).enables ∧
      (t.notices.port.get p).master = (s.notices.port.get p).master ∧
      (t.notices.port.get p).oneShot = (s.notices.port.get p).oneShot ∧
      (18 ∉ sources → (t.notices.port.get p).historyReady = (s.notices.port.get p).historyReady) ∧
      ∀ k, k ∉ sources → (t.notices.port.get p).pendingSet.getLsbD k =
        (s.notices.port.get p).pendingSet.getLsbD k

/-- The sources that the course of a pass and a recall may change: CARRIAGE_WANTED, PROCEED_WANTED, PASS_DONE,
TRIP, which comes to rest, and LINE_CHANGE, by the PERMIT_OUT line. -/
def passSources : List Nat := [10, 11, 12, 14, 17]

/-- The sources that a take may change: RUN_STARTED besides. -/
def takeSources : List Nat := 9 :: passSources

/-! ## Words of single chapters -/

/-- The phase state that follows another in the rising order 00, 10, 11, 01 (R6). -/
def nextRising : Level × Level → Level × Level
  | (.low, .low) => (.high, .low)
  | (.high, .low) => (.high, .high)
  | (.high, .high) => (.low, .high)
  | (.low, .high) => (.low, .low)

/-- A table that R39 allows. -/
def ValidTable (table : List Breakpoint) : Prop :=
  2 ≤ table.length ∧ table.Pairwise (fun a b => a.h < b.h ∧ a.q ≤ b.q) ∧ ∀ b ∈ table, b.q ≤ 4000000

/-- A Rating Unit with another shift (R44). -/
def withShift (z : Int) (r : RatingUnit) : RatingUnit := { r with shift := z }

/-- A Rating Unit with another extrapolation limit (R45). -/
def withLimit (n : Nat) (r : RatingUnit) : RatingUnit := { r with limit := n }

/-- A request is answered with a reply that carries a refusal code, and changes nothing but its port's
buffer and window (R2). -/
def Refuses (i : Instr) (p : Port) (s : State) (r : Reply) : Prop :=
  r.status.isRefusal = true ∧ exec i s = .next (setReply p r (closeWindow p s))

/-- A timer runs. -/
def Runs (t : Timer) : Prop := ∃ due, t = .running due

/-- COUNTING is entered in t from s, paused where the settled sense asks for it; every other record of the
engine stands (R86, R100, R102, R103). -/
def CountingBegun (s t : State) : Prop :=
  let d := activeDefinition s
  let counting : RunEngine := { s.engine with
    state := .counting, holdKind := none, homingCause := none, point := ⟨0, 0, 0, none, false, false⟩
    settleTimer := .stopped, pauseTimer := .stopped
    countTimer := .running (nowMs s + s.engine.vertical.countTime * 1000) }
  Entered .counting t ∧
    (d.settledSense = .ignore ∨ t.lines.anyActive .settledIn = true → t.engine = counting) ∧
    (d.settledSense = .level → t.lines.anyActive .settledIn = false → t.engine = { counting with
      point := ⟨0, 0, 0, some (nowMs s), true, false⟩
      countTimer := .held (s.engine.vertical.countTime * 1000)
      pauseTimer := if d.pauseLimit = 0 then .stopped else .running (nowMs s + d.pauseLimit * 1000) })

/-- SETTLING is entered in t from s with its timer, every other record of the engine as it was; a settle time of 0
ends at its start (R86, R100). -/
def SettlingBegun (s t : State) : Prop :=
  ((activeDefinition s).settleTime ≠ 0 → Entered .settling t ∧ t.engine = { s.engine with
    state := .settling, holdKind := none, homingCause := none
    settleTimer := .running (nowMs s + (activeDefinition s).settleTime * 1000) }) ∧
    ((activeDefinition s).settleTime = 0 → CountingBegun s t)

/-- The four outputs show the level and silence, and Field Lines hold their driven values (R151, R153,
R182). -/
def OutputsFormed (t : State) : Prop :=
  t.lines.warnKept = t.warning.outputs.map WarningOutput.driven ∧
    ∀ o ∈ t.warning.outputs.toList,
      (o.automatic = true ↔ o.showLevel ≤ t.warning.level ∧ (o.kind = .steady ∨ t.warning.silence = false)) ∧
        (o.override = .auto → o.driven = o.automatic) ∧ (o.override = .on → o.driven = true) ∧
        (o.override = .off → o.driven = false)

/-- The outputs have the overrides, show levels and kinds of a unit (R151, R152). -/
def OutputSettingsKept (w : WarningUnit) (t : State) : Prop :=
  ∀ k, k < 4 → (at' t.warning.outputs k).override = (at' w.outputs k).override ∧
    (at' t.warning.outputs k).showLevel = (at' w.outputs k).showLevel ∧
    (at' t.warning.outputs k).kind = (at' w.outputs k).kind

/-- The newest of a table's entries is changed; the others, and all else of the results, are kept. -/
def NewestBecomes (f : TableEntry → TableEntry) (s t : State) : Prop :=
  (s.results.table = [] → t.results.table = []) ∧
    (∀ before e, s.results.table = before ++ [e] → t.results.table = before ++ [f e]) ∧
    { t.results with table := s.results.table } = s.results

/-- A Plan Store with one slot replaced. -/
def PlanStore.withSlot (k : Nat) (x : Slot) (plan : PlanStore) : PlanStore :=
  { plan with slots := plan.slots.setIfInBounds k x }

/-- The blocks that a run's progress may change. -/
def runBlocks : List Block := [.plan, .engine, .results, .lines, .notices]

/-- The blocks that an evaluation may change. -/
def evaluationBlocks : List Block :=
  [.warning, .notices, .lines, .history, .plan, .engine, .results]

/-! ## Triggers and the open interval (R28, R68 to R72) -/

/-- The flag of a slot of the EDGE kind: an armed slot whose condition is newly met has it set, and any
other keeps it, but for the slot that a take from IDLE takes, which loses it (R68, R77). -/
def EdgeFlag (newly : Prop) (k : Nat) (s t : State) : Prop :=
  let untaken := s.engine.state ≠ .idle ∨ t.plan.activeSlot ≠ some k
  (newly → (slotAt s k).armed = true → untaken → (slotAt t k).request = true) ∧
    (¬ newly ∨ (slotAt s k).armed = false →
      (untaken → (slotAt t k).request = (slotAt s k).request) ∧
        ((slotAt s k).request = false → (slotAt t k).request = false))

/-- Whether a change of the warning level from s to t reaches level l from below. -/
def LevelReached (l : Nat) (s t : State) : Prop := s.warning.level < l ∧ l ≤ t.warning.level

/-- The slots judged from s to t: STAGE_RISE where the Stage Unit offered (R69), WARNING_LEVEL for the
change of the level (R70), UPSTREAM for the class of an accepted report (R72); and no slot that can be
taken is left after an event of R76. -/
def SlotsJudged (offered : Bool) (cls : Option Nat) (s t : State) : Prop :=
  (∀ k, k < 4 →
    (slotAt t k).definition = (slotAt s k).definition ∧ (slotAt t k).armed = (slotAt s k).armed ∧
      (slotAt t k).timer = (slotAt s k).timer ∧
      match (slotAt s k).definition.trigger with
      | .stageRise h .level =>
        (offered = true → ((slotAt t k).request = true ↔ ∃ z, t.stage.stilled = some z ∧ h ≤ z)) ∧
          (offered = false → (slotAt t k).request = (slotAt s k).request)
      | .stageRise h .edge =>
        EdgeFlag (offered = true ∧ ∃ b z, s.plan.previousStage = some b ∧ t.stage.stilled = some z ∧
          b < h ∧ h ≤ z) k s t
      | .warningLevel l .level =>
        (LevelReached l s t → (slotAt t k).request = true) ∧
          (LevelReached l t s → (slotAt t k).request = false) ∧
          (¬ LevelReached l s t → ¬ LevelReached l t s →
            (slotAt t k).request = (slotAt s k).request)
      | .warningLevel l .edge => EdgeFlag (LevelReached l s t) k s t
      | .upstream m => EdgeFlag (∃ c, cls = some c ∧ m ≤ c) k s t
      | .port => EdgeFlag False k s t
      | .interval _ => EdgeFlag False k s t) ∧
  (offered = true ∨ cls.isSome = true ∨ (s.warning.retreat = true ∧ t.warning.retreat = false) ∨
      (∃ k l sense, k < 4 ∧ (slotAt s k).armed = true ∧
        (slotAt s k).definition.trigger = .warningLevel l sense ∧ LevelReached l s t) →
    eligibleSlot t = none)

/-- The open interval takes what the Stage Unit offered and each change of the level from s to t: a fall
passes the level one below the first (R28, R145). -/
def IntervalTakes (offered : Bool) (s t : State) : Prop :=
  { t.history with peak := s.history.peak, worst := s.history.worst, highest := s.history.highest } =
      s.history ∧
    (s.warning.level < t.warning.level → t.history.highest = max s.history.highest t.warning.level) ∧
    (t.warning.level = s.warning.level → t.history.highest = s.history.highest) ∧
    (t.warning.level < s.warning.level →
      t.history.highest = max s.history.highest (s.warning.level - 1)) ∧
    (offered = false → t.history.peak = s.history.peak ∧ t.history.worst = s.history.worst) ∧
    (offered = true →
      (t.stage.stilled = none → t.history.peak = s.history.peak) ∧
        (∀ z, t.stage.stilled = some z → s.history.peak = none → t.history.peak = some z) ∧
        (∀ z b, t.stage.stilled = some z → s.history.peak = some b → t.history.peak = some (max b z)) ∧
        [StageStatus.lost, .starting, .suspect, .single, .good].find?
          (fun x => x == s.history.worst || x == t.stage.status) = some t.history.worst)

/-! ## The course of a pass (R91, R92, R105, R106, R116 to R123) -/

/-- The span of the newest entry when the next vertical lies at x (R121). -/
def spanBefore (x : Nat) (es : List TableEntry) : Nat :=
  match es.getLast?, es.dropLast.getLast? with
  | some _, some b => apart x b.x
  | some e, none => apart x e.x
  | none, _ => 0

/-- The entry after its point has ended now (R116, R117). -/
def pointEnded (s : State) (e : TableEntry) : TableEntry :=
  let pulses := s.engine.point.pulses
  let ms := s.engine.vertical.countTime * 1000
  { e with
    points := e.points ++ [⟨pulses, ms, pointVelocity (activeMeter s) pulses ms⟩]
    velocityClamped := e.velocityClamped || decide (10000 < rawVelocity (activeMeter s) pulses ms) }

/-- The entry after its vertical has completed: its mean velocity and its mark (R119). -/
def entryCompleted (s : State) (e : TableEntry) : TableEntry :=
  { e with
    mean := some (meanVelocity e.methodUsed (e.points.map MeasuredPoint.velocity)
      (activeDefinition s).coefficient)
    complete := true }

/-- The working vertical of a fetched record (R92). -/
def verticalFetched (i ordinal : Nat) (r : VerticalRecord) : WorkingVertical :=
  ⟨i, ordinal, r.x, r.depthMode, r.depth, r.method, r.countTime, r.next, none, none, [], 0, false, false⟩

/-- The entry with which a fetched record joins the table (R120). -/
def entryFetched (i ordinal : Nat) (r : VerticalRecord) : TableEntry :=
  ⟨ordinal, i, r.x, r.depthMode, r.method, r.countTime, none, none, [], [], none, false, none, false, false,
    false⟩

/-- A state with another vertical table. -/
def tabled (table : List TableEntry) (s : State) : State :=
  { s with results := { s.results with table := table } }

/-- Pool record i is fetched in t as the next vertical of the pass of s: the vertical before it is finalized,
and every record of the engine that a fetch does not write stands (R86, R92, R93, R120, R121). -/
def NextFetched (i : Nat) (s t : State) : Prop :=
  let r := poolRecord s i
  let n := s.engine.fetchCount
  Entered .moving t ∧
    t.engine = { s.engine with
      state := .moving, holdKind := none, homingCause := none, fetchCount := n + 1
      direction :=
        if n = 1 then some (if s.engine.vertical.x < r.x then .increasing else .decreasing)
        else s.engine.direction
      vertical := verticalFetched i (n + 1) r, point := ⟨0, 0, 0, none, false, false⟩
      moveTimer := .running (nowMs s + (activeDefinition s).moveTimeout * 1000) } ∧
    { t.plan with fetched := s.plan.fetched } = s.plan ∧
    (∀ j, j ∈ t.plan.fetched ↔ j = i ∨ j ∈ s.plan.fetched) ∧
    t.results = { s.results with
      table := newestAs (panelled (spanBefore r.x s.results.table)) s.results.table ++
        [entryFetched i (n + 1) r] }

/-- A pass with a number has begun in t from s: its records, its GH_start with the held mark, its pass record and
an empty table, and the first fetch. A first record that is unused fails its check: the pass is closed ABORTED
and the run recalled (R91 to R93, R131). With no stilled stage, which a take rules out, the value of GH_start is
left open. That an EMPTY plan's first record is an unused one is the model's choice (log entry 20). -/
def PassBegins (number : Nat) (s t : State) : Prop :=
  let d := activeDefinition s
  let first := match d.plan with
    | .empty => 0
    | .listed f _ => f
    | .linked f => f
  let held := s.stage.status == .starting || s.stage.status == .lost
  ∃ z : Int, (∀ x, s.stage.stilled = some x → z = x) ∧
    let u : State := { s with
      engine := { s.engine with
        passNumber := number, fetchCount := 0, direction := none, ghStart := z, ghStartHeld := held
        passOpen := true }
      results := ⟨s.results.log, s.results.nextId, [], ⟨.opened, s.engine.runNumber, number, s.engine.slot,
        some d.meter, some (activeMeter s).ident, s.clock.clock, some z, held, none⟩⟩ }
    ((poolRecord s first).used = true → NextFetched first u t) ∧
      ((poolRecord s first).used = false → Recalled .planEmpty u t ∧ t.plan = s.plan)

/-- The run is held in t from s, with every other record of the engine, the plan and the results as they were
(R86, R105, R106). -/
def Held (kind : HoldKind) (s t : State) : Prop :=
  Entered .holding t ∧
    t.engine = { s.engine with state := .holding, holdKind := some kind, homingCause := none } ∧
    t.plan = s.plan ∧ t.results = s.results

/-- A vertical has completed and the pass goes on, or ends short (R105, R106): `done` is what its
completion makes of its entry. -/
def VerticalCompletes (done : TableEntry → TableEntry) (s t : State) : Prop :=
  let u := tabled (newestAs done s.results.table) s
  let fault := fetchFault s (poolRecord s (nextIndex s))
  (hasMore s = true → (activeDefinition s).mode = .stepped → Held .nextVertical u t) ∧
    (hasMore s = true → (activeDefinition s).mode = .traverse →
      (fault = none → NextFetched (nextIndex s) u t) ∧
        ∀ cause, fault = some cause → Recalled cause u t ∧ t.plan = s.plan) ∧
    (hasMore s = false → s.engine.fetchCount < 3 → Recalled .planShort u t ∧ t.plan = s.plan)

/-- The totals of the result of a pass closed COMPLETE with this table, and its comparison with the rating
(R124, R126). -/
def ResultFormed (table : List TableEntry) (rating : RatingUnit) (r : PassResult) : Prop :=
  let q := sumPanels Panel.q table
  let area := sumPanels Panel.area table
  let measured := min 4000000 (roundDiv (q : Int) 1000).toNat
  let rated := rating.dischargeFor (some r.ghMean)
  r.measured = some measured ∧ r.area = some (roundDiv (area : Int) 100).toNat ∧
    r.meanVelocity = (if area = 0 then none else some (roundDiv ((q : Int) * 1000) area).toNat) ∧
    r.rated = rated.discharge ∧ r.ratingMark = rated.mark ∧
    (r.rated = none ∨ r.rated = some 0 → r.deviation = none) ∧
    (∀ x, r.rated = some x → x ≠ 0 →
      r.deviation = some (clamp (-9999) 9999 (roundDiv (((measured : Int) - x) * 1000) x))) ∧
    (inverseRating rating.active measured = none → r.proposal = none ∧ r.proposalClamped = false) ∧
    (∀ h, inverseRating rating.active measured = some h →
      r.proposal = some (clamp (-500) 500 (h - r.ghMean)) ∧
        (r.proposalClamped = true ↔ h - r.ghMean < -500 ∨ 500 < h - r.ghMean)) ∧
    (r.beyondRating = true ↔ rated.mark = .above ∨ rated.mark = .aboveLimit)

/-- The pass of s is closed COMPLETE in t at its normal end, its newest entry being finalized as a bank vertical
(R87, R105, R122, R124 to R129, R131). With no pass remaining the run is recalled with cause COMPLETE; otherwise
STEPPED holds before the next pass and TRAVERSE begins it at once. -/
def PassCloses (s t : State) : Prop :=
  PendingWhereRouted 12 t ∧ ∃ r,
    (let u : State := { s with
      engine := { s.engine with passOpen := false }, results := resultsClosed r s }
     (passesRemain s = false → Recalled .complete u t ∧ t.plan = s.plan) ∧
      (passesRemain s = true → (activeDefinition s).mode = .stepped → Held .nextPass u t) ∧
      (passesRemain s = true → (activeDefinition s).mode = .traverse →
        PassBegins (if s.engine.passNumber < 65535 then s.engine.passNumber + 1 else 1) u t)) ∧
    (let table := tableClosed s.results.table
     r.status = .complete ∧ r.cause = .complete ∧ ResultOf table s.rating s.stage.stilled s r ∧
      HeldAt s.stage.status s r ∧ ResultFormed table s.rating r)

/-- A vertical that its completion gives this entry has completed, whether the pass goes on, ends short or
is closed COMPLETE (R105, R106). -/
def VerticalEnds (done : TableEntry → TableEntry) (s t : State) : Prop :=
  (t.engine.state = .moving ∨ t.engine.state = .holding ∨ t.engine.state = .homing) ∧
    VerticalCompletes done s t ∧
    (hasMore s = false → 3 ≤ s.engine.fetchCount →
      PassCloses (tabled (newestAs done s.results.table) s) t)

/-- A state with its point ended now: the whole count time counted, its times and its timers at rest (R101,
R102). -/
def pointClosed (s : State) : State :=
  { s with engine := { s.engine with
    point := { s.engine.point with
      countedMs := s.engine.vertical.countTime * 1000, pausedMs := pausedNow s, pausedSince := none }
    countTimer := .stopped, pauseTimer := .stopped } }

/-- The point in progress ends now (R101, R104, R116, R117): the next point of the vertical follows, or the
vertical completes. -/
def PointEnds (s t : State) : Prop :=
  (s.engine.vertical.pointDepths.length ≤ s.engine.vertical.pointOrdinal →
      VerticalEnds (fun e => entryCompleted s (pointEnded s e)) (pointClosed s) t) ∧
    (s.engine.vertical.pointOrdinal < s.engine.vertical.pointDepths.length →
      Entered .lowering t ∧
        t.engine = { s.engine with
          state := .lowering, holdKind := none, homingCause := none
          point := ⟨0, 0, 0, none, false, false⟩
          vertical := { s.engine.vertical with pointOrdinal := s.engine.vertical.pointOrdinal + 1 }
          countTimer := .stopped, pauseTimer := .stopped
          moveTimer := .running (nowMs s + (activeDefinition s).moveTimeout * 1000) } ∧
        t.plan = s.plan ∧ NewestBecomes (pointEnded s) s t)

/-- The point of s is restarted in t by the end of its pause time (R103); it stays paused while it waits
(log entry 18). -/
def PointRestarts (paused : Bool) (s t : State) : Prop :=
  t.engine = { s.engine with
    point := ⟨0, 0, 0, none, paused, true⟩
    vertical := { s.engine.vertical with restarted := true }
    countTimer := .stopped, pauseTimer := .stopped } ∧
    NewestBecomes (fun e => { e with restarted := true }) s t

/-! ## Takes (R76, R77, R90 to R92) -/

/-- The conditions of a take but for the engine's and the request (R76). -/
def TakeReady (s : State) : Prop :=
  s.warning.retreat = false ∧ s.stage.stilled.isSome = true ∧ s.stage.status ≠ .starting ∧
    s.stage.status ≠ .lost ∧ (∃ i, i < 16 ∧ (lineAt s i).function = .meterIn) ∧
    ∃ i, i < 16 ∧ (lineAt s i).function = .permitOut

/-- The Plan Store of s with slot j taken: its flag cleared unless its trigger is of the LEVEL kind, the slot
active, and no record fetched yet (R77). -/
def planTaken (j : Nat) (s : State) : PlanStore :=
  { s.plan.withSlot j { slotAt s j with
      request := (slotAt s j).definition.trigger.isLevel && (slotAt s j).request } with
    activeSlot := some j, fetched := [] }

/-- Slot j is taken from s: its run and pass 1 have begun in t, and the first fetch is made (R77, R90 to
R92). A first record that is unused ends the run with PLAN_EMPTY (R93). That an EMPTY plan's first record is an
unused one is the model's choice (log entry 20). -/
def TakenSlot (j : Nat) (s t : State) : Prop :=
  PendingWhereRouted 9 t ∧
    PassBegins 1 { s with
      plan := planTaken j s
      engine := { s.engine with
        runNumber := if s.engine.runNumber < 65535 then s.engine.runNumber + 1 else 1
        slot := some j, homingCause := none } } t

/-- A take attempt at u answers t, and nothing else happens: no slot is taken where the engine is not IDLE, a
condition fails or no slot asks; otherwise the first slot of the order list that asks (R76, R77). -/
def TakeAttempted (u t : State) : Prop :=
  let first := u.plan.order.find? (slotAsks u)
  (u.engine.state ≠ .idle ∨ ¬ TakeReady u ∨ first = none → t = u) ∧
    (u.engine.state = .idle → TakeReady u → ∀ j, first = some j →
      TakenSlot j u t ∧ LinesFollow u t ∧ NoticesKeptBut takeSources u t)

/-! ## What an event makes of the plan and the run (R69, R70, R72, R76, R77, R109) -/

/-- A slot judged for a change of the warning level from one to another (R70). -/
def levelJudged (before after : Nat) (x : Slot) : Slot :=
  match x.definition.trigger with
  | .warningLevel l .level =>
    if before < l ∧ l ≤ after then { x with request := true }
    else if after < l ∧ l ≤ before then { x with request := false }
    else x
  | .warningLevel l .edge =>
    if x.armed = true ∧ before < l ∧ l ≤ after then { x with request := true } else x
  | _ => x

/-- A slot judged for an offer, the stage offered before it and its own being these (R69). -/
def offerJudged (before now : Option Int) (x : Slot) : Slot :=
  match x.definition.trigger, before, now with
  | .stageRise _ .level, _, none => { x with request := false }
  | .stageRise h .level, _, some z => { x with request := decide (h ≤ z) }
  | .stageRise h .edge, some b, some z =>
    if x.armed = true ∧ b < h ∧ h ≤ z then { x with request := true } else x
  | _, _, _ => x

/-- A slot judged for the class of an accepted report (R72). -/
def reportJudged (cls : Nat) (x : Slot) : Slot :=
  match x.definition.trigger with
  | .upstream m => if x.armed = true ∧ m ≤ cls then { x with request := true } else x
  | _ => x

/-- A Plan Store with every slot judged. -/
def PlanStore.judged (judge : Slot → Slot) (plan : PlanStore) : PlanStore :=
  { plan with slots := plan.slots.map judge }

/-- What an offer, where there is one, and then an accepted report of a class, where there is one, make of a Plan
Store (R69, R72). -/
def offeredPlan (offered : Bool) (cls : Option Nat) (stage : Option Int) (plan : PlanStore) : PlanStore :=
  let after := if offered = true then
      { plan.judged (offerJudged plan.previousStage stage) with previousStage := stage }
    else plan
  match cls with
  | some c => after.judged (reportJudged c)
  | none => after

/-- An armed WARNING_LEVEL slot is reached by the change of the level from s to t, or retreat leaves force: what
makes an evaluation attempt a take (R70, R76; log entry 10). -/
def EvaluationAsks (s t : State) : Prop :=
  (s.warning.retreat = true ∧ t.warning.retreat = false) ∨
    ∃ k l sense, k < 4 ∧ (slotAt s k).armed = true ∧
      (slotAt s k).definition.trigger = .warningLevel l sense ∧ LevelReached l s t

/-- The plan, the run and the lines in t after an event in s that may change the warning level and retreat, offer
a stage, or hand on the class of a report; `own` lists the sources it may change besides those of an evaluation
and of a run. The slots are judged. A retreat that comes into force recalls the run, and nothing is taken. From
IDLE, with the other conditions of a take met, the first slot of the order list that asks is taken: where the
evaluation asks for it, before the slots are judged for the offer or the report, and else after. Otherwise nothing
of the run, its results, the permit and the rest of the plan changes. The lines follow (R69, R70, R72, R76, R77,
R90 to R93, R109, R176, R181, R182, R184). -/
def RunFollows (own : List Nat) (offered : Bool) (cls : Option Nat) (s t : State) : Prop :=
  let later := offeredPlan offered cls t.stage.stilled
  let u : State := { s with
    stage := t.stage, plan := s.plan.judged (levelJudged s.warning.level t.warning.level) }
  let v : State := { u with plan := later u.plan }
  let recalls := s.warning.retreat = false ∧ t.warning.retreat = true ∧ s.engine.state.recallable = true
  let ready := s.engine.state = .idle ∧ TakeReady t
  let first := u.plan.order.find? (slotAsks u)
  let second := v.plan.order.find? (slotAsks v)
  let handed := offered = true ∨ cls.isSome = true
  LinesFollow s t ∧ NoticesKeptBut (own ++ [0, 1, 2] ++ takeSources) s t ∧
    (recalls → Recalled .retreat s t ∧ t.plan = v.plan) ∧
    (ready → EvaluationAsks s t → ∀ j, first = some j →
      ∃ plan, TakenSlot j u { t with plan := plan } ∧ t.plan = later plan) ∧
    (ready → ¬ EvaluationAsks s t ∨ first = none → handed → ∀ j, second = some j → TakenSlot j v t) ∧
    (¬ recalls → ¬ ready ∨ ((¬ EvaluationAsks s t ∨ first = none) ∧ (¬ handed ∨ second = none)) →
      t.engine = s.engine ∧ t.results = s.results ∧ t.lines.permit = s.lines.permit ∧ t.plan = v.plan ∧
        NoticesKeptBut (own ++ [0, 1, 2, 17]) s t)

/-! ## Evaluations (R141 to R149, R151, R153) -/

/-- The Warning Unit in t after an evaluation of these inputs made from unit w: the level and the dwell
(R143 to R145), retreat judged with its hysteresis (R149), and the outputs formed again with their settings
kept (R151 to R153). That a dwell which resumes with no time left falls within the evaluation at once is the
model's reading (log entry 9). -/
def Evaluated (i : EvalInputs) (w : WarningUnit) (t : State) : Prop :=
  t.warning = { (settleLevel 4 i w).1 with retreat := t.warning.retreat, outputs := t.warning.outputs } ∧
    (w.level < t.warning.level → PendingWhereRouted 0 t) ∧
    (t.warning.level < w.level → PendingWhereRouted 1 t) ∧
    t.notices.retreat = t.warning.retreat ∧
    (t.warning.retreat = true ↔ (∃ n, w.retreatLevel = some n ∧ n ≤ t.warning.level) ∨
      ∃ r z, w.retreatStage = some r ∧ i.stage = some z ∧
        (if w.retreat = true then r - w.criteria.hysteresis else r) ≤ z) ∧
    OutputsFormed t ∧ OutputSettingsKept w t

/-- An evaluation of these inputs from unit w has been made from s to t: besides what it leaves in the Warning
Unit, a level that stays raises no notice, and a retreat that comes into force recalls the run (R109). -/
def EvaluatedFrom (i : EvalInputs) (w : WarningUnit) (s t : State) : Prop :=
  Evaluated i w t ∧
    (t.warning.level = w.level → PendingAsBefore 0 s t ∧ PendingAsBefore 1 s t) ∧
    (w.retreat = false → t.warning.retreat = true → s.engine.state.recallable = true →
      Recalled .retreat s t)

/-- The current discharge recomputed from s to t for a rating and the stage of the last offer, BEYOND_RATING
judged on it, and the evaluation that follows with a status and a rise (R49, R50, R142). -/
def RatedAndEvaluated (rating : RatingUnit) (stage : Option Int) (status : StageStatus) (rise : Option Int)
    (s t : State) : Prop :=
  t.rating = { rating with stageUsed := stage, current := rating.dischargeFor stage } ∧
    t.notices.beyondRating = (t.rating.current.mark == .above || t.rating.current.mark == .aboveLimit) ∧
    EvaluatedFrom ⟨stage, status, rise, t.rating.current.discharge, nowMs s⟩ s.warning s t

/-- The upstream floor of t handed on from s: a floor that differs is kept by the Warning Unit, which evaluates
with it; one that does not leaves the Warning Unit as it was (R140, R142, R167). -/
def FloorHanded (s t : State) : Prop :=
  (t.upstream.floor = s.upstream.floor → t.warning = s.warning) ∧
    (t.upstream.floor ≠ s.upstream.floor →
      EvaluatedFrom (evalInputs s) { s.warning with floor := t.upstream.floor } s t)

/-! ## The engine's invariant -/

/-- The states in which a pass is open whatever the hold kind (R84). -/
def RunState.measures : RunState → Bool
  | .moving => true
  | .lowering => true
  | .settling => true
  | .counting => true
  | _ => false

/-- The engine's records agree with its state, and the permit and the conditions follow it (R84 to R86,
R181). -/
structure EngineInv (s : State) : Prop where
  permit : s.lines.permit = s.engine.state.permit
  carriageWanted : s.notices.carriageWanted = s.engine.state.carriageWanted
  proceedWanted : s.notices.proceedWanted = (s.engine.state == .holding)
  trip : s.notices.trip = (s.engine.state == .tripped)
  slot : s.engine.slot.isSome = s.engine.state.runActive
  activeSlot : s.plan.activeSlot = s.engine.slot
  homingCause : s.engine.homingCause.isSome = (s.engine.state == .homing)
  holdKind : s.engine.holdKind.isSome = (s.engine.state == .holding)
  passOpen : s.engine.passOpen =
    (s.engine.state.measures || s.engine.holdKind == some .nextVertical)
  moveTimer : s.engine.moveTimer ≠ .stopped → s.engine.state = .moving ∨ s.engine.state = .lowering
  settleTimer : s.engine.settleTimer ≠ .stopped → s.engine.state = .settling
  countTimer : s.engine.countTimer ≠ .stopped → s.engine.state = .counting
  pauseTimer : s.engine.pauseTimer ≠ .stopped → s.engine.state = .counting
  homeTimer : s.engine.homeTimer ≠ .stopped → s.engine.state = .homing

/-! ## Line passages (R101 to R104, R110, R154, R176, R177, R184) -/

/-- The sources that the pin change of a line may change: LINE_CHANGE, of an armed line (R184). -/
def pinSources (l : FieldLine) : List Nat := if l.arm = true then [17] else []

/-- Of the Notice Unit and of what the lines are given, the pin change of line i from s to t has changed nothing
but what R184 raises for it. -/
def PinJudged (i : Nat) (s t : State) : Prop :=
  NoticesKeptBut (pinSources (lineAt t i)) s t ∧ t.lines.permit = s.lines.permit ∧
    t.lines.warnKept = s.lines.warnKept

/-- The pin change of line i from s to t hands nothing on (R177, R184). -/
def PinOnly (i : Nat) (s t : State) : Prop := KeepsBut [.lines, .notices] s t ∧ PinJudged i s t

/-- The level is silenced from s to t: the outputs are formed again, and nothing else of the Warning Unit
changes (R153, R154). -/
def Silenced (s t : State) : Prop :=
  t.warning.silence = true ∧ PendingWhereRouted 19 t ∧ OutputsFormed t ∧ OutputSettingsKept s.warning t ∧
    { t.warning with silence := s.warning.silence, outputs := s.warning.outputs } = s.warning

/-- The pin change of line i from s to t changes nothing but the point's record and the count and pause timers,
with the line itself and what R184 raises for it (R102, R103, R184). -/
def PointTimed (i : Nat) (s t : State) : Prop :=
  KeepsBut [.engine, .lines, .notices] s t ∧ PinJudged i s t ∧
    { t.engine with point := s.engine.point, countTimer := s.engine.countTimer
                    pauseTimer := s.engine.pauseTimer } = s.engine

/-- The pin of input line i has changed, with this function, and the passage that this makes is handed to its
owner (R101 to R104, R110, R154, R177, R184). Each case names the notice sources that it may change (R189 to
R194): LINE_CHANGE of the line itself where nothing is handed on or only the point is timed, with SILENCED those of
the outputs' lines for a silence, and those of a pass or of a run's end for the end of a point and for a trip. A
trip of an engine whose invariant holds is whole. That a pause with no pause time left restarts the point at once
is the model's reading of R103 (log entry 18). -/
def PassageHanded (i : Nat) (fn : LineFunction) (activates : Prop) (s t : State) : Prop :=
  let e := s.engine
  let counts := e.state = .counting ∧ s.lines.permit ≠ .withdrawn
  let senses := counts ∧ (activeDefinition s).settledSense = .level
  (fn = .general ∨ fn = .permitOut ∨ (∃ k, fn = .warnOut k) ∨ (fn ≠ .settledIn ∧ ¬ activates) →
      PinOnly i s t) ∧
    (fn = .meterIn → activates → counts → e.point.paused = false → e.point.restartWait = false →
      KeepsBut [.engine, .lines, .notices] s t ∧ PinJudged i s t ∧
      t.engine = { e with point := { e.point with pulses := min 65535 (e.point.pulses + 1) } }) ∧
    (fn = .meterIn → activates → ¬ counts ∨ e.point.paused = true ∨ e.point.restartWait = true →
      PinOnly i s t) ∧
    (fn = .limitIn → activates → e.state = .tripped → PinOnly i s t) ∧
    (fn = .limitIn → activates → e.state ≠ .tripped →
      t.engine.state = .tripped ∧ t.engine.trip = .limit i ∧ ClosesOpenPass t.stage.status .trip s t ∧
        NoticesKeptBut (13 :: passSources) s t ∧ (EngineInv s → TripTaken (.limit i) s t)) ∧
    (fn = .ackIn → activates → 1 ≤ s.warning.level →
      Silenced s t ∧ KeepsBut [.warning, .lines, .notices] s t ∧ NoticesKeptBut [17, 19] s t ∧
        t.lines.permit = s.lines.permit) ∧
    (fn = .ackIn → s.warning.level = 0 → PinOnly i s t) ∧
    (fn ≠ .ackIn → t.warning = s.warning ∧ t.lines.warnKept = s.lines.warnKept) ∧
    (fn = .settledIn →
      ¬ senses ∨ (activates ∧ e.point.paused = false ∧ e.point.restartWait = false) ∨
        (¬ activates ∧ (e.point.paused = true ∨ e.point.restartWait = true)) →
      PinOnly i s t) ∧
    (∀ due, fn = .settledIn → ¬ activates → senses → e.point.paused = false →
      e.point.restartWait = false → e.countTimer = .running due → e.pauseTimer = .stopped →
      PointTimed i s t ∧ t.engine.point.paused = true ∧ t.engine.countTimer = .held (due - nowMs s) ∧
        t.engine.point.pulses = e.point.pulses ∧
        t.engine.pauseTimer = if (activeDefinition s).pauseLimit = 0 then .stopped
          else .running (nowMs s + (activeDefinition s).pauseLimit * 1000)) ∧
    (∀ due left, fn = .settledIn → ¬ activates → senses → e.point.paused = false →
      e.point.restartWait = false → e.countTimer = .running due → e.pauseTimer = .held left →
      (activeDefinition s).pauseLimit ≠ 0 →
      (left ≠ 0 → PointTimed i s t ∧ t.engine.point.paused = true ∧ t.engine.countTimer = .held (due - nowMs s) ∧
        t.engine.point.pulses = e.point.pulses ∧ t.engine.point.pausedMs = e.point.pausedMs ∧
        t.engine.pauseTimer = .running (nowMs s + left)) ∧
      (left = 0 → PointRestarts true s t ∧ KeepsBut [.engine, .results, .lines, .notices] s t ∧
        PinJudged i s t)) ∧
    (fn = .settledIn → activates → senses → e.point.restartWait = false →
      e.point.paused = true → e.countTimer = .held 0 →
      PointEnds { s with engine := { e with point := { e.point with paused := false } } } t ∧
        KeepsBut runBlocks s t ∧ NoticesKeptBut passSources s t) ∧
    (∀ left, fn = .settledIn → activates → senses → e.point.restartWait = false →
      e.point.paused = true → e.countTimer = .held left → left ≠ 0 →
      PointTimed i s t ∧ t.engine.point.paused = false ∧ t.engine.countTimer = .running (nowMs s + left) ∧
        t.engine.pauseTimer = e.pauseTimer.hold (nowMs s)) ∧
    (fn = .settledIn → activates → senses → e.point.restartWait = true →
      PointTimed i s t ∧ t.engine.point.restartWait = false ∧ t.engine.point.paused = false ∧
        t.engine.countTimer = .running (nowMs s + e.vertical.countTime * 1000))

/-! ## Timers that are due (R3 to R5; log entry 2) -/

/-- A timer runs and its time has come. -/
def TimeCome (x : Timer) (now : Nat) : Prop := ∃ due, x = .running due ∧ due ≤ now

/-- The time of the command's timer or counter has come, and it runs in the state it belongs to. -/
def DueNow (c : Instr) (s : State) : Prop :=
  let now := nowMs s
  let e := s.engine
  match c with
  | .stationClockAdvance => 1000 ≤ s.clock.clockPhase
  | .stageSample => s.stage.sampleDue ≤ now
  | .moveTimerExpiry => (e.state = .moving ∨ e.state = .lowering) ∧ TimeCome e.moveTimer now
  | .settleTimerExpiry => e.state = .settling ∧ TimeCome e.settleTimer now
  | .countTimerExpiry => e.state = .counting ∧ TimeCome e.countTimer now
  | .pauseTimerExpiry => e.state = .counting ∧ TimeCome e.pauseTimer now
  | .homeTimerExpiry => e.state = .homing ∧ TimeCome e.homeTimer now
  | .dwellTimerExpiry => TimeCome s.warning.dwell now
  | .intervalTimerExpiry k => k < 4 ∧ (slotAt s k).armed = true ∧ TimeCome (slotAt s k).timer now
  | .delayTimerExpiry i => i < 16 ∧ ∃ x rest, (entryAt s i).queue = x :: rest ∧ x.effective ≤ now
  | .staleTimerExpiry i => i < 16 ∧ (entryAt s i).stale = false ∧ ∃ r, (entryAt s i).last = some r ∧
      r.arrival + s.upstream.staleLimit * 60000 ≤ now
  | .uptimeAdvance => 999 ≤ s.clock.phase
  | _ => False

/-- The place of a due command among those due at the same millisecond: the model's choice (log entry 2). -/
def dueRank : Instr → Nat
  | .stationClockAdvance => 0
  | .stageSample => 1
  | .moveTimerExpiry => 2
  | .settleTimerExpiry => 3
  | .countTimerExpiry => 4
  | .pauseTimerExpiry => 5
  | .homeTimerExpiry => 6
  | .dwellTimerExpiry => 7
  | .intervalTimerExpiry k => 8 + k
  | .delayTimerExpiry i => 12 + i
  | .staleTimerExpiry i => 28 + i
  | _ => 44

/-! ## Pins (R176) -/

/-- The level that a line's pin takes when the outside forces a level on it or leaves it open: the line's
own drive where it drives, else the level forced, else high where the pull-up acts, else the level it has
(log entry 7). -/
def TakesLevel (i : Nat) (outside : Option Level) (level : Level) (s : State) : Prop :=
  let l := lineAt s i
  let withdrawn := l.function = .permitOut ∧ s.lines.permit = .withdrawn
  let drives := l.direction = .output ∧ ¬ withdrawn
  (drives → level = l.levelFor (s.lines.value l)) ∧
    (¬ drives → (∀ v, outside = some v → level = v) ∧
      (outside = none → l.pullUp = true → ¬ withdrawn → level = .high) ∧
      (outside = none → l.pullUp = false ∨ withdrawn → level = l.pin))

/-! ## Invariants -/

/-- One port's notices agree with the routes and with what holds (R189, R191, R194). -/
structure PortNoticesInv (n : NoticeUnit) (p : Port) : Prop where
  /-- Only sources routed to the port are pending. -/
  routed : ∀ k, k < 20 → (n.port.get p).pendingSet.getLsbD k = true → n.routed k p = true
  /-- A whole-part condition is pending exactly where it is routed and holds. -/
  condition : ∀ c k, (c, k) ∈ conditionNumbers →
    (n.port.get p).pendingSet.getLsbD k = (n.routed k p && n.holds c)
  /-- HISTORY_READY is pending exactly where it is routed and the port's own condition holds. -/
  ready : (n.port.get p).pendingSet.getLsbD 18 = (n.routed 18 p && (n.port.get p).historyReady)
  /-- The attention line is active while the master enable is set and an enabled source is pending. -/
  attention : (n.port.get p).attention =
    ((n.port.get p).master && ((n.port.get p).pendingSet &&& (n.port.get p).enables) != 0#20)

def NoticeInv (s : State) : Prop := ∀ p, PortNoticesInv s.notices p

/-- While retreat is in force the engine is IDLE, HOMING or TRIPPED (R109). -/
def RetreatInv (s : State) : Prop :=
  s.warning.retreat = true →
    s.engine.state = .idle ∨ s.engine.state = .homing ∨ s.engine.state = .tripped

/-- The warning level against its demand, its dwell and its outputs (R135, R143, R144, R151, R153,
R182). -/
structure WarningInv (s : State) : Prop where
  level : s.warning.level ≤ 3
  floor : s.warning.floor ≤ 3
  demanded : s.warning.demanded ≤ s.warning.level
  dwell : s.warning.dwell ≠ .stopped ↔ s.warning.demanded < s.warning.level
  outputs : ∀ o ∈ s.warning.outputs.toList, formOutput s.warning.level s.warning.silence o = o
  kept : s.lines.warnKept = s.warning.outputs.map WarningOutput.driven
  retreat : s.notices.retreat = s.warning.retreat

/-- One entry of the station table (R158, R164). -/
structure EntryInv (now : Nat) (e : StationEntry) : Prop where
  length : e.queue.length ≤ 4
  values : ∀ x ∈ e.queue, x.value ≤ 3
  contribution : e.contribution ≤ 3
  times : e.queue.Pairwise fun x y => x.effective ≤ y.effective
  ahead : ∀ x ∈ e.queue, x.effective ≤ now + e.travel * 60000
  stale : e.stale = true → e.contribution = 0 ∧ e.queue = []
  travel : e.travel = 0 → e.queue = []

/-- The Upstream Filter (R161, R164, R167), with the phase in its range (R4). -/
structure UpstreamInv (s : State) : Prop where
  phase : s.clock.phase ≤ 999
  entries : ∀ e ∈ s.upstream.entries.toList, EntryInv (nowMs s) e
  caps : ∀ c ∈ s.upstream.classMap.toList, ∀ n, c = some n → n ≤ 3
  floor : s.upstream.floor = s.upstream.greatest
  handed : s.warning.floor = s.upstream.floor

/-- The stores' bounds and orders (R30, R39, R40, R43, R63, R80, R93, R120, R129). -/
structure StoreInv (s : State) : Prop where
  ring : s.history.ring.length ≤ 96
  sequence : s.history.ring.map IntervalRecord.seq =
    List.range' (s.history.nextSeq - s.history.ring.length) s.history.ring.length
  enough : s.history.ring.length ≤ s.history.nextSeq
  log : s.results.log.length ≤ 8
  fetched : s.engine.fetchCount ≤ 40
  table : s.results.table.map TableEntry.ordinal = List.range' 1 s.engine.fetchCount
  order : s.plan.order.Perm [0, 1, 2, 3]
  active : ∀ k, s.plan.activeSlot = some k → k < 4
  staged : ∀ b ∈ s.rating.staged.toList.filterMap id, -1000 ≤ b.h ∧ b.h ≤ 15000 ∧ b.q ≤ 4000000
  rating : s.rating.active = [] ∨ ValidTable s.rating.active
  points : s.rating.active.length ≤ 24 ∧ ∀ b ∈ s.rating.active, -1000 ≤ b.h ∧ b.h ≤ 15000
  version : s.rating.version ≤ 255 ∧ (s.rating.version = 0 ↔ s.rating.active = [])

end Sys2Proof.Machine
end

