-- ==== Sys2Proof/Certificates/Slice0/Obligations.lean ====
section
/-! DEFINITION. The statements for the provers, each a rule or a family of rules of the spec said of the
model. `Takes p code s` says that port p's frame of that code reaches its owner in s; a request's
conclusion gives the whole next state, or its blocks but for those that `KeepsBut` lists. -/

open Sys2Proof Sys2Proof.Machine

/-! ## Queue, ports and frames (chapter 11) -/

/-- A step takes the command at the front of the queue and runs it on the rest. -/
def Obligations.StepRunsCommand : Prop :=
  ∀ (c : Instr) (rest : List Instr) (s : State), s.pending = c :: rest →
    step s = exec c { s with pending := rest }

/-- What a step does while no command waits: a timer whose time has come posts its command, the first of those
due together, and while none is due a millisecond passes (R3 to R5). That a step on an empty queue is the part's
time base, and the order of timers due together, are the model's choice: log entry 2. -/
def Obligations.StepWhileIdle : Prop :=
  ∀ s : State, s.pending = [] →
    (s.ports.por = true → step s = .next s) ∧
    (s.ports.por = false →
      (∀ c, dueCommand s = some c ↔ DueNow c s ∧ ∀ d, DueNow d s → dueRank c ≤ dueRank d) ∧
      (∀ c, DueNow c s → (∀ d, DueNow d s → dueRank c ≤ dueRank d) →
        step s = .next { s with pending := [c] }) ∧
      ((∀ c, ¬ DueNow c s) → dueCommand s = none ∧ step s = .next { s with clock :=
        { s.clock with phase := s.clock.phase + 1, clockPhase := s.clock.clockPhase + 1 } }))

/-- READ_REPLY and a window that is no frame close the window and change nothing else; the opening of a window
fixes the reply frame that the buffer holds (R201, R203, R206, R207). That an opening while the window is open
changes nothing is the model's choice (log entry 3). -/
def Obligations.WindowCommands : Prop :=
  ∀ (p : Port) (s : State),
    exec (.readReply p) s = .next (closeWindow p s) ∧
    exec (.discardedWindow p) s = .next (closeWindow p s) ∧
    bufferOf p (closeWindow p s) = bufferOf p s ∧
    KeepsBut [.ports] s (closeWindow p s) ∧
    (closeWindow p s).ports.port.get p = { s.ports.port.get p with window := none } ∧
    (∀ q, q ≠ p → (closeWindow p s).ports.port.get q = s.ports.port.get q) ∧
    (closeWindow p s).ports.por = s.ports.por ∧ (closeWindow p s).ports.resetN = s.ports.resetN ∧
    ((s.ports.port.get p).window ≠ none → exec (.windowOpen p) s = .next s) ∧
    ((s.ports.port.get p).window = none →
      ∃ t, exec (.windowOpen p) s = .next t ∧ KeepsBut [.ports] s t ∧ bufferOf p t = bufferOf p s ∧
        (∀ q, q ≠ p → t.ports.port.get q = s.ports.port.get q) ∧
        t.ports.por = s.ports.por ∧ t.ports.resetN = s.ports.resetN ∧
        ∃ w, (t.ports.port.get p).window = some w ∧ w.discard = (s.ports.por || s.ports.resetN) ∧
          (s.ports.por = true → w.shiftOut = []) ∧
          (s.ports.por = false → w.shiftOut =
            match bufferOf p s with
            | none => [15, 0, 0]
            | some r =>
              u8 (replyCodeValue r.status) ++ u8 (r.data.length / 256) ++ u8 r.data.length ++ r.data))

/-- What reaches no owner. A frame that fails the frame, code or role check is answered with its own data; a
request from a port whose role is not among its roles is answered ROLE; at the release of a window that is to be
discarded nothing is taken and no reply is made (R200 to R202, R206, R207). A count above 255 is the model's
choice (log entry 14) and is left out. -/
def Obligations.FramesNotTaken : Prop :=
  (∀ (p : Port) (s : State), windowDead p s = false →
    (∀ code len n, n ≤ 255 → exec (.badFrame p (.frame code len n)) s =
      .next (setReply p ⟨.badFrame, u8 code ++ u8 len ++ u8 n⟩ (closeWindow p s))) ∧
    (∀ code, exec (.badFrame p (.unknown code)) s =
      .next (setReply p ⟨.unknown, u8 code⟩ (closeWindow p s))) ∧
    (∀ code, exec (.badFrame p (.role code)) s =
      .next (setReply p ⟨.role, u8 code ++ u8 (portCode p)⟩ (closeWindow p s)))) ∧
  (∀ (i : Instr) (p : Port) (e : Nat × List Byte) (s : State), encodeRequest i = some e →
    i.port? = some p → e.1 ≠ 0 → windowDead p s = false → p ∉ rolesOf e.1 →
    exec i s = .next (setReply p ⟨.role, u8 e.1 ++ u8 (portCode p)⟩ (closeWindow p s))) ∧
  ∀ (i : Instr) (p : Port) (s : State), i.port? = some p → i ≠ .windowOpen p →
    windowDead p s = true → exec i s = .next (closeWindow p s)

/-- R2: a request that is answered with a refusal code leaves every state but its own port's buffer and window
unchanged. -/
def Obligations.RefusalsChangeNothing : Prop :=
  ∀ (i : Instr) (p : Port) (r : Reply) (s t : State), i.port? = some p → i ≠ .windowOpen p →
    exec i s = .next t → bufferOf p t = some r → r.status.isRefusal = true →
    t = setReply p r (closeWindow p s)

/-- Every read of the catalogue answers, and changes no state but its port's buffer and window: each read
without an operand answers OK, and each with one answers OK in its range, RANGE outside it and EMPTY where the
log or the table holds nothing there (R21, R37, R54 to R57, R62, R64, R67, R81, R94, R114, R130 to R132, R155,
R171, R172, R185, R197). The layouts are the model's reading of R204 (log entries 11, 12 and 27), but for
section 11.6's of READ_RESULT. -/
def Obligations.ReadsChangeNothing : Prop :=
  (∀ (i : Instr) (p : Port) (e : Nat × List Byte) (s : State), encodeRequest i = some e →
    i.port? = some p → e.1 ∈ readCodes → Takes p e.1 s →
    ∃ r, exec i s = .next (setReply p r (closeWindow p s)) ∧
      (r.status = .ok ∨ r.status = .empty ∨ r.status = .range)) ∧
  (∀ (i : Instr) (p : Port) (code : Nat) (data : List Byte) (s : State),
    (i, code, data) ∈
      [(Instr.readClock p, 0x01, u32 s.clock.clock ++ u32 s.clock.uptime),
        (.readStage p, 0x03, stageData s.stage), (.readStageConfig p, 0x04, stageConfigData s.stage.cfg),
        (.readHistoryState p, 0x12, historyStateData p s), (.readRating p, 0x20, ratingData s),
        (.readStaged p, 0x23, u8 (stagedCount s.rating.staged) ++
          ((s.rating.staged.toList.take (stagedCount s.rating.staged)).map stagedData).flatten),
        (.readSlotState p, 0x3C, slotStateData s), (.getTarget p, 0x40, targetData s),
        (.readRunState p, 0x41, runStateData s),
        (.readPass p, 0x51, (let r := s.results
          let x := r.pass
          u8 (passStateCode x.state) ++ u16 x.runNumber ++ u16 x.passNumber
            ++ maskBytes 1 [x.slot.isSome, x.meter.isSome, x.meterIdent.isSome, x.ghStart.isSome,
              x.resultId.isSome]
            ++ u8 (x.slot.getD 0) ++ u8 (x.meter.getD 0) ++ u16 (x.meterIdent.getD 0) ++ u32 x.startStamp
            ++ i16 (x.ghStart.getD 0)
            ++ (if x.ghStart = none then u8 0 else markByte x.ghStartHeld)
            ++ u8 r.table.length ++ u8 (r.table.filter TableEntry.complete).length
            ++ u64 (sumPanels Panel.q r.table) ++ u64 (sumPanels Panel.area r.table)
            ++ u32 (x.resultId.getD 0))),
        (.readWarning p, 0x60, warningData s), (.readUpstreamState p, 0x72, upstreamData s.upstream),
        (.readLineConfig p, 0x81, (s.lines.line.toList.map lineConfigData).flatten
          ++ u8 (permitCode s.lines.permit) ++ (s.lines.warnKept.toList.map twoValued).flatten),
        (.peekNotices p, 0x91, peekData p s),
        (.readNoticeRoutes p, 0x92, (s.notices.routes.toList.map fun r => setBytes 1 r.toNat).flatten)] →
    Takes p code s → exec i s = .next (setReply p ⟨.ok, data⟩ (closeWindow p s))) ∧
  (∀ (p : Port) (h : Int) (s : State), Takes p 0x21 s →
    let d := s.rating.dischargeFor (some h)
    (h < -1000 ∨ 15000 < h → Refuses (.rateStage p h) p s ⟨.range, []⟩) ∧
    (-1000 ≤ h → h ≤ 15000 → exec (.rateStage p h) s = .next (setReply p
      ⟨.ok, maskBytes 1 [d.discharge.isSome, d.effective.isSome] ++ u32 (d.discharge.getD 0)
        ++ u8 (ratingMarkCode d.mark) ++ u8 d.version ++ i16 (d.effective.getD 0)⟩ (closeWindow p s)))) ∧
  (∀ (p : Port) (q : Nat) (s : State), Takes p 0x22 s →
    (4000000 < q → Refuses (.rateDischarge p q) p s ⟨.range, []⟩) ∧
    (q ≤ 4000000 →
      (inverseRating s.rating.active q = none → exec (.rateDischarge p q) s = .next (setReply p
        ⟨.ok, [0, 0, 0, 0, 0] ++ u8 s.rating.version⟩ (closeWindow p s))) ∧
      ∀ h, inverseRating s.rating.active q = some h → exec (.rateDischarge p q) s = .next (setReply p
        ⟨.ok, u8 3 ++ i16 h ++ i16 (h - s.rating.shift) ++ u8 s.rating.version⟩ (closeWindow p s)))) ∧
  (∀ (i : Nat → Instr) (p : Port) (code low high : Nat) (data : Nat → List Byte) (s : State),
    (i, code, low, high, data) ∈
      [(Instr.readVertical p, 0x30, 1, 64, fun n => verticalData (poolRecord s n) (recordInUse s n)),
        (.readMeter p, 0x33, 0, 3, fun n => u16 (at' s.plan.meters n).a ++ u32 (at' s.plan.meters n).b
          ++ u8 (at' s.plan.meters n).pulses ++ u16 (at' s.plan.meters n).ident
          ++ twoValued (meterInUse s n)),
        (.readSlot p, 0x35, 0, 3, slotData s), (.readUpstreamEntry p, 0x71, 0, 15, entryStateData s)] →
    Takes p code s → ∀ n,
      (n < low ∨ high < n → Refuses (i n) p s ⟨.range, []⟩) ∧
      (low ≤ n → n ≤ high → exec (i n) s = .next (setReply p ⟨.ok, data n⟩ (closeWindow p s)))) ∧
  (∀ (p : Port) (selector : ResultSelector) (s : State), Takes p 0x50 s →
    let log := s.results.log
    let ids := u32 ((log.head?.map PassResult.id).getD 0) ++ u32 ((log.getLast?.map PassResult.id).getD 0)
    (selector = .ident 0 ∨ (∃ n, selector = .ident n ∧ 4294967295 < n) ∨ (∃ k, selector = .unknown k) →
      Refuses (.readResult p selector) p s ⟨.range, []⟩) ∧
    ((log = [] ∧ (selector = .newest ∨ selector = .oldest)) ∨
        (∃ n, selector = .ident n ∧ 1 ≤ n ∧ n ≤ 4294967295 ∧ ∀ r ∈ log, r.id ≠ n) →
      exec (.readResult p selector) s = .next (setReply p
        ⟨.empty, u8 (if log = [] then 0 else 3) ++ ids⟩ (closeWindow p s))) ∧
    (∀ r, (selector = .newest ∧ log.getLast? = some r) ∨ (selector = .oldest ∧ log.head? = some r) ∨
        (1 ≤ r.id ∧ r.id ≤ 4294967295 ∧ selector = .ident r.id ∧
          ∃ before after, log = before ++ r :: after ∧ ∀ x ∈ before, x.id ≠ r.id) →
      exec (.readResult p selector) s = .next (setReply p
        ⟨.ok, u32 r.id ++ u16 r.runNumber ++ u16 r.passNumber ++ u8 r.slot ++ u8 r.meter
          ++ u16 r.meterIdent ++ u8 (passStatusCode r.status) ++ u8 (endCauseCode r.cause)
          ++ u32 r.startStamp ++ u32 r.endStamp ++ u8 r.verticals
          ++ maskBytes 1 [r.area.isSome, r.measured.isSome, r.meanVelocity.isSome, r.rated.isSome,
            r.deviation.isSome, r.proposal.isSome]
          ++ u32 r.width ++ u32 (r.area.getD 0) ++ u32 (r.measured.getD 0) ++ u16 (r.meanVelocity.getD 0)
          ++ i16 r.ghStart ++ i16 r.ghEnd ++ i16 r.ghMean ++ u8 r.version
          ++ u8 (ratingMarkCode r.ratingMark) ++ u32 (r.rated.getD 0) ++ i16 (r.deviation.getD 0)
          ++ i16 (r.proposal.getD 0)
          ++ flagSet 1 [r.velocityClamped, r.restarted, r.methodReduced, r.beyondRating, r.ghHeld,
            r.proposalClamped] ++ ids⟩ (closeWindow p s)))) ∧
  ∀ (p : Port) (n : Nat) (s : State), Takes p 0x52 s →
    let table := s.results.table
    (n = 0 ∨ 40 < n → Refuses (.readPassVertical p n) p s ⟨.range, []⟩) ∧
    (1 ≤ n → n ≤ 40 → table.length < n → exec (.readPassVertical p n) s =
      .next (setReply p ⟨.empty, u8 table.length⟩ (closeWindow p s))) ∧
    ∀ e, 1 ≤ n → n ≤ 40 → table[n - 1]? = some e → exec (.readPassVertical p n) s = .next (setReply p
      ⟨.ok, entryData e ++ u8 (passStateCode s.results.pass.state)⟩ (closeWindow p s))

/-- A request on one port touches no other port's cursor, threshold, enables, attention settings, reply buffer
or window (R200). -/
def Obligations.PortsAreIsolated : Prop :=
  ∀ (i : Instr) (p q : Port) (s t : State), i.port? = some p → q ≠ p → (∀ x, i ≠ .stationReset x) →
    exec i s = .next t →
    t.history.cursors.get q = s.history.cursors.get q ∧
    t.history.thresholds.get q = s.history.thresholds.get q ∧
    t.ports.port.get q = s.ports.port.get q ∧
    (t.notices.port.get q).enables = (s.notices.port.get q).enables ∧
    (t.notices.port.get q).master = (s.notices.port.get q).master ∧
    (t.notices.port.get q).oneShot = (s.notices.port.get q).oneShot

/-! ## Encoding (R202, R204, section 11.4) -/

/-- The window that carries the frame of a well-formed request is read as that request. -/
def Obligations.DecodeOfEncode : Prop :=
  ∀ (i : Instr) (p : Port) (f : List Byte), i.wf = true → i.port? = some p → encodeFrame i = some f →
    commandOfWindow p ⟨f, false⟩ = i

/-- Every window is read as a well-formed command of its port. -/
def Obligations.WindowsAreWellFormed : Prop :=
  ∀ (p : Port) (w : WindowBits), (commandOfWindow p w).wf = true ∧ (commandOfWindow p w).port? = some p

/-- Frames written out from the catalogue and R204 are read as the commands they spell. -/
def Obligations.WrittenFrames : Prop :=
  commandOfWindow .L ⟨[0x02, 4, 0, 0, 0x0E, 0x10], false⟩ = .setClock .L 3600 ∧
  commandOfWindow .L ⟨[0x27, 2, 0xFF, 0xCF], false⟩ = .setShift .L (-49) ∧
  commandOfWindow .C ⟨[0x42, 7, 0, 0, 0x17, 0x98, 0, 0, 0], false⟩ = .positionReached .C 6040 none ∧
  commandOfWindow .C ⟨[0x42, 7, 0, 0, 0x26, 0xFC, 1, 0x05, 0xDC], false⟩ =
    .positionReached .C 9980 (some 1500) ∧
  commandOfWindow .T ⟨[0x70, 10, 0x04, 0xD2, 0, 0, 0x4F, 0x9C, 3, 0x06, 0x40, 2], false⟩ =
    .upstreamReport .T ⟨1234, 20380, 3, 1600, 2⟩ ∧
  commandOfWindow .C ⟨[0x43, 1, 0], false⟩ = .badFrame .C (.frame 0x43 1 1) ∧
  commandOfWindow .C ⟨[0x27, 2, 0xFF, 0xCF], false⟩ = .badFrame .C (.role 0x27) ∧
  commandOfWindow .T ⟨[0x07, 0], false⟩ = .badFrame .T (.unknown 0x07) ∧
  commandOfWindow .T ⟨[], false⟩ = .discardedWindow .T ∧
  commandOfWindow .T ⟨[], true⟩ = .badFrame .T (.frame 0 0 0) ∧
  commandOfWindow .C ⟨[0, 0, 7, 7, 7], false⟩ = .readReply .C

/-! ## Resets (R205 to R207 and the reset rules of the chapters) -/

/-- The power-on values that the spec states, block by block. The values that log entries 7 and 16 choose are
left out. -/
def Obligations.PowerOnValues : Prop :=
  ∀ t : State,
    (t = State.reset ∨ (∃ s, exec .porAssert s = .next t) ∨
      ∃ s, s.ports.por = true ∧ exec .porRelease s = .next t) →
    (t.clock.clock = 0 ∧ t.clock.uptime = 0 ∧ t.clock.phase = 0) ∧
    (t.stage.cfg = {
        fEnable := false, pEnable := false, preferred := .f, fOffset := 0, fStep := 1000,
        fMaxStep := 150, pOffset := 0, pGain := 65536, pZero := 0, pMin := 1000, tolerance := 50,
        disagreeLimit := 6, windowLength := 6, period := 10, riseWindow := 4 } ∧ t.stage.count = 0 ∧ t.stage.encoderError = false ∧ t.stage.fLast = none ∧
      t.stage.pLast = none ∧ t.stage.fJudgement = .none ∧ t.stage.anchor = none ∧
      t.stage.runLength = 0 ∧ t.stage.lastN = 0 ∧ t.stage.signal = .none ∧ t.stage.disagree = 0 ∧
      t.stage.status = .starting ∧ t.stage.window = [] ∧ t.stage.stilled = none ∧ t.stage.rise = none ∧
      t.stage.stamp = 0 ∧ t.stage.sampleUptime = 0 ∧ t.stage.sampleDue = 10000) ∧
    (t.history.ring = [] ∧ t.history.mark = 0 ∧ t.history.nextSeq = 1 ∧ t.history.interval = 15 ∧
      t.history.cursors = ⟨1, 1, 1⟩ ∧ t.history.thresholds = ⟨1, 1, 1⟩ ∧ t.history.peak = none ∧
      t.history.worst = .starting ∧ t.history.highest = 0) ∧
    (t.rating.active = [] ∧ t.rating.version = 0 ∧ stagedCount t.rating.staged = 0 ∧
      t.rating.shift = 0 ∧ t.rating.limit = 500 ∧ t.rating.stageUsed = none ∧
      t.rating.current = ⟨none, .none, 0, none⟩) ∧
    ((∀ x ∈ t.plan.pool.toList, x = ⟨false, 0, .fixed, some 0, .p6, 40, 0⟩) ∧
      (∀ m ∈ t.plan.meters.toList, m = ⟨0, 0, 1, 0⟩) ∧
      (∀ x ∈ t.plan.slots.toList, x = ⟨⟨.empty, .traverse, .number 1, 0, 880, 20, .ignore, 0, 500, 300,
        600, .port⟩, false, false, .stopped⟩) ∧
      t.plan.order = [0, 1, 2, 3] ∧ t.plan.priority = .fixed ∧ t.plan.activeSlot = none ∧
      t.plan.fetched = [] ∧ t.plan.previousStage = none) ∧
    (t.engine.state = .idle ∧ engineTimers t.engine = List.replicate 5 .stopped ∧
      t.engine.runNumber = 0 ∧ t.engine.passNumber = 0 ∧ t.engine.slot = none ∧
      t.engine.homingCause = none ∧ t.engine.holdKind = none ∧ t.engine.direction = none ∧
      t.engine.fetchCount = 0 ∧ t.engine.ghStart = 0 ∧ t.engine.ghStartHeld = true ∧
      t.engine.vertical.index = 0 ∧ t.engine.vertical.ordinal = 0 ∧ t.engine.vertical.depth = none ∧
      t.engine.vertical.fetchedDepth = none ∧
      t.engine.vertical.methodUsed = none ∧ t.engine.vertical.pointDepths = [] ∧
      t.engine.vertical.methodReduced = false ∧ t.engine.vertical.restarted = false ∧
      t.engine.point = ⟨0, 0, 0, none, false, false⟩ ∧ t.engine.trip = .none ∧
      t.engine.lastEnd = none) ∧
    (t.results.log = [] ∧ t.results.nextId = 1 ∧ t.results.table = [] ∧ t.results.pass.state = .none ∧
      t.results.pass.runNumber = 0 ∧ t.results.pass.passNumber = 0 ∧ t.results.pass.slot = none ∧
      t.results.pass.meter = none ∧ t.results.pass.ghStart = none ∧ t.results.pass.resultId = none ∧
      t.results.pass.startStamp = 0 ∧ sumPanels Panel.q t.results.table = 0) ∧
    (t.warning.level = 0 ∧ t.warning.demanded = 0 ∧ t.warning.partStage = 0 ∧
      t.warning.partDischarge = 0 ∧ t.warning.partRise = 0 ∧ t.warning.partFloor = 0 ∧
      t.warning.criteria = ⟨⟨none, none, none⟩, ⟨none, none, none⟩, ⟨none, none, none⟩, 100, 50, 60⟩ ∧
      t.warning.floor = 0 ∧ t.warning.dwell = .stopped ∧ t.warning.retreatStage = none ∧
      t.warning.retreatLevel = none ∧ t.warning.retreat = false ∧ t.warning.silence = false ∧
      t.warning.outputs.toList = [⟨1, .steady, .auto, false, false⟩, ⟨2, .steady, .auto, false, false⟩,
        ⟨2, .siren, .auto, false, false⟩, ⟨3, .siren, .auto, false, false⟩]) ∧
    ((∀ e ∈ t.upstream.entries.toList, e = ⟨0, 0, 0, none, 0, false, []⟩) ∧ t.upstream.hash = 0 ∧
      t.upstream.hashEnable = false ∧ t.upstream.acceptAll = false ∧ t.upstream.staleLimit = 120 ∧
      (∀ c ∈ t.upstream.classMap.toList, c = some 0) ∧ t.upstream.counters = ⟨0, 0, 0, 0, 0⟩ ∧
      t.upstream.floor = 0) ∧
    ((∀ l ∈ t.lines.line.toList, ∃ v w, l = ⟨.general, .input, .high, false, false, false, false, v, w⟩) ∧
      t.lines.permit = .released ∧ t.lines.warnKept.toList = [false, false, false, false]) ∧
    (t.notices.routes.toList = [3, 3, 7, 1, 1, 1, 1, 3, 1, 1, 5, 5, 1, 5, 5, 3, 3, 1, 1, 1] ∧
      (∀ p, t.notices.port.get p = ⟨0, 0, false, false, false, false⟩) ∧
      (∀ c, t.notices.holds c = false)) ∧
    ∀ p, bufferOf p t = none

/-- The reset inputs: POR holds the part and lets it go, RESET_N starts a station reset at its activation only,
and both leave windows open then to be discarded (R201, R206, R207). While POR is active nothing but the inputs
and the windows is seen: the manual holds the part at its power-on values, and which inputs are seen then is the
model's choice (log entry 23). -/
def Obligations.ResetInputs : Prop :=
  ∀ s : State,
    (∃ t, exec .porAssert s = .next t ∧ t.ports.por = true ∧ t.ports.resetN = s.ports.resetN) ∧
    (∃ t, exec .porRelease s = .next t ∧ t.ports.por = false ∧ t.ports.resetN = s.ports.resetN ∧
      (s.ports.por = true → ∀ p w, (t.ports.port.get p).window = some w → w.discard = true)) ∧
    exec .resetNRelease s = .next { s with ports := { s.ports with resetN := false } } ∧
    (s.ports.por = false → s.ports.resetN = false →
      ∃ t u, exec .resetNActivation s = .next t ∧ t.ports.resetN = true ∧ (∀ p, bufferOf p t = none) ∧
        (∀ p w, (t.ports.port.get p).window = some w → w.discard = true) ∧
        (windowDead .L s = false → exec (.stationReset .L) s = .next u ∧ KeepsBut [.ports] u t)) ∧
    (s.ports.resetN = true → exec .resetNActivation s = .next s) ∧
    (s.ports.por = true → ∀ i, i ≠ .porAssert → i ≠ .porRelease →
      ∃ t, exec i s = .next t ∧ KeepsBut [.stage, .lines, .ports] s t ∧
        { t.stage with phaseA := s.stage.phaseA, phaseB := s.stage.phaseB } = s.stage ∧
        { t.lines with line := s.lines.line } = s.lines ∧
        (∀ n, n < 16 →
          { lineAt t n with forced := (lineAt s n).forced, pin := (lineAt s n).pin } = lineAt s n) ∧
        ∀ p, bufferOf p t = bufferOf p s)

/-- What a station reset keeps, clears and holds, with the evaluation that its offer of STARTING makes (R205 and
the reset rules of every chapter; R28, R69, R70, R142 to R144, R157): among the rest the whole point record
stands, a pass that it closes takes its gauge height from the last offer before it (R113), and every
change-of-state latch is cleared but that of an armed line which the reset itself moves (R187). Of the events, those
that the reset itself raises are pending after it, and no other (R199): STAGE_STATUS where the status was not
STARTING (R26), PASS_DONE and RUN_ENDED for the pass and the run it ended (R113), LEVEL_RISE where its evaluation
raises the level (R143), LINE_CHANGE where it moves an armed line (R184). The order of its parts, on which the latches
and LINE_CHANGE depend, and that a status already STARTING raises nothing, are the model's reading (log entry 6). -/
def Obligations.StationReset : Prop :=
  ∀ s : State, windowDead .L s = false → EngineInv s →
    ∃ t, exec (.stationReset .L) s = .next t ∧
      t.clock = s.clock ∧ t.upstream = s.upstream ∧ t.pending = s.pending ∧
      (∀ p, bufferOf p t = none ∧ ∀ w, (t.ports.port.get p).window = some w → w.discard = true) ∧
      (t.stage.cfg = s.stage.cfg ∧ t.stage.count = s.stage.count ∧ t.stage.signal = s.stage.signal ∧
        t.stage.lastN = s.stage.lastN ∧ t.stage.stilled = s.stage.stilled ∧
        t.stage.status = .starting ∧ t.stage.window = [] ∧ t.stage.anchor = none ∧
        t.stage.runLength = 0 ∧ t.stage.disagree = 0 ∧ t.stage.fLast = none ∧ t.stage.pLast = none ∧
        t.stage.encoderError = false ∧ t.stage.rise = none ∧
        t.stage.sampleDue = nowMs s + s.stage.cfg.period * 1000 ∧
        t.stage.fJudgement = .none ∧ t.stage.stamp = s.stage.stamp ∧
        t.stage.sampleUptime = s.stage.sampleUptime ∧ t.stage.gateCount = 0 ∧
        t.stage.stilledOver = s.stage.stilledOver ∧
        (s.stage.status ≠ .starting → PendingWhereRouted 3 t)) ∧
      IntervalTakes true s t ∧
      (t.history.ring = s.history.ring ∧ t.history.mark = s.history.mark ∧
        t.history.nextSeq = s.history.nextSeq ∧ t.history.interval = s.history.interval ∧
        t.history.cursors = s.history.cursors ∧ t.history.thresholds = s.history.thresholds ∧
        t.history.worst = worseStatus s.history.worst .starting) ∧
      (t.rating.active = s.rating.active ∧ t.rating.version = s.rating.version ∧
        t.rating.staged = s.rating.staged ∧ t.rating.shift = s.rating.shift ∧
        t.rating.limit = s.rating.limit ∧ t.rating.stageUsed = s.stage.stilled ∧
        t.rating.current = s.rating.dischargeFor s.stage.stilled) ∧
      (t.plan.pool = s.plan.pool ∧ t.plan.meters = s.plan.meters ∧ t.plan.order = s.plan.order ∧
        t.plan.priority = s.plan.priority ∧ t.plan.fetched = s.plan.fetched ∧
        t.plan.activeSlot = none ∧ t.plan.previousStage = s.stage.stilled ∧
        ∀ k, k < 4 → (slotAt t k).definition = (slotAt s k).definition ∧
          (slotAt t k).armed = false ∧ (slotAt t k).timer = .stopped ∧
          ((slotAt s k).definition.trigger.isLevel = false → (slotAt t k).request = false) ∧
          (∀ h, (slotAt s k).definition.trigger = .stageRise h .level →
            ((slotAt t k).request = true ↔ ∃ z, s.stage.stilled = some z ∧ h ≤ z)) ∧
          ∀ l, (slotAt s k).definition.trigger = .warningLevel l .level →
            ((slotAt t k).request = true ↔ LevelReached l s t)) ∧
      (Entered (if s.engine.state = .tripped then .tripped else .idle) t ∧ EngineInv t ∧ RecordsKept s t ∧
        t.engine.trip = s.engine.trip ∧
        (s.engine.state.runActive = true → RunEnded .reset s t) ∧
        (s.engine.state.runActive = false → t.engine.lastEnd = s.engine.lastEnd) ∧
        ClosesOpenPass s.stage.status .reset s t) ∧
      (t.warning.criteria = s.warning.criteria ∧ t.warning.floor = s.warning.floor ∧
        t.warning.retreatStage = s.warning.retreatStage ∧
        t.warning.retreatLevel = s.warning.retreatLevel ∧
        let i : EvalInputs := ⟨s.stage.stilled, .starting, none, t.rating.current.discharge, nowMs s⟩
        let w := { s.warning with dwell := .stopped }
        let demand := (formDemand i w).demanded
        Evaluated i w t ∧ t.warning.demanded = demand ∧
        t.notices.beyondRating = (t.rating.current.mark == .above || t.rating.current.mark == .aboveLimit) ∧
        (demand ≤ s.warning.level →
          t.warning.level = s.warning.level ∧ t.warning.silence = s.warning.silence ∧
            (OutputsFormed s → t.warning.outputs = s.warning.outputs ∧
              t.lines.warnKept = s.lines.warnKept)) ∧
        (demand < s.warning.level → t.warning.dwell = .held (s.warning.criteria.dwell * 60000)) ∧
        (s.warning.level ≤ demand → t.warning.dwell = .stopped ∧ t.warning.level = demand)) ∧
      (∀ i, i < 16 → (lineAt t i).function = (lineAt s i).function ∧
        (lineAt t i).direction = (lineAt s i).direction ∧
        (lineAt t i).polarity = (lineAt s i).polarity ∧ (lineAt t i).pullUp = (lineAt s i).pullUp ∧
        (lineAt t i).latch = (lineAt s i).latch ∧ (lineAt t i).arm = (lineAt s i).arm ∧
        (lineAt t i).forced = (lineAt s i).forced ∧
        (t.lines.presented (lineAt t i) = s.lines.presented (lineAt s i) → (lineAt t i).pin = (lineAt s i).pin) ∧
        (t.lines.presented (lineAt t i) ≠ s.lines.presented (lineAt s i) →
          (lineAt t i).pin = t.lines.pinLevel (lineAt t i)) ∧
        ((lineAt s i).arm = false ∨ lineMoved s.lines t.lines i = false ∨
            ((lineAt s i).function ≠ .permitOut ∧ ∀ k, (lineAt s i).function = .warnOut k →
              at' t.lines.warnKept k = at' s.lines.warnKept k) →
          (lineAt t i).changed = false)) ∧
      t.notices.routes = s.notices.routes ∧
      ∀ p, (t.notices.port.get p).enables = (s.notices.port.get p).enables ∧
        (t.notices.port.get p).master = false ∧ (t.notices.port.get p).oneShot = false ∧
        (t.notices.port.get p).attention = false ∧
        (∀ c k, (c, k) ∈ conditionNumbers → (t.notices.port.get p).pendingSet.getLsbD k =
          (s.notices.routed k p && t.notices.holds c)) ∧
        (t.notices.port.get p).historyReady = (s.notices.port.get p).historyReady ∧
        (t.notices.port.get p).pendingSet.getLsbD 18 =
          (s.notices.routed 18 p && (s.notices.port.get p).historyReady) ∧
        ((t.notices.port.get p).pendingSet.getLsbD 17 = true ↔
          s.notices.routed 17 p = true ∧ ∃ i, i < 16 ∧ lineMoved s.lines t.lines i = true) ∧
        (∀ k raised, (k, raised) ∈ [(0, decide (s.warning.level < t.warning.level)),
            (3, s.stage.status != .starting), (12, s.engine.passOpen), (13, s.engine.state.runActive)] →
          (t.notices.port.get p).pendingSet.getLsbD k = (s.notices.routed k p && raised)) ∧
        ∀ k, k ∈ [1, 4, 5, 6, 8, 9, 15, 16, 19] → (t.notices.port.get p).pendingSet.getLsbD k = false

/-! ## Clocks (R3, R4, R27 to R30) -/

/-- SET_CLOCK, the advance of uptime, and the station clock's advance with the record that a boundary appends,
the cursors and the history thresholds standing and each HISTORY_READY judged again (R3, R4, R27 to R31, R36).
Each advance of the station clock takes its second from the milliseconds since the last one; what an advance
that is sent before its time makes of the milliseconds is the model's choice (log entry 1). -/
def Obligations.ClockCommands : Prop :=
  (∀ (p : Port) (v : Nat) (s : State), Takes p 0x02 s →
    (v ≤ 4294967295 → exec (.setClock p v) s = .next (setReply p ⟨.ok, u32 s.clock.clock⟩
      { closeWindow p s with clock := { s.clock with clock := v, clockPhase := 0 } })) ∧
    (4294967295 < v → Refuses (.setClock p v) p s ⟨.range, []⟩)) ∧
  ∀ s : State, s.ports.por = false →
    (∃ c, exec .uptimeAdvance s = .next { s with clock := c } ∧ c.clock = s.clock.clock ∧ c.phase = 0 ∧
      c.clockPhase = s.clock.clockPhase + (1000 - s.clock.phase) ∧
      (s.clock.uptime < 4294967295 → c.uptime = s.clock.uptime + 1) ∧
      (4294967295 ≤ s.clock.uptime → c.uptime = s.clock.uptime)) ∧
    (4294967295 ≤ s.clock.clock ∨ (s.clock.clock + 1) % (s.history.interval * 60) ≠ 0 ∨
        s.clock.clock + 1 ≤ s.history.mark →
      exec .stationClockAdvance s = .next { s with clock := { s.clock with
        clock := if s.clock.clock < 4294967295 then s.clock.clock + 1 else s.clock.clock
        clockPhase := s.clock.clockPhase - 1000 } }) ∧
    (s.clock.clock < 4294967295 → (s.clock.clock + 1) % (s.history.interval * 60) = 0 →
        s.history.mark < s.clock.clock + 1 →
      ∃ t, exec .stationClockAdvance s = .next t ∧ t.clock = { s.clock with
          clock := s.clock.clock + 1, clockPhase := s.clock.clockPhase - 1000 } ∧
        KeepsBut [.clock, .history, .notices] s t ∧
        t.history.ring =
          (if s.history.ring.length < 96 then s.history.ring else s.history.ring.drop 1) ++
            [⟨s.history.nextSeq, s.clock.clock + 1, s.stage.stilled, s.history.peak, s.history.worst,
              s.rating.current.discharge, s.rating.current.mark, s.history.highest⟩] ∧
        t.history.nextSeq = s.history.nextSeq + 1 ∧ t.history.mark = s.clock.clock + 1 ∧
        t.history.cursors = s.history.cursors ∧ t.history.interval = s.history.interval ∧
        t.history.thresholds = s.history.thresholds ∧ NoticesKeptBut [18] s t ∧
        t.history.peak = s.stage.stilled ∧ t.history.worst = s.stage.status ∧
        t.history.highest = s.warning.level ∧
        ∀ p, (t.notices.port.get p).historyReady =
          decide (s.history.thresholds.get p ≤ t.history.unread (s.history.cursors.get p)))

/-- No request changes the uptime count or its phase, and none but SET_CLOCK changes the station clock (R3,
R4). -/
def Obligations.ClockOwners : Prop :=
  ∀ (i : Instr) (p : Port) (s t : State), i.port? = some p → exec i s = .next t →
    t.clock.uptime = s.clock.uptime ∧ t.clock.phase = s.clock.phase ∧
      ((∀ q v, i ≠ .setClock q v) → t.clock = s.clock)

/-! ## Stage measurement (chapter 1) -/

/-- A change of the encoder phases counts up, down or not at all, and an illegal one sets the mark; a pulse
within the gate, the 1,000 ms that end at the expiry of the sample timer, is counted up to 65,535, and one
before it is not (R6, R7, R11). At the gate's very first millisecond, which R11 does not place, the command's
`edge` says which it is (log entry 17). -/
def Obligations.FieldInputs : Prop :=
  (∀ (a b : Level) (s : State), s.ports.por = false →
    ∃ u, exec (.encoderPhaseChange a b) s = .next { s with stage := u } ∧
      { u with count := s.stage.count, encoderError := s.stage.encoderError } =
        { s.stage with phaseA := a, phaseB := b } ∧
      ((a, b) = nextRising (s.stage.phaseA, s.stage.phaseB) → u.encoderError = s.stage.encoderError ∧
        u.count = if s.stage.count < 2147483647 then s.stage.count + 1 else s.stage.count) ∧
      ((s.stage.phaseA, s.stage.phaseB) = nextRising (a, b) → u.encoderError = s.stage.encoderError ∧
        u.count = if -2147483648 < s.stage.count then s.stage.count - 1 else s.stage.count) ∧
      (a ≠ s.stage.phaseA → b ≠ s.stage.phaseB → u.count = s.stage.count ∧ u.encoderError = true) ∧
      (a = s.stage.phaseA → b = s.stage.phaseB → u = s.stage)) ∧
  ∀ (edge : Bool) (s : State), s.ports.por = false →
    (nowMs s + 1000 < s.stage.sampleDue ∨ (nowMs s + 1000 = s.stage.sampleDue ∧ edge = false) →
      exec (.pPulse edge) s = .next s) ∧
    (s.stage.sampleDue < nowMs s + 1000 ∨ (nowMs s + 1000 = s.stage.sampleDue ∧ edge = true) →
      (s.stage.gateCount < 65535 → exec (.pPulse edge) s =
        .next { s with stage := { s.stage with gateCount := s.stage.gateCount + 1 } }) ∧
      (s.stage.gateCount = 65535 → exec (.pPulse edge) s = .next s))

/-- The judgement of a float value against the anchor and the candidate run (R9, R10). -/
def Obligations.FloatJudgement : Prop :=
  ∀ (u : StageUnit) (v : Int),
    (u.anchor = none → u.judgeF v =
      ({ u with fJudgement := .accepted, anchor := some v, runLength := 0 }, false)) ∧
    (∀ a, u.anchor = some a →
      ((v - a).natAbs ≤ u.cfg.fMaxStep → u.judgeF v =
        ({ u with fJudgement := .accepted, anchor := some v, runLength := 0 }, false)) ∧
      (u.cfg.fMaxStep < (v - a).natAbs →
        (u.runLength = 0 ∨ u.cfg.fMaxStep < (v - u.runValue).natAbs → u.judgeF v =
          ({ u with fJudgement := .rejected, runLength := 1, runValue := v }, true)) ∧
        (u.runLength = 1 → (v - u.runValue).natAbs ≤ u.cfg.fMaxStep → u.judgeF v =
          ({ u with fJudgement := .rejected, runLength := 2, runValue := v }, false)) ∧
        (u.runLength = 2 → (v - u.runValue).natAbs ≤ u.cfg.fMaxStep → u.judgeF v =
          ({ u with fJudgement := .reanchored, anchor := some v, runLength := 0 }, true))))

/-- A stage sample: the conversion of both channels, the judgement of a valid float value (R9, R10), the gate's
end and signal state, the status and the disagreement counter, the window, the stilled stage, rise, the stamps,
the notices it raises, and the offer with what its users make of it: the current discharge with BEYOND_RATING,
the evaluation, the open interval, the slots, and the run that follows: a retreat that comes into force recalls
it; from IDLE the first slot of the order list that asks is taken, at the evaluation or at the offer; otherwise
the run, its results, the permit and the rest of the plan stay. The lines follow the permit and the driven
values (R5 to R8, R11 to R21, R28, R49, R50, R69, R70, R142 to R149; R76, R77, R90 to R93, R109, R176, R181,
R182, R184). That a held dwell with no time left which a current sample resumes falls within that evaluation at
once is the model's reading (log entry 9). That the evaluation's take comes before the slots are judged for the
offer is the model's reading (log entry 5), as is a single attempt at a change of the level (log entry 10); what
a first fetch from an EMPTY plan reads is its choice (log entry 20). -/
def Obligations.StageSample : Prop :=
  ∀ s : State, s.ports.por = false →
    ∃ t, exec .stageSample s = .next t ∧
      KeepsBut [.stage, .history, .rating, .plan, .engine, .results, .warning, .lines, .notices] s t ∧
      t.stage.cfg = s.stage.cfg ∧ t.stage.count = s.stage.count ∧ t.stage.encoderError = false ∧
      t.stage.phaseA = s.stage.phaseA ∧ t.stage.phaseB = s.stage.phaseB ∧
      t.stage.gateCount = 0 ∧ t.stage.lastN = s.stage.gateCount ∧ t.stage.stamp = s.clock.clock ∧
      t.stage.sampleUptime = s.clock.uptime ∧
      t.stage.sampleDue = nowMs s + s.stage.cfg.period * 1000 ∧
      (s.stage.cfg.fEnable = false ∨ s.stage.encoderError = true →
        t.stage.fJudgement = .invalid ∧ t.stage.fLast = s.stage.fLast ∧
        t.stage.anchor = s.stage.anchor ∧ t.stage.runLength = s.stage.runLength ∧
        t.stage.runValue = s.stage.runValue ∧ PendingAsBefore 5 s t) ∧
      (s.stage.cfg.fEnable = true → s.stage.encoderError = false →
        let raw := roundDiv (s.stage.count * s.stage.cfg.fStep) 1000
        let sum := s.stage.cfg.fOffset + raw
        let judged := s.stage.judgeF (clamp (-1000) 15000 sum)
        t.stage.fLast = some
          ⟨clamp (-1000) 15000 sum, raw, decide (sum < -1000) || decide (15000 < sum)⟩ ∧
        t.stage.fJudgement = judged.1.fJudgement ∧ t.stage.anchor = judged.1.anchor ∧
        t.stage.runLength = judged.1.runLength ∧ t.stage.runValue = judged.1.runValue ∧
        (judged.2 = true → PendingWhereRouted 5 t) ∧ (judged.2 = false → PendingAsBefore 5 s t)) ∧
      (s.stage.cfg.pEnable = true → s.stage.cfg.pMin ≤ s.stage.gateCount →
        let raw := roundDiv (((s.stage.gateCount : Int) - s.stage.cfg.pZero) * s.stage.cfg.pGain) 65536
        let sum := s.stage.cfg.pOffset + raw
        t.stage.signal = .present ∧ t.stage.pLast = some
          ⟨clamp (-1000) 15000 sum, raw, decide (sum < -1000) || decide (15000 < sum)⟩) ∧
      (s.stage.cfg.pEnable = true → s.stage.gateCount < s.stage.cfg.pMin →
        t.stage.signal = .loss ∧ t.stage.pLast = s.stage.pLast) ∧
      (s.stage.cfg.pEnable = false → t.stage.signal = .none ∧ t.stage.pLast = s.stage.pLast) ∧
      ((s.stage.signal = .present ∧ t.stage.signal = .loss) ∨
        (s.stage.signal = .loss ∧ t.stage.signal = .present) → PendingWhereRouted 4 t) ∧
      (s.stage.signal = .none ∨ t.stage.signal = .none ∨ s.stage.signal = t.stage.signal →
        PendingAsBefore 4 s t) ∧
      t.stage.disagree =
        (if t.stage.status = .suspect then min 255 (s.stage.disagree + 1) else 0) ∧
      (s.stage.disagree < s.stage.cfg.disagreeLimit → t.stage.disagree = s.stage.cfg.disagreeLimit →
        PendingWhereRouted 6 t) ∧
      (t.stage.disagree ≠ s.stage.cfg.disagreeLimit ∨ s.stage.disagree = t.stage.disagree →
        PendingAsBefore 6 s t) ∧
      (1 ≤ s.stage.cfg.riseWindow → t.stage.rise =
        match t.stage.stilled,
          (s.history.ring.reverse[s.stage.cfg.riseWindow - 1]?).bind IntervalRecord.stage with
        | some z, some b => some (z - b)
        | _, _ => none) ∧
      (let f : Option LastValue :=
          if t.stage.fJudgement = .accepted ∨ t.stage.fJudgement = .reanchored then t.stage.fLast else none
       let p : Option LastValue :=
          if s.stage.cfg.pEnable = true ∧ s.stage.cfg.pMin ≤ s.stage.gateCount then t.stage.pLast else none
       (∀ a b, f = some a → p = some b → t.stage.status =
          if (a.value - b.value).natAbs ≤ s.stage.cfg.tolerance then .good else .suspect) ∧
       (∀ a, f = some a → p = none → t.stage.status = .single) ∧
       (∀ b, f = none → p = some b → t.stage.status = .single) ∧
       (f = none → p = none → t.stage.status = .lost ∧ t.stage.window = s.stage.window ∧
          t.stage.stilled = s.stage.stilled ∧ t.stage.stilledOver = s.stage.stilledOver) ∧
       (∀ v, (match s.stage.cfg.preferred with
            | .f => f.or p
            | .p => p.or f) = some v → 1 ≤ s.stage.cfg.windowLength →
          s.stage.window.length ≤ s.stage.cfg.windowLength →
          t.stage.window = (if s.stage.window.length = s.stage.cfg.windowLength
            then s.stage.window.drop 1 else s.stage.window) ++ [v.value] ∧
          t.stage.stilled = some (roundDiv t.stage.window.sum t.stage.window.length) ∧
          t.stage.stilledOver = v.overRange)) ∧
      (s.stage.status ≠ t.stage.status → PendingWhereRouted 3 t) ∧
      (s.stage.status = t.stage.status → PendingAsBefore 3 s t) ∧
      t.plan.previousStage = t.stage.stilled ∧
      RatedAndEvaluated s.rating t.stage.stilled t.stage.status t.stage.rise s t ∧
      SlotsJudged true none s t ∧ RunFollows [3, 4, 5, 6, 7] true none s t ∧ IntervalTakes true s t

/-- CONFIGURE_STAGE: its ranges, and what a taken one replaces, clears and keeps, with the offer that follows:
the current discharge with BEYOND_RATING, the evaluation, the open interval and the slots, and the run that
follows: a retreat that comes into force recalls it; from IDLE the first slot of the order list that asks is
taken, at the evaluation; otherwise the run, its results, the permit and the rest of the plan stay. The lines
follow the permit and the driven values (R16, R20, R22, R23, R28, R49, R50, R69, R142 to R149; R76, R77, R90 to
R93, R109, R176, R181, R182, R184). STARTING lets no slot be taken (R76). The order of the two values in a field
is the model's reading (log entry 11). That the evaluation's take comes before the slots are judged for the
offer is the model's reading (log entry 5), as is a single attempt at a change of the level (log entry 10); what
a first fetch from an EMPTY plan reads is its choice (log entry 20). -/
def Obligations.ConfigureStage : Prop :=
  (∀ a : StageArgs, (stageConfigOf a).isSome = true ↔
    a.fEnable ≤ 1 ∧ a.pEnable ≤ 1 ∧ a.preferred ≤ 1 ∧ -20000 ≤ a.fOffset ∧ a.fOffset ≤ 20000 ∧
    1 ≤ a.fStep ∧ a.fStep ≤ 10000 ∧ 1 ≤ a.fMaxStep ∧ a.fMaxStep ≤ 2000 ∧ -20000 ≤ a.pOffset ∧
    a.pOffset ≤ 20000 ∧ 1 ≤ a.pGain ∧ a.pGain ≤ 16777215 ∧ a.pZero ≤ 65535 ∧ 1 ≤ a.pMin ∧
    a.pMin ≤ 65535 ∧ 1 ≤ a.tolerance ∧ a.tolerance ≤ 500 ∧ 1 ≤ a.disagreeLimit ∧
    a.disagreeLimit ≤ 255 ∧ 1 ≤ a.windowLength ∧ a.windowLength ≤ 32 ∧ 1 ≤ a.period ∧ a.period ≤ 60 ∧
    1 ≤ a.riseWindow ∧ a.riseWindow ≤ 8) ∧
  ∀ (p : Port) (a : StageArgs) (s : State), Takes p 0x05 s →
    (stageConfigOf a = none →
      Refuses (.configureStage p a) p s ⟨.range, []⟩) ∧
    (∀ c, stageConfigOf a = some c →
      c = {
        fEnable := decide (a.fEnable = 0), pEnable := decide (a.pEnable = 0)
        preferred := if a.preferred = 0 then .f else .p
        fOffset := a.fOffset, fStep := a.fStep, fMaxStep := a.fMaxStep, pOffset := a.pOffset
        pGain := a.pGain, pZero := a.pZero, pMin := a.pMin, tolerance := a.tolerance
        disagreeLimit := a.disagreeLimit, windowLength := a.windowLength, period := a.period
        riseWindow := a.riseWindow } ∧
      ∃ t, exec (.configureStage p a) s = .next (setReply p ⟨.ok, []⟩ t) ∧
        t.stage = { s.stage with
          cfg := c, fLast := none, pLast := none, fJudgement := .none, signal := .none, rise := none,
          window := [], anchor := none, runLength := 0, disagree := 0, status := .starting,
          gateCount := 0, sampleDue := nowMs s + c.period * 1000 } ∧
        (s.stage.status ≠ .starting → PendingWhereRouted 3 t) ∧
        SlotsJudged true none s t ∧ RunFollows [3, 7] true none s t ∧ IntervalTakes true s t ∧
        t.plan.previousStage = s.stage.stilled ∧
        RatedAndEvaluated s.rating s.stage.stilled .starting none s t ∧
        KeepsBut [.stage, .history, .rating, .plan, .engine, .results, .warning, .lines, .notices]
          (closeWindow p s) t)

/-- CHECK_GAUGE on either channel: the new offset, its refusals, and what it clears, with the offer that
follows: the current discharge with BEYOND_RATING, the evaluation, the open interval and the slots, and the run
that follows: a retreat that comes into force recalls it; from IDLE the first slot of the order list that asks
is taken, at the evaluation; otherwise the run, its results, the permit and the rest of the plan stay. The lines
follow the permit and the driven values (R16, R20, R24, R28, R49, R50, R69, R142 to R149; R76, R77, R90 to R93,
R109, R176, R181, R182, R184). STARTING lets no slot be taken (R76). That the evaluation's take comes before the
slots are judged for the offer is the model's reading (log entry 5), as is a single attempt at a change of the
level (log entry 10); what a first fetch from an EMPTY plan reads is its choice (log entry 20). -/
def Obligations.CheckGauge : Prop :=
  ∀ (p : Port) (reading : Int) (s : State), Takes p 0x06 s →
    (∀ channel, 1 < channel ∨ reading < -1000 ∨ 15000 < reading →
      Refuses (.checkGauge p channel reading) p s ⟨.range, []⟩) ∧
    (-1000 ≤ reading → reading ≤ 15000 →
      (s.stage.fLast = none →
        Refuses (.checkGauge p 0 reading) p s ⟨.state, []⟩) ∧
      (s.stage.pLast = none →
        Refuses (.checkGauge p 1 reading) p s ⟨.state, []⟩) ∧
      (∀ v, s.stage.fLast = some v → reading - v.raw < -20000 ∨ 20000 < reading - v.raw →
        Refuses (.checkGauge p 0 reading) p s ⟨.range, []⟩) ∧
      (∀ v, s.stage.pLast = some v → reading - v.raw < -20000 ∨ 20000 < reading - v.raw →
        Refuses (.checkGauge p 1 reading) p s ⟨.range, []⟩) ∧
      (∀ v, s.stage.fLast = some v → -20000 ≤ reading - v.raw → reading - v.raw ≤ 20000 →
        ∃ t, exec (.checkGauge p 0 reading) s = .next (setReply p ⟨.ok, i16 (reading - v.raw)⟩ t) ∧
          t.stage = { s.stage with
            cfg := { s.stage.cfg with fOffset := reading - v.raw }, fLast := some ⟨reading, v.raw, false⟩,
            window := [], anchor := none, runLength := 0, disagree := 0, status := .starting } ∧
          (s.stage.status ≠ .starting → PendingWhereRouted 3 t) ∧
          SlotsJudged true none s t ∧ RunFollows [3, 7] true none s t ∧ IntervalTakes true s t ∧
          t.plan.previousStage = s.stage.stilled ∧
          RatedAndEvaluated s.rating s.stage.stilled .starting s.stage.rise s t ∧
          KeepsBut [.stage, .history, .rating, .plan, .engine, .results, .warning, .lines, .notices]
            (closeWindow p s) t) ∧
      (∀ v, s.stage.pLast = some v → -20000 ≤ reading - v.raw → reading - v.raw ≤ 20000 →
        ∃ t, exec (.checkGauge p 1 reading) s = .next (setReply p ⟨.ok, i16 (reading - v.raw)⟩ t) ∧
          t.stage = { s.stage with
            cfg := { s.stage.cfg with pOffset := reading - v.raw }, pLast := some ⟨reading, v.raw, false⟩,
            window := [], anchor := none, runLength := 0, disagree := 0, status := .starting } ∧
          (s.stage.status ≠ .starting → PendingWhereRouted 3 t) ∧
          SlotsJudged true none s t ∧ RunFollows [3, 7] true none s t ∧ IntervalTakes true s t ∧
          t.plan.previousStage = s.stage.stilled ∧
          RatedAndEvaluated s.rating s.stage.stilled .starting s.stage.rise s t ∧
          KeepsBut [.stage, .history, .rating, .plan, .engine, .results, .warning, .lines, .notices]
            (closeWindow p s) t))

/-! ## History (chapter 2) -/

/-- READ_HISTORY returns the records from the port's cursor on, reports the gap and moves the cursor past them
when asked; nothing but the port's own HISTORY_READY changes of the notices (R31, R32, R36). The layout of its
reply is the model's reading (log entry 11): the list's own count as the number of records, a mask inside each
record, cursor and unread count after an OK reply's records only, EMPTY with the cursor and the next sequence
number only, and advance coded 0 for yes. -/
def Obligations.ReadHistory : Prop :=
  ∀ (p : Port) (maximum advance : Nat) (s : State), Takes p 0x10 s → StoreInv s →
    (maximum = 0 ∨ 4 < maximum ∨ 1 < advance →
      Refuses (.readHistory p maximum advance) p s ⟨.range, []⟩) ∧
    (1 ≤ maximum → maximum ≤ 4 → advance ≤ 1 →
      let cursor := s.history.cursors.get p
      let ahead := s.history.ring.filter fun r => cursor ≤ r.seq
      (ahead = [] → ∃ t, exec (.readHistory p maximum advance) s =
          .next (setReply p ⟨.empty, u32 cursor ++ u32 s.history.nextSeq⟩ t) ∧
        KeepsBut [.notices] (closeWindow p s) t ∧ NoticesKeptBut [18] s t ∧
        ∀ q, q ≠ p → t.notices.port.get q = s.notices.port.get q) ∧
      (∀ first rest, ahead = first :: rest →
        let records := ahead.take maximum
        let after := if advance = 0 then first.seq + records.length else first.seq
        let left := (s.history.ring.filter fun r => after ≤ r.seq).length
        ∃ t, exec (.readHistory p maximum advance) s = .next (setReply p
            ⟨.ok, u16 (min 65535 (first.seq - cursor)) ++ u8 records.length
              ++ (records.map recordData).flatten ++ u32 after ++ u8 left⟩ t) ∧
          KeepsBut [.history, .notices] (closeWindow p s) t ∧
          t.history = { s.history with cursors := s.history.cursors.set p after } ∧
          NoticesKeptBut [18] s t ∧ (∀ q, q ≠ p → t.notices.port.get q = s.notices.port.get q) ∧
          (t.notices.port.get p).historyReady = decide (s.history.thresholds.get p ≤ left)))

/-- SEEK_HISTORY, SET_HISTORY_THRESHOLD and SET_HISTORY_INTERVAL, with the port's own HISTORY_READY and no other
notice (R34 to R36). -/
def Obligations.HistorySettings : Prop :=
  ∀ (p : Port) (s : State),
    (Takes p 0x11 s → ∀ (target : SeekTarget) (c : Nat),
      (target = .oldest ∧ (∀ r, s.history.ring.head? = some r → c = r.seq) ∧
          (s.history.ring = [] → c = s.history.nextSeq)) ∨
        (target = .newestNext ∧ c = s.history.nextSeq) ∨
        (target = .sequence c ∧ ∃ a b, s.history.oldest = some a ∧ s.history.newest = some b ∧
          a ≤ c ∧ c ≤ b) →
      ∃ t, exec (.seekHistory p target) s =
          .next (setReply p ⟨.ok, u32 c ++ u8 (s.history.unread c)⟩ t) ∧
        KeepsBut [.history, .notices] (closeWindow p s) t ∧
        t.history = { s.history with cursors := s.history.cursors.set p c } ∧
        NoticesKeptBut [18] s t ∧ (∀ q, q ≠ p → t.notices.port.get q = s.notices.port.get q) ∧
        (t.notices.port.get p).historyReady =
          decide (s.history.thresholds.get p ≤ s.history.unread c)) ∧
    (Takes p 0x11 s →
      (∀ c, s.history.ring = [] ∨
          (∃ r, s.history.ring.head? = some r ∧ c < r.seq) ∨
          (∃ r, s.history.ring.getLast? = some r ∧ r.seq < c) →
        Refuses (.seekHistory p (.sequence c)) p s ⟨.range, []⟩) ∧
      ∀ k, Refuses (.seekHistory p (.unknown k)) p s ⟨.range, []⟩) ∧
    (Takes p 0x13 s → ∀ n,
      (n = 0 ∨ 96 < n → Refuses (.setHistoryThreshold p n) p s ⟨.range, []⟩) ∧
      (1 ≤ n → n ≤ 96 → ∃ t, exec (.setHistoryThreshold p n) s =
          .next (setReply p ⟨.ok, u8 (s.history.unread (s.history.cursors.get p))⟩ t) ∧
        KeepsBut [.history, .notices] (closeWindow p s) t ∧
        t.history = { s.history with thresholds := s.history.thresholds.set p n } ∧
        NoticesKeptBut [18] s t ∧ (∀ q, q ≠ p → t.notices.port.get q = s.notices.port.get q) ∧
        (t.notices.port.get p).historyReady =
          decide (n ≤ s.history.unread (s.history.cursors.get p)))) ∧
    (Takes p 0x14 s → ∀ n,
      (n = 5 ∨ n = 10 ∨ n = 15 ∨ n = 30 ∨ n = 60 → exec (.setHistoryInterval p n) s =
        .next (setReply p ⟨.ok, u8 s.history.interval⟩
          { closeWindow p s with history := { s.history with interval := n } })) ∧
      (¬ (n = 5 ∨ n = 10 ∨ n = 15 ∨ n = 30 ∨ n = 60) →
        Refuses (.setHistoryInterval p n) p s ⟨.range, []⟩))

/-! ## Rating (chapter 3) -/

/-- R1: the quotient is rounded to the nearest whole number, exact halves away from zero, and a clamped value
takes the end of the range it lies beyond. -/
def Obligations.RoundToNearest : Prop :=
  (∀ (a : Int) (b : Nat), 0 < b →
    2 * (roundDiv a b * b - a).natAbs ≤ b ∧
    (2 * (roundDiv a b * b - a).natAbs = b → a.natAbs < (roundDiv a b * b).natAbs)) ∧
  ∀ lo hi z : Int, lo ≤ hi →
    (z < lo → clamp lo hi z = lo) ∧ (hi < z → clamp lo hi z = hi) ∧
    (lo ≤ z → z ≤ hi → clamp lo hi z = z)

/-- The rating read at an effective stage: below the table, along a segment, beyond the table, with its range
and order; and the inverse rating, present exactly within the table's discharges, lying within its stages and
formed along the first rising segment that reaches the discharge; and the discharge for a stage, read at the
stage plus the shift, or absent (R46, R47, R52). -/
def Obligations.RatingReads : Prop :=
  (∀ (r : RatingUnit) (h : Int),
    (r.active = [] → ∀ stage, r.dischargeFor stage = ⟨none, .none, 0, none⟩) ∧
    (r.active ≠ [] → r.dischargeFor none = ⟨none, .none, r.version, none⟩) ∧
    (∀ q m, readTable r.active r.limit (h + r.shift) = some (q, m) →
      r.dischargeFor (some h) = ⟨some q, m, r.version, some (h + r.shift)⟩)) ∧
  (∀ (table : List Breakpoint) (limit : Nat), ValidTable table →
    (∀ he, ∃ q mark, readTable table limit he = some (q, mark) ∧ q ≤ 4000000) ∧
    (∀ first rest he, table = first :: rest → he ≤ first.h →
      readTable table limit he = some (first.q, .below)) ∧
    (∀ first rest b, table = first :: rest → b ∈ rest → readTable table limit b.h = some (b.q, .none)) ∧
    (∀ before a b after (he : Int), table = before ++ a :: b :: after → a.h < he → he ≤ b.h →
      readTable table limit he = some ((a.q +
        roundDiv (((b.q : Int) - a.q) * (he - a.h)) (b.h - a.h).toNat).toNat, .none)) ∧
    (∀ before a last (he : Int), table = before ++ [a, last] → last.h < he →
      ∃ q, last.q ≤ q ∧
        q = (min 4000000 (last.q + roundDiv (((last.q : Int) - a.q) *
          (min he (last.h + limit) - last.h)) (last.h - a.h).toNat)).toNat ∧
        readTable table limit he = some (q, if he ≤ last.h + limit then .above else .aboveLimit)) ∧
    (∀ he he' q q' m m', he ≤ he' → readTable table limit he = some (q, m) →
      readTable table limit he' = some (q', m') → q ≤ q')) ∧
  ∀ (table : List Breakpoint) (first last : Breakpoint) (rest : List Breakpoint) (q : Nat),
    ValidTable table → table = first :: rest → table.getLast? = some last →
    (q < first.q ∨ last.q < q → inverseRating table q = none) ∧
    (first.q ≤ q → q ≤ last.q → ∃ h, inverseRating table q = some h ∧ first.h ≤ h ∧ h ≤ last.h) ∧
    (∀ second tail, rest = second :: tail → q = first.q → second.q = first.q →
      inverseRating table q = some first.h) ∧
    ∀ before a b after, table = before ++ a :: b :: after → a.q < q ∨ (a.q = q ∧ before = []) →
      q ≤ b.q → a.q < b.q → inverseRating table q =
        some (a.h + roundDiv (((q : Int) - a.q) * (b.h - a.h)) (b.q - a.q))

/-- WRITE_STAGED_POINT and CLEAR_STAGED (R40, R41). -/
def Obligations.StagedTable : Prop :=
  (∀ (p : Port) (index q : Nat) (h : Int) (s : State), Takes p 0x24 s →
    (index ≤ 23 → -1000 ≤ h → h ≤ 15000 → q ≤ 4000000 →
      ∃ r, r.staged = s.rating.staged.setIfInBounds index (some ⟨h, q⟩) ∧
        { r with staged := s.rating.staged } = s.rating ∧
        exec (.writeStagedPoint p index h q) s = .next (setReply p ⟨.ok, u8 (stagedCount r.staged)⟩
          { closeWindow p s with rating := r })) ∧
    (23 < index ∨ h < -1000 ∨ 15000 < h ∨ 4000000 < q →
      Refuses (.writeStagedPoint p index h q) p s ⟨.range, []⟩)) ∧
  (∀ (p : Port) (s : State), Takes p 0x25 s →
    ∃ r, (∀ x ∈ r.staged.toList, x = none) ∧ stagedCount r.staged = 0 ∧
      { r with staged := s.rating.staged } = s.rating ∧
      exec (.clearStaged p) s = .next (setReply p ⟨.ok, u8 (stagedCount s.rating.staged)⟩
        { closeWindow p s with rating := r })) ∧
  ∀ (staged : Vector (Option Breakpoint) 24),
    (∀ i, i < 24 → (at' staged i).isSome = true → i < stagedCount staged) ∧
    (stagedCount staged ≠ 0 → (at' staged (stagedCount staged - 1)).isSome = true)

/-- INSTALL_RATING: when the check passes, the kind and the index of its first failure, coded in the order of
R42's table, and what an install makes active, with the current discharge, BEYOND_RATING and the evaluation that
it brings, the open interval and the slots, and the run that follows: a retreat that comes into force recalls
it; from IDLE the first slot of the order list that asks is taken, at the evaluation; otherwise the run, its
results, the permit and the rest of the plan stay. The lines follow the permit and the driven values (R28, R42,
R43, R49, R50, R70, R142 to R149; R76, R77, R90 to R93, R109, R176, R181, R182, R184; a resumed dwell with no
time left: log entry 9). A single take attempt at a change of the level is the model's reading (log entry 10),
and what a first fetch from an EMPTY plan reads is its choice (log entry 20). -/
def Obligations.InstallRating : Prop :=
  (∀ staged : Vector (Option Breakpoint) 24, checkStaged staged = none ↔
    2 ≤ stagedCount staged ∧ (stagedPoints staged).length = stagedCount staged ∧
      (stagedPoints staged).Pairwise (fun a b => a.h < b.h ∧ a.q ≤ b.q)) ∧
  ∀ (p : Port) (s : State), Takes p 0x26 s →
    (stagedCount s.rating.staged < 2 →
      Refuses (.installRating p) p s ⟨.range, u8 0 ++ u8 (stagedCount s.rating.staged)⟩) ∧
    (checkStaged s.rating.staged ≠ none → ∃ data, Refuses (.installRating p) p s ⟨.range, data⟩) ∧
    (let point := fun j => at' s.rating.staged j
     let sound := fun j => (point j).isSome = true ∧ (1 ≤ j → ∀ a b, point (j - 1) = some a →
       point j = some b → a.h < b.h ∧ a.q ≤ b.q)
     2 ≤ stagedCount s.rating.staged → ∀ i, i < stagedCount s.rating.staged → (∀ j, j < i → sound j) →
      (point i = none → Refuses (.installRating p) p s ⟨.range, u8 1 ++ u8 i⟩) ∧
      ∀ a b, 1 ≤ i → point (i - 1) = some a → point i = some b →
        (b.h ≤ a.h → Refuses (.installRating p) p s ⟨.range, u8 2 ++ u8 i⟩) ∧
        (a.h < b.h → b.q < a.q → Refuses (.installRating p) p s ⟨.range, u8 3 ++ u8 i⟩)) ∧
    (checkStaged s.rating.staged = none →
      let points := stagedPoints s.rating.staged
      let version := if s.rating.version = 0 then 1 else if s.rating.version < 255
        then s.rating.version + 1 else 1
      ∃ t, exec (.installRating p) s = .next (setReply p ⟨.ok, u8 version ++ u8 points.length⟩ t) ∧
        RatedAndEvaluated { s.rating with active := points, version := version } s.stage.stilled s.stage.status
          s.stage.rise s t ∧
        SlotsJudged false none s t ∧ RunFollows [7, 8] false none s t ∧ IntervalTakes false s t ∧
        PendingWhereRouted 8 t ∧ t.warning.demanded ≤ t.warning.level ∧
        KeepsBut [.rating, .warning, .notices, .lines, .history, .plan, .engine, .results]
          (closeWindow p s) t)

/-- SET_SHIFT and SET_EXTRAPOLATION_LIMIT: the value, the current discharge, BEYOND_RATING and the evaluation
that follows, the open interval and the slots, and the run that follows: a retreat that comes into force recalls
it; from IDLE the first slot of the order list that asks is taken, at the evaluation; otherwise the run, its
results, the permit and the rest of the plan stay. The lines follow the permit and the driven values (R28, R44,
R45, R49, R50, R70, R142 to R149; R76, R77, R90 to R93, R109, R176, R181, R182, R184; a resumed dwell with no
time left: log entry 9). A single take attempt at a change of the level is the model's reading (log entry 10),
and what a first fetch from an EMPTY plan reads is its choice (log entry 20). -/
def Obligations.RatingSettings : Prop :=
  ∀ (p : Port) (s : State),
    (Takes p 0x27 s → ∀ z : Int,
      (z < -500 ∨ 500 < z →
        Refuses (.setShift p z) p s ⟨.range, []⟩) ∧
      (-500 ≤ z → z ≤ 500 → ∃ t,
        exec (.setShift p z) s = .next (setReply p ⟨.ok, i16 s.rating.shift⟩ t) ∧
        RatedAndEvaluated (withShift z s.rating) s.stage.stilled s.stage.status s.stage.rise s t ∧
        SlotsJudged false none s t ∧ RunFollows [7] false none s t ∧ IntervalTakes false s t ∧
        t.warning.demanded ≤ t.warning.level ∧
        KeepsBut [.rating, .warning, .notices, .lines, .history, .plan, .engine, .results]
          (closeWindow p s) t)) ∧
    (Takes p 0x28 s → ∀ n : Nat,
      (2000 < n → Refuses (.setExtrapolationLimit p n) p s ⟨.range, []⟩) ∧
      (n ≤ 2000 → ∃ t,
        exec (.setExtrapolationLimit p n) s = .next (setReply p ⟨.ok, u16 s.rating.limit⟩ t) ∧
        RatedAndEvaluated (withLimit n s.rating) s.stage.stilled s.stage.status s.stage.rise s t ∧
        SlotsJudged false none s t ∧ RunFollows [7] false none s t ∧ IntervalTakes false s t ∧
        t.warning.demanded ≤ t.warning.level ∧
        KeepsBut [.rating, .warning, .notices, .lines, .history, .plan, .engine, .results]
          (closeWindow p s) t))

/-! ## Gauging plans and slots (chapter 4) -/

/-- WRITE_VERTICAL, CLEAR_VERTICAL and WRITE_METER: their refusals in order and the record each writes; and
which records and meters are in use (R60 to R64). The order of the two values in a two-valued reply field is the
model's reading (log entry 11). -/
def Obligations.PlanRecords : Prop :=
  (∀ (p : Port) (i : Nat) (a : VerticalArgs) (s : State), Takes p 0x31 s →
    let good := 1 ≤ i ∧ i ≤ 64 ∧ a.x ≤ 400000 ∧ a.method ≤ 3 ∧ 20 ≤ a.countTime ∧ a.countTime ≤ 180 ∧
      a.next ≤ 64 ∧ ((a.depthMode = 0 ∧ ∃ d, a.depth = some d ∧ d ≤ 20000) ∨
        (a.depthMode = 1 ∧ a.depth = none))
    (¬ good → Refuses (.writeVertical p i a) p s ⟨.range, []⟩) ∧
    (good → recordInUse s i = true → Refuses (.writeVertical p i a) p s ⟨.inUse, []⟩) ∧
    (good → recordInUse s i = false → ∃ r, exec (.writeVertical p i a) s =
        .next (setReply p ⟨.ok, twoValued (poolRecord s i).used⟩ { closeWindow p s with
          plan := { s.plan with pool := s.plan.pool.setIfInBounds (i - 1) r } }) ∧
      r.used = true ∧ r.x = a.x ∧ depthModeCode r.depthMode = a.depthMode ∧ r.depth = a.depth ∧
      methodCode r.method = a.method ∧ r.countTime = a.countTime ∧ r.next = a.next)) ∧
  (∀ (p : Port) (i : Nat) (s : State), Takes p 0x32 s →
    (i = 0 ∨ 64 < i → Refuses (.clearVertical p i) p s ⟨.range, []⟩) ∧
    (1 ≤ i → i ≤ 64 → recordInUse s i = true → Refuses (.clearVertical p i) p s ⟨.inUse, []⟩) ∧
    (1 ≤ i → i ≤ 64 → recordInUse s i = false → exec (.clearVertical p i) s =
      .next (setReply p ⟨.ok, twoValued (poolRecord s i).used⟩ { closeWindow p s with
        plan := { s.plan with pool :=
          s.plan.pool.setIfInBounds (i - 1) ⟨false, 0, .fixed, some 0, .p6, 40, 0⟩ } }))) ∧
  (∀ (i : Nat) (s : State), recordInUse s i = true ↔ ∃ k, s.plan.activeSlot = some k ∧
    match (slotAt s k).definition.plan with
    | .empty => False
    | .listed first count => first ≤ i ∧ i < first + count
    | .linked _ => i ∈ s.plan.fetched) ∧
  ∀ (p : Port) (m : Nat) (a : MeterArgs) (s : State), Takes p 0x34 s →
    let good := m ≤ 3 ∧ a.a ≤ 500 ∧ a.b ≤ 4000000 ∧ 1 ≤ a.pulses ∧ a.pulses ≤ 8 ∧ a.ident ≤ 65535
    let inUse := ∃ k, k < 4 ∧ (slotAt s k).definition.meter = m ∧
      ((slotAt s k).armed = true ∨ s.plan.activeSlot = some k)
    (¬ good → Refuses (.writeMeter p m a) p s ⟨.range, []⟩) ∧
    (good → inUse → Refuses (.writeMeter p m a) p s ⟨.inUse, []⟩) ∧
    (good → ¬ inUse → exec (.writeMeter p m a) s = .next (setReply p ⟨.ok, []⟩ { closeWindow p s with
      plan := { s.plan with meters := s.plan.meters.setIfInBounds m ⟨a.a, a.b, a.pulses, a.ident⟩ } }))

/-- DEFINE_SLOT: its arguments as its frame carries them, the ranges of its fields with the alternatives of the
plan, the passes and the trigger, its checks in order, and the slot that a taken one leaves (R65, R66, R204).
The order of the two values in a two-valued reply field is the model's reading (log entry 11). -/
def Obligations.SlotDefinitions : Prop :=
  (∀ (k : Nat) (a : SlotArgs), firstFault (slotFieldsInRange k a) = none ↔
    k ≤ 3 ∧ (planOf a.plan).isSome = true ∧ a.mode ≤ 1 ∧ (passesOf a.passes).isSome = true ∧ a.meter ≤ 3 ∧
    800 ≤ a.coefficient ∧ a.coefficient ≤ 950 ∧ a.settleTime ≤ 120 ∧ a.settledSense ≤ 1 ∧
    a.pauseLimit ≤ 300 ∧ 10 ≤ a.tolerance ∧ a.tolerance ≤ 5000 ∧ 10 ≤ a.moveTimeout ∧
    a.moveTimeout ≤ 900 ∧ 60 ≤ a.homeTimeout ∧ a.homeTimeout ≤ 1800 ∧
    (triggerOf a.trigger).isSome = true) ∧
  (∀ f n, (planOf (.listed f n)).isSome = true ↔ 1 ≤ f ∧ 3 ≤ n ∧ n ≤ 40 ∧ f + n - 1 ≤ 64) ∧
  (∀ (p : Port) (k : Nat) (a : SlotArgs) (plan passes trigger : List Byte),
    (a.plan = .empty ∧ plan = [0, 0, 0]) ∨ (∃ f n, a.plan = .listed f n ∧ plan = [1] ++ u8 f ++ u8 n) ∨
      (∃ f, a.plan = .linked f ∧ plan = [2] ++ u8 f ++ [0]) →
    (∃ n, a.passes = .number n ∧ passes = [0] ++ u8 n) ∨ (a.passes = .index ∧ passes = [1, 0]) →
    (a.trigger = .port ∧ trigger = [0, 0, 0, 0]) ∨
      (∃ h sense, a.trigger = .stageRise h sense ∧ trigger = [1] ++ i16 h ++ u8 sense) ∨
      (∃ l sense, a.trigger = .warningLevel l sense ∧ trigger = [2] ++ u8 l ++ u8 sense ++ [0]) ∨
      (∃ h, a.trigger = .interval h ∧ trigger = [3] ++ u8 h ++ [0, 0]) ∨
      (∃ c, a.trigger = .upstream c ∧ trigger = [4] ++ u8 c ++ [0, 0]) →
    encodeFrame (.defineSlot p k a) = some ([0x36, 24] ++ u8 k ++ plan ++ u8 a.mode ++ passes ++ u8 a.meter
      ++ u16 a.coefficient ++ u8 a.settleTime ++ u8 a.settledSense ++ u16 a.pauseLimit ++ u16 a.tolerance
      ++ u16 a.moveTimeout ++ u16 a.homeTimeout ++ trigger)) ∧
  (planOf .empty = some .empty ∧ (∀ n, planOf (.unknown n) = none) ∧
    (∀ f n x, planOf (.listed f n) = some x → x = .listed f n) ∧
    (∀ f, planOf (.linked f) = if 1 ≤ f ∧ f ≤ 64 then some (.linked f) else none) ∧
    (∀ n, passesOf (.number n) = if 1 ≤ n ∧ n ≤ 4 then some (.number n) else none) ∧
    passesOf .index = some .index ∧ (∀ n, passesOf (.unknown n) = none)) ∧
  (let sensed := fun (c : Nat) (f : TriggerSense → Trigger) =>
     if c = 0 then some (f .edge) else if c = 1 then some (f .level) else none
   triggerOf .port = some .port ∧ (∀ n, triggerOf (.unknown n) = none) ∧
    (∀ h c, triggerOf (.stageRise h c) =
      if -1000 ≤ h ∧ h ≤ 15000 then sensed c (.stageRise h) else none) ∧
    (∀ l c, triggerOf (.warningLevel l c) =
      if 1 ≤ l ∧ l ≤ 3 then sensed c (.warningLevel l) else none) ∧
    (∀ h, triggerOf (.interval h) = if 1 ≤ h ∧ h ≤ 24 then some (.interval h) else none) ∧
    ∀ c, triggerOf (.upstream c) = if c ≤ 7 then some (.upstream c) else none) ∧
  ∀ (p : Port) (k : Nat) (a : SlotArgs) (s : State), Takes p 0x36 s →
    (∀ f, firstFault (slotFieldsInRange k a) = some f → Refuses (.defineSlot p k a) p s ⟨.range, u8 f⟩) ∧
    (firstFault (slotFieldsInRange k a) = none →
      let lineMissing := ∀ i, i < 16 → (lineAt s i).function ≠ .settledIn
      (s.plan.activeSlot = some k → Refuses (.defineSlot p k a) p s ⟨.inUse, []⟩) ∧
      (s.plan.activeSlot ≠ some k → a.plan ≠ .empty → (at' s.plan.meters a.meter).b = 0 →
        Refuses (.defineSlot p k a) p s ⟨.range, u8 4⟩) ∧
      (s.plan.activeSlot ≠ some k → a.plan ≠ .empty → (at' s.plan.meters a.meter).b ≠ 0 →
        a.settledSense = 1 → lineMissing → Refuses (.defineSlot p k a) p s ⟨.range, u8 7⟩) ∧
      (s.plan.activeSlot ≠ some k →
        a.plan = .empty ∨ ((at' s.plan.meters a.meter).b ≠ 0 ∧ (a.settledSense = 0 ∨ ¬ lineMissing)) →
        ∃ d, definitionOf a = some d ∧ exec (.defineSlot p k a) s =
            .next (setReply p ⟨.ok, twoValued (slotAt s k).armed⟩ { closeWindow p s with
              plan := s.plan.withSlot k ⟨d, false, false, .stopped⟩ }) ∧
          d.meter = a.meter ∧ d.coefficient = a.coefficient ∧ d.settleTime = a.settleTime ∧
          d.pauseLimit = a.pauseLimit ∧ d.tolerance = a.tolerance ∧ d.moveTimeout = a.moveTimeout ∧
          d.homeTimeout = a.homeTimeout ∧ planOf a.plan = some d.plan ∧
          d.mode = (if a.mode = 0 then .traverse else .stepped) ∧
          d.settledSense = (if a.settledSense = 0 then .ignore else .level) ∧
          passesOf a.passes = some d.passes ∧ triggerOf a.trigger = some d.trigger))

/-- ARM_SLOT: its refusals in order, a slot already armed, and a slot newly armed with its flag, its timer and
its take attempt, which takes a slot or none (R71, R74, R76, R77, R90 to R93). What a first fetch from an EMPTY
plan reads is the model's choice (log entry 20). -/
def Obligations.ArmSlot : Prop :=
  ∀ (p : Port) (k : Nat) (s : State), Takes p 0x37 s →
    let d := (slotAt s k).definition
    let lineMissing := ∀ i, i < 16 → (lineAt s i).function ≠ .settledIn
    let unfit := (at' s.plan.meters d.meter).b = 0 ∨ (d.settledSense = .level ∧ lineMissing)
    (3 < k → Refuses (.armSlot p k) p s ⟨.range, []⟩) ∧
    (k ≤ 3 → d.plan = .empty → Refuses (.armSlot p k) p s ⟨.state, []⟩) ∧
    (k ≤ 3 → d.plan ≠ .empty → unfit → Refuses (.armSlot p k) p s ⟨.range, []⟩) ∧
    (k ≤ 3 → d.plan ≠ .empty → ¬ unfit → (slotAt s k).armed = true →
      exec (.armSlot p k) s = .next (setReply p ⟨.ok, []⟩ (closeWindow p s))) ∧
    (k ≤ 3 → d.plan ≠ .empty → ¬ unfit → (slotAt s k).armed = false →
      ∃ t x, exec (.armSlot p k) s = .next (setReply p ⟨.ok, []⟩ t) ∧
        KeepsBut runBlocks (closeWindow p s) t ∧
        x.definition = d ∧ x.armed = true ∧
        (∀ h, d.trigger = .interval h → x.timer = .running (nowMs s + h * 3600000)) ∧
        (∀ h z, d.trigger = .stageRise h .level → s.stage.stilled = some z →
          (x.request = true ↔ h ≤ z)) ∧
        (∀ h, d.trigger = .stageRise h .level → s.stage.stilled = none → x.request = false) ∧
        (∀ l, d.trigger = .warningLevel l .level → (x.request = true ↔ l ≤ s.warning.level)) ∧
        (d.trigger.isLevel = false → x.request = (slotAt s k).request) ∧
        ((∀ h, d.trigger ≠ .interval h) → x.timer = .stopped) ∧
        (slotAt t k).armed = true ∧ (slotAt t k).timer = x.timer ∧
        TakeAttempted { closeWindow p s with plan := s.plan.withSlot k x } t)

/-- A take as START_RUN brings it about: what it needs, which slot it takes, and the run and pass that begin,
with the lines that follow the permit (R73, R76, R77, R85, R90 to R93, R176, R181, R184). How WAITING carries
the unmet conditions, as one byte whose bit i is row i of R76's table, is the model's reading (log entry 11).
What a first fetch from an EMPTY plan reads is the model's choice (log entry 20). -/
def Obligations.TakesOfSlots : Prop :=
  ∀ (p : Port) (k : Nat) (s : State), Takes p 0x39 s →
    let lines := (∃ i, i < 16 ∧ (lineAt s i).function = .meterIn) ∧
      ∃ i, i < 16 ∧ (lineAt s i).function = .permitOut
    let ready := s.engine.state = .idle ∧ s.warning.retreat = false ∧
      (s.stage.stilled.isSome = true ∧ s.stage.status ≠ .starting ∧ s.stage.status ≠ .lost) ∧ lines
    (3 < k → Refuses (.startRun p k) p s ⟨.range, []⟩) ∧
    (k ≤ 3 → (slotAt s k).armed = false → Refuses (.startRun p k) p s ⟨.state, []⟩) ∧
    (k ≤ 3 → (slotAt s k).armed = true → ¬ ready → ∃ unmet, unmet < 16 ∧
      (unmet.testBit 0 = true ↔ s.engine.state ≠ .idle) ∧
      (unmet.testBit 1 = true ↔ s.warning.retreat = true) ∧
      (unmet.testBit 2 = true ↔
        s.stage.stilled = none ∨ s.stage.status = .starting ∨ s.stage.status = .lost) ∧
      (unmet.testBit 3 = true ↔ ¬ lines) ∧
      exec (.startRun p k) s = .next (setReply p ⟨.ok, u8 2 ++ u8 unmet⟩ { closeWindow p s with
        plan := s.plan.withSlot k { slotAt s k with request := true } })) ∧
    (k ≤ 3 → (slotAt s k).armed = true → ready → ∀ j, j ≤ 3 →
      s.plan.order.find? (fun i => i == k || slotAsks s i) = some j →
      ∃ t, exec (.startRun p k) s =
          .next (setReply p ⟨.ok, if j = k then [0, 0] else u8 1 ++ u8 j⟩ t) ∧
        KeepsBut runBlocks (closeWindow p s) t ∧
        TakenSlot j { s with plan := s.plan.withSlot k { slotAt s k with request := true } } t ∧
        LinesFollow s t ∧ NoticesKeptBut takeSources s t)

/-- The requests and the expiry that set or clear a slot's flags without an active run of the slot, the take
attempt at an interval timer's expiry, and the priority (R71, R73, R75 to R77, R80, R90 to R93). The order of
the two values in a two-valued reply field is the model's reading (log entry 11). That an expiry row changes
nothing while its timer does not run is the model's choice (log entry 1). What a first fetch from an EMPTY plan
reads is the model's choice (log entry 20). -/
def Obligations.SlotFlags : Prop :=
  ∀ (p : Port) (s : State),
    (Takes p 0x38 s → ∀ k,
      (3 < k → Refuses (.disarmSlot p k) p s ⟨.range, []⟩) ∧
      (k ≤ 3 → s.plan.activeSlot ≠ some k ∨ s.engine.state = .homing →
        exec (.disarmSlot p k) s = .next (setReply p ⟨.ok, twoValued (slotAt s k).armed⟩
          { closeWindow p s with
            plan := s.plan.withSlot k ⟨(slotAt s k).definition, false, false, .stopped⟩ }))) ∧
    (Takes p 0x3A s → ∀ k,
      (3 < k → Refuses (.clearRequest p k) p s ⟨.range, []⟩) ∧
      (k ≤ 3 → exec (.clearRequest p k) s =
        .next (setReply p ⟨.ok, twoValued (slotAt s k).request⟩
          { closeWindow p s with plan := s.plan.withSlot k { slotAt s k with request := false } }))) ∧
    (Takes p 0x3B s → ∀ c,
      (1 < c → Refuses (.setSlotPriority p c) p s ⟨.range, []⟩) ∧
      (∀ data, data = u8 (priorityCode s.plan.priority) ++ (s.plan.order.map u8).flatten →
        (c = 0 → exec (.setSlotPriority p c) s = .next (setReply p ⟨.ok, data⟩ { closeWindow p s with
          plan := { s.plan with priority := .fixed, order := [0, 1, 2, 3] } })) ∧
        (c = 1 → exec (.setSlotPriority p c) s = .next (setReply p ⟨.ok, data⟩ { closeWindow p s with
          plan := { s.plan with priority := .rotating } })))) ∧
    (s.ports.por = false → ∀ k h, k ≤ 3 →
      ((slotAt s k).armed = false ∨ ¬ Runs (slotAt s k).timer → exec (.intervalTimerExpiry k) s = .next s) ∧
      ((slotAt s k).armed = true → (slotAt s k).definition.trigger = .interval h →
        Runs (slotAt s k).timer →
        ∃ t, exec (.intervalTimerExpiry k) s = .next t ∧ KeepsBut runBlocks s t ∧
          (slotAt t k).armed = true ∧ (slotAt t k).timer = .running (nowMs s + h * 3600000) ∧
          TakeAttempted { s with
            plan := s.plan.withSlot k
              ⟨(slotAt s k).definition, true, true, .running (nowMs s + h * 3600000)⟩ } t))

/-! ## The run engine (chapter 5) -/

/-- The checks of a fetch in their order, a PROCEED that fetches the next vertical, with the panel of the
vertical before it, and a PROCEED that starts the next pass; every record of the engine that a fetch does not
write stands (R86, R91 to R93, R107, R119 to R123, R131). What a first fetch from an EMPTY plan reads is the
model's choice (log entry 20). The target in a reply is one tagged field: log entry 11. -/
def Obligations.Fetches : Prop :=
  (∀ (s : State) (r : VerticalRecord),
    (40 ≤ s.engine.fetchCount → fetchFault s r = some .planTooLong) ∧
    (s.engine.fetchCount < 40 → r.used = false → fetchFault s r = some .planEmpty) ∧
    (r.used = true → s.engine.fetchCount = 0 → fetchFault s r = none) ∧
    (r.used = true → s.engine.fetchCount = 1 →
      fetchFault s r = if r.x = s.engine.vertical.x then some .planOrder else none) ∧
    (r.used = true → 2 ≤ s.engine.fetchCount → s.engine.fetchCount < 40 →
      (s.engine.direction = some .increasing →
        fetchFault s r = if s.engine.vertical.x < r.x then none else some .planOrder) ∧
      (s.engine.direction = some .decreasing →
        fetchFault s r = if r.x < s.engine.vertical.x then none else some .planOrder))) ∧
  ∀ (p : Port) (s : State), Takes p 0x45 s →
    (s.engine.state ≠ .holding → Refuses (.proceed p) p s ⟨.state, []⟩) ∧
    (s.engine.state = .holding → s.engine.holdKind = some .nextVertical →
      let i := nextIndex s
      let r := poolRecord s i
      (∀ cause, fetchFault s r = some cause → ∃ t,
        exec (.proceed p) s = .next (setReply p ⟨.ok, targetData t⟩ t) ∧ Recalled cause s t ∧
        KeepsBut [.engine, .results, .lines, .notices] (closeWindow p s) t ∧ LinesFollow s t ∧
        NoticesKeptBut passSources s t) ∧
      (fetchFault s r = none → ∃ t, exec (.proceed p) s = .next (setReply p ⟨.ok, targetData t⟩ t) ∧
        KeepsBut runBlocks (closeWindow p s) t ∧ NextFetched i s t ∧ LinesFollow s t ∧
        NoticesKeptBut passSources s t)) ∧
    (s.engine.state = .holding → s.engine.holdKind = some .nextPass → ∃ t,
      exec (.proceed p) s = .next (setReply p ⟨.ok, targetData t⟩ t) ∧
      KeepsBut runBlocks (closeWindow p s) t ∧ LinesFollow s t ∧ NoticesKeptBut passSources s t ∧
      PassBegins (if s.engine.passNumber < 65535 then s.engine.passNumber + 1 else 1) s t)

/-- The recalls that CANCEL_RUN, DISARM_SLOT and the move timer make, every other record of the engine standing
(R75, R86 to R88, R98, R108). The order of the two values in a two-valued reply field is the model's reading
(log entry 11). That an expiry row changes nothing while its timer does not run is the model's choice (log entry
1). -/
def Obligations.Recalls : Prop :=
  (∀ (p : Port) (s : State), Takes p 0x46 s →
    (s.engine.state = .idle ∨ s.engine.state = .homing ∨ s.engine.state = .tripped →
      Refuses (.cancelRun p) p s ⟨.state, []⟩) ∧
    (s.engine.state.recallable = true → ∃ t, exec (.cancelRun p) s = .next (setReply p ⟨.ok, []⟩ t) ∧
      Recalled .cancelled s t ∧ KeepsBut [.engine, .results, .lines, .notices] (closeWindow p s) t ∧
      LinesFollow s t ∧ NoticesKeptBut passSources s t)) ∧
  (∀ (p : Port) (k : Nat) (s : State), Takes p 0x38 s → k ≤ 3 → s.plan.activeSlot = some k →
    s.engine.state.recallable = true →
    ∃ t, exec (.disarmSlot p k) s = .next (setReply p ⟨.ok, twoValued (slotAt s k).armed⟩ t) ∧
      Recalled .cancelled s t ∧ KeepsBut runBlocks (closeWindow p s) t ∧
      LinesFollow s t ∧ NoticesKeptBut passSources s t ∧
      t.plan = s.plan.withSlot k ⟨(slotAt s k).definition, false, false, .stopped⟩) ∧
  ∀ s : State, s.ports.por = false →
    (¬ Runs s.engine.moveTimer ∨ (s.engine.state ≠ .moving ∧ s.engine.state ≠ .lowering) →
      exec .moveTimerExpiry s = .next s) ∧
    (Runs s.engine.moveTimer → s.engine.state = .moving ∨ s.engine.state = .lowering →
      ∃ t, exec .moveTimerExpiry s = .next t ∧ Recalled .timeout s t ∧
        KeepsBut [.engine, .results, .lines, .notices] s t ∧ LinesFollow s t ∧
        NoticesKeptBut passSources s t)

/-- POSITION_REACHED: its refusals in order, and the points that a taken report lays out; a vertical of depth 0
completes at its arrival, and closes the pass COMPLETE where it is the last of three or more; while the pass
goes on its records stand (R86, R87, R91, R95, R96, R105, R106, R118, R119, R122 to R129). Its method is the one
fetched: log entry 19. What a first fetch from an EMPTY plan reads is the model's choice (log entry 20). The
target in a reply is one tagged field: log entry 11. -/
def Obligations.Arrivals : Prop :=
  ∀ (p : Port) (reported : Nat) (sounded : Option Nat) (s : State), Takes p 0x42 s →
    let v := s.engine.vertical
    let near := ((reported : Int) - v.x).natAbs ≤ (activeDefinition s).tolerance
    (s.engine.state ≠ .moving → Refuses (.positionReached p reported sounded) p s ⟨.state, []⟩) ∧
    (s.engine.state = .moving →
      400000 < reported ∨ (∃ z, sounded = some z ∧ 20000 < z) ∨ ¬ near ∨
        (v.depthMode = .sound ∧ sounded = none) →
      Refuses (.positionReached p reported sounded) p s ⟨.range, []⟩) ∧
    (s.engine.state = .moving → reported ≤ 400000 → (∀ z, sounded = some z → z ≤ 20000) → near →
      ∀ depth, (v.depthMode = .fixed ∧ v.fetchedDepth = some depth) ∨
        (v.depthMode = .sound ∧ sounded = some depth) →
      ∃ t, exec (.positionReached p reported sounded) s = .next (setReply p ⟨.ok, targetData t⟩ t) ∧
        KeepsBut runBlocks (closeWindow p s) t ∧ LinesFollow s t ∧ NoticesKeptBut passSources s t ∧
        (depth = 0 →
          let laid := { v with
            depth := some 0, methodUsed := some v.methodFetched, pointDepths := [], pointOrdinal := 0 }
          VerticalEnds (fun e => entryCompleted s { e with
            depth := some 0, methodUsed := some v.methodFetched, pointDepths := []
            methodReduced := e.methodReduced || v.methodReduced })
            { s with engine := { s.engine with vertical := laid, moveTimer := .stopped } } t) ∧
        (depth ≠ 0 →
          let reduced := depth < 750 ∧ (v.methodFetched = .p28 ∨ v.methodFetched = .p268)
          let method := if reduced then Method.p6 else v.methodFetched
          let laid := { v with
            depth := some depth, methodUsed := some method
            methodReduced := v.methodReduced || decide reduced
            pointDepths := (match method with
              | .p6 => [600]
              | .p28 => [200, 800]
              | .p268 => [200, 600, 800]
              | .surf => [0]).map fun f => (roundDiv ((depth : Int) * f) 1000).toNat
            pointOrdinal := 1 }
          let u := { s with engine := { s.engine with vertical := laid, moveTimer := .stopped } }
          t.plan = s.plan ∧
          NewestBecomes (fun e => { e with
            depth := some depth, methodUsed := some method, pointDepths := laid.pointDepths
            methodReduced := e.methodReduced || laid.methodReduced }) s t ∧
          (v.methodFetched ≠ .surf → Entered .lowering t ∧ t.engine = { u.engine with
            state := .lowering, holdKind := none, homingCause := none
            moveTimer := .running (nowMs s + (activeDefinition s).moveTimeout * 1000) }) ∧
          (v.methodFetched = .surf → SettlingBegun u t)))

/-- DEPTH_REACHED and the settle timer's expiry: SETTLING, and COUNTING with or without a pause, every record of
the engine standing that they do not write (R86, R97, R100, R102, R103). That an expiry row changes nothing
while its timer does not run is the model's choice (log entry 1). The target in a reply is one tagged field: log
entry 11. -/
def Obligations.Settling : Prop :=
  (∀ (p : Port) (s : State), Takes p 0x43 s →
    (s.engine.state ≠ .lowering → Refuses (.depthReached p) p s ⟨.state, []⟩) ∧
    (s.engine.state = .lowering → ∃ t,
      exec (.depthReached p) s = .next (setReply p ⟨.ok, targetData t⟩ t) ∧
      KeepsBut [.engine, .lines, .notices] (closeWindow p s) t ∧ LinesFollow s t ∧
      NoticesKeptBut passSources s t ∧
      SettlingBegun { s with engine := { s.engine with moveTimer := .stopped } } t)) ∧
  ∀ s : State, s.ports.por = false →
    (s.engine.state ≠ .settling ∨ ¬ Runs s.engine.settleTimer → exec .settleTimerExpiry s = .next s) ∧
    (s.engine.state = .settling → Runs s.engine.settleTimer →
      ∃ t, exec .settleTimerExpiry s = .next t ∧ CountingBegun s t ∧
        KeepsBut [.engine, .lines, .notices] s t ∧ LinesFollow s t ∧ NoticesKeptBut passSources s t)

/-- The end of a point, the completion of a vertical at its last point, whether the pass goes on, ends short or
is closed, and the restart that the pause limit makes; while the pass goes on its records stand (R86, R101, R103
to R106, R116 to R123). That an expiry row changes nothing while its timer does not run is the model's choice
(log entry 1); that the paused mark stands through a restart wait is its reading of R103 (log entry 18). What a
first fetch from an EMPTY plan reads is the model's choice (log entry 20). -/
def Obligations.Counting : Prop :=
  ∀ s : State, s.ports.por = false →
    (s.engine.state ≠ .counting ∨ ¬ Runs s.engine.countTimer → exec .countTimerExpiry s = .next s) ∧
    (s.engine.state = .counting → Runs s.engine.countTimer →
      ∃ t, exec .countTimerExpiry s = .next t ∧ KeepsBut runBlocks s t ∧ PointEnds s t ∧
        LinesFollow s t ∧ NoticesKeptBut passSources s t) ∧
    (s.engine.state ≠ .counting ∨ ¬ Runs s.engine.pauseTimer → exec .pauseTimerExpiry s = .next s) ∧
    (s.engine.state = .counting → Runs s.engine.pauseTimer →
      ∃ t, exec .pauseTimerExpiry s = .next t ∧ KeepsBut [.engine, .results] s t ∧
        PointRestarts s.engine.point.paused s t)

/-- The carriage comes home, or does not in time: HOME_REACHED and the home timer's expiry, with what the Plan
Store does at the end of a run, and the take attempt at the entry to IDLE, which takes a slot or none, with the
lines that follow: a PERMIT_OUT line passes RELEASED on the way to a next run, and its change of state is marked
where it is armed (R76, R77, R79, R85, R89 to R93, R99, R176, R181, R184). That an expiry row changes nothing
while its timer does not run is the model's choice (log entry 1). What a first fetch from an EMPTY plan reads is
the model's choice (log entry 20). The target in a reply is one tagged field: log entry 11. -/
def Obligations.HomeComing : Prop :=
  (∀ (p : Port) (s : State), Takes p 0x44 s →
    (s.engine.state = .idle →
      exec (.homeReached p) s = .next (setReply p ⟨.ok, targetData s⟩ (closeWindow p s))) ∧
    (s.engine.state ≠ .idle → s.engine.state ≠ .homing → Refuses (.homeReached p) p s ⟨.state, []⟩) ∧
    (∀ cause k, s.engine.state = .homing → s.engine.homingCause = some cause →
      s.plan.activeSlot = some k → k ≤ 3 →
      ∃ t, exec (.homeReached p) s = .next (setReply p ⟨.ok, targetData t⟩ t) ∧
        KeepsBut runBlocks (closeWindow p s) t ∧ RunEnded cause s t ∧
        NoticesKeptBut (13 :: takeSources) s t ∧
        (cause = .complete → s.plan.priority = .rotating → t.plan.order = s.plan.order.erase k ++ [k]) ∧
        (cause ≠ .complete ∨ s.plan.priority = .fixed → t.plan.order = s.plan.order) ∧
        (let ended : Slot := { slotAt s k with
            armed := false, timer := .stopped
            request := (slotAt s k).definition.trigger.isLevel && (slotAt s k).request }
         let slots := if cause = .complete then s.plan.withSlot k ended else s.plan
         let u : State := { s with
          plan := { slots with order := t.plan.order, activeSlot := none }
          engine := { s.engine with
            state := .idle, holdKind := none, homingCause := none, homeTimer := .stopped, slot := none
            lastEnd := some ⟨s.engine.runNumber, s.engine.slot, cause, s.clock.clock⟩ } }
         let taken := u.plan.order.find? (slotAsks u)
         (¬ TakeReady s ∨ taken = none →
            Entered .idle t ∧ t.engine = u.engine ∧ t.plan = u.plan ∧ t.results = s.results ∧
              LinesFollow s t) ∧
          (TakeReady s → ∀ j, taken = some j → TakenSlot j u t ∧
            (∀ i, i < 16 → (lineAt s i).function ≠ .permitOut → LineFollows i s t) ∧
            (EngineInv s → ∀ i, i < 16 →
              (lineAt s i).function = .permitOut → (lineAt s i).direction = .output →
              lineAt t i = { lineAt s i with
                pin := (lineAt s i).levelFor true
                changed := (lineAt s i).changed || (lineAt s i).arm } ∧
              ((lineAt s i).arm = true → PendingWhereRouted 17 t)))))) ∧
  ∀ s : State, s.ports.por = false →
    (s.engine.state ≠ .homing ∨ ¬ Runs s.engine.homeTimer → exec .homeTimerExpiry s = .next s) ∧
    (s.engine.state = .homing → Runs s.engine.homeTimer →
      ∃ t, exec .homeTimerExpiry s = .next t ∧ Tripped .homeTimeout t ∧ RunEnded .homeTimeout s t ∧
        RecordsKept s t ∧
        KeepsBut [.plan, .engine, .lines, .notices] s t ∧ t.plan = { s.plan with activeSlot := none } ∧
        LinesFollow s t ∧ NoticesKeptBut (13 :: passSources) s t)

/-- A trip by CARRIAGE_FAULT, and the ways out of TRIPPED and of a run: CLEAR_TRIP, with the take attempt at the
entry to IDLE, and RESET_ENGINE, the records of the engine standing and the lines following the permit (R76,
R77, R79, R83, R85, R87, R89 to R93, R110 to R112, R176, R181, R184). The trip record's bytes in CLEAR_TRIP's
reply are the model's reading of R204 (log entry 11). What a first fetch from an EMPTY plan reads is the model's
choice (log entry 20). -/
def Obligations.TripsAndResets : Prop :=
  (∀ (p : Port) (code : Nat) (s : State), Takes p 0x47 s → EngineInv s →
    (s.engine.state = .tripped →
      exec (.carriageFault p code) s = .next (setReply p ⟨.ok, u8 7⟩ (closeWindow p s))) ∧
    (s.engine.state ≠ .tripped →
      ∃ t, exec (.carriageFault p code) s = .next (setReply p ⟨.ok, u8 7⟩ t) ∧ TripTaken (.fault code) s t ∧
        KeepsBut runBlocks (closeWindow p s) t ∧ LinesFollow s t ∧
        NoticesKeptBut (13 :: passSources) s t)) ∧
  (∀ (p : Port) (s : State), Takes p 0x48 s →
    (s.engine.state ≠ .tripped ∨ s.lines.anyActive .limitIn = true →
      Refuses (.clearTrip p) p s ⟨.state, []⟩) ∧
    (s.engine.state = .tripped → s.lines.anyActive .limitIn = false →
      ∃ t, exec (.clearTrip p) s = .next (setReply p ⟨.ok, tripData s.engine.trip⟩ t) ∧
        KeepsBut runBlocks (closeWindow p s) t ∧ t.engine.trip = s.engine.trip ∧
        t.notices.trip = false ∧ (EngineInv s → LinesFollow s t) ∧ NoticesKeptBut takeSources s t ∧
        (let first := s.plan.order.find? (slotAsks s)
         (¬ TakeReady s ∨ first = none → Entered .idle t ∧
            t.engine = { s.engine with state := .idle, holdKind := none, homingCause := none } ∧
            t.plan = s.plan ∧ t.results = s.results) ∧
          (TakeReady s → ∀ j, first = some j → TakenSlot j s t)))) ∧
  ∀ (p : Port) (s : State), Takes p 0x49 s →
    ∃ t, exec (.resetEngine p) s = .next (setReply p ⟨.ok, u8 (runStateCode t.engine.state)⟩ t) ∧
      KeepsBut runBlocks (closeWindow p s) t ∧ LinesFollow s t ∧
      NoticesKeptBut (13 :: passSources) s t ∧ t.plan.order = [0, 1, 2, 3] ∧
      { t.plan with slots := s.plan.slots, order := s.plan.order, activeSlot := s.plan.activeSlot } =
        s.plan ∧
      (∀ k, k ≤ 3 → slotAt t k = { slotAt s k with request := false }) ∧
      (s.engine.state.runActive = true → Entered .idle t ∧ t.plan.activeSlot = none ∧
        RunEnded .reset s t ∧ RecordsKept s t ∧ t.engine.trip = s.engine.trip ∧ t.engine.slot = none ∧
        t.engine.holdKind = none ∧ t.engine.homingCause = none ∧ WorkTimersStopped t.engine ∧
        t.engine.homeTimer = .stopped ∧ ClosesOpenPass t.stage.status .reset s t) ∧
      (s.engine.state.runActive = false → t.results = s.results ∧
        t.plan.activeSlot = s.plan.activeSlot) ∧
      (s.engine.state = .tripped → s.lines.anyActive .limitIn = false → Entered .idle t ∧
        t.engine = { s.engine with state := .idle, holdKind := none, homingCause := none }) ∧
      (s.engine.state = .idle ∨ (s.engine.state = .tripped ∧ s.lines.anyActive .limitIn = true) →
        t.engine = s.engine ∧ t.lines = s.lines ∧ t.notices = s.notices)

/-- Nothing but CLEAR_TRIP, RESET_ENGINE and POR brings a tripped engine out of TRIPPED, and its trip record
stands while it is there (R110 to R113). -/
def Obligations.TrippedStays : Prop :=
  ∀ (i : Instr) (s t : State), s.engine.state = .tripped → exec i s = .next t →
    (∀ p, i ≠ .clearTrip p) → (∀ p, i ≠ .resetEngine p) → i ≠ .porAssert → i ≠ .porRelease →
    t.engine.state = .tripped ∧ t.engine.trip = s.engine.trip ∧ t.results = s.results

/-! ## Gauging arithmetic (chapter 6) -/

/-- The velocity of a point, the mean velocity of a vertical and its panel (R116, R119, R123). -/
def Obligations.GaugingArithmetic : Prop :=
  (∀ (m : MeterRecord) (ms : Nat), pointVelocity m 0 ms = 0) ∧
  (∀ (m : MeterRecord) (pulses ms : Nat), 1 ≤ pulses → pointVelocity m pulses ms =
    min 10000 (m.a + (roundDiv ((m.b : Int) * pulses) (m.pulses * ms)).toNat)) ∧
  (∀ a c, meanVelocity (some .p6) [a] c = a) ∧
  (∀ a b c, meanVelocity (some .p28) [a, b] c = (roundDiv ((a : Int) + b) 2).toNat) ∧
  (∀ a b d c, meanVelocity (some .p268) [a, b, d] c = (roundDiv ((a : Int) + 2 * b + d) 4).toNat) ∧
  (∀ a c, meanVelocity (some .surf) [a] c = (roundDiv ((a : Int) * c) 1000).toNat) ∧
  (∀ m c, meanVelocity m [] c = 0) ∧
  ∀ (e : TableEntry) (v d span : Nat), e.mean = some v → e.depth = some d →
    panelFor e span = ⟨span, (roundDiv ((v : Int) * d * span) 2000).toNat,
      (roundDiv ((d : Int) * span) 2).toNat⟩ ∧
    (v ≤ 10000 → d ≤ 20000 → span ≤ 400000 →
      (panelFor e span).q ≤ 40000000000 ∧ (panelFor e span).area ≤ 4000000000)

/-- The panels of a pass cover its width once: the spans that its fetches and its close give add up to twice the
distance from the first vertical to the last (R121 to R123). -/
def Obligations.PanelsCoverTheWidth : Prop :=
  ∀ es : List TableEntry, 2 ≤ es.length → (∀ e ∈ es, e.complete = true ∧ e.panel = none) →
    es.Pairwise (fun a b => a.x < b.x) ∨ es.Pairwise (fun a b => b.x < a.x) →
    let fetched := es.foldl (fun t e => onNewest (finalizeEntry (spanAtFetch t e.x)) t ++ [e]) []
    let closed := onNewest (finalizeEntry (spanAtClose fetched)) fetched
    sumPanels Panel.span closed = 2 * tableWidth closed ∧
      closed.map TableEntry.x = es.map TableEntry.x ∧ ∀ e ∈ closed, e.panel.isSome = true

/-- The last point of a pass of three verticals or more: the pass closes COMPLETE with its totals, its gauge
height and its comparison with the rating, its last entry completed and finalized as a bank vertical. With no
pass remaining the run is recalled with cause COMPLETE; otherwise STEPPED holds before the next pass and
TRAVERSE begins it at once (R51 to R53, R87, R91, R105, R106, R119, R122 to R129). What a first fetch from an EMPTY plan
reads is the model's choice (log entry 20). -/
def Obligations.PassCompletes : Prop :=
  ∀ s : State, s.ports.por = false → s.engine.state = .counting → Runs s.engine.countTimer →
    s.engine.vertical.pointDepths.length ≤ s.engine.vertical.pointOrdinal →
    hasMore s = false → 3 ≤ s.engine.fetchCount →
    ∃ t, exec .countTimerExpiry s = .next t ∧ KeepsBut runBlocks s t ∧
      PassCloses (tabled (newestAs (fun e => entryCompleted s (pointEnded s e)) s.results.table)
        (pointClosed s)) t

/-! ## Flood warning (chapter 7) -/

/-- The four parts of the demanded level: each is the greatest level whose criterion is met, judged with
hysteresis from the level held downward, on the values of the last offer and the current discharge (R137 to
R142). -/
def Obligations.DemandedLevel : Prop :=
  (∀ s : State, evalInputs s = ⟨s.stage.stilled, s.stage.status, s.stage.rise,
    s.rating.current.discharge, nowMs s⟩) ∧
  ∀ (i : EvalInputs) (w : WarningUnit),
    let d := formDemand i w
    let c := w.criteria
    let stage := fun j => ∃ t z, triAt c.stage j = some t ∧ i.stage = some z ∧
      (if w.level < j then t else t - c.hysteresis) ≤ z
    let discharge := fun j => ∃ t q, triAt c.discharge j = some t ∧ i.discharge = some q ∧
      (if w.level < j then (t : Int) else roundDiv ((t : Int) * (1000 - c.dischargeHysteresis)) 1000) ≤ q
    let rise := fun j => ∃ t z, triAt c.rise j = some t ∧ i.rise = some z ∧ (t : Int) ≤ z
    d.level = w.level ∧ d.demanded = max (max d.partStage d.partDischarge) (max d.partRise d.partFloor) ∧
    d.partFloor = w.floor ∧
    ∀ met part, (met, part) ∈ [(stage, d.partStage), (discharge, d.partDischarge), (rise, d.partRise)] →
      part ≤ 3 ∧ (part ≠ 0 → met part) ∧ ∀ j, 1 ≤ j → j ≤ 3 → met j → j ≤ part

/-- The level against its demand and the dwell timer that an evaluation leaves, and the fall at an expiry of the
dwell timer, with what the slots and the open interval make of it, and the run that follows: a retreat that
comes into force recalls it; from IDLE the first slot of the order list that asks is taken, at the evaluation;
otherwise the run, its results, the permit and the rest of the plan stay. The lines follow the permit and the
driven values (R28, R70, R143 to R146; R76, R77, R90 to R93, R109, R176, R181, R182, R184). That an expiry row
changes nothing while its timer does not run is the model's choice (log entry 1). That a dwell of 0 falls within
the evaluation at once is R145's; how its steps follow is log entry 9. A single take attempt at a change of the
level is the model's reading (log entry 10), and what a first fetch from an EMPTY plan reads is its choice (log
entry 20). -/
def Obligations.LevelAndDwell : Prop :=
  (∀ (i : EvalInputs) (w : WarningUnit), w.level ≤ 3 →
    let d := formDemand i w
    let r := settleLevel 4 i w
    let full := w.criteria.dwell * 60000
    let current := i.status = .good ∨ i.status = .suspect ∨ i.status = .single
    (w.level < d.demanded →
      r = ({ d with level := d.demanded, silence := false, dwell := .stopped }, [(w.level, d.demanded)])) ∧
    (d.demanded = w.level → r = ({ d with dwell := .stopped }, [])) ∧
    (d.demanded < w.level → current →
      (w.dwell = .stopped → full ≠ 0 → r = ({ d with dwell := .running (i.now + full) }, [])) ∧
      (∀ due, w.dwell = .running due → r = (d, [])) ∧
      (∀ left, w.dwell = .held left → left ≠ 0 → r = ({ d with dwell := .running (i.now + left) }, [])) ∧
      (w.dwell = .stopped → full = 0 → r.1.level = r.1.demanded ∧ r.1.level < w.level)) ∧
    (d.demanded < w.level → ¬ current →
      (w.dwell = .stopped → r = ({ d with dwell := .held full }, [])) ∧
      (∀ due, w.dwell = .running due → r = ({ d with dwell := .held (due - i.now) }, [])) ∧
      (∀ left, w.dwell = .held left → r = (d, [])))) ∧
  ∀ s : State, s.ports.por = false →
    (¬ Runs s.warning.dwell → exec .dwellTimerExpiry s = .next s) ∧
    (Runs s.warning.dwell → 1 ≤ s.warning.level → s.warning.level ≤ 3 →
      let w := { s.warning with
        level := s.warning.level - 1
        silence := s.warning.silence && decide (s.warning.level ≠ 1)
        dwell := .stopped }
      let r := settleLevel 4 (evalInputs s) w
      ∃ t, exec .dwellTimerExpiry s = .next t ∧ KeepsBut evaluationBlocks s t ∧
        Evaluated (evalInputs s) w t ∧ PendingWhereRouted 1 t ∧
        (s.warning.retreat = false → t.warning.retreat = true → s.engine.state.recallable = true →
          Recalled .retreat s t) ∧
        (r.1.level < s.warning.level →
          SlotsJudged false none s t ∧ RunFollows [] false none s t ∧ IntervalTakes false s t))

/-- SET_LEVEL_CRITERIA and SET_RETREAT: their ranges, the evaluation that follows, retreat with its hysteresis,
what the slots and the open interval make of a change of the level, and the run that follows: a retreat that
comes into force recalls it; from IDLE the first slot of the order list that asks is taken, at the evaluation;
otherwise the run, its results, the permit and the rest of the plan stay. The lines follow the permit and the
driven values (R28, R70, R136, R142 to R149; R76, R77, R90 to R93, R109, R176, R181, R182, R184). The field
numbers in a refusal are the model's reading of R204 (log entry 11), and a resumed dwell with no time left is
log entry 9. A single take attempt at a change of the level is the model's reading (log entry 10), and what a
first fetch from an EMPTY plan reads is its choice (log entry 20). -/
def Obligations.CriteriaAndRetreat : Prop :=
  (∀ a : CriteriaArgs,
    let pairs (f : Nat → Option Int) := ∀ i j x y, 1 ≤ i → i < j → j ≤ 3 → f i = some x → f j = some y →
      x ≤ y
    (firstFault (criteriaFieldsInRange a) = none ↔
      (∀ j x, 1 ≤ j → j ≤ 3 → triAt a.stage j = some x → -1000 ≤ x ∧ x ≤ 15000) ∧
      (∀ j x, 1 ≤ j → j ≤ 3 → triAt a.discharge j = some x → 1 ≤ x ∧ x ≤ 4000000) ∧
      (∀ j x, 1 ≤ j → j ≤ 3 → triAt a.rise j = some x → 1 ≤ x ∧ x ≤ 5000) ∧
      a.hysteresis ≤ 1000 ∧ a.dischargeHysteresis ≤ 500 ∧ a.dwell ≤ 240) ∧
    (orderFault a = none ↔ pairs (fun j => triAt a.stage j) ∧
      pairs (fun j => (triAt a.discharge j).map Int.ofNat) ∧
      pairs (fun j => (triAt a.rise j).map Int.ofNat))) ∧
  (∀ (p : Port) (a : CriteriaArgs) (s : State), Takes p 0x61 s →
    (∀ f, firstFault (criteriaFieldsInRange a) = some f →
      Refuses (.setLevelCriteria p a) p s ⟨.range, u8 f⟩) ∧
    (∀ kind j, firstFault (criteriaFieldsInRange a) = none → orderFault a = some (kind, j) →
      Refuses (.setLevelCriteria p a) p s ⟨.range, u8 kind ++ u8 j⟩) ∧
    (firstFault (criteriaFieldsInRange a) = none → orderFault a = none →
      let w := { s.warning with
        criteria := ⟨a.stage, a.discharge, a.rise, a.hysteresis, a.dischargeHysteresis, a.dwell⟩
        dwell := .stopped }
      ∃ t, exec (.setLevelCriteria p a) s = .next (setReply p ⟨.ok, []⟩ t) ∧
        KeepsBut evaluationBlocks (closeWindow p s) t ∧ EvaluatedFrom (evalInputs s) w s t ∧
        SlotsJudged false none s t ∧ RunFollows [] false none s t ∧ IntervalTakes false s t)) ∧
  ∀ (p : Port) (stage : Option Int) (level : RetreatLevelArg) (s : State), Takes p 0x62 s →
    let fits := (∀ z, stage = some z → -1000 ≤ z ∧ z ≤ 15000) ∧
      (level = .none ∨ ∃ n, level = .number n ∧ 1 ≤ n ∧ n ≤ 3)
    (¬ fits → Refuses (.setRetreat p stage level) p s ⟨.range, []⟩) ∧
    (fits → ∃ t, exec (.setRetreat p stage level) s = .next (setReply p ⟨.ok, retreatData s.warning⟩ t) ∧
      KeepsBut evaluationBlocks (closeWindow p s) t ∧ t.warning.criteria = s.warning.criteria ∧
      t.warning.retreatStage = stage ∧ (level = .none → t.warning.retreatLevel = none) ∧
      (∀ n, level = .number n → t.warning.retreatLevel = some n) ∧
      SlotsJudged false none s t ∧ RunFollows [] false none s t ∧ IntervalTakes false s t ∧
      EvaluatedFrom (evalInputs s)
        { s.warning with retreatStage := stage, retreatLevel := t.warning.retreatLevel } s t)

/-- SET_WARNING_OUTPUT, the three override requests and SILENCE, with the lines that follow the driven values
(R151 to R154, R176, R182, R184). The order of the two values in a two-valued reply field is the model's reading
(log entry 11). -/
def Obligations.WarningOutputs : Prop :=
  ∀ (p : Port) (s : State),
    (Takes p 0x63 s → ∀ k l c,
      (3 < k ∨ l = 0 ∨ 3 < l ∨ 1 < c → Refuses (.setWarningOutput p k l c) p s ⟨.range, []⟩) ∧
      (k ≤ 3 → 1 ≤ l → l ≤ 3 → c ≤ 1 →
        let old := at' s.warning.outputs k
        ∃ t, exec (.setWarningOutput p k l c) s =
            .next (setReply p ⟨.ok, u8 old.showLevel ++ u8 (outputKindCode old.kind)⟩ t) ∧
          KeepsBut [.warning, .lines, .notices] (closeWindow p s) t ∧ OutputsFormed t ∧
          LinesFollow s t ∧ NoticesKeptBut [17] s t ∧ t.lines.permit = s.lines.permit ∧
          { t.warning with outputs := s.warning.outputs } = s.warning ∧
          (at' t.warning.outputs k).showLevel = l ∧ outputKindCode (at' t.warning.outputs k).kind = c ∧
          ∀ j, j ≤ 3 → (at' t.warning.outputs j).override = (at' s.warning.outputs j).override ∧
            (j ≠ k → (at' t.warning.outputs j).showLevel = (at' s.warning.outputs j).showLevel ∧
              (at' t.warning.outputs j).kind = (at' s.warning.outputs j).kind))) ∧
    (∀ mask i code v, (i, code, v) ∈ [(Instr.overrideOn p mask, 0x64, Override.on),
        (Instr.overrideOff p mask, 0x65, Override.off), (Instr.overrideAuto p mask, 0x66, Override.auto)] →
      Takes p code s →
      (15 < mask.toNat → Refuses i p s ⟨.range, []⟩) ∧
      (mask.toNat ≤ 15 →
        ∃ t, exec i s = .next (setReply p ⟨.ok,
            (s.warning.outputs.toList.map fun o => u8 (overrideCode o.override)).flatten⟩ t) ∧
          KeepsBut [.warning, .lines, .notices] (closeWindow p s) t ∧ OutputsFormed t ∧
          LinesFollow s t ∧ NoticesKeptBut [17] s t ∧ t.lines.permit = s.lines.permit ∧
          { t.warning with outputs := s.warning.outputs } = s.warning ∧
          ∀ k, k ≤ 3 → (at' t.warning.outputs k).override =
              (if mask.getLsbD k = true then v else (at' s.warning.outputs k).override) ∧
            (at' t.warning.outputs k).showLevel = (at' s.warning.outputs k).showLevel ∧
            (at' t.warning.outputs k).kind = (at' s.warning.outputs k).kind)) ∧
    (Takes p 0x67 s →
      (s.warning.level = 0 → exec (.silence p) s = .next (setReply p
        ⟨.ok, u8 0 ++ markByte s.warning.silence ++ markByte s.warning.silence⟩ (closeWindow p s))) ∧
      (1 ≤ s.warning.level →
        ∃ t, exec (.silence p) s = .next (setReply p
            ⟨.ok, u8 s.warning.level ++ markByte s.warning.silence ++ markByte true⟩ t) ∧
          KeepsBut [.warning, .lines, .notices] (closeWindow p s) t ∧ OutputsFormed t ∧
          LinesFollow s t ∧ NoticesKeptBut [17, 19] s t ∧ t.lines.permit = s.lines.permit ∧
          t.warning.silence = true ∧ t.warning.level = s.warning.level ∧ PendingWhereRouted 19 t ∧
          { t.warning with silence := s.warning.silence, outputs := s.warning.outputs } = s.warning ∧
          OutputSettingsKept s.warning t))

/-! ## Upstream reports (chapter 8) -/

/-- UPSTREAM_REPORT: its ranges, its five dispositions in the order of their tests, its counters, and what an
accepted table report makes of its entry, its queue and the floor, and the Flood Warning of a floor that
changes; an accepted report sets the flags of the UPSTREAM slots of its class. With it the run that follows: a
retreat that comes into force recalls it; from IDLE the first slot of the order list that asks is taken, at the
evaluation or at the report; otherwise the run, its results, the permit and the rest of the plan stay. The lines
follow the permit and the driven values (R72, R140, R142 to R149, R162 to R169; R76, R77, R90 to R93, R109,
R176, R181, R182, R184). Its reply has the layout of section 11.6. A resumed dwell with no time left is log
entry 9. A single take attempt at a change of the level is the model's reading (log entry 10), and what a first
fetch from an EMPTY plan reads is its choice (log entry 20). -/
def Obligations.UpstreamReports : Prop :=
  ∀ (p : Port) (a : ReportArgs) (s : State), Takes p 0x70 s →
    let u := s.upstream
    let n := u.counters
    let next := fun k : Nat => min 65535 (k + 1)
    let fits := 1 ≤ a.address ∧ a.address ≤ 65535 ∧ a.stamp ≤ 4294967295 ∧ a.cls ≤ 7 ∧ -1000 ≤ a.stage ∧
      a.stage ≤ 15000 ∧ a.level ≤ 3
    let neighbour := (u.hashEnable = true ∧ u.hash.getLsbD (hashBin a.address) = true) ∨ u.acceptAll = true
    (¬ fits → Refuses (.upstreamReport p a) p s ⟨.range, []⟩) ∧
    (fits → at' u.classMap a.cls = none → exec (.upstreamReport p a) s =
      .next (setReply p ⟨.ok, [2, 255, 0, 0, 0, 0, 0, 0, 0]⟩ { closeWindow p s with
        upstream := { u with counters := { n with droppedClass := next n.droppedClass } } })) ∧
    (∀ cap, fits → at' u.classMap a.cls = some cap →
      (u.find? a.address = none → ¬ neighbour → exec (.upstreamReport p a) s =
        .next (setReply p ⟨.ok, [4, 255, 0, 0, 0, 0, 0, 0, 0]⟩ { closeWindow p s with
          upstream := { u with counters := { n with droppedFilter := next n.droppedFilter } } })) ∧
      (u.find? a.address = none → neighbour →
        ∃ t, exec (.upstreamReport p a) s =
            .next (setReply p ⟨.ok, [1, 255, 0, 0, 0, 0, 0, 0, 0]⟩ t) ∧
          KeepsBut (.upstream :: runBlocks) (closeWindow p s) t ∧
          t.upstream = { u with counters := { n with neighbour := next n.neighbour } } ∧
          PendingWhereRouted 15 t ∧ SlotsJudged false (some a.cls) s t ∧
          RunFollows [15] false (some a.cls) s t) ∧
      (∀ i r, u.find? a.address = some i → (entryAt s i).last = some r → a.stamp ≤ r.stamp →
        exec (.upstreamReport p a) s =
          .next (setReply p ⟨.ok, [3] ++ u8 i ++ [0, 0] ++ u32 r.stamp ++ [0]⟩ { closeWindow p s with
            upstream := { u with counters := { n with droppedOrder := next n.droppedOrder } } })) ∧
      (∀ i, u.find? a.address = some i → (∀ r, (entryAt s i).last = some r → r.stamp < a.stamp) →
        let e := entryAt s i
        let c := min cap (a.level - e.stepDown)
        ∃ t e' handling, exec (.upstreamReport p a) s = .next (setReply p
            ⟨.ok, [0] ++ u8 i ++ u8 c ++ u8 handling ++ [0, 0, 0, 0, 0]⟩ t) ∧
          KeepsBut (.upstream :: evaluationBlocks) (closeWindow p s) t ∧ PendingWhereRouted 15 t ∧
          SlotsJudged false (some a.cls) s t ∧ RunFollows [15] false (some a.cls) s t ∧
          IntervalTakes false s t ∧ FloorHanded s t ∧
          t.upstream = { u with
            entries := u.entries.setIfInBounds i e'
            counters := { n with table := next n.table }
            floor := if e.travel = 0 then t.upstream.greatest else u.floor } ∧
          e'.address = e.address ∧ e'.stepDown = e.stepDown ∧ e'.travel = e.travel ∧ e'.stale = false ∧
          e'.last = some ⟨a.stamp, a.stage, a.level, a.cls, nowMs s⟩ ∧
          (e.travel = 0 → handling = 1 ∧ e'.contribution = c ∧ e'.queue = e.queue) ∧
          (e.travel ≠ 0 → e.queue.length < 4 → handling = 0 ∧ e'.contribution = e.contribution ∧
            e'.queue = e.queue ++ [⟨c, nowMs s + e.travel * 60000⟩]) ∧
          (e.travel ≠ 0 → 4 ≤ e.queue.length → handling = 2 ∧ e'.contribution = e.contribution ∧
            ∀ before x, e.queue = before ++ [x] → e'.queue = before ++ [⟨c, x.effective⟩])))

/-- The bin of an address, and SET_HASH (R160). -/
def Obligations.HashSet : Prop :=
  (∀ a, a < 65536 → hashBin a = (a ^^^ (a >>> 6) ^^^ (a >>> 12)) % 64) ∧
  hashBin 1234 = 1 ∧ hashBin 5000 = 7 ∧ hashBin 6000 = 44 ∧ hashBin 40000 = 56 ∧
  ∀ (p : Port) (marks : BitVec 64) (s : State), Takes p 0x74 s →
    exec (.setHash p marks) s = .next (setReply p ⟨.ok, setBytes 8 s.upstream.hash.toNat⟩
      { closeWindow p s with upstream := { s.upstream with hash := marks } })

/-- SET_UPSTREAM_ENTRY, SET_UPSTREAM_FILTER, CLEAR_UPSTREAM_COUNTERS and the two timers of an entry, with what
the Flood Warning, the slots and the open interval make of a floor that changes, and the run that follows: a
retreat that comes into force recalls it; from IDLE the first slot of the order list that asks is taken, at the
evaluation; otherwise the run, its results, the permit and the rest of the plan stay. The lines follow the
permit and the driven values (R28, R70, R140, R142 to R149, R159, R161, R165 to R168; R76, R77, R90 to R93,
R109, R176, R181, R182, R184; a resumed dwell with no time left: log entry 9). The order of the two values in a
two-valued reply field is the model's reading (log entry 11). That an expiry row changes nothing while its timer
does not run is the model's choice (log entry 1). A single take attempt at a change of the level is the model's
reading (log entry 10), and what a first fetch from an EMPTY plan reads is its choice (log entry 20). -/
def Obligations.UpstreamTable : Prop :=
  (∀ (p : Port) (i a d tr : Nat) (s : State), Takes p 0x73 s →
    let elsewhere := a ≠ 0 ∧ ∃ j, j < 16 ∧ j ≠ i ∧ (entryAt s j).address = a
    let fits := i ≤ 15 ∧ a ≤ 65535 ∧ d ≤ 3 ∧ tr ≤ 1440 ∧ ¬ elsewhere
    (¬ fits → Refuses (.setUpstreamEntry p i a d tr) p s ⟨.range, []⟩) ∧
    (fits → ∃ t, exec (.setUpstreamEntry p i a d tr) s = .next (setReply p
        ⟨.ok, u16 (entryAt s i).address ++ u8 (entryAt s i).contribution⟩ t) ∧
      KeepsBut (.upstream :: evaluationBlocks) (closeWindow p s) t ∧
      t.upstream = { s.upstream with
        entries := s.upstream.entries.setIfInBounds i ⟨a, d, tr, none, 0, false, []⟩
        floor := if (entryAt s i).contribution = 0 then s.upstream.floor else t.upstream.greatest } ∧
      FloorHanded s t ∧ SlotsJudged false none s t ∧ RunFollows [] false none s t ∧
      IntervalTakes false s t)) ∧
  (∀ (p : Port) (a : FilterArgs) (s : State), Takes p 0x75 s →
    let capFits := fun c => c = CapArg.drop ∨ ∃ n, c = CapArg.cap n ∧ n ≤ 3
    let fits := a.hashEnable ≤ 1 ∧ a.acceptAll ≤ 1 ∧ 10 ≤ a.staleLimit ∧ a.staleLimit ≤ 2880 ∧
      ∀ c ∈ a.classMap.toList, capFits c
    let spent := fun e : StationEntry => e.stale = false ∧ ∃ r, e.last = some r ∧
      r.arrival + a.staleLimit * 60000 ≤ nowMs s
    (¬ fits → Refuses (.setUpstreamFilter p a) p s ⟨.range, []⟩) ∧
    (fits → ∃ t, exec (.setUpstreamFilter p a) s = .next (setReply p ⟨.ok, filterData s.upstream⟩ t) ∧
      KeepsBut (.upstream :: evaluationBlocks) (closeWindow p s) t ∧
      (t.upstream.hashEnable = true ↔ a.hashEnable = 0) ∧
      (t.upstream.acceptAll = true ↔ a.acceptAll = 0) ∧ t.upstream.staleLimit = a.staleLimit ∧
      (∀ c, c < 8 → capArgOf (a.classMap[c]?.getD .drop) = some (at' t.upstream.classMap c)) ∧
      t.upstream.hash = s.upstream.hash ∧ t.upstream.counters = s.upstream.counters ∧
      FloorHanded s t ∧ SlotsJudged false none s t ∧ RunFollows [16] false none s t ∧
      IntervalTakes false s t ∧
      ((∀ i, i < 16 → ¬ spent (entryAt s i)) → t.upstream.floor = s.upstream.floor) ∧
      (∀ i, i < 16 → (¬ spent (entryAt s i) → entryAt t i = entryAt s i) ∧
        (spent (entryAt s i) → PendingWhereRouted 16 t ∧ t.upstream.floor = t.upstream.greatest ∧
          entryAt t i = { entryAt s i with stale := true, contribution := 0, queue := [] })))) ∧
  (∀ (p : Port) (s : State), Takes p 0x76 s →
    let n := s.upstream.counters
    exec (.clearUpstreamCounters p) s = .next (setReply p
      ⟨.ok, u16 n.table ++ u16 n.neighbour ++ u16 n.droppedClass ++ u16 n.droppedOrder
        ++ u16 n.droppedFilter⟩
      { closeWindow p s with upstream := { s.upstream with counters := ⟨0, 0, 0, 0, 0⟩ } })) ∧
  ∀ (i : Nat) (s : State), s.ports.por = false → i < 16 →
    let e := entryAt s i
    (e.queue = [] → exec (.delayTimerExpiry i) s = .next s) ∧
    (∀ x rest, e.queue = x :: rest →
      ∃ t, exec (.delayTimerExpiry i) s = .next t ∧ KeepsBut (.upstream :: evaluationBlocks) s t ∧
        t.upstream = { s.upstream with
          entries := s.upstream.entries.setIfInBounds i { e with contribution := x.value, queue := rest }
          floor := if x.value = e.contribution then s.upstream.floor else t.upstream.greatest } ∧
        FloorHanded s t ∧ SlotsJudged false none s t ∧ RunFollows [] false none s t ∧
        IntervalTakes false s t ∧
        (x.value = e.contribution → t.warning = s.warning ∧ t.notices = s.notices)) ∧
    (e.last = none ∨ e.stale = true → exec (.staleTimerExpiry i) s = .next s) ∧
    (e.last ≠ none → e.stale = false →
      ∃ t, exec (.staleTimerExpiry i) s = .next t ∧ KeepsBut (.upstream :: evaluationBlocks) s t ∧
        t.upstream = { s.upstream with
          entries := s.upstream.entries.setIfInBounds i
            { e with stale := true, contribution := 0, queue := [] }
          floor := t.upstream.greatest } ∧
        FloorHanded s t ∧ SlotsJudged false none s t ∧ RunFollows [16] false none s t ∧
        IntervalTakes false s t ∧ PendingWhereRouted 16 t)

/-! ## Field lines (chapter 9) -/

/-- READ_LINES, WRITE_LINES, which keeps all of a line but latch, pin and change of state, and CONFIGURE_LINE,
with the pin change that a new pull-up or drive makes and the take attempt; during a run that it does not trip
it changes nothing but what that pin change hands on. Each path of a CONFIGURE_LINE names the notice sources that it
may change: LINE_CHANGE of the line, SILENCED for an ACK_IN line, and those of a pass, a trip or a take (R76, R77,
R89 to R93, R101 to R104, R110, R175 to R180, R182, R184, R185, R189 to R194). The model's readings: the layout of CONFIGURE_LINE's reply (log entry 11), the values'
sixteen bytes in WRITE_LINES (14), a direction outside its two values passed over for a function other than
GENERAL (21), what an open pin reads (7), and a pin change that a configuration causes being handed on and
judged (28), and a pause with no pause time left (18). What a first fetch from an EMPTY plan reads is the
model's choice (log entry 20). -/
def Obligations.LineRequests : Prop :=
  (∀ (p : Port) (clear : Nat) (s : State), Takes p 0x80 s →
    (1 < clear → Refuses (.readLines p clear) p s ⟨.range, []⟩) ∧
    (clear = 1 → exec (.readLines p clear) s =
      .next (setReply p ⟨.ok, linesData s.lines⟩ (closeWindow p s))) ∧
    (clear = 0 → ∃ f, exec (.readLines p clear) s =
        .next (setReply p ⟨.ok, linesData s.lines⟩ { closeWindow p s with lines := f }) ∧
      { f with line := s.lines.line } = s.lines ∧
      ∀ i, i < 16 → at' f.line i = { lineAt s i with changed := false })) ∧
  (∀ (p : Port) (mask : BitVec 16) (values : Vector Nat 16) (s : State), Takes p 0x83 s →
    ((∃ i, i < 16 ∧ 1 < at' values i) → Refuses (.writeLines p mask values) p s ⟨.range, []⟩) ∧
    ((∀ i, i < 16 → at' values i ≤ 1) →
      ∃ t, exec (.writeLines p mask values) s =
          .next (setReply p ⟨.ok, writtenData mask s.lines⟩ t) ∧
        KeepsBut [.lines, .notices] (closeWindow p s) t ∧ t.lines.permit = s.lines.permit ∧
        t.lines.warnKept = s.lines.warnKept ∧ NoticesKeptBut [17] s t ∧
        ∀ i, i < 16 →
          let old := lineAt s i
          let written := mask.getLsbD i = true ∧ old.function = .general
          let moved := old.direction = .output ∧ (lineAt t i).latch ≠ old.latch
          (written → ((lineAt t i).latch = true ↔ at' values i = 0)) ∧
          (¬ written → (lineAt t i).latch = old.latch) ∧
          (moved → (lineAt t i).pin = (lineAt t i).levelFor (lineAt t i).latch) ∧
          (¬ moved → (lineAt t i).pin = old.pin) ∧
          (moved → old.arm = true → (lineAt t i).changed = true ∧ PendingWhereRouted 17 t) ∧
          (¬ moved ∨ old.arm = false → (lineAt t i).changed = old.changed) ∧
          (lineAt t i).function = old.function ∧ (lineAt t i).direction = old.direction ∧
          (lineAt t i).polarity = old.polarity ∧ (lineAt t i).arm = old.arm ∧
          (lineAt t i).pullUp = old.pullUp ∧ (lineAt t i).forced = old.forced)) ∧
  ∀ (p : Port) (a : LineArgs) (s : State), Takes p 0x82 s →
    (∀ f, firstFault (lineFieldsInRange a) = some f → Refuses (.configureLine p a) p s ⟨.range, u8 f⟩) ∧
    ∀ fn, firstFault (lineFieldsInRange a) = none → lineFunctionOf a.function a.output = some fn →
      let old := lineAt s a.line
      let others := (List.range 16).filter fun i => i != a.line && (lineAt s i).function == fn
      let full := (fn = .limitIn ∧ 2 ≤ others.length) ∨
        (fn ≠ .general ∧ fn ≠ .limitIn ∧ 1 ≤ others.length)
      let inUse := (s.plan.activeSlot ≠ none ∧
          (old.function = .meterIn ∨ old.function = .settledIn ∨ old.function = .permitOut) ∧
          (fn ≠ old.function ∨ polarityOf a.polarity ≠ some old.polarity)) ∨
        ((∃ k, k ≤ 3 ∧ (slotAt s k).armed = true ∧ (slotAt s k).definition.settledSense = .level) ∧
          old.function = .settledIn ∧ fn ≠ .settledIn)
      (∀ j rest, full → others = j :: rest → Refuses (.configureLine p a) p s ⟨.range, u8 j⟩) ∧
      (¬ full → inUse → Refuses (.configureLine p a) p s ⟨.inUse, []⟩) ∧
      (¬ full → ¬ inUse →
        ∃ t, exec (.configureLine p a) s = .next (setReply p ⟨.ok, lineConfigData old⟩ t) ∧
          KeepsBut (.warning :: runBlocks) (closeWindow p s) t ∧ (fn ≠ .ackIn → t.warning = s.warning) ∧
          (let new := lineAt t a.line
           new.function = fn ∧ polarityOf a.polarity = some new.polarity ∧
            (new.pullUp = true ↔ a.pullUp = 0) ∧ (new.arm = true ↔ a.arm = 0) ∧ new.latch = old.latch ∧
            (fn = .general → directionOf a.direction = some new.direction) ∧
            (fn = .meterIn ∨ fn = .settledIn ∨ fn = .limitIn ∨ fn = .ackIn → new.direction = .input) ∧
            (fn = .permitOut ∨ (∃ k, fn = .warnOut k) → new.direction = .output) ∧
            new.forced = old.forced ∧
            (∀ v, t.lines.drive new = some v → s.lines.drive old ≠ some v → new.pin = v) ∧
            (new.direction = .input → a.pullUp = 0 → old.forced = none →
              old.direction = .output ∨ old.pullUp = false → new.pin = .high) ∧
            (new.direction = .input → ∀ v, old.forced = some v → s.lines.drive old ≠ none → new.pin = v) ∧
            (fn = .general → new.direction = .output → old.direction = .input →
              new.pin = new.levelFor new.latch) ∧
            (new.pin = old.pin → t.engine.state = s.engine.state →
              new.changed = false ∧ PendingAsBefore 17 s t) ∧
            (new.direction = .output → t.engine.state = s.engine.state → new.changed = false) ∧
            (new.direction = .input → new.arm = false → new.changed = false) ∧
            (new.direction = .input → new.pin ≠ old.pin → new.arm = true →
              new.changed = true ∧ PendingWhereRouted 17 t) ∧
            (let silences := fn = .ackIn ∧ new.pin ≠ old.pin ∧ new.pin = new.polarity ∧ 1 ≤ s.warning.level
             (silences → Silenced s t) ∧
              (¬ silences → t.warning = s.warning ∧ t.lines.warnKept = s.lines.warnKept ∧
                PendingAsBefore 19 s t)) ∧
            (new.direction = .input → new.pin ≠ old.pin → s.engine.state ≠ .idle →
              PassageHanded a.line fn (new.pin = new.polarity) (closeWindow p s) t)) ∧
          (∀ i, i < 16 → i ≠ a.line → LineFollows i s t) ∧
          (let pin := (lineAt t a.line).pin
           let trips := fn = .limitIn ∧ polarityOf a.polarity = some pin ∧
            (old.function ≠ .limitIn ∨ old.polarity ≠ old.pin ∨ pin ≠ old.pin)
           let first := s.plan.order.find? (slotAsks s)
           let passes := (fn = .meterIn ∨ fn = .settledIn) ∧ pin ≠ old.pin
           let own := if fn = .ackIn then [17, 19] else pinSources (lineAt t a.line)
           (trips → t.engine.state = .tripped ∧ NoticesKeptBut (13 :: passSources) s t ∧
              (s.engine.state ≠ .tripped → t.engine.trip = .limit a.line ∧
                ClosesOpenPass t.stage.status .trip s t ∧
                (EngineInv s → TripTaken (.limit a.line) s t))) ∧
            (s.engine.state ≠ .idle → ¬ trips → ¬ passes →
              t.engine = s.engine ∧ t.plan = s.plan ∧ t.results = s.results ∧
                t.lines.permit = s.lines.permit ∧ NoticesKeptBut own s t) ∧
            (s.engine.state ≠ .idle → ¬ trips → passes → NoticesKeptBut passSources s t) ∧
            (s.engine.state = .tripped → t.engine = s.engine ∧ t.plan = s.plan ∧ t.results = s.results ∧
              t.lines.permit = s.lines.permit ∧ NoticesKeptBut own s t) ∧
            (s.engine.state = .idle → ¬ trips →
              (¬ TakeReady t ∨ first = none →
                t.engine = s.engine ∧ t.plan = s.plan ∧ t.results = s.results ∧
                  t.lines.permit = s.lines.permit ∧ NoticesKeptBut own s t) ∧
              (TakeReady t → ∀ j, first = some j →
                TakenSlot j s t ∧ NoticesKeptBut (own ++ takeSources) s t))))

/-- The outside forces a level on a line's pin or leaves it open: where the pin takes no new level, of an
output, and of an input, function by function; an open input with a pull-up goes high. Each case of an input names the notice
sources that it may change (R79, R87, R89, R101 to R104, R110, R154, R176, R177, R184, R189 to R194). The model's choices: a number that names no line changes nothing (log entry 24), and the pin
of a contended or floating line (log entry 7); that a pause with no pause time left restarts the point at once,
and that the point stays paused while it waits, are its readings of R103 (log entry 18). What a first fetch from
an EMPTY plan reads is the model's choice (log entry 20). -/
def Obligations.PinChanges : Prop :=
  (∀ (i : Nat) (outside : Option Level) (s : State), 16 ≤ i →
    exec (.linePinChange i outside) s = .next s) ∧
  (∀ (i : Nat) (outside : Option Level) (s : State), i < 16 →
    TakesLevel i outside (lineAt s i).pin s →
    exec (.linePinChange i outside) s = .next (setForced i outside s)) ∧
  (∀ (i : Nat) (outside : Option Level) (level : Level) (s : State), s.ports.por = false → i < 16 →
    TakesLevel i outside level s → (lineAt s i).pin ≠ level → (lineAt s i).direction = .output →
    (lineAt s i).function = .general ∨ (lineAt s i).function = .permitOut ∨
      (∃ k, (lineAt s i).function = .warnOut k) →
    exec (.linePinChange i outside) s = .next (setPin i level (setForced i outside s))) ∧
  ∀ (i : Nat) (outside : Option Level) (level : Level) (s : State), s.ports.por = false → i < 16 →
    TakesLevel i outside level s → (lineAt s i).pin ≠ level → (lineAt s i).direction = .input →
    let old := lineAt s i
    ∃ t, exec (.linePinChange i outside) s = .next t ∧
      KeepsBut (.warning :: runBlocks) s t ∧ (lineAt t i).pin = level ∧ (lineAt t i).forced = outside ∧
      (old.arm = true → (lineAt t i).changed = true ∧ PendingWhereRouted 17 t) ∧
      (old.arm = false → (lineAt t i).changed = old.changed) ∧
      { lineAt t i with pin := old.pin, forced := old.forced, changed := old.changed } = old ∧
      (∀ j, j < 16 → j ≠ i → LineFollows j s t) ∧
      PassageHanded i old.function (level = old.polarity) s t

/-! ## Notices (chapter 10) -/

/-- FETCH_NOTICES, SET_NOTICE_ENABLE, SET_ATTENTION and SET_ROUTE, each with the attention line it leaves; an
event source newly routed to a port is not pending there, and a route keeps every one-shot flag and what holds
(R189, R192 to R195). The order of the two values in a two-valued reply field is the model's reading (log entry
11). That SET_NOTICE_ENABLE's twenty marks are one set of three bytes, and that a mark beyond source 19 is
refused, is the model's reading (log entry 26). -/
def Obligations.NoticeRequests : Prop :=
  ∀ (p : Port) (s : State),
    let x := s.notices.port.get p
    (Takes p 0x90 s → ∃ y, exec (.fetchNotices p) s = .next (setReply p
        ⟨.ok, setBytes 3 x.pendingSet.toNat ++ setBytes 3 y.pendingSet.toNat ++ markByte y.master⟩
        { closeWindow p s with
          notices := { s.notices with port := s.notices.port.set p y } }) ∧
      y.enables = x.enables ∧ y.oneShot = x.oneShot ∧ y.historyReady = x.historyReady ∧
      y.master = (x.master && !x.oneShot) ∧
      y.attention = (y.master && (y.pendingSet &&& y.enables) != 0#20) ∧
      (∀ c k, (c, k) ∈ conditionNumbers →
        y.pendingSet.getLsbD k = (s.notices.routed k p && s.notices.holds c)) ∧
      y.pendingSet.getLsbD 18 = (s.notices.routed 18 p && x.historyReady) ∧
      ∀ k, k ∉ [2, 7, 10, 11, 14, 18] → y.pendingSet.getLsbD k = false) ∧
    (Takes p 0x93 s → ∀ marks : BitVec 24,
      (1048576 ≤ marks.toNat → Refuses (.setNoticeEnable p marks) p s ⟨.range, []⟩) ∧
      (marks.toNat < 1048576 → exec (.setNoticeEnable p marks) s = .next (setReply p
        ⟨.ok, setBytes 3 x.enables.toNat ++ setBytes 3 x.pendingSet.toNat⟩
        { closeWindow p s with
          notices := { s.notices with
            port := s.notices.port.set p { x with
              enables := marks.setWidth 20
              attention := x.master && (x.pendingSet &&& marks.setWidth 20) != 0#20 } } }))) ∧
    (Takes p 0x94 s → ∀ m o,
      (1 < m ∨ 1 < o → Refuses (.setAttention p m o) p s ⟨.range, []⟩) ∧
      (m ≤ 1 → o ≤ 1 → exec (.setAttention p m o) s = .next (setReply p
        ⟨.ok, markByte x.master ++ markByte x.oneShot ++ setBytes 3 x.pendingSet.toNat⟩
        { closeWindow p s with
          notices := { s.notices with
            port := s.notices.port.set p { x with
              master := decide (m = 0), oneShot := decide (o = 0)
              attention := decide (m = 0) && (x.pendingSet &&& x.enables) != 0#20 } } }))) ∧
    (Takes p 0x95 s → ∀ (n : Nat) (route : BitVec 8),
      (19 < n ∨ 8 ≤ route.toNat → Refuses (.setRoute p n route) p s ⟨.range, []⟩) ∧
      (n ≤ 19 → route.toNat < 8 → NoticeInv s →
        ∃ t, exec (.setRoute p n route) s =
            .next (setReply p ⟨.ok, u8 (at' s.notices.routes n).toNat⟩ t) ∧
          KeepsBut [.notices] (closeWindow p s) t ∧ NoticeInv t ∧
          t.notices.routes = s.notices.routes.setIfInBounds n (route.setWidth 3) ∧
          (∀ c, t.notices.holds c = s.notices.holds c) ∧
          ∀ q, (t.notices.port.get q).enables = (s.notices.port.get q).enables ∧
            (t.notices.port.get q).master = (s.notices.port.get q).master ∧
            (t.notices.port.get q).oneShot = (s.notices.port.get q).oneShot ∧
            (t.notices.port.get q).historyReady = (s.notices.port.get q).historyReady ∧
            (∀ k, k ≠ n → (t.notices.port.get q).pendingSet.getLsbD k =
              (s.notices.port.get q).pendingSet.getLsbD k) ∧
            (s.notices.routed n q = true → route.getLsbD (portCode q) = true →
              (t.notices.port.get q).pendingSet = (s.notices.port.get q).pendingSet) ∧
            (n ∉ [2, 7, 10, 11, 14, 18] → s.notices.routed n q = false →
              (t.notices.port.get q).pendingSet.getLsbD n = false) ∧
            (route.getLsbD (portCode q) = false →
              (t.notices.port.get q).pendingSet.getLsbD n = false)))

/-! ## Invariants that every step keeps -/

/-- The invariants hold after a power-on reset. -/
def Obligations.InvariantsAtReset : Prop :=
  NoticeInv State.reset ∧ EngineInv State.reset ∧ RetreatInv State.reset ∧ WarningInv State.reset ∧
    UpstreamInv State.reset ∧ StoreInv State.reset

/-- A port's pending set follows its routes and the conditions, and its attention line follows the master
enable, the pending set and the enables (R189, R191, R194). -/
def Obligations.NoticesKept : Prop :=
  ∀ s t : State, NoticeInv s → step s = .next t → NoticeInv t

/-- The permit is ACTIVE in exactly the six states of a run and WITHDRAWN in TRIPPED, the three conditions
follow the state, and every timer and record of the engine belongs to its state (R84 to R86, R181). -/
def Obligations.EngineKept : Prop :=
  ∀ s t : State, EngineInv s → step s = .next t → EngineInv t

/-- While retreat is in force, the Run Engine is in IDLE, HOMING or TRIPPED (R109). -/
def Obligations.RetreatKept : Prop :=
  ∀ s t : State, RetreatInv s → step s = .next t → RetreatInv t

/-- The level is never below its demand and exceeds it only while a dwell is pending or held, and the outputs
and their lines follow it (R143, R144, R151, R153, R182). -/
def Obligations.WarningKept : Prop :=
  ∀ s t : State, WarningInv s → UpstreamInv s → step s = .next t → WarningInv t

/-- Each delay queue holds at most 4 items with non-decreasing times, a stale entry contributes nothing, and the
floor is the greatest contribution (R164, R167), while the uptime count can still advance. -/
def Obligations.UpstreamKept : Prop :=
  ∀ s t : State, UpstreamInv s → s.clock.uptime < 4294967295 → step s = .next t → UpstreamInv t

/-- The ring holds at most 96 records numbered without a gap, the log at most 8 results, a pass at most 40
verticals numbered in order, the order list each slot once, and the active table is empty with version 0 or
holds 2 to 24 points in R39's ranges, in strictly increasing stage and non-decreasing discharge (R30, R39, R43,
R80, R93, R120, R129). -/
def Obligations.StoresKept : Prop :=
  ∀ s t : State, StoreInv s → step s = .next t → StoreInv t
end

