-- ==== Sys2Proof/Laws/State.lean ====
section
/-! SUPPORT. The fields of the states that the shared updates make: one lemma for each update and each
block it keeps, and for the block it writes where the value is short. -/

namespace Sys2Proof.Machine

variable (s : State)

/-! `setPort` -/

@[simp] theorem setPort_clock (p : Port) (x : PortState) : (setPort p x s).clock = s.clock := rfl
@[simp] theorem setPort_stage (p : Port) (x : PortState) : (setPort p x s).stage = s.stage := rfl
@[simp] theorem setPort_history (p : Port) (x : PortState) : (setPort p x s).history = s.history := rfl
@[simp] theorem setPort_rating (p : Port) (x : PortState) : (setPort p x s).rating = s.rating := rfl
@[simp] theorem setPort_plan (p : Port) (x : PortState) : (setPort p x s).plan = s.plan := rfl
@[simp] theorem setPort_engine (p : Port) (x : PortState) : (setPort p x s).engine = s.engine := rfl
@[simp] theorem setPort_results (p : Port) (x : PortState) : (setPort p x s).results = s.results := rfl
@[simp] theorem setPort_warning (p : Port) (x : PortState) : (setPort p x s).warning = s.warning := rfl
@[simp] theorem setPort_upstream (p : Port) (x : PortState) : (setPort p x s).upstream = s.upstream := rfl
@[simp] theorem setPort_lines (p : Port) (x : PortState) : (setPort p x s).lines = s.lines := rfl
@[simp] theorem setPort_notices (p : Port) (x : PortState) : (setPort p x s).notices = s.notices := rfl
@[simp] theorem setPort_pending (p : Port) (x : PortState) : (setPort p x s).pending = s.pending := rfl

/-! `closeWindow` -/

@[simp] theorem closeWindow_clock (p : Port) : (closeWindow p s).clock = s.clock := rfl
@[simp] theorem closeWindow_stage (p : Port) : (closeWindow p s).stage = s.stage := rfl
@[simp] theorem closeWindow_history (p : Port) : (closeWindow p s).history = s.history := rfl
@[simp] theorem closeWindow_rating (p : Port) : (closeWindow p s).rating = s.rating := rfl
@[simp] theorem closeWindow_plan (p : Port) : (closeWindow p s).plan = s.plan := rfl
@[simp] theorem closeWindow_engine (p : Port) : (closeWindow p s).engine = s.engine := rfl
@[simp] theorem closeWindow_results (p : Port) : (closeWindow p s).results = s.results := rfl
@[simp] theorem closeWindow_warning (p : Port) : (closeWindow p s).warning = s.warning := rfl
@[simp] theorem closeWindow_upstream (p : Port) : (closeWindow p s).upstream = s.upstream := rfl
@[simp] theorem closeWindow_lines (p : Port) : (closeWindow p s).lines = s.lines := rfl
@[simp] theorem closeWindow_notices (p : Port) : (closeWindow p s).notices = s.notices := rfl
@[simp] theorem closeWindow_pending (p : Port) : (closeWindow p s).pending = s.pending := rfl

/-! `setReply` -/

@[simp] theorem setReply_clock (p : Port) (r : Reply) : (setReply p r s).clock = s.clock := rfl
@[simp] theorem setReply_stage (p : Port) (r : Reply) : (setReply p r s).stage = s.stage := rfl
@[simp] theorem setReply_history (p : Port) (r : Reply) : (setReply p r s).history = s.history := rfl
@[simp] theorem setReply_rating (p : Port) (r : Reply) : (setReply p r s).rating = s.rating := rfl
@[simp] theorem setReply_plan (p : Port) (r : Reply) : (setReply p r s).plan = s.plan := rfl
@[simp] theorem setReply_engine (p : Port) (r : Reply) : (setReply p r s).engine = s.engine := rfl
@[simp] theorem setReply_results (p : Port) (r : Reply) : (setReply p r s).results = s.results := rfl
@[simp] theorem setReply_warning (p : Port) (r : Reply) : (setReply p r s).warning = s.warning := rfl
@[simp] theorem setReply_upstream (p : Port) (r : Reply) : (setReply p r s).upstream = s.upstream := rfl
@[simp] theorem setReply_lines (p : Port) (r : Reply) : (setReply p r s).lines = s.lines := rfl
@[simp] theorem setReply_notices (p : Port) (r : Reply) : (setReply p r s).notices = s.notices := rfl
@[simp] theorem setReply_pending (p : Port) (r : Reply) : (setReply p r s).pending = s.pending := rfl

/-! `advanceUptime` -/

@[simp] theorem advanceUptime_stage : (advanceUptime s).stage = s.stage := rfl
@[simp] theorem advanceUptime_history : (advanceUptime s).history = s.history := rfl
@[simp] theorem advanceUptime_rating : (advanceUptime s).rating = s.rating := rfl
@[simp] theorem advanceUptime_plan : (advanceUptime s).plan = s.plan := rfl
@[simp] theorem advanceUptime_engine : (advanceUptime s).engine = s.engine := rfl
@[simp] theorem advanceUptime_results : (advanceUptime s).results = s.results := rfl
@[simp] theorem advanceUptime_warning : (advanceUptime s).warning = s.warning := rfl
@[simp] theorem advanceUptime_upstream : (advanceUptime s).upstream = s.upstream := rfl
@[simp] theorem advanceUptime_lines : (advanceUptime s).lines = s.lines := rfl
@[simp] theorem advanceUptime_notices : (advanceUptime s).notices = s.notices := rfl
@[simp] theorem advanceUptime_ports : (advanceUptime s).ports = s.ports := rfl
@[simp] theorem advanceUptime_pending : (advanceUptime s).pending = s.pending := rfl

/-! `passMillisecond` -/

@[simp] theorem passMillisecond_stage : (passMillisecond s).stage = s.stage := rfl
@[simp] theorem passMillisecond_history : (passMillisecond s).history = s.history := rfl
@[simp] theorem passMillisecond_rating : (passMillisecond s).rating = s.rating := rfl
@[simp] theorem passMillisecond_plan : (passMillisecond s).plan = s.plan := rfl
@[simp] theorem passMillisecond_engine : (passMillisecond s).engine = s.engine := rfl
@[simp] theorem passMillisecond_results : (passMillisecond s).results = s.results := rfl
@[simp] theorem passMillisecond_warning : (passMillisecond s).warning = s.warning := rfl
@[simp] theorem passMillisecond_upstream : (passMillisecond s).upstream = s.upstream := rfl
@[simp] theorem passMillisecond_lines : (passMillisecond s).lines = s.lines := rfl
@[simp] theorem passMillisecond_notices : (passMillisecond s).notices = s.notices := rfl
@[simp] theorem passMillisecond_ports : (passMillisecond s).ports = s.ports := rfl
@[simp] theorem passMillisecond_pending : (passMillisecond s).pending = s.pending := rfl

/-! `withEngine` -/

@[simp] theorem withEngine_clock (e : RunEngine) : (withEngine e s).clock = s.clock := rfl
@[simp] theorem withEngine_stage (e : RunEngine) : (withEngine e s).stage = s.stage := rfl
@[simp] theorem withEngine_history (e : RunEngine) : (withEngine e s).history = s.history := rfl
@[simp] theorem withEngine_rating (e : RunEngine) : (withEngine e s).rating = s.rating := rfl
@[simp] theorem withEngine_plan (e : RunEngine) : (withEngine e s).plan = s.plan := rfl
@[simp] theorem withEngine_results (e : RunEngine) : (withEngine e s).results = s.results := rfl
@[simp] theorem withEngine_warning (e : RunEngine) : (withEngine e s).warning = s.warning := rfl
@[simp] theorem withEngine_upstream (e : RunEngine) : (withEngine e s).upstream = s.upstream := rfl
@[simp] theorem withEngine_lines (e : RunEngine) : (withEngine e s).lines = s.lines := rfl
@[simp] theorem withEngine_notices (e : RunEngine) : (withEngine e s).notices = s.notices := rfl
@[simp] theorem withEngine_ports (e : RunEngine) : (withEngine e s).ports = s.ports := rfl
@[simp] theorem withEngine_pending (e : RunEngine) : (withEngine e s).pending = s.pending := rfl

/-! `stopTimers` -/

@[simp] theorem stopTimers_clock : (stopTimers s).clock = s.clock := rfl
@[simp] theorem stopTimers_stage : (stopTimers s).stage = s.stage := rfl
@[simp] theorem stopTimers_history : (stopTimers s).history = s.history := rfl
@[simp] theorem stopTimers_rating : (stopTimers s).rating = s.rating := rfl
@[simp] theorem stopTimers_plan : (stopTimers s).plan = s.plan := rfl
@[simp] theorem stopTimers_results : (stopTimers s).results = s.results := rfl
@[simp] theorem stopTimers_warning : (stopTimers s).warning = s.warning := rfl
@[simp] theorem stopTimers_upstream : (stopTimers s).upstream = s.upstream := rfl
@[simp] theorem stopTimers_lines : (stopTimers s).lines = s.lines := rfl
@[simp] theorem stopTimers_notices : (stopTimers s).notices = s.notices := rfl
@[simp] theorem stopTimers_ports : (stopTimers s).ports = s.ports := rfl
@[simp] theorem stopTimers_pending : (stopTimers s).pending = s.pending := rfl

/-! `updateSlot` -/

@[simp] theorem updateSlot_clock (k : Nat) (f : Slot → Slot) : (updateSlot k f s).clock = s.clock := rfl
@[simp] theorem updateSlot_stage (k : Nat) (f : Slot → Slot) : (updateSlot k f s).stage = s.stage := rfl
@[simp] theorem updateSlot_history (k : Nat) (f : Slot → Slot) : (updateSlot k f s).history = s.history := rfl
@[simp] theorem updateSlot_rating (k : Nat) (f : Slot → Slot) : (updateSlot k f s).rating = s.rating := rfl
@[simp] theorem updateSlot_engine (k : Nat) (f : Slot → Slot) : (updateSlot k f s).engine = s.engine := rfl
@[simp] theorem updateSlot_results (k : Nat) (f : Slot → Slot) : (updateSlot k f s).results = s.results := rfl
@[simp] theorem updateSlot_warning (k : Nat) (f : Slot → Slot) : (updateSlot k f s).warning = s.warning := rfl
@[simp] theorem updateSlot_upstream (k : Nat) (f : Slot → Slot) : (updateSlot k f s).upstream = s.upstream := rfl
@[simp] theorem updateSlot_lines (k : Nat) (f : Slot → Slot) : (updateSlot k f s).lines = s.lines := rfl
@[simp] theorem updateSlot_notices (k : Nat) (f : Slot → Slot) : (updateSlot k f s).notices = s.notices := rfl
@[simp] theorem updateSlot_ports (k : Nat) (f : Slot → Slot) : (updateSlot k f s).ports = s.ports := rfl
@[simp] theorem updateSlot_pending (k : Nat) (f : Slot → Slot) : (updateSlot k f s).pending = s.pending := rfl

/-! `setPoolRecord` -/

@[simp] theorem setPoolRecord_clock (i : Nat) (r : VerticalRecord) : (setPoolRecord i r s).clock = s.clock := rfl
@[simp] theorem setPoolRecord_stage (i : Nat) (r : VerticalRecord) : (setPoolRecord i r s).stage = s.stage := rfl
@[simp] theorem setPoolRecord_history (i : Nat) (r : VerticalRecord) : (setPoolRecord i r s).history = s.history := rfl
@[simp] theorem setPoolRecord_rating (i : Nat) (r : VerticalRecord) : (setPoolRecord i r s).rating = s.rating := rfl
@[simp] theorem setPoolRecord_engine (i : Nat) (r : VerticalRecord) : (setPoolRecord i r s).engine = s.engine := rfl
@[simp] theorem setPoolRecord_results (i : Nat) (r : VerticalRecord) : (setPoolRecord i r s).results = s.results := rfl
@[simp] theorem setPoolRecord_warning (i : Nat) (r : VerticalRecord) : (setPoolRecord i r s).warning = s.warning := rfl
@[simp] theorem setPoolRecord_upstream (i : Nat) (r : VerticalRecord) : (setPoolRecord i r s).upstream = s.upstream := rfl
@[simp] theorem setPoolRecord_lines (i : Nat) (r : VerticalRecord) : (setPoolRecord i r s).lines = s.lines := rfl
@[simp] theorem setPoolRecord_notices (i : Nat) (r : VerticalRecord) : (setPoolRecord i r s).notices = s.notices := rfl
@[simp] theorem setPoolRecord_ports (i : Nat) (r : VerticalRecord) : (setPoolRecord i r s).ports = s.ports := rfl
@[simp] theorem setPoolRecord_pending (i : Nat) (r : VerticalRecord) : (setPoolRecord i r s).pending = s.pending := rfl

/-! `withTable` -/

@[simp] theorem withTable_clock (t : List TableEntry) : (withTable t s).clock = s.clock := rfl
@[simp] theorem withTable_stage (t : List TableEntry) : (withTable t s).stage = s.stage := rfl
@[simp] theorem withTable_history (t : List TableEntry) : (withTable t s).history = s.history := rfl
@[simp] theorem withTable_rating (t : List TableEntry) : (withTable t s).rating = s.rating := rfl
@[simp] theorem withTable_plan (t : List TableEntry) : (withTable t s).plan = s.plan := rfl
@[simp] theorem withTable_engine (t : List TableEntry) : (withTable t s).engine = s.engine := rfl
@[simp] theorem withTable_warning (t : List TableEntry) : (withTable t s).warning = s.warning := rfl
@[simp] theorem withTable_upstream (t : List TableEntry) : (withTable t s).upstream = s.upstream := rfl
@[simp] theorem withTable_lines (t : List TableEntry) : (withTable t s).lines = s.lines := rfl
@[simp] theorem withTable_notices (t : List TableEntry) : (withTable t s).notices = s.notices := rfl
@[simp] theorem withTable_ports (t : List TableEntry) : (withTable t s).ports = s.ports := rfl
@[simp] theorem withTable_pending (t : List TableEntry) : (withTable t s).pending = s.pending := rfl

/-! `beginPass` -/

@[simp] theorem beginPass_clock : (beginPass s).clock = s.clock := rfl
@[simp] theorem beginPass_stage : (beginPass s).stage = s.stage := rfl
@[simp] theorem beginPass_history : (beginPass s).history = s.history := rfl
@[simp] theorem beginPass_rating : (beginPass s).rating = s.rating := rfl
@[simp] theorem beginPass_plan : (beginPass s).plan = s.plan := rfl
@[simp] theorem beginPass_engine : (beginPass s).engine = s.engine := rfl
@[simp] theorem beginPass_warning : (beginPass s).warning = s.warning := rfl
@[simp] theorem beginPass_upstream : (beginPass s).upstream = s.upstream := rfl
@[simp] theorem beginPass_lines : (beginPass s).lines = s.lines := rfl
@[simp] theorem beginPass_notices : (beginPass s).notices = s.notices := rfl
@[simp] theorem beginPass_ports : (beginPass s).ports = s.ports := rfl
@[simp] theorem beginPass_pending : (beginPass s).pending = s.pending := rfl

/-! `writeResult` -/

@[simp] theorem writeResult_clock (status : PassStatus) (cause : EndCause) (h : Int) (held : Bool) : (writeResult status cause h held s).clock = s.clock := rfl
@[simp] theorem writeResult_stage (status : PassStatus) (cause : EndCause) (h : Int) (held : Bool) : (writeResult status cause h held s).stage = s.stage := rfl
@[simp] theorem writeResult_history (status : PassStatus) (cause : EndCause) (h : Int) (held : Bool) : (writeResult status cause h held s).history = s.history := rfl
@[simp] theorem writeResult_rating (status : PassStatus) (cause : EndCause) (h : Int) (held : Bool) : (writeResult status cause h held s).rating = s.rating := rfl
@[simp] theorem writeResult_plan (status : PassStatus) (cause : EndCause) (h : Int) (held : Bool) : (writeResult status cause h held s).plan = s.plan := rfl
@[simp] theorem writeResult_engine (status : PassStatus) (cause : EndCause) (h : Int) (held : Bool) : (writeResult status cause h held s).engine = s.engine := rfl
@[simp] theorem writeResult_warning (status : PassStatus) (cause : EndCause) (h : Int) (held : Bool) : (writeResult status cause h held s).warning = s.warning := rfl
@[simp] theorem writeResult_upstream (status : PassStatus) (cause : EndCause) (h : Int) (held : Bool) : (writeResult status cause h held s).upstream = s.upstream := rfl
@[simp] theorem writeResult_lines (status : PassStatus) (cause : EndCause) (h : Int) (held : Bool) : (writeResult status cause h held s).lines = s.lines := rfl
@[simp] theorem writeResult_notices (status : PassStatus) (cause : EndCause) (h : Int) (held : Bool) : (writeResult status cause h held s).notices = s.notices := rfl
@[simp] theorem writeResult_ports (status : PassStatus) (cause : EndCause) (h : Int) (held : Bool) : (writeResult status cause h held s).ports = s.ports := rfl
@[simp] theorem writeResult_pending (status : PassStatus) (cause : EndCause) (h : Int) (held : Bool) : (writeResult status cause h held s).pending = s.pending := rfl

/-! `raise` -/

@[simp] theorem raise_clock (e : Source) : (raise e s).clock = s.clock := rfl
@[simp] theorem raise_stage (e : Source) : (raise e s).stage = s.stage := rfl
@[simp] theorem raise_history (e : Source) : (raise e s).history = s.history := rfl
@[simp] theorem raise_rating (e : Source) : (raise e s).rating = s.rating := rfl
@[simp] theorem raise_plan (e : Source) : (raise e s).plan = s.plan := rfl
@[simp] theorem raise_engine (e : Source) : (raise e s).engine = s.engine := rfl
@[simp] theorem raise_results (e : Source) : (raise e s).results = s.results := rfl
@[simp] theorem raise_warning (e : Source) : (raise e s).warning = s.warning := rfl
@[simp] theorem raise_upstream (e : Source) : (raise e s).upstream = s.upstream := rfl
@[simp] theorem raise_lines (e : Source) : (raise e s).lines = s.lines := rfl
@[simp] theorem raise_ports (e : Source) : (raise e s).ports = s.ports := rfl
@[simp] theorem raise_pending (e : Source) : (raise e s).pending = s.pending := rfl

/-! `handCondition` -/

@[simp] theorem handCondition_clock (c : Condition) (v : Bool) : (handCondition c v s).clock = s.clock := rfl
@[simp] theorem handCondition_stage (c : Condition) (v : Bool) : (handCondition c v s).stage = s.stage := rfl
@[simp] theorem handCondition_history (c : Condition) (v : Bool) : (handCondition c v s).history = s.history := rfl
@[simp] theorem handCondition_rating (c : Condition) (v : Bool) : (handCondition c v s).rating = s.rating := rfl
@[simp] theorem handCondition_plan (c : Condition) (v : Bool) : (handCondition c v s).plan = s.plan := rfl
@[simp] theorem handCondition_engine (c : Condition) (v : Bool) : (handCondition c v s).engine = s.engine := rfl
@[simp] theorem handCondition_results (c : Condition) (v : Bool) : (handCondition c v s).results = s.results := rfl
@[simp] theorem handCondition_warning (c : Condition) (v : Bool) : (handCondition c v s).warning = s.warning := rfl
@[simp] theorem handCondition_upstream (c : Condition) (v : Bool) : (handCondition c v s).upstream = s.upstream := rfl
@[simp] theorem handCondition_lines (c : Condition) (v : Bool) : (handCondition c v s).lines = s.lines := rfl
@[simp] theorem handCondition_ports (c : Condition) (v : Bool) : (handCondition c v s).ports = s.ports := rfl
@[simp] theorem handCondition_pending (c : Condition) (v : Bool) : (handCondition c v s).pending = s.pending := rfl

/-! `handReady` -/

@[simp] theorem handReady_clock (p : Port) (v : Bool) : (handReady p v s).clock = s.clock := rfl
@[simp] theorem handReady_stage (p : Port) (v : Bool) : (handReady p v s).stage = s.stage := rfl
@[simp] theorem handReady_history (p : Port) (v : Bool) : (handReady p v s).history = s.history := rfl
@[simp] theorem handReady_rating (p : Port) (v : Bool) : (handReady p v s).rating = s.rating := rfl
@[simp] theorem handReady_plan (p : Port) (v : Bool) : (handReady p v s).plan = s.plan := rfl
@[simp] theorem handReady_engine (p : Port) (v : Bool) : (handReady p v s).engine = s.engine := rfl
@[simp] theorem handReady_results (p : Port) (v : Bool) : (handReady p v s).results = s.results := rfl
@[simp] theorem handReady_warning (p : Port) (v : Bool) : (handReady p v s).warning = s.warning := rfl
@[simp] theorem handReady_upstream (p : Port) (v : Bool) : (handReady p v s).upstream = s.upstream := rfl
@[simp] theorem handReady_lines (p : Port) (v : Bool) : (handReady p v s).lines = s.lines := rfl
@[simp] theorem handReady_ports (p : Port) (v : Bool) : (handReady p v s).ports = s.ports := rfl
@[simp] theorem handReady_pending (p : Port) (v : Bool) : (handReady p v s).pending = s.pending := rfl

/-! `setEntry` -/

@[simp] theorem setEntry_clock (i : Nat) (e : StationEntry) : (setEntry i e s).clock = s.clock := rfl
@[simp] theorem setEntry_stage (i : Nat) (e : StationEntry) : (setEntry i e s).stage = s.stage := rfl
@[simp] theorem setEntry_history (i : Nat) (e : StationEntry) : (setEntry i e s).history = s.history := rfl
@[simp] theorem setEntry_rating (i : Nat) (e : StationEntry) : (setEntry i e s).rating = s.rating := rfl
@[simp] theorem setEntry_plan (i : Nat) (e : StationEntry) : (setEntry i e s).plan = s.plan := rfl
@[simp] theorem setEntry_engine (i : Nat) (e : StationEntry) : (setEntry i e s).engine = s.engine := rfl
@[simp] theorem setEntry_results (i : Nat) (e : StationEntry) : (setEntry i e s).results = s.results := rfl
@[simp] theorem setEntry_warning (i : Nat) (e : StationEntry) : (setEntry i e s).warning = s.warning := rfl
@[simp] theorem setEntry_lines (i : Nat) (e : StationEntry) : (setEntry i e s).lines = s.lines := rfl
@[simp] theorem setEntry_notices (i : Nat) (e : StationEntry) : (setEntry i e s).notices = s.notices := rfl
@[simp] theorem setEntry_ports (i : Nat) (e : StationEntry) : (setEntry i e s).ports = s.ports := rfl
@[simp] theorem setEntry_pending (i : Nat) (e : StationEntry) : (setEntry i e s).pending = s.pending := rfl

/-! `countReport` -/

@[simp] theorem countReport_clock (d : Disposition) : (countReport d s).clock = s.clock := rfl
@[simp] theorem countReport_stage (d : Disposition) : (countReport d s).stage = s.stage := rfl
@[simp] theorem countReport_history (d : Disposition) : (countReport d s).history = s.history := rfl
@[simp] theorem countReport_rating (d : Disposition) : (countReport d s).rating = s.rating := rfl
@[simp] theorem countReport_plan (d : Disposition) : (countReport d s).plan = s.plan := rfl
@[simp] theorem countReport_engine (d : Disposition) : (countReport d s).engine = s.engine := rfl
@[simp] theorem countReport_results (d : Disposition) : (countReport d s).results = s.results := rfl
@[simp] theorem countReport_warning (d : Disposition) : (countReport d s).warning = s.warning := rfl
@[simp] theorem countReport_lines (d : Disposition) : (countReport d s).lines = s.lines := rfl
@[simp] theorem countReport_notices (d : Disposition) : (countReport d s).notices = s.notices := rfl
@[simp] theorem countReport_ports (d : Disposition) : (countReport d s).ports = s.ports := rfl
@[simp] theorem countReport_pending (d : Disposition) : (countReport d s).pending = s.pending := rfl

/-! `setOutput` -/

@[simp] theorem setOutput_clock (k : Nat) (o : WarningOutput) : (setOutput k o s).clock = s.clock := rfl
@[simp] theorem setOutput_stage (k : Nat) (o : WarningOutput) : (setOutput k o s).stage = s.stage := rfl
@[simp] theorem setOutput_history (k : Nat) (o : WarningOutput) : (setOutput k o s).history = s.history := rfl
@[simp] theorem setOutput_rating (k : Nat) (o : WarningOutput) : (setOutput k o s).rating = s.rating := rfl
@[simp] theorem setOutput_plan (k : Nat) (o : WarningOutput) : (setOutput k o s).plan = s.plan := rfl
@[simp] theorem setOutput_engine (k : Nat) (o : WarningOutput) : (setOutput k o s).engine = s.engine := rfl
@[simp] theorem setOutput_results (k : Nat) (o : WarningOutput) : (setOutput k o s).results = s.results := rfl
@[simp] theorem setOutput_upstream (k : Nat) (o : WarningOutput) : (setOutput k o s).upstream = s.upstream := rfl
@[simp] theorem setOutput_lines (k : Nat) (o : WarningOutput) : (setOutput k o s).lines = s.lines := rfl
@[simp] theorem setOutput_notices (k : Nat) (o : WarningOutput) : (setOutput k o s).notices = s.notices := rfl
@[simp] theorem setOutput_ports (k : Nat) (o : WarningOutput) : (setOutput k o s).ports = s.ports := rfl
@[simp] theorem setOutput_pending (k : Nat) (o : WarningOutput) : (setOutput k o s).pending = s.pending := rfl

/-! `setOverrides` -/

@[simp] theorem setOverrides_clock (v : Override) (mask : BitVec 8) : (setOverrides v mask s).clock = s.clock := rfl
@[simp] theorem setOverrides_stage (v : Override) (mask : BitVec 8) : (setOverrides v mask s).stage = s.stage := rfl
@[simp] theorem setOverrides_history (v : Override) (mask : BitVec 8) : (setOverrides v mask s).history = s.history := rfl
@[simp] theorem setOverrides_rating (v : Override) (mask : BitVec 8) : (setOverrides v mask s).rating = s.rating := rfl
@[simp] theorem setOverrides_plan (v : Override) (mask : BitVec 8) : (setOverrides v mask s).plan = s.plan := rfl
@[simp] theorem setOverrides_engine (v : Override) (mask : BitVec 8) : (setOverrides v mask s).engine = s.engine := rfl
@[simp] theorem setOverrides_results (v : Override) (mask : BitVec 8) : (setOverrides v mask s).results = s.results := rfl
@[simp] theorem setOverrides_upstream (v : Override) (mask : BitVec 8) : (setOverrides v mask s).upstream = s.upstream := rfl
@[simp] theorem setOverrides_lines (v : Override) (mask : BitVec 8) : (setOverrides v mask s).lines = s.lines := rfl
@[simp] theorem setOverrides_notices (v : Override) (mask : BitVec 8) : (setOverrides v mask s).notices = s.notices := rfl
@[simp] theorem setOverrides_ports (v : Override) (mask : BitVec 8) : (setOverrides v mask s).ports = s.ports := rfl
@[simp] theorem setOverrides_pending (v : Override) (mask : BitVec 8) : (setOverrides v mask s).pending = s.pending := rfl

/-! `setForced` -/

@[simp] theorem setForced_clock (i : Nat) (v : Option Level) : (setForced i v s).clock = s.clock := rfl
@[simp] theorem setForced_stage (i : Nat) (v : Option Level) : (setForced i v s).stage = s.stage := rfl
@[simp] theorem setForced_history (i : Nat) (v : Option Level) : (setForced i v s).history = s.history := rfl
@[simp] theorem setForced_rating (i : Nat) (v : Option Level) : (setForced i v s).rating = s.rating := rfl
@[simp] theorem setForced_plan (i : Nat) (v : Option Level) : (setForced i v s).plan = s.plan := rfl
@[simp] theorem setForced_engine (i : Nat) (v : Option Level) : (setForced i v s).engine = s.engine := rfl
@[simp] theorem setForced_results (i : Nat) (v : Option Level) : (setForced i v s).results = s.results := rfl
@[simp] theorem setForced_warning (i : Nat) (v : Option Level) : (setForced i v s).warning = s.warning := rfl
@[simp] theorem setForced_upstream (i : Nat) (v : Option Level) : (setForced i v s).upstream = s.upstream := rfl
@[simp] theorem setForced_notices (i : Nat) (v : Option Level) : (setForced i v s).notices = s.notices := rfl
@[simp] theorem setForced_ports (i : Nat) (v : Option Level) : (setForced i v s).ports = s.ports := rfl
@[simp] theorem setForced_pending (i : Nat) (v : Option Level) : (setForced i v s).pending = s.pending := rfl

/-! `setPin` -/

@[simp] theorem setPin_clock (i : Nat) (level : Level) : (setPin i level s).clock = s.clock := rfl
@[simp] theorem setPin_stage (i : Nat) (level : Level) : (setPin i level s).stage = s.stage := rfl
@[simp] theorem setPin_history (i : Nat) (level : Level) : (setPin i level s).history = s.history := rfl
@[simp] theorem setPin_rating (i : Nat) (level : Level) : (setPin i level s).rating = s.rating := rfl
@[simp] theorem setPin_plan (i : Nat) (level : Level) : (setPin i level s).plan = s.plan := rfl
@[simp] theorem setPin_engine (i : Nat) (level : Level) : (setPin i level s).engine = s.engine := rfl
@[simp] theorem setPin_results (i : Nat) (level : Level) : (setPin i level s).results = s.results := rfl
@[simp] theorem setPin_warning (i : Nat) (level : Level) : (setPin i level s).warning = s.warning := rfl
@[simp] theorem setPin_upstream (i : Nat) (level : Level) : (setPin i level s).upstream = s.upstream := rfl
@[simp] theorem setPin_notices (i : Nat) (level : Level) : (setPin i level s).notices = s.notices := rfl
@[simp] theorem setPin_ports (i : Nat) (level : Level) : (setPin i level s).ports = s.ports := rfl
@[simp] theorem setPin_pending (i : Nat) (level : Level) : (setPin i level s).pending = s.pending := rfl

/-! `clearReturned` -/

@[simp] theorem clearReturned_clock : (clearReturned s).clock = s.clock := rfl
@[simp] theorem clearReturned_stage : (clearReturned s).stage = s.stage := rfl
@[simp] theorem clearReturned_history : (clearReturned s).history = s.history := rfl
@[simp] theorem clearReturned_rating : (clearReturned s).rating = s.rating := rfl
@[simp] theorem clearReturned_plan : (clearReturned s).plan = s.plan := rfl
@[simp] theorem clearReturned_engine : (clearReturned s).engine = s.engine := rfl
@[simp] theorem clearReturned_results : (clearReturned s).results = s.results := rfl
@[simp] theorem clearReturned_warning : (clearReturned s).warning = s.warning := rfl
@[simp] theorem clearReturned_upstream : (clearReturned s).upstream = s.upstream := rfl
@[simp] theorem clearReturned_notices : (clearReturned s).notices = s.notices := rfl
@[simp] theorem clearReturned_ports : (clearReturned s).ports = s.ports := rfl
@[simp] theorem clearReturned_pending : (clearReturned s).pending = s.pending := rfl

/-! `withResetN` -/

@[simp] theorem withResetN_clock (v : Bool) : (withResetN v s).clock = s.clock := rfl
@[simp] theorem withResetN_stage (v : Bool) : (withResetN v s).stage = s.stage := rfl
@[simp] theorem withResetN_history (v : Bool) : (withResetN v s).history = s.history := rfl
@[simp] theorem withResetN_rating (v : Bool) : (withResetN v s).rating = s.rating := rfl
@[simp] theorem withResetN_plan (v : Bool) : (withResetN v s).plan = s.plan := rfl
@[simp] theorem withResetN_engine (v : Bool) : (withResetN v s).engine = s.engine := rfl
@[simp] theorem withResetN_results (v : Bool) : (withResetN v s).results = s.results := rfl
@[simp] theorem withResetN_warning (v : Bool) : (withResetN v s).warning = s.warning := rfl
@[simp] theorem withResetN_upstream (v : Bool) : (withResetN v s).upstream = s.upstream := rfl
@[simp] theorem withResetN_lines (v : Bool) : (withResetN v s).lines = s.lines := rfl
@[simp] theorem withResetN_notices (v : Bool) : (withResetN v s).notices = s.notices := rfl
@[simp] theorem withResetN_pending (v : Bool) : (withResetN v s).pending = s.pending := rfl

/-! `restartSample` -/

@[simp] theorem restartSample_clock : (restartSample s).clock = s.clock := rfl
@[simp] theorem restartSample_history : (restartSample s).history = s.history := rfl
@[simp] theorem restartSample_rating : (restartSample s).rating = s.rating := rfl
@[simp] theorem restartSample_plan : (restartSample s).plan = s.plan := rfl
@[simp] theorem restartSample_engine : (restartSample s).engine = s.engine := rfl
@[simp] theorem restartSample_results : (restartSample s).results = s.results := rfl
@[simp] theorem restartSample_warning : (restartSample s).warning = s.warning := rfl
@[simp] theorem restartSample_upstream : (restartSample s).upstream = s.upstream := rfl
@[simp] theorem restartSample_lines : (restartSample s).lines = s.lines := rfl
@[simp] theorem restartSample_notices : (restartSample s).notices = s.notices := rfl
@[simp] theorem restartSample_ports : (restartSample s).ports = s.ports := rfl
@[simp] theorem restartSample_pending : (restartSample s).pending = s.pending := rfl

/-! The blocks that the updates write -/

@[simp] theorem withEngine_engine (e : RunEngine) : (withEngine e s).engine = e := rfl

@[simp] theorem withTable_table (t : List TableEntry) : (withTable t s).results.table = t := rfl

@[simp] theorem raise_notices (e : Source) : (raise e s).notices = s.notices.raise e := rfl

@[simp] theorem handCondition_notices (c : Condition) (v : Bool) :
    (handCondition c v s).notices = s.notices.hand c v := rfl

@[simp] theorem setPin_permit (i : Nat) (level : Level) :
    (setPin i level s).lines.permit = s.lines.permit := rfl

@[simp] theorem setPin_warnKept (i : Nat) (level : Level) :
    (setPin i level s).lines.warnKept = s.lines.warnKept := rfl

@[simp] theorem setForced_permit (i : Nat) (v : Option Level) :
    (setForced i v s).lines.permit = s.lines.permit := rfl

@[simp] theorem setForced_warnKept (i : Nat) (v : Option Level) :
    (setForced i v s).lines.warnKept = s.lines.warnKept := rfl

@[simp] theorem setEntry_floor (i : Nat) (e : StationEntry) :
    (setEntry i e s).upstream.floor = s.upstream.floor := rfl

@[simp] theorem withEngine_withEngine (e e' : RunEngine) :
    withEngine e (withEngine e' s) = withEngine e s := rfl

/-! A port's value after one port's value is replaced. -/

@[simp] theorem PerPort.get_set_self {α : Type} (a : PerPort α) (p : Port) (x : α) :
    (a.set p x).get p = x := by cases p <;> rfl

theorem PerPort.get_set_other {α : Type} (a : PerPort α) {p q : Port} (h : q ≠ p) (x : α) :
    (a.set p x).get q = a.get q := by cases p <;> cases q <;> simp_all [PerPort.get, PerPort.set]

@[simp] theorem PerPort.get_mapPorts {α β : Type} (f : Port → α → β) (a : PerPort α) (p : Port) :
    (a.mapPorts f).get p = f p (a.get p) := by cases p <;> rfl

/-! A table's record after one record is replaced. -/

theorem at'_put_self {α : Type} [Inhabited α] {n : Nat} (v : Vector α n) {i : Nat} (h : i < n) (x : α) :
    at' (put v i x) i = x := by simp [at', put, h]

theorem at'_put_other {α : Type} [Inhabited α] {n : Nat} (v : Vector α n) {i j : Nat} (h : j ≠ i) (x : α) :
    at' (put v i x) j = at' v j := by
  simp [at', put, Ne.symm h]

theorem at'_eq {α : Type} [Inhabited α] {n : Nat} (v : Vector α n) {i : Nat} (h : i < n) :
    at' v i = v[i] := by simp [at', h]

theorem at'_map {α β : Type} [Inhabited α] [Inhabited β] {n : Nat} (v : Vector α n) (f : α → β) {i : Nat}
    (h : i < n) : at' (v.map f) i = f (at' v i) := by simp [at', h]

end Sys2Proof.Machine
end

