-- ==== Sys2Proof/Laws/Frames.lean ====
section
/-! SUPPORT. The frames of the shared operations: which blocks each may change. A frame of a command is
assembled from them with `KeepsBut.trans` and `KeepsBut.mono`. -/

namespace Sys2Proof.Machine

theorem KeepsBut.refl (bs : List Block) (s : State) : KeepsBut bs s s := by
  intro b _; cases b <;> rfl

theorem KeepsBut.trans {bs : List Block} {s t u : State} (h : KeepsBut bs s t) (h' : KeepsBut bs t u) :
    KeepsBut bs s u := by
  intro b hb
  have := h b hb
  have := h' b hb
  cases b <;> simp_all [sameBlock]

theorem KeepsBut.mono {bs cs : List Block} {s t : State} (h : KeepsBut bs s t)
    (hs : ∀ b, b ∈ bs → b ∈ cs) : KeepsBut cs s t := fun b hb => h b fun hm => hb (hs b hm)

/-- A frame holds of either outcome of a choice. -/
theorem KeepsBut.ite {bs : List Block} {s t u : State} {c : Prop} [Decidable c] (h : KeepsBut bs s t)
    (h' : KeepsBut bs s u) : KeepsBut bs s (if c then t else u) := by
  split <;> assumption

/-! ## Notices and lines -/

theorem raise_keeps (e : Source) (s : State) : KeepsBut [.notices] s (raise e s) := by
  intro b hb; cases b <;> first | rfl | simp at hb

theorem raiseIf_keeps (v : Bool) (e : Source) (s : State) : KeepsBut [.notices] s (raiseIf v e s) := by
  unfold raiseIf; exact (raise_keeps e s).ite (.refl _ s)

theorem handCondition_keeps (c : Condition) (v : Bool) (s : State) :
    KeepsBut [.notices] s (handCondition c v s) := by
  intro b hb; cases b <;> first | rfl | simp at hb

theorem handReady_keeps (p : Port) (v : Bool) (s : State) :
    KeepsBut [.notices] s (handReady p v s) := by
  intro b hb; cases b <;> first | rfl | simp at hb

/-- The blocks that a change of the line values may change. -/
def lineBlocks : List Block := [.lines, .notices]

theorem withLines_keeps (f : FieldLines) (s : State) : KeepsBut lineBlocks s { s with lines := f } := by
  intro b hb; cases b <;> first | rfl | simp [lineBlocks] at hb

theorem judgeLines_keeps (old : FieldLines) (s : State) : KeepsBut lineBlocks s (judgeLines old s) :=
  (withLines_keeps _ s).trans ((raiseIf_keeps _ _ _).mono (by simp [lineBlocks]))

theorem changeLines_keeps (f : FieldLines) (s : State) : KeepsBut lineBlocks s (changeLines f s) :=
  (withLines_keeps _ s).trans (judgeLines_keeps _ _)

theorem handPermit_keeps (v : Permit) (s : State) : KeepsBut lineBlocks s (handPermit v s) :=
  (KeepsBut.refl _ s).ite (changeLines_keeps _ s)

theorem handDriven_keeps (v : Vector Bool 4) (s : State) : KeepsBut lineBlocks s (handDriven v s) :=
  (KeepsBut.refl _ s).ite (changeLines_keeps _ s)

/-! ## The run engine -/

/-- The blocks that a change of the engine's state may change. -/
def stateBlocks : List Block := [.engine, .lines, .notices]

/-- The blocks that a close or a recall may change. -/
def recallBlocks : List Block := [.engine, .results, .lines, .notices]

theorem withEngine_keeps (e : RunEngine) (s : State) : KeepsBut [.engine] s (withEngine e s) := by
  intro b hb; cases b <;> first | rfl | simp at hb

theorem withTable_keeps (t : List TableEntry) (s : State) : KeepsBut [.results] s (withTable t s) := by
  intro b hb; cases b <;> first | rfl | simp at hb

theorem enter_keeps (st : RunState) (s : State) : KeepsBut stateBlocks s (enter st s) := by
  have n (c : Condition) (v : Bool) (t : State) : KeepsBut stateBlocks t (handCondition c v t) :=
    (handCondition_keeps c v t).mono (by simp [stateBlocks])
  exact ((withEngine_keeps _ s).mono (by simp [stateBlocks])).trans
    (((handPermit_keeps _ _).mono (by simp [stateBlocks, lineBlocks])).trans
      ((n _ _ _).trans ((n _ _ _).trans (n _ _ _))))

theorem stopTimers_keeps (s : State) : KeepsBut [.engine] s (stopTimers s) := withEngine_keeps _ s

theorem writeResult_keeps (status : PassStatus) (cause : EndCause) (h : Int) (held : Bool) (s : State) :
    KeepsBut [.results] s (writeResult status cause h held s) := by
  intro b hb; cases b <;> first | rfl | simp at hb

theorem closePass_keeps (status : PassStatus) (cause : EndCause) (s : State) :
    KeepsBut recallBlocks s (closePass status cause s) :=
  ((writeResult_keeps _ _ _ _ s).mono (by simp [recallBlocks])).trans
    (((withEngine_keeps _ _).mono (by simp [recallBlocks])).trans
      ((raise_keeps _ _).mono (by simp [recallBlocks])))

theorem closeIfOpen_keeps (cause : EndCause) (s : State) :
    KeepsBut recallBlocks s (closeIfOpen cause s) :=
  (closePass_keeps _ _ s).ite (.refl _ s)

theorem recallRun_keeps (cause : EndCause) (s : State) : KeepsBut recallBlocks s (recallRun cause s) :=
  ((stopTimers_keeps s).mono (by simp [recallBlocks])).trans
    ((closeIfOpen_keeps _ _).trans
      (((withEngine_keeps _ _).mono (by simp [recallBlocks])).trans
        (((enter_keeps _ _).mono (by simp [recallBlocks, stateBlocks])).trans
          ((withEngine_keeps _ _).mono (by simp [recallBlocks])))))

theorem updateSlot_keeps (k : Nat) (f : Slot → Slot) (s : State) :
    KeepsBut [.plan] s (updateSlot k f s) := by
  intro b hb; cases b <;> first | rfl | simp at hb

theorem withPlan_keeps (p : PlanStore) (s : State) : KeepsBut [.plan] s { s with plan := p } := by
  intro b hb; cases b <;> first | rfl | simp at hb

theorem planEnd_keeps (cause : EndCause) (s : State) : KeepsBut [.plan] s (planEnd cause s) := by
  unfold planEnd
  split
  · exact .refl _ s
  · exact ((updateSlot_keeps _ _ s).ite (.refl _ s)).trans (withPlan_keeps _ _)

theorem endRun_keeps (cause : EndCause) (s : State) :
    KeepsBut [.plan, .engine, .notices] s (endRun cause s) :=
  ((raise_keeps _ s).mono (by simp)).trans
    (((withEngine_keeps _ _).mono (by simp)).trans ((planEnd_keeps _ _).mono (by simp)))

theorem enterMove_keeps (st : RunState) (s : State) : KeepsBut stateBlocks s (enterMove st s) :=
  (enter_keeps st s).trans ((withEngine_keeps _ _).mono (by simp [stateBlocks]))

theorem fetchRecord_keeps (i : Nat) (r : VerticalRecord) (s : State) :
    KeepsBut runBlocks s (fetchRecord i r s) :=
  ((withEngine_keeps _ s).mono (by simp [runBlocks])).trans
    (((withPlan_keeps _ _).mono (by simp [runBlocks])).trans
      (((withTable_keeps _ _).mono (by simp [runBlocks])).trans
        ((enterMove_keeps _ _).mono (by simp [runBlocks, stateBlocks]))))

theorem fetch_keeps (s : State) : KeepsBut runBlocks s (fetch s) := by
  simp only [fetch]
  split
  · exact (recallRun_keeps _ s).mono (by simp [runBlocks, recallBlocks])
  · exact fetchRecord_keeps _ _ s

theorem beginPass_keeps (s : State) : KeepsBut [.results] s (beginPass s) := by
  intro b hb; cases b <;> first | rfl | simp at hb

theorem startPass_keeps (number : Nat) (s : State) : KeepsBut runBlocks s (startPass number s) :=
  ((withEngine_keeps _ s).mono (by simp [runBlocks])).trans
    (((beginPass_keeps _).mono (by simp [runBlocks])).trans (fetch_keeps _))

theorem startRun_keeps (k : Nat) (s : State) : KeepsBut runBlocks s (startRun k s) :=
  ((withEngine_keeps _ s).mono (by simp [runBlocks])).trans
    (((raise_keeps _ _).mono (by simp [runBlocks])).trans (startPass_keeps _ _))

theorem hold_keeps (kind : HoldKind) (s : State) : KeepsBut stateBlocks s (hold kind s) :=
  ((withEngine_keeps _ s).mono (by simp [stateBlocks])).trans (enter_keeps _ _)

theorem endPass_keeps (s : State) : KeepsBut runBlocks s (endPass s) := by
  have c := (closePass_keeps .complete .complete s).mono (cs := runBlocks)
    (by simp [runBlocks, recallBlocks])
  have r (cause : EndCause) (t : State) : KeepsBut runBlocks t (recallRun cause t) :=
    (recallRun_keeps cause t).mono (by simp [runBlocks, recallBlocks])
  unfold endPass
  refine KeepsBut.ite ?_ (r _ s)
  refine KeepsBut.ite ?_ (c.trans (r _ _))
  split
  · exact c.trans (startPass_keeps _ _)
  · exact c.trans ((hold_keeps _ _).mono (by simp [runBlocks, stateBlocks]))

theorem completeVertical_keeps (s : State) : KeepsBut runBlocks s (completeVertical s) := by
  have c := (withTable_keeps (recordCompletion s).results.table s).mono (cs := runBlocks)
    (by simp [runBlocks])
  unfold completeVertical
  refine KeepsBut.ite ?_ (c.trans (endPass_keeps _))
  split
  · exact c.trans (fetch_keeps _)
  · exact c.trans ((hold_keeps _ _).mono (by simp [runBlocks, stateBlocks]))

theorem restartPoint_keeps (s : State) : KeepsBut [.engine, .results] s (restartPoint s) :=
  ((withEngine_keeps _ s).mono (by simp)).trans ((withTable_keeps _ _).mono (by simp))

theorem pausePoint_keeps (s : State) : KeepsBut [.engine, .results] s (pausePoint s) :=
  KeepsBut.ite (((withEngine_keeps _ s).mono (by simp)).trans (restartPoint_keeps _))
    ((withEngine_keeps _ s).mono (by simp))

theorem startCounting_keeps (s : State) : KeepsBut recallBlocks s (startCounting s) := by
  have e (x : RunEngine) (t : State) : KeepsBut recallBlocks t (withEngine x t) :=
    (withEngine_keeps x t).mono (by simp [recallBlocks])
  have st (t : State) : KeepsBut recallBlocks t (enter .counting t) :=
    (enter_keeps .counting t).mono (by simp [recallBlocks, stateBlocks])
  refine KeepsBut.ite (KeepsBut.trans ?_ ((pausePoint_keeps _).mono (by simp [recallBlocks]))) ?_
  all_goals exact ((e _ s).trans (st _)).trans (e _ _)

theorem startSettling_keeps (s : State) : KeepsBut recallBlocks s (startSettling s) := by
  have e := (enter_keeps .settling s).mono (cs := recallBlocks) (by simp [recallBlocks, stateBlocks])
  exact KeepsBut.ite (e.trans (startCounting_keeps _))
    (e.trans ((withEngine_keeps _ _).mono (by simp [recallBlocks])))

theorem goToPoint_keeps (s : State) : KeepsBut recallBlocks s (goToPoint s) := by
  unfold goToPoint
  split
  · exact startSettling_keeps s
  · exact (enterMove_keeps _ s).mono (by simp [recallBlocks, stateBlocks])

theorem arrive_keeps (depth : Nat) (s : State) : KeepsBut runBlocks s (arrive depth s) := by
  have e (x : RunEngine) (t : State) : KeepsBut runBlocks t (withEngine x t) :=
    (withEngine_keeps x t).mono (by simp [runBlocks])
  have r (v : WorkingVertical) (t : State) : KeepsBut runBlocks t (recordArrival v t) :=
    (withTable_keeps _ t).mono (by simp [runBlocks])
  refine KeepsBut.ite (KeepsBut.trans ?_ (completeVertical_keeps _))
    (KeepsBut.trans ?_ ((goToPoint_keeps _).mono (by simp [runBlocks, recallBlocks])))
  all_goals exact (e _ s).trans (r _ _)

theorem endPoint_keeps (s : State) : KeepsBut runBlocks s (endPoint s) := by
  have e (x : RunEngine) (t : State) : KeepsBut runBlocks t (withEngine x t) :=
    (withEngine_keeps x t).mono (by simp [runBlocks])
  have r (n ms : Nat) (t : State) : KeepsBut runBlocks t (recordPoint n ms t) :=
    (withTable_keeps _ t).mono (by simp [runBlocks])
  refine KeepsBut.ite (KeepsBut.trans (KeepsBut.trans ?_ (e _ _))
      ((enterMove_keeps _ _).mono (by simp [runBlocks, stateBlocks])))
    (KeepsBut.trans ?_ (completeVertical_keeps _))
  all_goals exact (e _ s).trans (r _ _ _)

theorem settledPassage_keeps (active : Bool) (s : State) :
    KeepsBut runBlocks s (settledPassage active s) := by
  have e (x : RunEngine) (t : State) : KeepsBut runBlocks t (withEngine x t) :=
    (withEngine_keeps x t).mono (by simp [runBlocks])
  refine KeepsBut.ite (KeepsBut.ite ?_ ?_) (.refl _ s)
  · exact (e _ s).ite ((((e _ s).trans (endPoint_keeps _)).ite (e _ s)).ite (.refl _ s))
  · exact (KeepsBut.refl _ s).ite ((pausePoint_keeps s).mono (by simp [runBlocks]))

theorem meterPulse_keeps (s : State) : KeepsBut [.engine] s (meterPulse s) :=
  (withEngine_keeps _ s).ite (.refl _ s)

theorem tripEngine_keeps (record : TripRecord) (s : State) :
    KeepsBut runBlocks s (tripEngine record s) := by
  have u := ((((stopTimers_keeps s).mono (cs := runBlocks) (by simp [runBlocks])).trans
    ((closeIfOpen_keeps .trip _).mono (by simp [runBlocks, recallBlocks]))).trans
    ((withEngine_keeps { (closeIfOpen .trip (stopTimers s)).engine with trip := record } _).mono
      (by simp [runBlocks]))).trans
    ((enter_keeps .tripped _).mono (by simp [runBlocks, stateBlocks]))
  exact (KeepsBut.refl _ s).ite
    (KeepsBut.ite (u.trans ((endRun_keeps _ _).mono (by simp [runBlocks]))) u)

theorem takeSlot_keeps (k : Nat) (s : State) : KeepsBut runBlocks s (takeSlot k s) :=
  ((updateSlot_keeps _ _ s).mono (by simp [runBlocks])).trans
    (((withPlan_keeps _ _).mono (by simp [runBlocks])).trans (startRun_keeps _ _))

theorem takeAttempt_keeps (s : State) : KeepsBut runBlocks s (takeAttempt s) := by
  unfold takeAttempt
  split
  · exact .refl _ s
  · exact takeSlot_keeps _ s

theorem endIdle_keeps (cause : EndCause) (s : State) : KeepsBut runBlocks s (endIdle cause s) :=
  ((enter_keeps _ s).mono (by simp [runBlocks, stateBlocks])).trans
    (((endRun_keeps _ _).mono (by simp [runBlocks])).trans (takeAttempt_keeps _))

theorem retreatRecall_keeps (s : State) : KeepsBut recallBlocks s (retreatRecall s) :=
  (recallRun_keeps _ s).ite (.refl _ s)

/-! ## Warning, rating, stage and upstream -/

theorem withWarning_keeps (w : WarningUnit) (s : State) :
    KeepsBut [.warning] s { s with warning := w } := by
  intro b hb; cases b <;> first | rfl | simp at hb

theorem withHistory_keeps (h : HistoryStore) (s : State) :
    KeepsBut [.history] s { s with history := h } := by
  intro b hb; cases b <;> first | rfl | simp at hb

theorem withUpstream_keeps (u : UpstreamFilter) (s : State) :
    KeepsBut [.upstream] s { s with upstream := u } := by
  intro b hb; cases b <;> first | rfl | simp at hb

/-- The blocks that a change of an output may change. -/
def outputBlocks : List Block := [.warning, .lines, .notices]

theorem formOutputs_keeps (s : State) : KeepsBut outputBlocks s (formOutputs s) :=
  ((withWarning_keeps _ s).mono (by simp [outputBlocks])).trans
    ((handDriven_keeps _ _).mono (by simp [outputBlocks, lineBlocks]))

theorem judgeLevelTriggers_keeps (before after : Nat) (s : State) :
    KeepsBut runBlocks s (judgeLevelTriggers before after s) := by
  have p := (withPlan_keeps { s.plan with
    slots := s.plan.slots.map fun x => { x with request := levelFlag before after x } } s).mono
    (cs := runBlocks) (by simp [runBlocks])
  exact (p.trans (takeAttempt_keeps _)).ite p

theorem foldl_keeps {α : Type} (bs : List Block) (f : State → α → State)
    (h : ∀ s a, KeepsBut bs s (f s a)) (l : List α) (s : State) : KeepsBut bs s (l.foldl f s) := by
  induction l generalizing s with
  | nil => exact .refl _ s
  | cons a l ih => exact (h s a).trans (ih _)

theorem handOn_keeps (changes : List (Nat × Nat)) (s : State) :
    KeepsBut evaluationBlocks s (handOn changes s) := by
  have raised := foldl_keeps evaluationBlocks raiseChange
    (fun s c => (raise_keeps _ s).mono (by simp [evaluationBlocks])) changes s
  have handed := foldl_keeps evaluationBlocks handLevelChange (fun s c =>
    ((withHistory_keeps _ s).mono (by simp [evaluationBlocks])).trans
      ((judgeLevelTriggers_keeps _ _ _).mono (by simp [evaluationBlocks, runBlocks]))) changes
  have condition (w : WarningUnit) (t : State) (v : Bool) :
      KeepsBut evaluationBlocks t (handCondition .retreat v { t with warning := w }) :=
    ((withWarning_keeps w t).mono (by simp [evaluationBlocks])).trans
      ((handCondition_keeps _ _ _).mono (by simp [evaluationBlocks]))
  have outputs (t : State) : KeepsBut evaluationBlocks t (formOutputs t) :=
    (formOutputs_keeps t).mono (by simp [evaluationBlocks, outputBlocks])
  have recalled (c : Prop) [Decidable c] (t : State) :
      KeepsBut evaluationBlocks t (if c then retreatRecall t else t) :=
    ((retreatRecall_keeps t).mono (by simp [evaluationBlocks, recallBlocks])).ite (.refl _ t)
  have taken (c : Prop) [Decidable c] (t : State) :
      KeepsBut evaluationBlocks t (if c then takeAttempt t else t) :=
    ((takeAttempt_keeps t).mono (by simp [evaluationBlocks, runBlocks])).ite (.refl _ t)
  exact raised.trans ((condition _ _ _).trans ((recalled _ _).trans ((handed _).trans
    ((outputs _).trans (taken _ _)))))

theorem evaluate_keeps (s : State) : KeepsBut evaluationBlocks s (evaluate s) :=
  ((withWarning_keeps _ s).mono (by simp [evaluationBlocks])).trans (handOn_keeps _ _)

theorem dwellExpiry_keeps (s : State) : KeepsBut evaluationBlocks s (dwellExpiry s) :=
  ((withWarning_keeps _ s).mono (by simp [evaluationBlocks])).ite
    (((withWarning_keeps _ s).mono (by simp [evaluationBlocks])).trans (handOn_keeps _ _))

theorem takeSilence_keeps (s : State) : KeepsBut outputBlocks s (takeSilence s) :=
  (KeepsBut.refl _ s).ite
    ((((withWarning_keeps _ s).mono (by simp [outputBlocks])).trans
      ((raise_keeps _ _).mono (by simp [outputBlocks]))).trans (formOutputs_keeps _))

/-- The blocks that a new current discharge may change. -/
def ratingBlocks : List Block := .rating :: evaluationBlocks

theorem recomputeDischarge_keeps (stage : Option Int) (s : State) :
    KeepsBut [.rating, .notices] s (recomputeDischarge stage s) := by
  intro b hb; cases b <;> first | rfl | simp at hb

theorem rateAgain_keeps (s : State) : KeepsBut ratingBlocks s (rateAgain s) :=
  ((recomputeDischarge_keeps _ s).mono (by simp [ratingBlocks, evaluationBlocks])).trans
    ((evaluate_keeps _).mono (by simp +contextual [ratingBlocks]))

theorem offer_keeps (s : State) : KeepsBut ratingBlocks s (offer s) := by
  have h (x : HistoryStore) (t : State) : KeepsBut ratingBlocks t { t with history := x } :=
    (withHistory_keeps x t).mono (by simp [ratingBlocks, evaluationBlocks])
  have p (x : PlanStore) (t : State) : KeepsBut ratingBlocks t { t with plan := x } :=
    (withPlan_keeps x t).mono (by simp [ratingBlocks, evaluationBlocks])
  exact (rateAgain_keeps s).trans ((h _ _).trans ((p _ _).trans
    ((takeAttempt_keeps _).mono (by simp [ratingBlocks, evaluationBlocks, runBlocks]))))

/-- The blocks that a stage sample may change. -/
def sampleBlocks : List Block := .stage :: ratingBlocks

theorem withStage_keeps (u : StageUnit) (s : State) : KeepsBut [.stage] s { s with stage := u } := by
  intro b hb; cases b <;> first | rfl | simp at hb

theorem setStatus_keeps (status : StageStatus) (s : State) :
    KeepsBut [.stage, .notices] s (setStatus status s) :=
  ((withStage_keeps _ s).mono (by simp)).trans ((raiseIf_keeps _ _ _).mono (by simp))

theorem startOver_keeps (s : State) : KeepsBut sampleBlocks s (startOver s) :=
  ((setStatus_keeps _ s).mono (by simp [sampleBlocks, ratingBlocks, evaluationBlocks])).trans
    ((offer_keeps _).mono (by simp +contextual [sampleBlocks]))

theorem takeSample_keeps (s : State) : KeepsBut sampleBlocks s (takeSample s) := by
  have r (v : Bool) (e : Source) (t : State) : KeepsBut sampleBlocks t (raiseIf v e t) :=
    (raiseIf_keeps v e t).mono (by simp [sampleBlocks, ratingBlocks, evaluationBlocks])
  exact ((withStage_keeps _ s).mono (by simp [sampleBlocks])).trans ((r _ _ _).trans ((r _ _ _).trans
    ((r _ _ _).trans (((setStatus_keeps _ _).mono
      (by simp [sampleBlocks, ratingBlocks, evaluationBlocks])).trans
      ((offer_keeps _).mono (by simp +contextual [sampleBlocks]))))))

/-- The blocks that a change of the floor may change. -/
def floorBlocks : List Block := .upstream :: evaluationBlocks

theorem handFloor_keeps (floor : Nat) (s : State) : KeepsBut evaluationBlocks s (handFloor floor s) :=
  ((withWarning_keeps _ s).mono (by simp [evaluationBlocks])).trans (evaluate_keeps _)

theorem formFloor_keeps (s : State) : KeepsBut floorBlocks s (formFloor s) :=
  (KeepsBut.refl _ s).ite (((withUpstream_keeps _ s).mono (by simp [floorBlocks])).trans
    ((handFloor_keeps _ _).mono (by simp +contextual [floorBlocks])))

theorem setEntry_keeps (i : Nat) (e : StationEntry) (s : State) :
    KeepsBut [.upstream] s (setEntry i e s) := withUpstream_keeps _ s

theorem delayExpiry_keeps (i : Nat) (s : State) : KeepsBut floorBlocks s (delayExpiry i s) := by
  simp only [delayExpiry]
  split
  · exact .refl _ s
  · have e (x : StationEntry) : KeepsBut floorBlocks s (setEntry i x s) :=
      (setEntry_keeps i x s).mono (by simp [floorBlocks])
    exact (e _).ite ((e _).trans (formFloor_keeps _))

theorem staleExpiry_keeps (i : Nat) (s : State) : KeepsBut floorBlocks s (staleExpiry i s) :=
  ((((setEntry_keeps i _ s).mono (cs := floorBlocks) (by simp [floorBlocks])).trans
    ((raise_keeps _ _).mono (by simp [floorBlocks, evaluationBlocks]))).trans
    (formFloor_keeps _)).ite (.refl _ s)

theorem judgeStaleness_keeps (s : State) : KeepsBut floorBlocks s (judgeStaleness s) := by
  have w (u : UpstreamFilter) (t : State) : KeepsBut floorBlocks t { t with upstream := u } :=
    (withUpstream_keeps u t).mono (by simp [floorBlocks])
  have r (v : Bool) (e : Source) (t : State) : KeepsBut floorBlocks t (raiseIf v e t) :=
    (raiseIf_keeps v e t).mono (by simp [floorBlocks, evaluationBlocks])
  refine KeepsBut.ite (KeepsBut.trans ?_ (formFloor_keeps _)) ?_
  all_goals exact (w _ s).trans (r _ _ _)

theorem handAccepted_keeps (cls : Nat) (s : State) : KeepsBut runBlocks s (handAccepted cls s) :=
  ((raise_keeps _ s).mono (by simp [runBlocks])).trans
    (((withPlan_keeps _ _).mono (by simp [runBlocks])).trans (takeAttempt_keeps _))

/-! ## History -/

theorem judgeReady_keeps (p : Port) (s : State) : KeepsBut [.notices] s (judgeReady p s) :=
  handReady_keeps _ _ s

theorem moveCursor_keeps (p : Port) (cursor : Nat) (s : State) :
    KeepsBut [.history, .notices] s (moveCursor p cursor s) :=
  ((withHistory_keeps _ s).mono (by simp)).trans ((judgeReady_keeps _ _).mono (by simp))

theorem takeBoundary_keeps (s : State) : KeepsBut [.history, .notices] s (takeBoundary s) := by
  have j (p : Port) (t : State) : KeepsBut [.history, .notices] t (judgeReady p t) :=
    (judgeReady_keeps p t).mono (by simp)
  exact ((withHistory_keeps _ s).mono (by simp)).trans ((j _ _).trans ((j _ _).trans (j _ _)))

/-! ## Field lines -/

theorem setPin_keeps (i : Nat) (level : Level) (s : State) : KeepsBut [.lines] s (setPin i level s) := by
  intro b hb; cases b <;> first | rfl | simp at hb

theorem setForced_keeps (i : Nat) (outside : Option Level) (s : State) :
    KeepsBut [.lines] s (setForced i outside s) := by
  intro b hb; cases b <;> first | rfl | simp at hb

/-- What a passage that is handed on may change (R177). -/
def passageBlocks : List Block := .warning :: runBlocks

theorem handPassage_keeps (i : Nat) (f : LineFunction) (before after : Bool) (s : State) :
    KeepsBut passageBlocks s (handPassage i f before after s) := by
  unfold handPassage
  split
  · exact .refl _ _
  · split
    · exact (meterPulse_keeps s).mono (by decide)
    · exact (settledPassage_keeps _ s).mono (by decide)
    · exact (tripEngine_keeps _ s).mono (by decide)
    · exact (takeSilence_keeps s).mono (by decide)
    · exact .refl _ _

theorem judgeLine_keeps (i : Nat) (moved : Bool) (s : State) : KeepsBut lineBlocks s (judgeLine i moved s) := by
  unfold judgeLine
  split
  · exact (withLines_keeps _ s).trans ((raise_keeps _ _).mono (by decide))
  · exact .refl _ _

theorem pinChange_keeps (i : Nat) (level : Level) (s : State) :
    KeepsBut passageBlocks s (pinChange i level s) :=
  (((setPin_keeps i level s).mono (by decide)).trans (handPassage_keeps _ _ _ _ _)).trans
    ((judgeLine_keeps _ _ _).mono (by decide))

theorem presentLine_keeps (line : Nat) (new : FieldLine) (s : State) :
    KeepsBut passageBlocks s (presentLine line new s) := by
  unfold presentLine
  extract_lets f level t
  split
  · exact (withLines_keeps _ s).mono (by decide)
  · exact ((withLines_keeps _ s).mono (by decide)).trans (pinChange_keeps _ _ _)

theorem configureLine_keeps (line : Nat) (new : FieldLine) (s : State) :
    KeepsBut passageBlocks s (configureLine line new s) := by
  refine (presentLine_keeps line new s).trans ?_
  unfold configureLine
  refine KeepsBut.trans ?_ ((takeAttempt_keeps _).mono (by decide))
  split
  · exact (tripEngine_keeps _ _).mono (by decide)
  · exact .refl _ _

end Sys2Proof.Machine
end

