-- ==== Sys2Proof/Laws/Ops.lean ====
section
/-! SUPPORT. What each shared operation does, said once: a proof about a command cites these and does not
unfold the operation again. -/

namespace Sys2Proof.Machine

/-! ## Requests and windows (R200 to R203) -/

/-- A window to be discarded takes nothing and makes no reply. -/
theorem request_dead {p : Port} {s : State} (h : windowDead p s = true) (code : Nat)
    (owner : State → State × Reply) : request code p s owner = closeWindow p s := by
  simp [request, h]

/-- A request that reaches its owner: the owner's state, and its reply in the port's buffer. -/
theorem request_taken {p : Port} {code : Nat} {s : State} (h : Takes p code s)
    (owner : State → State × Reply) :
    request code p s owner = setReply p (owner (closeWindow p s)).2 (owner (closeWindow p s)).1 := by
  simp [request, h.1, h.2]

/-- A request that fails the role check. -/
theorem request_role {p : Port} {code : Nat} {s : State} (h : windowDead p s = false)
    (hr : p ∉ rolesOf code) (owner : State → State × Reply) :
    request code p s owner = setReply p (roleReply code p) (closeWindow p s) := by
  simp [request, h, hr]

/-- The three ways a release of chip select ends. -/
theorem request_cases (code : Nat) (p : Port) (s : State) (owner : State → State × Reply) :
    (windowDead p s = true ∧ request code p s owner = closeWindow p s) ∨
    (Takes p code s ∧
      request code p s owner = setReply p (owner (closeWindow p s)).2 (owner (closeWindow p s)).1) ∨
    (windowDead p s = false ∧ p ∉ rolesOf code ∧
      request code p s owner = setReply p (roleReply code p) (closeWindow p s)) := by
  by_cases h : windowDead p s = true
  · exact .inl ⟨h, request_dead h code owner⟩
  · rw [Bool.not_eq_true] at h
    by_cases hr : p ∈ rolesOf code
    · exact .inr (.inl ⟨⟨h, hr⟩, request_taken ⟨h, hr⟩ owner⟩)
    · exact .inr (.inr ⟨h, hr, request_role h hr owner⟩)

/-- A read that is taken changes its port's buffer and window only. -/
theorem readRequest_taken {p : Port} {code : Nat} {s : State} (h : Takes p code s)
    (reply : State → Reply) :
    readRequest code p s reply = setReply p (reply (closeWindow p s)) (closeWindow p s) :=
  request_taken h _

@[simp] theorem bufferOf_closeWindow (p q : Port) (s : State) :
    bufferOf q (closeWindow p s) = bufferOf q s := by cases p <;> cases q <;> rfl

@[simp] theorem bufferOf_setReply (p : Port) (r : Reply) (s : State) :
    bufferOf p (setReply p r s) = some r := by cases p <;> rfl

theorem bufferOf_setReply_other {p q : Port} (h : q ≠ p) (r : Reply) (s : State) :
    bufferOf q (setReply p r s) = bufferOf q s := by
  cases p <;> cases q <;> first | rfl | exact absurd rfl h

@[simp] theorem windowDead_setReply (p q : Port) (r : Reply) (s : State) :
    windowDead q (setReply p r s) = windowDead q s := by cases p <;> cases q <;> rfl

/-- An event has no effect while POR is active, and its own effect else (R207). -/
theorem unlessPor_por {s : State} (h : s.ports.por = true) (f : State → State) : unlessPor s f = s := by
  simp [unlessPor, h]

theorem unlessPor_live {s : State} (h : s.ports.por = false) (f : State → State) :
    unlessPor s f = f s := by simp [unlessPor, h]

/-! ## Notices (R189 to R195) -/

/-- The attention line after a judgement. -/
@[simp] theorem PortNotices.judge_attention (x : PortNotices) :
    x.judge.attention = (x.master && (x.pendingSet &&& x.enables != 0#20)) := rfl

@[simp] theorem PortNotices.judge_pendingSet (x : PortNotices) : x.judge.pendingSet = x.pendingSet := rfl

@[simp] theorem PortNotices.mark_enables (x : PortNotices) (n : Nat) (v : Bool) :
    (x.mark n v).enables = x.enables := rfl

@[simp] theorem PortNotices.mark_master (x : PortNotices) (n : Nat) (v : Bool) :
    (x.mark n v).master = x.master := rfl

/-- A source that is marked is pending or not as it was marked, and no other bit changes. -/
theorem PortNotices.mark_bit (x : PortNotices) (n : Nat) (v : Bool) (k : Nat) (hk : k < 20) :
    (x.mark n v).pendingSet.getLsbD k = if k = n then v else x.pendingSet.getLsbD k := by
  cases v <;> simp [PortNotices.mark, PortNotices.judge, addMember, dropMember, member, hk] <;>
    by_cases hkn : k = n <;> simp [hkn] <;> omega

theorem sourceNumber_lt (e : Source) : sourceNumber e < 20 := by cases e <;> decide

/-- An event is pending at every port it is routed to, right after it is raised (R190). -/
theorem raise_pendingWhereRouted (e : Source) (s : State) : PendingWhereRouted (sourceNumber e) (raise e s) := by
  intro p hp
  have hr : s.notices.routed (sourceNumber e) p = true := hp
  simp [NoticeUnit.raise, hr, PortNotices.mark_bit _ _ _ _ (sourceNumber_lt e)]

/-- Raising an event clears no pending source. -/
theorem raise_keeps_pending (e : Source) (s : State) (k : Nat) (hk : k < 20)
    (h : PendingWhereRouted k s) : PendingWhereRouted k (raise e s) := by
  intro p hp
  have hr : s.notices.routed k p = true := hp
  have := h p hr
  simp only [raise_notices, NoticeUnit.raise, PerPort.get_mapPorts]
  split
  · rw [PortNotices.mark_bit _ _ _ _ hk]
    split <;> simp_all
  · exact this

@[simp] theorem NoticeUnit.raise_routes (n : NoticeUnit) (e : Source) : (n.raise e).routes = n.routes := rfl

theorem NoticeUnit.hand_routes (n : NoticeUnit) (c : Condition) (v : Bool) :
    (n.hand c v).routes = n.routes := by
  unfold NoticeUnit.hand; cases c <;> dsimp only <;> split <;> rfl

/-- A condition holds as it was handed (R191). -/
theorem NoticeUnit.hand_holds (n : NoticeUnit) (c d : Condition) (v : Bool) :
    (n.hand c v).holds d = if d = c then v else n.holds d := by
  unfold NoticeUnit.hand
  dsimp only
  split
  · split <;> simp_all
  · cases c <;> cases d <;> rfl

/-! ## Lines (R181, R182) -/

/-- Field Lines hold the permit value they were handed. -/
@[simp] theorem handPermit_permit (v : Permit) (s : State) : (handPermit v s).lines.permit = v := by
  unfold handPermit
  split
  · assumption
  · unfold changeLines judgeLines raiseIf
    split <;> rfl

/-- Field Lines hold the driven values they were handed. -/
@[simp] theorem handDriven_warnKept (v : Vector Bool 4) (s : State) :
    (handDriven v s).lines.warnKept = v := by
  unfold handDriven
  split
  · assumption
  · unfold changeLines judgeLines raiseIf
    split <;> rfl

/-! ## The engine's states (R84 to R86) -/

@[simp] theorem handPermit_engine (v : Permit) (s : State) : (handPermit v s).engine = s.engine := by
  unfold handPermit changeLines judgeLines raiseIf
  split
  · rfl
  · split <;> rfl

/-- What entering a state makes of the engine: the state, and the hold kind and the homing cause only
where they belong. -/
theorem enter_engine (st : RunState) (s : State) : (enter st s).engine = { s.engine with
    state := st
    holdKind := if st = .holding then s.engine.holdKind else none
    homingCause := if st = .homing then s.engine.homingCause else none } := by
  simp [enter]

/-- The permit value of the state entered (R85, R181). -/
@[simp] theorem enter_permit (st : RunState) (s : State) : (enter st s).lines.permit = st.permit := by
  simp [enter]

/-- The three conditions of the state entered (R85). -/
theorem enter_conditions (st : RunState) (s : State) :
    (enter st s).notices.holds .carriageWanted = st.carriageWanted ∧
    (enter st s).notices.holds .proceedWanted = (st == .holding) ∧
    (enter st s).notices.holds .trip = (st == .tripped) := by
  simp [enter, NoticeUnit.hand_holds]

/-- No timer runs after they are stopped. -/
theorem stopTimers_stopped (s : State) :
    WorkTimersStopped (stopTimers s).engine ∧ (stopTimers s).engine.homeTimer = .stopped :=
  ⟨⟨rfl, rfl, rfl, rfl⟩, rfl⟩

/-! ## Fetch and take (R76, R77, R92, R93) -/

/-- A fetch recalls with the cause its check gives, or fetches the record of its index. -/
theorem fetch_cases (s : State) :
    (∃ cause, fetchFault s (poolRecord s (nextIndex s)) = some cause ∧ fetch s = recallRun cause s) ∨
    (fetchFault s (poolRecord s (nextIndex s)) = none ∧
      fetch s = fetchRecord (nextIndex s) (poolRecord s (nextIndex s)) s) := by
  cases h : fetchFault s (poolRecord s (nextIndex s)) with
  | none => exact .inr ⟨rfl, by simp [fetch, h]⟩
  | some cause => exact .inl ⟨cause, rfl, by simp [fetch, h]⟩

/-- A take attempt takes an armed slot that asks, with all five conditions met, or does nothing. -/
theorem takeAttempt_cases (s : State) :
    takeAttempt s = s ∨
    ∃ k, takeAttempt s = takeSlot k s ∧ (takeConditions s).all id = true ∧
      s.plan.order.find? (slotAsks s) = some k ∧ slotAsks s k = true := by
  cases h : eligibleSlot s with
  | none => exact .inl (by simp [takeAttempt, h])
  | some k =>
    refine .inr ⟨k, by simp [takeAttempt, h], ?_⟩
    unfold eligibleSlot at h
    split at h
    · exact ⟨‹_›, h, List.find?_some h⟩
    · cases h

/-- No take is made while the engine is not IDLE. -/
theorem takeAttempt_busy {s : State} (h : s.engine.state ≠ .idle) : takeAttempt s = s := by
  simp [takeAttempt, eligibleSlot, takeConditions, h]

/-- No take is made while retreat is in force. -/
theorem takeAttempt_retreat {s : State} (h : s.warning.retreat = true) : takeAttempt s = s := by
  simp [takeAttempt, eligibleSlot, takeConditions, h]

/-- A field line has a function exactly where the search for it finds one. -/
theorem FieldLines.find?_isSome (f : FieldLines) (fn : LineFunction) :
    (f.find? fn).isSome = true ↔ ∃ i, i < 16 ∧ (at' f.line i).function = fn := by
  simp [FieldLines.find?, List.find?_isSome]

/-- Only the four slots can ask. -/
theorem slotAsks_lt {s : State} {k : Nat} (h : slotAsks s k = true) : k < 4 := by
  by_contra hk
  simp [slotAsks, slotAt, at', Vector.getElem?_eq_none (by omega : 4 ≤ k)] at h
  revert h; decide

/-- The five take conditions of R76, in the words of `TakeReady`. -/
theorem takeConditions_iff (s : State) : (takeConditions s).all id = true ↔
    s.engine.state = .idle ∧ TakeReady s ∧ ∃ k, k < 4 ∧ slotAsks s k = true := by
  have current : s.stage.status.current = true ↔ s.stage.status ≠ .starting ∧ s.stage.status ≠ .lost := by
    cases s.stage.status <;> decide
  simp only [takeConditions, List.all_cons, List.all_nil, id, Bool.and_eq_true, Bool.and_true,
    FieldLines.find?_isSome, current, List.any_eq_true, List.mem_range, TakeReady, lineAt, beq_iff_eq,
    Bool.not_eq_true']
  tauto

/-- A take attempt takes the first slot of the order list that asks, with the engine in IDLE and the other
conditions met (R76, R77). -/
theorem takeAttempt_taken {s : State} {k : Nat} (hi : s.engine.state = .idle) (hr : TakeReady s)
    (hk : s.plan.order.find? (slotAsks s) = some k) : takeAttempt s = takeSlot k s := by
  have asks := List.find?_some hk
  simp [takeAttempt, eligibleSlot, (takeConditions_iff s).2 ⟨hi, hr, k, slotAsks_lt asks, asks⟩, hk]

/-- A take attempt changes nothing where a condition fails or no slot asks (R76). -/
theorem takeAttempt_none {s : State}
    (h : s.engine.state ≠ .idle ∨ ¬ TakeReady s ∨ s.plan.order.find? (slotAsks s) = none) :
    takeAttempt s = s := by
  have none : eligibleSlot s = none := by
    unfold eligibleSlot
    split
    · rename_i hc
      obtain ⟨hi, hr, -⟩ := (takeConditions_iff s).1 hc
      exact (h.resolve_left (not_not_intro hi)).resolve_left (not_not_intro hr)
    · rfl
  simp [takeAttempt, none]

/-! ## Warning and upstream (R151, R153, R165 to R167) -/

/-- The outputs that a forming leaves, and the driven values that Field Lines hold. -/
theorem formOutputs_warning (s : State) : (formOutputs s).warning = { s.warning with
    outputs := s.warning.outputs.map (formOutput s.warning.level s.warning.silence) } := by
  unfold formOutputs handDriven changeLines judgeLines raiseIf
  dsimp only
  split
  · rfl
  · split <;> rfl

theorem formOutputs_kept (s : State) :
    (formOutputs s).lines.warnKept = (formOutputs s).warning.outputs.map WarningOutput.driven := by
  rw [formOutputs_warning]
  simp [formOutputs]

/-- A forming of the floor does nothing where the greatest contribution is the floor. -/
theorem formFloor_same {s : State} (h : s.upstream.greatest = s.upstream.floor) : formFloor s = s := by
  simp [formFloor, h]

/-- An entry with an empty queue has no delay timer. -/
theorem delayExpiry_empty {i : Nat} {s : State} (h : (entryAt s i).queue = []) :
    delayExpiry i s = s := by simp [delayExpiry, h]

/-- A stale entry, or one without a last report, has no stale timer. -/
theorem staleExpiry_idle {i : Nat} {s : State}
    (h : (entryAt s i).last = none ∨ (entryAt s i).stale = true) : staleExpiry i s = s := by
  rcases h with h | h <;> simp [staleExpiry, h]

/-! ## Field lines -/

/-- Everything that decides the level of a pin (R176). -/
theorem pinLevel_cases (f : FieldLines) (l : FieldLine) :
    (∃ v, f.drive l = some v ∧ f.pinLevel l = v) ∨
    (f.drive l = none ∧ ∃ v, l.forced = some v ∧ f.pinLevel l = v) ∨
    (f.drive l = none ∧ l.forced = none ∧ f.pullUpActs l = true ∧ f.pinLevel l = .high) ∨
    (f.drive l = none ∧ l.forced = none ∧ f.pullUpActs l = false ∧ f.pinLevel l = l.pin) := by
  unfold FieldLines.pinLevel
  split
  · next v h => exact .inl ⟨v, h, rfl⟩
  · next v h h' => exact .inr (.inl ⟨h, v, h', rfl⟩)
  · next h h' =>
    cases hp : f.pullUpActs l
    · exact .inr (.inr (.inr ⟨h, h', rfl, rfl⟩))
    · exact .inr (.inr (.inl ⟨h, h', rfl, rfl⟩))

/-! ## The vertical table -/

/-- The model's change of the newest entry is the one that statements name. -/
theorem onNewest_eq (f : TableEntry → TableEntry) (es : List TableEntry) : onNewest f es = newestAs f es := by
  induction es with
  | nil => rfl
  | cons e rest ih =>
    cases rest with
    | nil => rfl
    | cons e' rest => simp_all [onNewest, newestAs, List.dropLast, List.getLast?_cons_cons]

theorem finalizeEntry_eq (span : Nat) (e : TableEntry) : finalizeEntry span e = panelled span e := by
  unfold finalizeEntry panelled
  cases e.complete <;> cases e.panel <;> simp

/-- A fetch's record as a statement names it: the vertical before it finalized, the new one appended. -/
theorem recordFetch_table (v : WorkingVertical) (s : State) : (recordFetch v s).results.table =
    newestAs (panelled (spanAtFetch s.results.table v.x)) s.results.table ++
      [⟨v.ordinal, v.index, v.x, v.depthMode, v.methodFetched, v.countTime, none, none, [], [], none, false,
        none, false, false, false⟩] := by
  rw [show panelled (spanAtFetch s.results.table v.x) = finalizeEntry (spanAtFetch s.results.table v.x) from
    funext fun e => (finalizeEntry_eq _ e).symm, ← onNewest_eq]
  rfl

end Sys2Proof.Machine
end

