-- ==== Sys2Proof/Laws/Notices.lean ====
section
/-! SUPPORT. Which notice sources each shared operation may change, and that none but a condition stops being
pending: `Notified`. A notice frame of a command is assembled from them with `Notified.trans` and
`Notified.mono`, and a source raised early in a command is still pending at its end by `Notified.pending`. -/

namespace Sys2Proof.Machine

/-- Only these sources change from s to t, and no event stops being pending. -/
structure Notified (sources : List Nat) (s t : State) : Prop where
  kept : NoticesKeptBut sources s t
  grows : ∀ p k, k < 20 → k ∉ [2, 7, 10, 11, 14, 18] → (s.notices.port.get p).pendingSet.getLsbD k = true →
    (t.notices.port.get p).pendingSet.getLsbD k = true

theorem NoticesKeptBut.of_eq {l : List Nat} {s t : State} (h : t.notices = s.notices) : NoticesKeptBut l s t := by
  simp [NoticesKeptBut, h]

theorem NoticesKeptBut.mono {l m : List Nat} {s t : State} (h : NoticesKeptBut l s t) (hs : ∀ k, k ∈ l → k ∈ m) :
    NoticesKeptBut m s t := by
  obtain ⟨hr, hc, hp⟩ := h
  refine ⟨hr, fun c k hk hn => hc c k hk fun hl => hn (hs k hl), fun p => ?_⟩
  obtain ⟨he, hm, ho, hy, hb⟩ := hp p
  exact ⟨he, hm, ho, fun hn => hy fun hl => hn (hs _ hl), fun k hn => hb k fun hl => hn (hs k hl)⟩

theorem NoticesKeptBut.trans {l : List Nat} {s t u : State} (h : NoticesKeptBut l s t)
    (h' : NoticesKeptBut l t u) : NoticesKeptBut l s u := by
  refine ⟨h'.1.trans h.1, fun c k hk hn => (h'.2.1 c k hk hn).trans (h.2.1 c k hk hn), fun p => ?_⟩
  obtain ⟨he, hm, ho, hy, hb⟩ := h.2.2 p
  obtain ⟨he', hm', ho', hy', hb'⟩ := h'.2.2 p
  exact ⟨he'.trans he, hm'.trans hm, ho'.trans ho, fun hn => (hy' hn).trans (hy hn),
    fun k hn => (hb' k hn).trans (hb k hn)⟩

theorem Notified.of_eq {l : List Nat} {s t : State} (h : t.notices = s.notices) : Notified l s t :=
  ⟨.of_eq h, fun p k _ _ hb => by rw [h]; exact hb⟩

theorem Notified.refl (l : List Nat) (s : State) : Notified l s s := .of_eq rfl

theorem Notified.mono {l m : List Nat} {s t : State} (h : Notified l s t) (hs : ∀ k, k ∈ l → k ∈ m) :
    Notified m s t := ⟨h.kept.mono hs, h.grows⟩

theorem Notified.trans {l : List Nat} {s t u : State} (h : Notified l s t) (h' : Notified l t u) :
    Notified l s u :=
  ⟨h.kept.trans h'.kept, fun p k hk hn hb => h'.grows p k hk hn (h.grows p k hk hn hb)⟩

theorem Notified.ite {l : List Nat} {s t u : State} {c : Prop} [Decidable c] (h : Notified l s t)
    (h' : Notified l s u) : Notified l s (if c then t else u) := by
  split <;> assumption

/-- Only the Notice Unit matters. -/
theorem Notified.congr {l : List Nat} {s t s' t' : State} (h : Notified l s t) (hs : s'.notices = s.notices)
    (ht : t'.notices = t.notices) : Notified l s' t' :=
  (Notified.of_eq hs.symm).trans (h.trans (.of_eq ht))

/-- An event pending wherever it is routed is so at the end of what follows. -/
theorem Notified.pending {l : List Nat} {s t : State} (h : Notified l s t) {k : Nat} (hk : k < 20)
    (hn : k ∉ [2, 7, 10, 11, 14, 18]) (hp : PendingWhereRouted k s) : PendingWhereRouted k t := by
  intro p hr
  refine h.grows p k hk hn (hp p ?_)
  rwa [NoticeUnit.routed, h.kept.1] at hr

/-- A source that is not among those that may change is pending as it was. -/
theorem NoticesKeptBut.asBefore {l : List Nat} {s t : State} (h : NoticesKeptBut l s t) {k : Nat} (hk : k ∉ l) :
    PendingAsBefore k s t := fun p => (h.2.2 p).2.2.2.2 k hk

theorem PortNotices.mark_bit_other (x : PortNotices) {n k : Nat} (v : Bool) (h : k ≠ n) :
    (x.mark n v).pendingSet.getLsbD k = x.pendingSet.getLsbD k := by
  by_cases hk : k < 20
  · simp [PortNotices.mark_bit _ _ _ _ hk, h]
  · rw [BitVec.getLsbD_of_ge _ _ (by omega), BitVec.getLsbD_of_ge _ _ (by omega)]

@[simp] theorem PortNotices.mark_oneShot (x : PortNotices) (n : Nat) (v : Bool) :
    (x.mark n v).oneShot = x.oneShot := rfl

@[simp] theorem PortNotices.mark_historyReady (x : PortNotices) (n : Nat) (v : Bool) :
    (x.mark n v).historyReady = x.historyReady := rfl

theorem NoticeUnit.raise_holds (n : NoticeUnit) (e : Source) (c : Condition) :
    (n.raise e).holds c = n.holds c := by cases c <;> rfl

theorem raise_notified (e : Source) (s : State) : Notified [sourceNumber e] s (raise e s) := by
  have port (p : Port) : ((raise e s).notices.port.get p) =
      if s.notices.routed (sourceNumber e) p then (s.notices.port.get p).mark (sourceNumber e) true
      else s.notices.port.get p := by simp [NoticeUnit.raise]
  refine ⟨⟨rfl, fun c k _ _ => s.notices.raise_holds e c, fun p => ?_⟩, fun p k hk _ hb => ?_⟩
  · rw [port]
    refine ⟨by split <;> rfl, by split <;> rfl, by split <;> rfl, fun _ => by split <;> rfl, fun k hk => ?_⟩
    split
    · exact PortNotices.mark_bit_other _ _ (by simpa using hk)
    · rfl
  · rw [port]
    split
    · rw [PortNotices.mark_bit _ _ _ _ hk]; split <;> simp_all
    · exact hb

theorem raiseIf_notified (v : Bool) (e : Source) (s : State) : Notified [sourceNumber e] s (raiseIf v e s) :=
  (raise_notified e s).ite (.refl _ s)

/-- The number of a condition's source. -/
def conditionNumber (c : Condition) : Nat := sourceNumber (conditionSource c)

theorem mem_conditionNumbers {c : Condition} {k : Nat} (h : (c, k) ∈ conditionNumbers) : k = conditionNumber c := by
  cases c <;> simp_all [conditionNumbers, conditionNumber, conditionSource, sourceNumber]

theorem handCondition_notified (c : Condition) (v : Bool) (s : State) :
    Notified [conditionNumber c] s (handCondition c v s) := by
  by_cases h : s.notices.holds c = v
  · exact .of_eq (by simp [NoticeUnit.hand, h])
  have port (p : Port) : ((handCondition c v s).notices.port.get p) =
      if s.notices.routed (conditionNumber c) p then (s.notices.port.get p).mark (conditionNumber c) v
      else s.notices.port.get p := by
    simp only [handCondition_notices, NoticeUnit.hand, h, if_false, PerPort.get_mapPorts]; rfl
  refine ⟨⟨by simp [NoticeUnit.hand_routes], fun d k hd hk => ?_, fun p => ?_⟩, fun p k hk hn hb => ?_⟩
  · have : d ≠ c := fun he => hk (by simp [mem_conditionNumbers hd, he])
    simp [NoticeUnit.hand_holds, this]
  · rw [port]
    refine ⟨by split <;> rfl, by split <;> rfl, by split <;> rfl, fun _ => by split <;> rfl, fun k hk => ?_⟩
    split
    · exact PortNotices.mark_bit_other _ _ (by simpa using hk)
    · rfl
  · have other : k ≠ conditionNumber c := fun he => hn (by rw [he]; cases c <;> decide)
    rw [port]
    split
    · rw [PortNotices.mark_bit_other _ _ other]; exact hb
    · exact hb

theorem handReady_notified (p : Port) (v : Bool) (s : State) : Notified [18] s (handReady p v s) := by
  unfold handReady NoticeUnit.handReady
  extract_lets x y z
  split
  · exact .refl _ s
  have bits : ∀ k, k ≠ 18 → z.pendingSet.getLsbD k = x.pendingSet.getLsbD k := by
    intro k hk
    simp only [z]
    split
    · exact PortNotices.mark_bit_other _ _ hk
    · rfl
  have rest : z.enables = x.enables ∧ z.master = x.master ∧ z.oneShot = x.oneShot := by
    simp only [z]; split <;> exact ⟨rfl, rfl, rfl⟩
  refine ⟨⟨rfl, fun c k _ _ => by cases c <;> rfl, fun q => ?_⟩, fun q k hk hn hb => ?_⟩
  · by_cases hq : q = p
    · subst hq
      exact ⟨by simp [rest, x], by simp [rest, x], by simp [rest, x], fun h => absurd (by simp) h,
        fun k hk => by simpa using bits k (by simpa using hk)⟩
    · simp [PerPort.get_set_other _ hq]
  · by_cases hq : q = p
    · subst hq
      simpa [bits k (fun he => hn (by simp [he]))] using hb
    · simpa [PerPort.get_set_other _ hq] using hb

/-! ## Field lines -/

theorem withLines_notified (f : FieldLines) (s : State) : Notified [17] s { s with lines := f } := .of_eq rfl

theorem judgeLines_notified (old : FieldLines) (s : State) : Notified [17] s (judgeLines old s) :=
  (withLines_notified _ s).trans (raiseIf_notified _ .lineChange _)

theorem changeLines_notified (f : FieldLines) (s : State) : Notified [17] s (changeLines f s) :=
  (withLines_notified _ s).trans (judgeLines_notified _ _)

theorem handPermit_notified (v : Permit) (s : State) : Notified [17] s (handPermit v s) :=
  (Notified.refl _ s).ite (changeLines_notified _ s)

theorem handDriven_notified (v : Vector Bool 4) (s : State) : Notified [17] s (handDriven v s) :=
  (Notified.refl _ s).ite (changeLines_notified _ s)

end Sys2Proof.Machine
end

