-- ==== Sys2Proof/Laws/Lines.lean ====
section
/-! SUPPORT. What a new permit value and new driven values make of the sixteen lines (R176, R181, R182, R184): each
line follows what it presents to its pin, a new permit leaves the WARN_OUT lines as they are and new driven values
leave every other line as it is. -/

namespace Sys2Proof.Machine

/-! ## What a line presents, and its pin -/

theorem levelFor_injective (l : FieldLine) {v w : Bool} (h : l.levelFor v = l.levelFor w) : v = w := by
  revert h; cases hp : l.polarity <;> cases v <;> cases w <;> simp [FieldLine.levelFor, hp]

/-- A line's value once its pin has the level that the value asks for. -/
theorem value_settled (f : FieldLines) (l : FieldLine) (hd : l.direction = .output) :
    f.value { l with pin := l.levelFor (f.value l) } = f.value l := by
  obtain ⟨fn, dir, polarity, a, b, c, d, e, pin⟩ := l
  obtain rfl : dir = .output := hd
  cases fn <;> cases polarity <;> cases pin <;> cases ht : f.tripHold <;>
    simp only [FieldLines.value, FieldLine.pinState, FieldLine.levelFor, ht] <;> decide

theorem drive_settled (f : FieldLines) (l : FieldLine) : f.drive { l with pin := f.pinLevel l } = f.drive l := by
  have silent (m : FieldLine) (h : m.direction = .input ∨ (m.function = .permitOut ∧ f.permit = .withdrawn)) :
      f.drive m = none := by
    rcases h with h | h <;> simp only [FieldLines.drive, h]
    · cases m.direction <;> simp
  have drives (m : FieldLine) (h : m.direction = .output) (h' : ¬ (m.function = .permitOut ∧ f.permit = .withdrawn)) :
      f.drive m = some (m.levelFor (f.value m)) := by simp [FieldLines.drive, h, h']
  by_cases hs : l.direction = .input ∨ (l.function = .permitOut ∧ f.permit = .withdrawn)
  · rw [silent l hs, silent { l with pin := f.pinLevel l } hs]
  · rw [not_or] at hs
    have hd : l.direction = .output := by cases h : l.direction <;> simp_all
    have level : f.pinLevel l = l.levelFor (f.value l) := by simp [FieldLines.pinLevel, drives l hd hs.2]
    rw [drives { l with pin := f.pinLevel l } hd hs.2, drives l hd hs.2, level, value_settled f l hd]
    rfl

theorem presented_settled (f : FieldLines) (l : FieldLine) :
    f.presented { l with pin := f.pinLevel l } = f.presented l := by
  simp [FieldLines.presented, FieldLines.pullUpActs, drive_settled]

theorem pinLevel_settled (f : FieldLines) (l : FieldLine) :
    f.pinLevel { l with pin := f.pinLevel l } = f.pinLevel l := by
  have drive := drive_settled f l
  have pull : f.pullUpActs { l with pin := f.pinLevel l } = f.pullUpActs l := by
    simp only [FieldLines.pullUpActs, drive]
  have same (m : FieldLine) (hd : f.drive m = f.drive l) (hu : f.pullUpActs m = f.pullUpActs l)
      (hf : m.forced = l.forced) (hp : m.pin = f.pinLevel l) : f.pinLevel m = f.pinLevel l := by
    have level := pinLevel_cases f m
    rw [hd, hu, hf, hp] at level
    rcases pinLevel_cases f l with ⟨v, h, hl⟩ | ⟨h, v, h', hl⟩ | ⟨h, h', hu', hl⟩ | ⟨h, h', hu', hl⟩ <;> simp_all
  exact same _ drive pull rfl rfl

/-- A line that presents the same to its pin has the same watched value, its pin being the same. -/
theorem watched_of_presented {f g : FieldLines} {l : FieldLine} (h : f.presented l = g.presented l) :
    f.watched l = g.watched l := by
  have hd := congrArg Prod.fst h
  cases dir : l.direction
  · simp [FieldLines.watched, dir]
  · simp only [FieldLines.watched, dir]
    simp only [FieldLines.presented, FieldLines.drive, dir] at hd
    split at hd <;> split at hd <;> rename_i hf hg
    · simp [FieldLines.value, hf, hg]
    · simp at hd
    · simp at hd
    · exact levelFor_injective l (by simpa using hd)

/-- Two states of the lines that agree on the permit and the driven values see a line alike. -/
theorem FieldLines.see_eq {f g : FieldLines} (hp : f.permit = g.permit) (hw : f.warnKept = g.warnKept) :
    f.presented = g.presented ∧ f.watched = g.watched ∧ f.pinLevel = g.pinLevel := by
  have value : f.value = g.value := by
    funext l; simp only [FieldLines.value, FieldLines.tripHold, hp, hw]
  have drive : f.drive = g.drive := by funext l; simp only [FieldLines.drive, hp, value]
  have pull : f.pullUpActs = g.pullUpActs := by funext l; simp only [FieldLines.pullUpActs, hp, drive]
  refine ⟨?_, ?_, ?_⟩ <;> funext l
  · simp only [FieldLines.presented, drive, pull]
  · simp only [FieldLines.watched, value]
  · simp only [FieldLines.pinLevel, drive, pull]

/-! ## One change of the lines -/

/-- Line i is the same in t, and the lines see it alike. -/
def LineUntouched (i : Nat) (s t : State) : Prop :=
  lineAt t i = lineAt s i ∧ t.lines.presented (lineAt s i) = s.lines.presented (lineAt s i) ∧
    t.lines.watched (lineAt s i) = s.lines.watched (lineAt s i)

theorem LineUntouched.of_eq {i : Nat} {s t : State} (h : t.lines = s.lines) : LineUntouched i s t := by
  simp [LineUntouched, lineAt, h]

theorem LineUntouched.trans {i : Nat} {s t u : State} (h : LineUntouched i s t) (h' : LineUntouched i t u) :
    LineUntouched i s u := by
  obtain ⟨hl, hp, hw⟩ := h
  obtain ⟨hl', hp', hw'⟩ := h'
  rw [hl] at hl' hp' hw'
  exact ⟨hl', hp'.trans hp, hw'.trans hw⟩

theorem lineMoved_eq (s t : State) (i : Nat) : lineMoved s.lines t.lines i =
    ((lineAt t i).arm && (s.lines.watched (lineAt s i) != t.lines.watched (lineAt t i))) := rfl

theorem LineUntouched.follows {i : Nat} {s t : State} (h : LineUntouched i s t) : LineFollows i s t := by
  obtain ⟨hl, hp, hw⟩ := h
  have still : lineMoved s.lines t.lines i = false := by simp [lineMoved_eq, hl, hw]
  simp [LineFollows, hl, hp, still]

/-- A line that first follows a change and is then left alone. -/
theorem LineFollows.then_untouched {i : Nat} {s t u : State} (h : LineFollows i s t) (h' : LineUntouched i t u)
    (hn : PendingWhereRouted 17 t → PendingWhereRouted 17 u) : LineFollows i s u := by
  obtain ⟨hl, hp, hw⟩ := h'
  obtain ⟨h1, h2, h3, h4, h5⟩ := h
  have moved : lineMoved s.lines u.lines i = lineMoved s.lines t.lines i := by simp [lineMoved_eq, hl, hw]
  have level : t.lines.presented (lineAt t i) ≠ s.lines.presented (lineAt s i) →
      (lineAt t i).pin = u.lines.pinLevel (lineAt t i) := by
    intro hd
    have hs := h3 hd
    have drive : u.lines.drive (lineAt t i) = t.lines.drive (lineAt t i) := congrArg Prod.fst hp
    have pull : u.lines.pullUpActs (lineAt t i) = t.lines.pullUpActs (lineAt t i) := congrArg Prod.snd hp
    rw [hs]; simp only [FieldLines.pinLevel, drive, pull]
  refine ⟨by rw [hl]; exact h1, ?_, ?_, by rw [hl, moved]; exact h4, fun hm => hn (h5 (moved ▸ hm))⟩
  · rw [hl, hp]; exact h2
  · rw [hl, hp]; exact level

/-- A line that is first left alone and then follows a change. -/
theorem LineUntouched.then_follows {i : Nat} {s t u : State} (h : LineUntouched i s t) (h' : LineFollows i t u) :
    LineFollows i s u := by
  obtain ⟨hl, hp, hw⟩ := h
  unfold LineFollows at h' ⊢
  simp only [lineMoved_eq, hl, hp, hw] at h' ⊢
  exact h'

/-- A line with its pin settled after a change of the lines. -/
def pinnedLine (f old : FieldLines) (l : FieldLine) : FieldLine :=
  if f.presented l = old.presented l then l else { l with pin := f.pinLevel l }

/-- A line after a change of the lines: its pin settled, and its change-of-state latch set where it is armed and
its watched value differs. -/
def changedLine (f old : FieldLines) (l : FieldLine) : FieldLine :=
  let m := pinnedLine f old l
  if l.arm && (old.watched l != f.watched m) then { m with changed := true } else m

/-- A changed line presents what it presents before its pin is settled, and its pin takes the same level. -/
theorem changedLine_sees (f old : FieldLines) (l : FieldLine) :
    f.presented (changedLine f old l) = f.presented l ∧ f.pinLevel (changedLine f old l) = f.pinLevel l ∧
    f.watched (changedLine f old l) = f.watched (pinnedLine f old l) ∧ (changedLine f old l).arm = l.arm := by
  unfold changedLine pinnedLine
  dsimp only
  split <;> split <;>
    first | exact ⟨rfl, rfl, rfl, rfl⟩ | exact ⟨presented_settled f l, pinLevel_settled f l, rfl, rfl⟩

theorem settlePins_line {f old : FieldLines} (hf : f.line = old.line) {i : Nat} (hi : i < 16) :
    at' (f.settlePins old).line i = pinnedLine f old (at' old.line i) := by
  simp [FieldLines.settlePins, pinnedLine, at', hi, hf]

theorem lineMoved_settlePins {f old : FieldLines} (hf : f.line = old.line) {i : Nat} (hi : i < 16) :
    lineMoved old (f.settlePins old) i =
      ((at' old.line i).arm && (old.watched (at' old.line i) != f.watched (pinnedLine f old (at' old.line i)))) := by
  have arm : (pinnedLine f old (at' old.line i)).arm = (at' old.line i).arm := by unfold pinnedLine; split <;> rfl
  simp only [lineMoved, settlePins_line hf hi, arm,
    (FieldLines.see_eq (f := f.settlePins old) (g := f) rfl rfl).2.1]

theorem raiseIf_lines (b : Bool) (e : Source) (t : State) : (raiseIf b e t).lines = t.lines := by
  unfold raiseIf; split <;> rfl

/-- What a line becomes at a change of the permit or of the driven values. -/
theorem changeLines_line (f : FieldLines) (s : State) (hf : f.line = s.lines.line) :
    (changeLines f s).lines.permit = f.permit ∧ (changeLines f s).lines.warnKept = f.warnKept ∧
    ∀ i, i < 16 → lineAt (changeLines f s) i = changedLine f s.lines (lineAt s i) := by
  refine ⟨by simp [changeLines, judgeLines, raiseIf_lines]; rfl,
    by simp [changeLines, judgeLines, raiseIf_lines]; rfl, fun i hi => ?_⟩
  have moved := lineMoved_settlePins hf hi
  have line := settlePins_line hf hi
  simp only [lineAt, changeLines, judgeLines, raiseIf_lines]
  rw [at'_eq _ hi, Vector.getElem_mapIdx, ← at'_eq _ hi, moved, line]
  rfl

/-- The change of an armed line raises LINE_CHANGE. -/
theorem changeLines_raises (f : FieldLines) (s : State) {i : Nat} (hi : i < 16)
    (hm : lineMoved s.lines (f.settlePins s.lines) i = true) : PendingWhereRouted 17 (changeLines f s) := by
  have any : (List.range 16).any (lineMoved s.lines (f.settlePins s.lines)) = true :=
    List.any_eq_true.2 ⟨i, List.mem_range.2 hi, hm⟩
  unfold changeLines judgeLines raiseIf
  simp only [any, if_true]
  exact raise_pendingWhereRouted .lineChange _

/-- A change of the permit or of the driven values leaves each line with its configuration, and its pin and its
change-of-state latch follow (R176, R181, R182, R184). -/
theorem changeLines_follows (f : FieldLines) (s : State) (hf : f.line = s.lines.line) :
    LinesFollow s (changeLines f s) := by
  intro i hi
  obtain ⟨hp, hw, hl⟩ := changeLines_line f s hf
  obtain ⟨sp, sw, sl⟩ := FieldLines.see_eq hp hw
  obtain ⟨cp, cl, cw, ca⟩ := changedLine_sees f s.lines (lineAt s i)
  have moved : lineMoved s.lines (changeLines f s).lines i = lineMoved s.lines (f.settlePins s.lines) i := by
    rw [lineMoved_settlePins hf hi, lineMoved_eq, sw, hl i hi, cw, ca]; rfl
  refine ⟨?_, ?_, ?_, ?_, fun hm => changeLines_raises f s hi (moved ▸ hm)⟩
  · rw [hl i hi]; unfold changedLine pinnedLine; dsimp only; split <;> split <;> rfl
  · rw [sp, hl i hi, cp]
    intro h
    simp [changedLine, pinnedLine, h, watched_of_presented h]
  · rw [sp, sl, hl i hi, cp, cl]
    intro h
    simp only [changedLine, pinnedLine, if_neg h]
    split <;> rfl
  · rw [moved, lineMoved_settlePins hf hi, hl i hi]
    change _ = ((lineAt s i).changed || ((lineAt s i).arm && (s.lines.watched (lineAt s i) !=
      f.watched (pinnedLine f s.lines (lineAt s i)))))
    have kept : (pinnedLine f s.lines (lineAt s i)).changed = (lineAt s i).changed := by
      unfold pinnedLine; split <;> rfl
    unfold changedLine; dsimp only
    split <;> simp_all

/-- A line that a change does not concern. -/
theorem changeLines_untouched (f : FieldLines) (s : State) (hf : f.line = s.lines.line) {i : Nat} (hi : i < 16)
    (h : f.presented (lineAt s i) = s.lines.presented (lineAt s i)) : LineUntouched i s (changeLines f s) := by
  obtain ⟨hp, hw, hl⟩ := changeLines_line f s hf
  obtain ⟨sp, sw, -⟩ := FieldLines.see_eq hp hw
  refine ⟨?_, by rw [sp, h], by rw [sw, watched_of_presented h]⟩
  rw [hl i hi]; simp [changedLine, pinnedLine, h, watched_of_presented h]

/-! ## A new permit, new driven values -/

/-- From s to t at most the permit value has changed: the lines follow, and a WARN_OUT line is as it was. -/
def PermitStep (s t : State) : Prop :=
  t.lines.warnKept = s.lines.warnKept ∧ ∀ i, i < 16 → LineFollows i s t ∧
    (∀ k, (lineAt s i).function = .warnOut k → LineUntouched i s t)

/-- From s to t at most the driven values have changed: the lines follow, and every line but a WARN_OUT line is
as it was. -/
def DrivenStep (s t : State) : Prop :=
  t.lines.permit = s.lines.permit ∧ ∀ i, i < 16 → LineFollows i s t ∧
    ((∀ k, (lineAt s i).function ≠ .warnOut k) → LineUntouched i s t)

theorem PermitStep.of_eq {s t : State} (h : t.lines = s.lines) : PermitStep s t :=
  ⟨by rw [h], fun _ _ => ⟨(LineUntouched.of_eq h).follows, fun _ _ => .of_eq h⟩⟩

theorem DrivenStep.of_eq {s t : State} (h : t.lines = s.lines) : DrivenStep s t :=
  ⟨by rw [h], fun _ _ => ⟨(LineUntouched.of_eq h).follows, fun _ => .of_eq h⟩⟩

theorem handPermit_step (v : Permit) (s : State) : PermitStep s (handPermit v s) := by
  unfold handPermit
  split
  · exact .of_eq rfl
  · let f : FieldLines := { s.lines with permit := v }
    have hf : f.line = s.lines.line := rfl
    refine ⟨(changeLines_line f s hf).2.1, fun i hi =>
      ⟨changeLines_follows f s hf i hi, fun k hk => changeLines_untouched f s hf hi ?_⟩⟩
    have out : LineFunction.warnOut k ≠ .permitOut := nofun
    simp [f, FieldLines.presented, FieldLines.drive, FieldLines.pullUpActs, FieldLines.value, hk,
      beq_eq_false_iff_ne.2 out]

theorem handDriven_step (v : Vector Bool 4) (s : State) : DrivenStep s (handDriven v s) := by
  unfold handDriven
  split
  · exact .of_eq rfl
  · let f : FieldLines := { s.lines with warnKept := v }
    have hf : f.line = s.lines.line := rfl
    refine ⟨(changeLines_line f s hf).1, fun i hi =>
      ⟨changeLines_follows f s hf i hi, fun hk => changeLines_untouched f s hf hi ?_⟩⟩
    have value : f.value (lineAt s i) = s.lines.value (lineAt s i) := by
      cases h : (lineAt s i).function <;>
        first | exact absurd h (hk _) | simp [f, FieldLines.value, FieldLines.tripHold, h]
    simp only [FieldLines.presented, FieldLines.drive, FieldLines.pullUpActs, value]
    rfl

theorem LineFollows.function_eq {i : Nat} {s t : State} (h : LineFollows i s t) :
    (lineAt t i).function = (lineAt s i).function := by
  have := congrArg FieldLine.function h.1; exact this

/-- A new permit and then new driven values. -/
theorem PermitStep.then_driven {l : List Nat} {s t u : State} (h : PermitStep s t) (h' : DrivenStep t u)
    (hn : Notified l t u) : LinesFollow s u := by
  intro i hi
  obtain ⟨hf, hu⟩ := h.2 i hi
  obtain ⟨hf', hu'⟩ := h'.2 i hi
  by_cases hw : ∃ k, (lineAt s i).function = .warnOut k
  · obtain ⟨k, hk⟩ := hw
    exact (hu k hk).then_follows hf'
  · exact hf.then_untouched (hu' fun k hk => hw ⟨k, hf.function_eq.symm.trans hk⟩)
      (hn.pending (by decide) (by decide))

/-- New driven values and then a new permit. -/
theorem DrivenStep.then_permit {l : List Nat} {s t u : State} (h : DrivenStep s t) (h' : PermitStep t u)
    (hn : Notified l t u) : LinesFollow s u := by
  intro i hi
  obtain ⟨hf, hu⟩ := h.2 i hi
  obtain ⟨hf', hu'⟩ := h'.2 i hi
  by_cases hw : ∃ k, (lineAt s i).function = .warnOut k
  · obtain ⟨k, hk⟩ := hw
    exact hf.then_untouched (hu' k (hf.function_eq.trans hk)) (hn.pending (by decide) (by decide))
  · exact (hu fun k hk => hw ⟨k, hk⟩).then_follows hf'

theorem PermitStep.follows {s t : State} (h : PermitStep s t) : LinesFollow s t := fun i hi => (h.2 i hi).1

theorem DrivenStep.follows {s t : State} (h : DrivenStep s t) : LinesFollow s t := fun i hi => (h.2 i hi).1

/-- What follows a change without touching the lines leaves it as it is. -/
theorem PermitStep.congr {l : List Nat} {s t s' t' : State} (h : PermitStep s t) (hs : s'.lines = s.lines)
    (ht : t'.lines = t.lines) (hn : Notified l t t') : PermitStep s' t' := by
  have us : ∀ i, LineUntouched i s' s := fun i => .of_eq hs.symm
  have ut : ∀ i, LineUntouched i t t' := fun i => .of_eq ht
  have same : ∀ i, lineAt s' i = lineAt s i := fun i => by simp [lineAt, hs]
  refine ⟨by rw [hs, ht]; exact h.1, fun i hi => ⟨(us i).then_follows ((h.2 i hi).1.then_untouched (ut i)
    (hn.pending (by decide) (by decide))), fun k hk => ?_⟩⟩
  exact (us i).trans (((h.2 i hi).2 k (same i ▸ hk)).trans (ut i))

theorem DrivenStep.congr {l : List Nat} {s t s' t' : State} (h : DrivenStep s t) (hs : s'.lines = s.lines)
    (ht : t'.lines = t.lines) (hn : Notified l t t') : DrivenStep s' t' := by
  have us : ∀ i, LineUntouched i s' s := fun i => .of_eq hs.symm
  have ut : ∀ i, LineUntouched i t t' := fun i => .of_eq ht
  have same : ∀ i, lineAt s' i = lineAt s i := fun i => by simp [lineAt, hs]
  refine ⟨by rw [hs, ht]; exact h.1, fun i hi => ⟨(us i).then_follows ((h.2 i hi).1.then_untouched (ut i)
    (hn.pending (by decide) (by decide))), fun hk => ?_⟩⟩
  exact (us i).trans (((h.2 i hi).2 fun k => same i ▸ hk k).trans (ut i))

end Sys2Proof.Machine
end

