-- ==== Sys2Proof/Laws/Runs.lean ====
section
/-! SUPPORT. What the shared operations of a run do, each said once in the words that statements use: a state
entered, a close, a recall, a fetch, a pass that begins, a take, a vertical and a point that end. Each changes the
permit once at most, so the lines follow (`PermitMoved`). -/

namespace Sys2Proof.Machine

/-! ## One change of the permit -/

/-- From s to t only these sources, and of the lines' inputs at most the permit, have changed. -/
structure PermitMoved (sources : List Nat) (s t : State) : Prop where
  notified : Notified sources s t
  step : PermitStep s t

theorem PermitMoved.refl (l : List Nat) (s : State) : PermitMoved l s s := ⟨.refl l s, .of_eq rfl⟩

theorem PermitMoved.mono {l m : List Nat} {s t : State} (h : PermitMoved l s t) (hs : ∀ k, k ∈ l → k ∈ m) :
    PermitMoved m s t := ⟨h.notified.mono hs, h.step⟩

/-- What comes before a change of the permit without touching the lines. -/
theorem PermitMoved.before {l : List Nat} {s t u : State} (h : PermitMoved l t u) (hn : Notified l s t)
    (hl : t.lines = s.lines) : PermitMoved l s u :=
  ⟨hn.trans h.notified, h.step.congr hl.symm rfl (.refl l u)⟩

/-- What follows a change of the permit without touching the lines. -/
theorem PermitMoved.after {l : List Nat} {s t u : State} (h : PermitMoved l s t) (hn : Notified l t u)
    (hl : u.lines = t.lines) : PermitMoved l s u :=
  ⟨h.notified.trans hn, h.step.congr rfl hl hn⟩

theorem PermitMoved.ite {l : List Nat} {s t u : State} {c : Prop} [Decidable c] (h : PermitMoved l s t)
    (h' : PermitMoved l s u) : PermitMoved l s (if c then t else u) := by
  split <;> assumption

/-! ## States of the engine (R84 to R86) -/

theorem enter_moved (st : RunState) (s : State) : PermitMoved [10, 11, 14, 17] s (enter st s) := by
  have n (c : Condition) (v : Bool) (t : State) (hc : conditionNumber c ∈ [10, 11, 14, 17]) :
      Notified [10, 11, 14, 17] t (handCondition c v t) :=
    (handCondition_notified c v t).mono (by simpa using hc)
  have p (x : State) : PermitMoved [10, 11, 14, 17] x (handPermit st.permit x) :=
    ⟨(handPermit_notified _ _).mono (by simp), handPermit_step _ _⟩
  have moved := (p (withEngine { s.engine with
    state := st
    holdKind := if st = .holding then s.engine.holdKind else none
    homingCause := if st = .homing then s.engine.homingCause else none } s)).before (s := s) (.of_eq rfl) rfl
  exact ((moved.after (n .carriageWanted _ _ (by decide)) rfl).after
    (n .proceedWanted _ _ (by decide)) rfl).after (n .trip _ _ (by decide)) rfl

theorem enter_entered (st : RunState) (s : State) : Entered st (enter st s) := by
  obtain ⟨c, p, t⟩ := enter_conditions st s
  exact ⟨by simp [enter_engine], enter_permit st s, c, p, t⟩

/-- A state entered again leaves the lines as they are. -/
theorem enter_lines_same {st : RunState} {s : State} (h : s.lines.permit = st.permit) :
    (enter st s).lines = s.lines := by
  simp [enter, handPermit, h]

/-- An engine's change that is no change of state keeps what was entered. -/
theorem Entered.withEngine {st : RunState} {s : State} (h : Entered st s) (e : RunEngine)
    (he : e.state = s.engine.state) : Entered st (Machine.withEngine e s) :=
  ⟨he.trans h.1, h.2⟩

theorem nowMs_eq {s t : State} (h : t.clock = s.clock) : nowMs t = nowMs s := by simp [nowMs, h]

theorem activeDefinition_eq {s t : State} (hp : t.plan = s.plan) (hs : t.engine.slot = s.engine.slot) :
    activeDefinition t = activeDefinition s := by simp [activeDefinition, hp, hs]

/-! ## A close (R87, R122 to R131) -/

theorem spanAtClose_eq (es : List TableEntry) : spanAtClose es = spanAtBank es := by
  rcases List.eq_nil_or_concat es with rfl | ⟨before, e, rfl⟩
  · rfl
  · rcases List.eq_nil_or_concat before with rfl | ⟨rest, b, rfl⟩
    · simp [spanAtClose, spanAtBank]
    · simp [spanAtClose, spanAtBank, apart, distance]

theorem finalizeAtClose_table (s : State) : (finalizeAtClose s).results.table = tableClosed s.results.table := by
  have same : finalizeEntry (spanAtClose s.results.table) = panelled (spanAtBank s.results.table) := by
    funext e; rw [finalizeEntry_eq, spanAtClose_eq]
  simp only [finalizeAtClose, withTable, onNewest_eq, same, tableClosed]

/-- The pass result that a close of this state writes. -/
def closeResult (status : PassStatus) (cause : EndCause) (s : State) : PassResult :=
  passResult (finalizeAtClose s) status cause (gaugeHeight s).1 (gaugeHeight s).2

theorem closePass_results (status : PassStatus) (cause : EndCause) (s : State) :
    (closePass status cause s).results = resultsClosed (closeResult status cause s) s := by
  have table := finalizeAtClose_table s
  simp only [closePass, raise_results, withEngine_results, writeResult, resultsClosed]
  rw [table]
  rfl

theorem dischargeFor_version (r : RatingUnit) (h : Option Int) :
    (r.dischargeFor h).version = if r.active = [] then 0 else r.version := by
  unfold RatingUnit.dischargeFor
  split
  · rfl
  · split <;> rfl

/-- What the result of a close carries whatever its status, and how it is held (R87, R124 to R128). -/
theorem closeResult_of (status : PassStatus) (cause : EndCause) (s : State) :
    ResultOf (tableClosed s.results.table) s.rating s.stage.stilled s (closeResult status cause s) ∧
    HeldAt s.stage.status s (closeResult status cause s) ∧
    (closeResult status cause s).status = status ∧ (closeResult status cause s).cause = cause := by
  have table := finalizeAtClose_table s
  have r1 : (finalizeAtClose s).engine = s.engine := rfl
  have r2 : (finalizeAtClose s).rating = s.rating := rfl
  have r3 : (finalizeAtClose s).clock = s.clock := rfl
  have r4 : (finalizeAtClose s).results.pass = s.results.pass := rfl
  have r5 : (finalizeAtClose s).results.nextId = s.results.nextId := rfl
  refine ⟨⟨rfl, rfl, rfl, ?_, ?_, ?_, rfl, rfl, ?_, ?_, rfl, rfl, rfl, ?_, ?_, ?_, ?_⟩, ?_, rfl, rfl⟩
  all_goals simp only [closeResult, passResult, table, r1, r2, r3, r4, r5, dischargeFor_version]
  · intro k hk; simp [hk]
  · intro k hk; simp [hk]
  · intro k hk; simp [hk]
  · rfl
  · simp
  · simp
  · simp
  · cases h : s.stage.status <;> cases h' : s.engine.ghStartHeld <;>
      simp [HeldAt, gaugeHeight, StageStatus.current, h, h']

theorem closePass_notified (status : PassStatus) (cause : EndCause) (s : State) :
    Notified [12] s (closePass status cause s) := by
  show Notified [sourceNumber .passDone] s (raise .passDone _)
  refine .trans ?_ (raise_notified .passDone _)
  exact .of_eq rfl

theorem closePass_done (status : PassStatus) (cause : EndCause) (s : State) :
    PendingWhereRouted 12 (closePass status cause s) := raise_pendingWhereRouted .passDone _

theorem closeIfOpen_engine (cause : EndCause) (s : State) :
    (closeIfOpen cause s).engine = { s.engine with passOpen := false } := by
  unfold closeIfOpen
  split
  · rfl
  · rename_i h
    rw [Bool.not_eq_true] at h
    conv_lhs => rw [show s.engine = { s.engine with passOpen := s.engine.passOpen } from rfl, h]

theorem closeIfOpen_notified (cause : EndCause) (s : State) : Notified [12] s (closeIfOpen cause s) :=
  (closePass_notified _ _ s).ite (.refl _ s)

theorem closeIfOpen_lines (cause : EndCause) (s : State) : (closeIfOpen cause s).lines = s.lines := by
  unfold closeIfOpen; split <;> rfl

/-- A close of what is open is the close that statements name, the table and the ratings standing (R87). -/
theorem closeIfOpen_closes {cause : EndCause} {s t : State} {l : List Nat} (hn : Notified l (closeIfOpen cause s) t)
    (he : t.engine.passOpen = false) (hr : t.results = (closeIfOpen cause s).results) (hq : t.rating = s.rating)
    (hs : t.stage = s.stage) : ClosesOpenPass t.stage.status cause s t := by
  refine ⟨he, fun ho => ?_, fun hc => by simpa [closeIfOpen, hc] using hr⟩
  rw [show closeIfOpen cause s = closePass .aborted cause s by simp [closeIfOpen, ho]] at hn hr
  obtain ⟨of, held, status, ends⟩ := closeResult_of .aborted cause s
  rw [closePass_results] at hr
  refine ⟨hn.pending (by decide) (by decide) (closePass_done _ _ s), closeResult .aborted cause s, hr, ?_, hs ▸ held,
    status, ends, ?_⟩
  · rw [hr, hq, hs]; exact of
  · simp [closeResult, passResult]

/-! ## A recall (R88) -/

/-- A recall up to its entry of HOMING: the timers stopped, an open pass closed. -/
def recallClosed (cause : EndCause) (s : State) : State :=
  let t := closeIfOpen cause (stopTimers s)
  withEngine { t.engine with homingCause := some cause } t

/-- A recall after its entry of HOMING: the home timer is started. -/
theorem recallRun_eq (cause : EndCause) (s : State) :
    let u := enter .homing (recallClosed cause s)
    recallRun cause s = withEngine { u.engine with
      homeTimer := startTimer u ((activeDefinition u).homeTimeout * 1000) } u := rfl

theorem recallClosed_notified (cause : EndCause) (s : State) : Notified [12] s (recallClosed cause s) :=
  (closeIfOpen_notified cause (stopTimers s)).congr rfl rfl

theorem recallRun_moved (cause : EndCause) (s : State) : PermitMoved passSources s (recallRun cause s) :=
  ((((enter_moved .homing (recallClosed cause s)).mono (by decide)).before
    ((recallClosed_notified cause s).mono (by decide)) (closeIfOpen_lines cause (stopTimers s)))).after (.of_eq rfl) rfl

/-- A recall is the one that statements name (R87, R88). -/
theorem recallRun_recalled (cause : EndCause) (s : State) : Recalled cause s (recallRun cause s) := by
  have kept := recallRun_keeps cause s
  have engine := closeIfOpen_engine cause (stopTimers s)
  have ready : KeepsBut recallBlocks s (enter .homing (recallClosed cause s)) :=
    (((stopTimers_keeps s).mono (by decide)).trans (closeIfOpen_keeps cause _)).trans
      (((withEngine_keeps _ _).mono (by decide)).trans ((enter_keeps _ _).mono (by decide)))
  have clock := ready .clock (by decide)
  have plan := ready .plan (by decide)
  have homing : HomingBegun cause s (recallRun cause s) := by
    refine ⟨(enter_entered _ _).withEngine _ rfl, ?_⟩
    have slot : (enter .homing (recallClosed cause s)).engine.slot = s.engine.slot := by
      simp only [enter_engine, recallClosed, withEngine_engine, engine]; rfl
    simp only [recallRun_eq, withEngine_engine, startTimer, nowMs_eq clock, activeDefinition_eq plan slot]
    simp only [enter_engine, recallClosed, withEngine_engine, engine]
    rfl
  refine ⟨homing, ?_⟩
  have hn : Notified [10, 11, 14, 17] (closeIfOpen cause (stopTimers s)) (recallRun cause s) :=
    (enter_moved .homing (recallClosed cause s)).notified.congr rfl rfl
  have hr : (recallRun cause s).results = (closeIfOpen cause (stopTimers s)).results :=
    (enter_keeps .homing (recallClosed cause s)) .results (by decide)
  exact closeIfOpen_closes (s := stopTimers s) hn (by rw [homing.2]) hr
    (kept .rating (by decide)) (kept .stage (by decide))

/-! ## A move and a fetch (R92, R93) -/

theorem enterMove_entered (st : RunState) (s : State) : Entered st (enterMove st s) :=
  (enter_entered st s).withEngine _ rfl

theorem enterMove_moved (st : RunState) (s : State) : PermitMoved [10, 11, 14, 17] s (enterMove st s) :=
  (enter_moved st s).after (.of_eq rfl) rfl

theorem enter_slot (st : RunState) (s : State) : (enter st s).engine.slot = s.engine.slot := by
  rw [enter_engine]

theorem enter_clock (st : RunState) (s : State) : (enter st s).clock = s.clock :=
  enter_keeps st s .clock (by decide)

theorem enter_plan (st : RunState) (s : State) : (enter st s).plan = s.plan :=
  enter_keeps st s .plan (by decide)

theorem enterMove_engine (st : RunState) (s : State) : (enterMove st s).engine = { (enter st s).engine with
    moveTimer := .running (nowMs s + (activeDefinition s).moveTimeout * 1000) } := by
  simp only [enterMove, withEngine_engine, startTimer, nowMs_eq (enter_clock st s),
    activeDefinition_eq (enter_plan st s) (enter_slot st s)]

theorem spanAtFetch_eq (es : List TableEntry) (x : Nat) : spanAtFetch es x = spanBefore x es := by
  rcases List.eq_nil_or_concat es with rfl | ⟨before, e, rfl⟩
  · rfl
  · rcases List.eq_nil_or_concat before with rfl | ⟨rest, b, rfl⟩
    · simp [spanAtFetch, spanBefore, apart, distance]
    · simp [spanAtFetch, spanBefore, apart, distance]

theorem mem_insertMember (i j : Nat) (l : List Nat) : j ∈ insertMember i l ↔ j = i ∨ j ∈ l := by
  induction l with
  | nil => simp [insertMember]
  | cons a l ih =>
    unfold insertMember
    split
    · simp
    · split <;> simp_all
      tauto

/-- A record that its fetch has read, before MOVING is entered. -/
def recordRead (i : Nat) (r : VerticalRecord) (s : State) : State :=
  let v := workingOf i (s.engine.fetchCount + 1) r
  let t := withEngine { s.engine with
    fetchCount := s.engine.fetchCount + 1
    direction := directionAfter s r
    vertical := v
    point := {} } s
  recordFetch v { t with plan := { t.plan with fetched := insertMember i t.plan.fetched } }

theorem fetchRecord_eq (i : Nat) (r : VerticalRecord) (s : State) :
    fetchRecord i r s = enterMove .moving (recordRead i r s) := rfl

theorem fetchRecord_moved (i : Nat) (r : VerticalRecord) (s : State) :
    PermitMoved passSources s (fetchRecord i r s) :=
  ((enterMove_moved .moving (recordRead i r s)).mono (by decide)).before (.of_eq rfl) rfl

/-- A fetch that passed its checks is the one that statements name (R92, R93). -/
theorem fetchRecord_fetched (i : Nat) (s : State) : NextFetched i s (fetchRecord i (poolRecord s i) s) := by
  have plan : (fetchRecord i (poolRecord s i) s).plan =
      { s.plan with fetched := insertMember i s.plan.fetched } :=
    (enter_plan .moving (recordRead i (poolRecord s i) s))
  have results : (fetchRecord i (poolRecord s i) s).results = (recordRead i (poolRecord s i) s).results :=
    enterMove_keeps .moving (recordRead i (poolRecord s i) s) .results (by decide)
  have definition : activeDefinition (recordRead i (poolRecord s i) s) = activeDefinition s := rfl
  have now : nowMs (recordRead i (poolRecord s i) s) = nowMs s := rfl
  refine ⟨enterMove_entered _ _, ?_, by rw [plan], fun j => ?_, ?_⟩
  · rw [fetchRecord_eq, enterMove_engine, definition, now, enter_engine]
    rfl
  · rw [plan]; exact mem_insertMember i j _
  · rw [results]
    have table := recordFetch_table (workingOf i (s.engine.fetchCount + 1) (poolRecord s i)) s
    rw [spanAtFetch_eq] at table
    rw [show (recordRead i (poolRecord s i) s).results = { s.results with
      table := (recordFetch (workingOf i (s.engine.fetchCount + 1) (poolRecord s i)) s).results.table } from rfl,
      table]
    rfl

theorem fetch_moved (s : State) : PermitMoved passSources s (fetch s) := by
  rcases fetch_cases s with ⟨cause, -, h⟩ | ⟨-, h⟩ <;> rw [h]
  · exact recallRun_moved cause s
  · exact fetchRecord_moved _ _ s

/-- A fetch brings its record in, or recalls with the cause of its check's first failure (R92, R93). -/
theorem fetch_spec (s : State) :
    let fault := fetchFault s (poolRecord s (nextIndex s))
    (fault = none → NextFetched (nextIndex s) s (fetch s)) ∧
      ∀ cause, fault = some cause → Recalled cause s (fetch s) ∧ (fetch s).plan = s.plan := by
  rcases fetch_cases s with ⟨cause, hc, h⟩ | ⟨hc, h⟩ <;> rw [h, hc]
  · exact ⟨nofun, fun c he => Option.some.inj he ▸
      ⟨recallRun_recalled _ s, recallRun_keeps _ s .plan (by decide)⟩⟩
  · exact ⟨fun _ => fetchRecord_fetched _ s, nofun⟩

/-! ## A pass begins, a slot is taken (R77, R90, R91) -/

/-- A pass's records at its start, before its first fetch. -/
def passBegun (number : Nat) (s : State) : State :=
  beginPass (withEngine { s.engine with
    passNumber := number
    fetchCount := 0
    direction := none
    ghStart := (gaugeHeight s).1
    ghStartHeld := (gaugeHeight s).2
    passOpen := true } s)

theorem startPass_eq (number : Nat) (s : State) : startPass number s = fetch (passBegun number s) := rfl

theorem startPass_moved (number : Nat) (s : State) : PermitMoved passSources s (startPass number s) :=
  (fetch_moved (passBegun number s)).before (.of_eq rfl) rfl

theorem held_eq (x : StageStatus) : (!x.current) = (x == .starting || x == .lost) := by cases x <;> rfl

/-- A pass that starts is the one that statements name (R91 to R93). -/
theorem startPass_begins (number : Nat) (s : State) : PassBegins number s (startPass number s) := by
  have spec := fetch_spec (passBegun number s)
  rw [← startPass_eq] at spec
  unfold PassBegins
  extract_lets d first held
  refine ⟨s.stage.stilled.getD 0, fun x hx => by simp [hx], ?_⟩
  intro u
  have hu : passBegun number s = u := by
    simp only [passBegun, beginPass, gaugeHeight, held_eq]
    rfl
  rw [hu] at spec
  have index : nextIndex u = first := by
    have hd : activeDefinition u = d := rfl
    have hn : u.engine.fetchCount = 0 := rfl
    simp only [nextIndex, hd, hn, first]
    cases d.plan <;> simp
  have fault : fetchFault u (poolRecord u first) = if (poolRecord s first).used = false then some .planEmpty
      else none := by
    have hr : poolRecord u first = poolRecord s first := rfl
    have hn : u.engine.fetchCount = 0 := rfl
    simp [fetchFault, hr, hn, Config.passVerticals]
  rw [index, fault] at spec
  refine ⟨fun h => spec.1 (by simp [h]), fun h => spec.2 _ (by simp [h])⟩

/-- A slot's records at its take, before its pass starts. -/
def slotTaken (k : Nat) (s : State) : State :=
  raise .runStarted { s with
    plan := planTaken k s
    engine := { s.engine with
      runNumber := nextNumber s.engine.runNumber, slot := some k, homingCause := none } }

theorem takeSlot_eq (k : Nat) (s : State) : takeSlot k s = startPass 1 (slotTaken k s) := rfl

theorem takeSlot_moved (k : Nat) (s : State) : PermitMoved takeSources s (takeSlot k s) :=
  ((startPass_moved 1 (slotTaken k s)).mono (by decide)).before
    (((raise_notified .runStarted _).mono (by decide)).congr rfl rfl) rfl

/-! ## What a run reads, and what it leaves -/

/-- Two states agree on all that a run's progress reads. -/
structure RunSame (s s' : State) : Prop where
  clock : s'.clock = s.clock
  stage : s'.stage = s.stage
  plan : s'.plan = s.plan
  engine : s'.engine = s.engine
  results : s'.results = s.results

theorem RunSame.symm {s s' : State} (h : RunSame s s') : RunSame s' s :=
  ⟨h.clock.symm, h.stage.symm, h.plan.symm, h.engine.symm, h.results.symm⟩

theorem RunSame.trans {s t u : State} (h : RunSame s t) (h' : RunSame t u) : RunSame s u :=
  ⟨h'.clock.trans h.clock, h'.stage.trans h.stage, h'.plan.trans h.plan, h'.engine.trans h.engine,
    h'.results.trans h.results⟩

/-- What is said of states that agree on these blocks is said of either. -/
theorem RunSame.congr {s s' : State} (h : RunSame s s') {P : State → Prop}
    (hp : ∀ history rating warning upstream lines notices ports pending,
      P { s with history, rating, warning, upstream, lines, notices, ports, pending }) : P s' := by
  obtain ⟨c, st, hi, ra, pl, en, re, wa, up, li, no, po, pe⟩ := s'
  obtain ⟨hc, hst, hpl, hen, hre⟩ := h
  dsimp only at hc hst hpl hen hre
  subst hc hst hpl hen hre
  exact hp hi ra wa up li no po pe

theorem RunSame.recalled {s s' t : State} (h : RunSame s s') {cause : EndCause} (hr : Recalled cause s t) :
    Recalled cause s' t := h.congr (P := fun x => Recalled cause x t) fun _ _ _ _ _ _ _ _ => hr

theorem RunSame.passBegins {s s' t : State} (h : RunSame s s') {n : Nat} (hr : PassBegins n s t) :
    PassBegins n s' t := h.congr (P := fun x => PassBegins n x t) fun _ _ _ _ _ _ _ _ => hr

theorem RunSame.takenSlot {s s' t : State} (h : RunSame s s') {k : Nat} (hr : TakenSlot k s t) :
    TakenSlot k s' t := h.congr (P := fun x => TakenSlot k x t) fun _ _ _ _ _ _ _ _ => hr

/-- A slot taken is taken as statements say (R77, R90 to R93). -/
theorem takeSlot_taken (k : Nat) (s : State) : TakenSlot k s (takeSlot k s) := by
  refine ⟨(startPass_moved 1 (slotTaken k s)).notified.pending (by decide) (by decide)
    (raise_pendingWhereRouted .runStarted _), ?_⟩
  exact RunSame.passBegins (s := slotTaken k s) ⟨rfl, rfl, rfl, rfl, rfl⟩ (startPass_begins 1 _)

/-- What followed t, up to t', left all that a run's progress writes as it was, and of the Rating Unit the table
in service. -/
structure RunLeft (t t' : State) : Prop where
  stage : t'.stage = t.stage
  engine : t'.engine = t.engine
  results : t'.results = t.results
  permit : t'.lines.permit = t.lines.permit
  rating : t'.rating.active = t.rating.active ∧ t'.rating.version = t.rating.version
  notices : ∃ l, 10 ∉ l ∧ 11 ∉ l ∧ 14 ∉ l ∧ Notified l t t'

theorem RunLeft.trans {s t u : State} (h : RunLeft s t) (h' : RunLeft t u) : RunLeft s u := by
  obtain ⟨l, a, b, c, n⟩ := h.notices
  obtain ⟨l', a', b', c', n'⟩ := h'.notices
  exact ⟨h'.stage.trans h.stage, h'.engine.trans h.engine, h'.results.trans h.results, h'.permit.trans h.permit,
    ⟨h'.rating.1.trans h.rating.1, h'.rating.2.trans h.rating.2⟩, l ++ l', by simp [a, a'], by simp [b, b'],
    by simp [c, c'], (n.mono fun _ h => List.mem_append_left _ h).trans (n'.mono fun _ h => List.mem_append_right _ h)⟩

/-- The open interval and the Plan Store are none of it. -/
theorem RunLeft.others (t : State) (history : HistoryStore) (plan : PlanStore) :
    RunLeft t { t with history, plan } :=
  ⟨rfl, rfl, rfl, rfl, ⟨rfl, rfl⟩, [], by simp, by simp, by simp, .of_eq rfl⟩

theorem Entered.left {st : RunState} {t t' : State} (h : Entered st t) (hl : RunLeft t t') : Entered st t' := by
  obtain ⟨l, h10, h11, h14, n⟩ := hl.notices
  have holds := n.kept.2.1
  refine ⟨hl.engine ▸ h.1, hl.permit.trans h.2.1, ?_, ?_, ?_⟩
  · exact (holds .carriageWanted 10 (by decide) h10).trans h.2.2.1
  · exact (holds .proceedWanted 11 (by decide) h11).trans h.2.2.2.1
  · exact (holds .trip 14 (by decide) h14).trans h.2.2.2.2

theorem RunLeft.pending {t t' : State} (hl : RunLeft t t') {k : Nat} (hk : k < 20)
    (hn : k ∉ [2, 7, 10, 11, 14, 18]) (h : PendingWhereRouted k t) : PendingWhereRouted k t' := by
  obtain ⟨l, -, -, -, n⟩ := hl.notices
  exact n.pending hk hn h

theorem ResultOf.left {table : List TableEntry} {stage : Option Int} {s : State} {r : PassResult}
    {x y : RatingUnit} (h : ResultOf table x stage s r) (hq : y.active = x.active ∧ y.version = x.version) :
    ResultOf table y stage s r := by
  simpa only [ResultOf, hq.1, hq.2] using h

theorem Recalled.left {cause : EndCause} {s t t' : State} (h : Recalled cause s t) (hl : RunLeft t t') :
    Recalled cause s t' := by
  obtain ⟨⟨entered, engine⟩, shut, closed, none⟩ := h
  refine ⟨⟨entered.left hl, hl.engine ▸ engine⟩, hl.engine ▸ shut, fun ho => ?_, fun hc => hl.results ▸ none hc⟩
  obtain ⟨done, r, hr, of, held, rest⟩ := closed ho
  refine ⟨hl.pending (by decide) (by decide) done, r, hl.results ▸ hr, ?_, hl.stage ▸ held, rest⟩
  rw [hl.results, hl.stage]
  exact of.left hl.rating

theorem NextFetched.left {i : Nat} {s t t' : State} (h : NextFetched i s t) (hl : RunLeft t t')
    (hp : t'.plan = t.plan) : NextFetched i s t' := by
  obtain ⟨entered, engine, plan, fetched, results⟩ := h
  exact ⟨entered.left hl, hl.engine ▸ engine, hp ▸ plan, hp ▸ fetched, hl.results ▸ results⟩

theorem PassBegins.left {n : Nat} {s t t' : State} (h : PassBegins n s t) (hl : RunLeft t t')
    (hp : t'.plan = t.plan) : PassBegins n s t' := by
  obtain ⟨z, hz, used, unused⟩ := h
  exact ⟨z, hz, fun hu => (used hu).left hl hp, fun hu => ⟨(unused hu).1.left hl, hp ▸ (unused hu).2⟩⟩

theorem TakenSlot.left {k : Nat} {s t t' : State} (h : TakenSlot k s t) (hl : RunLeft t t')
    (hp : t'.plan = t.plan) : TakenSlot k s t' :=
  ⟨hl.pending (by decide) (by decide) h.1, h.2.left hl hp⟩

/-- Slots judged after a take leave the take as it was, but for the plan. -/
theorem TakenSlot.judgedLater {k : Nat} {s t t' : State} (h : TakenSlot k s t) (hl : RunLeft t t') :
    TakenSlot k s { t' with plan := t.plan } :=
  h.left (t' := { t' with plan := t.plan }) ⟨hl.stage, hl.engine, hl.results, hl.permit, hl.rating, by
    obtain ⟨l, a, b, c, n⟩ := hl.notices
    exact ⟨l, a, b, c, n.congr rfl rfl⟩⟩ rfl

/-! ## Holds, verticals, points (R96, R100 to R106) -/

theorem hold_held (kind : HoldKind) (s : State) : Held kind s (hold kind s) := by
  refine ⟨enter_entered _ _, ?_, enter_plan .holding _, enter_keeps .holding _ .results (by decide)⟩
  simp only [hold, enter_engine]
  rfl

theorem hold_moved (kind : HoldKind) (s : State) : PermitMoved passSources s (hold kind s) :=
  ((enter_moved .holding (withEngine { s.engine with holdKind := some kind } s)).mono (by decide)).before
    (.of_eq rfl) rfl

theorem RunSame.held {s s' t : State} (h : RunSame s s') {kind : HoldKind} (hr : Held kind s t) :
    Held kind s' t := h.congr (P := fun x => Held kind x t) fun _ _ _ _ _ _ _ _ => hr

theorem saturate_eq_min (top n : Nat) : saturate top n = min top n := by unfold saturate; split <;> omega

/-- The totals of a COMPLETE close and its comparison with the rating (R124, R126). -/
theorem closeResult_formed (s : State) :
    ResultFormed (tableClosed s.results.table) s.rating (closeResult .complete .complete s) := by
  have table := finalizeAtClose_table s
  have r2 : (finalizeAtClose s).rating = s.rating := rfl
  unfold ResultFormed
  extract_lets q area measured rated
  have hm : measuredDischarge (tableClosed s.results.table) = measured := by
    simp only [measuredDischarge, saturate_eq_min, Config.dischargeMax, measured, q]
  have hr : (closeResult .complete .complete s).measured = some measured := by
    simp [closeResult, passResult, table, hm]
  have hd : (closeResult .complete .complete s).rated = rated.discharge := by
    simp only [closeResult, passResult, r2]; rfl
  have he : (closeResult .complete .complete s).deviation = deviationOf measured rated.discharge := by
    simp only [closeResult, passResult, r2, table, hm]; rfl
  have hp : ((closeResult .complete .complete s).proposal, (closeResult .complete .complete s).proposalClamped) =
      shiftProposal (inverseRating s.rating.active measured) (closeResult .complete .complete s).ghMean := by
    simp only [closeResult, passResult, r2, table, hm]; simp
  refine ⟨hr, ?_, ?_, hd, ?_, ?_, ?_, ?_, ?_, ?_⟩
  · simp [closeResult, passResult, table, area]
  · simp [closeResult, passResult, table, area, passVelocity, q]
  · simp only [closeResult, passResult, r2]; rfl
  · rw [hd, he]; rintro (h | h) <;> simp [deviationOf, h]
  · rw [hd, he]; intro x hx h0; simp [deviationOf, hx, h0]
  · intro h; rw [h] at hp; simpa [shiftProposal] using hp
  · intro h hh
    rw [hh] at hp
    simp only [shiftProposal, Prod.mk.injEq] at hp
    refine ⟨hp.1, ?_⟩
    rw [hp.2]
    simp [withinInt]
    omega
  · have hb : (closeResult .complete .complete s).beyondRating = rated.mark.beyond := by
      simp only [closeResult, passResult, r2]; rfl
    rw [hb]
    cases rated.mark <;> simp [RatingMark.beyond]

/-- The state of the engine at the end of what goes on with a vertical's end. -/
theorem Recalled.state {cause : EndCause} {s t : State} (h : Recalled cause s t) : t.engine.state = .homing := h.1.1.1

theorem startPass_state (number : Nat) (s : State) :
    (startPass number s).engine.state = .moving ∨ (startPass number s).engine.state = .homing := by
  rw [startPass_eq]
  rcases fetch_cases (passBegun number s) with ⟨cause, -, h⟩ | ⟨-, h⟩ <;> rw [h]
  · exact .inr (recallRun_recalled _ _).state
  · exact .inl (fetchRecord_fetched _ _).1.1

/-- A pass's normal end with three verticals closes it as statements say (R105). -/
theorem endPass_closes {s : State} (h : 3 ≤ s.engine.fetchCount) : PassCloses s (endPass s) ∧
    ((endPass s).engine.state = .moving ∨ (endPass s).engine.state = .holding ∨
      (endPass s).engine.state = .homing) ∧ PermitMoved passSources s (endPass s) := by
  have done := closePass_done .complete .complete s
  have closed := (closePass_notified .complete .complete s).mono (m := passSources) (by decide)
  have lines : (closePass .complete .complete s).lines = s.lines := rfl
  have results := closePass_results .complete .complete s
  have definition : activeDefinition (closePass .complete .complete s) = activeDefinition s := rfl
  have remain : passesRemain (closePass .complete .complete s) = passesRemain s := rfl
  have number : (closePass .complete .complete s).engine.passNumber = s.engine.passNumber := rfl
  have same : RunSame (closePass .complete .complete s)
      { s with engine := { s.engine with passOpen := false }
               results := resultsClosed (closeResult .complete .complete s) s } :=
    ⟨rfl, rfl, rfl, rfl, results.symm⟩
  obtain ⟨of, held, status, ends⟩ := closeResult_of .complete .complete s
  have whole := And.intro status (And.intro ends (And.intro of (And.intro held (closeResult_formed s))))
  simp only [endPass, h, if_true, remain, definition, number]
  by_cases hr : passesRemain s = true
  · cases hm : (activeDefinition s).mode
    all_goals simp only [hr, if_true]
    · have moved := startPass_moved (nextNumber s.engine.passNumber) (closePass .complete .complete s)
      refine ⟨⟨moved.notified.pending (by decide) (by decide) done, _,
        ⟨fun h => absurd (hr.symm.trans h) (by decide), fun _ h => absurd (hm.symm.trans h) (by decide),
          fun _ _ => same.passBegins (startPass_begins _ _)⟩, whole⟩, ?_, moved.before closed lines⟩
      rcases startPass_state (nextNumber s.engine.passNumber) (closePass .complete .complete s) with h | h <;>
        simp [h]
    · have moved := hold_moved .nextPass (closePass .complete .complete s)
      exact ⟨⟨moved.notified.pending (by decide) (by decide) done, _,
        ⟨fun h => absurd (hr.symm.trans h) (by decide), fun _ _ => same.held (hold_held _ _),
          fun _ h => absurd (hm.symm.trans h) (by decide)⟩, whole⟩, .inr (.inl (hold_held _ _).1.1),
        moved.before closed lines⟩
  · have moved := recallRun_moved .complete (closePass .complete .complete s)
    simp only [hr]
    exact ⟨⟨moved.notified.pending (by decide) (by decide) done, _,
      ⟨fun _ => ⟨same.recalled (recallRun_recalled _ _), recallRun_keeps _ _ .plan (by decide)⟩,
        fun h => absurd h hr, fun h => absurd h hr⟩,
      whole⟩, .inr (.inr (recallRun_recalled _ _).state), moved.before closed lines⟩

/-- A vertical that completes ends as statements say (R105, R106). -/
theorem completeVertical_ends {done : TableEntry → TableEntry} {s t : State}
    (h : recordCompletion t = tabled (newestAs done s.results.table) s) :
    VerticalEnds done s (completeVertical t) ∧
    PermitMoved passSources (tabled (newestAs done s.results.table) s) (completeVertical t) := by
  simp only [completeVertical, h, VerticalEnds, VerticalCompletes]
  generalize hu : tabled (newestAs done s.results.table) s = u
  have more : hasMore u = hasMore s := by subst hu; rfl
  have definition : activeDefinition u = activeDefinition s := by subst hu; rfl
  have index : nextIndex u = nextIndex s := by subst hu; rfl
  have fault : fetchFault u (poolRecord u (nextIndex u)) = fetchFault s (poolRecord s (nextIndex s)) := by
    subst hu; rfl
  have count : u.engine.fetchCount = s.engine.fetchCount := by subst hu; rfl
  have plan : u.plan = s.plan := by subst hu; rfl
  rw [more, definition]
  by_cases hm : hasMore s = true
  · cases hd : (activeDefinition s).mode
    all_goals simp only [hm, if_true]
    · have spec := fetch_spec u
      rw [fault, index, plan] at spec
      refine ⟨⟨?_, ⟨fun _ h => absurd h (by decide), fun _ _ => spec,
        fun h => absurd h (by decide)⟩, fun h => absurd h (by decide)⟩, fetch_moved u⟩
      rcases fetch_cases u with ⟨cause, -, h⟩ | ⟨-, h⟩ <;> rw [h]
      · exact .inr (.inr (recallRun_recalled _ _).state)
      · exact .inl (fetchRecord_fetched _ _).1.1
    · exact ⟨⟨.inr (.inl (hold_held _ _).1.1), ⟨fun _ _ => hold_held _ u,
        fun _ h => absurd h (by decide), fun h => absurd h (by decide)⟩,
        fun h => absurd h (by decide)⟩, hold_moved _ u⟩
  · simp only [hm, Bool.false_eq_true, if_false]
    by_cases hf : 3 ≤ s.engine.fetchCount
    · obtain ⟨closes, state, moved⟩ := endPass_closes (s := u) (count ▸ hf)
      exact ⟨⟨state, ⟨fun h => h.elim, fun h => h.elim, fun _ h => absurd hf (by omega)⟩,
        fun _ _ => closes⟩, moved⟩
    · have short : endPass u = recallRun .planShort u := by simp [endPass, count, hf]
      rw [short]
      exact ⟨⟨.inr (.inr (recallRun_recalled _ _).state), ⟨fun h => h.elim, fun h => h.elim, fun _ _ =>
        ⟨recallRun_recalled _ _, (recallRun_keeps _ u .plan (by decide)).trans plan⟩⟩, fun _ h => absurd h hf⟩,
        recallRun_moved _ u⟩

theorem recordCompletion_eq (s : State) :
    recordCompletion s = tabled (newestAs (entryCompleted s) s.results.table) s := by
  rw [← onNewest_eq]; rfl

theorem newestAs_twice (f g : TableEntry → TableEntry) (es : List TableEntry) :
    newestAs g (newestAs f es) = newestAs (fun e => g (f e)) es := by
  rcases List.eq_nil_or_concat es with rfl | ⟨before, e, rfl⟩
  · rfl
  · simp [newestAs]

/-- A point's record at its end, before what follows it. -/
def pointRecorded (s : State) : State :=
  recordPoint s.engine.point.pulses (s.engine.vertical.countTime * 1000) (pointClosed s)

theorem pointRecorded_eq (s : State) :
    pointRecorded s = tabled (newestAs (pointEnded s) s.results.table) (pointClosed s) := by
  rw [← onNewest_eq]; rfl

theorem newestBecomes (f : TableEntry → TableEntry) {s t : State}
    (h : t.results = { s.results with table := newestAs f s.results.table }) : NewestBecomes f s t := by
  refine ⟨fun he => by simp [h, he, newestAs], fun before e he => by simp [h, he, newestAs], by rw [h]⟩

/-- A point that ends is followed as statements say (R101, R104). -/
theorem endPoint_ends (s : State) : PointEnds s (endPoint s) ∧ PermitMoved passSources s (endPoint s) := by
  have unfolded : endPoint s =
      if s.engine.vertical.pointOrdinal < s.engine.vertical.pointDepths.length then
        enterMove .lowering (withEngine { (pointRecorded s).engine with
          vertical := { s.engine.vertical with pointOrdinal := s.engine.vertical.pointOrdinal + 1 }
          point := {} } (pointRecorded s))
      else completeVertical (pointRecorded s) := rfl
  rw [unfolded]
  split
  · rename_i hp
    generalize hu : withEngine { (pointRecorded s).engine with
          vertical := { s.engine.vertical with pointOrdinal := s.engine.vertical.pointOrdinal + 1 }
          point := {} } (pointRecorded s) = u
    have results : (enterMove .lowering u).results = (pointRecorded s).results := by
      rw [enterMove_keeps .lowering u .results (by decide)]; subst hu; rfl
    refine ⟨⟨fun h => absurd hp (by omega), fun _ => ⟨enterMove_entered _ _, ?_, ?_, newestBecomes _ ?_⟩⟩,
      ((enterMove_moved .lowering u).mono (by decide)).before (.of_eq (by subst hu; rfl)) (by subst hu; rfl)⟩
    · rw [enterMove_engine, enter_engine]; subst hu; rfl
    · rw [enterMove_keeps .lowering u .plan (by decide)]; subst hu; rfl
    · rw [results, pointRecorded_eq]; rfl
  · rename_i hp
    have done : recordCompletion (pointRecorded s) = tabled (newestAs (fun e => entryCompleted s (pointEnded s e))
        (pointClosed s).results.table) (pointClosed s) := by
      rw [recordCompletion_eq, pointRecorded_eq]
      simp only [tabled, newestAs_twice]
      rfl
    obtain ⟨ends, moved⟩ := completeVertical_ends done
    exact ⟨⟨fun _ => ends, fun h => absurd h hp⟩, moved.before (.of_eq rfl) rfl⟩

/-- The state in which counting has begun and no pause has. -/
def countingEntered (s : State) : State :=
  let t := enter .counting (withEngine { s.engine with point := {}, settleTimer := .stopped, pauseTimer := .stopped } s)
  withEngine { t.engine with countTimer := startTimer t (t.engine.vertical.countTime * 1000) } t

theorem countingEntered_moved (s : State) : PermitMoved passSources s (countingEntered s) := by
  generalize hw : withEngine { s.engine with point := {}, settleTimer := .stopped, pauseTimer := .stopped } s = w
  have entered : PermitMoved passSources w (enter .counting w) := (enter_moved .counting w).mono (by decide)
  have before : PermitMoved passSources s (enter .counting w) :=
    entered.before (.of_eq (by subst hw; rfl)) (by subst hw; rfl)
  subst hw
  exact before.after (.of_eq rfl) rfl

theorem countingEntered_engine (s : State) : (countingEntered s).engine = { s.engine with
    state := .counting, holdKind := none, homingCause := none, point := ⟨0, 0, 0, none, false, false⟩
    settleTimer := .stopped, pauseTimer := .stopped
    countTimer := .running (nowMs s + s.engine.vertical.countTime * 1000) } := by
  generalize hw : withEngine { s.engine with point := {}, settleTimer := .stopped, pauseTimer := .stopped } s = w
  have now : nowMs (enter .counting w) = nowMs s := (nowMs_eq (enter_clock .counting w)).trans (by subst hw; rfl)
  simp only [countingEntered, hw, withEngine_engine, startTimer, now, enter_engine]
  subst hw
  rfl

/-- Counting begins as statements say (R100, R102, R103). -/
theorem startCounting_begun (s : State) : CountingBegun s (startCounting s) ∧
    PermitMoved passSources s (startCounting s) := by
  have definition : activeDefinition (countingEntered s) = activeDefinition s :=
    activeDefinition_eq (enter_plan .counting _) (enter_slot .counting _)
  have now : nowMs (countingEntered s) = nowMs s := nowMs_eq (enter_clock .counting _)
  have entered : Entered .counting (countingEntered s) := (enter_entered .counting _).withEngine _ rfl
  have engine := countingEntered_engine s
  have moved := countingEntered_moved s
  have unfolded : startCounting s = if (activeDefinition s).settledSense = .level ∧
      (countingEntered s).lines.anyActive .settledIn = false then pausePoint (countingEntered s)
      else countingEntered s := rfl
  have pause : pausePoint (countingEntered s) = withEngine { (countingEntered s).engine with
      point := ⟨0, 0, 0, some (nowMs s), true, false⟩
      countTimer := .held (s.engine.vertical.countTime * 1000)
      pauseTimer := if (activeDefinition s).pauseLimit = 0 then .stopped
        else .running (nowMs s + (activeDefinition s).pauseLimit * 1000) } (countingEntered s) := by
    have timer : pauseTimerAtPause (countingEntered s) = if (activeDefinition s).pauseLimit = 0 then .stopped
        else .running (nowMs s + (activeDefinition s).pauseLimit * 1000) := by
      simp only [pauseTimerAtPause, definition, engine, startTimer, now]
      by_cases h : (activeDefinition s).pauseLimit = 0 <;> simp [h]
    simp only [pausePoint, timer, now, engine, Timer.hold]
    rw [if_neg]
    · simp
    · by_cases h : (activeDefinition s).pauseLimit = 0 <;> simp [h, Timer.isRunning, Timer.left]
  rw [unfolded]
  split
  · rename_i hp
    rw [pause]
    refine ⟨⟨entered.withEngine _ rfl, ?_, fun _ _ => by simp only [withEngine_engine, engine]⟩,
      moved.after (.of_eq rfl) rfl⟩
    rintro (h | h)
    · rw [hp.1] at h; cases h
    · exact absurd (hp.2.symm.trans h) (by decide)
  · rename_i hp
    exact ⟨⟨entered, fun _ => engine, fun h h' => absurd ⟨h, h'⟩ hp⟩, moved⟩

/-- A permit that a state entered before has set is left as it is. -/
theorem PermitMoved.then_same {l : List Nat} {s t u : State} (h : PermitMoved l s t) (h' : PermitMoved l t u)
    (hl : u.lines = t.lines) : PermitMoved l s u := h.after h'.notified hl

theorem startCounting_lines {s : State} (h : s.lines.permit = .active) : (startCounting s).lines = s.lines := by
  have entered : (countingEntered s).lines = s.lines := enter_lines_same (st := .counting) h
  have unfolded : startCounting s = if (activeDefinition s).settledSense = .level ∧
      (countingEntered s).lines.anyActive .settledIn = false then pausePoint (countingEntered s)
      else countingEntered s := rfl
  rw [unfolded]
  split
  · unfold pausePoint
    extract_lets timer t
    split
    · exact entered
    · exact entered
  · exact entered

/-- SETTLING is entered as statements say (R100). -/
theorem startSettling_begun (s : State) : SettlingBegun s (startSettling s) ∧
    PermitMoved passSources s (startSettling s) := by
  have definition : activeDefinition (enter .settling s) = activeDefinition s :=
    activeDefinition_eq (enter_plan .settling _) (enter_slot .settling _)
  have now : nowMs (enter .settling s) = nowMs s := nowMs_eq (enter_clock .settling _)
  have entered : PermitMoved passSources s (enter .settling s) := (enter_moved .settling s).mono (by decide)
  unfold startSettling
  dsimp only
  rw [definition]
  split
  · rename_i h0
    obtain ⟨⟨state, running, paused⟩, moved⟩ := startCounting_begun (enter .settling s)
    have engine := enter_engine .settling s
    have lines := startCounting_lines (enter_permit .settling s)
    refine ⟨⟨fun h => absurd h0 h, fun _ => ⟨state, fun h => ?_, fun h h' => ?_⟩⟩, entered.then_same moved lines⟩
    · rw [running (definition ▸ h), engine, now]
    · rw [paused (definition ▸ h) h', engine, now, definition]
  · rename_i h0
    refine ⟨⟨fun _ => ⟨(enter_entered .settling s).withEngine _ rfl, ?_⟩, fun h => absurd h h0⟩,
      entered.after (.of_eq rfl) rfl⟩
    simp only [withEngine_engine, startTimer, now, enter_engine]
    rfl

/-! ## The end of a run, a trip (R79, R87, R89, R110, R112) -/

theorem planEnd_other {cause : EndCause} (h : cause ≠ .complete) (s : State) :
    planEnd cause s = { s with plan := { s.plan with activeSlot := none } } := by
  unfold planEnd
  split
  · rename_i hn
    rw [← hn]
  · simp [h]

/-- A run that ends otherwise than COMPLETE (R79, R89). -/
theorem endRun_ended {cause : EndCause} (h : cause ≠ .complete) (s : State) :
    (endRun cause s).engine = { s.engine with
      lastEnd := some ⟨s.engine.runNumber, s.engine.slot, cause, s.clock.clock⟩, slot := none } ∧
    (endRun cause s).plan = { s.plan with activeSlot := none } ∧ (endRun cause s).lines = s.lines ∧
    (endRun cause s).results = s.results ∧ PendingWhereRouted 13 (endRun cause s) ∧
    Notified [13] s (endRun cause s) := by
  unfold endRun
  dsimp only
  rw [planEnd_other h]
  exact ⟨rfl, rfl, rfl, rfl, raise_pendingWhereRouted .runEnded s, (raise_notified .runEnded s).congr rfl rfl⟩

/-- The engine with its timers stopped and an open pass closed, brought into a state with a trip record. -/
def haltedIn (st : RunState) (record : TripRecord) (cause : EndCause) (s : State) : State :=
  let t := closeIfOpen cause (stopTimers s)
  enter st (withEngine { t.engine with trip := record } t)

theorem haltedIn_moved (st : RunState) (record : TripRecord) (cause : EndCause) (s : State) :
    PermitMoved passSources s (haltedIn st record cause s) := by
  generalize hw : withEngine { (closeIfOpen cause (stopTimers s)).engine with trip := record }
    (closeIfOpen cause (stopTimers s)) = w
  have lines : w.lines = s.lines := by subst hw; exact closeIfOpen_lines cause (stopTimers s)
  have noted : Notified [12] s w := by subst hw; exact (closeIfOpen_notified cause (stopTimers s)).congr rfl rfl
  have entered : PermitMoved passSources w (enter st w) := (enter_moved st w).mono (by decide)
  simp only [haltedIn, hw]
  exact entered.before (noted.mono (by decide)) lines

/-- With no pass open, nothing is closed and no PASS_DONE raised. -/
theorem haltedIn_notified_closed (st : RunState) (record : TripRecord) (cause : EndCause) {s : State}
    (h : s.engine.passOpen = false) : Notified [10, 11, 14, 17] s (haltedIn st record cause s) := by
  have closed : closeIfOpen cause (stopTimers s) = stopTimers s := by
    have open' : (stopTimers s).engine.passOpen = false := h
    simp [closeIfOpen, open']
  generalize hw : withEngine { (stopTimers s).engine with trip := record } (stopTimers s) = w
  have notices : w.notices = s.notices := by subst hw; rfl
  have entered : Notified [10, 11, 14, 17] w (enter st w) := (enter_moved st w).notified
  simp only [haltedIn, closed, hw]
  exact entered.congr notices.symm rfl

theorem haltedIn_engine (st : RunState) (record : TripRecord) (cause : EndCause) (s : State) (hs : st ≠ .holding)
    (hh : st ≠ .homing) : (haltedIn st record cause s).engine = { s.engine with
      state := st, holdKind := none, homingCause := none, passOpen := false, trip := record
      point := pointStopped s
      moveTimer := .stopped, settleTimer := .stopped, countTimer := .stopped, pauseTimer := .stopped
      homeTimer := .stopped } := by
  simp only [haltedIn, enter_engine, withEngine_engine, closeIfOpen_engine, hs, hh, if_false]
  rfl

theorem haltedIn_keeps (st : RunState) (record : TripRecord) (cause : EndCause) (s : State) :
    KeepsBut recallBlocks s (haltedIn st record cause s) :=
  ((stopTimers_keeps s).mono (by decide)).trans ((closeIfOpen_keeps cause _).trans
    (((withEngine_keeps _ _).mono (by decide)).trans ((enter_keeps st _).mono (by decide))))

/-- What follows the halt, where it leaves the results, the rating and the stage, closes what was open (R87). -/
theorem haltedIn_closes {st : RunState} {record : TripRecord} {cause : EndCause} {l : List Nat} {s t : State}
    (hn : Notified l (haltedIn st record cause s) t) (he : t.engine.passOpen = false)
    (hr : t.results = (haltedIn st record cause s).results) (hq : t.rating = s.rating) (hs : t.stage = s.stage) :
    ClosesOpenPass t.stage.status cause s t := by
  generalize hw : withEngine { (closeIfOpen cause (stopTimers s)).engine with trip := record }
    (closeIfOpen cause (stopTimers s)) = w
  have entered : Notified ([10, 11, 14, 17] ++ l) (closeIfOpen cause (stopTimers s)) t := by
    have first : Notified [10, 11, 14, 17] w (enter st w) := (enter_moved st w).notified
    simp only [haltedIn, hw] at hn
    exact ((first.mono fun _ h => List.mem_append_left _ h).congr (by subst hw; rfl) rfl).trans
      (hn.mono fun _ h => List.mem_append_right _ h)
  exact closeIfOpen_closes (s := stopTimers s) entered he
    (hr.trans (enter_keeps st _ .results (by decide))) hq hs

/-- The point record of an engine whose timers are stopped stands as it was (R86, R89). -/
theorem pointKept_of {s t : State} (hp : t.engine.point = pointStopped s) (hc : t.engine.countTimer = .stopped) :
    PointKept s t := by
  refine ⟨by rw [hp]; rfl, by rw [hp]; rfl, by rw [hp]; rfl, ?_, ?_⟩
  · simp only [countedNow, hc, hp]; rfl
  · simp only [pausedNow, hp]; rfl

theorem tripEngine_eq {record : TripRecord} {s : State} (h : s.engine.state ≠ .tripped) : tripEngine record s =
    if s.engine.state.runActive then endRun .trip (haltedIn .tripped record .trip s)
    else haltedIn .tripped record .trip s := by
  simp only [tripEngine, h, if_false]; rfl

/-- A trip of an engine that is not TRIPPED is the one that statements name (R79, R89, R110). -/
theorem tripEngine_taken {record : TripRecord} {s : State} (h : s.engine.state ≠ .tripped) (inv : EngineInv s) :
    TripTaken record s (tripEngine record s) ∧ PermitMoved (13 :: passSources) s (tripEngine record s) := by
  have engine := haltedIn_engine .tripped record .trip s (by decide) (by decide)
  have kept := haltedIn_keeps .tripped record .trip s
  have moved := (haltedIn_moved .tripped record .trip s).mono (m := 13 :: passSources) (by decide)
  have entered : Entered .tripped (haltedIn .tripped record .trip s) := enter_entered _ _
  rw [tripEngine_eq h]
  split
  · rename_i active
    obtain ⟨e, p, l, r, pend, n⟩ := endRun_ended (cause := .trip) (by decide) (haltedIn .tripped record .trip s)
    have keep := endRun_keeps .trip (haltedIn .tripped record .trip s)
    rw [engine] at e
    have rating := (keep .rating (by decide)).trans (kept .rating (by decide))
    have stage := (keep .stage (by decide)).trans (kept .stage (by decide))
    have warning := (keep .warning (by decide)).trans (kept .warning (by decide))
    have clock : (haltedIn .tripped record .trip s).clock = s.clock := kept .clock (by decide)
    have plan : (haltedIn .tripped record .trip s).plan = s.plan := kept .plan (by decide)
    have all := moved.after (n.mono (by decide)) l
    have idle : s.engine.state ≠ .idle := fun h => by rw [h] at active; cases active
    have state : Entered .tripped (endRun .trip (haltedIn .tripped record .trip s)) := by
      have holds := n.kept.2.1
      exact ⟨by rw [e], by rw [l]; exact entered.2.1,
        (holds .carriageWanted 10 (by decide) (by decide)).trans entered.2.2.1,
        (holds .proceedWanted 11 (by decide) (by decide)).trans entered.2.2.2.1,
        (holds .trip 14 (by decide) (by decide)).trans entered.2.2.2.2⟩
    refine ⟨⟨⟨state, by rw [e], by rw [e]; exact ⟨rfl, rfl, rfl, rfl⟩, by rw [e], by rw [e], by rw [p]⟩,
      haltedIn_closes n (by rw [e]) r rating stage, ?_, by rw [p, plan], warning,
      fun hc => (((haltedIn_notified_closed .tripped record .trip hc).mono (m := [10, 11, 13, 14, 17])
        (by decide)).trans (n.mono (by decide))).kept.asBefore (by decide), fun _ => ⟨by rw [e, clock], pend⟩, fun h => absurd h idle⟩, all⟩
    exact ⟨by rw [e], by rw [e], by rw [e], by rw [e], by rw [e], by rw [e], by rw [e],
      pointKept_of (by rw [e]) (by rw [e])⟩
  · rename_i active
    have idle : s.engine.state = .idle := by
      cases hs : s.engine.state <;> simp_all [RunState.runActive]
    have slot : s.engine.slot = none := by have := inv.slot; rw [idle] at this; simpa [RunState.runActive] using this
    have activeSlot : s.plan.activeSlot = none := inv.activeSlot.trans slot
    have plan : (haltedIn .tripped record .trip s).plan = s.plan := kept .plan (by decide)
    have rating := kept .rating (by decide)
    have stage := kept .stage (by decide)
    refine ⟨⟨⟨entered, by rw [engine], by rw [engine]; exact ⟨rfl, rfl, rfl, rfl⟩, by rw [engine],
        by rw [engine]; exact slot, by rw [plan]; exact activeSlot⟩,
      haltedIn_closes (.refl [] _) (by rw [engine]) rfl rating stage, ?_, ?_, kept .warning (by decide),
      fun hc => (haltedIn_notified_closed .tripped record .trip hc).kept.asBefore (by decide),
      fun h => absurd idle h, fun _ => ⟨by rw [engine], ?_⟩⟩, moved⟩
    · exact ⟨by rw [engine], by rw [engine], by rw [engine], by rw [engine], by rw [engine], by rw [engine],
        by rw [engine], pointKept_of (by rw [engine]) (by rw [engine])⟩
    · rw [plan]; conv_lhs => rw [show s.plan = { s.plan with activeSlot := s.plan.activeSlot } from rfl, activeSlot]
    · exact ((haltedIn_moved .tripped record .trip s).notified.kept).asBefore (by decide)

end Sys2Proof.Machine
end

