-- ==== Sys2Proof/Laws/Events.lean ====
section
/-! SUPPORT. What an evaluation, an offer and an accepted report make of the plan, the run and the lines, in the
words of `RunFollows`: the slots are judged, and a recall, a take or nothing follows (R69, R70, R72, R76, R77,
R109). -/

namespace Sys2Proof.Machine

/-! ## A take attempt (R76, R77) -/

theorem takeAttempt_moved (s : State) : PermitMoved takeSources s (takeAttempt s) := by
  rcases takeAttempt_cases s with h | ⟨k, h, -⟩ <;> rw [h]
  · exact .refl _ s
  · exact takeSlot_moved k s

/-- A take attempt takes the first slot that asks, or changes nothing. -/
theorem takeAttempt_spec (s : State) :
    (s.engine.state = .idle ∧ TakeReady s ∧ ∃ j, s.plan.order.find? (slotAsks s) = some j ∧
      takeAttempt s = takeSlot j s) ∨
    ((s.engine.state ≠ .idle ∨ ¬ TakeReady s ∨ s.plan.order.find? (slotAsks s) = none) ∧ takeAttempt s = s) := by
  by_cases hi : s.engine.state = .idle
  · by_cases hr : TakeReady s
    · cases hf : s.plan.order.find? (slotAsks s) with
      | some j => exact .inl ⟨hi, hr, j, rfl, takeAttempt_taken hi hr hf⟩
      | none => exact .inr ⟨.inr (.inr rfl), takeAttempt_none (.inr (.inr hf))⟩
    · exact .inr ⟨.inr (.inl hr), takeAttempt_none (.inr (.inl hr))⟩
  · exact .inr ⟨.inl hi, takeAttempt_busy hi⟩

theorem takeSlot_busy (k : Nat) (s : State) : (takeSlot k s).engine.state ≠ .idle := by
  rcases startPass_state 1 (slotTaken k s) with h | h <;> rw [takeSlot_eq, h] <;> decide

/-- Readiness for a take reads retreat, the stage and the functions of the lines only. -/
theorem TakeReady.congr {s t : State} (h : TakeReady s) (hw : t.warning.retreat = s.warning.retreat)
    (hs : t.stage = s.stage) (hl : ∀ i, i < 16 → (lineAt t i).function = (lineAt s i).function) :
    TakeReady t := by
  obtain ⟨a, b, c, d, ⟨i, hi, hf⟩, ⟨j, hj, hg⟩⟩ := h
  exact ⟨hw.trans a, hs ▸ b, hs ▸ c, hs ▸ d, ⟨i, hi, (hl i hi).trans hf⟩, ⟨j, hj, (hl j hj).trans hg⟩⟩

theorem LinesFollow.functions {s t : State} (h : LinesFollow s t) {i : Nat} (hi : i < 16) :
    (lineAt t i).function = (lineAt s i).function := (h i hi).function_eq

theorem RunSame.asks {s s' : State} (h : RunSame s s') :
    s.plan.order.find? (slotAsks s) = s'.plan.order.find? (slotAsks s') := by
  have same : slotAsks s = slotAsks s' := by funext k; simp only [slotAsks, slotAt, h.plan]
  rw [same, h.plan]

/-! ## Slots judged (R69, R70, R72) -/

theorem Slot.request_self (x : Slot) {v : Bool} (h : v = x.request) : { x with request := v } = x := by
  subst h; rfl

/-- A flag of the EDGE kind: set for an armed slot on a passage, and kept else. -/
theorem edgeJudged_eq (x : Slot) (c : Prop) [Decidable c] : { x with request := x.request || (x.armed && decide c) } =
    if x.armed = true ∧ c then { x with request := true } else x := by
  by_cases h : x.armed = true ∧ c
  · rw [if_pos h]; simp [h.1, h.2]
  · rw [if_neg h]
    refine x.request_self ?_
    cases ha : x.armed <;> simp_all

theorem levelJudged_eq (before after : Nat) (x : Slot) :
    { x with request := levelFlag before after x } = levelJudged before after x := by
  unfold levelFlag levelJudged
  cases h : x.definition.trigger with
  | warningLevel l sense =>
    cases sense with
    | edge => exact edgeJudged_eq x _
    | level =>
      dsimp only
      simp only [and_comm (a := after < l)]
      split
      · rfl
      · split <;> rfl
  | _ => rfl

theorem offerJudged_eq (before now : Option Int) (x : Slot) :
    { x with request := riseFlag before now x } = offerJudged before now x := by
  unfold riseFlag offerJudged
  cases h : x.definition.trigger with
  | stageRise t sense =>
    cases sense with
    | edge =>
      cases before with
      | none => simp
      | some b =>
        cases now with
        | none => simp
        | some z => exact edgeJudged_eq x _
    | level => cases now <;> cases before <;> rfl
  | _ => rfl

theorem reportJudged_eq (cls : Nat) (x : Slot) :
    { x with request := x.request || upstreamSets cls x } = reportJudged cls x := by
  unfold upstreamSets reportJudged
  cases h : x.definition.trigger with
  | upstream m => exact edgeJudged_eq x _
  | _ => simp

/-! ## Changes of the level (R143 to R145) -/

/-- A run of falls from level a to level b, one step each. -/
def Falls : Nat → Nat → List (Nat × Nat) → Prop
  | a, b, [] => a = b
  | a, b, c :: rest => c = (a, a - 1) ∧ 1 ≤ a ∧ Falls (a - 1) b rest

/-- The changes of an evaluation from level a to level b: one rise, or falls. -/
def LevelPath (a b : Nat) (changes : List (Nat × Nat)) : Prop :=
  (a < b ∧ changes = [(a, b)]) ∨ Falls a b changes

theorem Falls.le {a b : Nat} {changes : List (Nat × Nat)} (h : Falls a b changes) : b ≤ a := by
  induction changes generalizing a with
  | nil => exact Nat.le_of_eq h.symm
  | cons c rest ih => obtain ⟨-, -, h⟩ := h; have := ih h; omega

/-- A criterion above the greatest one met is not met. -/
theorem highestMet_unmet {met : Nat → Bool} {j : Nat} (h1 : 1 ≤ j) (h3 : j ≤ 3) (h : highestMet met < j) :
    met j = false := by
  unfold highestMet at h
  rcases (by omega : j = 1 ∨ j = 2 ∨ j = 3) with rfl | rfl | rfl <;> cases h' : met 3 <;> cases h'' : met 2 <;>
    cases h''' : met 1 <;> simp_all

theorem highestMet_congr {met met' : Nat → Bool} (h : ∀ j, 1 ≤ j → j ≤ 3 → met' j = met j) :
    highestMet met' = highestMet met := by
  simp [highestMet, h 3, h 2, h 1]

/-- A part of the demand whose criteria are raised above the level held, formed a level lower. -/
theorem highestMet_fall {raised lowered : Nat → Bool} (imp : ∀ j, raised j = true → lowered j = true) {n : Nat}
    (h : highestMet (fun j => if n < j then raised j else lowered j) < n) :
    highestMet (fun j => if n - 1 < j then raised j else lowered j) =
      highestMet (fun j => if n < j then raised j else lowered j) := by
  refine highestMet_congr fun j h1 h3 => ?_
  by_cases hj : j = n
  · subst hj
    have unmet := highestMet_unmet h1 h3 h
    simp only [lt_irrefl, if_false] at unmet
    have : raised j = false := by
      cases hr : raised j
      · rfl
      · exact absurd (imp j hr) (by simp [unmet])
    simp [unmet, this]
  · by_cases hl : n < j
    · simp [hl, show n - 1 < j by omega]
    · simp [hl, show ¬ n - 1 < j by omega]

theorem roundDiv_mono {a b : Int} (h : a ≤ b) (n : Nat) (ha : 0 ≤ b) : roundDiv a n ≤ roundDiv b n := by
  unfold roundDiv
  rw [if_pos ha]
  split
  · exact_mod_cast Nat.div_le_div_right (by omega)
  · exact (neg_nonpos.2 (Int.natCast_nonneg _)).trans (Int.natCast_nonneg _)

theorem loweredDischarge_le (c : Criteria) (q : Nat) : loweredDischarge c q ≤ q := by
  have whole : roundDiv ((q : Int) * 1000) 1000 = q := by
    simp only [roundDiv]
    rw [if_pos (by omega)]
    omega
  rw [← whole]
  refine roundDiv_mono ?_ 1000 (by omega)
  exact Int.mul_le_mul_of_nonneg_left (by omega) (by omega)

/-- The three parts of a demand that judge with a threshold raised above the level held. -/
theorem met_cases (i : EvalInputs) (w : WarningUnit) :
    (∃ raised lowered : Nat → Bool, (∀ j, raised j = true → lowered j = true) ∧
      ∀ n, stageMet { w with level := n } i.stage = fun j => if n < j then raised j else lowered j) ∧
    (∃ raised lowered : Nat → Bool, (∀ j, raised j = true → lowered j = true) ∧
      ∀ n, dischargeMet { w with level := n } i.discharge = fun j => if n < j then raised j else lowered j) := by
  refine ⟨⟨fun j => match triAt w.criteria.stage j, i.stage with
      | some t, some z => decide (t ≤ z)
      | _, _ => false,
    fun j => match triAt w.criteria.stage j, i.stage with
      | some t, some z => decide (t - w.criteria.hysteresis ≤ z)
      | _, _ => false, fun j => ?_, fun n => ?_⟩,
    ⟨fun j => match triAt w.criteria.discharge j, i.discharge with
      | some t, some q => decide (t ≤ q)
      | _, _ => false,
    fun j => match triAt w.criteria.discharge j, i.discharge with
      | some t, some q => decide (loweredDischarge w.criteria t ≤ q)
      | _, _ => false, fun j => ?_, fun n => ?_⟩⟩
  · dsimp only
    split
    · simp; omega
    · simp
  · funext j
    unfold stageMet
    dsimp only
    split <;> simp_all
  · dsimp only
    split
    · rename_i t q _ _
      have := loweredDischarge_le w.criteria t
      simp; omega
    · simp
  · funext j
    unfold dischargeMet
    dsimp only
    split <;> simp_all

/-- A demand below the level held is the same once the level has fallen a step (R137 to R141). -/
theorem formDemand_fall (i : EvalInputs) (w : WarningUnit) (h : (formDemand i w).demanded < w.level) :
    (formDemand i (fallLevel (formDemand i w))).demanded = (formDemand i w).demanded := by
  obtain ⟨⟨r, l, imp, hs⟩, ⟨r', l', imp', hd⟩⟩ := met_cases i w
  have parts : (formDemand i w).demanded = max (max (highestMet (stageMet { w with level := w.level } i.stage))
      (highestMet (dischargeMet { w with level := w.level } i.discharge)))
      (max (highestMet (riseMet w i.rise)) w.floor) := rfl
  have after : (formDemand i (fallLevel (formDemand i w))).demanded =
      max (max (highestMet (stageMet { w with level := w.level - 1 } i.stage))
        (highestMet (dischargeMet { w with level := w.level - 1 } i.discharge)))
      (max (highestMet (riseMet w i.rise)) w.floor) := rfl
  rw [parts, hs, hd] at h
  rw [after, parts, hs, hs, hd, hd]
  rw [highestMet_fall imp (by omega), highestMet_fall imp' (by omega)]

/-- What an evaluation settles: the changes lead from the level before to the level after, and retreat is left to
the next step (R143 to R145). -/
theorem settleLevel_path (k : Nat) (i : EvalInputs) (w : WarningUnit) :
    LevelPath w.level (settleLevel k i w).1.level (settleLevel k i w).2 ∧
    (settleLevel k i w).1.retreat = w.retreat ∧
    ((formDemand i w).demanded ≤ w.level → Falls w.level (settleLevel k i w).1.level (settleLevel k i w).2) := by
  induction k generalizing w with
  | zero => exact ⟨.inr rfl, rfl, fun _ => rfl⟩
  | succ k ih =>
    have level : (formDemand i w).level = w.level := rfl
    unfold settleLevel
    dsimp only
    split
    · rename_i h
      exact ⟨.inl ⟨level ▸ h, by rw [level]; rfl⟩, rfl, fun h' => absurd h (by omega)⟩
    · split
      · exact ⟨.inr rfl, rfl, fun _ => rfl⟩
      · rename_i h h'
        have below : (formDemand i w).demanded < w.level := by omega
        split
        · obtain ⟨-, retreat, falls⟩ := ih (fallLevel (formDemand i w))
          have same := formDemand_fall i w below
          have falls := falls (by rw [same]; simp only [fallLevel, level]; omega)
          have all : Falls w.level (settleLevel k i (fallLevel (formDemand i w))).1.level
              (((formDemand i w).level, (formDemand i w).level - 1) ::
                (settleLevel k i (fallLevel (formDemand i w))).2) := ⟨by rw [level], by omega, falls⟩
          exact ⟨.inr all, retreat, fun _ => all⟩
        · exact ⟨.inr rfl, rfl, fun _ => rfl⟩

/-- A fall clears the flags of the LEVEL kind that it passes (R70). -/
theorem levelJudged_below {a b : Nat} (h : b ≤ a) (x : Slot) : levelJudged a b x =
    match x.definition.trigger with
    | .warningLevel l .level => if b < l ∧ l ≤ a then { x with request := false } else x
    | _ => x := by
  unfold levelJudged
  cases x.definition.trigger with
  | warningLevel l sense =>
    cases sense with
    | edge => exact if_neg (by omega)
    | level => exact if_neg (by omega)
  | _ => rfl

theorem levelJudged_fall {a b c : Nat} (h : c ≤ b) (h' : b ≤ a) (x : Slot) :
    levelJudged b c (levelJudged a b x) = levelJudged a c x := by
  rw [levelJudged_below h', levelJudged_below (h.trans h')]
  cases ht : x.definition.trigger with
  | warningLevel l sense =>
    cases sense with
    | edge => simp [levelJudged_below h, ht]
    | level =>
      dsimp only
      by_cases h1 : b < l ∧ l ≤ a
      · rw [if_pos h1, if_pos (by omega), levelJudged_below h]
        simp only [ht]
        split <;> rfl
      · rw [if_neg h1, levelJudged_below h]
        simp only [ht]
        by_cases h2 : c < l ∧ l ≤ b
        · rw [if_pos h2, if_pos (by omega)]
        · rw [if_neg h2, if_neg (by omega)]
  | _ => simp [levelJudged_below h, ht]

theorem judged_judged (f g : Slot → Slot) (plan : PlanStore) :
    (plan.judged f).judged g = plan.judged (fun x => g (f x)) := by
  simp [PlanStore.judged, Function.comp_def]

theorem levelSets_falls {a b : Nat} (h : b ≤ a) (x : Slot) : levelSets a b x = false := by
  unfold levelSets
  split
  · simp; omega
  · simp

theorem levelSets_none {a b : Nat} (h : b ≤ a) (slots : Vector Slot 4) : slots.any (levelSets a b) = false := by
  rw [Vector.any_eq_false]
  intro i hi; simp [levelSets_falls h]

/-- The Plan Store after a change of the level from a to b has been judged. -/
def levelledPlan (a b : Nat) (s : State) : PlanStore := s.plan.judged (levelJudged a b)

theorem judged_same {f : Slot → Slot} (h : ∀ x, f x = x) (plan : PlanStore) : plan.judged f = plan := by
  have slots : plan.slots.map f = plan.slots := by
    ext i hi; simp [h]
  simp only [PlanStore.judged, slots]

theorem levelledPlan_same (a : Nat) (s : State) : levelledPlan a a s = s.plan := by
  refine judged_same (fun x => ?_) _
  rw [levelJudged_below (le_refl a)]
  split
  · exact if_neg (by omega)
  · rfl

theorem judgeLevelTriggers_eq (a b : Nat) (s : State) : judgeLevelTriggers a b s =
    if s.plan.slots.any (levelSets a b) then takeAttempt { s with plan := levelledPlan a b s }
    else { s with plan := levelledPlan a b s } := by
  have same : s.plan.slots.map (fun x => { x with request := levelFlag a b x }) =
      s.plan.slots.map (levelJudged a b) := by
    congr 1; funext x; exact levelJudged_eq a b x
  simp only [judgeLevelTriggers, same]
  rfl

/-- The changes of a level handed on: the open interval aside, the slots judged for the whole change, and a take
attempted where a rise sets the flag of an armed slot (R70, R146). -/
theorem levels_handed {a b : Nat} {changes : List (Nat × Nat)} (h : LevelPath a b changes) (s : State) :
    ∃ history, changes.foldl handLevelChange s =
      if s.plan.slots.any (levelSets a b) then takeAttempt { s with history, plan := levelledPlan a b s }
      else { s with history, plan := levelledPlan a b s } := by
  rcases h with ⟨-, rfl⟩ | h
  · exact ⟨s.history.takeLevel b, judgeLevelTriggers_eq a b _⟩
  · simp only [levelSets_none h.le, Bool.false_eq_true, if_false]
    induction changes generalizing a s with
    | nil =>
      obtain rfl : a = b := h
      exact ⟨s.history, by simp [levelledPlan_same]⟩
    | cons c rest ih =>
      obtain ⟨rfl, h1, h⟩ := h
      have step : handLevelChange s (a, a - 1) = { s with
          history := s.history.takeLevel (a - 1), plan := levelledPlan a (a - 1) s } := by
        simp only [handLevelChange, judgeLevelTriggers_eq]
        rw [if_neg]
        · rfl
        · simp [levelSets_none (show a - 1 ≤ a by omega)]
      obtain ⟨history, hh⟩ := ih (handLevelChange s (a, a - 1)) h
      refine ⟨history, ?_⟩
      rw [List.foldl_cons, hh, step]
      simp only [levelledPlan, judged_judged, levelJudged_fall h.le (show a - 1 ≤ a by omega)]

/-! ## An evaluation handed on (R146) -/

theorem formOutputs_driven (s : State) : DrivenStep s (formOutputs s) ∧ Notified [17] s (formOutputs s) := by
  unfold formOutputs
  dsimp only
  generalize hw : { s with warning := { s.warning with
    outputs := s.warning.outputs.map (formOutput s.warning.level s.warning.silence) } } = w
  have lines : w.lines = s.lines := by subst hw; rfl
  have notices : w.notices = s.notices := by subst hw; rfl
  exact ⟨(handDriven_step _ w).congr lines.symm rfl (.refl [17] _),
    (handDriven_notified _ w).congr notices.symm rfl⟩

theorem formOutputs_left (s : State) : RunLeft s (formOutputs s) := by
  have kept := formOutputs_keeps s
  exact ⟨kept .stage (by decide), kept .engine (by decide), kept .results (by decide), (formOutputs_driven s).1.1,
    by rw [show (formOutputs s).rating = s.rating from kept .rating (by decide)]; exact ⟨rfl, rfl⟩,
    [17], by decide, by decide, by decide, (formOutputs_driven s).2⟩

theorem raiseChanges_notified (changes : List (Nat × Nat)) (s : State) :
    Notified [0, 1] s (changes.foldl raiseChange s) ∧
      changes.foldl raiseChange s = { s with notices := (changes.foldl raiseChange s).notices } := by
  induction changes generalizing s with
  | nil => exact ⟨.refl _ s, rfl⟩
  | cons c rest ih =>
    obtain ⟨n, e⟩ := ih (raiseChange s c)
    refine ⟨.trans ?_ n, by rw [List.foldl_cons, e]; rfl⟩
    unfold raiseChange
    split
    · exact (raise_notified .levelRise s).mono (by decide)
    · exact (raise_notified .levelFall s).mono (by decide)

/-- The state in which an evaluation's changes have been raised and its retreat handed on. -/
def retreatHanded (changes : List (Nat × Nat)) (s : State) : State :=
  let now := retreatAfter s.warning s.stage.stilled
  let t := changes.foldl raiseChange s
  handCondition .retreat now { t with warning := { t.warning with retreat := now } }

theorem retreatHanded_eq (changes : List (Nat × Nat)) (s : State) :
    Notified [0, 1, 2] s (retreatHanded changes s) ∧ retreatHanded changes s = { s with
      notices := (retreatHanded changes s).notices
      warning := { s.warning with retreat := retreatAfter s.warning s.stage.stilled } } := by
  obtain ⟨n, e⟩ := raiseChanges_notified changes s
  refine ⟨?_, ?_⟩
  · refine (n.mono (by decide)).trans ?_
    exact ((handCondition_notified .retreat (retreatAfter s.warning s.stage.stilled) _).mono (by decide)).congr
      (s' := changes.foldl raiseChange s) (t' := retreatHanded changes s) rfl rfl
  · unfold retreatHanded
    dsimp only
    rw [e]
    rfl

/-- What the handing on of an evaluation leaves of the plan, the run and the lines, from a level a: a recall, a
take, or the run as it was. -/
def HandedOn (a : Nat) (x p : State) : Prop :=
  let b := x.warning.level
  let u : State := { x with plan := levelledPlan a b x }
  let recalls := x.warning.retreat = false ∧ p.warning.retreat = true ∧ x.engine.state.recallable = true
  let asks := (x.warning.retreat = true ∧ p.warning.retreat = false) ∨ x.plan.slots.any (levelSets a b) = true
  let first := u.plan.order.find? (slotAsks u)
  (recalls ∧ Recalled .retreat x p ∧ p.plan = u.plan ∧ LinesFollow x p) ∨
    (x.engine.state = .idle ∧ TakeReady p ∧ asks ∧ LinesFollow x p ∧ p.engine.state ≠ .idle ∧
      ∃ j, first = some j ∧ TakenSlot j u p) ∨
    (¬ recalls ∧ (x.engine.state ≠ .idle ∨ ¬ TakeReady p ∨ ¬ asks ∨ first = none) ∧ p.engine = x.engine ∧
      p.results = x.results ∧ p.plan = u.plan ∧ Notified [0, 1, 2, 17] x p ∧ DrivenStep x p)

theorem handOn_eq (changes : List (Nat × Nat)) (s : State) :
    let was := s.warning.retreat
    let now := retreatAfter s.warning s.stage.stilled
    let h := retreatHanded changes s
    let t := formOutputs (changes.foldl handLevelChange (if !was && now then retreatRecall h else h))
    handOn changes s = if was && !now then takeAttempt t else t := rfl

theorem handLevels_keeps (changes : List (Nat × Nat)) (s : State) :
    KeepsBut (.history :: runBlocks) s (changes.foldl handLevelChange s) :=
  foldl_keeps _ _ (fun t c => ((withHistory_keeps _ t).mono (by decide)).trans
    ((judgeLevelTriggers_keeps c.1 c.2 _).mono (by decide))) changes s

theorem handOn_warning (changes : List (Nat × Nat)) (s : State) :
    (handOn changes s).warning.retreat = retreatAfter s.warning s.stage.stilled ∧
      (handOn changes s).warning.level = s.warning.level := by
  have taken (c : Prop) [Decidable c] (t : State) : (if c then takeAttempt t else t).warning = t.warning := by
    split
    · exact takeAttempt_keeps t .warning (by decide)
    · rfl
  have recalled (c : Prop) [Decidable c] (t : State) : (if c then retreatRecall t else t).warning = t.warning := by
    split
    · exact retreatRecall_keeps t .warning (by decide)
    · rfl
  have levels (t : State) : (changes.foldl handLevelChange t).warning = t.warning :=
    handLevels_keeps changes t .warning (by decide)
  have retreat := congrArg State.warning (retreatHanded_eq changes s).2
  simp only [handOn_eq, taken, formOutputs_warning, levels, recalled, retreat]
  exact ⟨trivial, trivial⟩

theorem TakeReady.iff {s t : State} (hw : t.warning.retreat = s.warning.retreat) (hs : t.stage = s.stage)
    (hl : LinesFollow s t) : TakeReady t ↔ TakeReady s :=
  ⟨fun h => h.congr hw.symm hs.symm fun _ hi => (hl.functions hi).symm,
    fun h => h.congr hw hs fun _ hi => hl.functions hi⟩

theorem levels_busy {a b : Nat} {changes : List (Nat × Nat)} (h : LevelPath a b changes) {s : State}
    (busy : s.engine.state ≠ .idle) :
    ∃ history, changes.foldl handLevelChange s = { s with history, plan := levelledPlan a b s } := by
  obtain ⟨history, handed⟩ := levels_handed h s
  refine ⟨history, handed.trans ?_⟩
  rw [takeAttempt_busy (s := { s with history := history, plan := levelledPlan a b s }) busy, ite_self]

/-- The lines after a change of the permit, an output forming and what keeps them in between. -/
theorem PermitMoved.then_outputs {l : List Nat} {s t u : State} (h : PermitMoved l s t) (hu : u.lines = t.lines)
    (hn : u.notices = t.notices) : LinesFollow s (formOutputs u) := by
  have moved := h.after (u := u) (.of_eq hn) hu
  exact moved.step.then_driven (formOutputs_driven u).1 (formOutputs_driven u).2

/-- A retreat that comes into force while a run can be recalled (R109). -/
theorem handOn_recalls {changes : List (Nat × Nat)} {x : State} {a : Nat}
    (path : LevelPath a x.warning.level changes) (was : x.warning.retreat = false)
    (now : retreatAfter x.warning x.stage.stilled = true) (recallable : x.engine.state.recallable = true) :
    Recalled .retreat x (handOn changes x) ∧ (handOn changes x).plan = levelledPlan a x.warning.level x ∧
      LinesFollow x (handOn changes x) := by
  obtain ⟨n2, e2⟩ := retreatHanded_eq changes x
  have unfolded := handOn_eq changes x
  generalize retreatHanded changes x = h at n2 e2 unfolded
  have state : h.engine.state.recallable = true := by rw [e2]; exact recallable
  have recalled := recallRun_recalled .retreat h
  have plan : (recallRun .retreat h).plan = x.plan :=
    (recallRun_keeps .retreat h .plan (by decide)).trans (by rw [e2])
  have levelled : levelledPlan a x.warning.level (recallRun .retreat h) = levelledPlan a x.warning.level x := by
    simp only [levelledPlan, plan]
  obtain ⟨history, handed⟩ := levels_busy path (s := recallRun .retreat h) (by rw [recalled.state]; decide)
  simp only [was, now, Bool.not_false, Bool.true_and, if_true, Bool.false_and, Bool.false_eq_true, if_false,
    retreatRecall, state, handed, levelled] at unfolded
  rw [unfolded]
  have moved : PermitMoved (0 :: 1 :: 2 :: passSources) x (recallRun .retreat h) :=
    ((recallRun_moved .retreat h).mono (by decide)).before (n2.mono (by decide)) (by rw [e2])
  have same : RunSame h x := by constructor <;> rw [e2]
  have left := formOutputs_left { recallRun .retreat h with
    history := history, plan := levelledPlan a x.warning.level x }
  exact ⟨same.recalled (recalled.left ((RunLeft.others _ _ _).trans left)), formOutputs_keeps _ .plan (by decide),
    moved.then_outputs rfl rfl⟩

/-- The handing on of an evaluation does what `HandedOn` says (R70, R76, R77, R109, R146, R149). -/
theorem handOn_handed {changes : List (Nat × Nat)} {x : State} {a : Nat}
    (path : LevelPath a x.warning.level changes) : HandedOn a x (handOn changes x) := by
  have retreat := (handOn_warning changes x).1
  have recalled := handOn_recalls path
  obtain ⟨n2, e2⟩ := retreatHanded_eq changes x
  have unfolded := handOn_eq changes x
  generalize handOn changes x = p at retreat recalled unfolded ⊢
  unfold HandedOn
  extract_lets b u recalls asks first
  by_cases hr : recalls
  · obtain ⟨was, now, recallable⟩ := hr
    exact .inl ⟨⟨was, now, recallable⟩, recalled was (retreat ▸ now) recallable⟩
  refine .inr ?_
  have warned : (retreatHanded changes x).warning.retreat = p.warning.retreat := by rw [e2, retreat]
  generalize retreatHanded changes x = h at n2 e2 unfolded warned
  have stays : (if !x.warning.retreat && retreatAfter x.warning x.stage.stilled then retreatRecall h else h) = h := by
    split
    · rename_i hc
      unfold retreatRecall
      rw [if_neg]
      intro hs
      refine hr ⟨by simpa using (Bool.and_eq_true_iff.1 hc).1, retreat.trans (Bool.and_eq_true_iff.1 hc).2, ?_⟩
      rw [e2] at hs; exact hs
    · rfl
  obtain ⟨history, handed⟩ := levels_handed path h
  dsimp only at unfolded
  rw [stays, handed, show h.plan.slots.any (levelSets a x.warning.level) = x.plan.slots.any (levelSets a b) by
    rw [e2]] at unfolded
  generalize hy : ({ h with history := history, plan := levelledPlan a x.warning.level h } : State) = y
    at unfolded
  have ySame : RunSame y u := by subst hy; rw [e2]; exact ⟨rfl, rfl, rfl, rfl, rfl⟩
  have yNoted : Notified [0, 1, 2] x y := n2.congr rfl (by subst hy; rfl)
  have yLines : y.lines = x.lines := by subst hy; rw [e2]
  have yFirst : y.plan.order.find? (slotAsks y) = first := by rw [ySame.asks]
  have out := formOutputs_keeps y
  have outSame : RunSame (formOutputs y) y := ⟨(out .clock (by decide)).symm, (out .stage (by decide)).symm,
    (out .plan (by decide)).symm, (out .engine (by decide)).symm, (out .results (by decide)).symm⟩
  have outFirst : (formOutputs y).plan.order.find? (slotAsks (formOutputs y)) = first := outSame.asks.trans yFirst
  have yEngine : y.engine = x.engine := ySame.engine.symm
  have outEngine : (formOutputs y).engine = x.engine := outSame.engine.symm.trans yEngine
  obtain ⟨driven, n5⟩ := formOutputs_driven y
  have noted : Notified [0, 1, 2, 17] x (formOutputs y) := (yNoted.mono (by decide)).trans (n5.mono (by decide))
  have step : DrivenStep x (formOutputs y) := driven.congr yLines.symm rfl (.refl [] _)
  have outResults : (formOutputs y).results = x.results := outSame.results.symm.trans ySame.results.symm
  have outPlan : (formOutputs y).plan = u.plan := outSame.plan.symm.trans ySame.plan.symm
  clear_value first
  clear hy n2 e2 handed stays recalled
  have formed (t : State) : TakeReady (formOutputs t) ↔ TakeReady t :=
    TakeReady.iff (by rw [formOutputs_warning]) (formOutputs_keeps t .stage (by decide))
      (formOutputs_driven t).1.follows
  have taken {t : State} {j : Nat} (h : TakeReady t) : TakeReady (takeSlot j t) :=
    (TakeReady.iff (by rw [takeSlot_keeps j t .warning (by decide)]) (takeSlot_keeps j t .stage (by decide))
      (takeSlot_moved j t).step.follows).2 h
  by_cases early : x.plan.slots.any (levelSets a b) = true ∧ y.engine.state = .idle ∧ TakeReady y ∧
      ∃ j, y.plan.order.find? (slotAsks y) = some j
  · obtain ⟨sets, idle, ready, j, find⟩ := early
    have take := takeAttempt_taken idle ready find
    have state : (formOutputs (takeSlot j y)).engine.state ≠ .idle := by
      rw [formOutputs_keeps _ .engine (by decide)]; exact takeSlot_busy j y
    simp only [sets, if_true, take, takeAttempt_busy state, ite_self] at unfolded
    have moved : PermitMoved (0 :: 1 :: 2 :: takeSources) x (takeSlot j y) :=
      ((takeSlot_moved j y).mono (by decide)).before (yNoted.mono (by decide)) yLines
    refine .inl ⟨yEngine ▸ idle, ?_, .inr sets, ?_, ?_, j, yFirst.symm.trans find, ?_⟩ <;> rw [unfolded]
    · exact (formed _).2 (taken ready)
    · exact moved.then_outputs rfl rfl
    · exact state
    · exact ySame.takenSlot ((takeSlot_taken j y).left (formOutputs_left _) (formOutputs_keeps _ .plan (by decide)))
  have inner : (if x.plan.slots.any (levelSets a b) = true then takeAttempt y else y) = y := by
    split
    · rename_i sets
      rcases takeAttempt_spec y with ⟨idle, ready, j, find, -⟩ | ⟨-, none⟩
      · exact absurd ⟨sets, idle, ready, j, find⟩ early
      · exact none
    · rfl
  rw [inner] at unfolded
  by_cases leaves : x.warning.retreat = true ∧ retreatAfter x.warning x.stage.stilled = false
  · rw [if_pos (by simp [leaves])] at unfolded
    rcases takeAttempt_spec (formOutputs y) with ⟨idle, ready, j, find, take⟩ | ⟨not, none⟩
    · rw [take] at unfolded
      have moved := takeSlot_moved j (formOutputs y)
      refine .inl ⟨outEngine ▸ idle, ?_, .inl ⟨leaves.1, retreat.trans leaves.2⟩, ?_, ?_, j, outFirst.symm.trans find,
        ?_⟩ <;> rw [unfolded]
      · exact taken ready
      · exact step.then_permit moved.step moved.notified
      · exact takeSlot_busy _ _
      · exact ySame.takenSlot (outSame.takenSlot (takeSlot_taken j _))
    · rw [none] at unfolded
      rw [outEngine, outFirst] at not
      refine .inr ⟨hr, ?_, ?_⟩ <;> rw [unfolded]
      · exact not.imp_right fun h => h.imp_right .inr
      · exact ⟨outEngine, outResults, outPlan, noted, step⟩
  · rw [if_neg (by simpa using leaves)] at unfolded
    refine .inr ⟨hr, ?_, by rw [unfolded]; exact ⟨outEngine, outResults, outPlan, noted, step⟩⟩
    rw [unfolded, formed]
    by_cases sets : x.plan.slots.any (levelSets a b) = true
    · rcases takeAttempt_spec y with ⟨idle, ready, j, find, -⟩ | ⟨not, -⟩
      · exact absurd ⟨sets, idle, ready, j, find⟩ early
      · rw [yEngine, yFirst] at not
        exact not.imp_right fun h => h.imp_right .inr
    · exact .inr (.inr (.inl fun h => h.elim (fun h => leaves ⟨h.1, retreat.symm.trans h.2⟩) sets))

theorem foldl_notified {α : Type} (l : List Nat) (f : State → α → State) (h : ∀ s a, Notified l s (f s a))
    (as : List α) (s : State) : Notified l s (as.foldl f s) := by
  induction as generalizing s with
  | nil => exact .refl l s
  | cons a as ih => exact (h s a).trans (ih _)

/-- The sources that an evaluation and the run after it may change. -/
theorem handOn_notified (changes : List (Nat × Nat)) (x : State) :
    Notified ([0, 1, 2] ++ takeSources) x (handOn changes x) := by
  have taken (t : State) : Notified ([0, 1, 2] ++ takeSources) t (takeAttempt t) :=
    (takeAttempt_moved t).notified.mono (by decide)
  have recalled (t : State) : Notified ([0, 1, 2] ++ takeSources) t (retreatRecall t) :=
    ((recallRun_moved .retreat t).notified.mono (by decide)).ite (.refl _ t)
  have levels (t : State) : Notified ([0, 1, 2] ++ takeSources) t (changes.foldl handLevelChange t) :=
    foldl_notified _ _ (fun t c => by
      refine .trans (t := { t with history := t.history.takeLevel c.2 }) (.of_eq rfl) ?_
      rw [handLevelChange, judgeLevelTriggers_eq]
      split
      · refine .trans ?_ (taken _)
        exact .of_eq rfl
      · exact .of_eq rfl) changes t
  have formed (t : State) : Notified ([0, 1, 2] ++ takeSources) t (formOutputs t) :=
    (formOutputs_driven t).2.mono (by decide)
  have until5 := (((retreatHanded_eq changes x).1.mono (m := [0, 1, 2] ++ takeSources) (by decide)).trans
    ((recalled _).ite (.refl _ _) (c := (!x.warning.retreat && retreatAfter x.warning x.stage.stilled) = true))).trans
    ((levels _).trans (formed _))
  rw [handOn_eq]
  exact until5.trans ((taken _).ite (.refl _ _))

/-! ## The whole of an event -/

theorem levelSets_any (a b : Nat) (slots : Vector Slot 4) : slots.any (levelSets a b) = true ↔
    ∃ k l sense, k < 4 ∧ (at' slots k).armed = true ∧
      (at' slots k).definition.trigger = .warningLevel l sense ∧ a < l ∧ l ≤ b := by
  have sets (x : Slot) : levelSets a b x = true ↔
      ∃ l sense, x.armed = true ∧ x.definition.trigger = .warningLevel l sense ∧ a < l ∧ l ≤ b := by
    unfold levelSets
    cases h : x.definition.trigger <;> simp
  rw [Vector.any_eq_true]
  constructor
  · rintro ⟨k, hk, h⟩
    obtain ⟨l, sense, h⟩ := (sets _).1 h
    exact ⟨k, l, sense, hk, by simpa [at', hk] using h⟩
  · rintro ⟨k, l, sense, hk, h⟩
    exact ⟨k, hk, (sets _).2 ⟨l, sense, by simpa [at', hk] using h⟩⟩

theorem LinesFollow.congr {l : List Nat} {s t s' t' : State} (h : LinesFollow s t) (hs : s'.lines = s.lines)
    (ht : t'.lines = t.lines) (hn : Notified l t t') : LinesFollow s' t' := fun i hi =>
  (LineUntouched.of_eq hs.symm).then_follows ((h i hi).then_untouched (.of_eq ht)
    (hn.pending (by decide) (by decide)))

/-- What is left after an evaluation for an offer or a report: the slots judged, and a take attempted. -/
structure Judged (own : List Nat) (offered : Bool) (cls : Option Nat) (p q : State) : Prop where
  same : RunSame { p with plan := offeredPlan offered cls p.stage.stilled p.plan } q
  lines : q.lines = p.lines
  warning : q.warning = p.warning
  rating : q.rating = p.rating
  notified : Notified own p q

/-- An evaluation has been handed on from x, the level having been a, or none was made: what `runFollows` reads. -/
structure Evaluation (a : Nat) (x p : State) : Prop where
  handed : HandedOn a x p
  level : p.warning.level = x.warning.level
  stage : p.stage = x.stage
  clock : p.clock = x.clock
  notified : Notified ([0, 1, 2] ++ takeSources) x p

theorem handOn_evaluation {changes : List (Nat × Nat)} {x : State} {a : Nat}
    (path : LevelPath a x.warning.level changes) : Evaluation a x (handOn changes x) :=
  ⟨handOn_handed path, (handOn_warning changes x).2, handOn_keeps changes x .stage (by decide),
    handOn_keeps changes x .clock (by decide), handOn_notified changes x⟩

/-- Where no evaluation is made the level stays, and nothing follows. -/
theorem Evaluation.none (x : State) : Evaluation x.warning.level x x := by
  refine ⟨.inr (.inr ⟨?_, ?_, rfl, rfl, (levelledPlan_same _ x).symm, .refl _ x, .of_eq rfl⟩), rfl, rfl, rfl,
    .refl _ x⟩
  · rintro ⟨h, h', -⟩
    rw [h] at h'; cases h'
  · refine .inr (.inr (.inl ?_))
    rintro (⟨h, h'⟩ | h)
    · rw [h] at h'; cases h'
    · rw [levelSets_none (le_refl _)] at h; cases h

/-- An event that is an evaluation, with what an offer or a report adds, does what `RunFollows` says. -/
theorem runFollows {own : List Nat} {offered : Bool} {cls : Option Nat} {s x p q t : State}
    (hown : 10 ∉ own ∧ 11 ∉ own ∧ 14 ∉ own)
    (hx : RunSame { s with stage := x.stage } x) (hl : x.lines = s.lines) (hn : Notified own s x)
    (was : x.warning.retreat = s.warning.retreat) (evaluated : Evaluation s.warning.level x p)
    (hq : Judged own offered cls p q)
    (ht : t = if offered = true ∨ cls.isSome = true then takeAttempt q else q) :
    RunFollows own offered cls s t := by
  obtain ⟨h, level, pStage, pClock, pn⟩ := evaluated
  have qt : (q.engine.state ≠ .idle ∨ ¬ TakeReady q ∨ q.plan.order.find? (slotAsks q) = none → t = q) ∧
      KeepsBut runBlocks q t ∧ PermitMoved takeSources q t := by
    by_cases handed : offered = true ∨ cls.isSome = true
    · rw [ht, if_pos handed]
      exact ⟨takeAttempt_none, takeAttempt_keeps q, takeAttempt_moved q⟩
    · rw [ht, if_neg handed]
      exact ⟨fun _ => rfl, .refl _ q, .refl _ q⟩
  obtain ⟨idle, tk, tm⟩ := qt
  have tWarning : t.warning = p.warning := (tk .warning (by decide)).trans hq.warning
  have tStage : t.stage = x.stage := ((tk .stage (by decide)).trans hq.same.stage).trans pStage
  unfold RunFollows
  extract_lets later u v recalls ready first second handed
  have asks : EvaluationAsks s t ↔ (x.warning.retreat = true ∧ p.warning.retreat = false) ∨
      x.plan.slots.any (levelSets s.warning.level x.warning.level) = true := by
    have hp : x.plan = s.plan := hx.plan
    simp only [EvaluationAsks, LevelReached, levelSets_any, tWarning, level, was, hp]
    rfl
  unfold HandedOn at h
  extract_lets xb ux xRecalls xAsks xFirst at h
  have uSame : RunSame ux u := by
    exact ⟨hx.clock.symm, tStage, by
      simp only [u, ux, xb, levelledPlan, tWarning, level]; rw [show x.plan = s.plan from hx.plan],
      hx.engine.symm, hx.results.symm⟩
  have uPlan : u.plan = ux.plan := uSame.plan
  have uFirst : xFirst = first := uSame.asks
  have xEngine : x.engine = s.engine := hx.engine
  have qPlan : q.plan = later p.plan := by rw [hq.same.plan]; simp only [later, tStage, pStage]
  have qEngine : q.engine = p.engine := hq.same.engine
  have qStage : q.stage = p.stage := hq.same.stage
  have qResults : q.results = p.results := hq.same.results
  have pq : RunLeft p q := ⟨qStage, qEngine, qResults, by rw [hq.lines], by rw [hq.rating]; exact ⟨rfl, rfl⟩, own,
    hown.1, hown.2.1, hown.2.2, hq.notified⟩
  have noted : Notified (own ++ [0, 1, 2] ++ takeSources) s t :=
    ((hn.mono (by simp +contextual)).trans (pn.mono (by simp +contextual))).trans
      ((hq.notified.mono (by simp +contextual)).trans (tm.notified.mono (by simp +contextual)))
  have ready_iff : TakeReady t ↔ TakeReady p := by
    have through : TakeReady t ↔ TakeReady q := TakeReady.iff
      (by rw [tk .warning (by decide)]) (tk .stage (by decide)) tm.step.follows
    exact through.trans ⟨fun h => h.congr (by rw [hq.warning]) qStage.symm fun i _ => by simp [lineAt, hq.lines],
      fun h => h.congr (by rw [hq.warning]) qStage fun i _ => by simp [lineAt, hq.lines]⟩
  have recalls_iff : recalls ↔ x.warning.retreat = false ∧ p.warning.retreat = true ∧
      x.engine.state.recallable = true := by
    simp only [recalls, tWarning, was, xEngine]
  rcases h with ⟨r, recalled, plan, follow⟩ | ⟨st, rd, ask, follow, busy, j, find, take⟩ |
      ⟨nr, not, engine, results, plan, n, step⟩
  · have tq : t = q := idle (.inl (by rw [qEngine, recalled.state]; decide))
    have notIdle : ¬ s.engine.state = .idle := fun h => by
      have := r.2.2; rw [xEngine, h] at this; exact absurd this (by decide)
    subst tq
    refine ⟨follow.congr hl.symm hq.lines hq.notified, noted.kept, fun _ => ⟨?_, ?_⟩, fun h => absurd h.1 notIdle,
      fun h => absurd h.1 notIdle, fun h => absurd (recalls_iff.2 r) h⟩
    · exact hx.symm.recalled (recalled.left pq)
    · rw [qPlan, plan, ← uPlan]
  · have tq : t = q := idle (.inl (by rw [qEngine]; exact busy))
    have idle' : s.engine.state = .idle := xEngine ▸ st
    have isReady : ready := ⟨idle', ready_iff.2 rd⟩
    have isFirst : first = some j := uFirst.symm.trans find
    have asked : EvaluationAsks s t := asks.2 ask
    have notRecalls : ¬ recalls := fun h => by
      have := h.2.2; rw [idle'] at this; exact absurd this (by decide)
    have unasked : ¬ (¬ EvaluationAsks s t ∨ first = none) := fun h =>
      h.elim (fun h => h asked) fun h => by rw [isFirst] at h; cases h
    refine ⟨tq ▸ follow.congr hl.symm hq.lines hq.notified, noted.kept, fun h => absurd h notRecalls, ?_,
      fun _ h => absurd h unasked, fun _ h => h.elim (fun h => absurd isReady h) fun h => absurd h.1 unasked⟩
    intro _ _ j' hj
    obtain rfl : j = j' := Option.some.inj (isFirst.symm.trans hj)
    rw [tq]
    exact ⟨p.plan, uSame.takenSlot (take.judgedLater pq), qPlan⟩
  · have qv : RunSame q v := by
      refine ⟨?_, tStage.trans (pStage.symm.trans qStage.symm), ?_, ?_, ?_⟩
      · exact hx.clock.symm.trans (hq.same.clock.trans pClock).symm
      · rw [qPlan, plan, ← uPlan]
      · rw [qEngine, engine]; exact xEngine.symm
      · rw [qResults, results]; exact hx.results.symm
    have vFirst : q.plan.order.find? (slotAsks q) = second := qv.asks
    have notFirst : ready → EvaluationAsks s t → first = none := fun hr ha => by
      rcases not with h | h | h | h
      · exact absurd (xEngine ▸ hr.1) h
      · exact absurd (ready_iff.1 hr.2) h
      · exact absurd (asks.1 ha) h
      · exact uFirst.symm.trans h
    have third (hr : ready) (ha : EvaluationAsks s t) (j : Nat) (hj : first = some j) : False := by
      rw [notFirst hr ha] at hj; cases hj
    have fromS : DrivenStep s q := step.congr hl.symm hq.lines hq.notified
    have kept : NoticesKeptBut (own ++ [0, 1, 2, 17]) s q :=
      (((hn.mono (by simp +contextual)).trans (n.mono (by simp +contextual))).trans
        (hq.notified.mono (by simp +contextual))).kept
    by_cases takes : (q.engine.state = .idle ∧ TakeReady q ∧ ∃ j, q.plan.order.find? (slotAsks q) = some j) ∧ handed
    · obtain ⟨⟨qi, qr, j, qf⟩, isHanded⟩ := takes
      have taken : t = takeSlot j q := by rw [ht, if_pos isHanded]; exact takeAttempt_taken qi qr qf
      have isReady : ready := by
        rw [qEngine, engine, xEngine] at qi
        refine ⟨qi, ready_iff.2 (qr.congr (by rw [hq.warning]) qStage.symm fun i _ => by simp [lineAt, hq.lines])⟩
      refine ⟨fromS.then_permit tm.step tm.notified, noted.kept, fun h => absurd (recalls_iff.1 h) nr,
        fun hr ha j' hj => (third hr ha j' hj).elim, fun _ _ _ j' hj => ?_, fun _ h => ?_⟩
      · obtain rfl : j = j' := Option.some.inj (qf.symm.trans (vFirst.trans hj))
        rw [taken]
        exact qv.takenSlot (takeSlot_taken j q)
      · rcases h with h | ⟨-, h | h⟩
        · exact absurd isReady h
        · exact absurd isHanded h
        · rw [← vFirst, qf] at h; cases h
    · have tq : t = q := by
        by_cases isHanded : handed
        · refine idle ?_
          by_contra hc
          simp only [not_or, not_not] at hc
          exact takes ⟨⟨hc.1, hc.2.1, Option.ne_none_iff_exists'.1 hc.2.2⟩, isHanded⟩
        · rw [ht, if_neg isHanded]
      refine ⟨tq ▸ fromS.follows, noted.kept, fun h => absurd (recalls_iff.1 h) nr,
        fun hr ha j' hj => (third hr ha j' hj).elim, fun hr _ hh j' hj => ?_, fun _ _ => ?_⟩
      · refine absurd ⟨⟨by rw [qEngine, engine, xEngine]; exact hr.1, ?_, j', vFirst.trans hj⟩, hh⟩ takes
        rw [← tq]; exact hr.2
      · rw [tq]
        exact ⟨qEngine.trans (engine.trans xEngine), qResults.trans (results.trans hx.results),
          by rw [hq.lines, step.1, hl], by rw [qPlan, plan, ← uPlan], kept⟩

/-! ## The operations that evaluate, offer or hand on a report -/

/-- What comes before an evaluation in a command: nothing of the run, the lines and the level has changed. -/
structure Prepared (own : List Nat) (s x : State) : Prop where
  same : RunSame { s with stage := x.stage } x
  lines : x.lines = s.lines
  notified : Notified own s x
  retreat : x.warning.retreat = s.warning.retreat
  level : x.warning.level = s.warning.level

theorem evaluate_evaluation (x : State) :
    ∃ y, evaluate x = handOn (settleLevel 4 (evalInputs x) x.warning).2 y ∧
      y = { x with warning := (settleLevel 4 (evalInputs x) x.warning).1 } ∧
      Evaluation x.warning.level y (evaluate x) :=
  ⟨_, rfl, rfl, handOn_evaluation (settleLevel_path 4 (evalInputs x) x.warning).1⟩

/-- An evaluation, made by a command that has prepared it, and what an offer or a report adds. -/
theorem evaluate_judged {own : List Nat} {offered : Bool} {cls : Option Nat} {s x q t : State}
    (hown : 10 ∉ own ∧ 11 ∉ own ∧ 14 ∉ own) (hp : Prepared own s x)
    (hq : Judged own offered cls (evaluate x) q)
    (ht : t = if offered = true ∨ cls.isSome = true then takeAttempt q else q) :
    RunFollows own offered cls s t := by
  obtain ⟨y, -, hy, evaluation⟩ := evaluate_evaluation x
  obtain ⟨-, retreat, -⟩ := settleLevel_path 4 (evalInputs x) x.warning
  rw [hp.level] at evaluation
  subst hy
  exact runFollows (s := s) (x := { x with warning := (settleLevel 4 (evalInputs x) x.warning).1 }) hown
    ⟨hp.same.clock, rfl, hp.same.plan, hp.same.engine, hp.same.results⟩ hp.lines
    (hp.notified.congr rfl rfl) (retreat.trans hp.retreat) evaluation hq ht

theorem Judged.refl (own : List Nat) (p : State) : Judged own false none p p :=
  ⟨⟨rfl, rfl, rfl, rfl, rfl⟩, rfl, rfl, rfl, .refl _ p⟩

/-- An evaluation alone (R142 to R149). -/
theorem evaluate_follows {own : List Nat} {s x : State} (hown : 10 ∉ own ∧ 11 ∉ own ∧ 14 ∉ own)
    (hp : Prepared own s x) : RunFollows own false none s (evaluate x) :=
  evaluate_judged hown hp (.refl own _) rfl

/-- The fall at an expiry of the dwell timer, where the level does not rise again at once (R145). -/
theorem dwellExpiry_follows {s : State} (h1 : 1 ≤ s.warning.level)
    (h : (settleLevel 4 (evalInputs s) (fallLevel s.warning)).1.level < s.warning.level) :
    RunFollows [] false none s (dwellExpiry s) := by
  obtain ⟨path, retreat, -⟩ := settleLevel_path 4 (evalInputs s) (fallLevel s.warning)
  have level : (fallLevel s.warning).level = s.warning.level - 1 := rfl
  have falls : LevelPath s.warning.level (settleLevel 4 (evalInputs s) (fallLevel s.warning)).1.level
      ((s.warning.level, s.warning.level - 1) :: (settleLevel 4 (evalInputs s) (fallLevel s.warning)).2) := by
    rcases path with ⟨rise, -⟩ | path
    · omega
    · exact .inr ⟨rfl, h1, path⟩
  simp only [dwellExpiry, show s.warning.level ≠ 0 by omega, if_false]
  exact runFollows (x := { s with warning := (settleLevel 4 (evalInputs s) (fallLevel s.warning)).1 }) (by simp)
    ⟨rfl, rfl, rfl, rfl, rfl⟩ rfl (.of_eq rfl) retreat (handOn_evaluation falls) (.refl [] _) rfl

theorem recomputeDischarge_prepared {own : List Nat} {s x : State} (stage : Option Int) (h7 : 7 ∈ own)
    (hp : Prepared own s x) : Prepared own s (recomputeDischarge stage x) :=
  ⟨⟨hp.same.clock, rfl, hp.same.plan, hp.same.engine, hp.same.results⟩, hp.lines,
    hp.notified.trans (((handCondition_notified .beyondRating (x.rating.dischargeFor stage).mark.beyond _).mono
      (fun k hk => by rw [List.mem_singleton.1 hk]; exact h7)).congr rfl rfl), hp.retreat, hp.level⟩

/-- The current discharge recomputed, and an evaluation (R43 to R45, R49, R142). -/
theorem rateAgain_follows {own : List Nat} {s x : State} (hown : 10 ∉ own ∧ 11 ∉ own ∧ 14 ∉ own) (h7 : 7 ∈ own)
    (hp : Prepared own s x) : RunFollows own false none s (rateAgain x) :=
  evaluate_follows hown (recomputeDischarge_prepared _ h7 hp)

theorem offeredPlan_offer (stage : Option Int) (plan : PlanStore) : offeredPlan true none stage plan =
    { plan with
      slots := plan.slots.map fun x => { x with request := riseFlag plan.previousStage stage x }
      previousStage := stage } := by
  simp only [offerJudged_eq]; rfl

/-- An offer of the Stage Unit (R20, R69, R76). -/
theorem offer_follows {own : List Nat} {s x : State} (hown : 10 ∉ own ∧ 11 ∉ own ∧ 14 ∉ own) (h7 : 7 ∈ own)
    (hp : Prepared own s x) : RunFollows own true none s (offer x) := by
  refine evaluate_judged hown (recomputeDischarge_prepared x.stage.stilled h7 hp) (q :=
    let p := evaluate (recomputeDischarge x.stage.stilled x)
    { p with
      history := p.history.takeOffer p.stage.stilled p.stage.status
      plan := offeredPlan true none p.stage.stilled p.plan })
    ⟨⟨rfl, rfl, rfl, rfl, rfl⟩, rfl, rfl, rfl, .of_eq rfl⟩ ?_
  simp only [offeredPlan_offer]
  rfl

theorem setStatus_prepared {own : List Nat} {s x : State} (status : StageStatus) (h3 : 3 ∈ own)
    (hp : Prepared own s x) : Prepared own s (setStatus status x) := by
  have n : Notified own x (setStatus status x) :=
    ((raiseIf_notified (x.stage.status != status) .stageStatus { x with stage := { x.stage with status } }).mono
      (fun k hk => by rw [List.mem_singleton.1 hk]; exact h3)).congr rfl rfl
  have keep := setStatus_keeps status x
  exact ⟨⟨(keep .clock (by decide)).trans hp.same.clock, rfl, (keep .plan (by decide)).trans hp.same.plan,
    (keep .engine (by decide)).trans hp.same.engine, (keep .results (by decide)).trans hp.same.results⟩,
    (keep .lines (by decide)).trans hp.lines, hp.notified.trans n,
    (congrArg WarningUnit.retreat (keep .warning (by decide))).trans hp.retreat,
    (congrArg WarningUnit.level (keep .warning (by decide))).trans hp.level⟩

/-- STARTING set between samples and offered (R16, R20). -/
theorem startOver_follows {own : List Nat} {s x : State} (hown : 10 ∉ own ∧ 11 ∉ own ∧ 14 ∉ own) (h3 : 3 ∈ own)
    (h7 : 7 ∈ own) (hp : Prepared own s x) : RunFollows own true none s (startOver x) :=
  offer_follows hown h7 (setStatus_prepared .starting h3 hp)

/-- A stage sample (R5, R20). -/
theorem takeSample_follows (s : State) : RunFollows [3, 4, 5, 6, 7] true none s (takeSample s) := by
  refine offer_follows (by decide) (by decide) (setStatus_prepared _ (by decide) ?_)
  have r (v : Bool) (e : Source) (x : State) (he : sourceNumber e ∈ [3, 4, 5, 6, 7])
      (hp : Prepared [3, 4, 5, 6, 7] s x) : Prepared [3, 4, 5, 6, 7] s (raiseIf v e x) := by
    have keep := raiseIf_keeps v e x
    have n := (raiseIf_notified v e x).mono (fun k hk => by rw [List.mem_singleton.1 hk]; exact he)
    exact ⟨⟨(keep .clock (by decide)).trans hp.same.clock, rfl, (keep .plan (by decide)).trans hp.same.plan,
      (keep .engine (by decide)).trans hp.same.engine, (keep .results (by decide)).trans hp.same.results⟩,
      (keep .lines (by decide)).trans hp.lines, hp.notified.trans n,
      (congrArg WarningUnit.retreat (keep .warning (by decide))).trans hp.retreat,
      (congrArg WarningUnit.level (keep .warning (by decide))).trans hp.level⟩
  exact r _ _ _ (by decide) (r _ _ _ (by decide) (r _ _ _ (by decide)
    ⟨⟨rfl, rfl, rfl, rfl, rfl⟩, rfl, .of_eq rfl, rfl, rfl⟩))

/-- What forms the floor again, or leaves it, with what an accepted report adds (R140, R167). -/
theorem formFloor_judged {own : List Nat} {cls : Option Nat} {s x q t : State}
    (hown : 10 ∉ own ∧ 11 ∉ own ∧ 14 ∉ own) (hp : Prepared own s x)
    (hq : Judged own false cls (formFloor x) q) (ht : t = if cls.isSome = true then takeAttempt q else q) :
    RunFollows own false cls s t := by
  have ht' : t = if false = true ∨ cls.isSome = true then takeAttempt q else q := by simpa using ht
  by_cases same : x.upstream.greatest = x.upstream.floor
  · rw [formFloor_same same] at hq
    exact runFollows hown hp.same hp.lines hp.notified hp.retreat (hp.level ▸ Evaluation.none x) hq ht'
  · refine evaluate_judged hown (x := { x with
      upstream := { x.upstream with floor := x.upstream.greatest }
      warning := { x.warning with floor := x.upstream.greatest } })
      ⟨⟨hp.same.clock, rfl, hp.same.plan, hp.same.engine, hp.same.results⟩, hp.lines, hp.notified.congr rfl rfl,
        hp.retreat, hp.level⟩ ?_ ht'
    simpa only [formFloor, same, if_false, handFloor] using hq

/-- The floor formed again (R140, R142, R167). -/
theorem formFloor_follows {own : List Nat} {s x : State} (hown : 10 ∉ own ∧ 11 ∉ own ∧ 14 ∉ own)
    (hp : Prepared own s x) : RunFollows own false none s (formFloor x) :=
  formFloor_judged hown hp (.refl own _) rfl

theorem offeredPlan_report (stage : Option Int) (cls : Nat) (plan : PlanStore) :
    offeredPlan false (some cls) stage plan = { plan with
      slots := plan.slots.map fun x => { x with request := x.request || upstreamSets cls x } } := by
  simp only [reportJudged_eq]; rfl

/-- An accepted report's UPSTREAM_ACCEPTED raised and its UPSTREAM slots judged. -/
theorem handAccepted_judged {own : List Nat} (cls : Nat) (p : State) (h15 : 15 ∈ own) :
    Judged own false (some cls) p { raise .upstreamAccepted p with
      plan := offeredPlan false (some cls) p.stage.stilled p.plan } :=
  ⟨⟨rfl, rfl, rfl, rfl, rfl⟩, rfl, rfl, rfl, ((raise_notified .upstreamAccepted p).mono
    (fun k hk => by rw [List.mem_singleton.1 hk]; exact h15)).congr rfl rfl⟩

theorem handAccepted_eq (cls : Nat) (p : State) : handAccepted cls p = takeAttempt { raise .upstreamAccepted p with
    plan := offeredPlan false (some cls) p.stage.stilled p.plan } := by
  rw [offeredPlan_report]; rfl

/-- An accepted report after the floor is formed, or without (R72, R169). -/
theorem handAccepted_follows {s x : State} (cls : Nat) (hp : Prepared [15] s x) :
    RunFollows [15] false (some cls) s (handAccepted cls (formFloor x)) ∧
      RunFollows [15] false (some cls) s (handAccepted cls x) := by
  constructor
  · exact formFloor_judged (by decide) hp (handAccepted_judged cls _ (by decide)) (handAccepted_eq cls _)
  · exact runFollows (by decide) hp.same hp.lines hp.notified hp.retreat (hp.level ▸ Evaluation.none x)
      (handAccepted_judged cls x (by decide)) (handAccepted_eq cls x)

end Sys2Proof.Machine
end

