-- ==== Sys2Proof/Laws/Passages.lean ====
section
/-! SUPPORT. What a pin change, and a configuration that makes one, may change of the notices, the permit and the
driven values (R177, R179, R184, R190): by the function of the line where the passage is handed on, and LINE_CHANGE
of the line alone where it is not. -/

namespace Sys2Proof.Machine

/-! ## One line's judgement -/

theorem put_at {n : Nat} {α : Type} [Inhabited α] (v : Vector α n) {i : Nat} (hi : i < n) (x : α) :
    at' (put v i x) i = x := by
  simp [at', put, hi]

theorem pinSources_line (l : FieldLine) : ∀ k, k ∈ pinSources l → k ∈ [17] := by
  unfold pinSources; split <;> simp

/-- R184's judgement of one line raises LINE_CHANGE, of an armed line, and nothing else. -/
theorem judgeLine_notified (i : Nat) (moved : Bool) (s : State) :
    Notified (pinSources (lineAt s i)) s (judgeLine i moved s) := by
  unfold judgeLine
  split
  · rename_i h
    have arm : (lineAt s i).arm = true := by simp_all
    rw [show pinSources (lineAt s i) = [17] by simp [pinSources, arm]]
    exact (raise_notified .lineChange _).congr rfl rfl
  · exact .refl _ s

theorem judgeLine_line (i : Nat) (moved : Bool) (s : State) :
    (judgeLine i moved s).lines.permit = s.lines.permit ∧ (judgeLine i moved s).lines.warnKept = s.lines.warnKept ∧
      (i < 16 → (lineAt (judgeLine i moved s) i).arm = (lineAt s i).arm) := by
  unfold judgeLine
  split
  · refine ⟨rfl, rfl, fun hi => ?_⟩
    show (at' (put s.lines.line i { lineAt s i with changed := true }) i).arm = (lineAt s i).arm
    rw [put_at _ hi]
  · exact ⟨rfl, rfl, fun _ => rfl⟩

/-! ## What a passage hands on -/

/-- A hand-on that leaves the notices and the lines alone. -/
def Quiet (s t : State) : Prop := t.notices = s.notices ∧ t.lines = s.lines

theorem meterPulse_quiet (s : State) : Quiet s (meterPulse s) := by
  unfold meterPulse; split <;> exact ⟨rfl, rfl⟩

theorem pausePoint_quiet (s : State) : Quiet s (pausePoint s) := by
  unfold pausePoint; extract_lets timer t; split <;> exact ⟨rfl, rfl⟩

/-- A passage of the SETTLED_IN line times the point and leaves the rest alone, or resumes a point whose count has
no time left, which ends it (R101 to R103). -/
theorem settledPassage_cases (active : Bool) (s : State) : Quiet s (settledPassage active s) ∨
    ∃ e, s.engine.state = .counting ∧ s.engine.point.paused = true ∧ s.engine.point.restartWait = false ∧
      active = true ∧ settledPassage active s = endPoint (withEngine e s) := by
  by_cases h : s.engine.state = .counting ∧ (activeDefinition s).settledSense = .level
  · simp only [settledPassage, h, and_self, if_true]
    cases active
    · left
      simp only [settledDeactivation, Bool.false_eq_true, if_false]
      split
      · exact ⟨rfl, rfl⟩
      · exact pausePoint_quiet s
    · simp only [settledActivation, if_true]
      cases hw : s.engine.point.restartWait
      · cases hp : s.engine.point.paused
        · exact .inl ⟨rfl, rfl⟩
        · simp only [Bool.false_eq_true, if_true, if_false]
          split
          · exact .inr ⟨_, trivial, trivial, trivial, trivial, rfl⟩
          · exact .inl ⟨rfl, rfl⟩
      · exact .inl ⟨rfl, rfl⟩
  · exact .inl (by simp only [settledPassage, h, if_false]; exact ⟨rfl, rfl⟩)

theorem settledPassage_moved (active : Bool) (s : State) : PermitMoved passSources s (settledPassage active s) := by
  rcases settledPassage_cases active s with quiet | ⟨e, -, -, -, -, h⟩
  · exact (PermitMoved.refl _ s).after (.of_eq quiet.1) quiet.2
  · rw [h]; exact (endPoint_ends _).2.before (.of_eq rfl) rfl

/-- A trip, whatever the engine's records, may change only the sources of a pass and of a run's end. -/
theorem tripEngine_moved (record : TripRecord) (s : State) :
    PermitMoved (13 :: passSources) s (tripEngine record s) := by
  by_cases h : s.engine.state = .tripped
  · simp only [tripEngine, h, if_true]; exact .refl _ s
  · have moved := (haltedIn_moved .tripped record .trip s).mono (m := 13 :: passSources) (by decide)
    rw [tripEngine_eq h]
    split
    · obtain ⟨-, -, lines, -, -, n⟩ := endRun_ended (cause := .trip) (by decide) (haltedIn .tripped record .trip s)
      exact moved.after (n.mono (by decide)) lines
    · exact moved

theorem takeSilence_notified (s : State) :
    Notified [17, 19] s (takeSilence s) ∧ (takeSilence s).lines.permit = s.lines.permit := by
  unfold takeSilence
  split
  · exact ⟨.refl _ s, rfl⟩
  · obtain ⟨step, n⟩ := formOutputs_driven
      (raise .silenced { s with warning := { s.warning with silence := true } })
    have raised := (raise_notified .silenced { s with warning := { s.warning with silence := true } }).mono
      (m := [17, 19]) (by decide)
    exact ⟨(raised.congr (s' := s) rfl rfl).trans (n.mono (by decide)), step.1⟩

/-- The sources that a passage handed on to the owner of a function may change. -/
def handedSources : LineFunction → List Nat
  | .settledIn => passSources
  | .limitIn => 13 :: passSources
  | .ackIn => [17, 19]
  | _ => []

/-- What is handed on changes at most the sources of its function, the permit for a SETTLED_IN or a LIMIT_IN line
only, and the driven values for an ACK_IN line only (R177). -/
theorem handPassage_frame (i : Nat) (f : LineFunction) (before after : Bool) (s : State) :
    let t := handPassage i f before after s
    Notified (handedSources f) s t ∧ (f ≠ .ackIn → t.lines.warnKept = s.lines.warnKept) ∧
      (f ≠ .settledIn → f ≠ .limitIn → t.lines.permit = s.lines.permit) := by
  intro t
  have quiet (u : State) (h : Quiet s u) : Notified (handedSources f) s u ∧
      (f ≠ .ackIn → u.lines.warnKept = s.lines.warnKept) ∧
      (f ≠ .settledIn → f ≠ .limitIn → u.lines.permit = s.lines.permit) :=
    ⟨.of_eq h.1, fun _ => by rw [h.2], fun _ _ => by rw [h.2]⟩
  by_cases h : before = after
  · exact quiet t (by simp only [t, handPassage, h, if_true]; exact ⟨rfl, rfl⟩)
  · simp only [t, handPassage]
    rw [if_neg h]
    clear h t
    split
    · exact quiet _ (meterPulse_quiet s)
    · exact ⟨(settledPassage_moved _ s).notified, fun _ => (settledPassage_moved _ s).step.1,
        fun hn => absurd rfl hn⟩
    · exact ⟨(tripEngine_moved _ s).notified, fun _ => (tripEngine_moved _ s).step.1, fun _ hn => absurd rfl hn⟩
    · exact ⟨(takeSilence_notified s).1, fun hn => absurd rfl hn, fun _ _ => (takeSilence_notified s).2⟩
    · exact quiet _ ⟨rfl, rfl⟩

/-! ## A pin change -/

theorem lineAt_setPin {i : Nat} (hi : i < 16) (level : Level) (s : State) :
    lineAt (setPin i level s) i = { lineAt s i with pin := level } := put_at _ hi _

/-- A pin change whose passage is handed on to nobody, or to a hand-on that leaves lines and notices alone, changes
of the Notice Unit and of the lines' inputs nothing but LINE_CHANGE of the line, where it is armed (R177, R184). -/
theorem pinChange_judged {i : Nat} (hi : i < 16) (level : Level) (s : State)
    (quiet : Quiet (setPin i level s) (handPassage i (lineAt s i).function (s.lines.value (lineAt s i))
      ((setPin i level s).lines.value (lineAt (setPin i level s) i)) (setPin i level s))) :
    PinJudged i s (pinChange i level s) := by
  unfold pinChange
  extract_lets u
  generalize handPassage i (lineAt s i).function (s.lines.value (lineAt s i)) (u.lines.value (lineAt u i)) u = h at *
  generalize (s.lines.watched (lineAt s i) != u.lines.watched (lineAt u i)) = moved
  obtain ⟨notices, lines⟩ := quiet
  obtain ⟨permit, kept, arm⟩ := judgeLine_line i moved h
  have n : Notified (pinSources (lineAt h i)) s (judgeLine i moved h) :=
    (Notified.of_eq (s := s) (t := h) notices).trans (judgeLine_notified i moved h)
  have same : pinSources (lineAt (judgeLine i moved h) i) = pinSources (lineAt h i) := by
    simp only [pinSources, arm hi]
  exact ⟨same ▸ n.kept, permit.trans (by rw [lines]; rfl), kept.trans (by rw [lines]; rfl)⟩

/-- What a pin change may change of the notices, the permit and the driven values, by the function of the line
(R177, R184). -/
theorem pinChange_frame (i : Nat) (level : Level) (s : State) :
    let t := pinChange i level s
    let f := (lineAt s i).function
    Notified (17 :: handedSources f) s t ∧ (f ≠ .ackIn → t.lines.warnKept = s.lines.warnKept) ∧
      (f ≠ .settledIn → f ≠ .limitIn → t.lines.permit = s.lines.permit) := by
  intro t f
  obtain ⟨n, kept, permit⟩ := handPassage_frame i f (s.lines.value (lineAt s i))
    ((setPin i level s).lines.value (lineAt (setPin i level s) i)) (setPin i level s)
  obtain ⟨permit', kept', -⟩ := judgeLine_line i
    (s.lines.watched (lineAt s i) != (setPin i level s).lines.watched (lineAt (setPin i level s) i))
    (handPassage i f (s.lines.value (lineAt s i))
      ((setPin i level s).lines.value (lineAt (setPin i level s) i)) (setPin i level s))
  refine ⟨?_, fun h => kept'.trans (kept h), fun h h' => permit'.trans (permit h h')⟩
  refine ((n.mono fun _ h => List.mem_cons_of_mem 17 h).congr (s' := s) rfl rfl).trans
    ((judgeLine_notified i _ _).mono fun k h => ?_)
  rw [List.mem_singleton.1 (pinSources_line _ k h)]
  exact List.mem_cons_self

/-! ## A configuration put in force (R179) -/

/-- A new configuration with the pin change that it makes, judged under it (R176, R179). -/
theorem presentLine_frame {line : Nat} (hl : line < 16) (new : FieldLine) (s : State) :
    let t := presentLine line new s
    Notified (17 :: handedSources new.function) s t ∧
      (new.function ≠ .ackIn → t.lines.warnKept = s.lines.warnKept) ∧
      (new.function ≠ .settledIn → new.function ≠ .limitIn → t.lines.permit = s.lines.permit) := by
  intro t'
  let f : FieldLines := { s.lines with line := put s.lines.line line new }
  let t : State := { s with lines := f }
  have unfolded : t' = if (at' (f.settlePins s.lines).line line).pin = new.pin then t
      else pinChange line (at' (f.settlePins s.lines).line line).pin t := rfl
  rw [unfolded]
  split
  · exact ⟨.of_eq rfl, fun _ => rfl, fun _ _ => rfl⟩
  · have put : lineAt t line = new := put_at _ hl _
    obtain ⟨n, kept, permit⟩ := pinChange_frame line (at' (f.settlePins s.lines).line line).pin t
    rw [put] at n kept permit
    exact ⟨n.congr rfl rfl, kept, permit⟩

/-- A configuration put in force is presented, trips where it makes an active LIMIT_IN line, and attempts a take
(R179). -/
theorem configureLine_cases (line : Nat) (new : FieldLine) (s : State) :
    let t := presentLine line new s
    let u := if limitActive t.lines (lineAt t line) && !limitActive s.lines (lineAt s line) then
        tripEngine (.limit line) t
      else t
    (eligibleSlot u = none ∧ configureLine line new s = u) ∨
      ∃ k, eligibleSlot u = some k ∧ configureLine line new s = takeSlot k u := by
  intro t u
  have unfolded : configureLine line new s = takeAttempt u := rfl
  rw [unfolded]
  unfold takeAttempt
  cases h : eligibleSlot u with
  | none => exact .inl ⟨rfl, rfl⟩
  | some k => exact .inr ⟨k, rfl, rfl⟩

end Sys2Proof.Machine
end

