-- ==== Sys2Proof/Laws/PerInstr.lean ====
section
/-! SUPPORT. For every command: a request's code is in the catalogue with the length that its argument
bytes have, and no more than the 60 that a frame check lets pass (R202, R204). -/

namespace Sys2Proof.Laws.Frame

/-- The encoder gives a command no frame, or a code of the catalogue with as many argument bytes as the
catalogue names. -/
def Statement (i : Instr) : Prop :=
  ∀ e, encodeRequest i = some e → (catalogue e.1).map Prod.snd = some e.2.length ∧ e.2.length ≤ 60

@[simp] theorem length_u8 (n : Nat) : (u8 n).length = 1 := rfl
@[simp] theorem length_u16 (n : Nat) : (u16 n).length = 2 := rfl
@[simp] theorem length_u32 (n : Nat) : (u32 n).length = 4 := rfl
@[simp] theorem length_i16 (z : Int) : (i16 z).length = 2 := rfl

@[simp] theorem length_setBytes (k n : Nat) : (setBytes k n).length = k := by
  induction k generalizing n with
  | zero => rfl
  | succ k ih => simp [setBytes, ih, Nat.add_comm]

@[simp] theorem length_seekTarget (t : SeekTarget) : (encSeekTarget t).length = 5 := by cases t <;> rfl
@[simp] theorem length_plan (t : PlanArg) : (encPlanArg t).length = 3 := by cases t <;> rfl
@[simp] theorem length_passes (t : PassesArg) : (encPassesArg t).length = 2 := by cases t <;> rfl
@[simp] theorem length_trigger (t : TriggerArg) : (encTriggerArg t).length = 4 := by cases t <;> rfl
@[simp] theorem length_selector (t : ResultSelector) : (encSelector t).length = 5 := by cases t <;> rfl
@[simp] theorem length_retreatLevel (t : RetreatLevelArg) : (encRetreatLevel t).length = 2 := by
  cases t <;> rfl
@[simp] theorem length_cap (t : CapArg) : (encCap t).length = 2 := by cases t <;> rfl

/-- Pieces of one length, joined. -/
theorem length_flatten_map {α : Type} (f : α → List Byte) (k : Nat) (h : ∀ x, (f x).length = k)
    (l : List α) : (l.map f).flatten.length = l.length * k := by
  induction l with
  | nil => simp
  | cons x l ih => simp [h, ih, Nat.succ_mul, Nat.add_comm]

@[simp] theorem length_caps (v : Vector CapArg 8) : (v.toList.map encCap).flatten.length = 16 := by
  simp [length_flatten_map encCap 2 length_cap, -List.length_flatten]

@[simp] theorem length_values (v : Vector Nat 16) : (v.toList.map u8).flatten.length = 16 := by
  simp [length_flatten_map u8 1 length_u8, -List.length_flatten]

/-- A request whose code has the argument length of its bytes. -/
theorem of_request {i : Instr} {code : Nat} {a : List Byte} (h : encodeRequest i = some (code, a))
    (n : Nat) (hn : a.length = n) (hc : (catalogue code).map Prod.snd = some n) (hm : n ≤ 60) :
    Statement i := by
  intro e he
  rw [h] at he
  cases he
  exact ⟨by rw [hc, hn], hn ▸ hm⟩

/-- A command without a frame. -/
theorem of_none {i : Instr} (h : encodeRequest i = none) : Statement i := by
  intro e he; rw [h] at he; cases he

theorem readReply (p : Port) : Statement (.readReply p) :=
  of_request rfl 0 rfl rfl (by decide)
theorem readClock (p : Port) : Statement (.readClock p) :=
  of_request rfl 0 rfl rfl (by decide)
theorem setClock (p : Port) (value : Nat) : Statement (.setClock p value) :=
  of_request rfl 4 rfl rfl (by decide)
theorem readStage (p : Port) : Statement (.readStage p) :=
  of_request rfl 0 rfl rfl (by decide)
theorem readStageConfig (p : Port) : Statement (.readStageConfig p) :=
  of_request rfl 0 rfl rfl (by decide)
theorem configureStage (p : Port) (a : StageArgs) : Statement (.configureStage p a) :=
  of_request rfl 25 (by simp [encStageArgs]) rfl (by decide)
theorem checkGauge (p : Port) (channel : Nat) (reading : Int) : Statement (.checkGauge p channel reading) :=
  of_request rfl 3 rfl rfl (by decide)
theorem readHistory (p : Port) (maximum advance : Nat) : Statement (.readHistory p maximum advance) :=
  of_request rfl 2 rfl rfl (by decide)
theorem seekHistory (p : Port) (target : SeekTarget) : Statement (.seekHistory p target) :=
  of_request rfl 5 (by simp) rfl (by decide)
theorem readHistoryState (p : Port) : Statement (.readHistoryState p) :=
  of_request rfl 0 rfl rfl (by decide)
theorem setHistoryThreshold (p : Port) (threshold : Nat) : Statement (.setHistoryThreshold p threshold) :=
  of_request rfl 1 rfl rfl (by decide)
theorem setHistoryInterval (p : Port) (minutes : Nat) : Statement (.setHistoryInterval p minutes) :=
  of_request rfl 1 rfl rfl (by decide)
theorem readRating (p : Port) : Statement (.readRating p) :=
  of_request rfl 0 rfl rfl (by decide)
theorem rateStage (p : Port) (stage : Int) : Statement (.rateStage p stage) :=
  of_request rfl 2 rfl rfl (by decide)
theorem rateDischarge (p : Port) (discharge : Nat) : Statement (.rateDischarge p discharge) :=
  of_request rfl 4 rfl rfl (by decide)
theorem readStaged (p : Port) : Statement (.readStaged p) :=
  of_request rfl 0 rfl rfl (by decide)
theorem writeStagedPoint (p : Port) (index : Nat) (h : Int) (q : Nat) : Statement (.writeStagedPoint p index h q) :=
  of_request rfl 7 rfl rfl (by decide)
theorem clearStaged (p : Port) : Statement (.clearStaged p) :=
  of_request rfl 0 rfl rfl (by decide)
theorem installRating (p : Port) : Statement (.installRating p) :=
  of_request rfl 0 rfl rfl (by decide)
theorem setShift (p : Port) (shift : Int) : Statement (.setShift p shift) :=
  of_request rfl 2 rfl rfl (by decide)
theorem setExtrapolationLimit (p : Port) (limit : Nat) : Statement (.setExtrapolationLimit p limit) :=
  of_request rfl 2 rfl rfl (by decide)
theorem readVertical (p : Port) (index : Nat) : Statement (.readVertical p index) :=
  of_request rfl 1 rfl rfl (by decide)
theorem writeVertical (p : Port) (index : Nat) (a : VerticalArgs) : Statement (.writeVertical p index a) :=
  of_request rfl 12 (by simp [encVerticalArgs]) rfl (by decide)
theorem clearVertical (p : Port) (index : Nat) : Statement (.clearVertical p index) :=
  of_request rfl 1 rfl rfl (by decide)
theorem readMeter (p : Port) (meter : Nat) : Statement (.readMeter p meter) :=
  of_request rfl 1 rfl rfl (by decide)
theorem writeMeter (p : Port) (meter : Nat) (a : MeterArgs) : Statement (.writeMeter p meter a) :=
  of_request rfl 10 rfl rfl (by decide)
theorem readSlot (p : Port) (slot : Nat) : Statement (.readSlot p slot) :=
  of_request rfl 1 rfl rfl (by decide)
theorem defineSlot (p : Port) (slot : Nat) (a : SlotArgs) : Statement (.defineSlot p slot a) :=
  of_request rfl 24 (by simp [encSlotArgs]) rfl (by decide)
theorem armSlot (p : Port) (slot : Nat) : Statement (.armSlot p slot) :=
  of_request rfl 1 rfl rfl (by decide)
theorem disarmSlot (p : Port) (slot : Nat) : Statement (.disarmSlot p slot) :=
  of_request rfl 1 rfl rfl (by decide)
theorem startRun (p : Port) (slot : Nat) : Statement (.startRun p slot) :=
  of_request rfl 1 rfl rfl (by decide)
theorem clearRequest (p : Port) (slot : Nat) : Statement (.clearRequest p slot) :=
  of_request rfl 1 rfl rfl (by decide)
theorem setSlotPriority (p : Port) (priority : Nat) : Statement (.setSlotPriority p priority) :=
  of_request rfl 1 rfl rfl (by decide)
theorem readSlotState (p : Port) : Statement (.readSlotState p) :=
  of_request rfl 0 rfl rfl (by decide)
theorem getTarget (p : Port) : Statement (.getTarget p) :=
  of_request rfl 0 rfl rfl (by decide)
theorem readRunState (p : Port) : Statement (.readRunState p) :=
  of_request rfl 0 rfl rfl (by decide)
theorem positionReached (p : Port) (distance : Nat) (sounded : Option Nat) : Statement (.positionReached p distance sounded) :=
  of_request rfl 7 (by simp) rfl (by decide)
theorem depthReached (p : Port) : Statement (.depthReached p) :=
  of_request rfl 0 rfl rfl (by decide)
theorem homeReached (p : Port) : Statement (.homeReached p) :=
  of_request rfl 0 rfl rfl (by decide)
theorem proceed (p : Port) : Statement (.proceed p) :=
  of_request rfl 0 rfl rfl (by decide)
theorem cancelRun (p : Port) : Statement (.cancelRun p) :=
  of_request rfl 0 rfl rfl (by decide)
theorem carriageFault (p : Port) (code : Nat) : Statement (.carriageFault p code) :=
  of_request rfl 1 rfl rfl (by decide)
theorem clearTrip (p : Port) : Statement (.clearTrip p) :=
  of_request rfl 0 rfl rfl (by decide)
theorem resetEngine (p : Port) : Statement (.resetEngine p) :=
  of_request rfl 0 rfl rfl (by decide)
theorem readResult (p : Port) (selector : ResultSelector) : Statement (.readResult p selector) :=
  of_request rfl 5 (by simp) rfl (by decide)
theorem readPass (p : Port) : Statement (.readPass p) :=
  of_request rfl 0 rfl rfl (by decide)
theorem readPassVertical (p : Port) (ordinal : Nat) : Statement (.readPassVertical p ordinal) :=
  of_request rfl 1 rfl rfl (by decide)
theorem readWarning (p : Port) : Statement (.readWarning p) :=
  of_request rfl 0 rfl rfl (by decide)
theorem setLevelCriteria (p : Port) (a : CriteriaArgs) : Statement (.setLevelCriteria p a) :=
  of_request rfl 31 (by simp [encCriteriaArgs]) rfl (by decide)
theorem setRetreat (p : Port) (stage : Option Int) (level : RetreatLevelArg) : Statement (.setRetreat p stage level) :=
  of_request rfl 5 (by simp) rfl (by decide)
theorem setWarningOutput (p : Port) (output showLevel kind : Nat) : Statement (.setWarningOutput p output showLevel kind) :=
  of_request rfl 3 rfl rfl (by decide)
theorem overrideOn (p : Port) (mask : BitVec 8) : Statement (.overrideOn p mask) :=
  of_request rfl 1 (by simp) rfl (by decide)
theorem overrideOff (p : Port) (mask : BitVec 8) : Statement (.overrideOff p mask) :=
  of_request rfl 1 (by simp) rfl (by decide)
theorem overrideAuto (p : Port) (mask : BitVec 8) : Statement (.overrideAuto p mask) :=
  of_request rfl 1 (by simp) rfl (by decide)
theorem silence (p : Port) : Statement (.silence p) :=
  of_request rfl 0 rfl rfl (by decide)
theorem upstreamReport (p : Port) (a : ReportArgs) : Statement (.upstreamReport p a) :=
  of_request rfl 10 rfl rfl (by decide)
theorem readUpstreamEntry (p : Port) (index : Nat) : Statement (.readUpstreamEntry p index) :=
  of_request rfl 1 rfl rfl (by decide)
theorem readUpstreamState (p : Port) : Statement (.readUpstreamState p) :=
  of_request rfl 0 rfl rfl (by decide)
theorem setUpstreamEntry (p : Port) (index address stepDown travel : Nat) : Statement (.setUpstreamEntry p index address stepDown travel) :=
  of_request rfl 6 rfl rfl (by decide)
theorem setHash (p : Port) (marks : BitVec 64) : Statement (.setHash p marks) :=
  of_request rfl 8 (by simp) rfl (by decide)
theorem setUpstreamFilter (p : Port) (a : FilterArgs) : Statement (.setUpstreamFilter p a) :=
  of_request rfl 20 (by simp [-List.length_flatten]) rfl (by decide)
theorem clearUpstreamCounters (p : Port) : Statement (.clearUpstreamCounters p) :=
  of_request rfl 0 rfl rfl (by decide)
theorem readLines (p : Port) (clear : Nat) : Statement (.readLines p clear) :=
  of_request rfl 1 rfl rfl (by decide)
theorem readLineConfig (p : Port) : Statement (.readLineConfig p) :=
  of_request rfl 0 rfl rfl (by decide)
theorem configureLine (p : Port) (a : LineArgs) : Statement (.configureLine p a) :=
  of_request rfl 7 rfl rfl (by decide)
theorem writeLines (p : Port) (mask : BitVec 16) (values : Vector Nat 16) : Statement (.writeLines p mask values) :=
  of_request rfl 18 (by simp [-List.length_flatten]) rfl (by decide)
theorem fetchNotices (p : Port) : Statement (.fetchNotices p) :=
  of_request rfl 0 rfl rfl (by decide)
theorem peekNotices (p : Port) : Statement (.peekNotices p) :=
  of_request rfl 0 rfl rfl (by decide)
theorem readNoticeRoutes (p : Port) : Statement (.readNoticeRoutes p) :=
  of_request rfl 0 rfl rfl (by decide)
theorem setNoticeEnable (p : Port) (marks : BitVec 24) : Statement (.setNoticeEnable p marks) :=
  of_request rfl 3 (by simp) rfl (by decide)
theorem setAttention (p : Port) (master oneShot : Nat) : Statement (.setAttention p master oneShot) :=
  of_request rfl 2 rfl rfl (by decide)
theorem setRoute (p : Port) (source : Nat) (route : BitVec 8) : Statement (.setRoute p source route) :=
  of_request rfl 2 (by simp) rfl (by decide)
theorem stationReset (p : Port) : Statement (.stationReset p) :=
  of_request rfl 0 rfl rfl (by decide)
theorem badFrame (p : Port) (f : FrameFault) : Statement (.badFrame p f) := of_none rfl
theorem resetNActivation : Statement .resetNActivation := of_none rfl
theorem resetNRelease : Statement .resetNRelease := of_none rfl
theorem porAssert : Statement .porAssert := of_none rfl
theorem porRelease : Statement .porRelease := of_none rfl
theorem encoderPhaseChange (a b : Level) : Statement (.encoderPhaseChange a b) := of_none rfl
theorem pPulse (edge : Bool) : Statement (.pPulse edge) := of_none rfl
theorem stationClockAdvance : Statement .stationClockAdvance := of_none rfl
theorem stageSample : Statement .stageSample := of_none rfl
theorem moveTimerExpiry : Statement .moveTimerExpiry := of_none rfl
theorem settleTimerExpiry : Statement .settleTimerExpiry := of_none rfl
theorem countTimerExpiry : Statement .countTimerExpiry := of_none rfl
theorem pauseTimerExpiry : Statement .pauseTimerExpiry := of_none rfl
theorem homeTimerExpiry : Statement .homeTimerExpiry := of_none rfl
theorem dwellTimerExpiry : Statement .dwellTimerExpiry := of_none rfl
theorem intervalTimerExpiry (slot : Nat) : Statement (.intervalTimerExpiry slot) := of_none rfl
theorem delayTimerExpiry (entry : Nat) : Statement (.delayTimerExpiry entry) := of_none rfl
theorem staleTimerExpiry (entry : Nat) : Statement (.staleTimerExpiry entry) := of_none rfl
theorem linePinChange (line : Nat) (outside : Option Level) :
    Statement (.linePinChange line outside) := of_none rfl
theorem uptimeAdvance : Statement .uptimeAdvance := of_none rfl
theorem windowOpen (p : Port) : Statement (.windowOpen p) := of_none rfl
theorem discardedWindow (p : Port) : Statement (.discardedWindow p) := of_none rfl

end Sys2Proof.Laws.Frame
end

