-- ==== Sys2Proof/Tests/Slice0.lean ====
section
/-! SUPPORT. Tests of single commands against the manual's worked examples, the smoke test of WellFormed,
and for every statement with hypotheses a concrete state and operands that meet them, clause by clause. -/

namespace Sys2Proof.Tests

open Sys2Proof.Machine

-- One test after another: each kernel evaluation would otherwise hold a thread of its own.
set_option Elab.async false

/-! ## Small states -/

/-- The state a command answers. -/
def answer (i : Instr) (s : State) : State :=
  match exec i s with
  | .next t => t
  | .fault _ => s
  | .refused _ => s

def data (p : Port) (s : State) : List Byte := ((bufferOf p s).map Reply.data).getD []

def code (p : Port) (s : State) : Option ReplyCode := (bufferOf p s).map Reply.status

/-- POR is active. -/
def held : State := { State.reset with ports := { State.reset.ports with por := true } }

/-- A window open on port L, to be discarded or not. -/
def opened (discard : Bool) (s : State) : State := setPort .L { window := some ⟨[], discard⟩ } s

def withStage (u : StageUnit) : State := { State.reset with stage := u }

def withWarning (w : WarningUnit) : State := { State.reset with warning := w }

/-- The clock at an uptime in ms. -/
def atMs (ms : Nat) (s : State) : State :=
  { s with clock := { s.clock with uptime := ms / 1000, phase := ms % 1000 } }

/-- The rating of section 3.11. -/
def table : List Breakpoint := [⟨300, 0⟩, ⟨800, 2500⟩, ⟨1500, 11000⟩, ⟨2500, 38000⟩, ⟨4000, 120000⟩]

def stagedTable : Vector (Option Breakpoint) 24 := Vector.ofFn fun i => table[i.val]?

/-- Idle, with a current stage, a meter, the two lines of a run and slot 0 armed over three records. -/
def ready : State :=
  { State.reset with
    stage := { State.reset.stage with stilled := some 1000, status := .good }
    lines := { State.reset.lines with
      line := (State.reset.lines.line.set 0 { function := .meterIn }).set 1
        { function := .permitOut, direction := .output } }
    plan := { State.reset.plan with
      pool := Vector.ofFn fun i =>
        if i.val < 4 then { used := true, x := 1000 * (i.val + 1), depth := some 800 } else {}
      meters := State.reset.plan.meters.set 0 ⟨0, 250000, 1, 7⟩
      slots := State.reset.plan.slots.set 0 { definition := { plan := .listed 1 3 }, armed := true } } }

/-- The second vertical of a run, at the first of its two points. -/
def vertical : WorkingVertical :=
  { index := 2, ordinal := 2, x := 2000, fetchedDepth := some 1000, methodFetched := .p28, countTime := 40,
    depth := some 1000, methodUsed := some .p28, pointDepths := [200, 800], pointOrdinal := 1 }

def entry (k : Nat) : TableEntry :=
  { ordinal := k, index := k, x := 1000 * k, depthMode := .fixed, methodFetched := .p28, countTime := 40 }

/-- Slot 0's run in a state, with the timers and records of that state. -/
def busy (st : RunState) : State :=
  let timer (b : Bool) : Timer := if b then .running 5000 else .stopped
  { ready with
    plan := { ready.plan with activeSlot := some 0, fetched := [1, 2] }
    lines := { ready.lines with permit := .active }
    results := { ready.results with
      table := [entry 1, entry 2]
      pass := { ready.results.pass with state := if st = .homing then .closed else .opened } }
    notices := { ready.notices with
      carriageWanted := st.carriageWanted, proceedWanted := st == .holding }
    engine := { ready.engine with
      state := st, slot := some 0, runNumber := 1, passNumber := 1, fetchCount := 2
      direction := some .increasing, passOpen := st != .homing
      homingCause := if st = .homing then some .complete else none
      holdKind := if st = .holding then some .nextVertical else none
      vertical := vertical
      moveTimer := timer (st == .moving || st == .lowering)
      settleTimer := timer (st == .settling)
      countTimer := timer (st == .counting)
      homeTimer := timer (st == .homing) } }

/-- The engine tripped by line 2. -/
def trippedState : State :=
  { ready with
    lines := { ready.lines with permit := .withdrawn }
    notices := { ready.notices with trip := true }
    engine := { ready.engine with state := .tripped, trip := .limit 2 } }

def staged (v : Vector (Option Breakpoint) 24) : State :=
  { State.reset with rating := { State.reset.rating with staged := v } }

def slot (t : Trigger) (armed : Bool) : Slot :=
  { definition := { plan := .listed 1 3, trigger := t }, armed := armed }

/-- A state with other slots. -/
def withSlot (k : Nat) (x : Slot) (s : State) : State := { s with plan := s.plan.withSlot k x }

def withLine (i : Nat) (l : FieldLine) (s : State) : State :=
  { s with lines := { s.lines with line := s.lines.line.setIfInBounds i l } }

def withEntry (e : StationEntry) : State :=
  { State.reset with upstream := { State.reset.upstream with entries := State.reset.upstream.entries.set 0 e } }

/-- Requests are taken where no window is open and no reset input is active. -/
theorem takes {p : Port} {k : Nat} {s : State} (h : s.ports = State.reset.ports) (hr : p ∈ rolesOf k) :
    Takes p k s := ⟨by simp only [windowDead, h]; cases p <;> rfl, hr⟩

/-! ## WellFormed refuses an ill-formed term of each check -/

def stageArgs : StageArgs := ⟨0, 0, 0, 0, 1000, 150, 0, 65536, 0, 1000, 50, 6, 6, 10, 4⟩

def slotArgs : SlotArgs :=
  ⟨.listed 1 3, 0, .number 1, 0, 880, 20, 0, 0, 500, 300, 600, .port⟩

def criteria : CriteriaArgs :=
  ⟨⟨some 1800, some 2400, some 3000⟩, ⟨none, none, none⟩, ⟨some 150, some 300, none⟩, 100, 50, 30⟩

def filterArgs : FilterArgs := ⟨1, 1, 120, Vector.replicate 8 (.cap 3)⟩

def lineArgs : LineArgs := ⟨0, 1, 0, 0, 1, 0, 1⟩

theorem test_wf_accepts : [Instr.setClock .L 4294967295, .configureStage .L stageArgs,
    .defineSlot .L 3 slotArgs, .setLevelCriteria .L criteria, .setUpstreamFilter .L filterArgs,
    .configureLine .L lineArgs, .setShift .L (-32768), .linePinChange 15 (some .high),
    .badFrame .C (.role 0x27), .stageSample].all Instr.wf = true := by decide +kernel

theorem test_wf_refuses_role : [Instr.setShift .C 5, .positionReached .L 0 none, .stationReset .T,
    .configureStage .C stageArgs].all (fun i => !i.wf) = true := by decide +kernel

theorem test_wf_refuses_width : [Instr.setClock .L 4294967296, .checkGauge .L 256 0,
    .checkGauge .L 0 32768, .checkGauge .L 0 (-32769), .readHistory .L 256 0, .seekHistory .L (.sequence 4294967296),
    .seekHistory .L (.unknown 2), .setHistoryThreshold .L 256, .setHistoryInterval .L 256, .rateStage .L 32768,
    .rateDischarge .L 4294967296, .writeStagedPoint .L 256 0 0, .setShift .L 40000,
    .setExtrapolationLimit .L 65536, .readVertical .L 256, .clearVertical .L 256, .readMeter .L 256,
    .readSlot .L 256, .armSlot .L 256, .disarmSlot .L 256, .startRun .L 256, .clearRequest .L 256,
    .setSlotPriority .L 256, .positionReached .C 4294967296 none, .positionReached .C 0 (some 65536),
    .carriageFault .C 256, .readResult .L (.unknown 1), .readResult .L (.ident 4294967296),
    .readPassVertical .L 256, .setRetreat .L (some 32768) .none, .setRetreat .L none (.unknown 1),
    .setWarningOutput .L 256 1 0, .readUpstreamEntry .L 256, .setUpstreamEntry .L 0 65536 0 0,
    .readLines .L 256, .setAttention .L 256 0, .setRoute .L 256 0].all (fun i => !i.wf) = true := by
  decide +kernel

theorem test_wf_refuses_arguments : [Instr.configureStage .L { stageArgs with fStep := 65536 },
    .configureStage .L { stageArgs with fOffset := -40000 },
    .configureStage .L { stageArgs with pGain := 4294967296 },
    .configureStage .L { stageArgs with period := 256 },
    .writeVertical .L 1 ⟨0, 0, some 65536, 0, 40, 0⟩, .writeVertical .L 1 ⟨4294967296, 0, none, 0, 40, 0⟩,
    .writeMeter .L 0 ⟨65536, 0, 1, 0⟩, .defineSlot .L 0 { slotArgs with plan := .unknown 2 },
    .defineSlot .L 0 { slotArgs with passes := .unknown 1 },
    .defineSlot .L 0 { slotArgs with trigger := .stageRise 40000 0 },
    .defineSlot .L 0 { slotArgs with trigger := .unknown 4 },
    .defineSlot .L 0 { slotArgs with homeTimeout := 65536 },
    .setLevelCriteria .L { criteria with stage := ⟨some 40000, none, none⟩ },
    .setLevelCriteria .L { criteria with dwell := 256 }, .upstreamReport .T ⟨65536, 0, 0, 0, 0⟩,
    .setUpstreamFilter .L { filterArgs with classMap := Vector.replicate 8 (.unknown 1) },
    .configureLine .L { lineArgs with line := 256 },
    .writeLines .L 0 (Vector.replicate 16 256)].all (fun i => !i.wf) = true := by decide +kernel

theorem test_wf_refuses_events : [Instr.linePinChange 16 (some .low), .intervalTimerExpiry 4, .delayTimerExpiry 16,
    .staleTimerExpiry 16, .badFrame .L (.unknown 0x27), .badFrame .L (.role 0x27), .badFrame .L (.role 0x07),
    .badFrame .L (.frame 256 0 0)].all (fun i => !i.wf) = true := by decide +kernel

/-! ## Frames written out from the catalogue and R204 -/

/-- A frame of each of several chapters. -/
theorem test_frames :
    commandOfWindow .L ⟨[0x26, 0], false⟩ = .installRating .L ∧
    commandOfWindow .T ⟨[0x11, 5, 2, 0, 0, 0, 90], false⟩ = .seekHistory .T (.sequence 90) ∧
    commandOfWindow .L ⟨[0x31, 12, 32, 0, 0, 0x27, 0x10, 1, 0, 0, 0, 1, 40, 33], false⟩ =
      .writeVertical .L 32 ⟨10000, 1, none, 1, 40, 33⟩ ∧
    commandOfWindow .L ⟨[0x62, 5, 1, 0x0A, 0xF0, 0, 3], false⟩ = .setRetreat .L (some 2800) (.number 3) ∧
    commandOfWindow .L ⟨[0x82, 7, 0, 1, 0, 0, 1, 0, 1], false⟩ = .configureLine .L lineArgs ∧
    commandOfWindow .L ⟨[0x95, 2, 18, 3], false⟩ = .setRoute .L 18 3 ∧
    commandOfWindow .L ⟨[0xF0, 0], false⟩ = .stationReset .L := by decide +kernel

theorem test_no_table_words : decodeTableWord 8 0x26 = none := rfl

/-! ## The manual's worked examples, one command each -/

/-- Section 3.11: the first install names index 4, which is empty. -/
theorem test_install_gap :
    (fun s => (code .L s, data .L s)) (answer (.installRating .L) { State.reset with rating :=
      { State.reset.rating with staged := (stagedTable.set 4 none).set 5 (some ⟨4000, 120000⟩) } }) =
      (some .range, [1, 4]) := by decide +kernel

def rated (z : Int) (limit : Nat) : State :=
  { State.reset with
    stage := { State.reset.stage with stilled := some z }
    rating := { State.reset.rating with active := table, version := 1, shift := -49, limit := limit } }

/-- Section 3.12: SET_SHIFT -49 at 1,626 mm. -/
theorem test_shift : (answer (.setShift .L (-49)) (rated 1626 500)).rating.current =
    ⟨some 13079, .none, 1, some 1577⟩ := by decide +kernel

/-- Section 3.12: the extrapolation and its cap. -/
theorem test_extrapolation :
    ((rated 4300 500).rating.dischargeFor (some 4300)).discharge = some 133721 ∧
    ((rated 4800 500).rating.dischargeFor (some 4800)).mark = .aboveLimit ∧
    ((rated 4800 500).rating.dischargeFor (some 4800)).discharge = some 147333 ∧
    ((rated 4800 1000).rating.dischargeFor (some 4800)).discharge = some 161055 ∧
    ((rated 320 1000).rating.dischargeFor (some 320)).mark = .below := by decide +kernel

/-- Section 6.9: the inverse rating of the gauging. -/
theorem test_inverse : inverseRating table 13084 = some 1577 := by decide +kernel

def twoChannels : StageUnit :=
  { State.reset.stage with
    cfg := { State.reset.stage.cfg with fEnable := true, pEnable := true, windowLength := 4, pMin := 1 }
    count := 1640, gateCount := 1215, anchor := some 1200, window := [1200, 1200, 1200, 1200]
    stilled := some 1200, status := .good, signal := .present }

/-- Section 1.13, sample a: the struck float is rejected and the window takes channel P. -/
theorem test_strike :
    (fun u => (u.fJudgement, u.status, u.window, u.stilled))
      (answer .stageSample (withStage twoChannels)).stage =
      (.rejected, .single, [1200, 1200, 1200, 1215], some 1204) := by decide +kernel

/-- Section 1.13: the gauge check sets the offset to -398. -/
theorem test_gauge_check : data .L (answer (.checkGauge .L 0 1230)
    (withStage { twoChannels with fLast := some ⟨1628, 1628, false⟩ })) = [0xFE, 0x72] := by decide +kernel

/-- Section 2.12: no record at a value that is not greater than the mark. -/
theorem test_boundary :
    (answer .stationClockAdvance { State.reset with
      clock := { State.reset.clock with clock := 1000799 }
      history := { State.reset.history with mark := 1000800, nextSeq := 41 } }).history.ring = [] ∧
    ((answer .stationClockAdvance { State.reset with
      clock := { State.reset.clock with clock := 1001699 }
      history := { State.reset.history with mark := 1000800, nextSeq := 41 } }).history.ring.map
        fun r => (r.seq, r.stamp)) = [(41, 1001700)] := by decide +kernel

/-- Section 6.11: point and vertical values at the limits. -/
theorem test_points :
    pointVelocity ⟨15, 686200, 1, 4402⟩ 0 40000 = 0 ∧ pointVelocity ⟨15, 686200, 1, 4402⟩ 1 40000 = 32 ∧
    pointVelocity ⟨15, 686200, 1, 4402⟩ 65535 40000 = 10000 ∧
    pointVelocity ⟨0, 250000, 2, 0⟩ 4000 20000 = 10000 ∧
    meanVelocity (some .p268) [1102, 1300, 900] 880 = 1151 ∧
    meanVelocity (some .surf) [2415] 880 = 2125 := by decide +kernel

/-- Section 5.13, rows 4 and 5: a report 700 mm off is refused; at depth 800 the point lies at 480. -/
theorem test_arrival :
    let s := { busy .moving with engine := { (busy .moving).engine with
      vertical := { vertical with x := 6000, fetchedDepth := some 800, methodFetched := .p6 } } }
    code .C (answer (.positionReached .C 6700 none) s) = some .range ∧
    (answer (.positionReached .C 6040 none) s).engine.vertical.pointDepths = [480] ∧
    (answer (.positionReached .C 6040 none) s).engine.state = .lowering := by decide +kernel

/-- Section 5.14: the home timer trips the engine, and CLEAR_TRIP brings it to IDLE. -/
theorem test_home_timeout :
    (answer .homeTimerExpiry (busy .homing)).engine.trip = .homeTimeout ∧
    (answer (.clearTrip .C) trippedState).engine.state = .idle ∧
    data .C (answer (.clearTrip .C) trippedState) = [1, 2] := by decide +kernel

/-- Section 7.10, rows 8 and 11: a demand below DANGER starts 30 minutes, and their end makes a fall. -/
theorem test_dwell :
    let w := { State.reset.warning with
      level := 3, floor := 2, criteria := ⟨criteria.stage, criteria.discharge, criteria.rise, 100, 50, 30⟩ }
    (settleLevel 4 ⟨some 2890, .good, some (-110), none, 60000⟩ w).1.dwell = .running 1860000 ∧
    (answer .dwellTimerExpiry { withWarning { w with dwell := .running 0 } with
      stage := { State.reset.stage with stilled := some 2780, status := .good } }).warning.level = 2 := by
  decide +kernel

/-- Section 7.11: OVERRIDE_OFF of output 3 at DANGER. -/
theorem test_override :
    ((answer (.overrideOff .T 8) (withWarning { State.reset.warning with level := 3 })).warning.outputs.map
      WarningOutput.driven).toList = [true, true, true, false] := by decide +kernel

def tributary (queue : List QueueItem) : State :=
  let s := withEntry { address := 40000, stepDown := 1, travel := 25, queue := queue }
  atMs 1200000 { s with upstream := { s.upstream with
    hashEnable := true, hash := 128, classMap := Vector.replicate 8 (some 3) } }

/-- Section 8.12: a full queue's newest item takes the new value; bins 7 and 44. -/
theorem test_queue :
    let s := tributary [⟨0, 1500000⟩, ⟨1, 1800000⟩, ⟨1, 2100000⟩, ⟨2, 2400000⟩]
    (entryAt (answer (.upstreamReport .T ⟨40000, 9, 4, 0, 2⟩) s) 0).queue =
      [⟨0, 1500000⟩, ⟨1, 1800000⟩, ⟨1, 2100000⟩, ⟨1, 2400000⟩] ∧
    (data .T (answer (.upstreamReport .T ⟨5000, 9, 4, 0, 3⟩) s)).head? = some 1 ∧
    (data .T (answer (.upstreamReport .T ⟨6000, 9, 4, 0, 3⟩) s)).head? = some 4 := by decide +kernel

/-- Section 9.11, row 5: an open limit circuit trips the engine when its line is configured. -/
theorem test_limit_line :
    (answer (.configureLine .L ⟨3, 3, 0, 0, 0, 0, 1⟩)
      (withLine 3 { pin := .high } State.reset)).engine.trip = .limit 3 := by decide +kernel

/-- Section 10.7, rows 2 and 3: CARRIAGE_WANTED at port C, fetched under one-shot. -/
theorem test_one_shot :
    let n := (((State.reset.notices.hand .carriageWanted true).fetch .C).port.get .C)
    let m := { State.reset.notices with
      port := ⟨{}, {}, { enables := 1024, master := true, oneShot := true }⟩ }.hand .carriageWanted true
    n.pendingSet = 1024 ∧ (m.port.get .C).attention = true ∧ ((m.fetch .C).port.get .C).attention = false ∧
      ((m.fetch .C).port.get .C).pendingSet = 1024 := by decide +kernel

/-- Section 11.7: a DEPTH_REACHED with an argument byte leaves the engine LOWERING. -/
theorem test_bad_frame :
    commandOfWindow .C ⟨[0x43, 1, 0], false⟩ = .badFrame .C (.frame 0x43 1 1) ∧
    code .C (answer (.badFrame .C (.frame 0x43 1 1)) (busy .lowering)) = some .badFrame ∧
    (answer (.badFrame .C (.frame 0x43 1 1)) (busy .lowering)).engine.state = .lowering := by
  decide +kernel

/-! ## Witnesses: concrete states and operands that meet the hypotheses of each statement

One theorem for each statement that has hypotheses, named after it; its parts are the clauses, at the ends
of their ranges. -/

/-! ### Queue, ports and frames -/

theorem witness_StepRunsCommand :
    { State.reset with pending := [.stageSample, .silence .L] }.pending = [.stageSample, .silence .L] := rfl

/-- The station clock and the stage sample are due together. -/
def dueTwice : State :=
  { State.reset with
    clock := { State.reset.clock with clockPhase := 1000 }, stage := { State.reset.stage with sampleDue := 0 } }

theorem reset_none_due (c : Instr) : ¬ DueNow c State.reset := by
  have slots : ∀ k, k < 4 → (slotAt State.reset k).armed = false := by decide
  have entries : ∀ i, i < 16 → (entryAt State.reset i).queue = [] ∧ (entryAt State.reset i).last = none := by
    decide
  cases c with
  | intervalTimerExpiry k => exact fun h => absurd h.2.1 (by simp [slots k h.1])
  | delayTimerExpiry i => rintro ⟨hi, x, r, hq, -⟩; simp [entries i hi] at hq
  | staleTimerExpiry i => rintro ⟨hi, -, r, hl, -⟩; simp [entries i hi] at hl
  | _ => simp [DueNow, TimeCome, State.reset, nowMs]

theorem witness_StepWhileIdle :
    State.reset.pending = [] ∧ State.reset.ports.por = false ∧ (∀ c, ¬ DueNow c State.reset) ∧
    held.pending = [] ∧ held.ports.por = true ∧ dueTwice.pending = [] ∧ dueTwice.ports.por = false ∧
    (DueNow .stationClockAdvance dueTwice ∧ DueNow .stageSample dueTwice ∧
      ∀ d, DueNow d dueTwice → dueRank .stationClockAdvance ≤ dueRank d) :=
  ⟨rfl, rfl, reset_none_due, rfl, rfl, rfl, rfl, Nat.le_refl 1000, Nat.zero_le _, fun _ _ => Nat.zero_le _⟩

theorem witness_WindowCommands :
    (State.reset.ports.port.get .L).window = none ∧ State.reset.ports.por = false ∧
    ((opened false State.reset).ports.port.get .L).window ≠ none ∧ Port.T ≠ .L ∧
    (held.ports.port.get .L).window = none ∧ held.ports.por = true := by decide +kernel

theorem witness_FramesNotTaken :
    windowDead .L State.reset = false ∧ encodeRequest (.setShift .C 5) = some (0x27, i16 5) ∧
    (Instr.setShift .C 5).port? = some .C ∧ windowDead .C State.reset = false ∧ .C ∉ rolesOf 0x27 ∧
    (Instr.setShift .L 5).port? = some .L ∧ Instr.setShift .L 5 ≠ .windowOpen .L ∧
    windowDead .L (opened true State.reset) = true := by decide +kernel

theorem witness_RefusalsChangeNothing :
    exec (.setShift .L 501) ready = .next (answer (.setShift .L 501) ready) ∧
    (Instr.setShift .L 501).port? = some .L ∧ Instr.setShift .L 501 ≠ .windowOpen .L ∧
    bufferOf .L (answer (.setShift .L 501) ready) = some ⟨.range, []⟩ ∧
    ReplyCode.range.isRefusal = true := ⟨rfl, by decide +kernel⟩

theorem witness_ReadsChangeNothing :
    encodeRequest (.readSlot .T 4) = some (0x35, u8 4) ∧ (Instr.readSlot .T 4).port? = some .T ∧
    0x35 ∈ readCodes ∧ Takes .T 0x35 State.reset :=
  ⟨rfl, rfl, by decide, takes rfl (by decide)⟩

/-- A log of two results, and a table of two entries. -/
def measured : State :=
  let r (n : Nat) : PassResult :=
    ⟨n, 1, n, 0, 0, 7, .complete, .complete, 0, 0, 3, 2000, none, none, none, 0, 0, 0, false, 0, none, .none,
      none, none, false, false, false, false, false⟩
  { ready with results := { ready.results with log := [r 3, r 4], table := [entry 1, entry 2] } }

theorem witness_ReadsChangeNothing_operands :
    (Takes .C 0x01 ready ∧ Takes .T 0x04 ready ∧ Takes .C 0x91 ready) ∧
    (Takes .T 0x21 ready ∧ (-1001 : Int) < -1000 ∧ (-1000 : Int) ≤ 15000 ∧ (15000 : Int) < 15001) ∧
    (Takes .L 0x22 (staged stagedTable) ∧ 4000000 < 4000001 ∧ inverseRating [] 0 = none ∧
      inverseRating table 120000 = some 4000) ∧
    (Takes .C 0x30 ready ∧ 0 < 1 ∧ 64 < 65 ∧ Takes .L 0x71 ready ∧ 15 ≤ 15) ∧
    (Takes .T 0x50 ready ∧ ready.results.log = [] ∧ 4294967295 < 4294967296) ∧
    (Takes .T 0x50 measured ∧ (∀ r ∈ measured.results.log, r.id ≠ 5) ∧
      measured.results.log.getLast?.map PassResult.id = some 4 ∧
      measured.results.log.head?.map PassResult.id = some 3 ∧
      ∃ x y, measured.results.log = [x] ++ y :: [] ∧ x.id ≠ y.id ∧ 1 ≤ y.id ∧ y.id ≤ 4294967295) ∧
    (Takes .T 0x52 measured ∧ 40 < 41 ∧ measured.results.table.length < 3 ∧
      measured.results.table[2 - 1]? = some (entry 2)) :=
  ⟨⟨takes rfl (by decide), takes rfl (by decide), takes rfl (by decide)⟩,
    ⟨takes rfl (by decide), by decide⟩, ⟨takes rfl (by decide), by decide⟩,
    ⟨takes rfl (by decide), by decide, by decide, takes rfl (by decide), by decide⟩,
    ⟨takes rfl (by decide), by decide⟩,
    ⟨takes rfl (by decide), by decide, by decide, by decide, _, _, rfl, by decide⟩,
    ⟨takes rfl (by decide), by decide⟩⟩

theorem witness_PortsAreIsolated :
    (Instr.setHistoryThreshold .L 96).port? = some .L ∧ Port.T ≠ .L ∧
    (∀ x, Instr.setHistoryThreshold .L 96 ≠ .stationReset x) ∧
    exec (.setHistoryThreshold .L 96) ready = .next (answer (.setHistoryThreshold .L 96) ready) :=
  ⟨rfl, by decide, fun x => (nofun), rfl⟩

theorem witness_DecodeOfEncode :
    (Instr.configureStage .L stageArgs).wf = true ∧ (Instr.configureStage .L stageArgs).port? = some .L ∧
    (encodeFrame (.configureStage .L stageArgs)).isSome = true := by decide +kernel

/-! ### Resets and clocks -/

theorem witness_PowerOnValues :
    exec .porAssert ready = .next (answer .porAssert ready) ∧ held.ports.por = true ∧
    exec .porRelease held = .next (answer .porRelease held) := ⟨rfl, rfl, rfl⟩

theorem witness_ResetInputs :
    (opened false held).ports.por = true ∧
    ((answer .porRelease (opened false held)).ports.port.get .L).window = some ⟨[], true⟩ ∧
    State.reset.ports.por = false ∧ State.reset.ports.resetN = false ∧ windowDead .L State.reset = false ∧
    ((answer .resetNActivation (opened false State.reset)).ports.port.get .L).window = some ⟨[], true⟩ ∧
    (answer .resetNActivation State.reset).ports.resetN = true ∧
    (Instr.stationReset .L ≠ .porAssert ∧ Instr.stationReset .L ≠ .porRelease) := by decide +kernel

/-- The engine's invariant in the small states, whatever state the run is in. -/
theorem busy_inv (st : RunState) (h : st.runActive = true) : EngineInv (busy st) := by
  cases st <;> first | exact absurd h (by decide) | (constructor <;> decide)

theorem ready_inv : EngineInv ready := by constructor <;> decide

theorem tripped_inv : EngineInv trippedState := by constructor <;> decide

theorem witness_StationReset :
    (windowDead .L (busy .counting) = false ∧ EngineInv (busy .counting)) ∧
    (windowDead .L ready = false ∧ EngineInv ready) ∧ (busy .counting).engine.passOpen = true ∧
    (slotAt ready 3).definition.trigger.isLevel = false ∧ (lineAt ready 15).arm = false :=
  ⟨⟨rfl, busy_inv _ rfl⟩, ⟨rfl, ready_inv⟩, rfl, rfl, rfl⟩

/-- The unit and the slots that a reset's offer finds: a demand below the level, at it and above it. -/
theorem witness_StationReset_offer :
    let held (level : Nat) (z : Int) : State := { ready with
      stage := { ready.stage with stilled := some z }
      warning := { State.reset.warning with
        level := level, criteria := ⟨criteria.stage, criteria.discharge, criteria.rise, 100, 50, 30⟩ } }
    let d (s : State) := (formDemand ⟨s.stage.stilled, .starting, none, none, nowMs s⟩
      { s.warning with dwell := .stopped }).demanded
    ready.stage.status ≠ .starting ∧ d ready = ready.warning.level ∧
    d (held 2 1000) < 2 ∧ d (held 1 1800) = 1 ∧ 1 < d (held 1 2400) ∧
    (slot (.stageRise 1000 .level) true).definition.trigger = .stageRise 1000 .level ∧
    ready.stage.stilled = some 1000 ∧
    (slot (.warningLevel 3 .level) true).definition.trigger = .warningLevel 3 .level ∧
    (Condition.retreat, 2) ∈ conditionNumbers := by decide +kernel

theorem witness_StationReset_outputs : OutputsFormed ready :=
  ⟨by decide +kernel, by decide +kernel⟩

/-- Latches at a station reset: of an armed general line, of an armed WARN_OUT line whose value stays, and of the
armed PERMIT_OUT line, which the reset moves; and a pass closed under a status that is not STARTING. -/
theorem witness_StationReset_lines :
    let armed (f : LineFunction) : FieldLine :=
      { function := f, direction := .output, arm := true, changed := true }
    let begun := { busy .counting with engine := { (busy .counting).engine with ghStartHeld := false } }
    let s := withLine 4 (armed .general) (withLine 3 (armed (.warnOut 1)) (withLine 1 (armed .permitOut) begun))
    let t := answer (.stationReset .L) s
    EngineInv s ∧ (s.stage.status = .good ∧ t.stage.status = .starting ∧
      (t.results.log.getLastD default).ghHeld = false) ∧
    ((lineAt s 4).arm = true ∧ (lineAt s 4).function = .general ∧ (lineAt t 4).changed = false) ∧
    ((lineAt s 3).function = .warnOut 1 ∧ at' t.lines.warnKept 1 = at' s.lines.warnKept 1 ∧
      (lineAt t 3).changed = false) ∧
    lineMoved s.lines t.lines 1 = true := by
  refine ⟨by constructor <;> decide, ?_⟩
  decide +kernel

/-- R199: a reset in a run leaves pending the STAGE_STATUS (3), PASS_DONE (12) and RUN_ENDED (13) that it raises; one
with no run, taken under STARTING, leaves none of them and no LEVEL_RISE (0) or LINE_CHANGE (17), whatever was
pending before. -/
theorem test_reset_events :
    let pending (s : State) := ([0, 3, 12, 13, 17] : List Nat).map fun k =>
      ((answer (.stationReset .L) s).notices.port.get .L).pendingSet.getLsbD k
    let quiet := { ready with
      stage := { ready.stage with status := .starting }
      notices := { ready.notices with port := ready.notices.port.mapPorts fun _ x =>
        { x with pendingSet := 0xFFFFF#20 } } }
    pending (busy .counting) = [false, true, true, true, false] ∧
      pending quiet = [false, false, false, false, false] := by decide +kernel

def atClock (n mark : Nat) : State :=
  { State.reset with
    clock := { State.reset.clock with clock := n, uptime := n }
    history := { State.reset.history with mark := mark } }

theorem witness_ClockCommands :
    Takes .T 0x02 State.reset ∧ (4294967295 ≤ 4294967295 ∧ 4294967295 < 4294967296) ∧
    (atClock 4294967294 0).ports.por = false ∧ (atClock 4294967294 0).clock.uptime < 4294967295 ∧
    (atClock 4294967295 0).clock.uptime = 4294967295 ∧ 4294967295 ≤ (atClock 4294967295 0).clock.clock ∧
    ((atClock 898 0).clock.clock + 1) % ((atClock 898 0).history.interval * 60) ≠ 0 ∧
    (atClock 899 900).clock.clock + 1 ≤ (atClock 899 900).history.mark ∧
    ((atClock 899 899).clock.clock + 1) % ((atClock 899 899).history.interval * 60) = 0 ∧
    (atClock 899 899).history.mark < (atClock 899 899).clock.clock + 1 :=
  ⟨takes rfl (by decide), by decide +kernel⟩

theorem witness_ClockOwners :
    (Instr.setShift .L 5).port? = some .L ∧
    exec (.setShift .L 5) ready = .next (answer (.setShift .L 5) ready) ∧
    ∀ q v, Instr.setShift .L 5 ≠ .setClock q v := ⟨rfl, rfl, fun _ _ h => by cases h⟩

/-! ### Stage -/

def counted (n : Int) (gate : Nat) : State :=
  withStage { State.reset.stage with count := n, gateCount := gate }

theorem witness_FieldInputs :
    (counted 2147483647 65535).ports.por = false ∧
    (Level.high, Level.low) = nextRising ((counted 2147483647 0).stage.phaseA, (counted 0 0).stage.phaseB) ∧
    ((counted 0 0).stage.phaseA, (counted 0 0).stage.phaseB) = nextRising (.low, .high) ∧
    (Level.high ≠ (counted 0 0).stage.phaseA ∧ Level.high ≠ (counted 0 0).stage.phaseB) ∧
    (Level.low = (counted 0 0).stage.phaseA ∧ Level.low = (counted 0 0).stage.phaseB) ∧
    (counted 0 65534).stage.gateCount < 65535 ∧ (counted 0 65535).stage.gateCount = 65535 ∧
    nowMs (atMs 8999 (counted 0 0)) + 1000 < (counted 0 0).stage.sampleDue ∧
    nowMs (atMs 9000 (counted 0 0)) + 1000 = (counted 0 0).stage.sampleDue ∧
    (counted 0 0).stage.sampleDue < nowMs (atMs 9001 (counted 0 0)) + 1000 := by
  decide +kernel

def anchored (n : Nat) : StageUnit :=
  { State.reset.stage with anchor := some 1000, runLength := n, runValue := 1400 }

theorem witness_FloatJudgement :
    State.reset.stage.anchor = none ∧ (anchored 0).anchor = some 1000 ∧
    ((1150 : Int) - 1000).natAbs ≤ (anchored 0).cfg.fMaxStep ∧
    (anchored 0).cfg.fMaxStep < ((1151 : Int) - 1000).natAbs ∧ (anchored 0).runLength = 0 ∧
    (anchored 1).cfg.fMaxStep < ((1249 : Int) - (anchored 1).runValue).natAbs ∧
    (anchored 1).runLength = 1 ∧ (anchored 2).runLength = 2 ∧
    ((1250 : Int) - (anchored 2).runValue).natAbs ≤ (anchored 2).cfg.fMaxStep ∧
    (anchored 2).cfg.fMaxStep < ((1250 : Int) - 1000).natAbs := by decide +kernel

/-- Channels on or off, with gate counts at the threshold and below it. -/
def channels (f p : Bool) (gate : Nat) : State :=
  withStage { State.reset.stage with
    cfg := { State.reset.stage.cfg with fEnable := f, pEnable := p }, gateCount := gate }

def lossBegins : State := withStage { (channels true true 999).stage with signal := .present }

theorem witness_StageSample :
    (channels false false 0).ports.por = false ∧ (channels false false 0).stage.cfg.fEnable = false ∧
    ((answer .stageSample (channels true true 1000)).stage.fJudgement = .accepted ∧
      (channels true true 1000).stage.cfg.pMin ≤ (channels true true 1000).stage.gateCount) ∧
    ((answer .stageSample (channels true true 999)).stage.status = .single) ∧
    ((answer .stageSample (channels false true 1000)).stage.status = .single) ∧
    ((answer .stageSample (channels false false 1000)).stage.status = .lost) ∧
    ((answer .stageSample (channels true false 0)).stage.window = [0] ∧
      1 ≤ (channels true false 0).stage.cfg.windowLength ∧
      (channels true false 0).stage.window.length ≤ (channels true false 0).stage.cfg.windowLength) ∧
    (channels true true 0).stage.status ≠ (answer .stageSample (channels true true 0)).stage.status ∧
    ((channels true true 1000).stage.cfg.fEnable = true ∧
      (channels true true 1000).stage.encoderError = false ∧
      (channels true true 1000).stage.cfg.pEnable = true ∧ (channels true true 999).stage.gateCount <
        (channels true true 999).stage.cfg.pMin ∧ 1 ≤ (channels true true 0).stage.cfg.riseWindow) ∧
    (lossBegins.stage.signal = .present ∧ (answer .stageSample lossBegins).stage.signal = .loss) := by
  decide +kernel

/-- Both channels on and apart, one disagreement short of the limit, with an anchor the float has left. -/
def disagreeing : State :=
  withStage { (channels true true 1000).stage with disagree := 5, anchor := some 0, pLast := none }

theorem witness_StageSample_events :
    (disagreeing.stage.judgeF 0).2 = false ∧ ({ disagreeing.stage with anchor := some 151 }.judgeF 0).2 = true ∧
    disagreeing.stage.disagree < disagreeing.stage.cfg.disagreeLimit ∧
    (answer .stageSample disagreeing).stage.disagree = disagreeing.stage.cfg.disagreeLimit ∧
    (channels true true 0).stage.signal = .none ∧
    (answer .stageSample (channels true true 0)).stage.disagree ≠ (channels true true 0).stage.cfg.disagreeLimit ∧
    (let t := answer .stageSample (channels true false 0)
     t.stage.status = (answer .stageSample t).stage.status) := by decide +kernel

/-- A stage of 1000 about to be offered over one of 999, with the slots of several triggers armed: the level
rises to WATCH at it, and slot 2 is taken. -/
def offering : State :=
  let s := withSlot 1 { definition := { trigger := .stageRise 1000 .edge }, armed := true }
    (withSlot 2 { definition := { trigger := .warningLevel 1 .level }, armed := true }
      (withSlot 3 { definition := { trigger := .warningLevel 1 .edge }, armed := false } ready))
  { s with
    stage := { s.stage with cfg := { s.stage.cfg with fEnable := true }, count := 1000 }
    plan := { s.plan with previousStage := some 999 }
    history := { s.history with peak := some 999 }
    warning := { s.warning with
      criteria := ⟨⟨some 1000, none, none⟩, ⟨none, none, none⟩, ⟨none, none, none⟩, 0, 0, 0⟩ } }

/-- What the users of an offer and of a change of the level are asked, in SlotsJudged and IntervalTakes. -/
theorem witness_offers :
    let t := answer .stageSample offering
    let low := { offering with
      stage := { offering.stage with count := 0 }, warning := { offering.warning with level := 1 } }
    (offering.plan.previousStage = some 999 ∧ t.stage.stilled = some 1000 ∧ (slotAt offering 1).armed = true ∧
      t.plan.activeSlot ≠ some 1 ∧ (busy .moving).engine.state ≠ .idle) ∧
    (offering.warning.level < 1 ∧ 1 ≤ t.warning.level ∧ (slotAt offering 2).armed = true ∧
      (slotAt offering 3).armed = false ∧ eligibleSlot t = none) ∧
    (offering.warning.level < t.warning.level ∧ t.history.peak = some 1000 ∧
      offering.history.peak = some 999 ∧ State.reset.history.peak = none) ∧
    (offering.warning.retreat = false ∧ (answer .stageSample ready).warning.level = ready.warning.level) ∧
    (answer .stageSample low).warning.level < low.warning.level := by decide +kernel

/-- A run in progress whose stage reaches the retreat stage at the sample. -/
def retreating : State :=
  { busy .moving with
    stage := { (busy .moving).stage with cfg := offering.stage.cfg, count := 1000 }
    warning := { (busy .moving).warning with retreatStage := some 1000 } }

theorem witness_StageSample_retreat :
    retreating.warning.retreat = false ∧ (answer .stageSample retreating).warning.retreat = true ∧
    retreating.engine.state.recallable = true ∧
    (answer .stageSample retreating).warning.level = retreating.warning.level := by decide +kernel

/-- What RunFollows asks at a sample of an idle engine: the rise to WATCH takes slot 2, whose flag it sets; with
the level there already the offer takes slot 1, whose flag it sets; and with neither nothing is taken. -/
theorem witness_StageSample_takes :
    let held := { offering with warning := { offering.warning with level := 1 } }
    let quiet := { held with plan := { held.plan with previousStage := none } }
    let t (s : State) := answer .stageSample s
    let u (s : State) := { s with
      stage := (t s).stage, plan := s.plan.judged (levelJudged s.warning.level (t s).warning.level) }
    let v (s : State) := { u s with plan := offeredPlan true none (t s).stage.stilled (u s).plan }
    let first (s : State) := s.plan.order.find? (slotAsks s)
    (EvaluationAsks offering (t offering) ∧ TakeReady (t offering) ∧ first (u offering) = some 2 ∧
      (t offering).engine.slot = some 2) ∧
    (held.engine.state = .idle ∧ TakeReady (t held) ∧ first (u held) = none ∧ first (v held) = some 1 ∧
      (t held).engine.slot = some 1) ∧
    (TakeReady (t quiet) ∧ first (u quiet) = none ∧ first (v quiet) = none ∧ (t quiet).engine.slot = none) := by
  refine ⟨⟨.inr ⟨2, 1, .level, ?_, ?_, ?_, ?_, ?_⟩, ⟨?_, ?_, ?_, ?_, ⟨0, ?_⟩, ⟨1, ?_⟩⟩, ?_⟩,
    ⟨?_, ⟨?_, ?_, ?_, ?_, ⟨0, ?_⟩, ⟨1, ?_⟩⟩, ?_⟩, ⟨?_, ?_, ?_, ?_, ⟨0, ?_⟩, ⟨1, ?_⟩⟩, ?_⟩ <;> decide +kernel

theorem witness_ConfigureStage :
    Takes .L 0x05 ready ∧ stageConfigOf { stageArgs with period := 61 } = none ∧
    (stageConfigOf { stageArgs with period := 60 }).isSome = true ∧ ready.stage.status ≠ .starting :=
  ⟨takes rfl (by decide), by decide +kernel⟩

def gauged : State :=
  withStage { State.reset.stage with status := .good, fLast := some ⟨1, 0, false⟩, pLast := some ⟨1, -19000, false⟩ }

theorem witness_CheckGauge :
    Takes .L 0x06 gauged ∧ 1 < 2 ∧ (-1001 : Int) < -1000 ∧ (15000 : Int) < 15001 ∧
    Takes .L 0x06 State.reset ∧ State.reset.stage.fLast = none ∧ State.reset.stage.pLast = none ∧
    gauged.stage.fLast = some ⟨1, 0, false⟩ ∧ (-20000 ≤ (15000 : Int) - 0 ∧ (15000 : Int) - 0 ≤ 20000) ∧
    gauged.stage.pLast = some ⟨1, -19000, false⟩ ∧ (1000 : Int) - (-19000) ≤ 20000 ∧
    (withStage { gauged.stage with fLast := some ⟨1, -19000, false⟩ }).stage.fLast = some ⟨1, -19000, false⟩ ∧
    20000 < (1001 : Int) - (-19000) ∧ (15000 : Int) - (-19000) > 20000 ∧ gauged.stage.status ≠ .starting :=
  ⟨takes rfl (by decide), by decide, by decide, by decide, takes rfl (by decide), by decide +kernel⟩

/-! ### History -/

def record (n : Nat) : IntervalRecord := ⟨n, 900 * n, some 1000, some 1100, .good, none, .none, 0⟩

/-- A ring of two records, numbered 2 and 3. -/
def twoRecords : State :=
  { State.reset with history := { State.reset.history with
      ring := [record 2, record 3], nextSeq := 4, cursors := ⟨1, 4, 3⟩ } }

theorem twoRecords_inv : StoreInv twoRecords :=
  ⟨by decide, by decide, by decide, by decide, by decide, by decide, List.Perm.refl _,
    fun k h => (by cases h), by decide +kernel, .inl rfl, by decide, by decide⟩

theorem witness_ReadHistory :
    Takes .L 0x10 twoRecords ∧ Takes .T 0x10 twoRecords ∧ StoreInv twoRecords ∧
    (0 = 0 ∧ 4 < 5 ∧ 1 < 2 ∧ 1 ≤ 1 ∧ 4 ≤ 4 ∧ 1 ≤ 1) ∧
    (twoRecords.history.ring.filter fun r => twoRecords.history.cursors.get .T ≤ r.seq) = [] ∧
    (twoRecords.history.ring.filter fun r => twoRecords.history.cursors.get .L ≤ r.seq) =
      [record 2, record 3] :=
  ⟨takes rfl (by decide), takes rfl (by decide), twoRecords_inv, by decide, by decide, by decide⟩

theorem witness_HistorySettings :
    (Takes .T 0x11 twoRecords ∧ twoRecords.history.ring.head? = some (record 2) ∧
      State.reset.history.ring = [] ∧ twoRecords.history.nextSeq = 4 ∧
      twoRecords.history.oldest = some 2 ∧ twoRecords.history.newest = some 3 ∧
      twoRecords.history.ring.getLast? = some (record 3) ∧ 1 < (record 2).seq ∧ (record 3).seq < 4) ∧
    (Takes .T 0x13 twoRecords ∧ 96 < 97 ∧ 1 ≤ 96 ∧ 96 ≤ 96) ∧
    Takes .L 0x14 twoRecords ∧ (60 = 5 ∨ 60 = 10 ∨ 60 = 15 ∨ 60 = 30 ∨ 60 = 60) ∧ ¬ (6 = 5 ∨ 6 = 10 ∨ 6 = 15 ∨ 6 = 30 ∨ 6 = 60) :=
  ⟨⟨takes rfl (by decide), by decide⟩, ⟨takes rfl (by decide), by decide⟩, takes rfl (by decide),
    by decide, by decide⟩

/-! ### Rating -/

theorem witness_RoundToNearest :
    0 < 2 ∧ 2 * (roundDiv 5 2 * 2 - 5).natAbs = 2 ∧ (-500 : Int) ≤ 500 ∧ (-501 : Int) < -500 ∧
    (500 : Int) < 501 ∧ (-500 : Int) ≤ -500 := by decide

theorem table_valid : ValidTable table := ⟨by decide, by decide, by decide⟩

theorem witness_RatingReads :
    ValidTable table ∧ table = ⟨300, 0⟩ :: table.tail ∧ (300 : Int) ≤ 300 ∧ ⟨4000, 120000⟩ ∈ table.tail ∧
    table.getLast? = some ⟨4000, 120000⟩ ∧ (4000 : Int) < 4001 ∧
    readTable table 500 1577 = some (13079, .none) ∧ readTable table 500 1626 = some (14402, .none) ∧
    table = [⟨300, 0⟩, ⟨800, 2500⟩] ++ ⟨1500, 11000⟩ :: ⟨2500, 38000⟩ :: [⟨4000, 120000⟩] ∧
    ((1500 : Int) < 2500 ∧ (2500 : Int) ≤ 2500 ∧ 11000 < 38000 ∧ 38000 ≤ 38000) ∧
    table = [⟨300, 0⟩, ⟨800, 2500⟩, ⟨1500, 11000⟩] ++ [⟨2500, 38000⟩, ⟨4000, 120000⟩] ∧
    ValidTable [⟨0, 5⟩, ⟨10, 5⟩, ⟨20, 9⟩] ∧ (4 < 5 ∧ 9 < 10 ∧ 5 ≤ 5 ∧ 9 ≤ 9) :=
  ⟨table_valid, rfl, by decide, by decide, by decide, by decide, by decide, by decide,
    by decide, by decide, by decide, ⟨by decide, by decide, by decide⟩, by decide⟩

theorem witness_StagedTable :
    Takes .L 0x24 State.reset ∧ (23 ≤ 23 ∧ (-1000 : Int) ≤ -1000 ∧ (15000 : Int) ≤ 15000 ∧ 4000000 ≤ 4000000) ∧
    (23 < 24 ∧ (-1001 : Int) < -1000 ∧ (15000 : Int) < 15001 ∧ 4000000 < 4000001) ∧
    Takes .L 0x25 (staged stagedTable) ∧ (at' stagedTable 4).isSome = true ∧ stagedCount stagedTable ≠ 0 :=
  ⟨takes rfl (by decide), by decide, by decide, takes rfl (by decide), by decide +kernel⟩

theorem witness_InstallRating :
    Takes .L 0x26 State.reset ∧ stagedCount State.reset.rating.staged < 2 ∧
    Takes .L 0x26 (staged (stagedTable.set 2 none)) ∧ checkStaged (stagedTable.set 2 none) ≠ none ∧
    Takes .L 0x26 (staged stagedTable) ∧ checkStaged stagedTable = none :=
  ⟨takes rfl (by decide), by decide +kernel, takes rfl (by decide), by decide +kernel,
    takes rfl (by decide), by decide +kernel⟩

/-- The staged table with another point at an index. -/
def restaged (i : Nat) (b : Option Breakpoint) : Vector (Option Breakpoint) 24 :=
  stagedTable.setIfInBounds i b

/-- Each kind of failure as the first one: at the first index and beyond it, at equal stages, and one short of
equal discharges. -/
theorem witness_InstallRating_failures :
    let point (v : Vector (Option Breakpoint) 24) (j : Nat) := at' v j
    let sound (v : Vector (Option Breakpoint) 24) (j : Nat) := (point v j).isSome = true ∧
      (1 ≤ j → ∀ a ∈ point v (j - 1), ∀ b ∈ point v j, a.h < b.h ∧ a.q ≤ b.q)
    (2 ≤ stagedCount (restaged 0 none) ∧ point (restaged 0 none) 0 = none) ∧
    (2 < stagedCount (restaged 2 none) ∧ (∀ j, j < 2 → sound (restaged 2 none) j) ∧
      point (restaged 2 none) 2 = none) ∧
    (1 < stagedCount (restaged 1 (some ⟨300, 9⟩)) ∧ sound (restaged 1 (some ⟨300, 9⟩)) 0 ∧
      point (restaged 1 (some ⟨300, 9⟩)) 0 = some ⟨300, 0⟩ ∧
      point (restaged 1 (some ⟨300, 9⟩)) 1 = some ⟨300, 9⟩ ∧ (300 : Int) ≤ 300) ∧
    (2 < stagedCount (restaged 2 (some ⟨801, 2499⟩)) ∧
      (∀ j, j < 2 → sound (restaged 2 (some ⟨801, 2499⟩)) j) ∧
      point (restaged 2 (some ⟨801, 2499⟩)) 1 = some ⟨800, 2500⟩ ∧
      point (restaged 2 (some ⟨801, 2499⟩)) 2 = some ⟨801, 2499⟩ ∧ (800 : Int) < 801 ∧ 2499 < 2500) := by
  decide +kernel

theorem witness_RatingSettings :
    Takes .L 0x27 ready ∧ ((-501 : Int) < -500 ∧ (500 : Int) < 501 ∧ (-500 : Int) ≤ -500 ∧ (500 : Int) ≤ 500) ∧
    Takes .L 0x28 ready ∧ 2000 < 2001 ∧ 2000 ≤ 2000 :=
  ⟨takes rfl (by decide), by decide, takes rfl (by decide), by decide⟩

/-- A run in progress under a rating, at a stage whose discharge the shift brings to WATCH and retreat. -/
def shifting : State :=
  { busy .moving with
    rating := { (busy .moving).rating with active := table, version := 1 }
    warning := { (busy .moving).warning with
      retreatLevel := some 1
      criteria := ⟨⟨none, none, none⟩, ⟨some 10000, none, none⟩, ⟨none, none, none⟩, 0, 0, 0⟩ } }

theorem witness_RatingSettings_evaluation :
    let t := answer (.setShift .L 500) shifting
    (shifting.warning.level < t.warning.level ∧ shifting.warning.retreat = false ∧ t.warning.retreat = true ∧
      shifting.engine.state.recallable = true) ∧
    (answer (.setShift .L 1) shifting).warning.level = shifting.warning.level ∧
    (answer (.setShift .L 1) { shifting with warning := { shifting.warning with level := 1 } }).warning.level < 1 := by
  decide +kernel

/-! ### Plans and slots -/

theorem witness_PlanRecords :
    Takes .C 0x31 (busy .moving) ∧ Takes .L 0x32 (busy .moving) ∧ Takes .L 0x34 (busy .moving) ∧
    recordInUse (busy .moving) 3 = true ∧ recordInUse (busy .moving) 4 = false ∧
    (1 ≤ 64 ∧ 64 ≤ 64 ∧ 400000 ≤ 400000 ∧ 20 ≤ 20 ∧ 180 ≤ 180 ∧ 20000 ≤ 20000 ∧ ¬ 1 ≤ 0 ∧ ¬ 65 ≤ 64) ∧
    (500 ≤ 500 ∧ 4000000 ≤ 4000000 ∧ 8 ≤ 8 ∧ ¬ 9 ≤ 8) ∧
    ((slotAt (busy .moving) 0).definition.meter = 0 ∧ (busy .moving).plan.activeSlot = some 0) ∧
    ∀ k, k < 4 → (slotAt (busy .moving) k).definition.meter ≠ 3 :=
  ⟨takes rfl (by decide), takes rfl (by decide), takes rfl (by decide), by decide +kernel⟩

theorem witness_SlotDefinitions :
    Takes .L 0x36 (busy .moving) ∧ firstFault (slotFieldsInRange 0 { slotArgs with coefficient := 951 }) = some 5 ∧
    firstFault (slotFieldsInRange 0 slotArgs) = none ∧ (busy .moving).plan.activeSlot = some 0 ∧
    (busy .moving).plan.activeSlot ≠ some 1 ∧ slotArgs.plan ≠ .empty ∧
    (at' (busy .moving).plan.meters 3).b = 0 ∧ (at' (busy .moving).plan.meters slotArgs.meter).b ≠ 0 ∧
    (∀ i, i < 16 → (lineAt (busy .moving) i).function ≠ .settledIn) ∧
    firstFault (slotFieldsInRange 1 { slotArgs with settledSense := 1 }) = none ∧
    (planOf (.listed 25 40)).isSome = true ∧ (planOf (.listed 26 40)).isSome = false :=
  ⟨takes rfl (by decide), by decide +kernel⟩

theorem witness_ArmSlot :
    Takes .C 0x37 ready ∧ 3 < 4 ∧ (slotAt ready 3).definition.plan = .empty ∧
    ((slotAt ready 0).definition.plan ≠ .empty ∧ (slotAt ready 0).armed = true ∧
      ¬ ((at' ready.plan.meters 0).b = 0 ∨ (slotAt ready 0).definition.settledSense = .level)) ∧
    (at' ready.plan.meters 1).b = 0 ∧
    (slotAt (withSlot 3 { definition := { plan := .linked 1, meter := 1 } } ready) 3).definition.plan ≠ .empty ∧
    ((slotAt (withSlot 3 (slot (.interval 24) false) ready) 3).armed = false ∧
      (slotAt (withSlot 3 (slot (.interval 24) false) ready) 3).definition.trigger = .interval 24) ∧
    ((slotAt (withSlot 3 (slot (.stageRise 1000 .level) false) ready) 3).definition.trigger =
      .stageRise 1000 .level ∧ ready.stage.stilled = some 1000) ∧
    (slotAt (withSlot 3 (slot (.warningLevel 1 .level) false) ready) 3).definition.trigger =
      .warningLevel 1 .level ∧
    (slot .port false).definition.trigger.isLevel = false ∧ (busy .moving).engine.state ≠ .idle :=
  ⟨takes rfl (by decide), by decide, by decide +kernel⟩

/-- The alternatives of a definition's fields, at the ends of their ranges. -/
theorem witness_SlotDefinitions_fields :
    (planOf (.linked 64) = some (.linked 64) ∧ planOf (.linked 65) = none ∧ planOf (.linked 0) = none) ∧
    (planOf (.listed 62 3) = some (.listed 62 3) ∧ planOf (.listed 1 41) = none) ∧
    (passesOf (.number 4) = some (.number 4) ∧ passesOf (.number 5) = none) ∧
    (triggerOf (.stageRise (-1000) 1) = some (.stageRise (-1000) .level) ∧
      triggerOf (.stageRise 15001 0) = none ∧ triggerOf (.warningLevel 3 0) = some (.warningLevel 3 .edge) ∧
      triggerOf (.warningLevel 3 2) = none ∧ triggerOf (.interval 24) = some (.interval 24) ∧
      triggerOf (.interval 25) = none ∧ triggerOf (.upstream 7) = some (.upstream 7) ∧
      triggerOf (.upstream 8) = none) ∧
    encodeFrame (.defineSlot .L 3 { slotArgs with plan := .linked 9, passes := .index, trigger := .interval 2 }) =
      some [0x36, 24, 3, 2, 9, 0, 0, 1, 0, 0, 0x03, 0x70, 20, 0, 0, 0, 0x01, 0xF4, 0x01, 0x2C, 0x02, 0x58,
        3, 2, 0, 0] := by decide +kernel

/-- An idle engine at an arming: no slot asks, or the slot armed asks, or one before it does. -/
theorem witness_ArmSlot_takes :
    let s := withSlot 3 (slot (.stageRise 1000 .level) false) ready
    let x : Slot := { slot (.stageRise 1000 .level) true with request := true }
    let first := withSlot 0 { slotAt ready 0 with request := true } s
    let quiet := withSlot 3 (slot .port false) ready
    (TakeReady s ∧ s.engine.state = .idle ∧
      (s.plan.withSlot 3 x).order.find? (slotAsks (withSlot 3 x s)) = some 3 ∧
      first.plan.order.find? (slotAsks (withSlot 3 x first)) = some 0) ∧
    (quiet.plan.order.find? (slotAsks (withSlot 3 (slot .port true) quiet)) = none ∧
      (slotAt quiet 3).definition.trigger = .port) ∧
    (¬ TakeReady { s with stage := { s.stage with status := .lost } }) ∧
    { s with stage := { s.stage with stilled := none } }.stage.stilled = none := by
  refine ⟨⟨⟨rfl, rfl, by decide, by decide, ⟨0, by decide⟩, ⟨1, by decide⟩⟩, by decide +kernel⟩,
    by decide +kernel, fun h => absurd rfl h.2.2.2.1, rfl⟩

theorem witness_TakesOfSlots :
    Takes .L 0x39 ready ∧ 3 < 4 ∧ (slotAt ready 3).armed = false ∧
    ((slotAt ready 0).armed = true ∧ ready.engine.state = .idle ∧ ready.warning.retreat = false ∧
      ready.stage.stilled.isSome = true ∧ (lineAt ready 0).function = .meterIn ∧
      (lineAt ready 1).function = .permitOut ∧
      ready.plan.order.find? (fun i => i == 0 || slotAsks ready i) = some 0 ∧
      (poolRecord ready 1).used = true) ∧
    ((slotAt (busy .moving) 0).armed = true ∧ (busy .moving).engine.state ≠ .idle) ∧
    ((slotAt (withSlot 0 { definition := { plan := .linked 9 }, armed := true } ready) 0).armed = true ∧
      (poolRecord ready 9).used = false) ∧
    (withSlot 3 (slot .port true) ready).plan.order.find?
      (fun i => i == 3 || slotAsks (withSlot 3 (slot .port true) ready) i) = some 3 :=
  ⟨takes rfl (by decide), by decide, by decide +kernel⟩

theorem witness_SlotFlags :
    Takes .C 0x38 ready ∧ 3 < 4 ∧ ready.plan.activeSlot ≠ some 3 ∧ (busy .homing).engine.state = .homing ∧
    Takes .C 0x3A ready ∧ Takes .L 0x3B ready ∧ 1 < 2 ∧ ready.ports.por = false ∧
    (slotAt ready 3).armed = false ∧
    (let s := withSlot 3 { slot (.interval 24) true with timer := .running 0 } (busy .moving)
     (slotAt s 3).armed = true ∧ (slotAt s 3).definition.trigger = .interval 24 ∧
      (slotAt s 3).timer = .running 0 ∧ s.engine.state ≠ .idle) :=
  ⟨takes rfl (by decide), by decide, by decide, by decide, takes rfl (by decide), takes rfl (by decide),
    by decide +kernel⟩

/-- An interval timer's expiry with the engine in IDLE, with its slot fit to be taken and not. -/
theorem witness_SlotFlags_takes :
    let s := withSlot 3 { slot (.interval 24) true with timer := .running 0 } ready
    let u := withSlot 3 { slot (.interval 24) true with request := true, timer := .running 86400000 } ready
    (s.engine.state = .idle ∧ (slotAt s 3).armed = true ∧ Runs (slotAt s 3).timer ∧ TakeReady u ∧
      u.plan.order.find? (slotAsks u) = some 3) ∧
    ¬ TakeReady { u with stage := { u.stage with status := .lost } } := by
  refine ⟨⟨rfl, rfl, ⟨0, rfl⟩, ⟨rfl, rfl, by decide, by decide, ⟨0, by decide⟩, ⟨1, by decide⟩⟩,
    by decide +kernel⟩, fun h => absurd rfl h.2.2.2.1⟩

/-! ### The run engine -/

def fetched (n : Nat) (d : Direction) : State :=
  { busy .moving with engine := { (busy .moving).engine with fetchCount := n, direction := some d } }

def holding (kind : HoldKind) (n : Nat) : State :=
  { busy .holding with engine := { (busy .holding).engine with holdKind := some kind, fetchCount := n } }

theorem witness_Fetches :
    (40 ≤ (fetched 40 .increasing).engine.fetchCount ∧ (fetched 39 .increasing).engine.fetchCount < 40) ∧
    ((fetched 1 .increasing).engine.fetchCount = 1 ∧ (fetched 0 .increasing).engine.fetchCount = 0) ∧
    ((fetched 2 .decreasing).engine.direction = some .decreasing ∧ (poolRecord ready 1).used = true) ∧
    Takes .C 0x45 (busy .moving) ∧ (busy .moving).engine.state ≠ .holding ∧
    Takes .C 0x45 (holding .nextVertical 2) ∧ (holding .nextVertical 2).engine.holdKind = some .nextVertical ∧
    fetchFault (holding .nextVertical 2) (poolRecord ready (nextIndex (holding .nextVertical 2))) = none ∧
    fetchFault (holding .nextVertical 40) (poolRecord ready (nextIndex (holding .nextVertical 40))) =
      some .planTooLong ∧
    (holding .nextPass 3).engine.state = .holding ∧ (holding .nextPass 3).engine.holdKind = some .nextPass :=
  ⟨by decide, by decide, by decide +kernel, takes rfl (by decide), by decide, takes rfl (by decide),
    by decide +kernel⟩

theorem witness_Fetches_passes :
    ((holding .nextVertical 40).engine.passOpen = true ∧ (holding .nextVertical 2).engine.fetchCount ≠ 1 ∧
      (holding .nextVertical 1).engine.fetchCount = 1 ∧
      fetchFault (holding .nextVertical 1) (poolRecord ready (nextIndex (holding .nextVertical 1))) =
        some .planOrder) ∧
    ((holding .nextPass 3).stage.stilled = some 1000 ∧ (poolRecord (holding .nextPass 3) 1).used = true ∧
      (activeDefinition (holding .nextPass 3)).plan = .listed 1 3) ∧
    (let s := withSlot 0 { definition := { plan := .linked 9 }, armed := true } (holding .nextPass 3)
     (activeDefinition s).plan = .linked 9 ∧ (poolRecord s 9).used = false) := by decide +kernel

theorem witness_Recalls :
    Takes .C 0x46 ready ∧ ready.engine.state = .idle ∧ Takes .C 0x46 (busy .holding) ∧
    (busy .holding).engine.state.recallable = true ∧ Takes .C 0x38 (busy .moving) ∧
    (busy .moving).plan.activeSlot = some 0 ∧ (busy .lowering).ports.por = false ∧
    Runs (busy .lowering).engine.moveTimer ∧ (busy .lowering).engine.state = .lowering ∧
    ((busy .counting).engine.state ≠ .moving ∧ (busy .counting).engine.state ≠ .lowering) :=
  ⟨takes rfl (by decide), by decide, takes rfl (by decide), by decide, takes rfl (by decide), by decide,
    by decide, ⟨5000, rfl⟩, by decide, by decide⟩

def arriving (mode : DepthMode) (method : Method) : State :=
  { busy .moving with engine := { (busy .moving).engine with
      vertical := { vertical with
        depthMode := mode, fetchedDepth := if mode = .sound then none else some 749, methodFetched := method } } }

theorem witness_Arrivals :
    Takes .C 0x42 (busy .lowering) ∧ (busy .lowering).engine.state ≠ .moving ∧
    Takes .C 0x42 (arriving .fixed .p28) ∧ (arriving .fixed .p28).engine.state = .moving ∧
    400000 < 400001 ∧ ¬ (((2501 : Nat) : Int) - (2000 : Nat)).natAbs ≤ 500 ∧
    (((2500 : Nat) : Int) - (2000 : Nat)).natAbs ≤ (activeDefinition (arriving .fixed .p28)).tolerance ∧
    (arriving .fixed .p28).engine.vertical.fetchedDepth = some 749 ∧
    (arriving .sound .surf).engine.vertical.depthMode = .sound ∧ 20000 ≤ 20000 ∧
    (arriving .sound .surf).engine.vertical.methodFetched = .surf ∧
    (activeDefinition (arriving .sound .surf)).settleTime ≠ 0 :=
  ⟨takes rfl (by decide), by decide, takes rfl (by decide), by decide, by decide, by decide,
    by decide +kernel⟩

theorem witness_Arrivals_dry :
    let s := arriving .fixed .p28
    let dry := { s with engine := { s.engine with vertical := { s.engine.vertical with fetchedDepth := some 0 } } }
    dry.engine.vertical.depthMode = .fixed ∧ dry.engine.vertical.fetchedDepth = some 0 ∧
    hasMore dry = true ∧ (activeDefinition dry).mode = .traverse := by decide +kernel

/-- The last vertical of a plan of three, its depth 0 (section 6.9). -/
theorem witness_Arrivals_last :
    let s := arriving .sound .p6
    let last := { s with engine := { s.engine with fetchCount := 3 } }
    last.engine.state = .moving ∧ last.engine.vertical.depthMode = .sound ∧ hasMore last = false ∧
    3 ≤ last.engine.fetchCount ∧ passesRemain last = false ∧
    (activeDefinition (withSlot 0 { definition := { settleTime := 0 }, armed := true } (arriving .sound .surf))).settleTime
      = 0 := by decide +kernel

/-- Slot 0 with a settle time, a settled sense and a pause limit. -/
def sensing (settle : Nat) (sense : SettledSense) (limit : Nat) (st : RunState) : State :=
  let d : SlotDefinition :=
    { plan := .listed 1 3, settleTime := settle, settledSense := sense, pauseLimit := limit }
  withSlot 0 { definition := d, armed := true } (busy st)

theorem witness_Settling :
    Takes .C 0x43 ready ∧ ready.engine.state ≠ .lowering ∧ Takes .C 0x43 (sensing 0 .level 5 .lowering) ∧
    (sensing 0 .level 5 .lowering).engine.state = .lowering ∧
    (activeDefinition (sensing 0 .level 5 .lowering)).settleTime = 0 ∧
    (activeDefinition (sensing 1 .level 5 .lowering)).settleTime ≠ 0 ∧ ready.engine.state ≠ .settling ∧
    (busy .settling).engine.state = .settling ∧ Runs (busy .settling).engine.settleTimer ∧
    (activeDefinition (busy .settling)).settledSense = .ignore ∧
    (activeDefinition (sensing 1 .level 5 .settling)).settledSense = .level ∧
    (answer .settleTimerExpiry (sensing 1 .level 5 .settling)).lines.anyActive .settledIn = false :=
  ⟨takes rfl (by decide), by decide, takes rfl (by decide), by decide, by decide +kernel,
    by decide +kernel, by decide, by decide, ⟨5000, rfl⟩, by decide +kernel⟩

def atPoint (k : Nat) : State :=
  { busy .counting with engine := { (busy .counting).engine with
      vertical := { vertical with pointOrdinal := k }, pauseTimer := .running 5000 } }

theorem witness_Counting :
    ready.engine.state ≠ .counting ∧ (atPoint 2).ports.por = false ∧ (atPoint 2).engine.state = .counting ∧
    Runs (atPoint 2).engine.countTimer ∧
    (atPoint 2).engine.vertical.pointDepths.length ≤ (atPoint 2).engine.vertical.pointOrdinal ∧
    (atPoint 1).engine.vertical.pointOrdinal < (atPoint 1).engine.vertical.pointDepths.length ∧
    Runs (atPoint 1).engine.pauseTimer ∧ (atPoint 1).results.table = [entry 1] ++ [entry 2] :=
  ⟨by decide, by decide, by decide, ⟨5000, rfl⟩, by decide, by decide, ⟨5000, rfl⟩, by decide⟩

/-- Slot 0's run at its last point, with a plan, a mode and passes. -/
def ending (plan : Plan) (mode : RunMode) (passes : Passes) (fetches : Nat) : State :=
  let s := withSlot 0 { definition := { plan := plan, mode := mode, passes := passes }, armed := true } (atPoint 2)
  { s with engine := { s.engine with fetchCount := fetches } }

theorem witness_Counting_verticals :
    let ends (s : State) : Prop := s.engine.state = .counting ∧ s.engine.passOpen = true ∧
      s.engine.vertical.pointDepths.length ≤ s.engine.vertical.pointOrdinal
    (let s := ending (.listed 1 3) .stepped (.number 1) 2
     ends s ∧ hasMore s = true ∧ (activeDefinition s).mode = .stepped) ∧
    (let s := ending (.listed 1 3) .traverse (.number 1) 2
     ends s ∧ hasMore s = true ∧ (activeDefinition s).mode = .traverse ∧
      fetchFault s (poolRecord s (nextIndex s)) = none) ∧
    (let s := ending (.listed 3 3) .traverse (.number 1) 2
     ends s ∧ hasMore s = true ∧ fetchFault s (poolRecord s (nextIndex s)) = some .planEmpty) ∧
    (let s := ending (.linked 1) .traverse (.number 1) 2
     ends s ∧ hasMore s = false ∧ s.engine.fetchCount < 3) := by decide +kernel

theorem witness_Counting_closes :
    let s := ending (.listed 1 3) .traverse (.number 1) 3
    s.engine.state = .counting ∧ s.engine.vertical.pointDepths.length ≤ s.engine.vertical.pointOrdinal ∧
    hasMore s = false ∧ 3 ≤ s.engine.fetchCount := by decide +kernel

theorem witness_HomeComing :
    Takes .C 0x44 ready ∧ ready.engine.state = .idle ∧ Takes .C 0x44 (busy .moving) ∧
    (busy .moving).engine.state ≠ .homing ∧ Takes .C 0x44 (busy .homing) ∧
    (busy .homing).engine.homingCause = some .complete ∧ (busy .homing).plan.activeSlot = some 0 ∧
    { busy .homing with plan := { (busy .homing).plan with priority := .rotating } }.plan.priority = .rotating ∧
    { busy .homing with warning := { (busy .homing).warning with retreat := true } }.warning.retreat = true ∧
    (busy .homing).ports.por = false ∧ (busy .homing).engine.state = .homing ∧
    Runs (busy .homing).engine.homeTimer :=
  ⟨takes rfl (by decide), by decide, takes rfl (by decide), by decide, takes rfl (by decide), rfl, rfl, rfl,
    rfl, rfl, rfl, ⟨5000, rfl⟩⟩

/-- A slot that asks when the carriage comes home, and a run of a LEVEL slot. -/
theorem witness_HomeComing_takes :
    let quiet := busy .homing
    let asked := withSlot 3 { slot .port true with request := true } (busy .homing)
    let again := withSlot 0 { slot (.stageRise 1000 .level) true with request := true } (busy .homing)
    let asks (s : State) (c : EndCause) := (answer (.homeReached .C) s).plan.order.find? fun i =>
      slotAsks s i && !(c == .complete && i == 0)
    TakeReady asked ∧ asks asked .complete = some 3 ∧ asks quiet .complete = none ∧
    asks again .complete = none ∧ asks again .cancelled = some 0 ∧
    (slotAt again 0).definition.trigger.isLevel = true ∧ (slotAt asked 0).definition.trigger.isLevel = false ∧
    ¬ TakeReady { quiet with stage := { quiet.stage with stilled := none } } := by
  refine ⟨⟨rfl, rfl, by decide, by decide, ⟨0, by decide⟩, ⟨1, by decide⟩⟩, by decide +kernel,
    by decide +kernel, by decide +kernel, by decide +kernel, rfl, rfl, fun h => absurd h.2.1 (by decide)⟩

/-- An armed PERMIT_OUT line at the take of a slot that asks when the carriage comes home: R184 marks it, for its
pin has followed the permit. -/
theorem witness_HomeComing_permit :
    let line : FieldLine := { function := .permitOut, direction := .output, arm := true }
    let s := withLine 1 line (withSlot 3 { slot .port true with request := true } (busy .homing))
    let t := answer (.homeReached .C) s
    EngineInv s ∧ (lineAt s 1).function = .permitOut ∧ (lineAt s 1).direction = .output ∧
      t.engine.slot = some 3 ∧ lineAt t 1 = { lineAt s 1 with pin := line.levelFor true, changed := true } := by
  refine ⟨by constructor <;> decide, ?_⟩
  decide +kernel

theorem witness_TripsAndResets :
    (Takes .C 0x47 trippedState ∧ EngineInv trippedState ∧ trippedState.engine.state = .tripped) ∧
    (Takes .C 0x47 (busy .counting) ∧ EngineInv (busy .counting) ∧ (busy .counting).engine.state ≠ .idle) ∧
    (EngineInv ready ∧ ready.engine.state = .idle) ∧
    (Takes .C 0x48 ready ∧ ready.engine.state ≠ .tripped) ∧
    (Takes .C 0x48 trippedState ∧ trippedState.lines.anyActive .limitIn = false) ∧
    (withLine 3 { function := .limitIn, pin := .high } trippedState).lines.anyActive .limitIn = true ∧
    Takes .C 0x49 (busy .moving) ∧ (busy .moving).engine.state.runActive = true :=
  ⟨⟨takes rfl (by decide), tripped_inv, rfl⟩, ⟨takes rfl (by decide), busy_inv _ rfl, by decide⟩,
    ⟨ready_inv, rfl⟩, ⟨takes rfl (by decide), by decide⟩, ⟨takes rfl (by decide), by decide⟩,
    by decide +kernel, takes rfl (by decide), rfl⟩

/-- CLEAR_TRIP with no slot that asks, with one that does, and with retreat in force. -/
theorem witness_TripsAndResets_takes :
    let asked := withSlot 0 { slotAt ready 0 with request := true } trippedState
    TakeReady trippedState ∧ trippedState.plan.order.find? (slotAsks trippedState) = none ∧
    asked.engine.state = .tripped ∧ asked.plan.order.find? (slotAsks asked) = some 0 ∧
    ¬ TakeReady { asked with warning := { asked.warning with retreat := true } } := by
  refine ⟨⟨rfl, rfl, by decide, by decide, ⟨0, by decide⟩, ⟨1, by decide⟩⟩, by decide +kernel, rfl,
    by decide +kernel, fun h => absurd h.1 (by decide)⟩

theorem witness_TrippedStays :
    trippedState.engine.state = .tripped ∧
    exec .stageSample trippedState = .next (answer .stageSample trippedState) ∧
    Instr.stageSample ≠ .porAssert ∧ Instr.stageSample ≠ .porRelease := ⟨rfl, rfl, by decide, by decide⟩

/-! ### Results -/

theorem witness_GaugingArithmetic :
    1 ≤ 1 ∧ { entry 1 with mean := some 10000, depth := some 20000 }.mean = some 10000 ∧
    { entry 1 with mean := some 10000, depth := some 20000 }.depth = some 20000 ∧
    (10000 ≤ 10000 ∧ 20000 ≤ 20000 ∧ 400000 ≤ 400000) := by decide

theorem witness_PanelsCoverTheWidth :
    let es := [{ entry 1 with complete := true }, { entry 3 with complete := true }]
    2 ≤ es.length ∧ (∀ e ∈ es, e.complete = true ∧ e.panel = none) ∧ es.Pairwise (fun a b => a.x < b.x) ∧
      es.reverse.Pairwise (fun a b => b.x < a.x) := by decide

/-- The last point of the last vertical of a plan of three. -/
def lastPoint : State :=
  { atPoint 2 with engine := { (atPoint 2).engine with fetchCount := 3 } }

theorem witness_PassCompletes :
    lastPoint.ports.por = false ∧ lastPoint.engine.state = .counting ∧ Runs lastPoint.engine.countTimer ∧
    lastPoint.engine.vertical.pointDepths.length ≤ lastPoint.engine.vertical.pointOrdinal ∧
    hasMore lastPoint = false ∧ 3 ≤ lastPoint.engine.fetchCount ∧ passesRemain lastPoint = false :=
  ⟨rfl, rfl, ⟨5000, rfl⟩, by decide +kernel⟩

theorem witness_PassCompletes_more :
    let more (m : RunMode) := ending (.listed 1 3) m (.number 2) 3
    (more .stepped).engine.state = .counting ∧ hasMore (more .stepped) = false ∧
    3 ≤ (more .stepped).engine.fetchCount ∧ passesRemain (more .stepped) = true ∧
    (activeDefinition (more .stepped)).mode = .stepped ∧ hasMore (more .traverse) = false ∧
    passesRemain (more .traverse) = true ∧ (activeDefinition (more .traverse)).mode = .traverse := by
  decide +kernel

/-- `lastPoint` with an active rating, and with a first panel of this discharge and area: the last vertical adds
nothing to them. -/
def closing (active : List Breakpoint) (q area : Nat) : State :=
  { lastPoint with
    rating := { lastPoint.rating with active := active, version := 7 }
    results := { lastPoint.results with
      table := [{ entry 1 with complete := true, panel := some ⟨1000, q, area⟩ }, entry 2] } }

/-- The result that `lastPoint` closes with, and its rating. -/
def closedResult (active : List Breakpoint) (q area : Nat) : PassResult :=
  (answer .countTimerExpiry (closing active q area)).results.log.getLastD default

/-- R124 and R126 by hand, at a gauge height of 500: 130000 over 65000 is a mean velocity of 2000; 130 L/s
measured against 100 rated is a deviation of 300 per mille, and lies at 560 in the rating. -/
theorem test_result_values :
    let r := closedResult [⟨500, 100⟩, ⟨600, 150⟩] 130000 65000
    r.measured = some 130 ∧ r.area = some 650 ∧ r.meanVelocity = some 2000 ∧ r.rated = some 100 ∧
      r.deviation = some 300 ∧ r.proposal = some 60 ∧ r.proposalClamped = false ∧ r.version = 7 := by
  decide +kernel

/-- No area; no rating, a rated discharge of 0 and one that is not; no inverse, and one beyond each clamp. -/
theorem witness_PassCompletes_results :
    let closes (s : State) := s.ports.por = false ∧ s.engine.state = .counting ∧
      hasMore s = false ∧ 3 ≤ s.engine.fetchCount ∧ passesRemain s = false
    (closes (closing [] 0 0) ∧ (closedResult [] 0 0).meanVelocity = none ∧ (closedResult [] 0 0).rated = none ∧
      inverseRating [] 0 = none ∧ (closedResult [] 0 0).version = 0) ∧
    (closes (closing [⟨500, 0⟩, ⟨600, 150⟩] 130000 65000) ∧
      (closedResult [⟨500, 0⟩, ⟨600, 150⟩] 130000 65000).rated = some 0 ∧
      (closedResult [⟨500, 0⟩, ⟨600, 150⟩] 130000 65000).deviation = none) ∧
    (closes (closing [⟨500, 100⟩, ⟨1001, 130⟩] 130000 65000) ∧
      inverseRating [⟨500, 100⟩, ⟨1001, 130⟩] 130 = some 1001 ∧
      (closedResult [⟨500, 100⟩, ⟨1001, 130⟩] 130000 65000).proposal = some 500 ∧
      (closedResult [⟨500, 100⟩, ⟨1001, 130⟩] 130000 65000).proposalClamped = true) ∧
    (closes (closing [⟨-1, 130⟩, ⟨500, 200⟩] 130000 65000) ∧
      inverseRating [⟨-1, 130⟩, ⟨500, 200⟩] 130 = some (-1) ∧
      (closedResult [⟨-1, 130⟩, ⟨500, 200⟩] 130000 65000).proposalClamped = true) := by decide +kernel

/-! ### Warning -/

def inputs (z : Int) (status : StageStatus) : EvalInputs := ⟨some z, status, none, none, 60000⟩

def unit (level dwell : Nat) (t : Timer) : WarningUnit :=
  { State.reset.warning with
    level := level, dwell := t
    criteria := ⟨⟨some 1800, some 2400, some 3000⟩, ⟨none, none, none⟩, ⟨none, none, none⟩, 100, 50, dwell⟩ }

theorem witness_LevelAndDwell :
    let d (z : Int) (level dwell : Nat) (t : Timer) := formDemand (inputs z .good) (unit level dwell t)
    (unit 3 30 .stopped).level ≤ 3 ∧ (unit 2 30 .stopped).level < (d 3000 2 30 .stopped).demanded ∧
    (d 2900 3 30 .stopped).demanded = 3 ∧ (d 2899 3 30 .stopped).demanded < 3 ∧
    (d 2899 3 30 (.running 90000)).demanded < 3 ∧ (d 2899 3 30 (.held 1)).demanded < 3 ∧
    (inputs 2899 .single).status = .single ∧ (inputs 2899 .lost).status = .lost ∧
    (unit 3 0 .stopped).criteria.dwell * 60000 = 0 ∧ (unit 3 1 .stopped).criteria.dwell * 60000 ≠ 0 ∧
    State.reset.ports.por = false ∧ State.reset.warning.dwell = .stopped ∧
    Runs (withWarning (unit 1 30 (.running 0))).warning.dwell ∧
    1 ≤ (withWarning (unit 1 30 (.running 0))).warning.level := by
  refine ⟨by decide, by decide, by decide, by decide, by decide, by decide, rfl, rfl, by decide, by decide,
    rfl, rfl, ⟨0, rfl⟩, by decide⟩

theorem witness_LevelAndDwell_fall :
    (settleLevel 4 (evalInputs (withWarning (unit 1 30 (.running 0))))
      { unit 1 30 (.running 0) with level := 0, dwell := .stopped }).1.level <
        (withWarning (unit 1 30 (.running 0))).warning.level := by decide +kernel

/-- A fall at which retreat comes into force for a run in progress. -/
theorem witness_LevelAndDwell_retreat :
    let s := { busy .moving with warning := { unit 3 30 (.running 0) with retreatLevel := some 1 } }
    s.warning.retreat = false ∧ (answer .dwellTimerExpiry s).warning.retreat = true ∧
    s.engine.state.recallable = true := by decide +kernel

theorem witness_CriteriaAndRetreat :
    Takes .L 0x61 State.reset ∧ firstFault (criteriaFieldsInRange { criteria with dwell := 241 }) = some 11 ∧
    (firstFault (criteriaFieldsInRange { criteria with stage := ⟨some 5, none, some 4⟩ }) = none ∧
      orderFault { criteria with stage := ⟨some 5, none, some 4⟩ } = some (0, 3)) ∧
    (firstFault (criteriaFieldsInRange criteria) = none ∧ orderFault criteria = none) ∧
    Takes .L 0x62 ready ∧ ¬ (15001 : Int) ≤ 15000 ∧ (15000 : Int) ≤ 15000 ∧ (1 ≤ 3 ∧ 3 ≤ 3) ∧
    (ready.warning.retreat = false ∧ (answer (.setRetreat .L (some 1000) .none) (busy .moving)).warning.retreat = true ∧
      (busy .moving).engine.state.recallable = true) :=
  ⟨takes rfl (by decide), by decide, by decide, by decide, takes rfl (by decide), by decide, by decide,
    by decide, by decide +kernel⟩

/-- SET_RETREAT that takes retreat out of force, with the engine in IDLE and a slot that asks or none. -/
theorem witness_CriteriaAndRetreat_takes :
    let quiet := { ready with warning := { ready.warning with retreat := true, retreatStage := some 1000 } }
    let asked := withSlot 0 { slotAt ready 0 with request := true } quiet
    let t (s : State) := answer (.setRetreat .L none .none) s
    (EvaluationAsks asked (t asked) ∧ TakeReady (t asked) ∧ asked.plan.order.find? (slotAsks asked) = some 0 ∧
      (t asked).engine.slot = some 0) ∧
    (EvaluationAsks quiet (t quiet) ∧ quiet.plan.order.find? (slotAsks quiet) = none ∧
      (t quiet).engine = quiet.engine) ∧
    ¬ TakeReady (answer (.setRetreat .L (some 1000) .none) asked) := by
  refine ⟨⟨.inl ?_, ⟨?_, ?_, ?_, ?_, ⟨0, ?_⟩, ⟨1, ?_⟩⟩, ?_⟩, ⟨.inl ?_, ?_⟩,
    fun h => absurd h.1 ?_⟩ <;> decide +kernel

theorem witness_WarningOutputs :
    Takes .L 0x63 State.reset ∧ 3 < 4 ∧ (3 ≤ 3 ∧ 1 ≤ 3 ∧ 1 ≤ 1) ∧ Takes .T 0x64 State.reset ∧
    Takes .L 0x65 State.reset ∧ Takes .T 0x66 State.reset ∧ 15 < (16 : BitVec 8).toNat ∧
    (15 : BitVec 8).toNat ≤ 15 ∧ Takes .L 0x67 State.reset ∧ State.reset.warning.level = 0 ∧
    Takes .L 0x67 (withWarning (unit 1 30 .stopped)) ∧ 1 ≤ (withWarning (unit 1 30 .stopped)).warning.level :=
  ⟨takes rfl (by decide), by decide, by decide, takes rfl (by decide), takes rfl (by decide),
    takes rfl (by decide), by decide, by decide, takes rfl (by decide), rfl, takes rfl (by decide), by decide⟩

/-! ### Upstream -/

theorem witness_UpstreamReports :
    Takes .T 0x70 (tributary []) ∧ ¬ 1 ≤ 0 ∧ (65535 ≤ 65535 ∧ 7 ≤ 7 ∧ (15000 : Int) ≤ 15000 ∧ 3 ≤ 3) ∧
    (at' (tributary []).upstream.classMap 7 = some 3 ∧
      (tributary []).upstream.find? 40000 = some 0 ∧ (entryAt (tributary []) 0).last = none ∧
      (entryAt (tributary []) 0).travel ≠ 0 ∧ (entryAt (tributary []) 0).queue.length < 4) ∧
    ((tributary []).upstream.find? 6000 = none ∧ (tributary []).upstream.hash.getLsbD (hashBin 6000) = false) ∧
    ((tributary []).upstream.find? 5000 = none ∧ (tributary []).upstream.hash.getLsbD (hashBin 5000) = true) ∧
    at' { (tributary []).upstream with classMap := Vector.replicate 8 none }.classMap 4 = none ∧
    ((entryAt (withEntry { address := 9, last := some ⟨100, 0, 0, 0, 0⟩ }) 0).last = some ⟨100, 0, 0, 0, 0⟩ ∧
      100 ≤ 100 ∧ 100 < 101 ∧ (entryAt (withEntry { address := 9 }) 0).travel = 0) ∧
    4 ≤ (entryAt (tributary (List.replicate 4 ⟨1, 5⟩)) 0).queue.length :=
  ⟨takes rfl (by decide), by decide, by decide, by decide +kernel⟩

theorem witness_UpstreamReports_slots :
    (slot (.upstream 7) true).definition.trigger = .upstream 7 ∧ (slot (.upstream 7) true).armed = true ∧
    (some 7).isSome = true ∧ 7 ≤ 7 ∧ (busy .moving).engine.state ≠ .idle := by decide

/-- An accepted report that takes an UPSTREAM slot of its class from IDLE, and one of a smaller class. -/
theorem witness_UpstreamReports_takes :
    let s := withSlot 0 (slot (.upstream 5) true) { ready with upstream := (tributary []).upstream }
    let t (c : Nat) := answer (.upstreamReport .T ⟨5000, 9, c, 0, 3⟩) s
    let first (c : Nat) :=
      let v := { s with plan := offeredPlan false (some c) s.stage.stilled s.plan }
      v.plan.order.find? (slotAsks v)
    Takes .T 0x70 s ∧ (s.engine.state = .idle ∧ TakeReady (t 5) ∧ first 5 = some 0 ∧
      (t 5).engine.slot = some 0) ∧ (first 4 = none ∧ (t 4).engine.slot = none) := by
  refine ⟨takes rfl (by decide), ⟨?_, ⟨?_, ?_, ?_, ?_, ⟨0, ?_⟩, ⟨1, ?_⟩⟩, ?_⟩, ?_⟩ <;> decide +kernel

theorem witness_HashSet : 65535 < 65536 ∧ Takes .L 0x74 State.reset := ⟨by decide, takes rfl (by decide)⟩

def reported (arrival : Nat) : State :=
  atMs 7200000 (withEntry { address := 9, contribution := 2, last := some ⟨100, 0, 0, 0, arrival⟩ })

theorem witness_UpstreamTable :
    Takes .L 0x73 (reported 0) ∧ (entryAt (reported 0) 0).address = 9 ∧ (entryAt (reported 0) 15).contribution = 0 ∧
    (entryAt (reported 0) 0).contribution ≠ 0 ∧ Takes .L 0x75 (reported 0) ∧
    (10 ≤ 10 ∧ 2880 ≤ 2880 ∧ ¬ 2881 ≤ 2880) ∧
    (0 + 120 * 60000 ≤ nowMs (reported 0) ∧ ¬ 1 + 120 * 60000 ≤ nowMs (reported 1)) ∧
    Takes .L 0x76 (reported 0) ∧ (reported 0).ports.por = false ∧ (entryAt (reported 0) 0).queue = [] ∧
    (entryAt (tributary [⟨0, 5⟩]) 0).queue = ⟨0, 5⟩ :: [] ∧
    (entryAt (tributary []) 0).last = none ∧ (entryAt (reported 0) 0).last ≠ none ∧
    (entryAt (reported 0) 0).stale = false :=
  ⟨takes rfl (by decide), by decide +kernel, by decide +kernel, by decide +kernel, takes rfl (by decide),
    by decide, by decide +kernel, takes rfl (by decide), by decide +kernel⟩

/-- A floor that a delay timer's expiry changes, at which retreat comes into force, and one that it does not. -/
theorem witness_UpstreamTable_floor :
    let s (v : Nat) := { busy .moving with
      upstream := (tributary [⟨v, 5⟩]).upstream
      warning := { (busy .moving).warning with retreatLevel := some 2 } }
    let t (v : Nat) := answer (.delayTimerExpiry 0) (s v)
    ((t 2).upstream.floor ≠ (s 2).upstream.floor ∧ (s 2).warning.retreat = false ∧
      (t 2).warning.retreat = true ∧ (s 2).engine.state.recallable = true) ∧
    (t 0).upstream.floor = (s 0).upstream.floor ∧
    ((t 1).upstream.floor ≠ (s 1).upstream.floor ∧ (t 1).warning.level = 1) := by decide +kernel

/-! ### Lines and notices -/

def general : State := withLine 2 { direction := .output, arm := true } (withLine 3 { latch := true } ready)

theorem witness_LineRequests :
    Takes .T 0x80 general ∧ 1 < 2 ∧ Takes .L 0x83 general ∧ (at' (Vector.replicate 16 2) 15 > 1) ∧
    (∀ i, i < 16 → at' (Vector.replicate 16 1) i ≤ 1) ∧
    ((lineAt general 2).function = .general ∧ (lineAt general 2).direction = .output ∧
      (lineAt (answer (.writeLines .L 4 (Vector.replicate 16 0)) general) 2).latch ≠ (lineAt general 2).latch) ∧
    Takes .L 0x82 general ∧ firstFault (lineFieldsInRange { lineArgs with line := 16 }) = some 0 ∧
    firstFault (lineFieldsInRange { lineArgs with line := 15 }) = none ∧
    lineFunctionOf lineArgs.function lineArgs.output = some .meterIn ∧
    ((List.range 16).filter fun i => i != 15 && (lineAt general i).function == .meterIn) = [0] ∧
    ((List.range 16).filter fun i => i != 0 && (lineAt ready i).function == .meterIn) = [] ∧
    ((busy .moving).plan.activeSlot ≠ none ∧ (lineAt (busy .moving) 0).function = .meterIn) ∧
    (lineFunctionOf 3 0 = some .limitIn ∧ polarityOf 1 = some (lineAt ready 4).pin ∧
      (lineAt ready 4).function ≠ .limitIn) :=
  ⟨takes rfl (by decide), by decide, takes rfl (by decide), by decide, by decide, by decide +kernel,
    takes rfl (by decide), by decide +kernel⟩

/-- CONFIGURE_LINE with an idle engine and a slot that asks or none, with a tripped one, and the passages that
trip: a new LIMIT_IN, a new polarity, and a pin that the pull-up moves. -/
theorem witness_LineRequests_takes :
    let asked := withSlot 0 { slotAt ready 0 with request := true } ready
    let t (s : State) := answer (.configureLine .L ⟨4, 0, 0, 0, 0, 1, 1⟩) s
    let limit (p : Level) := withLine 4 { function := .limitIn, polarity := p } ready
    let pulled := answer (.configureLine .L ⟨4, 3, 0, 0, 0, 0, 1⟩) (limit .low)
    (asked.engine.state = .idle ∧ asked.plan.order.find? (slotAsks asked) = some 0 ∧
      ready.plan.order.find? (slotAsks ready) = none ∧ TakeReady (t asked)) ∧
    (¬ TakeReady (t { asked with stage := { asked.stage with status := .lost } })) ∧
    ((t trippedState).engine.state = .tripped ∧ trippedState.engine.state = .tripped) ∧
    ((lineAt (limit .high) 4).polarity ≠ (lineAt (limit .high) 4).pin ∧
      polarityOf 1 = some (lineAt (limit .high) 4).pin) ∧
    (polarityOf 0 = some (lineAt pulled 4).pin ∧ (lineAt pulled 4).pin ≠ (lineAt (limit .low) 4).pin) := by
  refine ⟨⟨rfl, by decide +kernel, by decide +kernel, ?_⟩, ?_, by decide +kernel, by decide +kernel, by decide +kernel⟩
  · exact ⟨by decide +kernel, by decide +kernel, by decide +kernel, by decide +kernel,
      ⟨0, by decide +kernel⟩, ⟨1, by decide +kernel⟩⟩
  · exact fun h => absurd (by decide +kernel) h.2.2.2.1

/-- Section 9.2: a pull-up that is set takes an open pin high, and the pin change is taken under the new
configuration: an ACK_IN line silences, an armed line is marked. -/
theorem test_pull_up :
    let s := withWarning (unit 1 30 .stopped)
    let t := answer (.configureLine .L ⟨4, 4, 0, 0, 0, 0, 0⟩) s
    let u := answer (.configureLine .L ⟨4, 4, 0, 0, 0, 0, 0⟩) (withLine 4 { forced := some .low } s)
    (lineAt t 4).pin = .high ∧ t.warning.silence = true ∧ (lineAt t 4).changed = true ∧
    (lineAt u 4).pin = .low ∧ u.warning.silence = false := by decide +kernel

theorem witness_LineRequests_pins :
    (lineAt ready 4).forced = none ∧ (lineAt ready 4).pullUp = false ∧
    (lineAt (withLine 4 { direction := .output, forced := some .high } ready) 4).forced = some .high ∧
    (withLine 4 { direction := .output } ready).lines.drive { direction := .output } ≠ none ∧
    ((lineAt ready 4).direction = .input ∧ directionOf 1 = some .output) ∧
    ((lineAt ready 4).pin = (lineAt (answer (.configureLine .L ⟨4, 0, 0, 0, 0, 1, 1⟩) ready) 4).pin ∧
      (answer (.configureLine .L ⟨4, 0, 0, 0, 0, 1, 1⟩) ready).engine.state = ready.engine.state) := by
  decide +kernel

/-- CONFIGURE_LINE during a run: the METER_IN line unchanged; its pull-up taking its open pin high, which is a
pulse of the count; and a line that becomes LIMIT_IN with its pin active, under the engine's invariant. -/
theorem witness_LineRequests_running :
    let s := busy .counting
    let kept := answer (.configureLine .L ⟨0, 1, 0, 0, 0, 1, 1⟩) s
    let pulled := answer (.configureLine .L ⟨0, 1, 0, 0, 0, 0, 1⟩) s
    let limit := answer (.configureLine .L ⟨4, 3, 0, 0, 0, 0, 1⟩) s
    (Takes .L 0x82 s ∧ EngineInv s ∧ s.engine.state ≠ .idle) ∧
    ((lineAt kept 0).pin = (lineAt s 0).pin ∧ kept.engine.state ≠ .tripped) ∧
    ((lineAt pulled 0).direction = .input ∧ (lineAt pulled 0).pin ≠ (lineAt s 0).pin ∧
      pulled.engine.point.pulses = s.engine.point.pulses + 1) ∧
    (limit.engine.trip = .limit 4 ∧ s.engine.state ≠ .tripped) :=
  ⟨⟨takes rfl (by decide), busy_inv _ rfl, by decide⟩, by decide +kernel⟩

/-- CONFIGURE_LINE of an output and of an unarmed input with the engine as it was, of an ACK_IN line in a run, and
one whose pin change a pass takes; a LIMIT_IN line that trips with no pass open. -/
theorem witness_LineRequests_notices :
    let t (a : LineArgs) (s : State) := answer (.configureLine .L a) s
    let ack := withLine 4 { pin := .low } (busy .moving)
    let pulse := t ⟨0, 1, 0, 0, 0, 0, 1⟩ (busy .counting)
    ((lineAt (t ⟨4, 6, 0, 0, 0, 0, 0⟩ ready) 4).direction = .output ∧
      (t ⟨4, 6, 0, 0, 0, 0, 0⟩ ready).engine.state = ready.engine.state) ∧
    ((lineAt (t ⟨4, 0, 0, 0, 0, 0, 1⟩ ready) 4).direction = .input ∧
      (lineAt (t ⟨4, 0, 0, 0, 0, 0, 1⟩ ready) 4).arm = false) ∧
    (ack.engine.state ≠ .idle ∧ lineFunctionOf 4 0 = some .ackIn ∧
      (t ⟨4, 4, 0, 0, 0, 0, 0⟩ ack).engine = ack.engine) ∧
    ((busy .counting).engine.state ≠ .idle ∧ (lineAt pulse 0).pin ≠ (lineAt (busy .counting) 0).pin) ∧
    ready.engine.passOpen = false := by decide +kernel

/-- The directions that a function fixes, and an output that takes its drive. -/
theorem witness_LineRequests_directions :
    (∀ fn, fn ∈ [1, 2, 3, 4, 5, 6] →
      firstFault (lineFieldsInRange ⟨4, fn, 0, 0, 0, 0, 1⟩) = none ∧
      (lineAt (withLine 4 { direction := if fn ≤ 4 then .output else .input } State.reset) 4).function = .general ∧
      (lineAt (answer (.configureLine .L ⟨4, fn, 0, 0, 0, 0, 1⟩)
        (withLine 4 { direction := if fn ≤ 4 then .output else .input } State.reset)) 4).direction =
          (if fn ≤ 4 then .input else .output)) ∧
    (let s := withLine 4 { direction := .output, latch := true, pin := .high } State.reset
     let t := answer (.configureLine .L ⟨4, 6, 0, 0, 0, 0, 1⟩) s
     t.lines.drive (lineAt t 4) = some .low ∧ s.lines.drive (lineAt s 4) = some .high ∧
      (lineAt t 4).pin = .low) := by
  decide +kernel

/-- A count under sense LEVEL with a SETTLED_IN line 2 whose pin is at a level. -/
def watched (pin : Level) (paused wait : Bool) : State :=
  let s := withLine 2 { function := .settledIn, pin := pin } (sensing 1 .level 5 .counting)
  { s with engine := { s.engine with
      point := { s.engine.point with paused := paused, restartWait := wait }
      countTimer := if paused then .held 1 else .running 5000 } }

/-- The outside forces a level on an input, or leaves open one with a pull-up, or one without; and an output
takes its own level. -/
theorem witness_PinChanges_levels :
    TakesLevel 15 (some .high) .high ready ∧ TakesLevel 15 none .low ready ∧
    TakesLevel 4 none .high (withLine 4 { pullUp := true } ready) ∧
    TakesLevel 1 (some .high) .high trippedState ∧ TakesLevel 1 (some .high) .low ready := by
  refine ⟨?_, ?_, ?_, ?_, by decide +kernel, fun h => absurd (by decide +kernel) h⟩ <;>
    exact ⟨by decide +kernel, fun _ => ⟨fun v h => by cases h <;> rfl, by decide +kernel, by decide +kernel⟩⟩

theorem witness_PinChanges :
    (lineAt ready 15).pin = .low ∧ ready.ports.por = false ∧ (lineAt ready 0).pin ≠ .high ∧
    (lineAt ready 0).direction = .input ∧ (lineAt ready 0).arm = false ∧
    ((lineAt ready 1).direction = .output ∧ (lineAt ready 1).function = .permitOut ∧
      (lineAt ready 1).pin ≠ .high) ∧
    (lineAt (withLine 4 { arm := true } ready) 4).arm = true ∧ (lineAt ready 15).function = .general ∧
    ((lineAt (busy .counting) 0).function = .meterIn ∧ Level.high = (lineAt (busy .counting) 0).polarity ∧
      (busy .counting).engine.state = .counting ∧ (busy .counting).lines.permit ≠ .withdrawn ∧
      (busy .counting).engine.point.paused = false ∧ (busy .counting).engine.point.restartWait = false) ∧
    ((lineAt ready 0).function = .meterIn ∧ ready.engine.state ≠ .counting) ∧
    ((lineAt (withLine 4 { function := .limitIn } ready) 4).function = .limitIn ∧ ready.engine.state ≠ .tripped) ∧
    ((lineAt (withLine 4 { function := .ackIn } (withWarning (unit 1 30 .stopped))) 4).function = .ackIn ∧
      1 ≤ (withWarning (unit 1 30 .stopped)).warning.level) ∧
    ((lineAt (watched .high false false) 2).function = .settledIn ∧
      (watched .high false false).engine.state = .counting ∧
      (activeDefinition (watched .high false false)).settledSense = .level ∧
      (watched .high false false).engine.countTimer = .running 5000 ∧
      (watched .high false false).engine.pauseTimer = .stopped) ∧
    ((watched .low true false).engine.countTimer = .held 1 ∧ (lineAt (watched .low true false) 2).pin ≠ .high) ∧
    (watched .low true true).engine.point.restartWait = true := by decide +kernel

/-- A pause after the first of a point, with pause time left and without, and a resume with nothing left to
count. -/
theorem witness_PinChanges_pauses :
    let again (left : Nat) : State :=
      let s := watched .high false false
      { s with engine := { s.engine with pauseTimer := .held left } }
    let spent : State :=
      let s := watched .low true false
      { s with engine := { s.engine with countTimer := .held 0 } }
    (∀ left, left ∈ [0, 1, 5000] →
      (lineAt (again left) 2).function = .settledIn ∧ (again left).engine.point.paused = false ∧
      (again left).engine.point.restartWait = false ∧ (again left).engine.countTimer = .running 5000 ∧
      (again left).engine.pauseTimer = .held left ∧ (activeDefinition (again left)).pauseLimit ≠ 0 ∧
      (answer (.linePinChange 2 (some .low)) (again left)).engine.point.restartWait = decide (left = 0)) ∧
    (spent.engine.point.paused = true ∧ spent.engine.countTimer = .held 0 ∧
      spent.engine.point.restartWait = false ∧
      (answer (.linePinChange 2 (some .high)) spent).engine.countTimer = .stopped) := by decide +kernel

/-- The passages that change nothing: an ACK_IN activation at CALM, a LIMIT_IN activation of a tripped engine, a
SETTLED_IN activation of a point neither paused nor waiting, and a SETTLED_IN passage to inactive of one already
paused, or waiting. -/
theorem witness_PinChanges_nothing :
    (let s := withLine 4 { function := .ackIn } State.reset
     s.ports.por = false ∧ (lineAt s 4).pin ≠ .high ∧ (lineAt s 4).polarity = .high ∧ s.warning.level = 0 ∧
      TakesLevel 4 (some .high) .high s) ∧
    (let s := withLine 4 { function := .limitIn } trippedState
     (lineAt s 4).pin ≠ .high ∧ (lineAt s 4).polarity = .high ∧ s.engine.state = .tripped) ∧
    ((watched .low false false).engine.state = .counting ∧ (lineAt (watched .low false false) 2).pin ≠ .high ∧
      (watched .low false false).engine.point.paused = false) ∧
    ((watched .high true false).engine.point.paused = true ∧ (lineAt (watched .high true false) 2).pin ≠ .low) ∧
    (watched .high false true).engine.point.restartWait = true := by
  refine ⟨⟨rfl, by decide +kernel, rfl, rfl, by decide +kernel, fun _ =>
    ⟨fun v h => by cases h; rfl, by decide +kernel, by decide +kernel⟩⟩, by decide +kernel⟩

/-- A limit opens in a run, and with the engine idle, under the engine's invariant; the PERMIT_OUT line presents
something else to its pin then, and the METER_IN line does not. -/
theorem witness_PinChanges_trips :
    let limit : State → State := withLine 4 { function := .limitIn }
    (EngineInv (limit (busy .counting)) ∧ (limit (busy .counting)).engine.state ≠ .tripped ∧
      (limit (busy .counting)).engine.state ≠ .idle ∧ (limit (busy .counting)).engine.passOpen = true) ∧
    (EngineInv (limit ready) ∧ (limit ready).engine.state = .idle) ∧
    (let s := limit (busy .counting)
     let t := answer (.linePinChange 4 (some .high)) s
     t.lines.presented (lineAt t 1) ≠ s.lines.presented (lineAt s 1) ∧
      t.lines.presented (lineAt t 0) = s.lines.presented (lineAt s 0)) :=
  ⟨⟨by constructor <;> decide, by decide, by decide, rfl⟩, ⟨by constructor <;> decide, rfl⟩, by decide +kernel⟩

/-- Section 9.12, row 4: a limit that opens in a run trips the engine, closes the pass ABORTED and raises PASS_DONE
(12) and RUN_ENDED (13). -/
theorem test_trip_raises :
    let t := answer (.linePinChange 4 (some .high)) (withLine 4 { function := .limitIn } (busy .counting))
    t.engine.state = .tripped ∧ t.lines.permit = .withdrawn ∧
      (t.results.log.getLastD default).cause = .trip ∧
      (t.notices.port.get .L).pendingSet.getLsbD 12 = true ∧
      (t.notices.port.get .L).pendingSet.getLsbD 13 = true := by decide +kernel

theorem ready_notices : NoticeInv ready := by
  intro p
  refine ⟨?_, ?_, ?_, ?_⟩
  · cases p <;> decide
  · intro c k h
    cases c <;> simp [conditionNumbers] at h <;> subst h <;> cases p <;> decide
  · cases p <;> decide
  · cases p <;> decide

theorem witness_NoticeRequests :
    Takes .T 0x90 ready ∧ Takes .T 0x93 ready ∧ 1048576 ≤ (1048576 : BitVec 24).toNat ∧
    (1048575 : BitVec 24).toNat < 1048576 ∧ Takes .T 0x94 ready ∧ 1 < 2 ∧ Takes .L 0x95 ready ∧ 19 < 20 ∧
    8 ≤ (8 : BitVec 8).toNat ∧ 19 ≤ 19 ∧ (7 : BitVec 8).toNat < 8 ∧ NoticeInv ready ∧
    ready.notices.routed 2 .C = true ∧ (7 : BitVec 8).getLsbD (portCode .C) = true ∧
    (3 : BitVec 8).getLsbD (portCode .C) = false :=
  ⟨takes rfl (by decide), takes rfl (by decide), by decide, by decide, takes rfl (by decide), by decide,
    takes rfl (by decide), by decide, by decide, by decide, by decide, ready_notices, by decide, by decide,
    by decide⟩

/-- An event source newly routed to a port. -/
theorem witness_NoticeRequests_event :
    let s : State := { ready with notices := { ready.notices with routes := ready.notices.routes.set 0 3#3 } }
    0 ∉ [2, 7, 10, 11, 14, 18] ∧ s.notices.routed 0 .C = false ∧ NoticeInv s ∧ Takes .L 0x95 s ∧
      (7 : BitVec 8).getLsbD (portCode .C) = true := by
  refine ⟨by decide, by decide, ?_, takes rfl (by decide), by decide⟩
  intro p
  refine ⟨?_, ?_, ?_, ?_⟩
  · cases p <;> decide
  · intro c k h
    cases c <;> simp [conditionNumbers] at h <;> subst h <;> cases p <;> decide
  · cases p <;> decide
  · cases p <;> decide

/-! ### Invariants -/

def sampling : State := { ready with pending := [.stageSample] }

/-- A step at which a command runs. -/
theorem sampling_steps : step sampling = .next (answer .stageSample ready) := rfl

theorem witness_NoticesKept :
    NoticeInv sampling ∧ step sampling = .next (answer .stageSample ready) :=
  ⟨ready_notices, sampling_steps⟩

theorem witness_EngineKept :
    EngineInv sampling ∧ step sampling = .next (answer .stageSample ready) :=
  ⟨by constructor <;> decide, sampling_steps⟩

theorem witness_RetreatKept :
    RetreatInv sampling ∧ step sampling = .next (answer .stageSample ready) :=
  ⟨by intro h; exact .inl rfl, sampling_steps⟩

theorem witness_UpstreamKept :
    UpstreamInv sampling ∧ sampling.clock.uptime < 4294967295 ∧
    step sampling = .next (answer .stageSample ready) :=
  ⟨⟨by decide, fun e he => by
      rw [show e = {} from by simpa [sampling, ready, State.reset] using he]
      constructor <;> decide, by decide +kernel, by decide +kernel, rfl⟩, by decide, sampling_steps⟩

theorem witness_WarningKept :
    WarningInv sampling ∧ UpstreamInv sampling ∧ step sampling = .next (answer .stageSample ready) :=
  ⟨⟨by decide, by decide, by decide, by decide, by decide +kernel, by decide +kernel, rfl⟩,
    witness_UpstreamKept.1, sampling_steps⟩

theorem witness_StoresKept :
    StoreInv sampling ∧ step sampling = .next (answer .stageSample ready) :=
  ⟨⟨by decide, by decide, by decide, by decide, by decide, by decide, List.Perm.refl _,
    fun k h => (by cases h), by decide +kernel, .inl rfl, by decide, by decide⟩, sampling_steps⟩

end Sys2Proof.Tests
end

section
/-! SUPPORT. A refusal code leaves the part as it was (R2), said once of a release of chip select, and then of
the owner of each request. -/

namespace Sys2Proof.Machine

/-! ## Replies that are no refusal -/

@[simp] theorem isRefusal_okReply (data : List Byte) : (okReply data).status.isRefusal = false := rfl

@[simp] theorem isRefusal_emptyReply (data : List Byte) : (emptyReply data).status.isRefusal = false := rfl

/-- READ_HISTORY in range answers OK or EMPTY (R32). -/
@[simp] theorem isRefusal_historyReply (h : HistoryStore) (cursor maximum after : Nat) :
    (historyReply h cursor maximum after).status.isRefusal = false := by
  simp only [historyReply]
  split <;> rfl

/-- A report in range is answered OK, whatever its disposition (R162, R168, R169). -/
@[simp] theorem isRefusal_takeReport (a : ReportArgs) (s : State) :
    (takeReport a s).2.status.isRefusal = false := by
  unfold takeReport
  split <;> rfl

/-! ## The buffer after a release of chip select (R201, R203) -/

/-- The reply that a buffer holds, put there again, changes nothing. -/
theorem setReply_of_bufferOf {p : Port} {r : Reply} {s : State} (h : bufferOf p s = some r) :
    setReply p r s = s := by
  cases p <;> simp only [setReply, setPort, bufferOf, PerPort.get] at h ⊢ <;> rw [← h] <;> rfl

theorem startOver_ports (s : State) : (startOver s).ports = s.ports := startOver_keeps s .ports (by decide)

theorem endByReset_ports (s : State) : (endByReset s).ports = s.ports := by
  unfold endByReset
  split
  · calc (endRun .reset (enter .idle (closeIfOpen .reset (stopTimers s)))).ports
      _ = (enter .idle (closeIfOpen .reset (stopTimers s))).ports := endRun_keeps _ _ .ports (by decide)
      _ = (closeIfOpen .reset (stopTimers s)).ports := enter_keeps _ _ .ports (by decide)
      _ = (stopTimers s).ports := closeIfOpen_keeps _ _ .ports (by decide)
      _ = s.ports := stopTimers_ports s
  · rfl

/-- A station reset leaves the ports as its first part does: no later part touches them (R205). -/
theorem stationReset_ports (s : State) : (stationReset s).ports = (resetPorts s).ports := by
  simp only [stationReset, restoreNotices, startOver_ports, restartSample_ports, stopDwell, endByReset_ports,
    disarmAll, clearLatches, clearNotices]

@[simp] theorem bufferOf_stationReset (p : Port) (s : State) : bufferOf p (stationReset s) = none := by
  simp [bufferOf, stationReset_ports, resetPorts, PortState.atReset]

/-! ## A refusal changes nothing (R2) -/

/-- An owner's answer to a request in t: with a refusal code comes t as it was. -/
def KeepsIfRefused (t : State) (answer : State × Reply) : Prop :=
  answer.2.status.isRefusal = true → answer.1 = t

theorem KeepsIfRefused.same {t : State} {r : Reply} : KeepsIfRefused t (t, r) := fun _ => rfl

theorem KeepsIfRefused.of_not_refusal {t : State} {answer : State × Reply}
    (h : answer.2.status.isRefusal = false) : KeepsIfRefused t answer := fun hr => by simp [h] at hr

theorem KeepsIfRefused.ok {t u : State} {data : List Byte} : KeepsIfRefused t (u, okReply data) :=
  .of_not_refusal rfl

theorem KeepsIfRefused.ite {t : State} {c : Prop} [Decidable c] {a b : State × Reply}
    (ha : KeepsIfRefused t a) (hb : KeepsIfRefused t b) : KeepsIfRefused t (if c then a else b) := by
  split <;> assumption

/-- A release on port p has led from s to t, and where a refusal code stands in the port's buffer, that buffer and
the closed window are all that t has new. -/
def ReleaseKeeps (p : Port) (s t : State) : Prop :=
  ∀ r, bufferOf p t = some r → r.status.isRefusal = true → t = setReply p r (closeWindow p s)

/-- A release that makes no reply: the buffer still holds what it held. -/
theorem releaseKeeps_closeWindow (p : Port) (s : State) : ReleaseKeeps p s (closeWindow p s) :=
  fun _ hr _ => (setReply_of_bufferOf hr).symm

theorem releaseKeeps_setReply (p : Port) (r : Reply) (s : State) :
    ReleaseKeeps p s (setReply p r (closeWindow p s)) := by
  intro r' hr _
  rw [bufferOf_setReply, Option.some.injEq] at hr
  rw [hr]

theorem releaseKeeps_request (code : Nat) (p : Port) (s : State) {owner : State → State × Reply}
    (h : ∀ t, KeepsIfRefused t (owner t)) : ReleaseKeeps p s (request code p s owner) := by
  obtain ⟨-, hreq⟩ | ⟨-, hreq⟩ | ⟨-, -, hreq⟩ := request_cases code p s owner
  · rw [hreq]
    exact releaseKeeps_closeWindow p s
  · intro r hr hrefusal
    rw [hreq, bufferOf_setReply, Option.some.injEq] at hr
    subst hr
    rw [hreq, h _ hrefusal]
  · rw [hreq]
    exact releaseKeeps_setReply p _ s

/-- A station reset leaves no reply, so none that refuses. -/
theorem releaseKeeps_stationReset (p : Port) (s u : State) : ReleaseKeeps p s (stationReset u) := by
  intro r hr
  simp at hr

/-- A command of a port whose every release keeps the part when it refuses (R2). -/
def RefusesCleanly (i : Instr) : Prop :=
  ∀ p s t, i.port? = some p → exec i s = .next t → ReleaseKeeps p s t

theorem RefusesCleanly.of_release {i : Instr} {p : Port} {after : State → State} (hp : i.port? = some p)
    (he : ∀ s, exec i s = .next (after s)) (h : ∀ s, ReleaseKeeps p s (after s)) : RefusesCleanly i := by
  intro q s t hq ht
  rw [hp, Option.some.injEq] at hq
  rw [he, Host.Outcome.next.injEq] at ht
  subst hq ht
  exact h s

theorem RefusesCleanly.of_request {i : Instr} {p : Port} {code : Nat} {owner : State → State × Reply}
    (hp : i.port? = some p) (he : ∀ s, exec i s = .next (request code p s owner))
    (h : ∀ t, KeepsIfRefused t (owner t)) : RefusesCleanly i :=
  .of_release hp he fun s => releaseKeeps_request code p s h

theorem RefusesCleanly.of_read {i : Instr} {p : Port} {code : Nat} {reply : State → Reply}
    (hp : i.port? = some p) (he : ∀ s, exec i s = .next (readRequest code p s reply)) : RefusesCleanly i :=
  .of_request hp he fun _ => .same

theorem RefusesCleanly.of_no_port {i : Instr} (h : i.port? = none) : RefusesCleanly i := by
  intro p s t hp
  simp [h] at hp

/-! ## The requests -/

theorem checkGauge_refusesCleanly (p : Port) (channel : Nat) (reading : Int) :
    RefusesCleanly (.checkGauge p channel reading) :=
  .of_request rfl (fun _ => rfl) fun _ => by
    split
    · exact .same
    · refine .ite .same ?_
      split
      · exact .same
      · exact .ite .same .ok

theorem readHistory_refusesCleanly (p : Port) (maximum advance : Nat) :
    RefusesCleanly (.readHistory p maximum advance) :=
  .of_request rfl (fun _ => rfl) fun _ => by
    split
    · exact .same
    · exact .ite .same (.of_not_refusal (isRefusal_historyReply ..))

theorem writeVertical_refusesCleanly (p : Port) (index : Nat) (a : VerticalArgs) :
    RefusesCleanly (.writeVertical p index a) :=
  .of_request rfl (fun _ => rfl) fun _ => by
    split
    · exact .ite .same .ok
    · exact .same

theorem defineSlot_refusesCleanly (p : Port) (slot : Nat) (a : SlotArgs) :
    RefusesCleanly (.defineSlot p slot a) :=
  .of_request rfl (fun _ => rfl) fun _ => by
    split
    · split
      · exact .same
      · exact .ok
    · exact .same

theorem armSlot_refusesCleanly (p : Port) (slot : Nat) : RefusesCleanly (.armSlot p slot) :=
  .of_request rfl (fun _ => rfl) fun _ => by
    refine .ite .same ?_
    split
    · exact .same
    · exact .ok

theorem positionReached_refusesCleanly (p : Port) (reported : Nat) (sounded : Option Nat) :
    RefusesCleanly (.positionReached p reported sounded) :=
  .of_request rfl (fun _ => rfl) fun _ => by
    refine .ite .same (.ite ?_ .same)
    split
    · exact .same
    · exact .ok

theorem homeReached_refusesCleanly (p : Port) : RefusesCleanly (.homeReached p) :=
  .of_request rfl (fun _ => rfl) fun _ => by
    split
    · exact .ok
    · exact .ok
    · exact .same

theorem setLevelCriteria_refusesCleanly (p : Port) (a : CriteriaArgs) :
    RefusesCleanly (.setLevelCriteria p a) :=
  .of_request rfl (fun _ => rfl) fun _ => by
    split
    · exact .same
    · exact .same
    · exact .ok

theorem setRetreat_refusesCleanly (p : Port) (stage : Option Int) (level : RetreatLevelArg) :
    RefusesCleanly (.setRetreat p stage level) :=
  .of_request rfl (fun _ => rfl) fun _ => by
    split
    · exact .same
    · exact .ite .ok .same

theorem setWarningOutput_refusesCleanly (p : Port) (output showLevel kind : Nat) :
    RefusesCleanly (.setWarningOutput p output showLevel kind) :=
  .of_request rfl (fun _ => rfl) fun _ => by
    split
    · exact .same
    · exact .ite .ok .same

theorem setUpstreamFilter_refusesCleanly (p : Port) (a : FilterArgs) :
    RefusesCleanly (.setUpstreamFilter p a) :=
  .of_request rfl (fun _ => rfl) fun _ => by
    split
    · exact .ite .ok .same
    · exact .same

theorem configureLine_refusesCleanly (p : Port) (a : LineArgs) : RefusesCleanly (.configureLine p a) :=
  .of_request rfl (fun _ => rfl) fun _ => by
    split
    · split
      · exact .same
      · exact .ok
    · exact .same

theorem setAttention_refusesCleanly (p : Port) (master oneShot : Nat) :
    RefusesCleanly (.setAttention p master oneShot) :=
  .of_request rfl (fun _ => rfl) fun _ => by
    split
    · exact .ok
    · exact .same

theorem stationReset_refusesCleanly (p : Port) : RefusesCleanly (.stationReset p) :=
  .of_release rfl (fun _ => rfl) fun s => by
    split
    · exact releaseKeeps_closeWindow p s
    · split
      · exact releaseKeeps_stationReset p s _
      · exact releaseKeeps_setReply p _ s

theorem badFrame_refusesCleanly (p : Port) (f : FrameFault) : RefusesCleanly (.badFrame p f) :=
  .of_release rfl (fun _ => rfl) fun s => by
    split
    · exact releaseKeeps_closeWindow p s
    · exact releaseKeeps_setReply p _ s

/-- Every command but the opening of a window, which answers nothing. The commands stand by the shape of their
owner's answer. -/
theorem refusesCleanly : ∀ i : Instr, (∀ p, i ≠ .windowOpen p) → RefusesCleanly i
  -- no request: the window closes, and the buffer is as it was
  | .readReply p, _ | .discardedWindow p, _ =>
    .of_release rfl (fun _ => rfl) (releaseKeeps_closeWindow p)
  -- reads
  | .readClock _, _ | .readStage _, _ | .readStageConfig _, _ | .readHistoryState _, _ | .readRating _, _
  | .rateStage _ _, _ | .rateDischarge _ _, _ | .readStaged _, _ | .readVertical _ _, _ | .readMeter _ _, _
  | .readSlot _ _, _ | .readSlotState _, _ | .getTarget _, _ | .readRunState _, _ | .readResult _ _, _
  | .readPass _, _ | .readPassVertical _ _, _ | .readWarning _, _ | .readUpstreamEntry _ _, _
  | .readUpstreamState _, _ | .readLineConfig _, _ | .peekNotices _, _ | .readNoticeRoutes _, _ =>
    .of_read rfl fun _ => rfl
  -- answered OK whenever taken
  | .clearStaged _, _ | .carriageFault _ _, _ | .resetEngine _, _ | .silence _, _ | .setHash _ _, _
  | .clearUpstreamCounters _, _ | .fetchNotices _, _ =>
    .of_request rfl (fun _ => rfl) fun _ => .ok
  -- one check, which refuses where it holds
  | .setClock _ _, _ | .setHistoryThreshold _ _, _ | .overrideOn _ _, _ | .overrideOff _ _, _
  | .overrideAuto _ _, _ =>
    .of_request rfl (fun _ => rfl) fun _ => .ite .same .ok
  -- one check, which refuses where it fails
  | .setHistoryInterval _ _, _ | .writeStagedPoint _ _ _ _, _ | .setShift _ _, _
  | .setExtrapolationLimit _ _, _ | .disarmSlot _ _, _ | .clearRequest _ _, _ | .depthReached _, _
  | .proceed _, _ | .cancelRun _, _ | .clearTrip _, _ | .setUpstreamEntry _ _ _ _ _, _ | .writeLines _ _ _, _
  | .setNoticeEnable _ _, _ | .setRoute _ _ _, _ =>
    .of_request rfl (fun _ => rfl) fun _ => .ite .ok .same
  | .upstreamReport _ _, _ =>
    .of_request rfl (fun _ => rfl) fun _ => .ite (.of_not_refusal (isRefusal_takeReport ..)) .same
  -- two checks
  | .clearVertical _ _, _ | .writeMeter _ _ _, _ =>
    .of_request rfl (fun _ => rfl) fun _ => .ite .same (.ite .same .ok)
  | .startRun _ _, _ => .of_request rfl (fun _ => rfl) fun _ => .ite .same (.ite .ok .same)
  -- one field read, refused where it has no meaning
  | .configureStage _ _, _ | .seekHistory _ _, _ | .installRating _, _ | .setSlotPriority _ _, _
  | .readLines _ _, _ =>
    .of_request rfl (fun _ => rfl) fun _ => by
      split
      · exact .same
      · exact .ok
  -- checks of several kinds
  | .checkGauge p channel reading, _ => checkGauge_refusesCleanly p channel reading
  | .readHistory p maximum advance, _ => readHistory_refusesCleanly p maximum advance
  | .writeVertical p index a, _ => writeVertical_refusesCleanly p index a
  | .defineSlot p slot a, _ => defineSlot_refusesCleanly p slot a
  | .armSlot p slot, _ => armSlot_refusesCleanly p slot
  | .positionReached p reported sounded, _ => positionReached_refusesCleanly p reported sounded
  | .homeReached p, _ => homeReached_refusesCleanly p
  | .setLevelCriteria p a, _ => setLevelCriteria_refusesCleanly p a
  | .setRetreat p stage level, _ => setRetreat_refusesCleanly p stage level
  | .setWarningOutput p output showLevel kind, _ => setWarningOutput_refusesCleanly p output showLevel kind
  | .setUpstreamFilter p a, _ => setUpstreamFilter_refusesCleanly p a
  | .configureLine p a, _ => configureLine_refusesCleanly p a
  | .setAttention p master oneShot, _ => setAttention_refusesCleanly p master oneShot
  | .stationReset p, _ => stationReset_refusesCleanly p
  | .badFrame p f, _ => badFrame_refusesCleanly p f
  | .windowOpen p, hopen => absurd rfl (hopen p)
  -- events, which come from no port
  | .resetNActivation, _ | .resetNRelease, _ | .porAssert, _ | .porRelease, _ | .encoderPhaseChange _ _, _
  | .pPulse _, _ | .stationClockAdvance, _ | .stageSample, _ | .moveTimerExpiry, _ | .settleTimerExpiry, _
  | .countTimerExpiry, _ | .pauseTimerExpiry, _ | .homeTimerExpiry, _ | .dwellTimerExpiry, _
  | .intervalTimerExpiry _, _ | .delayTimerExpiry _, _ | .staleTimerExpiry _, _ | .linePinChange _ _, _
  | .uptimeAdvance, _ => .of_no_port rfl

/-- Settles O5: each command's owner answers a refusal code with the part as it was, and a release without a reply
keeps what the buffer held. -/
theorem refusalsChangeNothing : Obligations.RefusalsChangeNothing := by
  intro i p r s t hp hopen he hr hrefusal
  have hother (q : Port) : i ≠ .windowOpen q := by
    rintro rfl
    exact hopen (congrArg Instr.windowOpen (Option.some.inj hp))
  exact refusesCleanly i hother p s t hp he r hr hrefusal

end Sys2Proof.Machine
end

section
/-! SUPPORT. Rounding and clamping (R1). The rounded quotient is odd in its dividend, so that what it is for a
whole number of either sign follows from what it is for one that is not negative. -/

namespace Sys2Proof.Machine

/-! ## The rounded quotient -/

theorem roundDiv_natCast (n b : Nat) : roundDiv n b = ((2 * n + b) / (2 * b) : Nat) := by
  simp [roundDiv]

/-- Exact halves go away from zero on either side of it. -/
theorem roundDiv_neg (a : Int) {b : Nat} (hb : 0 < b) : roundDiv (-a) b = -roundDiv a b := by
  have hzero : b / (2 * b) = 0 := Nat.div_eq_of_lt (by omega)
  obtain h | rfl | h := lt_trichotomy a 0
  · simp [roundDiv, h.le, h.not_ge]
  · simp [roundDiv, hzero]
  · simp [roundDiv, h.le, h.not_ge]

/-- The quotient q is the nearest to n / b, and of two equally near the greater. -/
theorem half_quotient_bounds (n : Nat) {b : Nat} (hb : 0 < b) :
    2 * n ≤ 2 * ((2 * n + b) / (2 * b) * b) + b - 1 ∧ 2 * ((2 * n + b) / (2 * b) * b) ≤ 2 * n + b := by
  have hle := Nat.div_mul_le_self (2 * n + b) (2 * b)
  have hlt := Nat.lt_div_mul_add (a := 2 * n + b) (b := 2 * b) (by omega)
  have hassoc : (2 * n + b) / (2 * b) * (2 * b) = 2 * ((2 * n + b) / (2 * b) * b) := by ring
  omega

/-- R1's rounding of a whole number that is not negative. -/
theorem roundDiv_natCast_nearest (n : Nat) {b : Nat} (hb : 0 < b) :
    2 * (roundDiv n b * b - n).natAbs ≤ b ∧
    (2 * (roundDiv n b * b - n).natAbs = b → n < (roundDiv n b * b).natAbs) := by
  have hbounds := half_quotient_bounds n hb
  rw [roundDiv_natCast, ← Nat.cast_mul]
  omega

/-- R1's rounding of any whole number. -/
theorem roundDiv_nearest (a : Int) {b : Nat} (hb : 0 < b) :
    2 * (roundDiv a b * b - a).natAbs ≤ b ∧
    (2 * (roundDiv a b * b - a).natAbs = b → a.natAbs < (roundDiv a b * b).natAbs) := by
  obtain ⟨n, rfl | rfl⟩ := a.eq_nat_or_neg
  · exact roundDiv_natCast_nearest n hb
  · have hodd : roundDiv (-n) b * b - -n = -(roundDiv n b * b - n) := by rw [roundDiv_neg _ hb]; ring
    rw [hodd, roundDiv_neg _ hb, neg_mul, Int.natAbs_neg, Int.natAbs_neg, Int.natAbs_neg]
    exact roundDiv_natCast_nearest n hb

/-! ## The clamp -/

theorem clamp_of_lt {lo hi z : Int} (h : z < lo) : clamp lo hi z = lo := by simp [clamp, h]

theorem clamp_of_gt {lo hi z : Int} (hr : lo ≤ hi) (h : hi < z) : clamp lo hi z = hi := by
  simp [clamp, h, (hr.trans_lt h).not_gt]

theorem clamp_of_mem {lo hi z : Int} (hlo : lo ≤ z) (hhi : z ≤ hi) : clamp lo hi z = z := by
  simp [clamp, hlo.not_gt, hhi.not_gt]

/-- Settles O23, by the oddness of the rounded quotient and the three cases of the clamp. -/
theorem roundToNearest : Obligations.RoundToNearest :=
  ⟨fun a _ hb => roundDiv_nearest a hb,
    fun _ _ _ hr => ⟨clamp_of_lt, clamp_of_gt hr, clamp_of_mem⟩⟩

end Sys2Proof.Machine
end

section
/-! SUPPORT. The power-on values (R207 and the reset rules of the chapters). The state right after a power-on reset is
what POR makes of it again, so the values are read from one function. -/

namespace Sys2Proof.Machine

/-! ## What POR makes of a state -/

/-- POR leaves the reset state as it is: it finds no forced level, open window or waiting command in it to keep. -/
theorem powerOn_reset : powerOn false State.reset = State.reset := by
  simp [powerOn, State.reset, PerPort.mapPorts, PortState.atReset]

/-- A state at its power-on values is one that POR makes, at its activation or at its release. -/
theorem exists_eq_powerOn {t : State}
    (h : t = State.reset ∨ (∃ s, exec .porAssert s = .next t) ∨
      ∃ s, s.ports.por = true ∧ exec .porRelease s = .next t) :
    ∃ por s, t = powerOn por s := by
  obtain rfl | ⟨s, hassert⟩ | ⟨s, hpor, hrelease⟩ := h
  · exact ⟨false, State.reset, powerOn_reset.symm⟩
  · exact ⟨true, s, (Host.Outcome.next.inj hassert).symm⟩
  · have hnext : (if s.ports.por then powerOn false s else s) = t := Host.Outcome.next.inj hrelease
    exact ⟨false, s, by rw [← hnext, if_pos hpor]⟩

/-! ## Tables, lines and buffers -/

/-- Every record of a table at reset is the power-on record. -/
theorem eq_of_mem_replicate_toList {α : Type} {n : Nat} {a x : α}
    (h : x ∈ (Vector.replicate n a).toList) : x = a :=
  Vector.eq_of_mem_replicate (Vector.mem_toList_iff.mp h)

/-- A line at POR has its power-on configuration (R186); its forced level and its pin are inputs. -/
theorem powerOn_line_mem {por : Bool} {s : State} {l : FieldLine}
    (h : l ∈ (powerOn por s).lines.line.toList) : ∃ v w, l = { forced := v, pin := w } := by
  obtain ⟨x, -, rfl⟩ : ∃ x ∈ s.lines.line, { forced := x.forced, pin := x.forced.getD x.pin } = l :=
    Vector.mem_map.mp (Vector.mem_toList_iff.mp h)
  exact ⟨_, _, rfl⟩

@[simp] theorem bufferOf_powerOn (p : Port) (por : Bool) (s : State) : bufferOf p (powerOn por s) = none := by
  simp [bufferOf, powerOn, PortState.atReset]

/-! ## The values, block by block -/

/-- Settles O11: the states in question are those that POR makes, and every block of such a state is the initial
block of the model but for the inputs. -/
theorem powerOnValues : Obligations.PowerOnValues := by
  intro t h
  obtain ⟨por, s, rfl⟩ := exists_eq_powerOn h
  refine ⟨?clock, ?stage, ?history, ?rating, ?plan, ?engine, ?results, ?warning, ?upstream, ?lines, ?notices,
    fun p => bufferOf_powerOn p por s⟩
  case plan =>
    refine ⟨fun _ => eq_of_mem_replicate_toList, fun _ => eq_of_mem_replicate_toList,
      fun _ => eq_of_mem_replicate_toList, ?_⟩
    and_intros <;> rfl
  case upstream =>
    exact ⟨fun _ => eq_of_mem_replicate_toList, rfl, rfl, rfl, rfl, fun _ => eq_of_mem_replicate_toList, rfl, rfl⟩
  case lines => exact ⟨fun _ => powerOn_line_mem, rfl, rfl⟩
  case notices => exact ⟨rfl, fun p => by cases p <;> rfl, fun c => by cases c <;> rfl⟩
  all_goals and_intros <;> rfl

end Sys2Proof.Machine
end

section
/-! SUPPORT. The History Store's settings (chapter 2): what new contents of the store make of a port's own
HISTORY_READY, and the state and reply of each request that sets one. -/

namespace Sys2Proof.Machine

/-! ## A port's own HISTORY_READY (R36) -/

/-- A port's HISTORY_READY holds as it was handed (R191). -/
@[simp] theorem handReady_historyReady (p : Port) (v : Bool) (s : State) :
    ((handReady p v s).notices.port.get p).historyReady = v := by
  unfold handReady NoticeUnit.handReady
  dsimp only
  split
  · assumption
  · rw [PerPort.get_set_self]; split <;> rfl

/-- A port's HISTORY_READY is its own: nothing of another port's notices follows it. -/
theorem handReady_port_other {p q : Port} (hq : q ≠ p) (v : Bool) (s : State) :
    (handReady p v s).notices.port.get q = s.notices.port.get q := by
  unfold handReady NoticeUnit.handReady
  dsimp only
  split
  · rfl
  · exact PerPort.get_set_other _ hq _

/-- New contents of the History Store, with a port's HISTORY_READY judged by them: no other notice follows, and
nothing of any other block. -/
theorem judgeReady_withHistory (p : Port) (h : HistoryStore) (s : State) :
    let t := judgeReady p { s with history := h }
    KeepsBut [.history, .notices] s t ∧ t.history = h ∧ NoticesKeptBut [18] s t ∧
      (∀ q, q ≠ p → t.notices.port.get q = s.notices.port.get q) ∧
      (t.notices.port.get p).historyReady = decide (h.thresholds.get p ≤ h.unread (h.cursors.get p)) :=
  ⟨((withHistory_keeps h s).mono (by simp)).trans ((judgeReady_keeps p _).mono (by simp)), rfl,
    (handReady_notified p _ { s with history := h }).kept, fun _ hq => handReady_port_other hq _ _,
    handReady_historyReady p _ _⟩

/-! ## The cursor of a seek (R34) -/

/-- A seek to the oldest record gives its number, or the next one where the ring is empty. -/
theorem seekCursor_oldest {h : HistoryStore} {c : Nat} (hfirst : ∀ r, h.ring.head? = some r → c = r.seq)
    (hempty : h.ring = [] → c = h.nextSeq) : seekCursor h .oldest = some c := by
  cases hring : h.ring with
  | nil => simp [seekCursor, HistoryStore.oldest, hring, hempty hring]
  | cons r rest => simp [seekCursor, HistoryStore.oldest, hring, hfirst r (by simp [hring])]

/-- A seek to a number of the ring gives that number. -/
theorem seekCursor_sequence {h : HistoryStore} {a b n : Nat} (hold : h.oldest = some a)
    (hnew : h.newest = some b) (han : a ≤ n) (hnb : n ≤ b) : seekCursor h (.sequence n) = some n := by
  simp [seekCursor, hold, hnew, han, hnb]

/-- A seek to a number before the ring or beyond it, or in an empty ring, gives no cursor. -/
theorem seekCursor_sequence_none {h : HistoryStore} {n : Nat}
    (hout : h.ring = [] ∨ (∃ r, h.ring.head? = some r ∧ n < r.seq) ∨
      ∃ r, h.ring.getLast? = some r ∧ r.seq < n) : seekCursor h (.sequence n) = none := by
  unfold seekCursor
  dsimp only
  split
  next a b hold hnew =>
    refine if_neg fun ⟨han, hnb⟩ => ?_
    obtain hempty | ⟨r, hr, hlt⟩ | ⟨r, hr, hlt⟩ := hout
    · simp [HistoryStore.oldest, hempty] at hold
    · simp only [HistoryStore.oldest, hr, Option.map_some, Option.some.injEq] at hold
      omega
    · simp only [HistoryStore.newest, hr, Option.map_some, Option.some.injEq] at hnew
      omega
  next => rfl

/-! ## The requests (R34 to R36) -/

section
variable {p : Port} {s : State}

/-- A seek that is taken moves the port's cursor (R34). -/
theorem exec_seekHistory {target : SeekTarget} {c : Nat} (htake : Takes p 0x11 s)
    (hc : seekCursor s.history target = some c) :
    exec (.seekHistory p target) s =
      .next (setReply p ⟨.ok, u32 c ++ u8 (s.history.unread c)⟩ (moveCursor p c (closeWindow p s))) := by
  change execSeekHistory p target s = _
  simp [execSeekHistory, request_taken htake, hc, okReply]

/-- A seek that gives no cursor is refused (R34). -/
theorem seekHistory_refuses {target : SeekTarget} (htake : Takes p 0x11 s)
    (hc : seekCursor s.history target = none) : Refuses (.seekHistory p target) p s ⟨.range, []⟩ := by
  refine ⟨rfl, ?_⟩
  change execSeekHistory p target s = _
  simp [execSeekHistory, request_taken htake, hc, rangeReply]

/-- A threshold in range stands, and the port's HISTORY_READY is judged by it (R36). -/
theorem exec_setHistoryThreshold {n : Nat} (htake : Takes p 0x13 s) (hlow : 1 ≤ n) (hhigh : n ≤ 96) :
    exec (.setHistoryThreshold p n) s =
      .next (setReply p ⟨.ok, u8 (s.history.unread (s.history.cursors.get p))⟩
        (judgeReady p { closeWindow p s with
          history := { s.history with thresholds := s.history.thresholds.set p n } })) := by
  change execSetHistoryThreshold p n s = _
  simp [execSetHistoryThreshold, request_taken htake, within, hlow, hhigh, okReply]

/-- A threshold out of range is refused (R36). -/
theorem setHistoryThreshold_refuses {n : Nat} (htake : Takes p 0x13 s) (hout : n = 0 ∨ 96 < n) :
    Refuses (.setHistoryThreshold p n) p s ⟨.range, []⟩ := by
  have hrange : within 1 96 n = false := decide_eq_false (by omega)
  refine ⟨rfl, ?_⟩
  change execSetHistoryThreshold p n s = _
  simp [execSetHistoryThreshold, request_taken htake, hrange, rangeReply]

theorem mem_intervals {n : Nat} : n ∈ intervals ↔ n = 5 ∨ n = 10 ∨ n = 15 ∨ n = 30 ∨ n = 60 := by
  simp [intervals]

/-- An interval of R35 stands; the reply carries the one it replaces. -/
theorem exec_setHistoryInterval {n : Nat} (htake : Takes p 0x14 s) (hn : n ∈ intervals) :
    exec (.setHistoryInterval p n) s =
      .next (setReply p ⟨.ok, u8 s.history.interval⟩
        { closeWindow p s with history := { s.history with interval := n } }) := by
  change execSetHistoryInterval p n s = _
  simp [execSetHistoryInterval, request_taken htake, hn, okReply]

/-- Any other interval is refused (R35). -/
theorem setHistoryInterval_refuses {n : Nat} (htake : Takes p 0x14 s) (hn : n ∉ intervals) :
    Refuses (.setHistoryInterval p n) p s ⟨.range, []⟩ := by
  refine ⟨rfl, ?_⟩
  change execSetHistoryInterval p n s = _
  simp [execSetHistoryInterval, request_taken htake, hn, rangeReply]

end

/-- Settles O22: a seek and a threshold each put new contents in the store and judge the port's HISTORY_READY by
them, and an interval touches no notice. -/
theorem historySettings : Obligations.HistorySettings := by
  intro p s
  refine ⟨fun htake target c hc => ?seek, fun htake => ?refusedSeek, fun htake n => ?threshold,
    fun htake n => ?interval⟩
  case seek =>
    have hcursor : seekCursor s.history target = some c := by
      obtain ⟨rfl, hfirst, hempty⟩ | ⟨rfl, rfl⟩ | ⟨rfl, a, b, hold, hnew, hac, hcb⟩ := hc
      · exact seekCursor_oldest hfirst hempty
      · rfl
      · exact seekCursor_sequence hold hnew hac hcb
    obtain ⟨hkeeps, hhistory, hnotices, hothers, hready⟩ := judgeReady_withHistory p
      { s.history with cursors := s.history.cursors.set p c } (closeWindow p s)
    rw [PerPort.get_set_self] at hready
    exact ⟨_, exec_seekHistory htake hcursor, hkeeps, hhistory, hnotices, hothers, hready⟩
  case refusedSeek =>
    exact ⟨fun c hout => seekHistory_refuses htake (seekCursor_sequence_none hout),
      fun k => seekHistory_refuses htake rfl⟩
  case threshold =>
    refine ⟨setHistoryThreshold_refuses htake, fun hlow hhigh => ?_⟩
    obtain ⟨hkeeps, hhistory, hnotices, hothers, hready⟩ := judgeReady_withHistory p
      { s.history with thresholds := s.history.thresholds.set p n } (closeWindow p s)
    rw [PerPort.get_set_self] at hready
    exact ⟨_, exec_setHistoryThreshold htake hlow hhigh, hkeeps, hhistory, hnotices, hothers, hready⟩
  case interval =>
    exact ⟨fun hn => exec_setHistoryInterval htake (mem_intervals.mpr hn),
      fun hn => setHistoryInterval_refuses htake (mem_intervals.not.mpr hn)⟩

end Sys2Proof.Machine
end

section
/-! SUPPORT. The staged table (chapter 3): the staged count as the end of the highest index that is written, and the
state and reply of each request that edits the table. -/

namespace Sys2Proof.Machine

/-! ## The staged count (R40) -/

/-- The end of the highest written index below n, or 0. -/
def writtenBelow (staged : Vector (Option Breakpoint) 24) (n : Nat) : Nat :=
  (List.range n).foldl (fun m i => if (at' staged i).isSome then i + 1 else m) 0

theorem stagedCount_eq_writtenBelow (staged : Vector (Option Breakpoint) 24) :
    stagedCount staged = writtenBelow staged 24 := rfl

theorem writtenBelow_succ (staged : Vector (Option Breakpoint) 24) (n : Nat) :
    writtenBelow staged (n + 1) = if (at' staged n).isSome then n + 1 else writtenBelow staged n := by
  simp [writtenBelow, List.range_succ]

/-- Every written index lies below the end of the highest. -/
theorem lt_writtenBelow {staged : Vector (Option Breakpoint) 24} {i n : Nat} (hi : i < n)
    (hwritten : (at' staged i).isSome = true) : i < writtenBelow staged n := by
  induction n with
  | zero => omega
  | succ n ih =>
    rw [writtenBelow_succ]
    split
    case isTrue => exact hi
    case isFalse hempty =>
      have hne : i ≠ n := fun h => hempty (h ▸ hwritten)
      exact ih (by omega)

/-- The index that ends at it is written. -/
theorem isSome_at'_writtenBelow {staged : Vector (Option Breakpoint) 24} {n : Nat}
    (h : writtenBelow staged n ≠ 0) : (at' staged (writtenBelow staged n - 1)).isSome = true := by
  induction n with
  | zero => exact absurd rfl h
  | succ n ih =>
    rw [writtenBelow_succ] at h ⊢
    split
    case isTrue hwritten => exact hwritten
    case isFalse hempty =>
      rw [if_neg hempty] at h
      exact ih h

theorem at'_replicate_none (i : Nat) : at' (Vector.replicate 24 (none : Option Breakpoint)) i = none := by
  rw [at', Vector.getElem?_replicate]
  split <;> rfl

/-- A table with every index empty counts 0. -/
theorem stagedCount_replicate_none : stagedCount (Vector.replicate 24 none) = 0 := by
  by_contra h
  have hwritten := isSome_at'_writtenBelow h
  rw [at'_replicate_none] at hwritten
  exact Bool.noConfusion hwritten

/-! ## The requests (R40, R41) -/

section
variable {p : Port} {s : State}

/-- What R40 asks of an index, a stage and a discharge. -/
theorem stagedPoint_inRange_iff {index q : Nat} {h : Int} :
    (within 0 23 index && stageInRange h && within 0 Config.dischargeMax q) = true ↔
      index ≤ 23 ∧ -1000 ≤ h ∧ h ≤ 15000 ∧ q ≤ 4000000 := by
  simp [within, stageInRange, withinInt, Config.dischargeMax, and_assoc]

/-- A point in range is written at its index; nothing else of the part follows (R40). -/
theorem exec_writeStagedPoint {index q : Nat} {h : Int} (htake : Takes p 0x24 s)
    (hrange : index ≤ 23 ∧ -1000 ≤ h ∧ h ≤ 15000 ∧ q ≤ 4000000) :
    exec (.writeStagedPoint p index h q) s =
      .next (setReply p ⟨.ok, u8 (stagedCount (put s.rating.staged index (some ⟨h, q⟩)))⟩
        { closeWindow p s with
          rating := { s.rating with staged := put s.rating.staged index (some ⟨h, q⟩) } }) := by
  change execWriteStagedPoint p index h q s = _
  rw [execWriteStagedPoint, request_taken htake, if_pos (stagedPoint_inRange_iff.mpr hrange)]
  rfl

/-- A point out of range is refused (R40). -/
theorem writeStagedPoint_refuses {index q : Nat} {h : Int} (htake : Takes p 0x24 s)
    (hout : ¬(index ≤ 23 ∧ -1000 ≤ h ∧ h ≤ 15000 ∧ q ≤ 4000000)) :
    Refuses (.writeStagedPoint p index h q) p s ⟨.range, []⟩ := by
  refine ⟨rfl, ?_⟩
  change execWriteStagedPoint p index h q s = _
  rw [execWriteStagedPoint, request_taken htake, if_neg (stagedPoint_inRange_iff.not.mpr hout)]
  rfl

/-- A clear empties every index; the reply carries the count before it (R41). -/
theorem exec_clearStaged (htake : Takes p 0x25 s) :
    exec (.clearStaged p) s = .next (setReply p ⟨.ok, u8 (stagedCount s.rating.staged)⟩
      { closeWindow p s with rating := { s.rating with staged := Vector.replicate 24 none } }) := by
  change execClearStaged p s = _
  rw [execClearStaged, request_taken htake]
  rfl

end

/-- Settles O25: each request replaces the staged table and nothing else of the rating, and the staged count is the
end of the highest written index. -/
theorem stagedTable : Obligations.StagedTable := by
  refine ⟨fun p index q h s htake => ⟨?write, ?refused⟩, fun p s htake => ?clear, fun staged => ?count⟩
  case write =>
    intro hindex hlow hhigh hq
    exact ⟨{ s.rating with staged := put s.rating.staged index (some ⟨h, q⟩) }, rfl, rfl,
      exec_writeStagedPoint htake ⟨hindex, hlow, hhigh, hq⟩⟩
  case refused =>
    intro hout
    exact writeStagedPoint_refuses htake (by omega)
  case clear =>
    exact ⟨{ s.rating with staged := Vector.replicate 24 none }, fun _ => eq_of_mem_replicate_toList,
      stagedCount_replicate_none, rfl, exec_clearStaged htake⟩
  case count =>
    rw [stagedCount_eq_writtenBelow]
    exact ⟨fun i hi hwritten => lt_writtenBelow hi hwritten, isSome_at'_writtenBelow⟩

end Sys2Proof.Machine
end

section
/-! SUPPORT. Readings of a rating (chapter 3). Segments that end below the stage, or below the discharge, do not count,
so a reading is that of the segment which reaches it; along a segment the rounded share of a rise lies between nothing
and the whole of it. -/

namespace Sys2Proof.Machine

/-! ## Rounded shares (R1) -/

theorem roundDiv_nonneg {x : Int} (hx : 0 ≤ x) (b : Nat) : 0 ≤ roundDiv x b := by
  lift x to Nat using hx
  rw [roundDiv_natCast]
  exact Int.natCast_nonneg _

/-- The whole of a rise. -/
theorem roundDiv_mul_self {k : Int} (hk : 0 ≤ k) {b : Nat} (hb : 0 < b) : roundDiv (k * b) b = k := by
  lift k to Nat using hk
  rw [← Nat.cast_mul, roundDiv_natCast, Nat.cast_inj]
  exact Nat.div_eq_of_lt_le (by nlinarith) (by nlinarith)

/-- A share of a rise is at most the whole of it. -/
theorem roundDiv_mul_le {k x : Int} {b : Nat} (hk : 0 ≤ k) (hxb : x ≤ b) (hb : 0 < b) :
    roundDiv (k * x) b ≤ k :=
  (roundDiv_mono (mul_le_mul_of_nonneg_left hxb hk) b (by positivity)).trans_eq (roundDiv_mul_self hk hb)

/-! ## Tables that R39 allows -/

section
variable {table before after rest : List Breakpoint} {a b : Breakpoint}

/-- A segment rises in stage and does not fall in discharge. -/
theorem ValidTable.segment (hv : ValidTable (before ++ a :: b :: after)) :
    a.h < b.h ∧ a.q ≤ b.q ∧ b.q ≤ 4000000 := by
  obtain ⟨-, hrises, hmax⟩ := hv
  obtain ⟨-, hsuffix, -⟩ := List.pairwise_append.mp hrises
  obtain ⟨hh, hq⟩ := List.rel_of_pairwise_cons hsuffix List.mem_cons_self
  exact ⟨hh, hq, hmax b (by simp)⟩

/-- Breakpoints before another lie below it in stage and not above it in discharge. -/
theorem ValidTable.before_below (hv : ValidTable (before ++ a :: rest)) {x : Breakpoint} (hx : x ∈ before) :
    x.h < a.h ∧ x.q ≤ a.q :=
  (List.pairwise_append.mp hv.2.1).2.2 x hx a List.mem_cons_self

theorem ValidTable.tail {c : Breakpoint} (hv : ValidTable (a :: b :: c :: rest)) : ValidTable (b :: c :: rest) :=
  ⟨by simp, hv.2.1.of_cons, fun x hx => hv.2.2 x (List.mem_cons_of_mem _ hx)⟩

theorem ValidTable.exists_cons_cons (hv : ValidTable table) : ∃ a b rest, table = a :: b :: rest :=
  match table, hv.1 with
  | a :: b :: rest, _ => ⟨a, b, rest, rfl⟩

/-- The first breakpoint is the lowest of a table, in stage and in discharge. -/
theorem ValidTable.first_le (hv : ValidTable (a :: rest)) {x : Breakpoint} (hx : x ∈ a :: rest) :
    a.h ≤ x.h ∧ a.q ≤ x.q := by
  obtain rfl | hx := List.mem_cons.mp hx
  · exact ⟨le_rfl, le_rfl⟩
  · obtain ⟨hh, hq⟩ := List.rel_of_pairwise_cons hv.2.1 hx
    exact ⟨hh.le, hq⟩

/-- The last breakpoint is the highest of a table, in stage and in discharge. -/
theorem ValidTable.le_last (hv : ValidTable table) (hlast : table.getLast? = some b) {x : Breakpoint}
    (hx : x ∈ table) : x.h ≤ b.h ∧ x.q ≤ b.q := by
  obtain ⟨ys, rfl⟩ := List.getLast?_eq_some_iff.mp hlast
  obtain hx | hx := List.mem_append.mp hx
  · obtain ⟨hh, hq⟩ := hv.before_below hx
    exact ⟨hh.le, hq⟩
  · rw [List.mem_singleton.mp hx]
    exact ⟨le_rfl, le_rfl⟩

end

/-- A breakpoint after the first ends a segment. -/
theorem exists_segment_ending {first b : Breakpoint} {rest : List Breakpoint} (hb : b ∈ rest) :
    ∃ before a after, first :: rest = before ++ a :: b :: after := by
  obtain ⟨s, after, rfl⟩ := List.append_of_mem hb
  obtain ⟨before, a, hsplit⟩ := List.eq_nil_or_concat (first :: s) |>.resolve_left (List.cons_ne_nil _ _)
  exact ⟨before, a, after, by rw [← List.cons_append, hsplit]; simp⟩

/-- A discharge above the first breakpoint's and not above the last's is reached by a segment that starts below it. -/
theorem exists_segment_reaching {q : Nat} {last : Breakpoint} {rest : List Breakpoint} {first : Breakpoint}
    (hlast : (first :: rest).getLast? = some last) (hfirst : first.q < q) (hq : q ≤ last.q) :
    ∃ before a b after, first :: rest = before ++ a :: b :: after ∧ a.q < q ∧ q ≤ b.q := by
  induction rest generalizing first with
  | nil =>
    obtain rfl : first = last := by simpa using hlast
    omega
  | cons b rest ih =>
    obtain hb | hb := le_or_gt q b.q
    · exact ⟨[], first, b, rest, rfl, hfirst, hb⟩
    · obtain ⟨before, x, y, after, htable, hx, hy⟩ := ih (by simpa using hlast) hb
      exact ⟨first :: before, x, y, after, by rw [htable, List.cons_append], hx, hy⟩

/-! ## The discharge along a segment and beyond the last one (R46, R47) -/

theorem saturateDischarge_eq (z : Int) : saturateDischarge z = (min 4000000 z).toNat := by
  simp only [saturateDischarge, clamp, Config.dischargeMax]
  split_ifs <;> omega

theorem saturateDischarge_le (z : Int) : saturateDischarge z ≤ 4000000 := by
  rw [saturateDischarge_eq]; omega

theorem saturateDischarge_mono {y z : Int} (h : y ≤ z) : saturateDischarge y ≤ saturateDischarge z := by
  rw [saturateDischarge_eq, saturateDischarge_eq]; omega

/-- The discharge beyond a last segment before it is saturated (R47). -/
def beyondTable (a b : Breakpoint) (limit : Nat) (he : Int) : Int :=
  b.q + roundDiv (((b.q : Int) - a.q) * (min he (b.h + limit) - b.h)) (b.h - a.h).toNat

section
variable {a b : Breakpoint} {he he' : Int}

theorem alongSegment_mono (hq : a.q ≤ b.q) (hlow : a.h ≤ he) (hle : he ≤ he') :
    alongSegment a b he ≤ alongSegment a b he' := by
  have hrise : (0 : Int) ≤ (b.q : Int) - a.q := by omega
  exact roundDiv_mono (mul_le_mul_of_nonneg_left (by omega) hrise) _ (mul_nonneg hrise (by omega))

theorem alongSegment_nonneg (hq : a.q ≤ b.q) (hlow : a.h ≤ he) : 0 ≤ alongSegment a b he :=
  roundDiv_nonneg (mul_nonneg (by omega) (by omega)) _

theorem alongSegment_upper (hh : a.h < b.h) (hq : a.q ≤ b.q) : alongSegment a b b.h = (b.q : Int) - a.q := by
  have hwidth : ((b.h - a.h).toNat : Int) = b.h - a.h := Int.toNat_of_nonneg (by omega)
  have hwhole := roundDiv_mul_self (k := (b.q : Int) - a.q) (by omega) (b := (b.h - a.h).toNat) (by omega)
  rwa [hwidth] at hwhole

theorem alongSegment_le (hh : a.h < b.h) (hq : a.q ≤ b.q) (hlow : a.h ≤ he) (hhigh : he ≤ b.h) :
    alongSegment a b he ≤ (b.q : Int) - a.q :=
  (alongSegment_mono hq hlow hhigh).trans_eq (alongSegment_upper hh hq)

theorem beyondTable_mono (limit : Nat) (hq : a.q ≤ b.q) (hlow : b.h ≤ he) (hle : he ≤ he') :
    beyondTable a b limit he ≤ beyondTable a b limit he' := by
  have hrise : (0 : Int) ≤ (b.q : Int) - a.q := by omega
  exact Int.add_le_add_left
    (roundDiv_mono (mul_le_mul_of_nonneg_left (by omega) hrise) _ (mul_nonneg hrise (by omega))) _

theorem le_beyondTable (limit : Nat) (hq : a.q ≤ b.q) (hlow : b.h ≤ he) : b.q ≤ beyondTable a b limit he :=
  le_add_of_nonneg_right (roundDiv_nonneg (mul_nonneg (by omega) (by omega)) _)

end

/-! ## The table read at a stage (R46, R47) -/

section
variable {before after rest : List Breakpoint} {first a b c last : Breakpoint} {limit : Nat} {he he' : Int}

theorem readTable_below (h : he ≤ first.h) :
    readTable (first :: rest) limit he = some (first.q, .below) := by simp [readTable, h]

theorem readTable_first_segment (hlow : a.h < he) (hhigh : he ≤ b.h) :
    readTable (a :: b :: rest) limit he = some (saturateDischarge (a.q + alongSegment a b he), .none) := by
  simp [readTable, segmentFor, hlow.not_ge, hhigh]

theorem readTable_beyond_last (hlow : a.h < he) (h : b.h < he) :
    readTable [a, b] limit he = some (saturateDischarge (beyondTable a b limit he),
      if he ≤ b.h + limit then .above else .aboveLimit) := by
  simp [readTable, segmentFor, lastSegment, hlow.not_ge, h.not_ge, beyondTable, min_def]

/-- Two breakpoints or more have a last segment. -/
theorem exists_lastSegment (a b : Breakpoint) (rest : List Breakpoint) :
    ∃ x y, lastSegment (a :: b :: rest) = some (x, y) := by
  induction rest generalizing a b with
  | nil => exact ⟨a, b, rfl⟩
  | cons c rest ih => exact ih b c

/-- A segment that ends below the stage does not count, unless it is the last. -/
theorem readTable_skip (ha : a.h < he) (hb : b.h < he) :
    readTable (a :: b :: c :: rest) limit he = readTable (b :: c :: rest) limit he := by
  obtain ⟨x, y, hlast⟩ := exists_lastSegment b c rest
  have hlast' : lastSegment (a :: b :: c :: rest) = some (x, y) := hlast
  have hsegment : segmentFor he (a :: b :: c :: rest) = segmentFor he (b :: c :: rest) := if_neg hb.not_ge
  simp only [readTable, if_neg ha.not_ge, if_neg hb.not_ge, hsegment, hlast, hlast']

/-- Nothing before a segment that starts below the stage counts. -/
theorem readTable_append (hbefore : ∀ x ∈ before, x.h < he) (ha : a.h < he) :
    readTable (before ++ a :: b :: after) limit he = readTable (a :: b :: after) limit he := by
  induction before with
  | nil => rfl
  | cons x before ih =>
    obtain ⟨hx, hbefore⟩ := List.forall_mem_cons.mp hbefore
    rw [← ih hbefore]
    cases before with
    | nil => exact readTable_skip hx ha
    | cons y before =>
      have hy := hbefore y List.mem_cons_self
      cases before with
      | nil => exact readTable_skip hx hy
      | cons z before => exact readTable_skip hx hy

/-- A valid table gives a discharge in its range at every stage. -/
theorem readTable_total {table : List Breakpoint} (hv : ValidTable table) (limit : Nat) (he : Int) :
    ∃ q mark, readTable table limit he = some (q, mark) ∧ q ≤ 4000000 := by
  obtain ⟨hlength, -, hmax⟩ := hv
  cases table with
  | nil => simp at hlength
  | cons first rest =>
    have hfirst := hmax first List.mem_cons_self
    unfold readTable
    dsimp only
    split
    · exact ⟨_, _, rfl, hfirst⟩
    split
    · exact ⟨_, _, rfl, saturateDischarge_le _⟩
    split
    · exact ⟨_, _, rfl, hfirst⟩
    · exact ⟨_, _, rfl, saturateDischarge_le _⟩

/-- Along a segment the table gives the rounded line between its breakpoints, which needs no saturation. -/
theorem readTable_segment (hv : ValidTable (before ++ a :: b :: after)) (hlow : a.h < he) (hhigh : he ≤ b.h) :
    readTable (before ++ a :: b :: after) limit he = some ((a.q + alongSegment a b he).toNat, .none) := by
  obtain ⟨hh, hq, hmax⟩ := hv.segment
  have hle := alongSegment_le hh hq hlow.le hhigh
  rw [readTable_append (fun x hx => (hv.before_below hx).1.trans hlow) hlow, readTable_first_segment hlow hhigh,
    saturateDischarge_eq, min_eq_right (by omega)]

theorem readTable_breakpoint (hv : ValidTable (first :: rest)) (hb : b ∈ rest) :
    readTable (first :: rest) limit b.h = some (b.q, .none) := by
  obtain ⟨before, a, after, htable⟩ := exists_segment_ending hb
  rw [htable] at hv ⊢
  obtain ⟨hh, hq, -⟩ := hv.segment
  rw [readTable_segment hv hh le_rfl, alongSegment_upper hh hq, add_sub_cancel, Int.toNat_natCast]

theorem readTable_beyond (hv : ValidTable (before ++ [a, last])) (h : last.h < he) :
    last.q ≤ saturateDischarge (beyondTable a last limit he) ∧
    readTable (before ++ [a, last]) limit he = some (saturateDischarge (beyondTable a last limit he),
      if he ≤ last.h + limit then .above else .aboveLimit) := by
  obtain ⟨hh, hq, hmax⟩ := hv.segment
  have hle := le_beyondTable limit hq h.le
  refine ⟨?_, ?_⟩
  · rw [saturateDischarge_eq]; omega
  · rw [readTable_append (fun x hx => ((hv.before_below hx).1.trans hh).trans h) (hh.trans h),
      readTable_beyond_last (hh.trans h) h]

/-- A reading is at least the first discharge, and above the first segment at least that segment's upper one. -/
theorem le_readTable {a b : Breakpoint} {rest : List Breakpoint} (hv : ValidTable (a :: b :: rest)) {q : Nat}
    {m : RatingMark} (hread : readTable (a :: b :: rest) limit he = some (q, m)) :
    a.q ≤ q ∧ (b.h < he → b.q ≤ q) := by
  obtain ⟨hh, hq, hmax⟩ := hv.segment (before := [])
  have hupper (hb : b.h < he) : b.q ≤ q := by
    cases rest with
    | nil =>
      obtain ⟨hle, hbeyond⟩ := readTable_beyond (before := []) hv hb (limit := limit)
      obtain ⟨rfl, -⟩ := hread.symm.trans hbeyond
      exact hle
    | cons c rest =>
      rw [readTable_skip (hh.trans hb) hb] at hread
      exact (le_readTable hv.tail hread).1
  refine ⟨?_, hupper⟩
  obtain hlow | hlow := le_or_gt he a.h
  · obtain ⟨rfl, -⟩ := hread.symm.trans (readTable_below hlow)
    exact le_rfl
  obtain hhigh | hhigh := le_or_gt he b.h
  · obtain ⟨rfl, -⟩ := hread.symm.trans (readTable_segment (before := []) hv hlow hhigh)
    have hrise := alongSegment_nonneg hq hlow.le
    omega
  · exact hq.trans (hupper hhigh)

/-- A reading does not fall as the stage rises. -/
theorem readTable_mono {a b : Breakpoint} {rest : List Breakpoint} (hv : ValidTable (a :: b :: rest))
    (hle : he ≤ he') {q q' : Nat} {m m' : RatingMark}
    (hread : readTable (a :: b :: rest) limit he = some (q, m))
    (hread' : readTable (a :: b :: rest) limit he' = some (q', m')) : q ≤ q' := by
  obtain ⟨hh, hq, -⟩ := hv.segment (before := [])
  obtain hlow | hlow := le_or_gt he a.h
  · obtain ⟨rfl, -⟩ := hread.symm.trans (readTable_below hlow)
    exact (le_readTable hv hread').1
  obtain hhigh | hhigh := le_or_gt he b.h
  · obtain ⟨rfl, -⟩ := hread.symm.trans (readTable_segment (before := []) hv hlow hhigh)
    obtain hhigh' | hhigh' := le_or_gt he' b.h
    · obtain ⟨rfl, -⟩ := hread'.symm.trans (readTable_segment (before := []) hv (hlow.trans_le hle) hhigh')
      have hmono := alongSegment_mono hq hlow.le hle
      omega
    · have hupper := (le_readTable hv hread').2 hhigh'
      have hshare := alongSegment_le hh hq hlow.le hhigh
      omega
  have hhigh' := hhigh.trans_le hle
  cases rest with
  | nil =>
    obtain ⟨rfl, -⟩ := hread.symm.trans (readTable_beyond_last hlow hhigh)
    obtain ⟨rfl, -⟩ := hread'.symm.trans (readTable_beyond_last (hh.trans hhigh') hhigh')
    exact saturateDischarge_mono (beyondTable_mono limit hq hhigh.le hle)
  | cons c rest =>
    rw [readTable_skip hlow hhigh] at hread
    rw [readTable_skip (hh.trans hhigh') hhigh'] at hread'
    exact readTable_mono hv.tail hle hread hread'

end

/-! ## The inverse rating (R52) -/

/-- The effective stage of a discharge along a rising segment (R52). -/
def segmentStage (q : Nat) (a b : Breakpoint) : Int :=
  a.h + roundDiv (((q : Int) - a.q) * (b.h - a.h)) (b.q - a.q)

section
variable {before after rest : List Breakpoint} {first second a b last : Breakpoint} {q : Nat}

/-- The stage of a discharge that a segment reaches lies within the segment. -/
theorem segmentStage_mem (hh : a.h < b.h) (hlow : a.q ≤ q) (hhigh : q ≤ b.q) (hrise : a.q < b.q) :
    a.h ≤ segmentStage q a b ∧ segmentStage q a b ≤ b.h := by
  have hpos : 0 ≤ roundDiv (((q : Int) - a.q) * (b.h - a.h)) (b.q - a.q) :=
    roundDiv_nonneg (mul_nonneg (by omega) (by omega)) _
  have hle : roundDiv ((b.h - a.h) * ((q : Int) - a.q)) (b.q - a.q) ≤ b.h - a.h :=
    roundDiv_mul_le (by omega) (by omega) (by omega)
  rw [mul_comm] at hle
  unfold segmentStage
  omega

theorem risingSegment_first (hq : q ≤ b.q) (hrise : a.q < b.q) :
    risingSegment q (a :: b :: after) = some (a, b) := if_pos ⟨hq, hrise⟩

/-- Nothing before a segment that starts below the discharge counts. -/
theorem risingSegment_append (hbefore : ∀ x ∈ before, x.q < q) (ha : a.q < q) :
    risingSegment q (before ++ a :: rest) = risingSegment q (a :: rest) := by
  induction before with
  | nil => rfl
  | cons x before ih =>
    obtain ⟨-, hbefore⟩ := List.forall_mem_cons.mp hbefore
    rw [← ih hbefore]
    cases before with
    | nil => exact if_neg fun h => ha.not_ge h.1
    | cons y before => exact if_neg fun h => (hbefore y List.mem_cons_self).not_ge h.1

/-- Outside the table's discharges there is no stage. -/
theorem inverseRating_outside (hlast : (first :: rest).getLast? = some last) (hout : q < first.q ∨ last.q < q) :
    inverseRating (first :: rest) q = none := by
  cases rest with
  | nil => rfl
  | cons second rest => simp only [inverseRating, hlast, if_pos hout]

/-- A discharge held from the first breakpoint along a flat segment has the first stage. -/
theorem inverseRating_flat (hlast : (first :: second :: rest).getLast? = some last) (hq : q = first.q)
    (hflat : second.q = first.q) (hhigh : q ≤ last.q) :
    inverseRating (first :: second :: rest) q = some first.h := by
  have hin : ¬(q < first.q ∨ last.q < q) := by omega
  simp only [inverseRating, hlast, if_neg hin, if_pos (And.intro hq hflat)]

/-- Any other discharge of the table has its stage on the first rising segment that reaches it. -/
theorem inverseRating_eq_rising (hlast : (first :: second :: rest).getLast? = some last) (hlow : first.q ≤ q)
    (hhigh : q ≤ last.q) (hflat : ¬(q = first.q ∧ second.q = first.q)) :
    inverseRating (first :: second :: rest) q =
      (risingSegment q (first :: second :: rest)).map fun s => segmentStage q s.1 s.2 := by
  have hin : ¬(q < first.q ∨ last.q < q) := by omega
  simp only [inverseRating, hlast, if_neg hin, if_neg hflat]
  rfl

/-- The first rising segment that reaches a discharge gives its stage. -/
theorem inverseRating_segment (hv : ValidTable (before ++ a :: b :: after))
    (hstart : a.q < q ∨ (a.q = q ∧ before = [])) (hq : q ≤ b.q) (hrise : a.q < b.q) :
    inverseRating (before ++ a :: b :: after) q = some (segmentStage q a b) := by
  obtain ⟨last, hlast⟩ : ∃ last, (before ++ a :: b :: after).getLast? = some last :=
    ⟨_, List.getLast?_eq_some_getLast (by simp)⟩
  have hhigh : q ≤ last.q := hq.trans (hv.le_last hlast (by simp)).2
  cases before with
  | nil =>
    have hlow : a.q ≤ q := by omega
    rw [List.nil_append] at hlast ⊢
    rw [inverseRating_eq_rising hlast hlow hhigh (by omega), risingSegment_first hq hrise, Option.map_some]
  | cons first before =>
    have ha : a.q < q := hstart.resolve_right fun h => List.cons_ne_nil _ _ h.2
    have hbelow : ∀ x ∈ first :: before, x.q < q := fun x hx => (hv.before_below hx).2.trans_lt ha
    have hfirst : first.q < q := hbelow first List.mem_cons_self
    obtain ⟨second, rest, hrest⟩ : ∃ second rest, before ++ a :: b :: after = second :: rest :=
      List.exists_cons_of_ne_nil (by simp)
    have hsegment := risingSegment_append (rest := b :: after) hbelow ha
    rw [List.cons_append, hrest] at hlast hsegment ⊢
    rw [inverseRating_eq_rising hlast hfirst.le hhigh (by omega), hsegment, risingSegment_first hq hrise,
      Option.map_some]

/-- A discharge of the table has a stage, which lies within the table's stages. -/
theorem exists_inverseRating (hv : ValidTable (first :: rest)) (hlast : (first :: rest).getLast? = some last)
    (hlow : first.q ≤ q) (hhigh : q ≤ last.q) :
    ∃ h, inverseRating (first :: rest) q = some h ∧ first.h ≤ h ∧ h ≤ last.h := by
  have of_segment {before a b after} (htable : first :: rest = before ++ a :: b :: after)
      (hstart : a.q < q ∨ (a.q = q ∧ before = [])) (hq : q ≤ b.q) (hrise : a.q < b.q) :
      ∃ h, inverseRating (first :: rest) q = some h ∧ first.h ≤ h ∧ h ≤ last.h := by
    have ha := (hv.first_le (x := a) (by simp [htable])).1
    have hb := (hv.le_last hlast (x := b) (by simp [htable])).1
    rw [htable] at hv ⊢
    have hmem := segmentStage_mem hv.segment.1 (by omega) hq hrise
    exact ⟨_, inverseRating_segment hv hstart hq hrise, by omega, by omega⟩
  obtain ⟨_, second, tail, hcons⟩ := hv.exists_cons_cons
  obtain ⟨rfl, rfl⟩ := List.cons_eq_cons.mp hcons
  obtain hfirst | hfirst := hlow.lt_or_eq
  · obtain ⟨before, a, b, after, htable, ha, hb⟩ := exists_segment_reaching hlast hfirst hhigh
    exact of_segment htable (.inl ha) hb (ha.trans_le hb)
  · obtain ⟨hh, hq, -⟩ := hv.segment (before := [])
    obtain hrise | hflat := hq.lt_or_eq
    · exact of_segment (before := []) rfl (.inr ⟨hfirst, rfl⟩) (by omega) hrise
    · exact ⟨_, inverseRating_flat hlast hfirst.symm hflat.symm hhigh, le_rfl,
        (hv.le_last hlast List.mem_cons_self).1⟩

end

/-! ## The discharge for a stage (R46, R48) -/

section
variable {r : RatingUnit}

theorem dischargeFor_empty (hactive : r.active = []) (stage : Option Int) :
    r.dischargeFor stage = ⟨none, .none, 0, none⟩ := by
  cases stage <;> simp [RatingUnit.dischargeFor, RatingUnit.tableVersion, hactive, readTable]

theorem dischargeFor_none (hactive : r.active ≠ []) : r.dischargeFor none = ⟨none, .none, r.version, none⟩ := by
  simp [RatingUnit.dischargeFor, RatingUnit.tableVersion, hactive]

theorem dischargeFor_some {h : Int} {q : Nat} {m : RatingMark}
    (hread : readTable r.active r.limit (h + r.shift) = some (q, m)) :
    r.dischargeFor (some h) = ⟨some q, m, r.version, some (h + r.shift)⟩ := by
  have hactive : r.active ≠ [] := by
    intro hnil
    simp [hnil, readTable] at hread
  simp [RatingUnit.dischargeFor, RatingUnit.tableVersion, hactive, hread]

end

/-- Settles O24: a reading is that of the segment which reaches the stage, by induction on the segments before it; its
order follows from the rise along each segment; and the inverse rating is the same search over the discharges. -/
theorem ratingReads : Obligations.RatingReads := by
  refine ⟨fun r h => ⟨dischargeFor_empty, dischargeFor_none, fun q m => dischargeFor_some⟩,
    fun table limit hv => ⟨readTable_total hv limit, ?below, ?breakpoint, ?segment, ?beyond, ?order⟩,
    fun table first last rest q hv htable hlast => ⟨?outside, ?inside, ?flat, ?rising⟩⟩
  case below =>
    rintro first rest he rfl hle
    exact readTable_below hle
  case breakpoint =>
    rintro first rest b rfl hb
    exact readTable_breakpoint hv hb
  case segment =>
    rintro before a b after he rfl hlow hhigh
    exact readTable_segment hv hlow hhigh
  case beyond =>
    rintro before a last he rfl hhigh
    obtain ⟨hle, hread⟩ := readTable_beyond hv hhigh (limit := limit)
    exact ⟨_, hle, saturateDischarge_eq _, hread⟩
  case order =>
    intro he he' q q' m m' hle hread hread'
    obtain ⟨a, b, rest, rfl⟩ := hv.exists_cons_cons
    exact readTable_mono hv hle hread hread'
  case outside =>
    subst htable
    exact inverseRating_outside hlast
  case inside =>
    subst htable
    exact exists_inverseRating hv hlast
  case flat =>
    rintro second tail rfl rfl hflat
    subst htable
    exact inverseRating_flat hlast rfl hflat (hv.le_last hlast List.mem_cons_self).2
  case rising =>
    rintro before a b after rfl hstart hq hrise
    exact inverseRating_segment hv hstart hq hrise

end Sys2Proof.Machine
end

section
/-! SUPPORT. The demanded level (chapter 7). Each criterion is said as its threshold at the level held against the value
judged, and the greatest level whose criterion is met is said once, whatever the criterion. -/

namespace Sys2Proof.Machine

/-! ## The criterion of a level (R137 to R139) -/

/-- R137: the threshold is lowered by the hysteresis at the level held and below it. -/
theorem stageMet_iff (w : WarningUnit) (stage : Option Int) (j : Nat) :
    stageMet w stage j = true ↔ ∃ t z, triAt w.criteria.stage j = some t ∧ stage = some z ∧
      (if w.level < j then t else t - w.criteria.hysteresis) ≤ z := by
  unfold stageMet
  cases triAt w.criteria.stage j with
  | none => simp
  | some t =>
    cases stage with
    | none => simp
    | some z => by_cases hraised : w.level < j <;> simp [hraised]

/-- R138: the threshold is lowered by its share at the level held and below it. -/
theorem dischargeMet_iff (w : WarningUnit) (discharge : Option Nat) (j : Nat) :
    dischargeMet w discharge j = true ↔ ∃ t q, triAt w.criteria.discharge j = some t ∧ discharge = some q ∧
      (if w.level < j then (t : Int) else loweredDischarge w.criteria t) ≤ q := by
  unfold dischargeMet
  cases triAt w.criteria.discharge j with
  | none => simp
  | some t =>
    cases discharge with
    | none => simp
    | some q => by_cases hraised : w.level < j <;> simp [hraised]

/-- R139: the level held does not enter the judgement. -/
theorem riseMet_iff (w : WarningUnit) (rise : Option Int) (j : Nat) :
    riseMet w rise j = true ↔ ∃ t z, triAt w.criteria.rise j = some t ∧ rise = some z ∧ (t : Int) ≤ z := by
  unfold riseMet
  cases triAt w.criteria.rise j with
  | none => simp
  | some t => cases rise <;> simp

/-! ## The greatest level met (R137 to R141) -/

theorem highestMet_le (met : Nat → Bool) : highestMet met ≤ 3 := by
  unfold highestMet
  split_ifs <;> decide

theorem met_highestMet {met : Nat → Bool} (h : highestMet met ≠ 0) : met (highestMet met) = true := by
  unfold highestMet at h ⊢
  split_ifs at h ⊢ with h3 h2 h1
  · exact h3
  · exact h2
  · exact h1
  · exact absurd rfl h

theorem le_highestMet {met : Nat → Bool} {j : Nat} (h1 : 1 ≤ j) (h3 : j ≤ 3) (h : met j = true) :
    j ≤ highestMet met := by
  by_contra hlt
  exact absurd h (by simp [highestMet_unmet h1 h3 (not_le.mp hlt)])

/-- A part of the demand, in the words of the criterion that it judges. -/
theorem highestMet_greatest {met : Nat → Bool} {criterion : Nat → Prop} (h : ∀ j, met j = true ↔ criterion j) :
    highestMet met ≤ 3 ∧ (highestMet met ≠ 0 → criterion (highestMet met)) ∧
      ∀ j, 1 ≤ j → j ≤ 3 → criterion j → j ≤ highestMet met :=
  ⟨highestMet_le met, fun hne => (h _).mp (met_highestMet hne),
    fun j h1 h3 hj => le_highestMet h1 h3 ((h j).mpr hj)⟩

/-- Settles O44: the demand is the greatest of its four parts as it is formed, and each of the three that judge a
criterion is the greatest level at which that criterion is met. -/
theorem demandedLevel : Obligations.DemandedLevel := by
  refine ⟨fun s => rfl, fun i w => ⟨rfl, rfl, rfl, fun met part hpart => ?_⟩⟩
  simp only [List.mem_cons, List.not_mem_nil, or_false, Prod.mk.injEq] at hpart
  rcases hpart with ⟨rfl, rfl⟩ | ⟨rfl, rfl⟩ | ⟨rfl, rfl⟩
  · exact highestMet_greatest (stageMet_iff w i.stage)
  · exact highestMet_greatest (dischargeMet_iff w i.discharge)
  · exact highestMet_greatest (riseMet_iff w i.rise)

end Sys2Proof.Machine
end

section
/-! SUPPORT. The hash set (chapter 8): the bin of an address in whole numbers, and the state and reply of the request
that replaces the set. -/

namespace Sys2Proof.Machine

/-- R160: the 16-bit word of an address loses nothing, so its bin is the same taken on the whole number. -/
theorem hashBin_eq {a : Nat} (ha : a < 65536) : hashBin a = (a ^^^ (a >>> 6) ^^^ (a >>> 12)) % 64 := by
  have hword : (BitVec.ofNat 16 a).toNat = a := Nat.mod_eq_of_lt ha
  simp only [hashBin, BitVec.toNat_xor, BitVec.toNat_ushiftRight, hword]

/-- The marks carried replace the hash set and nothing else; the reply carries the set they replace (R160). -/
theorem exec_setHash {p : Port} {s : State} (marks : BitVec 64) (htake : Takes p 0x74 s) :
    exec (.setHash p marks) s = .next (setReply p ⟨.ok, setBytes 8 s.upstream.hash.toNat⟩
      { closeWindow p s with upstream := { s.upstream with hash := marks } }) := by
  change execSetHash p marks s = _
  rw [execSetHash, request_taken htake]
  rfl

/-- Settles O49: the bin's formula holds of every 16-bit address, the bins the chapter lists are computed, and
SET_HASH replaces the hash set alone. -/
theorem hashSet : Obligations.HashSet :=
  ⟨fun _ ha => hashBin_eq ha, rfl, rfl, rfl, rfl, fun _ marks _ htake => exec_setHash marks htake⟩

end Sys2Proof.Machine
end

section
/-! SUPPORT. What a command can do, said once. A release of chip select closes its port's window and may put a reply
in its buffer; what it does besides, as what an event does, is one act of the relation `Acts`, with the conditions
under which the part performs it. A claim about every command is then a claim about every act. -/

namespace Sys2Proof.Machine

/-! ## The acts -/

/-- A command makes t of s, its port's window and buffer apart. Each act stands with the conditions that its owner
checks; a command that its owner refuses makes no act. -/
inductive Acts : Instr → State → State → Prop where
  -- the Station Clock and the Stage Unit
  | setClock {p : Port} {s : State} {v : Nat} :
      Acts (.setClock p v) s { s with clock := { s.clock with clock := v, clockPhase := 0 } }
  | stationClockAdvance {s : State} : Acts .stationClockAdvance s (advanceClock s)
  | uptimeAdvance {s : State} : Acts .uptimeAdvance s (advanceUptime s)
  | encoderPhaseChange {s : State} {a b : Level} {u : StageUnit} :
      Acts (.encoderPhaseChange a b) s { s with stage := u }
  | pPulse {s : State} {edge : Bool} {u : StageUnit} : Acts (.pPulse edge) s { s with stage := u }
  | stageSample {s : State} : Acts .stageSample s (takeSample s)
  | configureStage {p : Port} {s : State} {a : StageArgs} {c : StageConfig} : stageConfigOf a = some c →
      Acts (.configureStage p a) s (startOver (restartSample { s with stage := s.stage.configured c }))
  | checkGauge {p : Port} {s : State} {channel : Nat} {reading : Int} {c : Channel} {v : LastValue} :
      Acts (.checkGauge p channel reading) s (startOver { s with stage := s.stage.gauged c reading v })
  -- the History Store
  | readHistory {p : Port} {s : State} {maximum advance cursor : Nat} :
      Acts (.readHistory p maximum advance) s (moveCursor p cursor s)
  | seekHistory {p : Port} {s : State} {target : SeekTarget} {cursor : Nat} :
      Acts (.seekHistory p target) s (moveCursor p cursor s)
  | setHistoryThreshold {p : Port} {s : State} {n : Nat} : Acts (.setHistoryThreshold p n) s
      (judgeReady p { s with history := { s.history with thresholds := s.history.thresholds.set p n } })
  | setHistoryInterval {p : Port} {s : State} {n : Nat} :
      Acts (.setHistoryInterval p n) s { s with history := { s.history with interval := n } }
  -- the Rating Unit
  | writeStagedPoint {p : Port} {s : State} {index q : Nat} {h : Int} :
      (within 0 23 index && stageInRange h && within 0 Config.dischargeMax q) = true →
      Acts (.writeStagedPoint p index h q) s
        { s with rating := { s.rating with staged := put s.rating.staged index (some ⟨h, q⟩) } }
  | clearStaged {p : Port} {s : State} :
      Acts (.clearStaged p) s { s with rating := { s.rating with staged := Vector.replicate 24 none } }
  | installRating {p : Port} {s : State} : checkStaged s.rating.staged = none →
      Acts (.installRating p) s (rateAgain (raise .ratingInstalled { s with rating := s.rating.install }))
  | setShift {p : Port} {s : State} {z : Int} :
      Acts (.setShift p z) s (rateAgain { s with rating := { s.rating with shift := z } })
  | setExtrapolationLimit {p : Port} {s : State} {n : Nat} :
      Acts (.setExtrapolationLimit p n) s (rateAgain { s with rating := { s.rating with limit := n } })
  -- the Plan Store
  | writeVertical {p : Port} {s : State} {index : Nat} {a : VerticalArgs} {r : VerticalRecord} :
      Acts (.writeVertical p index a) s (setPoolRecord index r s)
  | clearVertical {p : Port} {s : State} {index : Nat} :
      Acts (.clearVertical p index) s (setPoolRecord index {} s)
  | writeMeter {p : Port} {s : State} {meter : Nat} {a : MeterArgs} {meters : Vector MeterRecord 4} :
      Acts (.writeMeter p meter a) s { s with plan := { s.plan with meters := meters } }
  | defineSlot {p : Port} {s : State} {k : Nat} {a : SlotArgs} {d : SlotDefinition} :
      Acts (.defineSlot p k a) s (updateSlot k (fun _ => { definition := d }) s)
  | armSlot {p : Port} {s : State} {k : Nat} : Acts (.armSlot p k) s (armSlot k s)
  | disarmSlot {p : Port} {s : State} {k : Nat} : Acts (.disarmSlot p k) s (disarmSlot k s)
  | startRun {p : Port} {s : State} {k : Nat} : Acts (.startRun p k) s (takeAttempt (setRequest k s))
  | clearRequest {p : Port} {s : State} {k : Nat} :
      Acts (.clearRequest p k) s (updateSlot k (fun x => { x with request := false }) s)
  | setSlotPriority {p : Port} {s : State} {n : Nat} {x : Priority} : Acts (.setSlotPriority p n) s
      { s with plan := { s.plan with priority := x, order := orderFor x s.plan.order } }
  | intervalTimerExpiry {s : State} {k : Nat} : Acts (.intervalTimerExpiry k) s (intervalExpiry k s)
  -- the Run Engine
  | positionReached {p : Port} {s : State} {reported d : Nat} {sounded : Option Nat} :
      s.engine.state = .moving →
      Acts (.positionReached p reported sounded) s (arrive d s)
  | depthReached {p : Port} {s : State} :
      s.engine.state = .lowering → Acts (.depthReached p) s (depthArrived s)
  | homeReached {p : Port} {s : State} : s.engine.state = .homing → Acts (.homeReached p) s (homeArrived s)
  | proceed {p : Port} {s : State} : s.engine.state = .holding → Acts (.proceed p) s (proceedRun s)
  | cancelRun {p : Port} {s : State} :
      s.engine.state.recallable = true → Acts (.cancelRun p) s (recallRun .cancelled s)
  | carriageFault {p : Port} {s : State} {code : Nat} :
      Acts (.carriageFault p code) s (tripEngine (.fault code) s)
  | clearTrip {p : Port} {s : State} :
      tripClearable s = true → Acts (.clearTrip p) s (takeAttempt (enter .idle s))
  | resetEngine {p : Port} {s : State} : Acts (.resetEngine p) s (resetEngine s)
  | moveTimerExpiry {s : State} : moveRuns s = true → Acts .moveTimerExpiry s (recallRun .timeout s)
  | settleTimerExpiry {s : State} : settleRuns s = true → Acts .settleTimerExpiry s (startCounting s)
  | countTimerExpiry {s : State} : countRuns s = true → Acts .countTimerExpiry s (endPoint s)
  | pauseTimerExpiry {s : State} : pauseRuns s = true → Acts .pauseTimerExpiry s (restartPoint s)
  | homeTimerExpiry {s : State} : homeRuns s = true → Acts .homeTimerExpiry s (homeExpiry s)
  -- the Warning Unit
  | setLevelCriteria {p : Port} {s : State} {a : CriteriaArgs} : Acts (.setLevelCriteria p a) s
      (evaluate { s with warning := { s.warning with criteria := criteriaOf a, dwell := .stopped } })
  | setRetreat {p : Port} {s : State} {stage : Option Int} {level : RetreatLevelArg} {l : Option Nat} :
      Acts (.setRetreat p stage level) s
      (evaluate { s with warning := { s.warning with retreatStage := stage, retreatLevel := l } })
  | setWarningOutput {p : Port} {s : State} {k showLevel kind : Nat} {o : WarningOutput} :
      Acts (.setWarningOutput p k showLevel kind) s (formOutputs (setOutput k o s))
  | overrideOn {p : Port} {s : State} {mask : BitVec 8} :
      Acts (.overrideOn p mask) s (formOutputs (setOverrides .on mask s))
  | overrideOff {p : Port} {s : State} {mask : BitVec 8} :
      Acts (.overrideOff p mask) s (formOutputs (setOverrides .off mask s))
  | overrideAuto {p : Port} {s : State} {mask : BitVec 8} :
      Acts (.overrideAuto p mask) s (formOutputs (setOverrides .auto mask s))
  | silence {p : Port} {s : State} : Acts (.silence p) s (takeSilence s)
  | dwellTimerExpiry {s : State} : s.warning.dwell.isRunning = true → Acts .dwellTimerExpiry s (dwellExpiry s)
  -- the Upstream Filter
  | upstreamReport {p : Port} {s : State} {a : ReportArgs} :
      reportInRange a = true → Acts (.upstreamReport p a) s (takeReport a s).1
  | setUpstreamEntry {p : Port} {s : State} {i address stepDown travel : Nat} : i ≤ 15 →
      Acts (.setUpstreamEntry p i address stepDown travel) s
        (let u := setEntry i { address := address, stepDown := stepDown, travel := travel } s
          if 0 < (entryAt s i).contribution then formFloor u else u)
  | setHash {p : Port} {s : State} {marks : BitVec 64} :
      Acts (.setHash p marks) s { s with upstream := { s.upstream with hash := marks } }
  | setUpstreamFilter {p : Port} {s : State} {a : FilterArgs} {enable all : Bool} :
      (a.classMap.all fun x => (capArgOf x).isSome) = true →
      Acts (.setUpstreamFilter p a) s (judgeStaleness { s with upstream := s.upstream.withSettings enable all a })
  | clearUpstreamCounters {p : Port} {s : State} :
      Acts (.clearUpstreamCounters p) s { s with upstream := { s.upstream with counters := {} } }
  | delayTimerExpiry {s : State} {i : Nat} : Acts (.delayTimerExpiry i) s (delayExpiry i s)
  | staleTimerExpiry {s : State} {i : Nat} : Acts (.staleTimerExpiry i) s (staleExpiry i s)
  -- Field Lines
  | readLines {p : Port} {s : State} {clear : Nat} : Acts (.readLines p clear) s (clearReturned s)
  | writeLines {p : Port} {s : State} {mask : BitVec 16} {values : Vector Nat 16} :
      Acts (.writeLines p mask values) s (changeLines (writeLatches mask values s.lines) s)
  | configureLine {p : Port} {s : State} {a : LineArgs} {new : FieldLine} : a.line < 16 →
      Acts (.configureLine p a) s (configureLine a.line new s)
  | lineForced {s : State} {i : Nat} {outside : Option Level} : i < 16 →
      Acts (.linePinChange i outside) s (setForced i outside s)
  | lineForcedHeld {s : State} {i : Nat} {outside : Option Level} {level : Level} : s.ports.por = true →
      Acts (.linePinChange i outside) s (setPin i level (setForced i outside s))
  | linePinChange {s : State} {i : Nat} {outside : Option Level} {level : Level} : i < 16 →
      Acts (.linePinChange i outside) s (pinChange i level (setForced i outside s))
  -- the Notice Unit
  | fetchNotices {p : Port} {s : State} : Acts (.fetchNotices p) s (fetchNotices p s)
  | setNoticeEnable {p : Port} {s : State} {marks : BitVec 24} {x : BitVec 20} :
      Acts (.setNoticeEnable p marks) s
      (setPortNotices p { portNotices p s with enables := x }.judge s)
  | setAttention {p : Port} {s : State} {m o : Nat} {master oneShot : Bool} : Acts (.setAttention p m o) s
      (setPortNotices p { portNotices p s with master := master, oneShot := oneShot }.judge s)
  | setRoute {p : Port} {s : State} {source : Nat} {route : BitVec 8} : source ≤ 19 →
      Acts (.setRoute p source route) s { s with notices := s.notices.setRoute source (route.setWidth 3) }
  -- the resets
  | stationReset {p : Port} {s : State} : Acts (.stationReset p) s (stationReset s)
  | resetNActivation {s : State} : Acts .resetNActivation s (stationReset s)
  | porAssert {s : State} : Acts .porAssert s (powerOn true s)
  | porRelease {s : State} : Acts .porRelease s (powerOn false s)

/-! ## Windows, replies and what is not taken -/

/-- From s to t only the ports have changed, and of them no other port's window and buffer than those of the
command's own port. -/
structure PortOnly (i : Instr) (s t : State) : Prop where
  keeps : KeepsBut [.ports] s t
  others : ∀ q, i.port? ≠ some q → t.ports.port.get q = s.ports.port.get q

theorem PortOnly.refl (i : Instr) (s : State) : PortOnly i s s := ⟨.refl _ s, fun _ _ => rfl⟩

theorem PortOnly.trans {i : Instr} {s t u : State} (h : PortOnly i s t) (h' : PortOnly i t u) : PortOnly i s u :=
  ⟨h.keeps.trans h'.keeps, fun q hq => (h'.others q hq).trans (h.others q hq)⟩

theorem setPort_keeps (p : Port) (x : PortState) (s : State) : KeepsBut [.ports] s (setPort p x s) := by
  intro b hb
  cases b <;> simp at hb <;> rfl

theorem setPort_portOnly {i : Instr} {p : Port} (hp : i.port? = some p) (x : PortState) (s : State) :
    PortOnly i s (setPort p x s) :=
  ⟨setPort_keeps p x s, fun q hq => PerPort.get_set_other _ (fun h => hq (by rw [hp, h])) _⟩

/-- A command leads from s to t: the release of chip select, at most one act, and the reply. -/
def Leads (i : Instr) (s t : State) : Prop :=
  ∃ u v, PortOnly i s u ∧ (v = u ∨ Acts i u v) ∧ PortOnly i v t

theorem Leads.of_portOnly {i : Instr} {s t : State} (h : PortOnly i s t) : Leads i s t :=
  ⟨s, s, .refl i s, .inl rfl, h⟩

theorem Leads.of_acts {i : Instr} {s t : State} (h : Acts i s t) : Leads i s t :=
  ⟨s, t, .refl i s, .inr h, .refl i t⟩

theorem Leads.ite {i : Instr} {s t u : State} {c : Prop} [Decidable c] (ht : c → Leads i s t)
    (hu : ¬ c → Leads i s u) : Leads i s (if c then t else u) := by
  split
  · exact ht ‹_›
  · exact hu ‹_›

/-- An answer leaves the state or performs an act on it. -/
def Answers (i : Instr) (t : State) (answer : State × Reply) : Prop := answer.1 = t ∨ Acts i t answer.1

theorem Answers.same {i : Instr} {t : State} {r : Reply} : Answers i t (t, r) := .inl rfl

theorem Answers.act {i : Instr} {t u : State} {r : Reply} (h : Acts i t u) : Answers i t (u, r) := .inr h

theorem Answers.ite {i : Instr} {t : State} {c : Prop} [Decidable c] {a b : State × Reply}
    (ha : c → Answers i t a) (hb : ¬ c → Answers i t b) : Answers i t (if c then a else b) := by
  split
  · exact ha ‹_›
  · exact hb ‹_›

theorem leads_request {i : Instr} {p : Port} (hp : i.port? = some p) (code : Nat) (s : State)
    {owner : State → State × Reply} (h : ∀ t, Answers i t (owner t)) : Leads i s (request code p s owner) := by
  have hclose : PortOnly i s (closeWindow p s) := setPort_portOnly hp _ s
  obtain ⟨-, hreq⟩ | ⟨-, hreq⟩ | ⟨-, -, hreq⟩ := request_cases code p s owner <;> rw [hreq]
  · exact .of_portOnly hclose
  · exact ⟨_, _, hclose, h _, setPort_portOnly hp _ _⟩
  · exact .of_portOnly (hclose.trans (setPort_portOnly hp _ _))

theorem leads_unlessPor {i : Instr} (s : State) {f : State → State} (h : ∀ t, f t = t ∨ Acts i t (f t)) :
    Leads i s (unlessPor s f) := by
  refine .ite (fun _ => .of_portOnly (.refl i s)) fun _ => ?_
  obtain hf | hf := h s
  · rw [hf]
    exact .of_portOnly (.refl i s)
  · exact .of_acts hf

/-- An expiry acts where its timer runs, and leaves the state otherwise (log entry 1). -/
theorem leads_expiry {i : Instr} (s : State) {f : State → State} {runs : State → Bool}
    (h : ∀ t, runs t = true → Acts i t (f t)) :
    Leads i s (unlessPor s fun t => if runs t then f t else t) :=
  leads_unlessPor s fun t => by
    split
    · exact .inr (h t ‹_›)
    · exact .inl rfl

/-! ## Every command -/

/-- Every command leads from s to the state that it answers. -/
def EveryRunLeads (i : Instr) : Prop := ∀ s t, exec i s = .next t → Leads i s t

theorem EveryRunLeads.of_next {i : Instr} {after : State → State} (he : ∀ s, exec i s = .next (after s))
    (h : ∀ s, Leads i s (after s)) : EveryRunLeads i := by
  intro s t ht
  rw [he, Host.Outcome.next.injEq] at ht
  exact ht ▸ h s

theorem EveryRunLeads.of_request {i : Instr} {p : Port} {code : Nat} {owner : State → State × Reply}
    (hp : i.port? = some p) (he : ∀ s, exec i s = .next (request code p s owner))
    (h : ∀ t, Answers i t (owner t)) : EveryRunLeads i :=
  .of_next he fun s => leads_request hp code s h

theorem EveryRunLeads.of_read {i : Instr} {p : Port} {code : Nat} {reply : State → Reply}
    (hp : i.port? = some p) (he : ∀ s, exec i s = .next (readRequest code p s reply)) : EveryRunLeads i :=
  .of_request hp he fun _ => .same

theorem configureStage_leads (p : Port) (a : StageArgs) : EveryRunLeads (.configureStage p a) :=
  .of_request rfl (fun _ => rfl) fun _ => by
    split
    · exact .same
    · exact .act (.configureStage ‹_›)

theorem checkGauge_leads (p : Port) (channel : Nat) (reading : Int) : EveryRunLeads (.checkGauge p channel reading) :=
  .of_request rfl (fun _ => rfl) fun _ => by
    split
    · exact .same
    · refine .ite (fun _ => .same) fun _ => ?_
      split
      · exact .same
      · exact .ite (fun _ => .same) fun _ => .act .checkGauge

theorem readHistory_leads (p : Port) (maximum advance : Nat) : EveryRunLeads (.readHistory p maximum advance) :=
  .of_request rfl (fun _ => rfl) fun _ => by
    split
    · exact .same
    · exact .ite (fun _ => .same) fun _ => .act .readHistory

theorem writeVertical_leads (p : Port) (index : Nat) (a : VerticalArgs) : EveryRunLeads (.writeVertical p index a) :=
  .of_request rfl (fun _ => rfl) fun _ => by
    split
    · exact .ite (fun _ => .same) fun _ => .act .writeVertical
    · exact .same

theorem defineSlot_leads (p : Port) (slot : Nat) (a : SlotArgs) : EveryRunLeads (.defineSlot p slot a) :=
  .of_request rfl (fun _ => rfl) fun _ => by
    split
    · split
      · exact .same
      · exact .act .defineSlot
    · exact .same

theorem armSlot_leads (p : Port) (slot : Nat) : EveryRunLeads (.armSlot p slot) :=
  .of_request rfl (fun _ => rfl) fun t => by
    refine .ite (fun _ => .same) fun _ => ?_
    split
    · exact .same
    · cases h : (slotAt t slot).armed
      · exact .act .armSlot
      · exact .same

theorem positionReached_leads (p : Port) (reported : Nat) (sounded : Option Nat) :
    EveryRunLeads (.positionReached p reported sounded) :=
  .of_request rfl (fun _ => rfl) fun _ => by
    refine .ite (fun _ => .same) fun hmoving => .ite (fun _ => ?_) fun _ => .same
    split
    · exact .same
    · exact .act (.positionReached (not_not.mp hmoving))

theorem homeReached_leads (p : Port) : EveryRunLeads (.homeReached p) :=
  .of_request rfl (fun _ => rfl) fun _ => by
    split
    · exact .act (.homeReached ‹_›)
    · exact .same
    · exact .same

theorem setLevelCriteria_leads (p : Port) (a : CriteriaArgs) : EveryRunLeads (.setLevelCriteria p a) :=
  .of_request rfl (fun _ => rfl) fun _ => by
    split
    · exact .same
    · exact .same
    · exact .act .setLevelCriteria

theorem setRetreat_leads (p : Port) (stage : Option Int) (level : RetreatLevelArg) :
    EveryRunLeads (.setRetreat p stage level) :=
  .of_request rfl (fun _ => rfl) fun _ => by
    split
    · exact .same
    · exact .ite (fun _ => .act .setRetreat) fun _ => .same

theorem setWarningOutput_leads (p : Port) (output showLevel kind : Nat) :
    EveryRunLeads (.setWarningOutput p output showLevel kind) :=
  .of_request rfl (fun _ => rfl) fun _ => by
    split
    · exact .same
    · exact .ite (fun _ => .act .setWarningOutput) fun _ => .same

theorem setUpstreamEntry_leads (p : Port) (index address stepDown travel : Nat) :
    EveryRunLeads (.setUpstreamEntry p index address stepDown travel) :=
  .of_request rfl (fun _ => rfl) fun _ =>
    .ite (fun h => .act (.setUpstreamEntry (by simp [entryArgsInRange, within] at h; omega))) fun _ => .same

theorem setUpstreamFilter_leads (p : Port) (a : FilterArgs) : EveryRunLeads (.setUpstreamFilter p a) :=
  .of_request rfl (fun _ => rfl) fun _ => by
    split
    · exact .ite (fun h => .act (.setUpstreamFilter (Bool.and_elim_right h))) fun _ => .same
    · exact .same

theorem configureLine_leads (p : Port) (a : LineArgs) : EveryRunLeads (.configureLine p a) :=
  .of_request rfl (fun _ => rfl) fun _ => by
    split
    · rename_i hfields _
      have hline : a.line < 16 := by
        have := List.findIdx?_eq_none_iff.mp hfields (within 0 15 a.line) (by simp [lineFieldsInRange])
        simp [within] at this
        omega
      split
      · exact .same
      · exact .act (.configureLine hline)
    · exact .same

theorem readLines_leads (p : Port) (clear : Nat) : EveryRunLeads (.readLines p clear) :=
  .of_request rfl (fun _ => rfl) fun _ => by
    split
    · exact .same
    · rename_i yes _
      cases yes
      · exact .same
      · exact .act .readLines

theorem setAttention_leads (p : Port) (master oneShot : Nat) : EveryRunLeads (.setAttention p master oneShot) :=
  .of_request rfl (fun _ => rfl) fun _ => by
    split
    · exact .act .setAttention
    · exact .same

theorem setRoute_leads (p : Port) (source : Nat) (route : BitVec 8) : EveryRunLeads (.setRoute p source route) :=
  .of_request rfl (fun _ => rfl) fun _ =>
    .ite (fun h => .act (.setRoute (by simp [within] at h; omega))) fun _ => .same

theorem stationReset_leads (p : Port) : EveryRunLeads (.stationReset p) :=
  .of_next (fun _ => rfl) fun s =>
    have hclose : PortOnly (.stationReset p) s (closeWindow p s) := setPort_portOnly rfl _ s
    .ite (fun _ => .of_portOnly hclose) fun _ =>
      .ite (fun _ => ⟨_, _, hclose, .inr .stationReset, .refl _ _⟩) fun _ =>
        .of_portOnly (hclose.trans (setPort_portOnly rfl _ _))

theorem badFrame_leads (p : Port) (f : FrameFault) : EveryRunLeads (.badFrame p f) :=
  .of_next (fun _ => rfl) fun s =>
    have hclose : PortOnly (.badFrame p f) s (closeWindow p s) := setPort_portOnly rfl _ s
    .ite (fun _ => .of_portOnly hclose) fun _ => .of_portOnly (hclose.trans (setPort_portOnly rfl _ _))

theorem windowOpen_leads (p : Port) : EveryRunLeads (.windowOpen p) :=
  .of_next (fun _ => rfl) fun s => by
    refine .of_portOnly ?_
    simp only [openWindow]
    split
    · exact .refl _ s
    · exact setPort_portOnly rfl _ s

theorem withResetN_portOnly {i : Instr} (v : Bool) (s : State) : PortOnly i s (withResetN v s) :=
  ⟨fun b hb => by cases b <;> simp at hb <;> rfl, fun _ _ => rfl⟩

theorem resetNActivation_leads : EveryRunLeads .resetNActivation :=
  .of_next (fun _ => rfl) fun s =>
    .ite (fun _ => .of_portOnly (withResetN_portOnly true s)) fun _ =>
      ⟨_, _, withResetN_portOnly true s, .inr .resetNActivation, .refl _ _⟩

theorem linePinChange_leads (i : Nat) (outside : Option Level) : EveryRunLeads (.linePinChange i outside) :=
  .of_next (fun _ => rfl) fun s =>
    .ite (fun _ => .of_portOnly (.refl _ s)) fun hi =>
      .ite (fun _ => .of_acts (.lineForced (not_le.mp hi))) fun _ =>
        .ite (fun hpor => .of_acts (.lineForcedHeld hpor)) fun _ => .of_acts (.linePinChange (not_le.mp hi))

/-- What every command does (chapter 11, and log entries 1, 3, 23 and 24 for what it leaves undone). The commands
stand by the shape of their owner's answer. -/
theorem everyRunLeads : ∀ i : Instr, EveryRunLeads i
  -- windows that are no request
  | .readReply p | .discardedWindow p => .of_next (fun _ => rfl) fun s => .of_portOnly (setPort_portOnly rfl _ s)
  | .windowOpen p => windowOpen_leads p
  | .badFrame p f => badFrame_leads p f
  -- reads
  | .readClock _ | .readStage _ | .readStageConfig _ | .readHistoryState _ | .readRating _ | .rateStage _ _
  | .rateDischarge _ _ | .readStaged _ | .readVertical _ _ | .readMeter _ _ | .readSlot _ _ | .readSlotState _
  | .getTarget _ | .readRunState _ | .readResult _ _ | .readPass _ | .readPassVertical _ _ | .readWarning _
  | .readUpstreamEntry _ _ | .readUpstreamState _ | .readLineConfig _ | .peekNotices _ | .readNoticeRoutes _ =>
    .of_read rfl fun _ => rfl
  -- requests that are taken whatever they carry
  | .clearStaged _ => .of_request rfl (fun _ => rfl) fun _ => .act .clearStaged
  | .carriageFault _ _ => .of_request rfl (fun _ => rfl) fun _ => .act .carriageFault
  | .resetEngine _ => .of_request rfl (fun _ => rfl) fun _ => .act .resetEngine
  | .silence _ => .of_request rfl (fun _ => rfl) fun _ => .act .silence
  | .setHash _ _ => .of_request rfl (fun _ => rfl) fun _ => .act .setHash
  | .clearUpstreamCounters _ => .of_request rfl (fun _ => rfl) fun _ => .act .clearUpstreamCounters
  | .fetchNotices _ => .of_request rfl (fun _ => rfl) fun _ => .act .fetchNotices
  -- one check, which refuses where it holds
  | .setClock _ _ => .of_request rfl (fun _ => rfl) fun _ => .ite (fun _ => .same) fun _ => .act .setClock
  | .setHistoryThreshold _ _ =>
    .of_request rfl (fun _ => rfl) fun _ => .ite (fun _ => .same) fun _ => .act .setHistoryThreshold
  | .overrideOn _ _ => .of_request rfl (fun _ => rfl) fun _ => .ite (fun _ => .same) fun _ => .act .overrideOn
  | .overrideOff _ _ => .of_request rfl (fun _ => rfl) fun _ => .ite (fun _ => .same) fun _ => .act .overrideOff
  | .overrideAuto _ _ => .of_request rfl (fun _ => rfl) fun _ => .ite (fun _ => .same) fun _ => .act .overrideAuto
  -- one check, which refuses where it fails
  | .setHistoryInterval _ _ =>
    .of_request rfl (fun _ => rfl) fun _ => .ite (fun _ => .act .setHistoryInterval) fun _ => .same
  | .writeStagedPoint _ _ _ _ =>
    .of_request rfl (fun _ => rfl) fun _ => .ite (fun h => .act (.writeStagedPoint h)) fun _ => .same
  | .setShift _ _ => .of_request rfl (fun _ => rfl) fun _ => .ite (fun _ => .act .setShift) fun _ => .same
  | .setExtrapolationLimit _ _ =>
    .of_request rfl (fun _ => rfl) fun _ => .ite (fun _ => .act .setExtrapolationLimit) fun _ => .same
  | .disarmSlot _ _ => .of_request rfl (fun _ => rfl) fun _ => .ite (fun _ => .act .disarmSlot) fun _ => .same
  | .clearRequest _ _ => .of_request rfl (fun _ => rfl) fun _ => .ite (fun _ => .act .clearRequest) fun _ => .same
  | .depthReached _ =>
    .of_request rfl (fun _ => rfl) fun _ => .ite (fun h => .act (.depthReached h)) fun _ => .same
  | .proceed _ => .of_request rfl (fun _ => rfl) fun _ => .ite (fun h => .act (.proceed h)) fun _ => .same
  | .cancelRun _ => .of_request rfl (fun _ => rfl) fun _ => .ite (fun h => .act (.cancelRun h)) fun _ => .same
  | .clearTrip _ => .of_request rfl (fun _ => rfl) fun _ => .ite (fun h => .act (.clearTrip h)) fun _ => .same
  | .upstreamReport _ _ =>
    .of_request rfl (fun _ => rfl) fun _ => .ite (fun h => .inr (.upstreamReport h)) fun _ => .same
  | .setUpstreamEntry p index address stepDown travel => setUpstreamEntry_leads p index address stepDown travel
  | .writeLines _ _ _ => .of_request rfl (fun _ => rfl) fun _ => .ite (fun _ => .act .writeLines) fun _ => .same
  | .setNoticeEnable _ _ =>
    .of_request rfl (fun _ => rfl) fun _ => .ite (fun _ => .act .setNoticeEnable) fun _ => .same
  | .setRoute p source route => setRoute_leads p source route
  -- two checks
  | .clearVertical _ _ => .of_request rfl (fun _ => rfl) fun _ =>
      .ite (fun _ => .same) fun _ => .ite (fun _ => .same) fun _ => .act .clearVertical
  | .writeMeter _ _ _ => .of_request rfl (fun _ => rfl) fun _ =>
      .ite (fun _ => .same) fun _ => .ite (fun _ => .same) fun _ => .act .writeMeter
  | .startRun _ _ => .of_request rfl (fun _ => rfl) fun _ =>
      .ite (fun _ => .same) fun _ => .ite (fun _ => .act .startRun) fun _ => .same
  -- one field read, refused where it has no meaning
  | .seekHistory _ _ => .of_request rfl (fun _ => rfl) fun _ => by
      split
      · exact .same
      · exact .act .seekHistory
  | .installRating _ => .of_request rfl (fun _ => rfl) fun _ => by
      split
      · exact .same
      · exact .act (.installRating ‹_›)
  | .setSlotPriority _ _ => .of_request rfl (fun _ => rfl) fun _ => by
      split
      · exact .same
      · exact .act .setSlotPriority
  | .configureStage p a => configureStage_leads p a
  | .readLines p clear => readLines_leads p clear
  -- checks of several kinds
  | .checkGauge p channel reading => checkGauge_leads p channel reading
  | .readHistory p maximum advance => readHistory_leads p maximum advance
  | .writeVertical p index a => writeVertical_leads p index a
  | .defineSlot p slot a => defineSlot_leads p slot a
  | .armSlot p slot => armSlot_leads p slot
  | .positionReached p reported sounded => positionReached_leads p reported sounded
  | .homeReached p => homeReached_leads p
  | .setLevelCriteria p a => setLevelCriteria_leads p a
  | .setRetreat p stage level => setRetreat_leads p stage level
  | .setWarningOutput p output showLevel kind => setWarningOutput_leads p output showLevel kind
  | .setUpstreamFilter p a => setUpstreamFilter_leads p a
  | .configureLine p a => configureLine_leads p a
  | .setAttention p master oneShot => setAttention_leads p master oneShot
  -- resets and inputs
  | .stationReset p => stationReset_leads p
  | .resetNActivation => resetNActivation_leads
  | .resetNRelease => .of_next (fun _ => rfl) fun s => .of_portOnly (withResetN_portOnly false s)
  | .porAssert => .of_next (fun _ => rfl) fun _ => .of_acts .porAssert
  | .porRelease => .of_next (fun _ => rfl) fun s =>
      .ite (fun _ => .of_acts .porRelease) fun _ => .of_portOnly (.refl _ s)
  | .encoderPhaseChange _ _ => .of_next (fun _ => rfl) fun _ => .of_acts .encoderPhaseChange
  | .pPulse edge => .of_next (fun _ => rfl) fun s => leads_unlessPor s fun t => by
      split
      · exact .inr .pPulse
      · exact .inl rfl
  | .linePinChange i outside => linePinChange_leads i outside
  -- time
  | .stationClockAdvance => .of_next (fun _ => rfl) fun s => leads_unlessPor s fun _ => .inr .stationClockAdvance
  | .uptimeAdvance => .of_next (fun _ => rfl) fun s => leads_unlessPor s fun _ => .inr .uptimeAdvance
  | .stageSample => .of_next (fun _ => rfl) fun s => leads_unlessPor s fun _ => .inr .stageSample
  | .moveTimerExpiry => .of_next (fun _ => rfl) fun s => leads_expiry s fun _ => .moveTimerExpiry
  | .settleTimerExpiry => .of_next (fun _ => rfl) fun s => leads_expiry s fun _ => .settleTimerExpiry
  | .countTimerExpiry => .of_next (fun _ => rfl) fun s => leads_expiry s fun _ => .countTimerExpiry
  | .pauseTimerExpiry => .of_next (fun _ => rfl) fun s => leads_expiry s fun _ => .pauseTimerExpiry
  | .dwellTimerExpiry => .of_next (fun _ => rfl) fun s =>
      leads_expiry (runs := fun t => t.warning.dwell.isRunning) s fun _ => .dwellTimerExpiry
  | .homeTimerExpiry => .of_next (fun _ => rfl) fun s => leads_unlessPor s fun t => by
      cases h : homeRuns t
      · exact .inl (by simp [homeExpiry, h])
      · exact .inr (.homeTimerExpiry h)
  | .intervalTimerExpiry _ => .of_next (fun _ => rfl) fun s => leads_unlessPor s fun _ => .inr .intervalTimerExpiry
  | .delayTimerExpiry _ => .of_next (fun _ => rfl) fun s => leads_unlessPor s fun _ => .inr .delayTimerExpiry
  | .staleTimerExpiry _ => .of_next (fun _ => rfl) fun s => leads_unlessPor s fun _ => .inr .staleTimerExpiry

/-! ## Invariants of a step -/

/-- A claim about a state that does not read the ports. -/
def PortBlind (P : State → Prop) : Prop := ∀ s t, KeepsBut [.ports] s t → P s → P t

/-- A claim that does not read the ports and that every act keeps is kept by every command. -/
theorem exec_keeps_of_acts {P : State → Prop} (hports : PortBlind P) (hacts : ∀ i s t, Acts i s t → P s → P t)
    {i : Instr} {s t : State} (hs : P s) (h : exec i s = .next t) : P t := by
  obtain ⟨u, v, hsu, huv, hvt⟩ := everyRunLeads i s t h
  have hu : P u := hports s u hsu.keeps hs
  have hv : P v := by
    obtain rfl | hact := huv
    · exact hu
    · exact hacts i u v hact hu
  exact hports v t hvt.keeps hv

/-- A step on an empty queue changes the queue, or lets a millisecond pass, or changes nothing (log entry 2). -/
theorem idle_cases (s : State) :
    idle s = s ∨ (∃ c, idle s = { s with pending := [c] }) ∨ idle s = passMillisecond s := by
  unfold idle
  split
  · exact .inl rfl
  · split
    · exact .inr (.inl ⟨_, rfl⟩)
    · exact .inr (.inr rfl)

/-- A claim that every act keeps, and that reads neither the ports nor the queue, is kept by every step that keeps
it while a millisecond passes. -/
theorem step_keeps_of_acts {P : State → Prop} (hports : PortBlind P)
    (hqueue : ∀ s pending, P s → P { s with pending := pending }) (htime : ∀ s, P s → P (passMillisecond s))
    (hacts : ∀ i s t, Acts i s t → P s → P t) {s t : State} (hs : P s) (h : step s = .next t) : P t := by
  unfold step at h
  split at h
  · exact exec_keeps_of_acts hports hacts (hqueue s _ hs) h
  · rw [Host.Outcome.next.injEq] at h
    subst h
    obtain hi | ⟨c, hi⟩ | hi := idle_cases s <;> rw [hi]
    · exact hs
    · exact hqueue s _ hs
    · exact htime s hs

end Sys2Proof.Machine
end

section
/-! SUPPORT. The Notice Unit under the shared operations: every one of them makes of it what raising events and
handing conditions make. What these two keep, every command keeps but the requests of the Notice Unit and the
resets (R189 to R194). -/

namespace Sys2Proof.Machine

/-! ## Raising and handing -/

/-- A source that is an event and no condition (R188). -/
def Source.IsEvent (e : Source) : Prop := sourceNumber e ∉ [2, 7, 10, 11, 14, 18]

/-- What the Notice Unit becomes by raising events and handing conditions (R190, R191). -/
inductive NoticeUnit.Becomes (n : NoticeUnit) : NoticeUnit → Prop where
  | same : n.Becomes n
  | raise {m : NoticeUnit} {e : Source} : e.IsEvent → n.Becomes m → n.Becomes (m.raise e)
  | hand {m : NoticeUnit} (c : Condition) (v : Bool) : n.Becomes m → n.Becomes (m.hand c v)
  | handReady {m : NoticeUnit} (p : Port) (v : Bool) : n.Becomes m → n.Becomes (m.handReady p v)

/-- From s to t the Notice Unit has been raised events and handed conditions, and nothing else. -/
def Informs (s t : State) : Prop := s.notices.Becomes t.notices

theorem Informs.of_eq {s t : State} (h : t.notices = s.notices) : Informs s t := by
  unfold Informs
  rw [h]
  exact .same

theorem Informs.refl (s : State) : Informs s s := .of_eq rfl

theorem Informs.trans {s t u : State} (h : Informs s t) (h' : Informs t u) : Informs s u := by
  unfold Informs at h' ⊢
  generalize u.notices = m at h' ⊢
  induction h' with
  | same => exact h
  | raise he _ ih => exact .raise he ih
  | hand c v _ ih => exact .hand c v ih
  | handReady p v _ ih => exact .handReady p v ih

theorem Informs.ite {s t u : State} {c : Prop} [Decidable c] (h : Informs s t) (h' : Informs s u) :
    Informs s (if c then t else u) := by
  split <;> assumption

/-- What comes before without touching the notices. -/
theorem Informs.before {s t u : State} (h : Informs t u) (hs : t.notices = s.notices) : Informs s u :=
  .trans (.of_eq hs) h

/-- What follows without touching the notices. -/
theorem Informs.after {s t u : State} (h : Informs s t) (hu : u.notices = t.notices) : Informs s u :=
  .trans h (.of_eq hu)

theorem raise_informs (e : Source) (s : State) (he : e.IsEvent := by unfold Source.IsEvent; decide) :
    Informs s (raise e s) := .raise he .same

theorem raiseIf_informs (b : Bool) (e : Source) (s : State) (he : e.IsEvent := by unfold Source.IsEvent; decide) :
    Informs s (raiseIf b e s) := (raise_informs e s he).ite (.refl s)

theorem handCondition_informs (c : Condition) (v : Bool) (s : State) : Informs s (handCondition c v s) :=
  .hand c v .same

theorem withEngine_informs (e : RunEngine) (s : State) : Informs s (withEngine e s) := .of_eq rfl

theorem handReady_informs (p : Port) (v : Bool) (s : State) : Informs s (handReady p v s) := .handReady p v .same

/-! ## Lines and states of the engine -/

theorem judgeLines_informs (old : FieldLines) (s : State) : Informs s (judgeLines old s) :=
  (raiseIf_informs _ _ _).before rfl

theorem changeLines_informs (f : FieldLines) (s : State) : Informs s (changeLines f s) :=
  (judgeLines_informs _ _).before rfl

theorem handPermit_informs (v : Permit) (s : State) : Informs s (handPermit v s) :=
  (Informs.refl s).ite (changeLines_informs _ s)

theorem handDriven_informs (v : Vector Bool 4) (s : State) : Informs s (handDriven v s) :=
  (Informs.refl s).ite (changeLines_informs _ s)

theorem enter_informs (st : RunState) (s : State) : Informs s (enter st s) :=
  (withEngine_informs _ s).trans <| (handPermit_informs _ _).trans <| (handCondition_informs _ _ _).trans <|
    (handCondition_informs _ _ _).trans (handCondition_informs _ _ _)

theorem enterMove_informs (st : RunState) (s : State) : Informs s (enterMove st s) :=
  (enter_informs st s).trans (withEngine_informs _ _)

/-! ## The course of a run -/

theorem closePass_informs (status : PassStatus) (cause : EndCause) (s : State) :
    Informs s (closePass status cause s) := (raise_informs .passDone _).before rfl

theorem closeIfOpen_informs (cause : EndCause) (s : State) : Informs s (closeIfOpen cause s) :=
  (closePass_informs _ _ s).ite (.refl s)

theorem recallRun_informs (cause : EndCause) (s : State) : Informs s (recallRun cause s) :=
  have hclosed : Informs s (recallClosed cause s) := ((closeIfOpen_informs cause (stopTimers s)).before rfl).after rfl
  (hclosed.trans (enter_informs .homing _)).after rfl

theorem planEnd_notices (cause : EndCause) (s : State) : (planEnd cause s).notices = s.notices :=
  planEnd_keeps cause s .notices (by decide)

theorem endRun_informs (cause : EndCause) (s : State) : Informs s (endRun cause s) :=
  (raise_informs .runEnded s).trans (.of_eq (planEnd_notices cause _))

theorem fetchRecord_informs (i : Nat) (r : VerticalRecord) (s : State) : Informs s (fetchRecord i r s) := by
  rw [fetchRecord_eq]
  exact (enterMove_informs .moving _).before rfl

theorem fetch_informs (s : State) : Informs s (fetch s) := by
  obtain ⟨cause, -, h⟩ | ⟨-, h⟩ := fetch_cases s <;> rw [h]
  · exact recallRun_informs cause s
  · exact fetchRecord_informs _ _ s

theorem startPass_informs (number : Nat) (s : State) : Informs s (startPass number s) := by
  rw [startPass_eq]
  exact (fetch_informs _).before rfl

theorem takeSlot_informs (k : Nat) (s : State) : Informs s (takeSlot k s) := by
  rw [takeSlot_eq]
  exact .trans ((raise_informs .runStarted s).after rfl) (startPass_informs 1 (slotTaken k s))

theorem takeAttempt_informs (s : State) : Informs s (takeAttempt s) := by
  obtain h | ⟨k, h, -⟩ := takeAttempt_cases s <;> rw [h]
  · exact .refl s
  · exact takeSlot_informs k s

theorem hold_informs (kind : HoldKind) (s : State) : Informs s (hold kind s) :=
  (withEngine_informs _ s).trans (enter_informs _ _)

theorem endPass_informs (s : State) : Informs s (endPass s) := by
  have hclose := closePass_informs .complete .complete s
  refine Informs.ite (Informs.ite ?_ (hclose.trans (recallRun_informs _ _))) (recallRun_informs _ s)
  split
  · exact hclose.trans (startPass_informs _ _)
  · exact hclose.trans (hold_informs _ _)

theorem completeVertical_informs (s : State) : Informs s (completeVertical s) := by
  refine Informs.ite ?_ ((endPass_informs _).before rfl)
  split
  · exact (fetch_informs _).before rfl
  · exact (hold_informs _ _).before rfl

theorem startCounting_informs (s : State) : Informs s (startCounting s) :=
  have hentered : Informs s (countingEntered s) :=
    (withEngine_informs _ s).trans ((enter_informs _ _).trans (withEngine_informs _ _))
  Informs.ite (hentered.trans (.of_eq (pausePoint_quiet _).1)) hentered

theorem startSettling_informs (s : State) : Informs s (startSettling s) :=
  have hentered := enter_informs .settling s
  (hentered.trans (startCounting_informs _)).ite (hentered.trans (withEngine_informs _ _))

theorem goToPoint_informs (s : State) : Informs s (goToPoint s) := by
  unfold goToPoint
  split
  · exact startSettling_informs s
  · exact enterMove_informs .lowering s

theorem arrive_informs (depth : Nat) (s : State) : Informs s (arrive depth s) :=
  Informs.ite ((completeVertical_informs _).before rfl) ((goToPoint_informs _).before rfl)

theorem endPoint_informs (s : State) : Informs s (endPoint s) :=
  Informs.ite ((enterMove_informs _ _).before rfl) ((completeVertical_informs _).before rfl)

theorem settledPassage_informs (active : Bool) (s : State) : Informs s (settledPassage active s) := by
  obtain quiet | ⟨e, -, -, -, -, h⟩ := settledPassage_cases active s
  · exact .of_eq quiet.1
  · rw [h]
    exact (endPoint_informs _).before rfl

theorem haltedIn_informs (st : RunState) (record : TripRecord) (cause : EndCause) (s : State) :
    Informs s (haltedIn st record cause s) :=
  ((closeIfOpen_informs cause (stopTimers s)).before rfl).trans ((enter_informs st _).before rfl)

theorem tripEngine_informs (record : TripRecord) (s : State) : Informs s (tripEngine record s) := by
  by_cases h : s.engine.state = .tripped
  · simp only [tripEngine, h, if_true]
    exact .refl s
  · have hhalt := haltedIn_informs .tripped record .trip s
    rw [tripEngine_eq h]
    exact (hhalt.trans (endRun_informs .trip _)).ite hhalt

theorem endIdle_informs (cause : EndCause) (s : State) : Informs s (endIdle cause s) :=
  .trans (enter_informs .idle s) (.trans (endRun_informs cause _) (takeAttempt_informs _))

theorem endByReset_informs (s : State) : Informs s (endByReset s) := by
  refine Informs.ite (.trans ?_ ((enter_informs _ _).trans (endRun_informs _ _))) (.refl s)
  exact (closeIfOpen_informs _ _).before rfl

theorem resetEngine_informs (s : State) : Informs s (resetEngine s) := by
  refine Informs.trans ?_ (.of_eq (t := resetEngine s) rfl)
  exact (endByReset_informs s).trans ((enter_informs .idle _).ite (.refl _))

theorem homeExpiry_informs (s : State) : Informs s (homeExpiry s) := by
  refine Informs.ite (.trans ?_ (endRun_informs _ _)) (.refl s)
  exact (enter_informs _ _).before rfl

theorem armSlot_informs (k : Nat) (s : State) : Informs s (armSlot k s) := 
  (takeAttempt_informs _).before rfl

theorem disarmSlot_informs (k : Nat) (s : State) : Informs s (disarmSlot k s) :=
  Informs.ite ((recallRun_informs _ _).before rfl) (.of_eq rfl)

theorem intervalExpiry_informs (k : Nat) (s : State) : Informs s (intervalExpiry k s) :=
  Informs.ite ((takeAttempt_informs _).before rfl) (.refl s)

theorem proceedRun_informs (s : State) : Informs s (proceedRun s) := by
  unfold proceedRun
  split
  · exact startPass_informs _ s
  · exact fetch_informs s

/-! ## Evaluations, offers and reports -/

theorem formOutputs_informs (s : State) : Informs s (formOutputs s) :=
  (handDriven_informs _ _).before rfl

theorem judgeLevelTriggers_informs (before after : Nat) (s : State) : Informs s (judgeLevelTriggers before after s) :=
  Informs.ite ((takeAttempt_informs _).before rfl) (.of_eq rfl)

theorem foldl_informs {α : Type} {f : State → α → State} (h : ∀ s a, Informs s (f s a)) (as : List α) (s : State) :
    Informs s (as.foldl f s) := by
  induction as generalizing s with
  | nil => exact .refl s
  | cons a as ih => exact (h s a).trans (ih _)

theorem retreatRecall_informs (s : State) : Informs s (retreatRecall s) :=
  (recallRun_informs _ s).ite (.refl s)

theorem raiseChange_informs (s : State) (c : Nat × Nat) : Informs s (raiseChange s c) := by
  unfold raiseChange
  split <;> exact raise_informs _ s

theorem retreatHanded_informs (changes : List (Nat × Nat)) (s : State) : Informs s (retreatHanded changes s) := by
  refine (foldl_informs raiseChange_informs changes s).trans ?_
  exact (handCondition_informs _ _ _).before rfl

theorem handLevelChange_informs (s : State) (c : Nat × Nat) : Informs s (handLevelChange s c) :=
  (judgeLevelTriggers_informs _ _ _).before rfl

theorem handOn_informs (changes : List (Nat × Nat)) (s : State) : Informs s (handOn changes s) := by
  have hhanded := retreatHanded_informs changes s
  have hformed {t : State} (h : Informs s t) : Informs s (formOutputs (changes.foldl handLevelChange t)) :=
    (h.trans (foldl_informs handLevelChange_informs changes t)).trans (formOutputs_informs _)
  have hrecalled := hformed ((hhanded.trans (retreatRecall_informs _)).ite (c := (!s.warning.retreat &&
    retreatAfter s.warning s.stage.stilled) = true) hhanded)
  rw [handOn_eq]
  exact (hrecalled.trans (takeAttempt_informs _)).ite hrecalled

theorem evaluate_informs (s : State) : Informs s (evaluate s) := (handOn_informs _ _).before rfl

theorem dwellExpiry_informs (s : State) : Informs s (dwellExpiry s) :=
  Informs.ite (.of_eq rfl) ((handOn_informs _ _).before rfl)

theorem takeSilence_informs (s : State) : Informs s (takeSilence s) := by
  refine (Informs.refl s).ite (.trans ?_ (formOutputs_informs _))
  exact (raise_informs _ _).before rfl

theorem recomputeDischarge_informs (stage : Option Int) (s : State) : Informs s (recomputeDischarge stage s) :=
  (handCondition_informs _ _ _).before rfl

theorem rateAgain_informs (s : State) : Informs s (rateAgain s) :=
  (recomputeDischarge_informs _ s).trans (evaluate_informs _)

theorem offer_informs (s : State) : Informs s (offer s) :=
  (rateAgain_informs s).trans ((takeAttempt_informs _).before rfl)

theorem setStatus_informs (status : StageStatus) (s : State) : Informs s (setStatus status s) :=
  (raiseIf_informs _ _ _).before rfl

theorem startOver_informs (s : State) : Informs s (startOver s) := (setStatus_informs _ s).trans (offer_informs _)

theorem takeSample_informs (s : State) : Informs s (takeSample s) := by
  refine .trans ?_ <| (raiseIf_informs _ .signalLoss _).trans <| (raiseIf_informs _ .disagree _).trans <|
    (setStatus_informs _ _).trans (offer_informs _)
  exact (raiseIf_informs _ _ _).before rfl

theorem formFloor_informs (s : State) : Informs s (formFloor s) :=
  (Informs.refl s).ite ((evaluate_informs _).before rfl)

theorem delayExpiry_informs (i : Nat) (s : State) : Informs s (delayExpiry i s) := by
  simp only [delayExpiry]
  split
  · exact .refl s
  · exact Informs.ite (.of_eq rfl) ((formFloor_informs _).before rfl)

theorem staleExpiry_informs (i : Nat) (s : State) : Informs s (staleExpiry i s) := by
  refine Informs.ite (.trans ?_ (formFloor_informs _)) (.refl s)
  exact (raise_informs _ _).before rfl

theorem judgeStaleness_informs (s : State) : Informs s (judgeStaleness s) := by
  refine Informs.ite (.trans ?_ (formFloor_informs _)) ?_
  all_goals exact (raiseIf_informs _ _ _).before rfl

theorem handAccepted_informs (cls : Nat) (s : State) : Informs s (handAccepted cls s) :=
  (raise_informs .upstreamAccepted s).trans ((takeAttempt_informs _).before rfl)

theorem takeReport_informs (a : ReportArgs) (s : State) : Informs s (takeReport a s).1 := by
  unfold takeReport
  split
  · refine .trans ?_ (handAccepted_informs a.cls _)
    exact Informs.ite ((formFloor_informs _).before rfl) (.of_eq rfl)
  · exact (handAccepted_informs _ _).before rfl
  · exact .of_eq rfl
  · exact .of_eq rfl

/-! ## History and line passages -/

theorem judgeReady_informs (p : Port) (s : State) : Informs s (judgeReady p s) := handReady_informs p _ s

theorem takeBoundary_informs (s : State) : Informs s (takeBoundary s) := by
  refine .trans (.trans ?_ (judgeReady_informs .T _)) (judgeReady_informs .C _)
  exact (judgeReady_informs .L _).before rfl

theorem advanceClock_informs (s : State) : Informs s (advanceClock s) :=
  Informs.ite (Informs.ite ((takeBoundary_informs _).before rfl) (.of_eq rfl)) (.of_eq rfl)

theorem judgeLine_informs (i : Nat) (moved : Bool) (s : State) : Informs s (judgeLine i moved s) :=
  Informs.ite ((raise_informs _ _).before rfl) (.refl s)

theorem handPassage_informs (i : Nat) (f : LineFunction) (before after : Bool) (s : State) :
    Informs s (handPassage i f before after s) := by
  refine (Informs.refl s).ite ?_
  split
  · exact .of_eq (meterPulse_quiet s).1
  · exact settledPassage_informs _ s
  · exact tripEngine_informs _ s
  · exact takeSilence_informs s
  · exact .refl s

theorem pinChange_informs (i : Nat) (level : Level) (s : State) : Informs s (pinChange i level s) := by
  refine .trans ?_ (judgeLine_informs i _ _)
  exact (handPassage_informs _ _ _ _ _).before rfl

theorem presentLine_informs (line : Nat) (new : FieldLine) (s : State) : Informs s (presentLine line new s) :=
  Informs.ite (.of_eq rfl) ((pinChange_informs _ _ _).before rfl)

theorem configureLine_informs (line : Nat) (new : FieldLine) (s : State) : Informs s (configureLine line new s) :=
  have hpresent := presentLine_informs line new s
  Informs.trans (Informs.ite (hpresent.trans (tripEngine_informs _ _)) hpresent) (takeAttempt_informs _)

/-! ## Every act -/

/-- The commands that set more of the Notice Unit than events and conditions: its own requests, and the resets. -/
def setsNotices : Instr → Bool
  | .fetchNotices _ | .setNoticeEnable _ _ | .setAttention _ _ _ | .setRoute _ _ _ => true
  | .stationReset _ | .resetNActivation | .porAssert | .porRelease => true
  | _ => false

theorem acts_informs {i : Instr} {s t : State} (h : Acts i s t) (hi : setsNotices i = false) : Informs s t := by
  cases h with
  | setClock | uptimeAdvance | encoderPhaseChange | pPulse | setHistoryInterval | writeStagedPoint | clearStaged
  | writeVertical | clearVertical | writeMeter | defineSlot | clearRequest | setSlotPriority | pauseTimerExpiry
  | setHash | clearUpstreamCounters | readLines | lineForced | lineForcedHeld => exact .of_eq rfl
  | fetchNotices | setNoticeEnable | setAttention | setRoute | stationReset | resetNActivation | porAssert
  | porRelease => simp [setsNotices] at hi
  | stationClockAdvance => exact advanceClock_informs s
  | stageSample => exact takeSample_informs s
  | configureStage | checkGauge => exact (startOver_informs _).before rfl
  | readHistory | seekHistory | setHistoryThreshold => exact (judgeReady_informs _ _).before rfl
  | installRating =>
    refine .trans ?_ (rateAgain_informs _)
    exact (raise_informs _ _).before rfl
  | setShift | setExtrapolationLimit => exact (rateAgain_informs _).before rfl
  | armSlot => exact armSlot_informs _ s
  | disarmSlot => exact disarmSlot_informs _ s
  | startRun => exact (takeAttempt_informs _).before rfl
  | intervalTimerExpiry => exact intervalExpiry_informs _ s
  | positionReached => exact arrive_informs _ s
  | depthReached => exact (startSettling_informs _).before rfl
  | homeReached => exact (endIdle_informs _ _).before rfl
  | proceed => exact proceedRun_informs s
  | cancelRun | moveTimerExpiry => exact recallRun_informs _ s
  | carriageFault => exact tripEngine_informs _ s
  | clearTrip => exact (enter_informs .idle s).trans (takeAttempt_informs _)
  | resetEngine => exact resetEngine_informs s
  | settleTimerExpiry => exact startCounting_informs s
  | countTimerExpiry => exact endPoint_informs s
  | homeTimerExpiry => exact homeExpiry_informs s
  | setLevelCriteria | setRetreat => exact (evaluate_informs _).before rfl
  | setWarningOutput | overrideOn | overrideOff | overrideAuto => exact (formOutputs_informs _).before rfl
  | silence => exact takeSilence_informs s
  | dwellTimerExpiry => exact dwellExpiry_informs s
  | upstreamReport => exact takeReport_informs _ s
  | setUpstreamEntry => exact Informs.ite ((formFloor_informs _).before rfl) (.of_eq rfl)
  | setUpstreamFilter => exact (judgeStaleness_informs _).before rfl
  | delayTimerExpiry => exact delayExpiry_informs _ s
  | staleTimerExpiry => exact staleExpiry_informs _ s
  | writeLines => exact changeLines_informs _ s
  | configureLine => exact configureLine_informs _ _ s
  | linePinChange => exact (pinChange_informs _ _ _).before rfl

end Sys2Proof.Machine
end

section
/-! SUPPORT. The invariant of the Notice Unit (R189, R191, R194). Of its two directions one, that a pending
condition is routed and holds, survives even the emptying of a station reset; the other, that a routed condition
which holds is pending, is lost there and comes back when the reset adds the conditions that hold (R199). Both are
kept by raising and handing. -/

namespace Sys2Proof.Machine

/-! ## Bits of the pending set -/

theorem conditionNumber_lt (c : Condition) : conditionNumber c < 20 := sourceNumber_lt _

theorem mem_conditionNumbers_self (c : Condition) : (c, conditionNumber c) ∈ conditionNumbers := by
  cases c <;> decide

theorem member_bit {n k : Nat} (hk : k < 20) : (member n).getLsbD k = decide (k = n) := by
  rw [member, BitVec.getLsbD_shiftLeft, BitVec.getLsbD_one, Bool.eq_iff_iff]
  simp
  omega

/-- A source handed to a port: HISTORY_READY is the port's own, and a routed source joins or leaves its set (R190,
R191). -/
def PortNotices.handed (x : PortNotices) (k : Nat) (v routed : Bool) : PortNotices :=
  let y := { x with historyReady := if k = 18 then v else x.historyReady }
  if routed then y.mark k v else y

theorem PortNotices.handed_bit (x : PortNotices) (k : Nat) (v routed : Bool) {j : Nat} (hj : j < 20) :
    (x.handed k v routed).pendingSet.getLsbD j =
      if routed = true ∧ j = k then v else x.pendingSet.getLsbD j := by
  cases routed
  · simp [handed]
  · simp [handed, PortNotices.mark_bit _ _ _ _ hj]

theorem PortNotices.handed_historyReady (x : PortNotices) (k : Nat) (v routed : Bool) :
    (x.handed k v routed).historyReady = if k = 18 then v else x.historyReady := by
  cases routed <;> simp [handed]

theorem NoticeUnit.raise_port (n : NoticeUnit) {e : Source} (he : e.IsEvent) (p : Port) :
    (n.raise e).port.get p = (n.port.get p).handed (sourceNumber e) true (n.routed (sourceNumber e) p) := by
  have hready : sourceNumber e ≠ 18 := fun h => he (by simp [h])
  simp [NoticeUnit.raise, PortNotices.handed, hready]

theorem NoticeUnit.hand_port {n : NoticeUnit} {c : Condition} {v : Bool} (h : n.holds c ≠ v) (p : Port) :
    (n.hand c v).port.get p = (n.port.get p).handed (conditionNumber c) v (n.routed (conditionNumber c) p) := by
  have hready : conditionNumber c ≠ 18 := by cases c <;> decide
  simp only [NoticeUnit.hand, h, if_false, PerPort.get_mapPorts, PortNotices.handed, hready]
  rfl

theorem NoticeUnit.handReady_port {n : NoticeUnit} {p : Port} {v : Bool} (h : (n.port.get p).historyReady ≠ v) :
    (n.handReady p v).port.get p = (n.port.get p).handed 18 v (n.routed 18 p) := by
  simp only [NoticeUnit.handReady, h, if_false, PerPort.get_set_self, PortNotices.handed]
  rfl

theorem NoticeUnit.handReady_other (n : NoticeUnit) {p q : Port} (h : q ≠ p) (v : Bool) :
    (n.handReady p v).port.get q = n.port.get q := by
  unfold NoticeUnit.handReady
  extract_lets x y z
  split
  · rfl
  · exact PerPort.get_set_other _ h _

theorem NoticeUnit.handReady_kept (n : NoticeUnit) (p : Port) (v : Bool) :
    (n.handReady p v).routes = n.routes ∧ (n.handReady p v).holds = n.holds := by
  unfold NoticeUnit.handReady
  extract_lets x y z
  split
  · exact ⟨rfl, rfl⟩
  · exact ⟨rfl, funext fun c => by cases c <;> rfl⟩

/-! ## What raising and handing keep -/

/-- A claim about a port's notices, given which sources are routed to it and which conditions hold. -/
abbrev PortClaim := (Nat → Bool) → (Condition → Bool) → PortNotices → Prop

/-- A claim that a source handed to the port keeps, the source being a condition that comes to hold or stops
holding, the port's own HISTORY_READY, or an event. -/
def PortClaim.Kept (Q : PortClaim) : Prop :=
  ∀ (routed : Nat → Bool) (holds holds' : Condition → Bool) (x : PortNotices) (k : Nat) (v : Bool), k < 20 →
    (∀ c, holds' c = if conditionNumber c = k then v else holds c) → Q routed holds x →
    Q routed holds' (x.handed k v (routed k))

/-- The claim holds of a port of the Notice Unit. -/
def PortClaim.At (Q : PortClaim) (n : NoticeUnit) (p : Port) : Prop :=
  Q (fun k => n.routed k p) n.holds (n.port.get p)

theorem PortClaim.Kept.becomes {Q : PortClaim} (hQ : Q.Kept) {n m : NoticeUnit} (h : n.Becomes m) {p : Port}
    (hn : Q.At n p) : Q.At m p := by
  induction h with
  | same => exact hn
  | @raise m e he _ ih =>
    have hholds (c : Condition) : (m.raise e).holds c =
        if conditionNumber c = sourceNumber e then true else m.holds c := by
      have hother : conditionNumber c ≠ sourceNumber e := fun hc => he (by rw [← hc]; cases c <;> decide)
      simp [hother, NoticeUnit.raise_holds]
    have hkept := hQ _ _ _ _ _ true (sourceNumber_lt e) hholds ih
    rw [← NoticeUnit.raise_port m he p] at hkept
    exact hkept
  | @hand m c v _ ih =>
    by_cases hv : m.holds c = v
    · have hsame : m.hand c v = m := by simp [NoticeUnit.hand, hv]
      rw [hsame]
      exact ih
    · have hholds (d : Condition) : (m.hand c v).holds d =
          if conditionNumber d = conditionNumber c then v else m.holds d := by
        rw [NoticeUnit.hand_holds]
        cases c <;> cases d <;> rfl
      have hkept := hQ _ _ _ _ _ v (conditionNumber_lt c) hholds ih
      rw [← NoticeUnit.hand_port hv p] at hkept
      simpa only [At, NoticeUnit.routed, NoticeUnit.hand_routes] using hkept
  | @handReady m q v _ ih =>
    obtain ⟨hroutes, hholds⟩ := m.handReady_kept q v
    by_cases hv : (m.port.get q).historyReady = v
    · have hsame : m.handReady q v = m := by simp [NoticeUnit.handReady, hv]
      rw [hsame]
      exact ih
    · by_cases hp : p = q
      · subst hp
        have hkept := hQ _ m.holds m.holds _ 18 v (by decide) (fun c => by
          have hother : conditionNumber c ≠ 18 := by cases c <;> decide
          simp [hother]) ih
        rw [← NoticeUnit.handReady_port hv] at hkept
        simpa only [At, NoticeUnit.routed, hroutes, hholds] using hkept
      · simpa only [At, NoticeUnit.routed, hroutes, hholds, m.handReady_other hp v] using ih

/-! ## The two directions -/

/-- What is pending at a port is routed to it, what is pending of a condition holds, and the attention line is
judged (R189, R191, R194). -/
structure PendingSound (routed : Nat → Bool) (holds : Condition → Bool) (x : PortNotices) : Prop where
  routed : ∀ k, k < 20 → x.pendingSet.getLsbD k = true → routed k = true
  holds : ∀ c, x.pendingSet.getLsbD (conditionNumber c) = true → holds c = true
  ready : x.pendingSet.getLsbD 18 = true → x.historyReady = true
  judged : x.attention = (x.master && (x.pendingSet &&& x.enables) != 0#20)

/-- A condition that is routed to a port and holds is pending there (R191). -/
structure PendingComplete (routed : Nat → Bool) (holds : Condition → Bool) (x : PortNotices) : Prop where
  holds : ∀ c, routed (conditionNumber c) = true → holds c = true →
    x.pendingSet.getLsbD (conditionNumber c) = true
  ready : routed 18 = true → x.historyReady = true → x.pendingSet.getLsbD 18 = true

theorem pendingSound_kept : PortClaim.Kept PendingSound := by
  intro routed holds holds' x k v _ hholds h
  refine ⟨fun j hj hb => ?_, fun c hb => ?_, fun hb => ?_, ?_⟩
  · rw [PortNotices.handed_bit _ _ _ _ hj] at hb
    split at hb
    · exact ‹_ ∧ _›.2 ▸ ‹_ ∧ _›.1
    · exact h.routed j hj hb
  · rw [PortNotices.handed_bit _ _ _ _ (conditionNumber_lt c)] at hb
    rw [hholds c]
    split at hb
    · simp [‹_ ∧ _›.2, hb]
    · have hr := h.routed _ (conditionNumber_lt c) hb
      rename_i hnot
      have hk : conditionNumber c ≠ k := fun hc => hnot ⟨hc ▸ hr, hc⟩
      simpa [hk] using h.holds c hb
  · rw [PortNotices.handed_bit _ _ _ _ (by decide)] at hb
    rw [PortNotices.handed_historyReady]
    split at hb
    · simp [← ‹_ ∧ _›.2, hb]
    · have hr := h.routed 18 (by decide) hb
      rename_i hnot
      have hk : k ≠ 18 := fun hc => hnot ⟨hc ▸ hr, hc.symm⟩
      simpa [hk] using h.ready hb
  · simp only [PortNotices.handed]
    split
    · rfl
    · exact h.judged

theorem pendingComplete_kept : PortClaim.Kept PendingComplete := by
  intro routed holds holds' x k v _ hholds h
  refine ⟨fun c hr hc => ?_, fun hr hc => ?_⟩
  · rw [hholds c] at hc
    rw [PortNotices.handed_bit _ _ _ _ (conditionNumber_lt c)]
    by_cases hk : conditionNumber c = k
    · simpa [hk, ← hk ▸ hr] using hc
    · simpa [hk] using h.holds c hr (by simpa [hk] using hc)
  · rw [PortNotices.handed_historyReady] at hc
    rw [PortNotices.handed_bit _ _ _ _ (by decide)]
    by_cases hk : k = 18
    · subst hk
      simpa [hr] using hc
    · simpa [Ne.symm hk] using h.ready hr (by simpa [hk] using hc)

theorem portNoticesInv_iff (n : NoticeUnit) (p : Port) :
    PortNoticesInv n p ↔ PortClaim.At PendingSound n p ∧ PortClaim.At PendingComplete n p := by
  constructor
  · rintro ⟨hrouted, hcondition, hready, hattention⟩
    have hbit (c : Condition) := hcondition c _ (mem_conditionNumbers_self c)
    exact ⟨⟨hrouted, fun c hc => by rw [hbit c] at hc; exact Bool.and_elim_right hc,
        fun h => by rw [hready] at h; exact Bool.and_elim_right h, hattention⟩,
      ⟨fun c hr hh => by rw [hbit c, hr, hh]; rfl, fun hr hh => by rw [hready, hr, hh]; rfl⟩⟩
  · rintro ⟨⟨hrouted, hholds, hready, hjudged⟩, hholds', hready'⟩
    refine ⟨hrouted, fun c k hk => ?_, ?_, hjudged⟩
    · rw [mem_conditionNumbers hk, Bool.eq_iff_iff, Bool.and_eq_true]
      exact ⟨fun h => ⟨hrouted _ (conditionNumber_lt c) h, hholds c h⟩, fun h => hholds' c h.1 h.2⟩
    · rw [Bool.eq_iff_iff, Bool.and_eq_true]
      exact ⟨fun h => ⟨hrouted 18 (by decide) h, hready h⟩, fun h => hready' h.1 h.2⟩

/-- Raising events and handing conditions keep the whole of the invariant. -/
theorem Informs.noticeInv {s t : State} (h : Informs s t) (hs : NoticeInv s) : NoticeInv t := fun p => by
  obtain ⟨hsound, hcomplete⟩ := (portNoticesInv_iff _ p).mp (hs p)
  exact (portNoticesInv_iff _ p).mpr ⟨pendingSound_kept.becomes h hsound, pendingComplete_kept.becomes h hcomplete⟩

/-! ## The conditions that hold now (R195, R199) -/

theorem NoticeUnit.holdingSet_bit (n : NoticeUnit) (p : Port) {k : Nat} (hk : k < 20) :
    (n.holdingSet p).getLsbD k = true ↔
      n.routed k p = true ∧ ((∃ c, k = conditionNumber c ∧ n.holds c = true) ∨
        (k = 18 ∧ (n.port.get p).historyReady = true)) := by
  have hcondition : (∃ c, k = conditionNumber c ∧ n.holds c = true) ↔
      (k = 2 ∧ n.retreat = true) ∨ (k = 7 ∧ n.beyondRating = true) ∨ (k = 10 ∧ n.carriageWanted = true) ∨
        (k = 11 ∧ n.proceedWanted = true) ∨ (k = 14 ∧ n.trip = true) := by
    constructor
    · rintro ⟨c, rfl, hc⟩
      cases c <;> simp_all [NoticeUnit.holds, conditionNumber, conditionSource, sourceNumber]
    · rintro (⟨rfl, h⟩ | ⟨rfl, h⟩ | ⟨rfl, h⟩ | ⟨rfl, h⟩ | ⟨rfl, h⟩)
      exacts [⟨.retreat, rfl, h⟩, ⟨.beyondRating, rfl, h⟩, ⟨.carriageWanted, rfl, h⟩, ⟨.proceedWanted, rfl, h⟩,
        ⟨.trip, rfl, h⟩]
  unfold NoticeUnit.holdingSet
  extract_lets one
  have hone (e : Source) (v : Bool) : (one e v).getLsbD k = true ↔
      (v = true ∧ n.routed (sourceNumber e) p = true) ∧ k = sourceNumber e := by
    by_cases h : (v && n.routed (sourceNumber e) p) = true
    · rw [show one e v = member (sourceNumber e) from if_pos h, member_bit hk, decide_eq_true_iff]
      simpa using fun _ => (Bool.and_eq_true _ _).mp h
    · rw [show one e v = 0#20 from if_neg h, ← Bool.and_eq_true, iff_false_intro h, BitVec.getLsbD_zero]
      simp
  simp only [BitVec.getLsbD_or, Bool.or_eq_true, hone, hcondition, sourceNumber]
  constructor
  · rintro (((((⟨⟨h, hr⟩, rfl⟩ | ⟨⟨h, hr⟩, rfl⟩) | ⟨⟨h, hr⟩, rfl⟩) | ⟨⟨h, hr⟩, rfl⟩) | ⟨⟨h, hr⟩, rfl⟩) |
      ⟨⟨h, hr⟩, rfl⟩) <;> simp [h, hr]
  · rintro ⟨hr, (⟨rfl, h⟩ | ⟨rfl, h⟩ | ⟨rfl, h⟩ | ⟨rfl, h⟩ | ⟨rfl, h⟩) | ⟨rfl, h⟩⟩ <;> simp [h, hr]

theorem conditionNumber_inj {c d : Condition} (h : conditionNumber c = conditionNumber d) : c = d := by
  cases c <;> cases d <;> first | rfl | cases h

theorem conditionNumber_ne_ready (c : Condition) : conditionNumber c ≠ 18 := by cases c <;> decide

theorem NoticeUnit.holdingSet_condition (n : NoticeUnit) (p : Port) (c : Condition) :
    (n.holdingSet p).getLsbD (conditionNumber c) = (n.routed (conditionNumber c) p && n.holds c) := by
  rw [Bool.eq_iff_iff, n.holdingSet_bit p (conditionNumber_lt c), Bool.and_eq_true]
  constructor
  · rintro ⟨hr, ⟨d, hd, hh⟩ | ⟨h18, -⟩⟩
    · exact ⟨hr, by rwa [conditionNumber_inj hd]⟩
    · exact absurd h18 (conditionNumber_ne_ready c)
  · exact fun ⟨hr, hh⟩ => ⟨hr, .inl ⟨c, rfl, hh⟩⟩

theorem NoticeUnit.holdingSet_ready (n : NoticeUnit) (p : Port) :
    (n.holdingSet p).getLsbD 18 = (n.routed 18 p && (n.port.get p).historyReady) := by
  rw [Bool.eq_iff_iff, n.holdingSet_bit p (by decide), Bool.and_eq_true]
  constructor
  · rintro ⟨hr, ⟨d, hd, -⟩ | ⟨-, hh⟩⟩
    · exact absurd hd.symm (conditionNumber_ne_ready d)
    · exact ⟨hr, hh⟩
  · exact fun ⟨hr, hh⟩ => ⟨hr, .inr ⟨rfl, hh⟩⟩

/-- A port whose pending set is a sound part and the conditions that hold, its attention line judged. -/
theorem portNoticesInv_of_holding {n : NoticeUnit} {p : Port} {b : BitVec 20}
    (hset : (n.port.get p).pendingSet = b ||| n.holdingSet p)
    (hrouted : ∀ k, k < 20 → b.getLsbD k = true → n.routed k p = true)
    (hholds : ∀ c, b.getLsbD (conditionNumber c) = true → n.holds c = true)
    (hready : b.getLsbD 18 = true → (n.port.get p).historyReady = true)
    (hjudged : (n.port.get p).attention =
      ((n.port.get p).master && ((n.port.get p).pendingSet &&& (n.port.get p).enables) != 0#20)) :
    PortNoticesInv n p := by
  refine ⟨fun k hk h => ?_, fun c k hk => ?_, ?_, hjudged⟩
  · rw [hset, BitVec.getLsbD_or, Bool.or_eq_true, n.holdingSet_bit p hk] at h
    exact h.elim (hrouted k hk) And.left
  · rw [hset, BitVec.getLsbD_or, mem_conditionNumbers hk, n.holdingSet_condition, Bool.or_eq_right_iff_imp]
    intro hb
    rw [hrouted _ (conditionNumber_lt c) hb, hholds c hb]
    rfl
  · rw [hset, BitVec.getLsbD_or, n.holdingSet_ready, Bool.or_eq_right_iff_imp]
    intro hb
    rw [hrouted 18 (by decide) hb, hready hb]
    rfl

/-! ## The requests of the Notice Unit and the resets -/

/-- A port whose pending set, routes and conditions stand, its attention line judged again. -/
theorem PortNoticesInv.judged_again {n m : NoticeUnit} {p : Port} (h : PortNoticesInv n p)
    (hroutes : m.routes = n.routes) (hholds : m.holds = n.holds)
    (hset : (m.port.get p).pendingSet = (n.port.get p).pendingSet)
    (hready : (m.port.get p).historyReady = (n.port.get p).historyReady)
    (hjudged : (m.port.get p).attention =
      ((m.port.get p).master && ((m.port.get p).pendingSet &&& (m.port.get p).enables) != 0#20)) :
    PortNoticesInv m p where
  routed := by simpa only [hset, NoticeUnit.routed, hroutes] using h.routed
  condition := by simpa only [hset, NoticeUnit.routed, hroutes, hholds] using h.condition
  ready := by simpa only [hset, hready, NoticeUnit.routed, hroutes] using h.ready
  attention := hjudged

theorem setPortNotices_noticeInv {s : State} (hs : NoticeInv s) (p : Port) {x : PortNotices}
    (hset : x.pendingSet = (portNotices p s).pendingSet) (hready : x.historyReady = (portNotices p s).historyReady) :
    NoticeInv (setPortNotices p x.judge s) := fun q => by
  have hholds : (setPortNotices p x.judge s).notices.holds = s.notices.holds := by funext c; cases c <;> rfl
  by_cases hq : q = p
  · subst hq
    have hget : (setPortNotices q x.judge s).notices.port.get q = x.judge := PerPort.get_set_self ..
    exact (hs q).judged_again rfl hholds (by rw [hget]; exact hset) (by rw [hget]; exact hready) (by rw [hget]; rfl)
  · have hget : (setPortNotices p x.judge s).notices.port.get q = s.notices.port.get q := PerPort.get_set_other _ hq _
    exact (hs q).judged_again rfl hholds (by rw [hget]) (by rw [hget]) (by rw [hget]; exact (hs q).attention)

theorem fetchNotices_noticeInv {s : State} (hs : NoticeInv s) (p : Port) : NoticeInv (fetchNotices p s) := fun q => by
  have hholds : (s.notices.fetch p).holds = s.notices.holds := by funext c; cases c <;> rfl
  by_cases hq : q = p
  · subst hq
    have hget : (s.notices.fetch q).port.get q =
        { s.notices.port.get q with
          pendingSet := s.notices.holdingSet q
          master := (s.notices.port.get q).master && !(s.notices.port.get q).oneShot }.judge := PerPort.get_set_self ..
    have hready : ((s.notices.fetch q).port.get q).historyReady = (s.notices.port.get q).historyReady := by
      rw [hget]; rfl
    refine portNoticesInv_of_holding (n := s.notices.fetch q) (b := 0#20) ?_ (by simp) (by simp) (by simp) ?_
    · rw [BitVec.zero_or, hget]
      simp only [NoticeUnit.holdingSet, hready]
      rfl
    · rw [hget]; rfl
  · have hget : (s.notices.fetch p).port.get q = s.notices.port.get q := PerPort.get_set_other _ hq _
    exact (hs q).judged_again (m := s.notices.fetch p) rfl hholds (by rw [hget]) (by rw [hget])
      (by rw [hget]; exact (hs q).attention)

/-- The routes replaced, and no pending set looked at yet (R189). -/
def NoticeUnit.rerouted (n : NoticeUnit) (source : Nat) (route : BitVec 3) : NoticeUnit :=
  { n with routes := put n.routes source route }

theorem setRoute_port (n : NoticeUnit) (source : Nat) (route : BitVec 3) (p : Port) :
    (n.setRoute source route).port.get p =
      if (n.rerouted source route).routed source p then
        if n.routed source p then n.port.get p
        else if ((n.rerouted source route).holdingSet p).getLsbD source then (n.port.get p).mark source true
        else n.port.get p
      else if n.routed source p then (n.port.get p).mark source false
      else n.port.get p := PerPort.get_mapPorts ..

theorem setRoute_attention {n : NoticeUnit} {p : Port} (hp : PortNoticesInv n p) (source : Nat) (route : BitVec 3) :
    let x := (n.setRoute source route).port.get p
    x.historyReady = (n.port.get p).historyReady ∧
      x.attention = (x.master && (x.pendingSet &&& x.enables) != 0#20) := by
  intro x
  have hx : x = n.port.get p ∨ ∃ v, x = (n.port.get p).mark source v := by
    simp only [x, setRoute_port]
    split <;> split
    · exact .inl rfl
    · split
      · exact .inr ⟨_, rfl⟩
      · exact .inl rfl
    · exact .inr ⟨_, rfl⟩
    · exact .inl rfl
  obtain hx | ⟨v, hx⟩ := hx <;> rw [hx]
  · exact ⟨rfl, hp.attention⟩
  · exact ⟨rfl, rfl⟩

/-- The source is pending at a port that its new route adds exactly where it is a condition that holds, and at no
port that is outside the route (R189). -/
theorem setRoute_bit {n : NoticeUnit} {p : Port} (hp : PortNoticesInv n p) {source : Nat} (h : source < 20)
    (route : BitVec 3) {k : Nat} (hk : k < 20) :
    ((n.setRoute source route).port.get p).pendingSet.getLsbD k =
      if k = source ∧ (n.rerouted source route).routed source p ≠ n.routed source p then
        ((n.rerouted source route).holdingSet p).getLsbD k
      else (n.port.get p).pendingSet.getLsbD k := by
  have hheld := ((n.rerouted source route).holdingSet_bit p h).mp
  rw [setRoute_port]
  cases hnew : (n.rerouted source route).routed source p <;> cases hold : n.routed source p <;>
    simp only [Bool.false_eq_true, if_false, if_true, ne_eq, not_true, and_false, reduceCtorEq, not_false_iff,
      and_true]
  · rw [PortNotices.mark_bit _ _ _ _ hk]
    split
    · rename_i hks
      subst hks
      simpa [hnew] using hheld
    · rfl
  · have hnot : (n.port.get p).pendingSet.getLsbD source = false := by
      simpa [hold] using mt (hp.routed source h)
    split
    · rw [PortNotices.mark_bit _ _ _ _ hk]
      split
      · simp_all
      · rfl
    · split
      · simp_all
      · rfl

theorem setRoute_noticeInv {s : State} (hs : NoticeInv s) {source : Nat} (h : source ≤ 19) (route : BitVec 3) :
    NoticeInv { s with notices := s.notices.setRoute source route } := fun p => by
  have hp := hs p
  obtain ⟨hready, hjudged⟩ := setRoute_attention hp source route
  have hbit {k : Nat} (hk : k < 20) := setRoute_bit hp (by omega : source < 20) route hk
  have hother {k : Nat} (hk : k ≠ source) : (s.notices.rerouted source route).routed k p = s.notices.routed k p := by
    simp [NoticeUnit.routed, NoticeUnit.rerouted, at'_put_other _ hk]
  have hsame {k : Nat} (hc : ¬ (k = source ∧
      (s.notices.rerouted source route).routed source p ≠ s.notices.routed source p)) :
      (s.notices.rerouted source route).routed k p = s.notices.routed k p := by
    by_cases hk : k = source
    · subst hk
      simpa using hc
    · exact hother hk
  have hholds (c : Condition) : (s.notices.setRoute source route).holds c = s.notices.holds c := by cases c <;> rfl
  constructor
  · intro k hk hb
    change (s.notices.rerouted source route).routed k p = true
    rw [hbit hk] at hb
    split at hb
    · exact ((NoticeUnit.holdingSet_bit _ p hk).mp hb).1
    · rename_i hc
      rw [hsame hc]
      exact hp.routed k hk hb
  · intro c k hk
    rw [mem_conditionNumbers hk, hbit (conditionNumber_lt c)]
    split
    · rw [NoticeUnit.holdingSet_condition]
      cases c <;> rfl
    · rename_i hc
      rw [hp.condition c _ (mem_conditionNumbers_self c), ← hsame hc, ← hholds c]
      rfl
  · rw [hbit (by decide), hready]
    split
    · rw [NoticeUnit.holdingSet_ready]
      rfl
    · rename_i hc
      rw [hp.ready, ← hsame hc]
      rfl
  · exact hjudged

theorem powerOn_noticeInv (por : Bool) (s : State) : NoticeInv (powerOn por s) := fun p => by
  have hport : (powerOn por s).notices.port.get p = {} := by cases p <;> rfl
  have hholds (c : Condition) : (powerOn por s).notices.holds c = false := by cases c <;> rfl
  constructor
  · simp [hport]
  · simp [hport, hholds]
  · simp [hport]
  · simp [hport]

/-- The emptying of a station reset leaves every port sound (R199). -/
theorem clearForReset_sound (n : NoticeUnit) (p : Port) : PortClaim.At PendingSound n.clearForReset p := by
  have hget : n.clearForReset.port.get p =
      { n.port.get p with pendingSet := 0#20, master := false, oneShot := false }.judge := PerPort.get_mapPorts ..
  unfold PortClaim.At
  rw [hget]
  constructor <;> simp [PortNotices.judge]

/-- The conditions that hold, added to a sound port, make the invariant whole (R199). -/
theorem restoreAfterReset_inv {n : NoticeUnit} {p : Port} (h : PortClaim.At PendingSound n p) :
    PortNoticesInv n.restoreAfterReset p := by
  have hget : n.restoreAfterReset.port.get p =
      { n.port.get p with pendingSet := (n.port.get p).pendingSet ||| n.holdingSet p }.judge := PerPort.get_mapPorts ..
  have hholds : n.restoreAfterReset.holds = n.holds := by funext c; cases c <;> rfl
  have hready : (n.restoreAfterReset.port.get p).historyReady = (n.port.get p).historyReady := by rw [hget]; rfl
  refine portNoticesInv_of_holding (b := (n.port.get p).pendingSet) ?_ h.routed ?_ ?_ ?_
  · rw [hget]
    simp only [NoticeUnit.holdingSet, hready]
    rfl
  · rw [hholds]; exact h.holds
  · rw [hready]; exact h.ready
  · rw [hget]; rfl

theorem stationReset_noticeInv (s : State) : NoticeInv (stationReset s) := fun p => by
  let t := stopDwell (endByReset (disarmAll (clearLatches (clearNotices (resetPorts s)))))
  have hinforms : Informs (clearNotices (resetPorts s))
      (startOver (restartSample { t with stage := t.stage.atReset })) := by
    refine .trans (t := t) ?_ ((startOver_informs _).before rfl)
    refine Informs.after (t := endByReset (disarmAll (clearLatches (clearNotices (resetPorts s))))) ?_ rfl
    exact .before (endByReset_informs _) rfl
  exact restoreAfterReset_inv (pendingSound_kept.becomes hinforms (clearForReset_sound _ p))

/-! ## The invariant is kept -/

theorem acts_noticeInv {i : Instr} {s t : State} (h : Acts i s t) (hs : NoticeInv s) : NoticeInv t := by
  cases hi : setsNotices i
  case false => exact (acts_informs h hi).noticeInv hs
  case true =>
    cases h <;> try cases hi
    case fetchNotices p => exact fetchNotices_noticeInv hs p
    case setNoticeEnable p marks x => exact setPortNotices_noticeInv hs p rfl rfl
    case setAttention p m o master oneShot => exact setPortNotices_noticeInv hs p rfl rfl
    case setRoute p source route h => exact setRoute_noticeInv hs h _
    case stationReset => exact stationReset_noticeInv s
    case resetNActivation => exact stationReset_noticeInv s
    case porAssert => exact powerOn_noticeInv true s
    case porRelease => exact powerOn_noticeInv false s

/-- Settles O55: raising an event and handing a condition keep the invariant, every act but the requests of the
Notice Unit and the resets does nothing else to the notices, and those are judged one by one. -/
theorem noticesKept : Obligations.NoticesKept := fun _ _ hs h =>
  step_keeps_of_acts (fun s t hk hs => by
      have hn : t.notices = s.notices := hk .notices (by decide)
      unfold NoticeInv
      rwa [hn])
    (fun _ _ hs => hs) (fun _ hs => hs) (fun _ _ _ => acts_noticeInv) hs h

end Sys2Proof.Machine
end

section
/-! SUPPORT. What the run and the stores are put through by the commands that do not drive the run from state to
state: the samples, offers, evaluations, reports, settings and line passages, and the recalls, the trips and the
station reset. Each makes a course of a few kinds of step; a claim that these steps keep, all those commands keep. -/

namespace Sys2Proof.Machine

/-! ## Standing aside -/

/-- From s to t nothing of the run, its permit and its conditions has changed, nor of the stores. -/
structure BesideRun (s t : State) : Prop where
  engine : t.engine = s.engine := by rfl
  results : t.results = s.results := by rfl
  activeSlot : t.plan.activeSlot = s.plan.activeSlot := by rfl
  order : t.plan.order = s.plan.order := by rfl
  permit : t.lines.permit = s.lines.permit := by rfl
  carriageWanted : t.notices.carriageWanted = s.notices.carriageWanted := by rfl
  proceedWanted : t.notices.proceedWanted = s.notices.proceedWanted := by rfl
  trip : t.notices.trip = s.notices.trip := by rfl
  ring : t.history.ring = s.history.ring := by rfl
  nextSeq : t.history.nextSeq = s.history.nextSeq := by rfl
  staged : t.rating.staged = s.rating.staged := by rfl
  active : t.rating.active = s.rating.active := by rfl
  version : t.rating.version = s.rating.version := by rfl

/-- Besides, retreat stays in force or out of it. -/
structure Aside (s t : State) : Prop extends BesideRun s t where
  retreat : t.warning.retreat = s.warning.retreat := by rfl

/-- A step that touches neither the run nor the stores, and that changes no condition of the engine. -/
theorem BesideRun.of_notified {bs : List Block} {l : List Nat} {s t : State} (hn : Notified l s t)
    (hl : 10 ∉ l ∧ 11 ∉ l ∧ 14 ∉ l) (hk : KeepsBut bs s t)
    (hb : .engine ∉ bs ∧ .results ∉ bs ∧ .plan ∉ bs ∧ .history ∉ bs ∧ .rating ∉ bs)
    (hp : t.lines.permit = s.lines.permit) : BesideRun s t := by
  obtain ⟨hengine, hresults, hplan, hhistory, hrating⟩ := hb
  obtain ⟨hwanted, hproceed, htrip⟩ := hl
  have hplan : t.plan = s.plan := hk .plan hplan
  have hhistory : t.history = s.history := hk .history hhistory
  have hrating : t.rating = s.rating := hk .rating hrating
  exact {
    engine := hk .engine hengine
    results := hk .results hresults
    activeSlot := by rw [hplan]
    order := by rw [hplan]
    permit := hp
    carriageWanted := hn.kept.2.1 .carriageWanted 10 (by decide) hwanted
    proceedWanted := hn.kept.2.1 .proceedWanted 11 (by decide) hproceed
    trip := hn.kept.2.1 .trip 14 (by decide) htrip
    ring := by rw [hhistory]
    nextSeq := by rw [hhistory]
    staged := by rw [hrating]
    active := by rw [hrating]
    version := by rw [hrating] }

theorem Aside.refl (s : State) : Aside s s := {}

theorem Aside.ite {s t u : State} {c : Prop} [Decidable c] (h : Aside s t) (h' : Aside s u) :
    Aside s (if c then t else u) := by
  split <;> assumption

theorem raise_aside (e : Source) (s : State) : Aside s (raise e s) := {}

theorem raiseIf_aside (b : Bool) (e : Source) (s : State) : Aside s (raiseIf b e s) :=
  (raise_aside e s).ite (.refl s)

theorem handReady_aside (p : Port) (v : Bool) (s : State) : Aside s (handReady p v s) where
  toBesideRun := .of_notified (handReady_notified p v s) (by decide) (handReady_keeps p v s) (by decide) rfl

theorem formOutputs_permit (s : State) : (formOutputs s).lines.permit = s.lines.permit :=
  (formOutputs_driven s).1.1

theorem formOutputs_aside (s : State) : Aside s (formOutputs s) where
  toBesideRun := .of_notified (formOutputs_driven s).2 (by decide) (formOutputs_keeps s) (by decide)
    (formOutputs_permit s)
  retreat := by rw [formOutputs_warning]

/-! ## Courses -/

/-- An evaluation's changes of the level raised, and retreat judged, with the recall of a retreat that comes into
force (R109, R146). -/
def retreatJudged (changes : List (Nat × Nat)) (s : State) : State :=
  if !s.warning.retreat && retreatAfter s.warning s.stage.stilled then retreatRecall (retreatHanded changes s)
  else retreatHanded changes s

/-- What the run and the stores are put through from s. -/
inductive Course (s : State) : State → Prop where
  | same : Course s s
  | aside {t u : State} : Course s t → Aside t u → Course s u
  | take {t : State} : Course s t → Course s (takeAttempt t)
  | judge {t : State} (changes : List (Nat × Nat)) : Course s t → Course s (retreatJudged changes t)
  | recalled {t : State} (cause : EndCause) :
      t.engine.state.recallable = true → Course s t → Course s (recallRun cause t)
  | pulse {t : State} : Course s t → Course s (meterPulse t)
  | settled {t : State} (active : Bool) : Course s t → Course s (settledPassage active t)
  | trip {t : State} (record : TripRecord) : Course s t → Course s (tripEngine record t)
  | reset {t : State} : Course s t → Course s (endByReset t)

theorem Course.of_aside {s t : State} (h : Aside s t) : Course s t := .aside .same h

theorem Course.trans {s t u : State} (h : Course s t) (h' : Course t u) : Course s u := by
  induction h' with
  | same => exact h
  | aside _ ha ih => exact .aside ih ha
  | take _ ih => exact .take ih
  | judge changes _ ih => exact .judge changes ih
  | recalled cause hr _ ih => exact .recalled cause hr ih
  | pulse _ ih => exact .pulse ih
  | settled active _ ih => exact .settled active ih
  | trip record _ ih => exact .trip record ih
  | reset _ ih => exact .reset ih

theorem Course.before {s t u : State} (h : Course t u) (ha : Aside s t := by exact {}) : Course s u :=
  .trans (.of_aside ha) h

theorem Course.ite {s t u : State} {c : Prop} [Decidable c] (h : Course s t) (h' : Course s u) :
    Course s (if c then t else u) := by
  split <;> assumption

/-- A claim that every kind of step keeps but retreat's judgement. -/
structure KeptByRun (P : State → Prop) : Prop where
  take : ∀ s, P s → P (takeAttempt s)
  recalled : ∀ s cause, s.engine.state.recallable = true → P s → P (recallRun cause s)
  pulse : ∀ s, P s → P (meterPulse s)
  settled : ∀ s active, P s → P (settledPassage active s)
  trip : ∀ s record, P s → P (tripEngine record s)
  reset : ∀ s, P s → P (endByReset s)

/-- What every kind of step keeps, the course keeps. -/
theorem KeptByRun.course {P : State → Prop} (hP : KeptByRun P) (haside : ∀ s t, Aside s t → P s → P t)
    (hjudge : ∀ changes s, P s → P (retreatJudged changes s)) {s t : State} (h : Course s t) (hs : P s) : P t := by
  induction h with
  | same => exact hs
  | aside _ ha ih => exact haside _ _ ha ih
  | take _ ih => exact hP.take _ ih
  | judge changes _ ih => exact hjudge changes _ ih
  | recalled cause hr _ ih => exact hP.recalled _ cause hr ih
  | pulse _ ih => exact hP.pulse _ ih
  | settled active _ ih => exact hP.settled _ active ih
  | trip record _ ih => exact hP.trip _ record ih
  | reset _ ih => exact hP.reset _ ih

theorem retreatHanded_beside (changes : List (Nat × Nat)) (s : State) : BesideRun s (retreatHanded changes s) := by
  obtain ⟨hn, he⟩ := retreatHanded_eq changes s
  refine .of_notified (bs := [.notices, .warning]) hn (by decide) ?_ (by decide) (by rw [he])
  rw [he]
  intro b hb
  cases b <;> first | rfl | simp at hb

/-- A claim that does not read retreat is kept by its judgement, where a recall keeps it. -/
theorem KeptByRun.course_of_beside {P : State → Prop} (hP : KeptByRun P)
    (hbeside : ∀ s t, BesideRun s t → P s → P t) {s t : State} (h : Course s t) (hs : P s) : P t := by
  refine hP.course (fun s t ha => hbeside s t ha.toBesideRun) (fun changes s hs => ?_) h hs
  have hp : P (retreatHanded changes s) := hbeside s _ (retreatHanded_beside changes s) hs
  unfold retreatJudged retreatRecall
  split
  · split
    · exact hP.recalled _ _ ‹_› hp
    · exact hp
  · exact hp

/-! ## Evaluations, offers and reports -/

theorem judgeLevelTriggers_course (before after : Nat) (s : State) : Course s (judgeLevelTriggers before after s) :=
  Course.ite (.before (.take .same)) (.of_aside {})

theorem handLevelChange_course (s : State) (c : Nat × Nat) : Course s (handLevelChange s c) :=
  (judgeLevelTriggers_course _ _ _).before

theorem foldl_course {α : Type} {f : State → α → State} (h : ∀ s a, Course s (f s a)) (as : List α) (s : State) :
    Course s (as.foldl f s) := by
  induction as generalizing s with
  | nil => exact .same
  | cons a as ih => exact (h s a).trans (ih _)

theorem handOn_course (changes : List (Nat × Nat)) (s : State) : Course s (handOn changes s) := by
  have hformed : Course s (formOutputs (changes.foldl handLevelChange (retreatJudged changes s))) :=
    ((Course.judge changes .same).trans (foldl_course handLevelChange_course changes _)).aside (formOutputs_aside _)
  rw [handOn_eq]
  exact Course.ite (.take hformed) hformed

theorem settled_aside (i : EvalInputs) {w : WarningUnit} {s : State} (hw : w.retreat = s.warning.retreat) :
    Aside s { s with warning := (settleLevel 4 i w).1 } where
  retreat := ((settleLevel_path 4 i w).2.1).trans hw

theorem evaluate_course (s : State) : Course s (evaluate s) := (handOn_course _ _).before (settled_aside _ rfl)

theorem dwellExpiry_course (s : State) : Course s (dwellExpiry s) :=
  Course.ite (.of_aside {}) ((handOn_course _ _).before (settled_aside _ rfl))

theorem takeSilence_course (s : State) : Course s (takeSilence s) :=
  Course.ite .same (.aside (.of_aside {}) (formOutputs_aside _))

theorem recomputeDischarge_aside (stage : Option Int) (s : State) : Aside s (recomputeDischarge stage s) where
  carriageWanted := NoticeUnit.hand_holds _ .beyondRating .carriageWanted _
  proceedWanted := NoticeUnit.hand_holds _ .beyondRating .proceedWanted _
  trip := NoticeUnit.hand_holds _ .beyondRating .trip _

theorem rateAgain_course (s : State) : Course s (rateAgain s) :=
  (evaluate_course _).before (recomputeDischarge_aside _ s)

theorem offer_course (s : State) : Course s (offer s) :=
  (rateAgain_course s).trans (.before (.take .same))

theorem setStatus_aside (status : StageStatus) (s : State) : Aside s (setStatus status s) :=
  Aside.ite {} {}

theorem startOver_course (s : State) : Course s (startOver s) := (offer_course _).before (setStatus_aside _ s)

theorem takeSample_course (s : State) : Course s (takeSample s) := by
  refine .trans ?_ <| (Course.of_aside (raiseIf_aside _ .signalLoss _)).trans <|
    (Course.of_aside (raiseIf_aside _ .disagree _)).trans <| (offer_course _).before (setStatus_aside _ _)
  exact .before (t := stampSample s.stage.sample.unit s) (.of_aside (raiseIf_aside _ _ _))

theorem formFloor_course (s : State) : Course s (formFloor s) := Course.ite .same ((evaluate_course _).before)

theorem delayExpiry_course (i : Nat) (s : State) : Course s (delayExpiry i s) := by
  simp only [delayExpiry]
  split
  · exact .same
  · exact Course.ite (.of_aside {}) ((formFloor_course _).before)

theorem staleExpiry_course (i : Nat) (s : State) : Course s (staleExpiry i s) :=
  Course.ite ((formFloor_course _).before) .same

theorem judgeStaleness_course (s : State) : Course s (judgeStaleness s) := by
  refine Course.ite (.trans ?_ (formFloor_course _)) ?_
  all_goals exact .before (.of_aside (raiseIf_aside _ _ _))

theorem handAccepted_course (cls : Nat) (s : State) : Course s (handAccepted cls s) := .before (.take .same)

theorem takeReport_course (a : ReportArgs) (s : State) : Course s (takeReport a s).1 := by
  unfold takeReport
  split
  · refine .trans ?_ (handAccepted_course a.cls _)
    exact Course.ite ((formFloor_course _).before) (.of_aside {})
  · exact (handAccepted_course _ _).before
  · exact .of_aside {}
  · exact .of_aside {}

/-! ## Recalls and lines -/

theorem moveRuns_recallable {s : State} (h : moveRuns s = true) : s.engine.state.recallable = true := by
  revert h
  unfold moveRuns
  cases s.engine.state <;> simp [RunState.recallable]

theorem disarmSlot_course (k : Nat) (s : State) : Course s (disarmSlot k s) := by
  simp only [disarmSlot]
  split
  · exact .recalled _ (by simpa using ‹_ ∧ _›.2) (.of_aside {})
  · exact .of_aside {}

theorem changeLines_permit (f : FieldLines) (s : State) : (changeLines f s).lines.permit = f.permit := by
  rw [changeLines, judgeLines, raiseIf_lines]
  rfl

theorem changeLines_aside (f : FieldLines) {s : State} (hf : f.permit = s.lines.permit) :
    Aside s (changeLines f s) where
  toBesideRun := .of_notified (changeLines_notified f s) (by decide) (changeLines_keeps f s) (by decide)
    (by rw [changeLines_permit, hf])
  retreat := by rw [show (changeLines f s).warning = s.warning from changeLines_keeps f s .warning (by decide)]

theorem judgeLine_aside (i : Nat) (moved : Bool) (s : State) : Aside s (judgeLine i moved s) := Aside.ite {} {}

theorem handPassage_course (i : Nat) (f : LineFunction) (before after : Bool) (s : State) :
    Course s (handPassage i f before after s) := by
  refine Course.ite .same ?_
  split
  · exact .pulse .same
  · exact .settled _ .same
  · exact .trip _ .same
  · exact takeSilence_course s
  · exact .same

theorem pinChange_course (i : Nat) (level : Level) (s : State) : Course s (pinChange i level s) :=
  .aside ((handPassage_course _ _ _ _ _).before) (judgeLine_aside i _ _)

theorem presentLine_course (line : Nat) (new : FieldLine) (s : State) : Course s (presentLine line new s) :=
  Course.ite (.of_aside {}) ((pinChange_course _ _ _).before)

theorem configureLine_course (line : Nat) (new : FieldLine) (s : State) : Course s (configureLine line new s) :=
  have hpresent := presentLine_course line new s
  .take (Course.ite (.trip _ hpresent) hpresent)

theorem restoreNotices_aside (s : State) : Aside s (restoreNotices s) := {}

theorem stationReset_course (s : State) : Course s (stationReset s) := by
  let t := stopDwell (endByReset (disarmAll (clearLatches (clearNotices (resetPorts s)))))
  have hcleared : Aside s (disarmAll (clearLatches (clearNotices (resetPorts s)))) := {}
  have hended : Course s t := .aside (.reset (.of_aside hcleared)) {}
  have hstarted : Course s (startOver (restartSample { t with stage := t.stage.atReset })) :=
    hended.trans ((startOver_course _).before (t := restartSample { t with stage := t.stage.atReset }) {})
  exact .aside hstarted (restoreNotices_aside _)

/-! ## Every act that does not drive the run -/

/-- The commands that drive the run from state to state or write the stores themselves, and POR. -/
def drivesRun : Instr → Bool
  | .positionReached _ _ _ | .depthReached _ | .homeReached _ | .proceed _ | .clearTrip _ | .resetEngine _ => true
  | .settleTimerExpiry | .countTimerExpiry | .pauseTimerExpiry | .homeTimerExpiry => true
  | .stationClockAdvance | .writeStagedPoint _ _ _ _ | .clearStaged _ | .installRating _ | .setSlotPriority _ _ => true
  | .porAssert | .porRelease => true
  | _ => false

theorem acts_course {i : Instr} {s t : State} (h : Acts i s t) (hi : drivesRun i = false) : Course s t := by
  cases h with
  | positionReached | depthReached | homeReached | proceed | clearTrip | resetEngine | settleTimerExpiry
  | countTimerExpiry | pauseTimerExpiry | homeTimerExpiry | stationClockAdvance | writeStagedPoint | clearStaged
  | installRating | setSlotPriority | porAssert | porRelease => simp [drivesRun] at hi
  | setClock | uptimeAdvance | encoderPhaseChange | pPulse | setHistoryInterval | writeVertical | clearVertical
  | writeMeter | defineSlot | clearRequest | setHash | clearUpstreamCounters | readLines | fetchNotices
  | setNoticeEnable | setAttention | setRoute | lineForced | lineForcedHeld => exact .of_aside {}
  | stageSample => exact takeSample_course s
  | configureStage | checkGauge => exact (startOver_course _).before
  | readHistory | seekHistory | setHistoryThreshold =>
    exact .before (.of_aside (handReady_aside _ _ _))
  | setShift | setExtrapolationLimit => exact (rateAgain_course _).before
  | armSlot | startRun => exact .before (.take .same)
  | intervalTimerExpiry => exact Course.ite (.before (.take .same)) .same
  | disarmSlot => exact disarmSlot_course _ s
  | cancelRun hr => exact .recalled _ hr .same
  | moveTimerExpiry hr => exact .recalled _ (moveRuns_recallable hr) .same
  | carriageFault => exact .trip _ .same
  | setLevelCriteria | setRetreat => exact (evaluate_course _).before
  | setWarningOutput | overrideOn | overrideOff | overrideAuto => exact .before (.of_aside (formOutputs_aside _))
  | silence => exact takeSilence_course s
  | dwellTimerExpiry => exact dwellExpiry_course s
  | upstreamReport => exact takeReport_course _ s
  | setUpstreamEntry => exact Course.ite ((formFloor_course _).before) (.of_aside {})
  | setUpstreamFilter => exact (judgeStaleness_course _).before
  | delayTimerExpiry => exact delayExpiry_course _ s
  | staleTimerExpiry => exact staleExpiry_course _ s
  | writeLines => exact .of_aside (changeLines_aside _ rfl)
  | configureLine => exact configureLine_course _ _ s
  | linePinChange => exact (pinChange_course _ _ _).before
  | stationReset | resetNActivation => exact stationReset_course s

end Sys2Proof.Machine
end

section
/-! SUPPORT. The engine's state while retreat is in force (R109). -/

namespace Sys2Proof.Machine

/-! ## States after the ends of a run -/

theorem endRun_engine (cause : EndCause) (s : State) : (endRun cause s).engine =
    { s.engine with
      lastEnd := some ⟨s.engine.runNumber, s.engine.slot, cause, s.clock.clock⟩
      slot := none } :=
  (planEnd_keeps cause _ .engine (by decide)).trans rfl

theorem enter_state (st : RunState) (s : State) : (enter st s).engine.state = st := (enter_entered st s).1

theorem endRun_state (cause : EndCause) (s : State) : (endRun cause s).engine.state = s.engine.state := by
  rw [endRun_engine]

theorem tripEngine_state (record : TripRecord) (s : State) : (tripEngine record s).engine.state = .tripped := by
  by_cases h : s.engine.state = .tripped
  · simp [tripEngine, h]
  · have hhalt : (haltedIn .tripped record .trip s).engine.state = .tripped := enter_state _ _
    rw [tripEngine_eq h]
    split
    · rw [endRun_state, hhalt]
    · exact hhalt

theorem endByReset_state (s : State) :
    (endByReset s).engine.state = if s.engine.state.runActive then .idle else s.engine.state := by
  unfold endByReset
  split
  · rw [endRun_state, enter_state]
  · rfl

theorem endByReset_keeps (s : State) : KeepsBut runBlocks s (endByReset s) := by
  have hclosed : KeepsBut runBlocks s (closeIfOpen .reset (stopTimers s)) :=
    ((stopTimers_keeps s).mono (by decide)).trans ((closeIfOpen_keeps .reset _).mono (by decide))
  have hended : KeepsBut runBlocks s (endRun .reset (enter .idle (closeIfOpen .reset (stopTimers s)))) :=
    hclosed.trans (((enter_keeps .idle _).mono (by decide)).trans ((endRun_keeps .reset _).mono (by decide)))
  exact hended.ite (.refl _ s)

theorem proceedRun_keeps (s : State) : KeepsBut runBlocks s (proceedRun s) := by
  unfold proceedRun
  split
  · exact startPass_keeps _ s
  · exact fetch_keeps s

theorem advanceClock_keeps (s : State) : KeepsBut [.clock, .history, .notices] s (advanceClock s) := by
  have hclock (c : StationClock) : KeepsBut [.clock, .history, .notices] s { s with clock := c } := by
    intro b hb
    cases b <;> first | rfl | simp at hb
  exact ((hclock _).trans ((takeBoundary_keeps _).mono (by decide))).ite (hclock _) |>.ite (hclock _)

theorem homeExpiry_state {s : State} (h : homeRuns s = true) : (homeExpiry s).engine.state = .tripped := by
  simp [homeExpiry, h, endRun_state, enter_state]

/-! ## Retreat keeps the engine calm -/

theorem takeAttempt_retreatInv {s : State} (hs : RetreatInv s) : RetreatInv (takeAttempt s) := fun h => by
  have hw : (takeAttempt s).warning = s.warning := takeAttempt_keeps s .warning (by decide)
  rw [hw] at h
  rw [takeAttempt_retreat h]
  exact hs h

/-- Nothing that happens only while the engine counts happens during a retreat. -/
theorem RetreatInv.not_counting {s : State} (hs : RetreatInv s) (h : s.warning.retreat = true) :
    s.engine.state ≠ .counting := by
  obtain hst | hst | hst := hs h <;> simp [hst]

theorem keptByRun_retreatInv : KeptByRun RetreatInv where
  take _ := takeAttempt_retreatInv
  recalled s cause _ _ _ := .inr (.inl (recallRun_recalled cause s).state)
  pulse s hs h := by
    have hw : (meterPulse s).warning = s.warning := meterPulse_keeps s .warning (by decide)
    rw [hw] at h
    simpa [meterPulse, hs.not_counting h] using hs h
  settled s active hs h := by
    have hw : (settledPassage active s).warning = s.warning := settledPassage_keeps active s .warning (by decide)
    rw [hw] at h
    simpa [settledPassage, hs.not_counting h] using hs h
  trip s record _ _ := .inr (.inr (tripEngine_state record s))
  reset s hs h := by
    have hw : (endByReset s).warning = s.warning := endByReset_keeps s .warning (by decide)
    rw [hw] at h
    rw [endByReset_state]
    split
    · exact .inl rfl
    · exact hs h

/-- Retreat that comes into force recalls the run (R109). -/
theorem retreatJudged_retreatInv (changes : List (Nat × Nat)) {s : State} (hs : RetreatInv s) :
    RetreatInv (retreatJudged changes s) := by
  have hengine : (retreatHanded changes s).engine = s.engine := (retreatHanded_beside changes s).engine
  have hretreat : (retreatHanded changes s).warning.retreat = retreatAfter s.warning s.stage.stilled := by
    rw [(retreatHanded_eq changes s).2]
  unfold retreatJudged
  split
  · intro _
    unfold retreatRecall
    split
    · exact .inr (.inl (recallRun_recalled _ _).state)
    · rename_i hnot
      revert hnot
      cases (retreatHanded changes s).engine.state <;> simp [RunState.recallable]
  · rename_i hnot
    intro h
    rw [hretreat] at h
    rw [hengine]
    exact hs (by simpa [h] using hnot)

theorem course_retreatInv {s t : State} (h : Course s t) (hs : RetreatInv s) : RetreatInv t :=
  keptByRun_retreatInv.course (fun s t ha hs => by unfold RetreatInv; rwa [ha.retreat, ha.engine])
    (fun changes _ => retreatJudged_retreatInv changes) h hs

/-- A command that leaves the Warning Unit alone, given only while the run is under way. -/
theorem RetreatInv.of_busy {s t : State} (hs : RetreatInv s) (hw : t.warning = s.warning)
    (hbusy : s.engine.state ≠ .idle ∧ s.engine.state ≠ .homing ∧ s.engine.state ≠ .tripped) : RetreatInv t := by
  intro h
  rw [hw] at h
  obtain hst | hst | hst := hs h
  · exact absurd hst hbusy.1
  · exact absurd hst hbusy.2.1
  · exact absurd hst hbusy.2.2

theorem resetEngine_retreatInv {s : State} (hs : RetreatInv s) : RetreatInv (resetEngine s) := by
  have hended := keptByRun_retreatInv.reset s hs
  have hentered : RetreatInv (if tripClearable (endByReset s) then enter .idle (endByReset s) else endByReset s) := by
    split
    · exact fun _ => .inl (enter_state _ _)
    · exact hended
  exact hentered

theorem acts_retreatInv {i : Instr} {s t : State} (h : Acts i s t) (hs : RetreatInv s) : RetreatInv t := by
  cases hi : drivesRun i
  case false => exact course_retreatInv (acts_course h hi) hs
  case true =>
    cases h <;> try cases hi
    case positionReached d _ hst => exact hs.of_busy (arrive_keeps d s .warning (by decide)) (by simp [hst])
    case depthReached hst =>
      exact hs.of_busy (startSettling_keeps _ .warning (by decide)) (by simp [hst])
    case homeReached hst => exact takeAttempt_retreatInv fun _ => .inl (by rw [endRun_state, enter_state])
    case proceed hst => exact hs.of_busy (proceedRun_keeps s .warning (by decide)) (by simp [hst])
    case clearTrip hst => exact takeAttempt_retreatInv fun _ => .inl (enter_state _ _)
    case resetEngine => exact resetEngine_retreatInv hs
    case settleTimerExpiry hst =>
      exact hs.of_busy (startCounting_keeps s .warning (by decide)) (by simp [settleRuns] at hst; simp [hst])
    case countTimerExpiry hst =>
      exact hs.of_busy (endPoint_keeps s .warning (by decide)) (by simp [countRuns] at hst; simp [hst])
    case pauseTimerExpiry hst =>
      exact hs.of_busy (restartPoint_keeps s .warning (by decide)) (by simp [pauseRuns] at hst; simp [hst])
    case homeTimerExpiry hst => exact fun _ => .inr (.inr (homeExpiry_state hst))
    case stationClockAdvance =>
      have hw : (advanceClock s).warning = s.warning := advanceClock_keeps s .warning (by decide)
      have he : (advanceClock s).engine = s.engine := advanceClock_keeps s .engine (by decide)
      unfold RetreatInv
      rwa [hw, he]
    case writeStagedPoint => exact hs
    case clearStaged => exact hs
    case installRating => exact course_retreatInv (rateAgain_course _) hs
    case setSlotPriority => exact hs
    case porAssert => exact fun h => by cases h
    case porRelease => exact fun h => by cases h

/-- Settles O57: a take is refused in a retreat, a retreat that comes into force recalls the run, and every other
command either leaves both alone, ends in one of the three states, or is given only outside them. -/
theorem retreatKept : Obligations.RetreatKept := fun _ _ hs h =>
  step_keeps_of_acts (fun s t hk hs => by
      have hw : t.warning = s.warning := hk .warning (by decide)
      have he : t.engine = s.engine := hk .engine (by decide)
      unfold RetreatInv
      rwa [hw, he])
    (fun _ _ hs => hs) (fun _ hs => hs) (fun _ _ _ => acts_retreatInv) hs h

end Sys2Proof.Machine
end

section
/-! SUPPORT. The engine's records belong to its state (R84 to R86, R181): each word that says what an operation of
the Run Engine leaves says enough for the invariant. -/

namespace Sys2Proof.Machine

/-! ## The invariant in three parts -/

/-- The engine's own records agree with its state. -/
structure EngineFits (e : RunEngine) : Prop where
  slot : e.slot.isSome = e.state.runActive
  homingCause : e.homingCause.isSome = (e.state == .homing)
  holdKind : e.holdKind.isSome = (e.state == .holding)
  passOpen : e.passOpen = (e.state.measures || e.holdKind == some .nextVertical)
  moveTimer : e.moveTimer ≠ .stopped → e.state = .moving ∨ e.state = .lowering
  settleTimer : e.settleTimer ≠ .stopped → e.state = .settling
  countTimer : e.countTimer ≠ .stopped → e.state = .counting
  pauseTimer : e.pauseTimer ≠ .stopped → e.state = .counting
  homeTimer : e.homeTimer ≠ .stopped → e.state = .homing

theorem engineInv_iff (s : State) :
    EngineInv s ↔ Entered s.engine.state s ∧ s.plan.activeSlot = s.engine.slot ∧ EngineFits s.engine :=
  ⟨fun ⟨p, c, w, t, sl, a, hc, hk, po, mt, st, ct, pt, ht⟩ =>
    ⟨⟨rfl, p, c, w, t⟩, a, ⟨sl, hc, hk, po, mt, st, ct, pt, ht⟩⟩,
  fun ⟨⟨_, p, c, w, t⟩, a, ⟨sl, hc, hk, po, mt, st, ct, pt, ht⟩⟩ =>
    ⟨p, c, w, t, sl, a, hc, hk, po, mt, st, ct, pt, ht⟩⟩

/-- A state entered with these records. -/
theorem EngineInv.of_entered {st : RunState} {e : RunEngine} {t : State} (h : Entered st t) (he : t.engine = e)
    (ha : t.plan.activeSlot = e.slot) (hf : EngineFits e) : EngineInv t :=
  (engineInv_iff t).mpr ⟨⟨rfl, h.1 ▸ h.2⟩, by rw [ha, he], he ▸ hf⟩

/-- From s to t the engine, the active slot, the permit and the engine's three conditions are the same. -/
structure SameEngine (s t : State) : Prop where
  engine : t.engine = s.engine := by rfl
  activeSlot : t.plan.activeSlot = s.plan.activeSlot := by rfl
  permit : t.lines.permit = s.lines.permit := by rfl
  carriageWanted : t.notices.carriageWanted = s.notices.carriageWanted := by rfl
  proceedWanted : t.notices.proceedWanted = s.notices.proceedWanted := by rfl
  trip : t.notices.trip = s.notices.trip := by rfl

theorem BesideRun.sameEngine {s t : State} (h : BesideRun s t) : SameEngine s t :=
  ⟨h.engine, h.activeSlot, h.permit, h.carriageWanted, h.proceedWanted, h.trip⟩

theorem EngineInv.congr {s t : State} (hs : EngineInv s) (h : SameEngine s t) : EngineInv t := by
  obtain ⟨⟨-, p, c, w, tr⟩, ha, hf⟩ := (engineInv_iff s).mp hs
  refine (engineInv_iff t).mpr ⟨⟨rfl, ?_, ?_, ?_, ?_⟩, ?_, h.engine ▸ hf⟩
  · rw [h.permit, h.engine, p]
  · rw [h.carriageWanted, h.engine, c]
  · rw [h.proceedWanted, h.engine, w]
  · rw [h.trip, h.engine, tr]
  · rw [h.activeSlot, h.engine, ha]

/-! ## Recalls, fetches, passes, holds -/

/-- A run is under way and none of its timers runs. -/
structure AtRest (s : State) : Prop where
  active : s.plan.activeSlot = s.engine.slot
  slot : s.engine.slot.isSome = true
  moveTimer : s.engine.moveTimer = .stopped
  settleTimer : s.engine.settleTimer = .stopped
  countTimer : s.engine.countTimer = .stopped
  pauseTimer : s.engine.pauseTimer = .stopped
  homeTimer : s.engine.homeTimer = .stopped

theorem Recalled.engineInv {cause : EndCause} {s t : State} (h : Recalled cause s t)
    (hslot : s.engine.slot.isSome = true)
    (ha : t.plan.activeSlot = s.engine.slot) : EngineInv t :=
  .of_entered h.1.1 h.1.2 ha (by constructor <;> simp [hslot, RunState.runActive, RunState.measures])

theorem NextFetched.engineInv {i : Nat} {s t : State} (h : NextFetched i s t) (hs : AtRest s)
    (hopen : s.engine.passOpen = true) : EngineInv t := by
  obtain ⟨hentered, hengine, hplan, -⟩ := h
  have ha : t.plan.activeSlot = s.plan.activeSlot := by
    simpa using congrArg PlanStore.activeSlot hplan
  refine .of_entered hentered hengine (ha.trans hs.active) ?_
  constructor <;> simp [hs.slot, hs.settleTimer, hs.countTimer, hs.pauseTimer, hs.homeTimer, hopen,
    RunState.runActive, RunState.measures]

theorem PassBegins.engineInv {n : Nat} {s t : State} (h : PassBegins n s t) (hs : AtRest s) : EngineInv t := by
  obtain ⟨z, -, hused, hunused⟩ := h
  have hbegun {b : Bool} (hu : b = true → EngineInv t) (hn : b = false → EngineInv t) : EngineInv t := by
    cases b
    · exact hn rfl
    · exact hu rfl
  refine hbegun (fun hr => (hused hr).engineInv ?_ rfl) fun hr => ?_
  · exact ⟨hs.active, hs.slot, hs.moveTimer, hs.settleTimer, hs.countTimer, hs.pauseTimer, hs.homeTimer⟩
  · obtain ⟨hrecalled, hplan⟩ := hunused hr
    exact hrecalled.engineInv hs.slot (by rw [hplan]; exact hs.active)

theorem Held.engineInv {kind : HoldKind} {s t : State} (h : Held kind s t) (hs : AtRest s)
    (hopen : s.engine.passOpen = (kind == .nextVertical)) : EngineInv t := by
  obtain ⟨hentered, hengine, hplan, -⟩ := h
  refine .of_entered hentered hengine (by rw [hplan]; exact hs.active) ?_
  constructor <;> simp [hs.slot, hs.moveTimer, hs.settleTimer, hs.countTimer, hs.pauseTimer, hs.homeTimer, hopen,
    RunState.runActive, RunState.measures]

theorem PassCloses.engineInv {s t : State} (h : PassCloses s t) (hs : AtRest s) : EngineInv t := by
  obtain ⟨-, r, ⟨hlast, hstepped, htraverse⟩, -⟩ := h
  have hclosed (results : ResultStore) :
      AtRest { s with engine := { s.engine with passOpen := false }, results := results } :=
    ⟨hs.active, hs.slot, hs.moveTimer, hs.settleTimer, hs.countTimer, hs.pauseTimer, hs.homeTimer⟩
  cases hremain : passesRemain s
  · obtain ⟨hrecalled, hplan⟩ := hlast hremain
    exact hrecalled.engineInv hs.slot (by rw [hplan]; exact hs.active)
  · cases hmode : (activeDefinition s).mode
    · exact (htraverse hremain hmode).engineInv (hclosed _)
    · exact (hstepped hremain hmode).engineInv (hclosed _) rfl

theorem VerticalEnds.engineInv {done : TableEntry → TableEntry} {s t : State} (h : VerticalEnds done s t)
    (hs : AtRest s) (hopen : s.engine.passOpen = true) : EngineInv t := by
  obtain ⟨-, ⟨hstepped, htraverse, hshort⟩, hcloses⟩ := h
  have htabled : AtRest (tabled (newestAs done s.results.table) s) :=
    ⟨hs.active, hs.slot, hs.moveTimer, hs.settleTimer, hs.countTimer, hs.pauseTimer, hs.homeTimer⟩
  cases hmore : hasMore s
  · by_cases hcount : s.engine.fetchCount < 3
    · obtain ⟨hrecalled, hplan⟩ := hshort hmore hcount
      exact hrecalled.engineInv hs.slot (by rw [hplan]; exact hs.active)
    · exact (hcloses hmore (by omega)).engineInv htabled
  · cases hmode : (activeDefinition s).mode
    · obtain ⟨hfetched, hrecalled⟩ := htraverse hmore hmode
      cases hfault : fetchFault s (poolRecord s (nextIndex s)) with
      | none => exact (hfetched hfault).engineInv htabled hopen
      | some cause =>
        obtain ⟨hrecalled, hplan⟩ := hrecalled cause hfault
        exact hrecalled.engineInv hs.slot (by rw [hplan]; exact hs.active)
    · exact (hstepped hmore hmode).engineInv htabled hopen

/-! ## Points -/

/-- A run is on its way to a count, or counts: no move and no homing is timed, and its pass is open. -/
structure AtPoint (s : State) : Prop where
  active : s.plan.activeSlot = s.engine.slot
  slot : s.engine.slot.isSome = true
  moveTimer : s.engine.moveTimer = .stopped
  homeTimer : s.engine.homeTimer = .stopped
  passOpen : s.engine.passOpen = true

theorem CountingBegun.engineInv {s t : State} (h : CountingBegun s t) (hs : AtPoint s) (hplan : t.plan = s.plan) :
    EngineInv t := by
  obtain ⟨hentered, hcounts, hpauses⟩ := h
  have ha : t.plan.activeSlot = s.engine.slot := by rw [hplan, hs.active]
  by_cases hsense : (activeDefinition s).settledSense = .ignore ∨ t.lines.anyActive .settledIn = true
  · refine .of_entered hentered (hcounts hsense) ha ?_
    constructor <;> simp [hs.slot, hs.moveTimer, hs.homeTimer, hs.passOpen, RunState.runActive, RunState.measures]
  · rw [not_or, Bool.not_eq_true] at hsense
    obtain ⟨hsense, hline⟩ := hsense
    have hlevel : (activeDefinition s).settledSense = .level := by
      cases hl : (activeDefinition s).settledSense
      · exact absurd hl hsense
      · rfl
    refine .of_entered hentered (hpauses hlevel hline) ha ?_
    constructor <;> simp [hs.slot, hs.moveTimer, hs.homeTimer, hs.passOpen, RunState.runActive, RunState.measures]

theorem SettlingBegun.engineInv {s t : State} (h : SettlingBegun s t) (hs : AtPoint s)
    (hcount : s.engine.countTimer = .stopped) (hpause : s.engine.pauseTimer = .stopped) (hplan : t.plan = s.plan) :
    EngineInv t := by
  obtain ⟨hsettles, hcounts⟩ := h
  by_cases hzero : (activeDefinition s).settleTime = 0
  · exact (hcounts hzero).engineInv hs hplan
  · obtain ⟨hentered, hengine⟩ := hsettles hzero
    refine .of_entered hentered hengine (by rw [hplan, hs.active]) ?_
    constructor <;> simp [hs.slot, hs.moveTimer, hs.homeTimer, hs.passOpen, hcount, hpause, RunState.runActive,
      RunState.measures]

/-- The engine counts, and its records fit the state. -/
theorem EngineInv.counting {s : State} (hs : EngineInv s) (h : s.engine.state = .counting) :
    AtPoint s ∧ s.engine.settleTimer = .stopped := by
  have hstopped {x : Timer} {st : RunState} (hx : x ≠ .stopped → s.engine.state = st) (hne : st ≠ .counting) :
      x = .stopped := by
    by_contra hr
    exact hne ((hx hr).symm.trans h)
  refine ⟨⟨hs.activeSlot, by rw [hs.slot, h]; rfl, ?_, hstopped hs.homeTimer (by decide), ?_⟩,
    hstopped hs.settleTimer (by decide)⟩
  · by_contra hr
    obtain hm | hm := hs.moveTimer hr <;> rw [h] at hm <;> cases hm
  · rw [hs.passOpen, h]
    rfl

theorem PointEnds.engineInv {s t : State} (h : PointEnds s t) (hs : AtPoint s)
    (hsettle : s.engine.settleTimer = .stopped) : EngineInv t := by
  obtain ⟨hlast, hnext⟩ := h
  by_cases hord : s.engine.vertical.pointDepths.length ≤ s.engine.vertical.pointOrdinal
  · exact (hlast hord).engineInv ⟨hs.active, hs.slot, hs.moveTimer, hsettle, rfl, rfl, hs.homeTimer⟩ hs.passOpen
  · obtain ⟨hentered, hengine, hplan, -⟩ := hnext (by omega)
    refine .of_entered hentered hengine (by rw [hplan, hs.active]) ?_
    constructor <;> simp [hs.slot, hsettle, hs.homeTimer, hs.passOpen, RunState.runActive, RunState.measures]

/-! ## What every kind of step keeps -/

theorem timer_stopped {x : Timer} {p : Prop} (h : x ≠ .stopped → p) (hn : ¬ p) : x = .stopped := by
  by_contra hr
  exact hn (h hr)

theorem takeAttempt_engineInv {s : State} (hs : EngineInv s) : EngineInv (takeAttempt s) := by
  obtain ⟨hidle, -, j, -, he⟩ | ⟨-, he⟩ := takeAttempt_spec s <;> rw [he]
  · refine (takeSlot_taken j s).2.engineInv ⟨rfl, rfl, timer_stopped hs.moveTimer ?_, timer_stopped hs.settleTimer ?_,
      timer_stopped hs.countTimer ?_, timer_stopped hs.pauseTimer ?_, timer_stopped hs.homeTimer ?_⟩
    all_goals simp [hidle]
  · exact hs

theorem recallRun_engineInv {s : State} (cause : EndCause) (h : s.engine.state.recallable = true) (hs : EngineInv s) :
    EngineInv (recallRun cause s) := by
  have hplan : (recallRun cause s).plan = s.plan := recallRun_keeps cause s .plan (by decide)
  refine (recallRun_recalled cause s).engineInv ?_ (by rw [hplan, hs.activeSlot])
  rw [hs.slot]
  revert h
  cases s.engine.state <;> simp [RunState.recallable, RunState.runActive]

/-- The point is timed again: the engine goes on counting. -/
theorem EngineInv.timed {s t : State} (hs : EngineInv s) (hst : s.engine.state = .counting) (x : PointRecord)
    (v : WorkingVertical) (count pause : Timer)
    (he : t.engine = { s.engine with point := x, vertical := v, countTimer := count, pauseTimer := pause })
    (hk : KeepsBut [.engine, .results] s t) : EngineInv t := by
  have hlines : t.lines = s.lines := hk .lines (by decide)
  have hnotices : t.notices = s.notices := hk .notices (by decide)
  have hplan : t.plan = s.plan := hk .plan (by decide)
  obtain ⟨⟨-, p, c, w, tr⟩, ha, hf⟩ := (engineInv_iff s).mp hs
  refine .of_entered (st := .counting) ⟨by rw [he, hst], ?_, ?_, ?_, ?_⟩ he (by rw [hplan, ha])
    ⟨hf.slot, hf.homingCause, hf.holdKind, hf.passOpen, hf.moveTimer, hf.settleTimer, fun _ => hst, fun _ => hst,
      hf.homeTimer⟩
  · rw [hlines, p, hst]
  · rw [hnotices, c, hst]
  · rw [hnotices, w, hst]
  · rw [hnotices, tr, hst]

theorem restartPoint_engineInv {s : State} (hst : s.engine.state = .counting) (hs : EngineInv s) :
    EngineInv (restartPoint s) :=
  hs.timed hst _ _ _ _ rfl (restartPoint_keeps s)

theorem pausePoint_engineInv {s : State} (hst : s.engine.state = .counting) (hs : EngineInv s) :
    EngineInv (pausePoint s) := by
  have hk := pausePoint_keeps s
  revert hk
  unfold pausePoint
  extract_lets timer t
  split
  · exact hs.timed hst _ _ _ _ rfl
  · exact hs.timed hst _ _ _ _ rfl

theorem endPoint_engineInv {s : State} (hs : AtPoint s) (hsettle : s.engine.settleTimer = .stopped) :
    EngineInv (endPoint s) := (endPoint_ends s).1.engineInv hs hsettle

theorem settledPassage_engineInv {s : State} (active : Bool) (hs : EngineInv s) :
    EngineInv (settledPassage active s) := by
  unfold settledPassage
  split
  · rename_i hcounts
    obtain ⟨hst, -⟩ := hcounts
    have hkeep (e : RunEngine) : KeepsBut [.engine, .results] s (withEngine e s) :=
      (withEngine_keeps e s).mono (by decide)
    obtain ⟨⟨ha, hslot, hmove, hhome, hopen⟩, hsettle⟩ := hs.counting hst
    split
    · unfold settledActivation
      split
      · exact hs.timed hst _ _ _ _ rfl (hkeep _)
      · split
        · extract_lets timer t
          split
          · exact endPoint_engineInv ⟨ha, hslot, hmove, hhome, hopen⟩ hsettle
          · exact hs.timed hst _ _ _ _ rfl (hkeep _)
        · exact hs
    · unfold settledDeactivation
      split
      · exact hs
      · exact pausePoint_engineInv hst hs
  · exact hs

theorem meterPulse_engineInv {s : State} (hs : EngineInv s) : EngineInv (meterPulse s) := by
  unfold meterPulse
  split
  · exact hs.timed ‹_ ∧ _›.1 _ _ _ _ rfl ((withEngine_keeps _ s).mono (by decide))
  · exact hs

/-! ## Ends of a run -/

theorem planEnd_activeSlot (cause : EndCause) (s : State) : (planEnd cause s).plan.activeSlot = none := by
  unfold planEnd
  split
  · assumption
  · rfl

theorem endRun_entered {st : RunState} (cause : EndCause) {s : State} (h : Entered st s) :
    Entered st (endRun cause s) := by
  have hlines : (endRun cause s).lines = s.lines := endRun_keeps cause s .lines (by decide)
  have hnotices : (endRun cause s).notices = s.notices.raise .runEnded := planEnd_notices cause _
  obtain ⟨hst, p, c, w, tr⟩ := h
  exact ⟨by rw [endRun_state, hst], by rw [hlines, p], by rw [hnotices]; exact c, by rw [hnotices]; exact w,
    by rw [hnotices]; exact tr⟩

/-- The engine halted: its run is over, no pass is open and no timer runs. -/
theorem engineFits_halted {e : RunEngine} (hst : e.state = .idle ∨ e.state = .tripped) (hslot : e.slot = none)
    (hhoming : e.homingCause = none) (hhold : e.holdKind = none) (hopen : e.passOpen = false)
    (htimers : e.moveTimer = .stopped ∧ e.settleTimer = .stopped ∧ e.countTimer = .stopped ∧ e.pauseTimer = .stopped ∧
      e.homeTimer = .stopped) : EngineFits e := by
  obtain ⟨hmove, hsettle, hcount, hpause, hhome⟩ := htimers
  obtain hst | hst := hst
  all_goals
    constructor <;>
      simp [hst, hslot, hhoming, hhold, hopen, hmove, hsettle, hcount, hpause, hhome, RunState.runActive,
        RunState.measures]

/-- A run's end in IDLE or TRIPPED. -/
theorem endRun_engineInv {st : RunState} (cause : EndCause) {s : State} (h : Entered st s)
    (hf : ∀ last, EngineFits { s.engine with lastEnd := last, slot := none }) : EngineInv (endRun cause s) :=
  .of_entered (endRun_entered cause h) (endRun_engine cause s) (planEnd_activeSlot cause _) (hf _)

theorem haltedIn_fits {st : RunState} (hst : st = .idle ∨ st = .tripped) (record : TripRecord) (cause : EndCause)
    (s : State) (last : Option LastEnd) :
    EngineFits { (haltedIn st record cause s).engine with lastEnd := last, slot := none } := by
  rw [haltedIn_engine st record cause s (by obtain rfl | rfl := hst <;> decide)
    (by obtain rfl | rfl := hst <;> decide)]
  exact engineFits_halted hst rfl rfl rfl rfl ⟨rfl, rfl, rfl, rfl, rfl⟩

theorem tripEngine_engineInv (record : TripRecord) {s : State} (hs : EngineInv s) :
    EngineInv (tripEngine record s) := by
  by_cases h : s.engine.state = .tripped
  · simpa [tripEngine, h] using hs
  · have hentered : Entered .tripped (haltedIn .tripped record .trip s) := enter_entered _ _
    have hengine := haltedIn_engine .tripped record .trip s (by decide) (by decide)
    have hplan : (haltedIn .tripped record .trip s).plan = s.plan := haltedIn_keeps _ _ _ s .plan (by decide)
    rw [tripEngine_eq h]
    split
    · exact endRun_engineInv .trip hentered (haltedIn_fits (.inr rfl) _ _ s)
    · rename_i hidle
      have hslot : s.engine.slot = none := by
        have hnone := hs.slot
        simpa [hidle] using hnone
      exact .of_entered hentered hengine (by rw [hplan, hs.activeSlot])
        (engineFits_halted (.inr rfl) hslot rfl rfl rfl ⟨rfl, rfl, rfl, rfl, rfl⟩)

theorem endByReset_engineInv {s : State} (hs : EngineInv s) : EngineInv (endByReset s) := by
  unfold endByReset
  split
  · exact endRun_engineInv .reset (enter_entered .idle _)
      (haltedIn_fits (.inl rfl) (closeIfOpen .reset (stopTimers s)).engine.trip .reset s)
  · exact hs

theorem keptByRun_engineInv : KeptByRun EngineInv where
  take _ := takeAttempt_engineInv
  recalled _ cause h := recallRun_engineInv cause h
  pulse _ := meterPulse_engineInv
  settled _ active := settledPassage_engineInv active
  trip _ record := tripEngine_engineInv record
  reset _ := endByReset_engineInv

theorem course_engineInv {s t : State} (h : Course s t) (hs : EngineInv s) : EngineInv t :=
  keptByRun_engineInv.course_of_beside (fun _ _ hb hs => hs.congr hb.sameEngine) h hs

/-! ## The commands that drive the run -/

theorem completeVertical_engineInv {s : State} (hs : AtRest s) (hopen : s.engine.passOpen = true) :
    EngineInv (completeVertical s) :=
  (completeVertical_ends (recordCompletion_eq s)).1.engineInv hs hopen

theorem startSettling_engineInv {s : State} (hs : AtPoint s) (hcount : s.engine.countTimer = .stopped)
    (hpause : s.engine.pauseTimer = .stopped) : EngineInv (startSettling s) :=
  (startSettling_begun s).1.engineInv hs hcount hpause (startSettling_keeps s .plan (by decide))

theorem goToPoint_engineInv {s : State} (hs : AtRest s) (hopen : s.engine.passOpen = true) :
    EngineInv (goToPoint s) := by
  unfold goToPoint
  split
  · exact startSettling_engineInv ⟨hs.active, hs.slot, hs.moveTimer, hs.homeTimer, hopen⟩ hs.countTimer hs.pauseTimer
  · have hplan : (enterMove .lowering s).plan = s.plan := enterMove_keeps .lowering s .plan (by decide)
    have hengine := enterMove_engine .lowering s
    rw [enter_engine] at hengine
    refine .of_entered (enterMove_entered .lowering s) hengine (by rw [hplan]; exact hs.active) ?_
    constructor <;> simp [hs.slot, hs.settleTimer, hs.countTimer, hs.pauseTimer, hs.homeTimer, hopen,
      RunState.runActive, RunState.measures]

/-- The records of a moving or lowering engine once its move timer is stopped. -/
theorem EngineInv.moved {s : State} (hs : EngineInv s) (h : s.engine.state = .moving ∨ s.engine.state = .lowering)
    (v : WorkingVertical) :
    AtRest (withEngine { s.engine with vertical := v, moveTimer := .stopped } s) ∧ s.engine.passOpen = true := by
  refine ⟨⟨hs.activeSlot, ?_, rfl, timer_stopped hs.settleTimer ?_, timer_stopped hs.countTimer ?_,
    timer_stopped hs.pauseTimer ?_, timer_stopped hs.homeTimer ?_⟩, ?_⟩
  · obtain h | h := h <;> simp [hs.slot, h, RunState.runActive]
  · obtain h | h := h <;> simp [h]
  · obtain h | h := h <;> simp [h]
  · obtain h | h := h <;> simp [h]
  · obtain h | h := h <;> simp [h]
  · obtain h | h := h <;> simp [hs.passOpen, h, RunState.measures]

theorem arrive_engineInv (depth : Nat) {s : State} (h : s.engine.state = .moving) (hs : EngineInv s) :
    EngineInv (arrive depth s) := by
  obtain ⟨⟨ha, hslot, hmove, hsettle, hcount, hpause, hhome⟩, hopen⟩ :=
    hs.moved (.inl h) (arrivalOf s.engine.vertical depth)
  have hrest : AtRest (recordArrival (arrivalOf s.engine.vertical depth)
      (withEngine { s.engine with vertical := arrivalOf s.engine.vertical depth, moveTimer := .stopped } s)) :=
    ⟨ha, hslot, hmove, hsettle, hcount, hpause, hhome⟩
  unfold arrive
  split
  · exact completeVertical_engineInv hrest hopen
  · exact goToPoint_engineInv hrest hopen

theorem depthArrived_engineInv {s : State} (h : s.engine.state = .lowering) (hs : EngineInv s) :
    EngineInv (depthArrived s) := by
  obtain ⟨⟨ha, hslot, hmove, -, hcount, hpause, hhome⟩, hopen⟩ := hs.moved (.inr h) s.engine.vertical
  exact startSettling_engineInv ⟨ha, hslot, hmove, hhome, hopen⟩ hcount hpause

theorem proceedRun_engineInv {s : State} (h : s.engine.state = .holding) (hs : EngineInv s) :
    EngineInv (proceedRun s) := by
  have hrest : AtRest s := by
    refine ⟨hs.activeSlot, by rw [hs.slot, h]; rfl, timer_stopped hs.moveTimer ?_, timer_stopped hs.settleTimer ?_,
      timer_stopped hs.countTimer ?_, timer_stopped hs.pauseTimer ?_, timer_stopped hs.homeTimer ?_⟩
    all_goals simp [h]
  unfold proceedRun
  split
  · exact (startPass_begins _ s).engineInv hrest
  · rename_i hkind
    have hopen : s.engine.passOpen = true := by
      have hheld := hs.holdKind
      rw [hs.passOpen]
      cases hk : s.engine.holdKind with
      | none => simp [hk, h] at hheld
      | some kind =>
        cases kind
        · simp
        · exact absurd hk hkind
    obtain ⟨hfetched, hrecalled⟩ := fetch_spec s
    cases hfault : fetchFault s (poolRecord s (nextIndex s)) with
    | none => exact (hfetched hfault).engineInv hrest hopen
    | some cause =>
      obtain ⟨hrecalled, hplan⟩ := hrecalled cause hfault
      exact hrecalled.engineInv hrest.slot (by rw [hplan]; exact hrest.active)

/-- No pass is open in a state that neither measures nor holds. -/
theorem EngineInv.closed {s : State} (hs : EngineInv s) (hmeasures : s.engine.state.measures = false)
    (hholds : s.engine.state ≠ .holding) : s.engine.passOpen = false := by
  have hheld := hs.holdKind
  rw [hs.passOpen, hmeasures]
  cases hk : s.engine.holdKind <;> simp_all

theorem homeArrived_engineInv {s : State} (h : s.engine.state = .homing) (hs : EngineInv s) :
    EngineInv (homeArrived s) := by
  have hopen : s.engine.passOpen = false := hs.closed (by simp [h, RunState.measures]) (by simp [h])
  refine takeAttempt_engineInv (endRun_engineInv _ (enter_entered .idle _) fun last => ?_)
  rw [enter_engine]
  refine engineFits_halted (.inl rfl) rfl rfl rfl hopen ⟨timer_stopped hs.moveTimer ?_, timer_stopped hs.settleTimer ?_,
    timer_stopped hs.countTimer ?_, timer_stopped hs.pauseTimer ?_, rfl⟩
  all_goals simp [h]

theorem homeExpiry_engineInv {s : State} (h : homeRuns s = true) (hs : EngineInv s) : EngineInv (homeExpiry s) := by
  have hst : s.engine.state = .homing := by
    simp only [homeRuns, Bool.and_eq_true, beq_iff_eq] at h
    exact h.1
  have hopen : s.engine.passOpen = false := hs.closed (by simp [hst, RunState.measures]) (by simp [hst])
  unfold homeExpiry
  rw [if_pos h]
  refine endRun_engineInv _ (enter_entered .tripped _) fun last => ?_
  rw [enter_engine]
  exact engineFits_halted (.inr rfl) rfl rfl rfl hopen ⟨rfl, rfl, rfl, rfl, rfl⟩

theorem enterIdle_engineInv {s : State} (h : s.engine.state = .tripped) (hs : EngineInv s) :
    EngineInv (enter .idle s) := by
  have hslot : s.engine.slot = none := by
    have hnone := hs.slot
    simpa [h, RunState.runActive] using hnone
  have hopen : s.engine.passOpen = false := hs.closed (by simp [h, RunState.measures]) (by simp [h])
  refine .of_entered (enter_entered .idle s) (enter_engine .idle s) ((congrArg _ (enter_plan .idle s)).trans
    hs.activeSlot) ?_
  refine engineFits_halted (.inl rfl) hslot rfl rfl hopen ⟨timer_stopped hs.moveTimer ?_,
    timer_stopped hs.settleTimer ?_, timer_stopped hs.countTimer ?_, timer_stopped hs.pauseTimer ?_,
    timer_stopped hs.homeTimer ?_⟩
  all_goals simp [h]

theorem tripClearable_tripped {s : State} (h : tripClearable s = true) : s.engine.state = .tripped := by
  simp only [tripClearable, Bool.and_eq_true, beq_iff_eq] at h
  exact h.1

theorem resetEngine_engineInv {s : State} (hs : EngineInv s) : EngineInv (resetEngine s) := by
  have hended := endByReset_engineInv hs
  have hentered : EngineInv (if tripClearable (endByReset s) then enter .idle (endByReset s) else endByReset s) := by
    split
    · exact enterIdle_engineInv (tripClearable_tripped ‹_›) hended
    · exact hended
  exact hentered.congr {}

theorem startCounting_engineInv {s : State} (h : s.engine.state = .settling) (hs : EngineInv s) :
    EngineInv (startCounting s) := by
  refine (startCounting_begun s).1.engineInv ⟨hs.activeSlot, by rw [hs.slot, h]; rfl, timer_stopped hs.moveTimer ?_,
    timer_stopped hs.homeTimer ?_, by rw [hs.passOpen, h]; rfl⟩ (startCounting_keeps s .plan (by decide))
  all_goals simp [h]

theorem advanceClock_notified (s : State) : Notified [18] s (advanceClock s) := by
  have hready (p : Port) (t : State) : Notified [18] t (judgeReady p t) := handReady_notified p _ t
  have hboundary (t : State) : Notified [18] t (takeBoundary t) := by
    refine .trans (.trans (.trans ?_ (hready .L _)) (hready .T _)) (hready .C _)
    exact .of_eq rfl
  refine Notified.ite (Notified.ite (.trans ?_ (hboundary _)) (.of_eq rfl)) (.of_eq rfl)
  exact .of_eq rfl

theorem advanceClock_sameEngine (s : State) : SameEngine s (advanceClock s) := by
  have hk := advanceClock_keeps s
  have hplan : (advanceClock s).plan = s.plan := hk .plan (by decide)
  have hlines : (advanceClock s).lines = s.lines := hk .lines (by decide)
  obtain ⟨-, hholds, -⟩ := (advanceClock_notified s).kept
  exact ⟨hk .engine (by decide), by rw [hplan], by rw [hlines], hholds .carriageWanted 10 (by decide) (by decide),
    hholds .proceedWanted 11 (by decide) (by decide), hholds .trip 14 (by decide) (by decide)⟩

theorem engineInv_reset : EngineInv State.reset :=
  (engineInv_iff _).mpr ⟨⟨rfl, rfl, rfl, rfl, rfl⟩, rfl,
    engineFits_halted (.inl rfl) rfl rfl rfl rfl ⟨rfl, rfl, rfl, rfl, rfl⟩⟩

theorem powerOn_engineInv (por : Bool) (s : State) : EngineInv (powerOn por s) := engineInv_reset.congr {}

theorem acts_engineInv {i : Instr} {s t : State} (h : Acts i s t) (hs : EngineInv s) : EngineInv t := by
  cases hi : drivesRun i
  case false => exact course_engineInv (acts_course h hi) hs
  case true =>
    cases h <;> try cases hi
    case positionReached d _ hst => exact arrive_engineInv d hst hs
    case depthReached hst => exact depthArrived_engineInv hst hs
    case homeReached hst => exact homeArrived_engineInv hst hs
    case proceed hst => exact proceedRun_engineInv hst hs
    case clearTrip hst => exact takeAttempt_engineInv (enterIdle_engineInv (tripClearable_tripped hst) hs)
    case resetEngine => exact resetEngine_engineInv hs
    case settleTimerExpiry hst =>
      exact startCounting_engineInv (by simp [settleRuns] at hst; exact hst.1) hs
    case countTimerExpiry hst =>
      obtain ⟨hpoint, hsettle⟩ := hs.counting (by simp [countRuns] at hst; exact hst.1)
      exact endPoint_engineInv hpoint hsettle
    case pauseTimerExpiry hst => exact restartPoint_engineInv (by simp [pauseRuns] at hst; exact hst.1) hs
    case homeTimerExpiry hst => exact homeExpiry_engineInv hst hs
    case stationClockAdvance => exact hs.congr (advanceClock_sameEngine s)
    case writeStagedPoint => exact hs.congr {}
    case clearStaged => exact hs.congr {}
    case installRating => exact course_engineInv (rateAgain_course _) (hs.congr {})
    case setSlotPriority => exact hs.congr {}
    case porAssert => exact powerOn_engineInv true s
    case porRelease => exact powerOn_engineInv false s

/-- Settles O56: each operation of the Run Engine leaves records that fit the state it enters, and every other
command leaves the engine, its permit and its conditions alone. -/
theorem engineKept : Obligations.EngineKept := fun _ _ hs h =>
  step_keeps_of_acts (fun s t hk hs => by
      have he : t.engine = s.engine := hk .engine (by decide)
      have hp : t.plan = s.plan := hk .plan (by decide)
      have hl : t.lines = s.lines := hk .lines (by decide)
      have hn : t.notices = s.notices := hk .notices (by decide)
      exact hs.congr ⟨he, by rw [hp], by rw [hl], by rw [hn], by rw [hn], by rw [hn]⟩)
    (fun _ _ hs => hs.congr {}) (fun _ hs => hs.congr {}) (fun _ _ _ => acts_engineInv) hs h

end Sys2Proof.Machine
end

section
/-! SUPPORT. The stores stay in their bounds (R30, R39, R43, R80, R93, R120, R129): what each operation of a run
makes of the log, the table, the order list and the active slot, and what a boundary and an install make of the
ring and of the rating. -/

namespace Sys2Proof.Machine

/-! ## The same stores -/

/-- From s to t the stores are the same, but for entries whose ordinals stand and a log that stays in its bound. -/
structure SameStores (s t : State) : Prop where
  fetchCount : t.engine.fetchCount = s.engine.fetchCount := by rfl
  ordinals : t.results.table.map TableEntry.ordinal = s.results.table.map TableEntry.ordinal := by rfl
  log : s.results.log.length ≤ 8 → t.results.log.length ≤ 8 := by exact fun h => h
  order : t.plan.order = s.plan.order := by rfl
  activeSlot : t.plan.activeSlot = s.plan.activeSlot := by rfl
  ring : t.history.ring = s.history.ring := by rfl
  nextSeq : t.history.nextSeq = s.history.nextSeq := by rfl
  staged : t.rating.staged = s.rating.staged := by rfl
  active : t.rating.active = s.rating.active := by rfl
  version : t.rating.version = s.rating.version := by rfl

theorem StoreInv.congr {s t : State} (hs : StoreInv s) (h : SameStores s t) : StoreInv t where
  ring := by rw [h.ring]; exact hs.ring
  sequence := by rw [h.ring, h.nextSeq]; exact hs.sequence
  enough := by rw [h.ring, h.nextSeq]; exact hs.enough
  log := h.log hs.log
  fetched := by rw [h.fetchCount]; exact hs.fetched
  table := by rw [h.ordinals, h.fetchCount]; exact hs.table
  order := by rw [h.order]; exact hs.order
  active := by rw [h.activeSlot]; exact hs.active
  staged := by rw [h.staged]; exact hs.staged
  rating := by rw [h.active]; exact hs.rating
  points := by rw [h.active]; exact hs.points
  version := by rw [h.active, h.version]; exact hs.version

/-- The Plan Store alone has changed, and its order list and active slot keep their bounds. -/
theorem StoreInv.of_plan {s t : State} (hs : StoreInv s) (hk : KeepsBut [.plan] s t)
    (horder : t.plan.order.Perm [0, 1, 2, 3]) (hactive : ∀ k, t.plan.activeSlot = some k → k < 4) : StoreInv t := by
  have hhistory : t.history = s.history := hk .history (by decide)
  have hresults : t.results = s.results := hk .results (by decide)
  have hengine : t.engine = s.engine := hk .engine (by decide)
  have hrating : t.rating = s.rating := hk .rating (by decide)
  constructor
  case order => exact horder
  case active => exact hactive
  all_goals simp only [hhistory, hresults, hengine, hrating]
  exacts [hs.ring, hs.sequence, hs.enough, hs.log, hs.fetched, hs.table, hs.staged, hs.rating, hs.points, hs.version]

theorem BesideRun.sameStores {s t : State} (h : BesideRun s t) : SameStores s t :=
  ⟨by rw [h.engine], by rw [h.results], by rw [h.results]; exact id, h.order, h.activeSlot, h.ring, h.nextSeq, h.staged,
    h.active, h.version⟩

/-- An operation that leaves plan, results, history and rating alone, and the count of fetches. -/
theorem SameStores.of_keeps {bs : List Block} {s t : State} (hk : KeepsBut bs s t)
    (hb : .results ∉ bs ∧ .plan ∉ bs ∧ .history ∉ bs ∧ .rating ∉ bs)
    (he : t.engine.fetchCount = s.engine.fetchCount) : SameStores s t := by
  obtain ⟨hresults, hplan, hhistory, hrating⟩ := hb
  have hresults : t.results = s.results := hk .results hresults
  have hplan : t.plan = s.plan := hk .plan hplan
  have hhistory : t.history = s.history := hk .history hhistory
  have hrating : t.rating = s.rating := hk .rating hrating
  exact ⟨he, by rw [hresults], by rw [hresults]; exact id, by rw [hplan], by rw [hplan], by rw [hhistory],
    by rw [hhistory], by rw [hrating], by rw [hrating], by rw [hrating]⟩

/-- From s to t the stores stay in their bounds. -/
def Stores (s t : State) : Prop := StoreInv s → StoreInv t

theorem Stores.refl (s : State) : Stores s s := id

theorem Stores.of_same {s t : State} (h : SameStores s t) : Stores s t := fun hs => hs.congr h

theorem Stores.trans {s t u : State} (h : Stores s t) (h' : Stores t u) : Stores s u := h' ∘ h

theorem Stores.before {s t u : State} (h : Stores t u) (hs : SameStores s t := by exact {}) : Stores s u :=
  .trans (.of_same hs) h

theorem Stores.after {s t u : State} (h : Stores s t) (hu : SameStores t u := by exact {}) : Stores s u :=
  .trans h (.of_same hu)

theorem Stores.ite {s t u : State} {c : Prop} [Decidable c] (h : Stores s t) (h' : Stores s u) :
    Stores s (if c then t else u) := by
  split <;> assumption

/-! ## The table and the log -/

theorem newestAs_ordinals {f : TableEntry → TableEntry} (hf : ∀ e, (f e).ordinal = e.ordinal) (es : List TableEntry) :
    (newestAs f es).map TableEntry.ordinal = es.map TableEntry.ordinal := by
  obtain rfl | ⟨before, e, rfl⟩ := List.eq_nil_or_concat es
  · rfl
  · simp [newestAs, hf]

theorem onNewest_ordinals {f : TableEntry → TableEntry} (hf : ∀ e, (f e).ordinal = e.ordinal) (es : List TableEntry) :
    (onNewest f es).map TableEntry.ordinal = es.map TableEntry.ordinal := by
  rw [onNewest_eq, newestAs_ordinals hf]

theorem panelled_ordinal (span : Nat) (e : TableEntry) : (panelled span e).ordinal = e.ordinal := by
  unfold panelled
  split <;> rfl

theorem appendResult_length {log : List PassResult} (h : log.length ≤ 8) (r : PassResult) :
    (appendResult log r).length ≤ 8 := by
  unfold appendResult Config.logSize
  split <;> simp <;> omega

theorem recordCompletion_stores (s : State) : SameStores s (recordCompletion s) where
  ordinals := by
    refine onNewest_ordinals ?_ _
    exact fun _ => rfl

theorem recordRestart_stores (s : State) : SameStores s (recordRestart s) where
  ordinals := by
    refine onNewest_ordinals ?_ _
    exact fun _ => rfl

theorem recordArrival_stores (v : WorkingVertical) (s : State) : SameStores s (recordArrival v s) where
  ordinals := by
    refine onNewest_ordinals ?_ _
    exact fun _ => rfl

theorem recordPoint_stores (pulses ms : Nat) (s : State) : SameStores s (recordPoint pulses ms s) where
  ordinals := by
    refine onNewest_ordinals ?_ _
    exact fun _ => rfl

theorem closePass_stores (status : PassStatus) (cause : EndCause) (s : State) :
    SameStores s (closePass status cause s) where
  ordinals := onNewest_ordinals (fun e => by rw [finalizeEntry_eq, panelled_ordinal]) _
  log h := appendResult_length h _

theorem closeIfOpen_stores (cause : EndCause) (s : State) : Stores s (closeIfOpen cause s) :=
  Stores.ite (.of_same (closePass_stores _ _ s)) (.refl s)

/-! ## The course of a run -/

theorem enter_stores (st : RunState) (s : State) : SameStores s (enter st s) :=
  .of_keeps (enter_keeps st s) (by decide) (by rw [enter_engine])

theorem withEngine_stores {s : State} (e : RunEngine) (he : e.fetchCount = s.engine.fetchCount) :
    SameStores s (withEngine e s) := { fetchCount := he }

theorem enterMove_stores (st : RunState) (s : State) : Stores s (enterMove st s) :=
  (Stores.of_same (enter_stores st s)).after

theorem recallRun_stores (cause : EndCause) (s : State) : Stores s (recallRun cause s) := by
  have hclosed : Stores s (closeIfOpen cause (stopTimers s)) := (closeIfOpen_stores cause _).before
  have hcause : Stores s (withEngine { (closeIfOpen cause (stopTimers s)).engine with homingCause := some cause }
    (closeIfOpen cause (stopTimers s))) := hclosed.after
  exact (hcause.trans (.of_same (enter_stores .homing _))).after

theorem fetchFault_count {s : State} {r : VerticalRecord} (h : fetchFault s r = none) : s.engine.fetchCount < 40 := by
  by_contra hn
  have hfull : Config.passVerticals ≤ s.engine.fetchCount := by
    unfold Config.passVerticals
    omega
  simp [fetchFault, hfull] at h

/-- A fetched vertical joins the table with the next ordinal (R120). -/
theorem recordRead_stores (i : Nat) (r : VerticalRecord) {s : State} (h : s.engine.fetchCount < 40) :
    Stores s (recordRead i r s) := fun hs =>
  { hs with
    fetched := h
    table := by
      change (onNewest _ s.results.table ++ [_]).map TableEntry.ordinal = List.range' 1 (s.engine.fetchCount + 1)
      rw [List.map_append, onNewest_ordinals (fun e => by rw [finalizeEntry_eq, panelled_ordinal]), hs.table,
        List.range'_concat]
      simp [workingOf, Nat.add_comm] }

theorem fetch_stores (s : State) : Stores s (fetch s) := by
  obtain ⟨cause, -, h⟩ | ⟨hf, h⟩ := fetch_cases s <;> rw [h]
  · exact recallRun_stores cause s
  · rw [fetchRecord_eq]
    exact (recordRead_stores _ _ (fetchFault_count hf)).trans (enterMove_stores .moving _)

theorem startPass_stores (number : Nat) (s : State) : Stores s (startPass number s) := by
  have hbegun : Stores s (passBegun number s) := fun hs => { hs with fetched := Nat.zero_le 40, table := rfl }
  rw [startPass_eq]
  exact hbegun.trans (fetch_stores _)

theorem takeSlot_stores {k : Nat} (hk : k < 4) (s : State) : Stores s (takeSlot k s) := by
  have htaken : Stores s (slotTaken k s) := fun hs => { hs with
    active := fun j hj => by
      have hkj : k = j := Option.some.inj hj
      omega }
  rw [takeSlot_eq]
  exact htaken.trans (startPass_stores 1 _)

theorem takeAttempt_stores (s : State) : Stores s (takeAttempt s) := by
  obtain h | ⟨k, h, -, -, hk⟩ := takeAttempt_cases s <;> rw [h]
  · exact .refl s
  · exact takeSlot_stores (slotAsks_lt hk) s

theorem hold_stores (kind : HoldKind) (s : State) : Stores s (hold kind s) :=
  Stores.before (.of_same (enter_stores .holding _))

theorem endPass_stores (s : State) : Stores s (endPass s) := by
  have hclose := Stores.of_same (closePass_stores .complete .complete s)
  refine Stores.ite (Stores.ite ?_ (hclose.trans (recallRun_stores _ _))) (recallRun_stores _ s)
  split
  · exact hclose.trans (startPass_stores _ _)
  · exact hclose.trans (hold_stores _ _)

theorem completeVertical_stores (s : State) : Stores s (completeVertical s) := by
  have hcompleted : Stores s (recordCompletion s) := .of_same (recordCompletion_stores s)
  refine Stores.ite ?_ (hcompleted.trans (endPass_stores _))
  split
  · exact hcompleted.trans (fetch_stores _)
  · exact hcompleted.trans (hold_stores _ _)

theorem restartPoint_stores (s : State) : Stores s (restartPoint s) :=
  Stores.before (.of_same (recordRestart_stores _))

theorem pausePoint_stores (s : State) : Stores s (pausePoint s) :=
  Stores.ite ((restartPoint_stores _).before) (.of_same {})

theorem startCounting_stores (s : State) : Stores s (startCounting s) := by
  have hentered : Stores s (countingEntered s) := by
    refine .trans (.of_same (withEngine_stores _ ?_)) (.trans (.of_same (enter_stores .counting _))
      (.of_same (withEngine_stores _ ?_)))
    · rfl
    · rfl
  exact Stores.ite (hentered.trans (pausePoint_stores _)) hentered

theorem startSettling_stores (s : State) : Stores s (startSettling s) := by
  have hentered := Stores.of_same (enter_stores .settling s)
  exact Stores.ite (hentered.trans (startCounting_stores _)) hentered.after

theorem goToPoint_stores (s : State) : Stores s (goToPoint s) := by
  unfold goToPoint
  split
  · exact startSettling_stores s
  · exact enterMove_stores .lowering s

theorem arrive_stores (depth : Nat) (s : State) : Stores s (arrive depth s) := by
  have harrived (v : WorkingVertical) : Stores s
      (recordArrival v (withEngine { s.engine with vertical := v, moveTimer := .stopped } s)) :=
    Stores.before (.of_same (recordArrival_stores v _))
  exact Stores.ite ((harrived _).trans (completeVertical_stores _)) ((harrived _).trans (goToPoint_stores _))

theorem endPoint_stores (s : State) : Stores s (endPoint s) := by
  have hrecorded : Stores s (pointRecorded s) := Stores.before (.of_same (recordPoint_stores _ _ (pointClosed s)))
  exact Stores.ite (hrecorded.trans ((enterMove_stores .lowering _).before))
    (hrecorded.trans (completeVertical_stores _))

theorem settledPassage_stores (active : Bool) (s : State) : Stores s (settledPassage active s) := by
  unfold settledPassage
  refine Stores.ite (Stores.ite ?_ (Stores.ite (.refl s) (pausePoint_stores s))) (.refl s)
  exact Stores.ite (.of_same {}) (Stores.ite (Stores.ite ((endPoint_stores _).before) (.of_same {})) (.refl s))

/-- The order list stands, or the slot whose run ended leaves its place for the last one (R80). -/
theorem planEnd_stores (cause : EndCause) (s : State) : Stores s (planEnd cause s) := by
  intro hs
  refine hs.of_plan (planEnd_keeps cause s) ?_ (by rw [planEnd_activeSlot]; nofun)
  unfold planEnd
  split
  · exact hs.order
  · rename_i k hk
    have hmem : k ∈ s.plan.order := hs.order.mem_iff.mpr (by have hlt := hs.active k hk; simp; omega)
    dsimp only
    split
    · exact ((List.perm_append_singleton k _).trans (List.perm_cons_erase hmem).symm).trans hs.order
    · exact hs.order

theorem endRun_stores (cause : EndCause) (s : State) : Stores s (endRun cause s) := (planEnd_stores cause _).before

theorem haltedIn_stores (st : RunState) (record : TripRecord) (cause : EndCause) (s : State) :
    Stores s (haltedIn st record cause s) := by
  have hclosed : Stores s (closeIfOpen cause (stopTimers s)) := (closeIfOpen_stores cause _).before
  have hrecorded : Stores s (withEngine { (closeIfOpen cause (stopTimers s)).engine with trip := record }
    (closeIfOpen cause (stopTimers s))) := hclosed.after
  exact hrecorded.trans (.of_same (enter_stores st _))

theorem tripEngine_stores (record : TripRecord) (s : State) : Stores s (tripEngine record s) := by
  by_cases h : s.engine.state = .tripped
  · simp only [tripEngine, h, if_true]
    exact .refl s
  · have hhalt := haltedIn_stores .tripped record .trip s
    rw [tripEngine_eq h]
    exact Stores.ite (hhalt.trans (endRun_stores .trip _)) hhalt

theorem endByReset_stores (s : State) : Stores s (endByReset s) :=
  Stores.ite ((haltedIn_stores .idle (closeIfOpen .reset (stopTimers s)).engine.trip .reset s).trans
    (endRun_stores .reset _)) (.refl s)

theorem keptByRun_storeInv : KeptByRun StoreInv where
  take s := takeAttempt_stores s
  recalled s cause _ := recallRun_stores cause s
  pulse s := Stores.ite (.of_same {}) (.refl s)
  settled s active := settledPassage_stores active s
  trip s record := tripEngine_stores record s
  reset s := endByReset_stores s

theorem course_stores {s t : State} (h : Course s t) : Stores s t :=
  keptByRun_storeInv.course_of_beside (fun _ _ hb hs => hs.congr hb.sameStores) h

/-! ## The ring -/

/-- A boundary numbers its record on, and the oldest leaves a full ring (R30). -/
theorem appendRecord_stores {s : State} (hs : StoreInv s) (r : IntervalRecord) (hr : r.seq = s.history.nextSeq) :
    StoreInv { s with history := s.history.appendRecord r } := by
  have hlen := hs.ring
  have henough := hs.enough
  have hseq := hs.sequence
  have hring : (s.history.appendRecord r).ring =
      (if 96 ≤ s.history.ring.length then s.history.ring.drop 1 else s.history.ring) ++ [r] := rfl
  refine { hs with ring := ?_, sequence := ?_, enough := ?_ }
  · change (s.history.appendRecord r).ring.length ≤ 96
    rw [hring]
    split <;> simp <;> omega
  · change (s.history.appendRecord r).ring.map IntervalRecord.seq = List.range'
      (s.history.nextSeq + 1 - (s.history.appendRecord r).ring.length) (s.history.appendRecord r).ring.length
    rw [hring, List.map_append, List.map_singleton, hr]
    split
    · rename_i hfull
      have hdrop : (s.history.ring.drop 1).map IntervalRecord.seq =
          List.range' (s.history.nextSeq - s.history.ring.length + 1) (s.history.ring.length - 1) := by
        rw [List.map_drop, hseq, List.drop_range']
      rw [hdrop]
      have hcount : ((s.history.ring.drop 1) ++ [r]).length = s.history.ring.length - 1 + 1 := by simp
      rw [hcount, List.range'_concat]
      congr 2 <;> omega
    · have hcount : (s.history.ring ++ [r]).length = s.history.ring.length + 1 := by simp
      rw [hseq, hcount, List.range'_concat]
      congr 2 <;> omega
  · change (s.history.appendRecord r).ring.length ≤ s.history.nextSeq + 1
    rw [hring]
    split <;> simp <;> omega

theorem judgeReady_stores (p : Port) (s : State) : SameStores s (judgeReady p s) :=
  .of_keeps (judgeReady_keeps p s) (by decide) rfl

theorem takeBoundary_stores (s : State) : Stores s (takeBoundary s) := by
  refine .trans (.trans (.trans ?_ (.of_same (judgeReady_stores .L _))) (.of_same (judgeReady_stores .T _)))
    (.of_same (judgeReady_stores .C _))
  exact .trans (fun hs => appendRecord_stores hs (closingRecord s) rfl) (.of_same {})

theorem advanceClock_stores (s : State) : Stores s (advanceClock s) :=
  Stores.ite (Stores.ite ((takeBoundary_stores _).before) (.of_same {})) (.of_same {})

/-! ## The rating -/

/-- The order that R39 asks of two points, one before the other. -/
def PointsRise (a b : Breakpoint) : Prop := a.h < b.h ∧ a.q ≤ b.q

/-- What a check that finds no fault has seen: no index empty, and every point above the one before it (R42). -/
theorem checkStagedFrom_none {i : Nat} {before : Option Breakpoint} {l : List (Option Breakpoint)}
    (h : checkStagedFrom i before l = none) :
    (l.filterMap id).length = l.length ∧ (before.toList ++ l.filterMap id).IsChain PointsRise := by
  induction l generalizing i before with
  | nil => exact ⟨rfl, by cases before <;> simp⟩
  | cons o rest ih =>
    cases o with
    | none => simp [checkStagedFrom] at h
    | some b =>
      cases before with
      | none =>
        obtain ⟨hlen, hchain⟩ := ih h
        exact ⟨by simpa using hlen, by simpa using hchain⟩
      | some a =>
        simp only [checkStagedFrom] at h
        split at h
        · cases h
        · split at h
          · cases h
          · obtain ⟨hlen, hchain⟩ := ih h
            refine ⟨by simpa using hlen, ?_⟩
            simp only [Option.toList_some, List.filterMap_cons, id, List.singleton_append, List.isChain_cons_cons]
            exact ⟨⟨by omega, by omega⟩, by simpa using hchain⟩

theorem stagedCount_le (staged : Vector (Option Breakpoint) 24) : stagedCount staged ≤ 24 := by
  have hfold (l : List Nat) (hl : ∀ i ∈ l, i < 24) (n : Nat) (hn : n ≤ 24) :
      l.foldl (fun n i => if (at' staged i).isSome then i + 1 else n) n ≤ 24 := by
    induction l generalizing n with
    | nil => exact hn
    | cons i rest ih =>
      have hi := hl i (by simp)
      refine ih (fun j hj => hl j (by simp [hj])) _ ?_
      dsimp only
      split <;> omega
  exact hfold _ (fun i hi => by simpa using hi) 0 (by omega)

/-- A table that passes the check is one that R39 allows. -/
theorem stagedPoints_valid {staged : Vector (Option Breakpoint) 24} (h : checkStaged staged = none)
    (hrange : ∀ b ∈ staged.toList.filterMap id, -1000 ≤ b.h ∧ b.h ≤ 15000 ∧ b.q ≤ 4000000) :
    ValidTable (stagedPoints staged) ∧ (stagedPoints staged).length ≤ 24 ∧
      ∀ b ∈ stagedPoints staged, -1000 ≤ b.h ∧ b.h ≤ 15000 := by
  have hmem : ∀ b ∈ stagedPoints staged, -1000 ≤ b.h ∧ b.h ≤ 15000 ∧ b.q ≤ 4000000 := fun b hb =>
    hrange b ((List.Sublist.filterMap id (List.take_sublist _ _)).subset hb)
  simp only [checkStaged] at h
  split at h
  · cases h
  · rename_i hcount
    obtain ⟨hlen, hchain⟩ := checkStagedFrom_none h
    have hle := stagedCount_le staged
    have hlength : (stagedPoints staged).length = stagedCount staged := by
      rw [stagedPoints, hlen]
      simp [hle]
    have hpairs : (stagedPoints staged).Pairwise PointsRise := by
      have htrans : IsTrans Breakpoint PointsRise := ⟨fun _ _ _ h h' => ⟨h.1.trans h'.1, h.2.trans h'.2⟩⟩
      exact List.isChain_iff_pairwise.mp hchain
    exact ⟨⟨by omega, hpairs, fun b hb => (hmem b hb).2.2⟩, by omega, fun b hb => ⟨(hmem b hb).1, (hmem b hb).2.1⟩⟩

theorem install_stores {s : State} (h : checkStaged s.rating.staged = none) :
    Stores s { s with rating := s.rating.install } := fun hs => by
  obtain ⟨hvalid, hlength, hpoints⟩ := stagedPoints_valid h hs.staged
  have hne : stagedPoints s.rating.staged ≠ [] := by
    intro he
    have htwo := hvalid.1
    simp [he] at htwo
  refine { hs with rating := .inr hvalid, points := ⟨hlength, hpoints⟩, version := ?_ }
  change nextVersion s.rating.version ≤ 255 ∧ (nextVersion s.rating.version = 0 ↔ stagedPoints s.rating.staged = [])
  have hle := hs.version.1
  unfold nextVersion
  constructor
  · split <;> [skip; split] <;> omega
  · simp only [hne, iff_false]
    split <;> [skip; split] <;> omega

/-- A point in R39's ranges joins the staged table (R40). -/
theorem writeStagedPoint_stores {s : State} {index q : Nat} {h : Int}
    (hrange : (within 0 23 index && stageInRange h && within 0 Config.dischargeMax q) = true) :
    Stores s { s with rating := { s.rating with staged := put s.rating.staged index (some ⟨h, q⟩) } } := fun hs => by
  obtain ⟨-, hlow, hhigh, hq⟩ := stagedPoint_inRange_iff.mp hrange
  refine { hs with staged := fun b hb => ?_ }
  rw [List.mem_filterMap] at hb
  obtain ⟨o, ho, rfl⟩ := hb
  have ho : some b ∈ put s.rating.staged index (some ⟨h, q⟩) := by simpa using ho
  obtain ⟨j, hj, hget⟩ := Vector.mem_iff_getElem.mp ho
  rw [put, Vector.getElem_setIfInBounds] at hget
  split at hget
  · obtain rfl := Option.some.inj hget
    exact ⟨hlow, hhigh, hq⟩
  · refine hs.staged b (List.mem_filterMap.mpr ⟨some b, ?_, rfl⟩)
    rw [← hget]
    simp

/-! ## The commands that drive the run or write the stores -/

theorem proceedRun_stores (s : State) : Stores s (proceedRun s) := by
  unfold proceedRun
  split
  · exact startPass_stores _ s
  · exact fetch_stores s

theorem endIdle_stores (cause : EndCause) (s : State) : Stores s (endIdle cause s) :=
  .trans (.of_same (enter_stores .idle s)) (.trans (endRun_stores cause _) (takeAttempt_stores _))

theorem homeExpiry_stores (s : State) : Stores s (homeExpiry s) :=
  Stores.ite (.before (.trans (.of_same (enter_stores .tripped _)) (endRun_stores _ _))) (.refl s)

theorem resetEngine_stores (s : State) : Stores s (resetEngine s) := by
  have hentered : Stores s (if tripClearable (endByReset s) then enter .idle (endByReset s) else endByReset s) :=
    Stores.ite ((endByReset_stores s).trans (.of_same (enter_stores .idle _))) (endByReset_stores s)
  exact hentered.trans fun hs => hs.of_plan (withPlan_keeps _ _) (.refl _) hs.active

theorem setSlotPriority_stores (x : Priority) (s : State) :
    Stores s { s with plan := { s.plan with priority := x, order := orderFor x s.plan.order } } := fun hs =>
  hs.of_plan (withPlan_keeps _ _) (by cases x <;> [exact .refl _; exact hs.order]) hs.active

theorem storeInv_reset : StoreInv State.reset where
  ring := by decide
  sequence := rfl
  enough := by decide
  log := by decide
  fetched := by decide
  table := rfl
  order := .refl _
  active := nofun
  staged := by simp [State.reset]
  rating := .inl rfl
  points := ⟨by decide, nofun⟩
  version := ⟨by decide, fun _ => rfl, fun _ => rfl⟩

theorem powerOn_stores (por : Bool) (s : State) : StoreInv (powerOn por s) := storeInv_reset.congr {}

theorem acts_stores {i : Instr} {s t : State} (h : Acts i s t) : Stores s t := by
  cases hi : drivesRun i
  case false => exact course_stores (acts_course h hi)
  case true =>
    cases h <;> try cases hi
    case positionReached d _ _ => exact arrive_stores d s
    case depthReached => exact (startSettling_stores _).before
    case homeReached => exact (endIdle_stores _ _).before
    case proceed => exact proceedRun_stores s
    case clearTrip => exact .trans (.of_same (enter_stores .idle s)) (takeAttempt_stores _)
    case resetEngine => exact resetEngine_stores s
    case settleTimerExpiry => exact startCounting_stores s
    case countTimerExpiry => exact endPoint_stores s
    case pauseTimerExpiry => exact restartPoint_stores s
    case homeTimerExpiry => exact homeExpiry_stores s
    case stationClockAdvance => exact advanceClock_stores s
    case writeStagedPoint hrange => exact writeStagedPoint_stores hrange
    case clearStaged => exact fun hs => { hs with staged := by simp }
    case installRating hcheck =>
      exact (install_stores hcheck).trans (.before (t := raise .ratingInstalled { s with rating := s.rating.install })
        (course_stores (rateAgain_course _)))
    case setSlotPriority x => exact setSlotPriority_stores x s
    case porAssert => exact fun _ => powerOn_stores true s
    case porRelease => exact fun _ => powerOn_stores false s

/-- Settles O60: of the operations that write a store each keeps its bound (a fetch checks the number of the
verticals, a boundary numbers its record on, an install has checked its table), and no other writes one. -/
theorem storesKept : Obligations.StoresKept := fun _ _ hs h =>
  step_keeps_of_acts (fun s t hk hs => by
      have hengine : t.engine = s.engine := hk .engine (by decide)
      exact hs.congr (.of_keeps hk (by decide) (by rw [hengine])))
    (fun _ _ hs => hs.congr {}) (fun _ hs => hs.congr {}) (fun _ _ _ => acts_stores) hs h

end Sys2Proof.Machine
end

section
/-! SUPPORT. The station table and its floor (R158 to R167): what reports, timers and settings make of an entry, and
what the floor formed again makes of the part. -/

namespace Sys2Proof.Machine

/-! ## Entries -/

theorem mem_put {α : Type} {n : Nat} {v : Vector α n} {i : Nat} {x y : α} (h : y ∈ (put v i x).toList) :
    y = x ∨ y ∈ v.toList := by
  rw [Vector.mem_toList_iff, Vector.mem_iff_getElem] at h
  obtain ⟨j, hj, hget⟩ := h
  rw [put, Vector.getElem_setIfInBounds] at hget
  split at hget
  · exact .inl hget.symm
  · exact .inr (by rw [← hget]; simp)

theorem at'_mem {α : Type} [Inhabited α] {n : Nat} (v : Vector α n) (i : Nat) :
    at' v i = default ∨ at' v i ∈ v.toList := by
  by_cases hi : i < n
  · exact .inr (by rw [at'_eq v hi]; simp)
  · exact .inl (by simp [at', hi])

/-- An entry without a queue. -/
theorem EntryInv.of_empty {now : Nat} {e : StationEntry} (hq : e.queue = []) (hc : e.contribution ≤ 3)
    (hs : e.stale = true → e.contribution = 0) : EntryInv now e := by
  constructor
  case contribution => exact hc
  case stale => exact fun h => ⟨hs h, hq⟩
  all_goals simp [hq]

theorem EntryInv.later {now now' : Nat} {e : StationEntry} (h : EntryInv now e) (hle : now ≤ now') :
    EntryInv now' e := { h with ahead := fun x hx => (h.ahead x hx).trans (by omega) }

theorem EntryInv.madeStale (now : Nat) (e : StationEntry) : EntryInv now e.madeStale :=
  .of_empty rfl (Nat.zero_le 3) fun _ => rfl

/-- The oldest item of the queue becomes the contribution (R165). -/
theorem EntryInv.advanced {now : Nat} {e : StationEntry} (h : EntryInv now e) {item : QueueItem}
    {rest : List QueueItem} (hq : e.queue = item :: rest) :
    EntryInv now { e with contribution := item.value, queue := rest } := by
  have hmem {x : QueueItem} (hx : x ∈ rest) : x ∈ e.queue := by simp [hq, hx]
  have hlen := h.length
  have htimes := h.times
  rw [hq] at hlen htimes
  exact {
    length := by simp at hlen; dsimp only; omega
    values := fun x hx => h.values x (hmem hx)
    contribution := h.values item (by simp [hq])
    times := (List.pairwise_cons.mp htimes).2
    ahead := fun x hx => h.ahead x (hmem hx)
    stale := fun hs => by have hnil := (h.stale hs).2; simp [hq] at hnil
    travel := fun ht => by have hnil := h.travel ht; simp [hq] at hnil }

theorem replaceNewest_times (value : Nat) (l : List QueueItem) :
    (replaceNewest value l).map QueueItem.effective = l.map QueueItem.effective := by
  induction l with
  | nil => rfl
  | cons i rest ih =>
    cases rest with
    | nil => rfl
    | cons j rest => simpa [replaceNewest] using ih

theorem replaceNewest_values {value : Nat} {l : List QueueItem} {x : QueueItem} (h : x ∈ replaceNewest value l) :
    x.value = value ∨ x ∈ l := by
  induction l with
  | nil => simp [replaceNewest] at h
  | cons i rest ih =>
    cases rest with
    | nil => simp [replaceNewest] at h; simp [h]
    | cons j rest =>
      simp only [replaceNewest, List.mem_cons] at h
      obtain rfl | h := h
      · simp
      · obtain hv | hm := ih h
        · exact .inl hv
        · exact .inr (by simp [List.mem_cons.mp hm])

/-- An accepted contribution is current at once, or joins the queue, or takes the newest item's place (R163,
R164). -/
theorem EntryInv.accept {now : Nat} {e : StationEntry} (h : EntryInv now e) (a : ReportArgs) {c : Nat} (hc : c ≤ 3) :
    EntryInv now (e.accept a c now).1 := by
  unfold StationEntry.accept StationEntry.place
  dsimp only
  split
  · rename_i ht
    exact .of_empty (h.travel ht) hc nofun
  · rename_i ht
    split
    · rename_i hlen
      unfold Config.queueSize at hlen
      constructor
      · simp; omega
      · intro x hx
        simp only [List.mem_append, List.mem_singleton] at hx
        obtain hx | rfl := hx
        · exact h.values x hx
        · exact hc
      · exact h.contribution
      · simp only [List.pairwise_append, List.pairwise_singleton, List.mem_singleton, forall_eq, true_and]
        exact ⟨h.times, h.ahead⟩
      · intro x hx
        simp only [List.mem_append, List.mem_singleton] at hx
        obtain hx | rfl := hx
        · exact h.ahead x hx
        · exact le_refl _
      · nofun
      · exact fun h0 => absurd h0 ht
    · have htimes := replaceNewest_times c e.queue
      constructor
      · have hlen := congrArg List.length htimes
        simp only [List.length_map] at hlen
        exact hlen.le.trans h.length
      · intro x hx
        obtain hv | hm := replaceNewest_values hx
        · exact hv.le.trans hc
        · exact h.values x hm
      · exact h.contribution
      · have hpairs := h.times
        rw [← List.pairwise_map (R := fun a b : Nat => a ≤ b) (f := QueueItem.effective)] at hpairs ⊢
        rwa [htimes]
      · intro x hx
        have hx' : x.effective ∈ (replaceNewest c e.queue).map QueueItem.effective := List.mem_map_of_mem hx
        rw [htimes, List.mem_map] at hx'
        obtain ⟨y, hy, heq⟩ := hx'
        exact heq ▸ h.ahead y hy
      · nofun
      · exact fun h0 => absurd h0 ht

/-! ## The table, and the floor formed from it -/

/-- The Upstream Filter but for its floor. -/
structure TableInv (s : State) : Prop where
  phase : s.clock.phase ≤ 999
  entries : ∀ e ∈ s.upstream.entries.toList, EntryInv (nowMs s) e
  caps : ∀ c ∈ s.upstream.classMap.toList, ∀ n, c = some n → n ≤ 3

theorem UpstreamInv.table {s : State} (hs : UpstreamInv s) : TableInv s := ⟨hs.phase, hs.entries, hs.caps⟩

/-- From s to t the clock's time, the filter and the floor that the Warning Unit holds are the same. -/
structure SameUpstream (s t : State) : Prop where
  uptime : t.clock.uptime = s.clock.uptime := by rfl
  phase : t.clock.phase = s.clock.phase := by rfl
  upstream : t.upstream = s.upstream := by rfl
  floor : t.warning.floor = s.warning.floor := by rfl

theorem SameUpstream.trans {s t u : State} (h : SameUpstream s t) (h' : SameUpstream t u) : SameUpstream s u :=
  ⟨h'.uptime.trans h.uptime, h'.phase.trans h.phase, h'.upstream.trans h.upstream, h'.floor.trans h.floor⟩

theorem SameUpstream.ite {s t u : State} {c : Prop} [Decidable c] (h : SameUpstream s t) (h' : SameUpstream s u) :
    SameUpstream s (if c then t else u) := by
  split <;> assumption

theorem SameUpstream.of_keeps {bs : List Block} {s t : State} (hk : KeepsBut bs s t)
    (hb : .clock ∉ bs ∧ .upstream ∉ bs ∧ .warning ∉ bs) : SameUpstream s t := by
  obtain ⟨hclock, hupstream, hwarning⟩ := hb
  have hclock : t.clock = s.clock := hk .clock hclock
  have hwarning : t.warning = s.warning := hk .warning hwarning
  exact ⟨by rw [hclock], by rw [hclock], hk .upstream hupstream, by rw [hwarning]⟩

theorem UpstreamInv.congr {s t : State} (hs : UpstreamInv s) (h : SameUpstream s t) : UpstreamInv t := by
  have hnow : nowMs t = nowMs s := by simp [nowMs, h.uptime, h.phase]
  exact ⟨by rw [h.phase]; exact hs.phase, by rw [h.upstream, hnow]; exact hs.entries,
    by rw [h.upstream]; exact hs.caps, by rw [h.upstream]; exact hs.floor, by rw [h.floor, h.upstream]; exact hs.handed⟩

theorem entryAt_inv {s : State} (hs : TableInv s) (i : Nat) : EntryInv (nowMs s) (entryAt s i) := by
  obtain h | h := at'_mem s.upstream.entries i
  · rw [entryAt, h]
    exact .of_empty rfl (Nat.zero_le 3) fun _ => rfl
  · exact hs.entries _ h

theorem setEntry_tableInv {s : State} (hs : TableInv s) (i : Nat) {e : StationEntry} (he : EntryInv (nowMs s) e) :
    TableInv (setEntry i e s) where
  phase := hs.phase
  entries x hx := by
    obtain rfl | h := mem_put hx
    · exact he
    · exact hs.entries x h
  caps := hs.caps

theorem greatest_congr {u v : UpstreamFilter}
    (h : v.entries.toList.map StationEntry.contribution = u.entries.toList.map StationEntry.contribution) :
    v.greatest = u.greatest := by
  rw [UpstreamFilter.greatest, UpstreamFilter.greatest, h]

/-- An entry replaced by one of the same contribution leaves the floor (R167). -/
theorem greatest_setEntry {s : State} {i : Nat} {e : StationEntry}
    (he : e.contribution = (entryAt s i).contribution) : (setEntry i e s).upstream.greatest = s.upstream.greatest := by
  refine greatest_congr ?_
  have hmap : (put s.upstream.entries i e).map StationEntry.contribution =
      s.upstream.entries.map StationEntry.contribution := by
    ext j hj
    rw [Vector.getElem_map, Vector.getElem_map, put, Vector.getElem_setIfInBounds]
    split
    · rename_i hij
      subst hij
      rw [he, entryAt, at'_eq _ hj]
    · rfl
  rw [← Vector.toList_map, ← Vector.toList_map]
  exact congrArg Vector.toList hmap

theorem foldl_max_le {l : List Nat} {m n : Nat} (hn : n ≤ m) (h : ∀ x ∈ l, x ≤ m) : l.foldl max n ≤ m := by
  induction l generalizing n with
  | nil => exact hn
  | cons x rest ih => exact ih (max_le hn (h x (by simp))) fun y hy => h y (by simp [hy])

theorem greatest_le {s : State} (hs : TableInv s) : s.upstream.greatest ≤ 3 :=
  foldl_max_le (Nat.zero_le 3) fun x hx => by
    obtain ⟨e, he, rfl⟩ := List.mem_map.mp hx
    exact (hs.entries e he).contribution

theorem settleLevel_floor (k : Nat) (i : EvalInputs) (w : WarningUnit) : (settleLevel k i w).1.floor = w.floor := by
  induction k generalizing w with
  | zero => rfl
  | succ k ih =>
    unfold settleLevel
    dsimp only
    split
    · rfl
    · split
      · rfl
      · split
        · exact ih _
        · rfl

/-- The handing on of an evaluation writes retreat and the outputs of the Warning Unit, and nothing else of it. -/
theorem handOn_warning_eq (changes : List (Nat × Nat)) (s : State) : (handOn changes s).warning =
    { s.warning with
      retreat := retreatAfter s.warning s.stage.stilled
      outputs := s.warning.outputs.map (formOutput s.warning.level s.warning.silence) } := by
  have hretreat : (retreatHanded changes s).warning =
      { s.warning with retreat := retreatAfter s.warning s.stage.stilled } := by rw [(retreatHanded_eq changes s).2]
  have hjudged : (retreatJudged changes s).warning =
      { s.warning with retreat := retreatAfter s.warning s.stage.stilled } := by
    unfold retreatJudged
    split
    · rw [← hretreat]
      exact retreatRecall_keeps _ .warning (by decide)
    · exact hretreat
  have hlevels : (changes.foldl handLevelChange (retreatJudged changes s)).warning =
      { s.warning with retreat := retreatAfter s.warning s.stage.stilled } := by
    rw [← hjudged]
    exact handLevels_keeps changes _ .warning (by decide)
  have hformed : (formOutputs (changes.foldl handLevelChange (retreatJudged changes s))).warning =
      { s.warning with
        retreat := retreatAfter s.warning s.stage.stilled
        outputs := s.warning.outputs.map (formOutput s.warning.level s.warning.silence) } := by
    rw [formOutputs_warning, hlevels]
  rw [handOn_eq, ← hformed]
  split
  · exact takeAttempt_keeps _ .warning (by decide)
  · rfl

theorem evaluate_sameUpstream (s : State) : SameUpstream s (evaluate s) := by
  have hk := evaluate_keeps s
  have hclock : (evaluate s).clock = s.clock := hk .clock (by decide)
  refine ⟨by rw [hclock], by rw [hclock], hk .upstream (by decide), ?_⟩
  exact (congrArg WarningUnit.floor (handOn_warning_eq _ _)).trans (settleLevel_floor 4 _ _)

/-- The floor formed again is the greatest contribution, and the Warning Unit holds it (R140, R167). -/
theorem formFloor_upstreamInv {s : State} (hs : TableInv s) (h : s.warning.floor = s.upstream.floor) :
    UpstreamInv (formFloor s) := by
  unfold formFloor
  dsimp only
  split
  · rename_i hsame
    exact ⟨hs.phase, hs.entries, hs.caps, hsame.symm, h⟩
  · refine UpstreamInv.congr ?_ (evaluate_sameUpstream _)
    exact ⟨hs.phase, hs.entries, hs.caps, rfl, rfl⟩

/-! ## Reports, timers and settings of the table -/

theorem handAccepted_sameUpstream (cls : Nat) (s : State) : SameUpstream s (handAccepted cls s) :=
  .of_keeps (handAccepted_keeps cls s) (by decide)

theorem capOf_le {s : State} (hs : TableInv s) (cls : Nat) : capOf s.upstream cls ≤ 3 := by
  unfold capOf
  obtain h | h := at'_mem s.upstream.classMap cls
  · rw [h]
    exact Nat.zero_le 3
  · cases hc : at' s.upstream.classMap cls with
    | none => simp
    | some n => exact hs.caps _ h n hc

theorem contributionOf_le {s : State} (hs : TableInv s) (cls level stepDown : Nat) :
    contributionOf (capOf s.upstream cls) level stepDown ≤ 3 := (min_le_left _ _).trans (capOf_le hs cls)

/-- A contribution that is not current at once leaves the entry's contribution (R163, R164). -/
theorem accept_contribution {e : StationEntry} {a : ReportArgs} {c now : Nat} (h : (e.accept a c now).2 ≠ .current) :
    (e.accept a c now).1.contribution = e.contribution := by
  revert h
  unfold StationEntry.accept StationEntry.place
  dsimp only
  split
  · exact fun h => absurd rfl h
  · split <;> exact fun _ => rfl

theorem takeReport_upstreamInv (a : ReportArgs) {s : State} (hs : UpstreamInv s) :
    UpstreamInv (takeReport a s).1 := by
  unfold takeReport
  split
  · rename_i i _ _
    refine UpstreamInv.congr ?_ (handAccepted_sameUpstream a.cls _)
    have haccepted := setEntry_tableInv hs.table i ((entryAt_inv hs.table i).accept a (contributionOf_le hs.table
      a.cls a.level (entryAt s i).stepDown))
    split
    · exact formFloor_upstreamInv ⟨haccepted.phase, haccepted.entries, haccepted.caps⟩ hs.handed
    · rename_i hqueued
      refine ⟨haccepted.phase, haccepted.entries, haccepted.caps, ?_, hs.handed⟩
      exact hs.floor.trans (greatest_setEntry (accept_contribution hqueued)).symm
  · exact UpstreamInv.congr (s := countReport .neighbour s) ⟨hs.phase, hs.entries, hs.caps, hs.floor, hs.handed⟩
      (handAccepted_sameUpstream _ _)
  · exact ⟨hs.phase, hs.entries, hs.caps, hs.floor, hs.handed⟩
  · exact ⟨hs.phase, hs.entries, hs.caps, hs.floor, hs.handed⟩

theorem delayExpiry_upstreamInv (i : Nat) {s : State} (hs : UpstreamInv s) : UpstreamInv (delayExpiry i s) := by
  simp only [delayExpiry]
  split
  · exact hs
  · rename_i item rest hq
    have hadvanced := setEntry_tableInv hs.table i ((entryAt_inv hs.table i).advanced hq)
    split
    · rename_i hsame
      exact ⟨hadvanced.phase, hadvanced.entries, hadvanced.caps, hs.floor.trans (greatest_setEntry hsame).symm,
        hs.handed⟩
    · exact formFloor_upstreamInv hadvanced hs.handed

theorem staleExpiry_upstreamInv (i : Nat) {s : State} (hs : UpstreamInv s) : UpstreamInv (staleExpiry i s) := by
  unfold staleExpiry
  dsimp only
  split
  · have hstale := setEntry_tableInv hs.table i (EntryInv.madeStale (nowMs s) (entryAt s i))
    exact formFloor_upstreamInv ⟨hstale.phase, hstale.entries, hstale.caps⟩ hs.handed
  · exact hs

theorem setUpstreamEntry_upstreamInv (i address stepDown travel : Nat) {s : State} (hs : UpstreamInv s) :
    UpstreamInv (let u := setEntry i { address := address, stepDown := stepDown, travel := travel } s
      if 0 < (entryAt s i).contribution then formFloor u else u) := by
  have hempty : EntryInv (nowMs s) { address := address, stepDown := stepDown, travel := travel } :=
    .of_empty rfl (Nat.zero_le 3) fun _ => rfl
  have hset := setEntry_tableInv hs.table i hempty
  dsimp only
  split
  · exact formFloor_upstreamInv hset hs.handed
  · rename_i hzero
    have hsame : 0 = (entryAt s i).contribution := by omega
    exact ⟨hset.phase, hset.entries, hset.caps, hs.floor.trans (greatest_setEntry hsame).symm, hs.handed⟩

theorem judgeStaleness_upstreamInv {s : State} (hs : UpstreamInv s) : UpstreamInv (judgeStaleness s) := by
  unfold judgeStaleness
  dsimp only
  generalize hspent : staleAt s.upstream.staleLimit (nowMs s) = spent
  have hjudged : ∀ e ∈ (s.upstream.entries.map fun e => if spent e then e.madeStale else e).toList,
      EntryInv (nowMs s) e := by
    intro e he
    rw [Vector.toList_map, List.mem_map] at he
    obtain ⟨x, hx, rfl⟩ := he
    split
    · exact .madeStale _ x
    · exact hs.entries x hx
  split
  · rename_i hany
    simp only [raiseIf, hany, if_true]
    exact formFloor_upstreamInv ⟨hs.phase, hjudged, hs.caps⟩ hs.handed
  · rename_i hnone
    rw [Bool.not_eq_true] at hnone
    simp only [raiseIf, hnone, Bool.false_eq_true, if_false]
    refine ⟨hs.phase, hjudged, hs.caps, hs.floor.trans (greatest_congr ?_).symm, hs.handed⟩
    rw [Vector.toList_map, List.map_map]
    refine List.map_congr_left fun e he => ?_
    have hstands : spent e = false := by
      rw [← Vector.any_toList, List.any_eq_false] at hnone
      simpa using hnone e he
    simp [hstands]

theorem capArgOf_le {x : CapArg} {n : Nat} (h : (capArgOf x).getD none = some n) : n ≤ 3 := by
  cases x with
  | cap m =>
    simp only [capArgOf] at h
    split at h
    · rename_i hm
      simp [within] at hm
      obtain rfl := Option.some.inj h
      exact hm
    · cases h
  | drop => cases h
  | unknown => cases h

theorem withSettings_upstreamInv (a : FilterArgs) (enable all : Bool) {s : State} (hs : UpstreamInv s) :
    UpstreamInv { s with upstream := s.upstream.withSettings enable all a } where
  phase := hs.phase
  entries := hs.entries
  caps c hc n hn := by
    have hc : c ∈ (a.classMap.map fun x => (capArgOf x).getD none).toList := hc
    rw [Vector.toList_map, List.mem_map] at hc
    obtain ⟨x, -, rfl⟩ := hc
    exact capArgOf_le hn
  floor := hs.floor
  handed := hs.handed

/-! ## Time -/

theorem TableInv.later {s : State} (hs : TableInv s) {c : StationClock} (hp : c.phase ≤ 999)
    (hle : nowMs s ≤ c.uptime * 1000 + c.phase) : TableInv { s with clock := c } :=
  ⟨hp, fun e he => (hs.entries e he).later hle, hs.caps⟩

theorem advanceUptime_upstreamInv {s : State} (hs : UpstreamInv s) (hu : s.clock.uptime < 4294967295) :
    UpstreamInv (advanceUptime s) := by
  have hp := hs.phase
  have hlater : TableInv (advanceUptime s) := hs.table.later (Nat.zero_le 999) (by
    simp only [nowMs, Config.clockMax, hu, if_true]
    omega)
  exact ⟨hlater.phase, hlater.entries, hlater.caps, hs.floor, hs.handed⟩

/-- A millisecond passes only while the phase has room: at its end the advance of the uptime is due (R4). -/
theorem idle_phase {s : State} (h : dueCommand s = none) : s.clock.phase < 999 := by
  by_contra hp
  have hdue : (true, Instr.uptimeAdvance) ∈ dueList s := by simp [dueList]; omega
  simp only [dueCommand, Option.map_eq_none_iff, List.find?_eq_none] at h
  exact h _ hdue rfl

theorem idle_upstreamInv {s : State} (hs : UpstreamInv s) : UpstreamInv (idle s) := by
  unfold idle
  split
  · exact hs
  · split
    · exact hs.congr {}
    · rename_i hdue
      have hp := idle_phase hdue
      have hlater : TableInv (passMillisecond s) := hs.table.later (c := { s.clock with
        phase := s.clock.phase + 1, clockPhase := s.clock.clockPhase + 1 }) (by dsimp only; omega)
        (by simp only [nowMs]; omega)
      exact ⟨hlater.phase, hlater.entries, hlater.caps, hs.floor, hs.handed⟩

/-! ## Every other act leaves time, filter and floor -/

theorem handOn_sameUpstream (changes : List (Nat × Nat)) (s : State) : SameUpstream s (handOn changes s) := by
  have hclock : (handOn changes s).clock = s.clock := handOn_keeps changes s .clock (by decide)
  exact ⟨by rw [hclock], by rw [hclock], handOn_keeps changes s .upstream (by decide),
    (congrArg WarningUnit.floor (handOn_warning_eq changes s)).trans rfl⟩

theorem dwellExpiry_sameUpstream (s : State) : SameUpstream s (dwellExpiry s) := by
  unfold dwellExpiry
  dsimp only
  split
  · exact {}
  · exact SameUpstream.trans (t := { s with warning := (settleLevel 4 (evalInputs s) (fallLevel s.warning)).1 })
      { floor := settleLevel_floor 4 _ _ } (handOn_sameUpstream _ _)

theorem formOutputs_sameUpstream (s : State) : SameUpstream s (formOutputs s) := by
  have hclock : (formOutputs s).clock = s.clock := formOutputs_keeps s .clock (by decide)
  exact ⟨by rw [hclock], by rw [hclock], formOutputs_keeps s .upstream (by decide), by rw [formOutputs_warning]⟩

theorem takeSilence_sameUpstream (s : State) : SameUpstream s (takeSilence s) := by
  unfold takeSilence
  split
  · exact {}
  · exact SameUpstream.trans (t := raise .silenced { s with warning := { s.warning with silence := true } }) {}
      (formOutputs_sameUpstream _)

theorem rateAgain_sameUpstream (s : State) : SameUpstream s (rateAgain s) :=
  (SameUpstream.of_keeps (recomputeDischarge_keeps _ s) (by decide)).trans (evaluate_sameUpstream _)

theorem offer_sameUpstream (s : State) : SameUpstream s (offer s) := by
  refine (rateAgain_sameUpstream s).trans ?_
  have hkept (h : HistoryStore) (plan : PlanStore) (t : State) :
      SameUpstream t (takeAttempt { t with history := h, plan := plan }) :=
    SameUpstream.trans (t := { t with history := h, plan := plan }) {} (.of_keeps (takeAttempt_keeps _) (by decide))
  exact hkept _ _ _

theorem startOver_sameUpstream (s : State) : SameUpstream s (startOver s) :=
  (SameUpstream.of_keeps (setStatus_keeps .starting s) (by decide)).trans (offer_sameUpstream _)

theorem takeSample_sameUpstream (s : State) : SameUpstream s (takeSample s) := by
  have hraised (b : Bool) (e : Source) (t : State) : SameUpstream t (raiseIf b e t) :=
    .of_keeps (raiseIf_keeps b e t) (by decide)
  refine .trans ?_ <| (hraised _ .signalLoss _).trans <| (hraised _ .disagree _).trans <|
    (SameUpstream.of_keeps (setStatus_keeps _ _) (by decide)).trans (offer_sameUpstream _)
  exact .trans (t := stampSample s.stage.sample.unit s) {} (hraised _ _ _)

theorem pinChange_sameUpstream (i : Nat) (level : Level) (s : State) : SameUpstream s (pinChange i level s) := by
  have hjudged (moved : Bool) (t : State) : SameUpstream t (judgeLine i moved t) :=
    .of_keeps (judgeLine_keeps i moved t) (by decide)
  refine .trans ?_ (hjudged _ _)
  refine .trans (t := setPin i level s) {} ?_
  unfold handPassage
  split
  · exact {}
  · split
    · exact .of_keeps (meterPulse_keeps _) (by decide)
    · exact .of_keeps (settledPassage_keeps _ _) (by decide)
    · exact .of_keeps (tripEngine_keeps _ _) (by decide)
    · exact takeSilence_sameUpstream _
    · exact {}

theorem configureLine_sameUpstream (line : Nat) (new : FieldLine) (s : State) :
    SameUpstream s (configureLine line new s) := by
  have hpresented : SameUpstream s (presentLine line new s) := by
    unfold presentLine
    dsimp only
    split
    · exact {}
    · exact .trans (t := { s with lines := { s.lines with line := put s.lines.line line new } }) {}
        (pinChange_sameUpstream _ _ _)
  have htripped (r : TripRecord) (t : State) : SameUpstream t (tripEngine r t) :=
    .of_keeps (tripEngine_keeps r t) (by decide)
  unfold configureLine
  dsimp only
  split
  · exact (hpresented.trans (htripped _ _)).trans (.of_keeps (takeAttempt_keeps _) (by decide))
  · exact hpresented.trans (.of_keeps (takeAttempt_keeps _) (by decide))

theorem stationReset_sameUpstream (s : State) : SameUpstream s (stationReset s) := by
  let t := stopDwell (endByReset (disarmAll (clearLatches (clearNotices (resetPorts s)))))
  have hended : SameUpstream (disarmAll (clearLatches (clearNotices (resetPorts s)))) t :=
    .trans (.of_keeps (endByReset_keeps _) (by decide)) {}
  have hstarted : SameUpstream t (startOver (restartSample { t with stage := t.stage.atReset })) :=
    .trans (t := restartSample { t with stage := t.stage.atReset }) {} (startOver_sameUpstream _)
  have hrestored (x : State) : SameUpstream x (restoreNotices x) := {}
  exact .trans {} (hended.trans (hstarted.trans (hrestored _)))

theorem disarmSlot_keeps (k : Nat) (s : State) : KeepsBut runBlocks s (disarmSlot k s) := by
  have hcleared (f : Slot → Slot) : KeepsBut runBlocks s (updateSlot k f s) := (updateSlot_keeps k f s).mono (by decide)
  exact KeepsBut.ite ((hcleared _).trans ((recallRun_keeps .cancelled _).mono (by decide))) (hcleared _)

theorem intervalExpiry_keeps (k : Nat) (s : State) : KeepsBut runBlocks s (intervalExpiry k s) :=
  KeepsBut.ite (((updateSlot_keeps k _ s).mono (by decide)).trans (takeAttempt_keeps _)) (.refl _ s)

theorem resetEngine_keeps (s : State) : KeepsBut runBlocks s (resetEngine s) := by
  have hended := endByReset_keeps s
  have hcleared (t : State) : KeepsBut runBlocks t (clearRequests t) := (withPlan_keeps _ t).mono (by decide)
  exact KeepsBut.trans (KeepsBut.ite (hended.trans ((enter_keeps .idle _).mono (by decide))) hended) (hcleared _)

theorem homeExpiry_keeps (s : State) : KeepsBut runBlocks s (homeExpiry s) := by
  have hstopped (e : RunEngine) : KeepsBut runBlocks s (withEngine e (stopTimers s)) :=
    ((stopTimers_keeps s).mono (by decide)).trans ((withEngine_keeps e _).mono (by decide))
  exact KeepsBut.ite ((hstopped _).trans (((enter_keeps .tripped _).mono (by decide)).trans
    ((endRun_keeps .homeTimeout _).mono (by decide)))) (.refl _ s)

theorem advanceClock_sameUpstream (s : State) : SameUpstream s (advanceClock s) := by
  have hboundary (t : State) : SameUpstream t (takeBoundary t) := .of_keeps (takeBoundary_keeps t) (by decide)
  have hadvanced : SameUpstream s { s with clock :=
      { s.clock with clock := s.clock.clock + 1, clockPhase := s.clock.clockPhase - 1000 } } := {}
  exact .ite (.ite (hadvanced.trans (hboundary _)) hadvanced) {}

/-- The commands that write the table, or let time pass, and POR. -/
def setsUpstream : Instr → Bool
  | .upstreamReport _ _ | .setUpstreamEntry _ _ _ _ _ | .setUpstreamFilter _ _ => true
  | .setHash _ _ | .clearUpstreamCounters _ | .delayTimerExpiry _ | .staleTimerExpiry _ => true
  | .uptimeAdvance | .porAssert | .porRelease => true
  | _ => false

theorem acts_sameUpstream {i : Instr} {s t : State} (h : Acts i s t) (hi : setsUpstream i = false) :
    SameUpstream s t := by
  have htake (u : State) : SameUpstream u (takeAttempt u) := .of_keeps (takeAttempt_keeps u) (by decide)
  cases h with
  | upstreamReport | setUpstreamEntry | setUpstreamFilter | setHash | clearUpstreamCounters | delayTimerExpiry
  | staleTimerExpiry | uptimeAdvance | porAssert | porRelease => simp [setsUpstream] at hi
  | setClock | encoderPhaseChange | pPulse | setHistoryInterval | writeStagedPoint | clearStaged | writeVertical
  | clearVertical | writeMeter | defineSlot | clearRequest | setSlotPriority | readLines | lineForced | lineForcedHeld
  | fetchNotices | setNoticeEnable | setAttention | setRoute => exact {}
  | stationClockAdvance => exact advanceClock_sameUpstream s
  | stageSample => exact takeSample_sameUpstream s
  | configureStage | checkGauge => exact .trans {} (startOver_sameUpstream _)
  | readHistory | seekHistory | setHistoryThreshold =>
    exact .trans {} (.of_keeps (judgeReady_keeps _ _) (by decide))
  | installRating | setShift | setExtrapolationLimit => exact .trans {} (rateAgain_sameUpstream _)
  | armSlot | startRun => exact .trans {} (htake _)
  | intervalTimerExpiry => exact .of_keeps (intervalExpiry_keeps _ s) (by decide)
  | disarmSlot => exact .of_keeps (disarmSlot_keeps _ s) (by decide)
  | positionReached => exact .of_keeps (arrive_keeps _ s) (by decide)
  | depthReached => exact .trans {} (.of_keeps (startSettling_keeps _) (by decide))
  | homeReached => exact .trans {} (.of_keeps (endIdle_keeps _ _) (by decide))
  | proceed => exact .of_keeps (proceedRun_keeps s) (by decide)
  | cancelRun | moveTimerExpiry => exact .of_keeps (recallRun_keeps _ s) (by decide)
  | carriageFault => exact .of_keeps (tripEngine_keeps _ s) (by decide)
  | clearTrip => exact .trans (.of_keeps (enter_keeps .idle s) (by decide)) (htake _)
  | resetEngine => exact .of_keeps (resetEngine_keeps s) (by decide)
  | settleTimerExpiry => exact .of_keeps (startCounting_keeps s) (by decide)
  | countTimerExpiry => exact .of_keeps (endPoint_keeps s) (by decide)
  | pauseTimerExpiry => exact .of_keeps (restartPoint_keeps s) (by decide)
  | homeTimerExpiry => exact .of_keeps (homeExpiry_keeps s) (by decide)
  | setLevelCriteria | setRetreat => exact .trans {} (evaluate_sameUpstream _)
  | setWarningOutput | overrideOn | overrideOff | overrideAuto => exact .trans {} (formOutputs_sameUpstream _)
  | silence => exact takeSilence_sameUpstream s
  | dwellTimerExpiry => exact dwellExpiry_sameUpstream s
  | writeLines => exact .of_keeps (changeLines_keeps _ s) (by decide)
  | configureLine => exact configureLine_sameUpstream _ _ s
  | linePinChange => exact .trans {} (pinChange_sameUpstream _ _ _)
  | stationReset | resetNActivation => exact stationReset_sameUpstream s

/-! ## The invariant is kept -/

theorem upstreamInv_reset : UpstreamInv State.reset where
  phase := Nat.zero_le 999
  entries e he := by
    have he : e ∈ (Vector.replicate 16 ({} : StationEntry)).toList := he
    obtain rfl : e = {} := by simpa using he
    exact .of_empty rfl (Nat.zero_le 3) fun _ => rfl
  caps c hc n hn := by
    have hc : c ∈ (Vector.replicate 8 (some 0)).toList := hc
    obtain rfl : c = some 0 := by simpa using hc
    obtain rfl : 0 = n := Option.some.inj hn
    exact Nat.zero_le 3
  floor := rfl
  handed := rfl

theorem powerOn_upstreamInv (por : Bool) (s : State) : UpstreamInv (powerOn por s) := upstreamInv_reset.congr {}

theorem acts_upstreamInv {i : Instr} {s t : State} (h : Acts i s t) (hu : s.clock.uptime < 4294967295)
    (hs : UpstreamInv s) : UpstreamInv t := by
  cases hi : setsUpstream i
  case false => exact hs.congr (acts_sameUpstream h hi)
  case true =>
    cases h <;> try cases hi
    case upstreamReport a _ => exact takeReport_upstreamInv a hs
    case setUpstreamEntry address stepDown travel _ => exact setUpstreamEntry_upstreamInv _ address stepDown travel hs
    case setUpstreamFilter a enable all _ => exact judgeStaleness_upstreamInv (withSettings_upstreamInv a enable all hs)
    case setHash => exact ⟨hs.phase, hs.entries, hs.caps, hs.floor, hs.handed⟩
    case clearUpstreamCounters => exact ⟨hs.phase, hs.entries, hs.caps, hs.floor, hs.handed⟩
    case delayTimerExpiry i => exact delayExpiry_upstreamInv i hs
    case staleTimerExpiry i => exact staleExpiry_upstreamInv i hs
    case uptimeAdvance => exact advanceUptime_upstreamInv hs hu
    case porAssert => exact powerOn_upstreamInv true s
    case porRelease => exact powerOn_upstreamInv false s

/-- Settles O59: the table's own operations keep each entry within its bounds and form the floor wherever a
contribution changes, later times only widen the bound on a queue's, and no other command touches any of it. -/
theorem upstreamKept : Obligations.UpstreamKept := fun s t hs hu h => by
  have hports {a b : State} (hk : KeepsBut [.ports] a b) : SameUpstream a b := .of_keeps hk (by decide)
  unfold step at h
  split at h
  · rename_i c rest _
    obtain ⟨u, v, hsu, huv, hvt⟩ := everyRunLeads c { s with pending := rest } t h
    have hv : UpstreamInv v := by
      have hu' : UpstreamInv u := (hs.congr (t := { s with pending := rest }) {}).congr (hports hsu.keeps)
      obtain rfl | hact := huv
      · exact hu'
      · exact acts_upstreamInv hact (by rw [(hports hsu.keeps).uptime]; exact hu) hu'
    exact hv.congr (hports hvt.keeps)
  · rw [Host.Outcome.next.injEq] at h
    subst h
    exact idle_upstreamInv hs

end Sys2Proof.Machine
end

section
/-! SUPPORT. The warning level against its demand, its dwell and its outputs (R135, R143 to R145, R151, R153, R182):
an evaluation brings all of them into order whatever the demand was before it. -/

namespace Sys2Proof.Machine

/-! ## The level settled -/

/-- A unit whose level, demand and dwell agree. -/
structure LevelFits (w : WarningUnit) : Prop where
  level : w.level ≤ 3
  floor : w.floor ≤ 3
  demanded : w.demanded ≤ w.level
  dwell : w.dwell ≠ .stopped ↔ w.demanded < w.level

theorem WarningInv.levelFits {s : State} (hs : WarningInv s) : LevelFits s.warning :=
  ⟨hs.level, hs.floor, hs.demanded, hs.dwell⟩

theorem formDemand_le (i : EvalInputs) {w : WarningUnit} (h : w.floor ≤ 3) : (formDemand i w).demanded ≤ 3 :=
  max_le (max_le (highestMet_le _) (highestMet_le _)) (max_le (highestMet_le _) h)

theorem dwellBelow_runs (i : EvalInputs) (w : WarningUnit) : dwellBelow i w ≠ .stopped := by
  unfold dwellBelow
  extract_lets full
  split <;> split <;> nofun

/-- A demand above the level is taken at once, one below it falls by steps or awaits its dwell (R143 to R145). Each
fall takes a round, so more rounds than the level settle it. -/
theorem settleLevel_fits {k : Nat} (i : EvalInputs) {w : WarningUnit} (hk : w.level < k) (hl : w.level ≤ 3)
    (hf : w.floor ≤ 3) : LevelFits (settleLevel k i w).1 := by
  induction k generalizing w with
  | zero => omega
  | succ k ih =>
    have hd := formDemand_le i hf
    unfold settleLevel
    dsimp only
    split
    · exact ⟨hd, hf, le_refl _, by simp [riseLevel]⟩
    · rename_i hrise
      split
      · rename_i heq
        exact ⟨hl, hf, heq.le, by simp [heq]⟩
      · rename_i hne
        have hbelow : (formDemand i w).demanded < (formDemand i w).level := by omega
        split
        · have hlevel : (fallLevel (formDemand i w)).level = w.level - 1 := rfl
          have hpositive : 0 < w.level := Nat.zero_lt_of_lt hbelow
          exact ih (w := fallLevel (formDemand i w)) (by omega) (by omega) hf
        · exact ⟨hl, hf, hbelow.le, iff_of_true (dwellBelow_runs _ _) hbelow⟩

/-! ## The outputs formed -/

theorem formOutput_twice (level : Nat) (silence : Bool) (o : WarningOutput) :
    formOutput level silence (formOutput level silence o) = formOutput level silence o := rfl

theorem formed_outputs (level : Nat) (silence : Bool) (outputs : Vector WarningOutput 4) :
    ∀ o ∈ (outputs.map (formOutput level silence)).toList, formOutput level silence o = o := by
  intro o ho
  rw [Vector.toList_map, List.mem_map] at ho
  obtain ⟨x, -, rfl⟩ := ho
  exact formOutput_twice level silence x

/-- From s to t the Warning Unit, the driven values that the lines hold and the condition RETREAT are the same. -/
structure SameWarning (s t : State) : Prop where
  warning : t.warning = s.warning := by rfl
  kept : t.lines.warnKept = s.lines.warnKept := by rfl
  retreat : t.notices.retreat = s.notices.retreat := by rfl

theorem SameWarning.trans {s t u : State} (h : SameWarning s t) (h' : SameWarning t u) : SameWarning s u :=
  ⟨h'.warning.trans h.warning, h'.kept.trans h.kept, h'.retreat.trans h.retreat⟩

theorem SameWarning.ite {s t u : State} {c : Prop} [Decidable c] (h : SameWarning s t) (h' : SameWarning s u) :
    SameWarning s (if c then t else u) := by
  split <;> assumption

theorem WarningInv.congr {s t : State} (hs : WarningInv s) (h : SameWarning s t) : WarningInv t := by
  obtain ⟨hw, hk, hr⟩ := h
  exact ⟨by rw [hw]; exact hs.level, by rw [hw]; exact hs.floor, by rw [hw]; exact hs.demanded,
    by rw [hw]; exact hs.dwell, by rw [hw]; exact hs.outputs, by rw [hk, hw]; exact hs.kept,
    by rw [hr, hw]; exact hs.retreat⟩

theorem SameWarning.of_notified {bs : List Block} {l : List Nat} {s t : State} (hn : Notified l s t) (hl : 2 ∉ l)
    (hk : KeepsBut bs s t) (hb : .warning ∉ bs) (hw : t.lines.warnKept = s.lines.warnKept) : SameWarning s t :=
  ⟨hk .warning hb, hw, hn.kept.2.1 .retreat 2 (by decide) hl⟩

/-- The run moves the permit, never the driven values nor retreat. -/
theorem SameWarning.of_moved {bs : List Block} {l : List Nat} {s t : State} (hm : PermitMoved l s t) (hl : 2 ∉ l)
    (hk : KeepsBut bs s t) (hb : .warning ∉ bs) : SameWarning s t := .of_notified hm.notified hl hk hb hm.step.1

theorem takeAttempt_sameWarning (s : State) : SameWarning s (takeAttempt s) :=
  .of_moved (takeAttempt_moved s) (by decide) (takeAttempt_keeps s) (by decide)

theorem recallRun_sameWarning (cause : EndCause) (s : State) : SameWarning s (recallRun cause s) :=
  .of_moved (recallRun_moved cause s) (by decide) (recallRun_keeps cause s) (by decide)

theorem tripEngine_sameWarning (record : TripRecord) (s : State) : SameWarning s (tripEngine record s) :=
  .of_moved (tripEngine_moved record s) (by decide) (tripEngine_keeps record s) (by decide)

/-- Outputs formed for a level that fits are in order. -/
theorem formOutputs_warningInv {s : State} (h : LevelFits s.warning) (hr : s.notices.retreat = s.warning.retreat) :
    WarningInv (formOutputs s) := by
  have hw := formOutputs_warning s
  have hnotices : (formOutputs s).notices.retreat = s.notices.retreat :=
    (formOutputs_driven s).2.kept.2.1 .retreat 2 (by decide) (by decide)
  refine ⟨?_, ?_, ?_, ?_, ?_, formOutputs_kept s, ?_⟩ <;> rw [hw]
  · exact h.level
  · exact h.floor
  · exact h.demanded
  · exact h.dwell
  · exact formed_outputs _ _ _
  · rw [hnotices, hr]

/-! ## An evaluation handed on -/

theorem judgeLevelTriggers_sameWarning (before after : Nat) (s : State) :
    SameWarning s (judgeLevelTriggers before after s) :=
  .ite (.trans {} (takeAttempt_sameWarning _)) {}

theorem handLevels_sameWarning (changes : List (Nat × Nat)) (s : State) :
    SameWarning s (changes.foldl handLevelChange s) := by
  induction changes generalizing s with
  | nil => exact {}
  | cons c changes ih => exact .trans (.trans {} (judgeLevelTriggers_sameWarning c.1 c.2 _)) (ih _)

theorem retreatHanded_retreat (changes : List (Nat × Nat)) (s : State) :
    (retreatHanded changes s).notices.retreat = (retreatHanded changes s).warning.retreat :=
  NoticeUnit.hand_holds _ .retreat .retreat _

theorem handOn_warningInv (changes : List (Nat × Nat)) {s : State} (h : LevelFits s.warning) :
    WarningInv (handOn changes s) := by
  have hhanded : (retreatHanded changes s).warning =
      { s.warning with retreat := retreatAfter s.warning s.stage.stilled } := by rw [(retreatHanded_eq changes s).2]
  have hrecalled : SameWarning (retreatHanded changes s) (retreatJudged changes s) :=
    .ite (.ite (recallRun_sameWarning _ _) {}) {}
  have hlevels := hrecalled.trans (handLevels_sameWarning changes _)
  have hformed : WarningInv (formOutputs (changes.foldl handLevelChange (retreatJudged changes s))) := by
    refine formOutputs_warningInv ?_ ?_
    · rw [hlevels.warning, hhanded]
      exact ⟨h.level, h.floor, h.demanded, h.dwell⟩
    · rw [hlevels.retreat, hlevels.warning, retreatHanded_retreat]
  rw [handOn_eq]
  exact hformed.congr (.ite (takeAttempt_sameWarning _) {})

/-- An evaluation orders the Warning Unit, whatever was demanded before. -/
theorem evaluate_warningInv {s : State} (hl : s.warning.level ≤ 3) (hf : s.warning.floor ≤ 3) :
    WarningInv (evaluate s) := handOn_warningInv _ (settleLevel_fits _ (by omega) hl hf)

theorem dwellExpiry_warningInv {s : State} (hs : WarningInv s) : WarningInv (dwellExpiry s) := by
  have hl := hs.level
  unfold dwellExpiry
  split
  · rename_i hcalm
    have hd := hs.demanded
    exact ⟨hl, hs.floor, hd, by simp [hcalm], hs.outputs, hs.kept, hs.retreat⟩
  · have hfall : (fallLevel s.warning).level = s.warning.level - 1 := rfl
    exact handOn_warningInv _ (settleLevel_fits _ (by omega) (by omega) hs.floor)

theorem takeSilence_warningInv {s : State} (hs : WarningInv s) : WarningInv (takeSilence s) := by
  unfold takeSilence
  split
  · exact hs
  · exact formOutputs_warningInv ⟨hs.level, hs.floor, hs.demanded, hs.dwell⟩ hs.retreat

theorem rateAgain_warningInv {s : State} (hl : s.warning.level ≤ 3) (hf : s.warning.floor ≤ 3) :
    WarningInv (rateAgain s) := by
  have hw : (recomputeDischarge s.stage.stilled s).warning = s.warning :=
    recomputeDischarge_keeps _ s .warning (by decide)
  exact evaluate_warningInv (by rw [hw]; exact hl) (by rw [hw]; exact hf)

theorem offer_warningInv {s : State} (hl : s.warning.level ≤ 3) (hf : s.warning.floor ≤ 3) : WarningInv (offer s) :=
  (rateAgain_warningInv hl hf).congr (.trans {} (takeAttempt_sameWarning _))

theorem startOver_warningInv {s : State} (hl : s.warning.level ≤ 3) (hf : s.warning.floor ≤ 3) :
    WarningInv (startOver s) := by
  have hw : (setStatus .starting s).warning = s.warning := setStatus_keeps .starting s .warning (by decide)
  exact offer_warningInv (by rw [hw]; exact hl) (by rw [hw]; exact hf)

theorem raiseIf_sameWarning (b : Bool) (e : Source) (s : State) : SameWarning s (raiseIf b e s) := .ite {} {}

theorem takeSample_warningInv {s : State} (hs : WarningInv s) : WarningInv (takeSample s) := by
  have hraised (b : Bool) (e : Source) (t : State) : SameWarning t (raiseIf b e t) := raiseIf_sameWarning b e t
  have hsame := (SameWarning.trans (s := s) (t := stampSample s.stage.sample.unit s) {}
    (hraised s.stage.sample.spike .floatSpike _)).trans ((hraised s.stage.sample.loss .signalLoss _).trans
      (hraised s.stage.sample.disagree .disagree _))
  have hw : ∀ t : State, (setStatus s.stage.sample.status t).warning = t.warning := fun t =>
    setStatus_keeps _ t .warning (by decide)
  refine offer_warningInv ?_ ?_ <;> rw [hw, hsame.warning]
  · exact hs.level
  · exact hs.floor

/-! ## The floor -/

theorem formFloor_warningInv {s : State} (hs : WarningInv s) (hg : s.upstream.greatest ≤ 3) :
    WarningInv (formFloor s) := by
  unfold formFloor
  dsimp only
  split
  · exact hs
  · exact evaluate_warningInv hs.level hg

theorem handAccepted_sameWarning (cls : Nat) (s : State) : SameWarning s (handAccepted cls s) :=
  .trans {} (takeAttempt_sameWarning _)

theorem takeReport_warningInv (a : ReportArgs) {s : State} (hs : WarningInv s) (hu : TableInv s) :
    WarningInv (takeReport a s).1 := by
  unfold takeReport
  split
  · rename_i i _ _
    refine WarningInv.congr ?_ (handAccepted_sameWarning a.cls _)
    have haccepted := setEntry_tableInv hu i ((entryAt_inv hu i).accept a (contributionOf_le hu a.cls a.level
      (entryAt s i).stepDown))
    split
    · exact formFloor_warningInv (hs.congr {}) (greatest_le ⟨haccepted.phase, haccepted.entries, haccepted.caps⟩)
    · exact hs.congr {}
  · exact WarningInv.congr (s := countReport .neighbour s) (hs.congr {}) (handAccepted_sameWarning _ _)
  · exact hs.congr {}
  · exact hs.congr {}

theorem delayExpiry_warningInv (i : Nat) {s : State} (hs : WarningInv s) (hu : TableInv s) :
    WarningInv (delayExpiry i s) := by
  simp only [delayExpiry]
  split
  · exact hs
  · rename_i item rest hq
    split
    · exact hs.congr {}
    · exact formFloor_warningInv (hs.congr {}) (greatest_le (setEntry_tableInv hu i ((entryAt_inv hu i).advanced hq)))

theorem staleExpiry_warningInv (i : Nat) {s : State} (hs : WarningInv s) (hu : TableInv s) :
    WarningInv (staleExpiry i s) := by
  have hstale := greatest_le (setEntry_tableInv hu i (EntryInv.madeStale (nowMs s) (entryAt s i)))
  unfold staleExpiry
  dsimp only
  split
  · exact formFloor_warningInv (hs.congr {}) hstale
  · exact hs

theorem setUpstreamEntry_warningInv (i address stepDown travel : Nat) {s : State} (hs : WarningInv s)
    (hu : TableInv s) :
    WarningInv (let u := setEntry i { address := address, stepDown := stepDown, travel := travel } s
      if 0 < (entryAt s i).contribution then formFloor u else u) := by
  have hempty : EntryInv (nowMs s) { address := address, stepDown := stepDown, travel := travel } :=
    .of_empty rfl (Nat.zero_le 3) fun _ => rfl
  dsimp only
  split
  · exact formFloor_warningInv (hs.congr {}) (greatest_le (setEntry_tableInv hu i hempty))
  · exact hs.congr {}

theorem formFloor_greatest (s : State) : (formFloor s).upstream.greatest = s.upstream.greatest := by
  unfold formFloor
  dsimp only
  split
  · rfl
  · exact (congrArg UpstreamFilter.greatest (evaluate_sameUpstream _).upstream).trans rfl

theorem judgeStaleness_warningInv {s : State} (hs : WarningInv s) (hu : UpstreamInv s) :
    WarningInv (judgeStaleness s) := by
  have hjudged := judgeStaleness_upstreamInv hu
  revert hjudged
  unfold judgeStaleness
  dsimp only
  split
  · intro hjudged
    refine formFloor_warningInv (hs.congr (.trans {} (raiseIf_sameWarning _ _ _))) ?_
    rw [← formFloor_greatest]
    exact greatest_le hjudged.table
  · exact fun _ => hs.congr (.trans {} (raiseIf_sameWarning _ _ _))

/-! ## Every other act -/

theorem judgeReady_sameWarning (p : Port) (s : State) : SameWarning s (judgeReady p s) :=
  .of_notified (handReady_notified p _ s) (by decide) (judgeReady_keeps p s) (by decide) rfl

theorem advanceClock_sameWarning (s : State) : SameWarning s (advanceClock s) := by
  have hlines : (advanceClock s).lines = s.lines := advanceClock_keeps s .lines (by decide)
  exact .of_notified (advanceClock_notified s) (by decide) (advanceClock_keeps s) (by decide) (by rw [hlines])

theorem changeLines_sameWarning {f : FieldLines} {s : State} (hf : f.warnKept = s.lines.warnKept) :
    SameWarning s (changeLines f s) := by
  have hkept : (changeLines f s).lines.warnKept = f.warnKept := by
    rw [changeLines, judgeLines, raiseIf_lines]
    rfl
  exact .of_notified (changeLines_notified f s) (by decide) (changeLines_keeps f s) (by decide) (hkept.trans hf)

theorem pinChange_warningInv (i : Nat) (level : Level) {s : State} (hs : WarningInv s) :
    WarningInv (pinChange i level s) := by
  have hjudged (moved : Bool) (t : State) : SameWarning t (judgeLine i moved t) := .ite {} {}
  have hpin : WarningInv (setPin i level s) := hs.congr {}
  refine WarningInv.congr ?_ (hjudged _ _)
  unfold handPassage
  split
  · exact hpin
  · split
    · have hquiet := meterPulse_quiet (setPin i level s)
      exact hpin.congr ⟨meterPulse_keeps _ .warning (by decide), by rw [hquiet.2], by rw [hquiet.1]⟩
    · exact hpin.congr (.of_moved (settledPassage_moved _ _) (by decide) (settledPassage_keeps _ _) (by decide))
    · exact hpin.congr (tripEngine_sameWarning _ _)
    · exact takeSilence_warningInv hpin
    · exact hpin

theorem configureLine_warningInv (line : Nat) (new : FieldLine) {s : State} (hs : WarningInv s) :
    WarningInv (configureLine line new s) := by
  have hpresented : WarningInv (presentLine line new s) := by
    unfold presentLine
    dsimp only
    split
    · exact hs.congr {}
    · exact pinChange_warningInv _ _ (hs.congr {})
  exact (hpresented.congr (.ite (tripEngine_sameWarning _ _) {})).congr (takeAttempt_sameWarning _)

/-- The dwell that a station reset stops is settled again by the evaluation of its offer (R157). -/
theorem stationReset_warningInv {s : State} (hs : WarningInv s) : WarningInv (stationReset s) := by
  let t := stopDwell (endByReset (disarmAll (clearLatches (clearNotices (resetPorts s)))))
  have hw : (endByReset (disarmAll (clearLatches (clearNotices (resetPorts s))))).warning = s.warning :=
    endByReset_keeps _ .warning (by decide)
  have hstarted : WarningInv (startOver (restartSample { t with stage := t.stage.atReset })) := by
    refine startOver_warningInv ?_ ?_
    · change (endByReset (disarmAll (clearLatches (clearNotices (resetPorts s))))).warning.level ≤ 3
      rw [hw]
      exact hs.level
    · change (endByReset (disarmAll (clearLatches (clearNotices (resetPorts s))))).warning.floor ≤ 3
      rw [hw]
      exact hs.floor
  have hrestored (x : State) : SameWarning x (restoreNotices x) := {}
  exact hstarted.congr (hrestored _)

theorem warningInv_reset : WarningInv State.reset where
  level := by decide
  floor := by decide
  demanded := by decide
  dwell := by decide
  outputs := by decide
  kept := by decide +kernel
  retreat := rfl

theorem powerOn_warningInv (por : Bool) (s : State) : WarningInv (powerOn por s) := warningInv_reset.congr {}

theorem enter_sameWarning (st : RunState) (s : State) : SameWarning s (enter st s) :=
  .of_moved (enter_moved st s) (by decide) (enter_keeps st s) (by decide)

theorem endRun_sameWarning (cause : EndCause) (s : State) : SameWarning s (endRun cause s) := by
  have hlines : (endRun cause s).lines = s.lines := endRun_keeps cause s .lines (by decide)
  have hnotices : (endRun cause s).notices = s.notices.raise .runEnded := planEnd_notices cause _
  exact ⟨endRun_keeps cause s .warning (by decide), by rw [hlines], by rw [hnotices]; rfl⟩

theorem completeVertical_sameWarning (s : State) : SameWarning s (completeVertical s) :=
  .of_moved (((completeVertical_ends (recordCompletion_eq s)).2).before (s := s) (.of_eq rfl) rfl) (by decide)
    (completeVertical_keeps s) (by decide)

theorem goToPoint_sameWarning (s : State) : SameWarning s (goToPoint s) := by
  unfold goToPoint
  split
  · exact .of_moved (startSettling_begun s).2 (by decide) (startSettling_keeps s) (by decide)
  · exact .of_moved (enterMove_moved .lowering s) (by decide) (enterMove_keeps .lowering s) (by decide)

theorem arrive_sameWarning (depth : Nat) (s : State) : SameWarning s (arrive depth s) :=
  .ite (.trans {} (completeVertical_sameWarning _)) (.trans {} (goToPoint_sameWarning _))

theorem proceedRun_sameWarning (s : State) : SameWarning s (proceedRun s) := by
  unfold proceedRun
  split
  · exact .of_moved (startPass_moved _ s) (by decide) (startPass_keeps _ s) (by decide)
  · exact .of_moved (fetch_moved s) (by decide) (fetch_keeps s) (by decide)

theorem endByReset_sameWarning (s : State) : SameWarning s (endByReset s) := by
  have hhalted (record : TripRecord) : SameWarning s (haltedIn .idle record .reset s) :=
    .of_moved (haltedIn_moved .idle record .reset s) (by decide) (haltedIn_keeps .idle record .reset s) (by decide)
  exact .ite ((hhalted (closeIfOpen .reset (stopTimers s)).engine.trip).trans (endRun_sameWarning .reset _)) {}

theorem resetEngine_sameWarning (s : State) : SameWarning s (resetEngine s) := by
  have hentered : SameWarning s (if tripClearable (endByReset s) then enter .idle (endByReset s) else endByReset s) :=
    .ite ((endByReset_sameWarning s).trans (enter_sameWarning .idle _)) (endByReset_sameWarning s)
  exact hentered.trans {}

theorem homeExpiry_sameWarning (s : State) : SameWarning s (homeExpiry s) :=
  .ite (.trans (.trans {} (enter_sameWarning .tripped _)) (endRun_sameWarning _ _)) {}

theorem acts_warningInv {i : Instr} {s t : State} (h : Acts i s t) (hu : UpstreamInv s) (hs : WarningInv s) :
    WarningInv t := by
  have hform {u : State} (hw : LevelFits u.warning) (hr : u.notices.retreat = u.warning.retreat) :=
    formOutputs_warningInv hw hr
  have htake {u : State} (hu : WarningInv u) : WarningInv (takeAttempt u) := hu.congr (takeAttempt_sameWarning u)
  cases h with
  | setClock | uptimeAdvance | encoderPhaseChange | pPulse | setHistoryInterval | writeStagedPoint | clearStaged
  | writeVertical | clearVertical | writeMeter | defineSlot | clearRequest | setSlotPriority | setHash
  | clearUpstreamCounters | readLines | lineForced | lineForcedHeld | fetchNotices | setNoticeEnable | setAttention
  | setRoute | pauseTimerExpiry => exact hs.congr {}
  | stationClockAdvance => exact hs.congr (advanceClock_sameWarning s)
  | stageSample => exact takeSample_warningInv hs
  | configureStage | checkGauge => exact startOver_warningInv hs.level hs.floor
  | readHistory | seekHistory | setHistoryThreshold => exact hs.congr (.trans {} (judgeReady_sameWarning _ _))
  | installRating | setShift | setExtrapolationLimit => exact rateAgain_warningInv hs.level hs.floor
  | armSlot | startRun => exact htake (hs.congr {})
  | intervalTimerExpiry => exact hs.congr (.ite (.trans {} (takeAttempt_sameWarning _)) {})
  | disarmSlot => exact hs.congr (.ite (.trans {} (recallRun_sameWarning _ _)) {})
  | positionReached => exact hs.congr (arrive_sameWarning _ s)
  | depthReached =>
    exact hs.congr (.trans {} (.of_moved (startSettling_begun _).2 (by decide) (startSettling_keeps _) (by decide)))
  | homeReached =>
    exact htake (hs.congr (.trans (.trans {} (enter_sameWarning .idle _)) (endRun_sameWarning _ _)))
  | proceed => exact hs.congr (proceedRun_sameWarning s)
  | cancelRun | moveTimerExpiry => exact hs.congr (recallRun_sameWarning _ s)
  | carriageFault => exact hs.congr (tripEngine_sameWarning _ s)
  | clearTrip => exact htake (hs.congr (enter_sameWarning .idle s))
  | resetEngine => exact hs.congr (resetEngine_sameWarning s)
  | settleTimerExpiry =>
    exact hs.congr (.of_moved (startCounting_begun s).2 (by decide) (startCounting_keeps s) (by decide))
  | countTimerExpiry => exact hs.congr (.of_moved (endPoint_ends s).2 (by decide) (endPoint_keeps s) (by decide))
  | homeTimerExpiry => exact hs.congr (homeExpiry_sameWarning s)
  | setLevelCriteria | setRetreat => exact evaluate_warningInv hs.level hs.floor
  | setWarningOutput | overrideOn | overrideOff | overrideAuto =>
    exact hform ⟨hs.level, hs.floor, hs.demanded, hs.dwell⟩ hs.retreat
  | silence => exact takeSilence_warningInv hs
  | dwellTimerExpiry => exact dwellExpiry_warningInv hs
  | upstreamReport => exact takeReport_warningInv _ hs hu.table
  | setUpstreamEntry => exact setUpstreamEntry_warningInv _ _ _ _ hs hu.table
  | setUpstreamFilter => exact judgeStaleness_warningInv (hs.congr {}) (withSettings_upstreamInv _ _ _ hu)
  | delayTimerExpiry => exact delayExpiry_warningInv _ hs hu.table
  | staleTimerExpiry => exact staleExpiry_warningInv _ hs hu.table
  | writeLines => exact hs.congr (changeLines_sameWarning rfl)
  | configureLine => exact configureLine_warningInv _ _ hs
  | linePinChange => exact pinChange_warningInv _ _ (hs.congr {})
  | stationReset | resetNActivation => exact stationReset_warningInv hs
  | porAssert => exact powerOn_warningInv true s
  | porRelease => exact powerOn_warningInv false s

/-- Settles O58: an evaluation settles level and dwell against the demand it forms and forms the outputs last; the
floor it is given is a contribution of the table; a change of the outputs forms them again; nothing else touches
the Warning Unit, the driven values or the condition RETREAT. -/
theorem warningKept : Obligations.WarningKept := fun s t hs hu h => by
  have hports {a b : State} (hk : KeepsBut [.ports] a b) : SameWarning a b := by
    have hlines : b.lines = a.lines := hk .lines (by decide)
    have hnotices : b.notices = a.notices := hk .notices (by decide)
    exact ⟨hk .warning (by decide), by rw [hlines], by rw [hnotices]⟩
  unfold step at h
  split at h
  · rename_i c rest _
    obtain ⟨u, v, hsu, huv, hvt⟩ := everyRunLeads c { s with pending := rest } t h
    have hv : WarningInv v := by
      have hs' : WarningInv u := (hs.congr (t := { s with pending := rest }) {}).congr (hports hsu.keeps)
      have hu' : UpstreamInv u := (hu.congr (t := { s with pending := rest }) {}).congr
        (.of_keeps hsu.keeps (by decide))
      obtain rfl | hact := huv
      · exact hs'
      · exact acts_warningInv hact hu' hs'
    exact hv.congr (hports hvt.keeps)
  · rw [Host.Outcome.next.injEq] at h
    subst h
    obtain hi | ⟨c, hi⟩ | hi := idle_cases s <;> rw [hi]
    · exact hs
    · exact hs.congr {}
    · exact hs.congr {}

end Sys2Proof.Machine
end

section
/-! SUPPORT. The invariants after a power-on reset. -/

namespace Sys2Proof.Machine

theorem noticeInv_reset : NoticeInv State.reset := powerOn_noticeInv false State.reset

/-- Settles O54: each invariant is met by the values of the section 11.5 table. -/
theorem invariantsAtReset : Obligations.InvariantsAtReset :=
  ⟨noticeInv_reset, engineInv_reset, nofun, warningInv_reset, upstreamInv_reset, storeInv_reset⟩

end Sys2Proof.Machine
end

section
/-! SUPPORT. What the release of chip select on a port comes to, said once of every command of a port: a request
handed to its owner, a release that answers nothing, a station reset, or a frame that failed a check (R200 to
R207). -/

namespace Sys2Proof.Machine

/-- Settles O1: the queue's front is what a step takes. -/
theorem stepRunsCommand : Obligations.StepRunsCommand := by
  intro c rest s hs
  simp only [step, hs]

/-! ## Windows (R201, R203) -/

theorem closeWindow_port (p : Port) (s : State) :
    (closeWindow p s).ports.port.get p = { s.ports.port.get p with window := none } := PerPort.get_set_self ..

theorem setPort_other {p q : Port} (h : q ≠ p) (x : PortState) (s : State) :
    (setPort p x s).ports.port.get q = s.ports.port.get q := PerPort.get_set_other _ h _

theorem openWindow_open {p : Port} {s : State} (h : (s.ports.port.get p).window ≠ none) : openWindow p s = s := by
  obtain ⟨w, hw⟩ := Option.ne_none_iff_exists'.1 h
  simp only [openWindow, hw]

/-- The window that opens at a port (R201, R206, R207). -/
def windowOpened (p : Port) (s : State) : OpenWindow :=
  ⟨if s.ports.por then [] else replyFrame (bufferOf p s), s.ports.por || s.ports.resetN⟩

theorem openWindow_closed {p : Port} {s : State} (h : (s.ports.port.get p).window = none) :
    openWindow p s = setPort p { s.ports.port.get p with window := some (windowOpened p s) } s := by
  simp only [openWindow, h]
  rfl

/-- Settles O3: each command is a change of one port's window. -/
theorem windowCommands : Obligations.WindowCommands := by
  intro p s
  refine ⟨rfl, rfl, bufferOf_closeWindow p p s, setPort_keeps _ _ _, closeWindow_port p s,
    fun q hq => setPort_other hq _ s, rfl, rfl, fun h => ?_, fun h => ?_⟩
  · change Host.Outcome.next (openWindow p s) = _
    rw [openWindow_open h]
  · refine ⟨_, congrArg Host.Outcome.next (openWindow_closed h), setPort_keeps _ _ _, ?_,
      fun q hq => setPort_other hq _ s, rfl, rfl, windowOpened p s, ?_, rfl, fun hpor => ?_, fun hpor => ?_⟩
    · rw [bufferOf, setPort, PerPort.get_set_self, bufferOf]
    · rw [setPort, PerPort.get_set_self]
    · simp [windowOpened, hpor]
    · simp only [windowOpened, hpor, Bool.false_eq_true, if_false]
      rfl

/-! ## Releases of chip select (R200 to R202) -/

/-- What the release of chip select on a port does for a command. -/
inductive Release (p : Port) : Instr → Prop where
  /-- A request frame, whose owner takes it after the role check. -/
  | request {i : Instr} {e : Nat × List Byte} {owner : State → State × Reply} (frame : encodeRequest i = some e)
      (taken : ∀ s, exec i s = .next (request e.1 p s owner)) : Release p i
  /-- A window that answers nothing. -/
  | silent {i : Instr} (frame : ∀ e, encodeRequest i = some e → e.1 = 0)
      (closes : ∀ s, exec i s = .next (closeWindow p s)) : Release p i
  | stationReset : Release p (.stationReset p)
  | badFrame (f : FrameFault) : Release p (.badFrame p f)

/-- A command of a port is a release on that port, but for the opening of a window. -/
def Releases (i : Instr) : Prop := ∀ p, i.port? = some p → i ≠ .windowOpen p → Release p i

theorem Releases.of {i : Instr} {q : Port} (hq : i.port? = some q) (h : Release q i) : Releases i := by
  intro p hp _
  rw [hq, Option.some.injEq] at hp
  exact hp ▸ h

theorem Releases.of_request {i : Instr} {q : Port} {e : Nat × List Byte} {owner : State → State × Reply}
    (hq : i.port? = some q) (frame : encodeRequest i = some e)
    (taken : ∀ s, exec i s = .next (Machine.request e.1 q s owner)) : Releases i := .of hq (.request frame taken)

theorem Releases.of_no_port {i : Instr} (h : i.port? = none) : Releases i := by
  intro p hp
  simp [h] at hp

theorem everyReleases : ∀ i : Instr, Releases i
  | .readReply p => .of (q := p) rfl (.silent (by rintro _ ⟨⟩; rfl) fun _ => rfl)
  | .discardedWindow p => .of (q := p) rfl (.silent nofun fun _ => rfl)
  | .stationReset p => .of (q := p) rfl .stationReset
  | .badFrame p f => .of (q := p) rfl (.badFrame f)
  | .windowOpen p => fun q hq h => absurd (congrArg Instr.windowOpen (Option.some.inj hq)) h
  | .readClock _ | .setClock _ _ | .readStage _ | .readStageConfig _ | .configureStage _ _ | .checkGauge _ _ _
  | .readHistory _ _ _ | .seekHistory _ _ | .readHistoryState _ | .setHistoryThreshold _ _
  | .setHistoryInterval _ _ | .readRating _ | .rateStage _ _ | .rateDischarge _ _ | .readStaged _
  | .writeStagedPoint _ _ _ _ | .clearStaged _ | .installRating _ | .setShift _ _ | .setExtrapolationLimit _ _
  | .readVertical _ _ | .writeVertical _ _ _ | .clearVertical _ _ | .readMeter _ _ | .writeMeter _ _ _
  | .readSlot _ _ | .defineSlot _ _ _ | .armSlot _ _ | .disarmSlot _ _ | .startRun _ _ | .clearRequest _ _
  | .setSlotPriority _ _ | .readSlotState _ | .getTarget _ | .readRunState _ | .positionReached _ _ _
  | .depthReached _ | .homeReached _ | .proceed _ | .cancelRun _ | .carriageFault _ _ | .clearTrip _
  | .resetEngine _ | .readResult _ _ | .readPass _ | .readPassVertical _ _ | .readWarning _
  | .setLevelCriteria _ _ | .setRetreat _ _ _ | .setWarningOutput _ _ _ _ | .overrideOn _ _ | .overrideOff _ _
  | .overrideAuto _ _ | .silence _ | .upstreamReport _ _ | .readUpstreamEntry _ _ | .readUpstreamState _
  | .setUpstreamEntry _ _ _ _ _ | .setHash _ _ | .setUpstreamFilter _ _ | .clearUpstreamCounters _
  | .readLines _ _ | .readLineConfig _ | .configureLine _ _ | .writeLines _ _ _ | .fetchNotices _ | .peekNotices _
  | .readNoticeRoutes _ | .setNoticeEnable _ _ | .setAttention _ _ _ | .setRoute _ _ _ =>
    .of_request rfl rfl fun _ => rfl
  | .resetNActivation | .resetNRelease | .porAssert | .porRelease | .encoderPhaseChange _ _ | .pPulse _
  | .stationClockAdvance | .stageSample | .moveTimerExpiry | .settleTimerExpiry | .countTimerExpiry
  | .pauseTimerExpiry | .homeTimerExpiry | .dwellTimerExpiry | .intervalTimerExpiry _ | .delayTimerExpiry _
  | .staleTimerExpiry _ | .linePinChange _ _ | .uptimeAdvance => .of_no_port rfl

/-- A window that is to be discarded takes nothing (R201, R206). -/
theorem Release.exec_dead {p : Port} {i : Instr} {s : State} (h : Release p i) (hdead : windowDead p s = true) :
    exec i s = .next (closeWindow p s) := by
  cases h with
  | request _ taken => rw [taken, request_dead hdead]
  | silent _ closes => exact closes s
  | stationReset | badFrame f => exact congrArg Host.Outcome.next (if_pos hdead)

/-- A frame whose code is of another role is answered ROLE (R200, R202). -/
theorem Release.exec_role {p : Port} {i : Instr} {s : State} {e : Nat × List Byte} (h : Release p i)
    (he : encodeRequest i = some e) (hcode : e.1 ≠ 0) (hlive : windowDead p s = false)
    (hrole : p ∉ rolesOf e.1) : exec i s = .next (setReply p (roleReply e.1 p) (closeWindow p s)) := by
  cases h with
  | request frame taken =>
    obtain rfl := Option.some.inj (he.symm.trans frame)
    rw [taken, request_role hlive hrole]
  | silent frame _ => exact absurd (frame e he) hcode
  | stationReset =>
    obtain rfl := Option.some.inj he
    exact congrArg Host.Outcome.next ((if_neg (by simp [hlive])).trans (if_neg hrole))
  | badFrame f => cases he

theorem exec_badFrame {p : Port} {s : State} (f : FrameFault) (hlive : windowDead p s = false) :
    exec (.badFrame p f) s = .next (setReply p (frameFaultReply p f) (closeWindow p s)) :=
  congrArg Host.Outcome.next (if_neg (by simp [hlive]))

theorem saturate_of_le {top n : Nat} (h : n ≤ top) : saturate top n = n := by
  rw [saturate_eq_min, min_eq_right h]

/-- Settles O4: nothing of a release reaches an owner but a request in a live window of its role. -/
theorem framesNotTaken : Obligations.FramesNotTaken := by
  refine ⟨fun p s hlive => ⟨fun code len n hn => ?_, fun _ => exec_badFrame _ hlive,
    fun _ => exec_badFrame _ hlive⟩, fun i p e s he hp hcode hlive hrole => ?_, fun i p s hp hopen hdead => ?_⟩
  · rw [exec_badFrame _ hlive, frameFaultReply, saturate_of_le hn]
  · have hopen : i ≠ .windowOpen p := by
      rintro rfl
      cases he
    exact (everyReleases i p hp hopen).exec_role he hcode hlive hrole
  · exact (everyReleases i p hp hopen).exec_dead hdead

end Sys2Proof.Machine
end

section
/-! SUPPORT. What the Port Unit reads fits its bytes (R202, R204): first the fields, then the arguments that are
made of them, then the request of each code. -/

namespace Sys2Proof.Machine

/-! ## Fields fit their bytes -/

theorem byteAt_lt (a : List Byte) (i : Nat) : byteAt a i < 256 := BitVec.isLt _

theorem word2At_lt (a : List Byte) (i : Nat) : word2At a i < 65536 := by
  have := byteAt_lt a i
  have := byteAt_lt a (i + 1)
  unfold word2At
  omega

@[simp] theorem fits1_byteAt (a : List Byte) (i : Nat) : fits1 (byteAt a i) = true :=
  decide_eq_true (byteAt_lt a i)

@[simp] theorem fits2_word2At (a : List Byte) (i : Nat) : fits2 (word2At a i) = true :=
  decide_eq_true (word2At_lt a i)

@[simp] theorem fits4_word4At (a : List Byte) (i : Nat) : fits4 (word4At a i) = true := by
  have := word2At_lt a i
  have := word2At_lt a (i + 2)
  refine decide_eq_true ?_
  unfold word4At
  omega

@[simp] theorem fitsS2_int2At (a : List Byte) (i : Nat) : fitsS2 (int2At a i) = true := by
  have := word2At_lt a i
  refine decide_eq_true ?_
  unfold int2At
  split <;> omega

theorem all_optField {α : Type} {f : α → Bool} {x : α} (mark : Bool) (h : f x = true) :
    (optField mark x).all f = true := by cases mark <;> simp [optField, h]

/-- A byte that is none of the tags 0 to k - 1 is a stray one. -/
theorem strayTag_byteAt {a : List Byte} {i k : Nat} (h : k ≤ byteAt a i) : strayTag k (byteAt a i) = true := by
  simp [strayTag, h]

/-! ## Arguments fit their bytes -/

theorem seekTargetAt_fits (a : List Byte) : (seekTargetAt a).fits = true := by
  unfold seekTargetAt
  split
  · rfl
  · rfl
  · exact fits4_word4At a 1
  · exact strayTag_byteAt (by grind)

theorem planArgAt_fits (a : List Byte) : (planArgAt a).fits = true := by
  unfold planArgAt
  split
  · rfl
  · simp [PlanArg.fits]
  · simp [PlanArg.fits]
  · exact strayTag_byteAt (by grind)

theorem passesArgAt_fits (a : List Byte) : (passesArgAt a).fits = true := by
  unfold passesArgAt
  split
  · simp [PassesArg.fits]
  · rfl
  · exact strayTag_byteAt (by grind)

theorem triggerArgAt_fits (a : List Byte) : (triggerArgAt a).fits = true := by
  unfold triggerArgAt
  split
  · rfl
  · simp [TriggerArg.fits]
  · simp [TriggerArg.fits]
  · simp [TriggerArg.fits]
  · simp [TriggerArg.fits]
  · exact strayTag_byteAt (by grind)

theorem selectorAt_fits (a : List Byte) : (selectorAt a).fits = true := by
  unfold selectorAt
  split
  · rfl
  · rfl
  · exact fits4_word4At a 1
  · exact strayTag_byteAt (by grind)

theorem retreatLevelAt_fits (a : List Byte) : (retreatLevelAt a).fits = true := by
  unfold retreatLevelAt
  split
  · simp [RetreatLevelArg.fits]
  · rfl
  · exact strayTag_byteAt (by grind)

theorem capArgAt_fits (a : List Byte) (i : Nat) : (capArgAt a i).fits = true := by
  unfold capArgAt
  split
  · simp [CapArg.fits]
  · rfl
  · exact strayTag_byteAt (by grind)

theorem stageArgsAt_fits (a : List Byte) : (stageArgsAt a).fits = true := by simp [stageArgsAt, StageArgs.fits]

theorem verticalArgsAt_fits (a : List Byte) : (verticalArgsAt a).fits = true := by
  simp [verticalArgsAt, VerticalArgs.fits, all_optField]

theorem meterArgsAt_fits (a : List Byte) : (meterArgsAt a).fits = true := by simp [meterArgsAt, MeterArgs.fits]

theorem slotArgsAt_fits (a : List Byte) : (slotArgsAt a).fits = true := by
  simp [slotArgsAt, SlotArgs.fits, planArgAt_fits, passesArgAt_fits, triggerArgAt_fits]

theorem criteriaArgsAt_fits (a : List Byte) : (criteriaArgsAt a).fits = true := by
  simp [criteriaArgsAt, CriteriaArgs.fits, Tri.allOf, all_optField]

theorem reportArgsAt_fits (a : List Byte) : (reportArgsAt a).fits = true := by
  simp [reportArgsAt, ReportArgs.fits]

theorem filterArgsAt_fits (a : List Byte) : (filterArgsAt a).fits = true := by
  simp [filterArgsAt, FilterArgs.fits, capArgAt_fits, Vector.all_eq_true]

theorem lineArgsAt_fits (a : List Byte) : (lineArgsAt a).fits = true := by simp [lineArgsAt, LineArgs.fits]

/-! ## Requests fit their bytes -/

/-- The request of a code on port p, whose arguments fit their bytes. -/
def RequestFits (p : Port) (code : Nat) (i : Instr) : Prop :=
  i.port? = some p ∧ (encodeRequest i).map Prod.fst = some code ∧ i.fits = true

theorem requestOf_fits {p : Port} {code : Nat} {a : List Byte} {i : Instr} (h : requestOf p code a = some i) :
    RequestFits p code i := by
  unfold requestOf at h
  split at h <;> cases h <;> refine ⟨rfl, rfl, ?_⟩ <;>
    simp [Instr.fits, all_optField, seekTargetAt_fits, selectorAt_fits, retreatLevelAt_fits, stageArgsAt_fits,
      verticalArgsAt_fits, meterArgsAt_fits, slotArgsAt_fits, criteriaArgsAt_fits, reportArgsAt_fits,
      filterArgsAt_fits, lineArgsAt_fits, Vector.all_eq_true]

/-- Every code of the catalogue has its request. -/
theorem requestOf_isSome {code : Nat} {e : List Port × Nat} (p : Port) (a : List Byte)
    (h : catalogue code = some e) : (requestOf p code a).isSome = true := by
  unfold catalogue at h
  split at h <;> first | rfl | cases h

/-- Settles O9: a window is read as nothing, as a fault of its frame, or as the request of a code that its port may
send. -/
theorem windowsAreWellFormed : Obligations.WindowsAreWellFormed := by
  intro p w
  simp only [commandOfWindow]
  split
  · exact ⟨rfl, rfl⟩
  split
  · simp [Instr.wf, Instr.fits, FrameFault.fits, Instr.roleFits, encodeRequest, Instr.port?]
  split
  next hcode =>
    simp [Instr.wf, Instr.fits, FrameFault.fits, Instr.roleFits, encodeRequest, Instr.port?, hcode]
  next e hcode =>
    have hroles : rolesOf (byteAt w.bytes 0) = e.1 := by simp [rolesOf, hcode]
    split
    next hrole =>
      obtain ⟨i, hi⟩ := Option.isSome_iff_exists.1 (requestOf_isSome p (w.bytes.drop 2) hcode)
      obtain ⟨hport, hframe, hfits⟩ := requestOf_fits hi
      obtain ⟨f, hf, hfst⟩ := Option.map_eq_some_iff.1 hframe
      simp [hi, Instr.wf, hfits, hport, Instr.roleFits, hf, hfst, hroles, hrole]
    next hrole =>
      simp [Instr.wf, Instr.fits, FrameFault.fits, Instr.roleFits, encodeRequest, Instr.port?, hcode, hroles, hrole]

end Sys2Proof.Machine
end

section
/-! SUPPORT. The encoder of request frames against the Port Unit's reading (R202, R204): each field is read at its
place as it was written, then each argument, then each request. -/

namespace Sys2Proof.Machine

/-- Settles O10: each frame is evaluated. -/
theorem writtenFrames : Obligations.WrittenFrames := by
  refine ⟨?_, ?_, ?_, ?_, ?_, ?_, ?_, ?_, ?_, ?_, ?_⟩ <;> decide +kernel

/-! ## A reading past the first byte -/

section
variable (b : Byte) (l : List Byte) (i : Nat)

@[simp] theorem byteAt_cons_succ : byteAt (b :: l) (i + 1) = byteAt l i := rfl

@[simp] theorem word2At_cons_succ : word2At (b :: l) (i + 1) = word2At l i := rfl

@[simp] theorem word4At_cons_succ : word4At (b :: l) (i + 1) = word4At l i := rfl

@[simp] theorem int2At_cons_succ : int2At (b :: l) (i + 1) = int2At l i := rfl

@[simp] theorem setAt_cons_succ (k : Nat) : setAt (b :: l) (i + 1) k = setAt l i k := by
  induction k generalizing i with
  | zero => rfl
  | succ k ih => rw [setAt, setAt, ih, byteAt_cons_succ]

@[simp] theorem present_cons_succ (k m : Nat) : present (b :: l) (i + 1) k m = present l i k m := by
  rw [present, present, setAt_cons_succ]

@[simp] theorem capArgAt_cons_succ : capArgAt (b :: l) (i + 1) = capArgAt l i := rfl

end

/-! ## A field at the front -/

theorem byteAt_u8 {n : Nat} (h : fits1 n = true) (l : List Byte) : byteAt (BitVec.ofNat 8 n :: l) 0 = n :=
  Nat.mod_eq_of_lt (of_decide_eq_true h)

/-- A tag that stands in the frame as it is. -/
theorem byteAt_tag {n : Nat} (h : n < 256) (l : List Byte) : byteAt (BitVec.ofNat 8 n :: l) 0 = n :=
  Nat.mod_eq_of_lt h

theorem word2At_mod (n : Nat) (l : List Byte) : word2At (u16 n ++ l) 0 = n % 65536 := by
  have hvalue : word2At (u16 n ++ l) 0 = n / 256 % 256 * 256 + n % 256 := rfl
  omega

theorem word2At_u16 {n : Nat} (h : fits2 n = true) (l : List Byte) :
    word2At (BitVec.ofNat 8 (n / 256) :: BitVec.ofNat 8 n :: l) 0 = n :=
  (word2At_mod n l).trans (Nat.mod_eq_of_lt (of_decide_eq_true h))

theorem word4At_u32 {n : Nat} (h : fits4 n = true) (l : List Byte) :
    word4At (BitVec.ofNat 8 (n / 65536 / 256) :: BitVec.ofNat 8 (n / 65536) :: BitVec.ofNat 8 (n / 256) ::
      BitVec.ofNat 8 n :: l) 0 = n := by
  have hn := of_decide_eq_true h
  have hvalue : word4At (u16 (n / 65536) ++ (u16 n ++ l)) 0 =
      word2At (u16 (n / 65536) ++ (u16 n ++ l)) 0 * 65536 + word2At (u16 n ++ l) 0 := rfl
  rw [word2At_mod, word2At_mod] at hvalue
  refine hvalue.trans ?_
  omega

theorem int2At_i16 {z : Int} (h : fitsS2 z = true) (l : List Byte) :
    int2At (BitVec.ofNat 8 ((z % 65536).toNat / 256) :: BitVec.ofNat 8 (z % 65536).toNat :: l) 0 = z := by
  obtain ⟨hlow, hhigh⟩ := of_decide_eq_true h
  rw [int2At, word2At_u16 (decide_eq_true (by omega))]
  split <;> omega

theorem setAt_setBytes (k n : Nat) (l : List Byte) : setAt (setBytes k n ++ l) 0 k = n % 256 ^ k := by
  induction k generalizing n with
  | zero => simp [setAt, Nat.mod_one]
  | succ k ih =>
    have hrest : setAt (setBytes (k + 1) n ++ l) (0 + 1) k = setAt (setBytes k (n / 256) ++ l) 0 k :=
      setAt_cons_succ ..
    rw [setAt, hrest, ih, Nat.pow_succ, Nat.mul_comm (256 ^ k), Nat.mod_mul]
    rfl

/-- A set of 8 k members, carried in k bytes. -/
theorem ofNat_setAt_setBytes {w : Nat} (k : Nat) (m : BitVec w) (l : List Byte) (h : 256 ^ k = 2 ^ w) :
    BitVec.ofNat w (setAt (setBytes k m.toNat ++ l) 0 k) = m := by
  rw [setAt_setBytes, h, Nat.mod_eq_of_lt m.isLt, BitVec.ofNat_toNat, BitVec.setWidth_eq]

theorem optField_getD {α : Type} (o : Option α) (x : α) : optField o.isSome (o.getD x) = o := by
  cases o <;> rfl

theorem fits_getD {α : Type} {f : α → Bool} {o : Option α} {x : α} (h : o.all f = true) (hx : f x = true) :
    f (o.getD x) = true := by
  cases o with
  | none => exact hx
  | some y => exact h

/-- The presence mark of a single optional field. -/
theorem present_markOf {α : Type} (o : Option α) (l : List Byte) :
    present (setBytes 1 (markOf 0 o) ++ l) 0 1 0 = o.isSome := by
  rw [present, setAt_setBytes]
  cases o <;> simp [markOf]

/-! ## Lengths -/

@[simp] theorem u8_length (n : Nat) : (u8 n).length = 1 := rfl

@[simp] theorem u16_length (n : Nat) : (u16 n).length = 2 := rfl

@[simp] theorem u32_length (n : Nat) : (u32 n).length = 4 := rfl

@[simp] theorem i16_length (z : Int) : (i16 z).length = 2 := rfl

@[simp] theorem setBytes_length (k n : Nat) : (setBytes k n).length = k := by
  induction k generalizing n with
  | zero => rfl
  | succ k ih => rw [setBytes, List.length_append, ih, u8_length, Nat.add_comm]

/-! ## Arguments -/

theorem stageArgsAt_enc {a : StageArgs} (h : a.fits = true) : stageArgsAt (encStageArgs a) = a := by
  simp only [StageArgs.fits, Bool.and_eq_true] at h
  simp [stageArgsAt, encStageArgs, u8, u16, u32, i16, byteAt_u8, word2At_u16, word4At_u32, int2At_i16, h]

/-- A stray tag, read as the number that it is. -/
theorem strayTag_spec {k n : Nat} (h : strayTag k n = true) : k ≤ n ∧ fits1 n = true := by
  simpa [strayTag] using h

theorem seekTargetAt_enc {t : SeekTarget} (h : t.fits = true) : seekTargetAt (encSeekTarget t) = t := by
  cases t with
  | oldest | newestNext => rfl
  | sequence s => simp [seekTargetAt, encSeekTarget, u8, u16, u32, byteAt_tag, word4At_u32 h]
  | unknown n =>
    obtain ⟨hle, hfit⟩ := strayTag_spec h
    obtain ⟨k, rfl⟩ := Nat.exists_eq_add_of_le' hle
    simp [seekTargetAt, encSeekTarget, u8, byteAt_u8 hfit]

theorem selectorAt_enc {t : ResultSelector} (h : t.fits = true) : selectorAt (encSelector t) = t := by
  cases t with
  | newest | oldest => rfl
  | ident s => simp [selectorAt, encSelector, u8, u16, u32, byteAt_tag, word4At_u32 h]
  | unknown n =>
    obtain ⟨hle, hfit⟩ := strayTag_spec h
    obtain ⟨k, rfl⟩ := Nat.exists_eq_add_of_le' hle
    simp [selectorAt, encSelector, u8, byteAt_u8 hfit]

theorem verticalArgsAt_enc {a : VerticalArgs} (h : a.fits = true) (i : Nat) :
    verticalArgsAt (u8 i ++ encVerticalArgs a) = a := by
  simp only [VerticalArgs.fits, Bool.and_eq_true] at h
  obtain ⟨⟨⟨⟨⟨hx, hmode⟩, hdepth⟩, hmethod⟩, htime⟩, hnext⟩ := h
  have hmark (l : List Byte) := present_markOf a.depth l
  have hvalue : fits2 (a.depth.getD 0) = true := fits_getD hdepth rfl
  simp only [setBytes, List.append_nil, u8, List.singleton_append] at hmark
  simp [verticalArgsAt, encVerticalArgs, u8, u16, u32, setBytes, byteAt_u8, word2At_u16, word4At_u32, optField_getD, *]

theorem meterArgsAt_enc {a : MeterArgs} (h : a.fits = true) (i : Nat) :
    meterArgsAt (u8 i ++ u16 a.a ++ u32 a.b ++ u8 a.pulses ++ u16 a.ident) = a := by
  simp only [MeterArgs.fits, Bool.and_eq_true] at h
  simp [meterArgsAt, u8, u16, u32, byteAt_u8, word2At_u16, word4At_u32, h]

/-- A plan is carried in three bytes. -/
theorem encPlanArg_bytes {t : PlanArg} (h : t.fits = true) :
    ∃ b c d, encPlanArg t = [b, c, d] ∧ ∀ i l, planArgAt (i :: b :: c :: d :: l) = t := by
  cases t with
  | empty => exact ⟨_, _, _, rfl, fun _ _ => rfl⟩
  | listed f n =>
    simp only [PlanArg.fits, Bool.and_eq_true] at h
    exact ⟨_, _, _, rfl, fun _ _ => by simp [planArgAt, byteAt_u8, byteAt_tag, h]⟩
  | linked f => exact ⟨_, _, _, rfl, fun _ _ => by simp [planArgAt, byteAt_tag, byteAt_u8 h]⟩
  | unknown n =>
    obtain ⟨hle, hfit⟩ := strayTag_spec h
    obtain ⟨k, rfl⟩ := Nat.exists_eq_add_of_le' hle
    exact ⟨_, _, _, rfl, fun _ _ => by simp [planArgAt, byteAt_u8 hfit]⟩

/-- The number of passes is carried in two bytes. -/
theorem encPassesArg_bytes {t : PassesArg} (h : t.fits = true) :
    ∃ b c, encPassesArg t = [b, c] ∧ ∀ u v w x y l, passesArgAt (u :: v :: w :: x :: y :: b :: c :: l) = t := by
  cases t with
  | number n => exact ⟨_, _, rfl, fun _ _ _ _ _ _ => by simp [passesArgAt, byteAt_tag, byteAt_u8 h]⟩
  | index => exact ⟨_, _, rfl, fun _ _ _ _ _ _ => rfl⟩
  | unknown n =>
    obtain ⟨hle, hfit⟩ := strayTag_spec h
    obtain ⟨k, rfl⟩ := Nat.exists_eq_add_of_le' hle
    exact ⟨_, _, rfl, fun _ _ _ _ _ _ => by simp [passesArgAt, byteAt_u8 hfit]⟩

/-- A trigger is read from the twentieth byte on. -/
theorem triggerArgAt_drop (l : List Byte) :
    triggerArgAt l = triggerArgAt (List.replicate 20 0#8 ++ l.drop 20) := by
  simp [triggerArgAt, int2At, word2At, byteAt]

/-- A trigger is carried in four bytes. -/
theorem encTriggerArg_bytes {t : TriggerArg} (h : t.fits = true) :
    ∃ b c d e, encTriggerArg t = [b, c, d, e] ∧ triggerArgAt (List.replicate 20 0#8 ++ [b, c, d, e]) = t := by
  cases t with
  | port => exact ⟨_, _, _, _, rfl, rfl⟩
  | stageRise z sense =>
    simp only [TriggerArg.fits, Bool.and_eq_true] at h
    exact ⟨_, _, _, _, rfl, by simp [triggerArgAt, List.replicate, byteAt_u8, byteAt_tag, int2At_i16, h]⟩
  | warningLevel l sense =>
    simp only [TriggerArg.fits, Bool.and_eq_true] at h
    exact ⟨_, _, _, _, rfl, by simp [triggerArgAt, List.replicate, byteAt_u8, byteAt_tag, h]⟩
  | interval n => exact ⟨_, _, _, _, rfl, by simp [triggerArgAt, List.replicate, byteAt_tag, byteAt_u8 h]⟩
  | upstream n => exact ⟨_, _, _, _, rfl, by simp [triggerArgAt, List.replicate, byteAt_tag, byteAt_u8 h]⟩
  | unknown n =>
    obtain ⟨hle, hfit⟩ := strayTag_spec h
    obtain ⟨k, rfl⟩ := Nat.exists_eq_add_of_le' hle
    exact ⟨_, _, _, _, rfl, by simp [triggerArgAt, List.replicate, byteAt_u8 hfit]⟩

theorem slotArgsAt_enc {a : SlotArgs} (h : a.fits = true) (i : Nat) :
    slotArgsAt (u8 i ++ encSlotArgs a) = a ∧ (u8 i ++ encSlotArgs a).length = 24 := by
  simp only [SlotArgs.fits, Bool.and_eq_true] at h
  obtain ⟨⟨⟨⟨⟨⟨⟨⟨⟨⟨⟨hplan, hmode⟩, hpasses⟩, hmeter⟩, hcoef⟩, hsettle⟩, hsense⟩, hpause⟩, htol⟩, hmove⟩, hhome⟩,
    htrigger⟩ := h
  obtain ⟨b1, b2, b3, hplanBytes, hplanAt⟩ := encPlanArg_bytes hplan
  obtain ⟨c1, c2, hpassesBytes, hpassesAt⟩ := encPassesArg_bytes hpasses
  obtain ⟨d1, d2, d3, d4, htriggerBytes, htriggerAt⟩ := encTriggerArg_bytes htrigger
  rw [encSlotArgs, hplanBytes, hpassesBytes, htriggerBytes]
  refine ⟨?_, by simp⟩
  simp only [List.replicate, List.cons_append, List.nil_append] at htriggerAt
  rw [slotArgsAt, triggerArgAt_drop]
  simp [u8, u16, byteAt_u8, word2At_u16, List.replicate, *]

theorem markOf_eq {α : Type} (m : Nat) (o : Option α) : markOf m o = 2 ^ m * o.isSome.toNat := by
  cases o <;> simp [markOf]

/-- Mark i of a mask of nine marks (R136, R204). -/
theorem present_ofBits (m : Fin 9 → Bool) (l : List Byte) {i : Nat} (hi : i < 9) :
    present (BitVec.ofNat 8 (Nat.ofBits m) :: BitVec.ofNat 8 (Nat.ofBits m / 256) :: l) 0 2 i = m ⟨i, hi⟩ := by
  have hset : setAt (BitVec.ofNat 8 (Nat.ofBits m) :: BitVec.ofNat 8 (Nat.ofBits m / 256) :: l) 0 2 = Nat.ofBits m :=
    (setAt_setBytes 2 (Nat.ofBits m) l).trans (Nat.mod_eq_of_lt ((Nat.ofBits_lt_two_pow m).trans (by decide)))
  rw [present, hset, Nat.testBit_ofBits_lt m i hi]

theorem criteriaArgsAt_enc {a : CriteriaArgs} (h : a.fits = true) :
    criteriaArgsAt (encCriteriaArgs a) = a := by
  simp only [CriteriaArgs.fits, Tri.allOf, Bool.and_eq_true] at h
  obtain ⟨⟨⟨⟨⟨⟨⟨hs1, hs2⟩, hs3⟩, ⟨⟨hd1, hd2⟩, hd3⟩⟩, ⟨⟨hr1, hr2⟩, hr3⟩⟩, hhyst⟩, hdhyst⟩, hdwell⟩ := h
  have hint {o : Option Int} (ho : o.all fitsS2 = true) : fitsS2 (o.getD 0) = true := fits_getD ho rfl
  have hlong {o : Option Nat} (ho : o.all fits4 = true) : fits4 (o.getD 0) = true := fits_getD ho rfl
  have hword {o : Option Nat} (ho : o.all fits2 = true) : fits2 (o.getD 0) = true := fits_getD ho rfl
  have hmarks : markOf 0 a.stage.one + markOf 1 a.stage.two + markOf 2 a.stage.three
      + markOf 3 a.discharge.one + markOf 4 a.discharge.two + markOf 5 a.discharge.three
      + markOf 6 a.rise.one + markOf 7 a.rise.two + markOf 8 a.rise.three =
      Nat.ofBits ![a.stage.one.isSome, a.stage.two.isSome, a.stage.three.isSome,
        a.discharge.one.isSome, a.discharge.two.isSome, a.discharge.three.isSome, a.rise.one.isSome,
        a.rise.two.isSome, a.rise.three.isSome] := by
    simp only [markOf_eq, Nat.ofBits, Fin.foldr_succ, Fin.foldr_zero, Matrix.cons_val_zero, Matrix.cons_val_succ]
    omega
  rw [encCriteriaArgs, hmarks]
  simp [criteriaArgsAt, setBytes, u8, u16, u32, i16, present_ofBits, int2At_i16, word4At_u32, word2At_u16,
    byteAt_u8, optField_getD, *]

theorem retreatLevelAt_enc {t : RetreatLevelArg} (h : t.fits = true) (b c d : Byte) :
    retreatLevelAt (b :: c :: d :: encRetreatLevel t) = t := by
  cases t with
  | number n => simp [retreatLevelAt, encRetreatLevel, u8, byteAt_tag, byteAt_u8 h]
  | none => rfl
  | unknown n =>
    obtain ⟨hle, hfit⟩ := strayTag_spec h
    obtain ⟨k, rfl⟩ := Nat.exists_eq_add_of_le' hle
    simp [retreatLevelAt, encRetreatLevel, u8, byteAt_u8 hfit]

theorem reportArgsAt_enc {a : ReportArgs} (h : a.fits = true) :
    reportArgsAt (u16 a.address ++ u32 a.stamp ++ u8 a.cls ++ i16 a.stage ++ u8 a.level) = a := by
  simp only [ReportArgs.fits, Bool.and_eq_true] at h
  simp [reportArgsAt, u8, u16, u32, i16, byteAt_u8, word2At_u16, word4At_u32, int2At_i16, h]

theorem lineArgsAt_enc {a : LineArgs} (h : a.fits = true) :
    lineArgsAt (u8 a.line ++ u8 a.function ++ u8 a.output ++ u8 a.direction ++ u8 a.polarity ++ u8 a.pullUp
      ++ u8 a.arm) = a := by
  simp only [LineArgs.fits, Bool.and_eq_true] at h
  simp [lineArgsAt, u8, byteAt_u8, h]

/-- A cap is carried in two bytes. -/
theorem capArgAt_enc {t : CapArg} (h : t.fits = true) (l : List Byte) :
    capArgAt (encCap t ++ l) 0 = t ∧ ∃ b c, encCap t = [b, c] := by
  refine ⟨?_, ?_⟩
  · cases t with
    | cap n => simp [capArgAt, encCap, u8, byteAt_tag, byteAt_u8 h]
    | drop => rfl
    | unknown n =>
      obtain ⟨hle, hfit⟩ := strayTag_spec h
      obtain ⟨k, rfl⟩ := Nat.exists_eq_add_of_le' hle
      simp [capArgAt, encCap, u8, byteAt_u8 hfit]
  · cases t <;> exact ⟨_, _, rfl⟩

/-- A list of caps is carried two bytes each. -/
theorem capArgAt_flatten {caps : List CapArg} (h : ∀ c ∈ caps, c.fits = true) {i : Nat} (hi : i < caps.length) :
    capArgAt (caps.map encCap).flatten (2 * i) = caps[i] := by
  induction caps generalizing i with
  | nil => exact absurd hi (Nat.not_lt_zero i)
  | cons t caps ih =>
    obtain ⟨hfront, b, c, hbytes⟩ := capArgAt_enc (h t List.mem_cons_self) (caps.map encCap).flatten
    cases i with
    | zero => exact hfront
    | succ i =>
      have hrest := ih (fun c hc => h c (List.mem_cons_of_mem _ hc)) (Nat.lt_of_succ_lt_succ hi)
      simpa [hbytes, Nat.mul_add] using hrest

theorem capsBytes_length (caps : List CapArg) : (caps.map encCap).flatten.length = 2 * caps.length := by
  induction caps with
  | nil => rfl
  | cons t caps ih =>
    have ht : (encCap t).length = 2 := by cases t <;> rfl
    simp only [List.map_cons, List.flatten_cons, List.length_append, ht, ih, List.length_cons]
    omega

theorem filterArgsAt_enc {a : FilterArgs} (h : a.fits = true) :
    filterArgsAt (u8 a.hashEnable ++ u8 a.acceptAll ++ u16 a.staleLimit ++
      (a.classMap.toList.map encCap).flatten) = a := by
  simp only [FilterArgs.fits, Bool.and_eq_true, Vector.all_eq_true] at h
  obtain ⟨⟨⟨hhash, hall⟩, hstale⟩, hcaps⟩ := h
  have hmap : ∀ c ∈ a.classMap.toList, c.fits = true := by
    intro c hc
    obtain ⟨i, hi, rfl⟩ := List.getElem_of_mem hc
    simpa using hcaps i (by simpa using hi)
  have hread (i : Fin 8) : capArgAt (a.classMap.toList.map encCap).flatten (2 * i.val) = a.classMap[i] := by
    simpa using capArgAt_flatten hmap (i := i.val) (by simp)
  simp [filterArgsAt, u8, u16, byteAt_u8, word2At_u16, Nat.add_comm 4, hread, hhash, hall, hstale]

/-- Values of one byte each. -/
theorem byteAt_flatten {values : List Nat} (h : ∀ v ∈ values, fits1 v = true) {i : Nat} (hi : i < values.length) :
    byteAt (values.map u8).flatten i = values[i] := by
  induction values generalizing i with
  | nil => exact absurd hi (Nat.not_lt_zero i)
  | cons v values ih =>
    cases i with
    | zero => exact byteAt_u8 (h v List.mem_cons_self) _
    | succ i => exact ih (fun c hc => h c (List.mem_cons_of_mem _ hc)) (Nat.lt_of_succ_lt_succ hi)

theorem bytes_length (values : List Nat) : (values.map u8).flatten.length = values.length := by
  induction values with
  | nil => rfl
  | cons v values ih =>
    rw [List.map_cons, List.flatten_cons, List.length_append, ih, List.length_cons, Nat.add_comm]
    rfl

/-! ## Requests -/

/-- A request is read from its argument bytes as it was, and these have the length of the catalogue. -/
def ReadsBack (i : Instr) : Prop :=
  i.fits = true → ∀ p e, i.port? = some p → encodeRequest i = some e →
    requestOf p e.1 e.2 = some i ∧ (catalogue e.1).map Prod.snd = some e.2.length

theorem ReadsBack.of {i : Instr} {q : Port} {code len : Nat} {data : List Byte} (hq : i.port? = some q)
    (hf : encodeRequest i = some (code, data)) (hcode : (catalogue code).map Prod.snd = some len)
    (h : i.fits = true → requestOf q code data = some i) (hlen : data.length = len := by simp) : ReadsBack i := by
  intro hfits p e hp he
  rw [hq, Option.some.injEq] at hp
  rw [hf, Option.some.injEq] at he
  subst hp he hlen
  exact ⟨h hfits, hcode⟩

theorem ReadsBack.of_no_frame {i : Instr} (h : encodeRequest i = none) : ReadsBack i := by
  intro _ p e _ he
  simp [h] at he

/-- A request of one argument. -/
theorem ReadsBack.of_argument {α : Type} {make : α → Instr} {x : α} {q : Port} {code len : Nat}
    {data : List Byte} (read : List Byte → α) (hq : (make x).port? = some q)
    (hf : encodeRequest (make x) = some (code, data)) (hcode : (catalogue code).map Prod.snd = some len)
    (hmake : requestOf q code data = some (make (read data)))
    (hread : (make x).fits = true → read data = x) (hlen : data.length = len := by simp) : ReadsBack (make x) :=
  .of hq hf hcode (fun h => by rw [hmake, hread h]) hlen

theorem readHistory_readsBack (p : Port) (m a : Nat) : ReadsBack (.readHistory p m a) :=
  .of rfl rfl rfl fun h => by
    simp only [Instr.fits, Bool.and_eq_true] at h
    change some (Instr.readHistory p (byteAt _ 0) (byteAt _ 1)) = _
    simp [u8, byteAt_u8, h]

theorem setAttention_readsBack (p : Port) (m o : Nat) : ReadsBack (.setAttention p m o) :=
  .of rfl rfl rfl fun h => by
    simp only [Instr.fits, Bool.and_eq_true] at h
    change some (Instr.setAttention p (byteAt _ 0) (byteAt _ 1)) = _
    simp [u8, byteAt_u8, h]

theorem setWarningOutput_readsBack (p : Port) (k l t : Nat) : ReadsBack (.setWarningOutput p k l t) :=
  .of rfl rfl rfl fun h => by
    simp only [Instr.fits, Bool.and_eq_true] at h
    change some (Instr.setWarningOutput p (byteAt _ 0) (byteAt _ 1) (byteAt _ 2)) = _
    simp [u8, byteAt_u8, h]

theorem checkGauge_readsBack (p : Port) (c : Nat) (r : Int) : ReadsBack (.checkGauge p c r) :=
  .of rfl rfl rfl fun h => by
    simp only [Instr.fits, Bool.and_eq_true] at h
    change some (Instr.checkGauge p (byteAt _ 0) (int2At _ 1)) = _
    simp [u8, u16, i16, byteAt_u8, int2At_i16, h]

theorem writeStagedPoint_readsBack (p : Port) (i : Nat) (h : Int) (q : Nat) :
    ReadsBack (.writeStagedPoint p i h q) :=
  .of rfl rfl rfl fun hfits => by
    simp only [Instr.fits, Bool.and_eq_true] at hfits
    change some (Instr.writeStagedPoint p (byteAt _ 0) (int2At _ 1) (word4At _ 3)) = _
    simp [u8, u16, u32, i16, byteAt_u8, int2At_i16, word4At_u32, hfits]

theorem setUpstreamEntry_readsBack (p : Port) (i a d t : Nat) : ReadsBack (.setUpstreamEntry p i a d t) :=
  .of rfl rfl rfl fun h => by
    simp only [Instr.fits, Bool.and_eq_true] at h
    change some (Instr.setUpstreamEntry p (byteAt _ 0) (word2At _ 1) (byteAt _ 3) (word2At _ 4)) = _
    simp [u8, u16, byteAt_u8, word2At_u16, h]

theorem setRoute_readsBack (p : Port) (n : Nat) (m : BitVec 8) : ReadsBack (.setRoute p n m) :=
  .of rfl rfl rfl fun h => by
    have hset : BitVec.ofNat 8 (setAt (setBytes 1 m.toNat) 0 1) = m := ofNat_setAt_setBytes 1 m [] rfl
    change some (Instr.setRoute p (byteAt _ 0) (BitVec.ofNat 8 (setAt _ 1 1))) = _
    simp [u8, byteAt_u8 h, hset]

theorem writeLines_readsBack (p : Port) (mask : BitVec 16) (values : Vector Nat 16) :
    ReadsBack (.writeLines p mask values) := by
  refine .of rfl rfl rfl (fun h => ?_) (by simp [-List.length_flatten, bytes_length])
  have hall : values.all fits1 = true := h
  have hvalues : ∀ v ∈ values.toList, fits1 v = true := by rwa [← Vector.all_toList, List.all_eq_true] at hall
  refine congrArg₂ (fun m v => some (Instr.writeLines p m v)) (ofNat_setAt_setBytes 2 mask _ rfl)
    (Vector.ext fun i hi => ?_)
  rw [Vector.getElem_ofFn, Nat.add_comm 2]
  exact (byteAt_flatten hvalues (by simpa using hi)).trans (Vector.getElem_toList _)

theorem setUpstreamFilter_readsBack (p : Port) (a : FilterArgs) : ReadsBack (.setUpstreamFilter p a) :=
  .of_argument filterArgsAt rfl rfl rfl rfl filterArgsAt_enc (by simp [-List.length_flatten, capsBytes_length])

theorem writeMeter_readsBack (p : Port) (i : Nat) (a : MeterArgs) : ReadsBack (.writeMeter p i a) :=
  .of rfl rfl rfl fun h => by
    simp only [Instr.fits, Bool.and_eq_true] at h
    change some (Instr.writeMeter p (byteAt _ 0) (meterArgsAt _)) = _
    rw [meterArgsAt_enc h.2]
    simp [u8, byteAt_u8 h.1]

theorem writeVertical_readsBack (p : Port) (i : Nat) (a : VerticalArgs) : ReadsBack (.writeVertical p i a) :=
  .of rfl rfl rfl (fun h => by
    simp only [Instr.fits, Bool.and_eq_true] at h
    change some (Instr.writeVertical p (byteAt _ 0) (verticalArgsAt _)) = _
    rw [verticalArgsAt_enc h.2]
    simp [u8, byteAt_u8 h.1]) (by simp [encVerticalArgs])

theorem defineSlot_readsBack (p : Port) (i : Nat) (a : SlotArgs) : ReadsBack (.defineSlot p i a) := by
  intro h q e hq he
  obtain rfl : q = p := (Option.some.inj hq).symm
  obtain rfl : e = (0x36, u8 i ++ encSlotArgs a) := (Option.some.inj he).symm
  simp only [Instr.fits, Bool.and_eq_true] at h
  obtain ⟨hi, ha⟩ := h
  obtain ⟨hread, hlen⟩ := slotArgsAt_enc ha i
  refine ⟨?_, congrArg some hlen.symm⟩
  change some (Instr.defineSlot q (byteAt _ 0) (slotArgsAt _)) = _
  rw [hread]
  simp [u8, byteAt_u8 hi]

theorem positionReached_readsBack (p : Port) (d : Nat) (o : Option Nat) : ReadsBack (.positionReached p d o) :=
  .of rfl rfl rfl fun h => by
    simp only [Instr.fits, Bool.and_eq_true] at h
    obtain ⟨hd, ho⟩ := h
    have hmark (l : List Byte) := present_markOf o l
    have hvalue : fits2 (o.getD 0) = true := fits_getD ho rfl
    simp only [setBytes, List.append_nil, u8, List.singleton_append] at hmark
    change some (Instr.positionReached p (word4At _ 0) (optField (present _ 4 1 0) (word2At _ 5))) = _
    simp [setBytes, u8, u16, u32, word4At_u32 hd, hmark, word2At_u16 hvalue, optField_getD]

theorem setRetreat_readsBack (p : Port) (h : Option Int) (l : RetreatLevelArg) : ReadsBack (.setRetreat p h l) := by
  refine .of rfl rfl rfl (fun hfits => ?_) (by cases l <;> simp [encRetreatLevel])
  simp only [Instr.fits, Bool.and_eq_true] at hfits
  obtain ⟨hh, hl⟩ := hfits
  have hmark (l : List Byte) := present_markOf h l
  have hvalue : fitsS2 (h.getD 0) = true := fits_getD hh rfl
  simp only [setBytes, List.append_nil, u8, List.singleton_append] at hmark
  change some (Instr.setRetreat p (optField (present _ 0 1 0) (int2At _ 1)) (retreatLevelAt _)) = _
  simp [setBytes, u8, u16, i16, hmark, int2At_i16 hvalue, optField_getD, retreatLevelAt_enc hl]

theorem everyReadsBack : ∀ i : Instr, ReadsBack i
  -- no arguments
  | .readReply _ | .readClock _ | .readStage _ | .readStageConfig _ | .readHistoryState _ | .readRating _
  | .readStaged _ | .clearStaged _ | .installRating _ | .readSlotState _ | .getTarget _ | .readRunState _
  | .depthReached _ | .homeReached _ | .proceed _ | .cancelRun _ | .clearTrip _ | .resetEngine _ | .readPass _
  | .readWarning _ | .silence _ | .readUpstreamState _ | .clearUpstreamCounters _ | .readLineConfig _
  | .fetchNotices _ | .peekNotices _ | .readNoticeRoutes _ | .stationReset _ => .of rfl rfl rfl (fun _ => rfl) rfl
  -- one number
  | .setHistoryThreshold _ _ | .setHistoryInterval _ _ | .readVertical _ _ | .clearVertical _ _ | .readMeter _ _
  | .readSlot _ _ | .armSlot _ _ | .disarmSlot _ _ | .startRun _ _ | .clearRequest _ _ | .setSlotPriority _ _
  | .carriageFault _ _ | .readPassVertical _ _ | .readUpstreamEntry _ _ | .readLines _ _ =>
    .of_argument (byteAt · 0) rfl rfl rfl rfl fun h => byteAt_u8 h []
  | .setExtrapolationLimit _ _ => .of_argument (word2At · 0) rfl rfl rfl rfl fun h => word2At_u16 h []
  | .setClock _ _ | .rateDischarge _ _ => .of_argument (word4At · 0) rfl rfl rfl rfl fun h => word4At_u32 h []
  | .rateStage _ _ | .setShift _ _ => .of_argument (int2At · 0) rfl rfl rfl rfl fun h => int2At_i16 h []
  -- one set
  | .overrideOn _ m | .overrideOff _ m | .overrideAuto _ m =>
    .of_argument (fun a => BitVec.ofNat 8 (setAt a 0 1)) rfl rfl rfl rfl fun _ => ofNat_setAt_setBytes 1 m [] rfl
  | .setHash _ m =>
    .of_argument (fun a => BitVec.ofNat 64 (setAt a 0 8)) rfl rfl rfl rfl fun _ => ofNat_setAt_setBytes 8 m [] rfl
  | .setNoticeEnable _ m =>
    .of_argument (fun a => BitVec.ofNat 24 (setAt a 0 3)) rfl rfl rfl rfl fun _ => ofNat_setAt_setBytes 3 m [] rfl
  -- one argument with a form of its own
  | .configureStage _ _ => .of_argument stageArgsAt rfl rfl rfl rfl stageArgsAt_enc (by simp [encStageArgs])
  | .seekHistory _ t => .of_argument seekTargetAt rfl rfl rfl rfl seekTargetAt_enc (by cases t <;> rfl)
  | .readResult _ t => .of_argument selectorAt rfl rfl rfl rfl selectorAt_enc (by cases t <;> rfl)
  | .configureLine _ _ => .of_argument lineArgsAt rfl rfl rfl rfl lineArgsAt_enc
  | .upstreamReport _ _ => .of_argument reportArgsAt rfl rfl rfl rfl reportArgsAt_enc
  | .setLevelCriteria _ _ => .of_argument criteriaArgsAt rfl rfl rfl rfl criteriaArgsAt_enc (by simp [encCriteriaArgs])
  | .setUpstreamFilter p a => setUpstreamFilter_readsBack p a
  -- several arguments
  | .readHistory p m a => readHistory_readsBack p m a
  | .setAttention p m o => setAttention_readsBack p m o
  | .setWarningOutput p k l t => setWarningOutput_readsBack p k l t
  | .checkGauge p c r => checkGauge_readsBack p c r
  | .writeStagedPoint p i h q => writeStagedPoint_readsBack p i h q
  | .setUpstreamEntry p i a d t => setUpstreamEntry_readsBack p i a d t
  | .setRoute p n m => setRoute_readsBack p n m
  | .writeLines p mask values => writeLines_readsBack p mask values
  | .writeMeter p i a => writeMeter_readsBack p i a
  | .writeVertical p i a => writeVertical_readsBack p i a
  | .defineSlot p i a => defineSlot_readsBack p i a
  | .positionReached p d o => positionReached_readsBack p d o
  | .setRetreat p h l => setRetreat_readsBack p h l
  -- no request
  | .badFrame _ _ | .resetNActivation | .resetNRelease | .porAssert | .porRelease | .encoderPhaseChange _ _
  | .pPulse _ | .stationClockAdvance | .stageSample | .moveTimerExpiry | .settleTimerExpiry | .countTimerExpiry
  | .pauseTimerExpiry | .homeTimerExpiry | .dwellTimerExpiry | .intervalTimerExpiry _ | .delayTimerExpiry _
  | .staleTimerExpiry _ | .linePinChange _ _ | .uptimeAdvance | .windowOpen _ | .discardedWindow _ =>
    .of_no_frame rfl

/-! ## Windows -/

/-- The codes of the catalogue are bytes, and its arguments no longer than a frame may carry them (R202). -/
theorem catalogue_bounds {code : Nat} {e : List Port × Nat} (h : catalogue code = some e) :
    code < 256 ∧ e.2 ≤ 60 := by
  unfold catalogue at h
  split at h <;> cases h <;> exact ⟨by decide, by decide⟩

/-- The window of a frame whose code and length are those of the catalogue. -/
theorem commandOfWindow_frame {p : Port} {code : Nat} {roles : List Port} {data : List Byte}
    (h : catalogue code = some (roles, data.length)) (hp : p ∈ roles) :
    commandOfWindow p ⟨u8 code ++ u8 data.length ++ data, false⟩ =
      (requestOf p code data).getD (.badFrame p (.unknown code)) := by
  obtain ⟨hcode, hlen⟩ := catalogue_bounds h
  have hfirst : byteAt (BitVec.ofNat 8 code :: BitVec.ofNat 8 data.length :: data) 0 = code := byteAt_tag hcode _
  have hsecond : byteAt (BitVec.ofNat 8 data.length :: data) 0 = data.length := byteAt_tag (by omega) _
  have hle : ¬ 60 < data.length := Nat.not_lt.2 hlen
  simp [commandOfWindow, frameBad, u8, hfirst, hsecond, h, hp, hle]

/-- Settles O8: a frame passes the checks of R202, and its arguments read back as they were written. -/
theorem decodeOfEncode : Obligations.DecodeOfEncode := by
  intro i p f hwf hp hf
  obtain ⟨e, he, rfl⟩ := Option.map_eq_some_iff.1 hf
  simp only [Instr.wf, Bool.and_eq_true] at hwf
  obtain ⟨hfits, hrole⟩ := hwf
  obtain ⟨hread, hlen⟩ := everyReadsBack i hfits p e hp he
  obtain ⟨⟨roles, len⟩, hcode, rfl⟩ := Option.map_eq_some_iff.1 hlen
  have hmem : p ∈ roles := by simpa [Instr.roleFits, he, hp, rolesOf, hcode] using hrole
  rw [commandOfWindow_frame hcode hmem, hread, Option.getD_some]

end Sys2Proof.Machine
end

section
/-! SUPPORT. The encoder's count and the pulse gate (R6, R7, R11), and the judgement of a float value (R9, R10). -/

namespace Sys2Proof.Machine

/-! ## The encoder (R6, R7) -/

/-- The phases pass to the next state in the rising order. -/
theorem turn_rising {u : StageUnit} {a b : Level} (h : (a, b) = nextRising (u.phaseA, u.phaseB)) :
    u.turn a b = { u with
      phaseA := a, phaseB := b, count := if u.count < 2147483647 then u.count + 1 else u.count } := by
  obtain ⟨rfl, rfl⟩ := Prod.mk.inj h
  cases ha : u.phaseA <;> cases hb : u.phaseB <;> simp [StageUnit.turn, ha, hb, phasePlace]

/-- The phases pass to the state before in the rising order. -/
theorem turn_falling {u : StageUnit} {a b : Level} (h : (u.phaseA, u.phaseB) = nextRising (a, b)) :
    u.turn a b = { u with
      phaseA := a, phaseB := b, count := if -2147483648 < u.count then u.count - 1 else u.count } := by
  obtain ⟨ha, hb⟩ := Prod.mk.inj h
  cases a <;> cases b <;> simp [StageUnit.turn, ha, hb, phasePlace]

theorem phasePlace_opposite {a b c d : Level} (ha : a ≠ c) (hb : b ≠ d) :
    (phasePlace a b + 4 - phasePlace c d) % 4 = 2 := by
  cases a <;> cases b <;> cases c <;> cases d <;> trivial

/-- Both phases change: an illegal transition. -/
theorem turn_illegal {u : StageUnit} {a b : Level} (ha : a ≠ u.phaseA) (hb : b ≠ u.phaseB) :
    u.turn a b = { u with phaseA := a, phaseB := b, encoderError := true } := by
  simp only [StageUnit.turn, phasePlace_opposite ha hb]

theorem turn_same (u : StageUnit) : u.turn u.phaseA u.phaseB = u := by simp [StageUnit.turn]

/-- A change of the phases touches nothing of the Stage Unit but these, the count and the mark. -/
theorem turn_frame (u : StageUnit) (a b : Level) :
    { u.turn a b with count := u.count, encoderError := u.encoderError } = { u with phaseA := a, phaseB := b } := by
  simp only [StageUnit.turn]
  split <;> rfl

theorem exec_encoderPhaseChange {s : State} (hlive : s.ports.por = false) (a b : Level) :
    exec (.encoderPhaseChange a b) s = .next { s with stage := s.stage.turn a b } := by
  change Host.Outcome.next { s with stage := if s.ports.por then _ else _ } = _
  simp [hlive]

/-! ## The gate (R11) -/

theorem exec_pPulse {s : State} (hlive : s.ports.por = false) (edge : Bool) :
    exec (.pPulse edge) s = .next (if gateOpen edge s then
      { s with stage := { s.stage with gateCount := saturate 65535 (s.stage.gateCount + 1) } } else s) :=
  congrArg Host.Outcome.next (unlessPor_live hlive _)

theorem gateOpen_eq_false {s : State} {edge : Bool}
    (h : nowMs s + 1000 < s.stage.sampleDue ∨ (nowMs s + 1000 = s.stage.sampleDue ∧ edge = false)) :
    gateOpen edge s = false := by
  simp only [gateOpen, Bool.or_eq_false_iff, decide_eq_false_iff_not, Bool.and_eq_false_imp, beq_eq_false_iff_ne]
  obtain h | ⟨h, rfl⟩ := h
  · exact ⟨by omega, fun _ => by omega⟩
  · exact ⟨by omega, nofun⟩

theorem gateOpen_eq_true {s : State} {edge : Bool}
    (h : s.stage.sampleDue < nowMs s + 1000 ∨ (nowMs s + 1000 = s.stage.sampleDue ∧ edge = true)) :
    gateOpen edge s = true := by
  obtain h | ⟨h, rfl⟩ := h <;> simp [gateOpen, h]

theorem saturate_succ_of_lt {top n : Nat} (h : n < top) : saturate top (n + 1) = n + 1 :=
  saturate_of_le h

theorem saturate_succ_self (top : Nat) : saturate top (top + 1) = top := by
  rw [saturate_eq_min, min_eq_left (Nat.le_succ top)]

/-- Settles O16: the encoder by its four transitions, the gate by its two sides. -/
theorem fieldInputs : Obligations.FieldInputs := by
  refine ⟨fun a b s hlive => ⟨_, exec_encoderPhaseChange hlive a b, turn_frame .., fun h => ?_, fun h => ?_,
    fun ha hb => ?_, fun ha hb => ?_⟩, fun edge s hlive => ⟨fun h => ?_, fun h => ?_⟩⟩
  · rw [turn_rising h]
    exact ⟨rfl, rfl⟩
  · rw [turn_falling h]
    exact ⟨rfl, rfl⟩
  · rw [turn_illegal ha hb]
    exact ⟨rfl, rfl⟩
  · rw [ha, hb, turn_same]
  · rw [exec_pPulse hlive, gateOpen_eq_false h]
    rfl
  · rw [exec_pPulse hlive, gateOpen_eq_true h, if_pos rfl]
    refine ⟨fun hlt => by rw [saturate_succ_of_lt hlt], fun htop => ?_⟩
    have hcount : saturate 65535 (s.stage.gateCount + 1) = s.stage.gateCount := by rw [htop, saturate_succ_self]
    rw [hcount]

/-! ## The judgement of a float value (R9, R10) -/

theorem judgeF_first {u : StageUnit} (h : u.anchor = none) (v : Int) :
    u.judgeF v = ({ u with fJudgement := .accepted, anchor := some v, runLength := 0 }, false) := by
  simp only [StageUnit.judgeF, h]

theorem judgeF_near {u : StageUnit} {a v : Int} (h : u.anchor = some a) (hv : (v - a).natAbs ≤ u.cfg.fMaxStep) :
    u.judgeF v = ({ u with fJudgement := .accepted, anchor := some v, runLength := 0 }, false) := by
  simp only [StageUnit.judgeF, h]
  exact if_pos (decide_eq_true hv)

/-- A value too far from the anchor is judged against the candidate run. -/
theorem judgeF_far {u : StageUnit} {a v : Int} (h : u.anchor = some a) (hv : u.cfg.fMaxStep < (v - a).natAbs) :
    u.judgeF v =
      if u.runLength ≠ 0 ∧ (v - u.runValue).natAbs ≤ u.cfg.fMaxStep then
        if 2 ≤ u.runLength then
          ({ u with fJudgement := .reanchored, anchor := some v, runLength := 0 }, true)
        else ({ u with fJudgement := .rejected, runLength := u.runLength + 1, runValue := v }, false)
      else ({ u with fJudgement := .rejected, runLength := 1, runValue := v }, true) := by
  simp only [StageUnit.judgeF, h]
  refine (if_neg fun hnear => Nat.not_le.2 hv (of_decide_eq_true hnear)).trans ?_
  exact if_congr (and_congr_right' decide_eq_true_iff) rfl rfl

/-- Settles O17: the value is judged against the anchor first, and then against the candidate run. -/
theorem floatJudgement : Obligations.FloatJudgement := by
  intro u v
  refine ⟨fun h => judgeF_first h v, fun a h => ⟨judgeF_near h, fun hv => ?_⟩⟩
  rw [judgeF_far h hv]
  refine ⟨fun hout => if_neg ?_, fun hrun hnear => ?_, fun hrun hnear => ?_⟩
  · rintro ⟨hrun, hnear⟩
    exact hout.elim hrun hnear.not_gt
  · rw [if_pos ⟨by omega, hnear⟩, if_neg (by omega), hrun]
  · rw [if_pos ⟨by omega, hnear⟩, if_pos (by omega)]

end Sys2Proof.Machine
end

section
/-! SUPPORT. The arithmetic of a point, a vertical and a panel (R116, R119, R123), and the spans of a pass's panels
(R121, R122): finalized one by one, they telescope to twice the distance of the two banks. -/

namespace Sys2Proof.Machine

/-! ## Points, verticals and panels (R116, R119, R123) -/

theorem pointVelocity_zero (m : MeterRecord) (ms : Nat) : pointVelocity m 0 ms = 0 := rfl

theorem pointVelocity_pulses (m : MeterRecord) {pulses : Nat} (ms : Nat) (h : 1 ≤ pulses) :
    pointVelocity m pulses ms = min 10000 (m.a + (roundDiv ((m.b : Int) * pulses) (m.pulses * ms)).toNat) := by
  rw [pointVelocity, saturate_eq_min, rawVelocity, if_neg (by omega)]

theorem meanVelocity_nil (m : Option Method) (c : Nat) : meanVelocity m [] c = 0 := by
  unfold meanVelocity
  split <;> simp_all

/-- The rounded quotient of a whole number is at most what the quotient is at most. -/
theorem roundDiv_natCast_le {n b q : Nat} (hb : 0 < b) (h : n ≤ q * b) : (roundDiv n b).toNat ≤ q := by
  rw [roundDiv_natCast, Int.toNat_natCast]
  refine Nat.lt_succ_iff.1 (Nat.div_lt_of_lt_mul ?_)
  nlinarith

/-- A vertical's discharge and area are bounded by the greatest velocity, depth and span (R123). -/
theorem panelFor_le {e : TableEntry} {v d span : Nat} (hv : e.mean = some v) (hd : e.depth = some d)
    (hvle : v ≤ 10000) (hdle : d ≤ 20000) (hspan : span ≤ 400000) :
    (panelFor e span).q ≤ 40000000000 ∧ (panelFor e span).area ≤ 4000000000 := by
  have hds : d * span ≤ 20000 * 400000 := Nat.mul_le_mul hdle hspan
  have hvds : v * d * span ≤ 10000 * (20000 * 400000) := by
    rw [Nat.mul_assoc]
    exact Nat.mul_le_mul hvle hds
  simp only [panelFor, hv, hd, Option.getD_some]
  exact ⟨mod_cast roundDiv_natCast_le (by omega) (by omega), mod_cast roundDiv_natCast_le (by omega) (by omega)⟩

/-- Settles O41: each value is its formula. -/
theorem gaugingArithmetic : Obligations.GaugingArithmetic := by
  refine ⟨pointVelocity_zero, fun m pulses ms h => pointVelocity_pulses m ms h, fun _ _ => rfl, fun _ _ _ => rfl,
    fun _ _ _ _ => rfl, fun _ _ => rfl, meanVelocity_nil, fun e v d span hv hd => ⟨?_, panelFor_le hv hd⟩⟩
  simp only [panelFor, hv, hd, Option.getD_some]

/-! ## The spans of a pass (R121, R122) -/

/-- The table after the next vertical is fetched: the vertical before it is finalized (R120, R121). -/
def tableFetched (table : List TableEntry) (e : TableEntry) : List TableEntry :=
  onNewest (finalizeEntry (spanAtFetch table e.x)) table ++ [e]

/-- An entry whose vertical is complete and that is not finalized. -/
def Unfinished (e : TableEntry) : Prop := e.complete = true ∧ e.panel = none

/-- An entry finalized with a span. -/
def finished (span : Nat) (e : TableEntry) : TableEntry := { e with panel := some (panelFor e span) }

theorem finalizeEntry_unfinished {e : TableEntry} (h : Unfinished e) (span : Nat) :
    finalizeEntry span e = finished span e := by
  obtain ⟨hcomplete, hpanel⟩ := h
  simp [finalizeEntry, finished, hcomplete, hpanel]

theorem onNewest_concat (f : TableEntry → TableEntry) (l : List TableEntry) (e : TableEntry) :
    onNewest f (l ++ [e]) = l ++ [f e] := by
  rw [onNewest_eq, newestAs, List.dropLast_concat, List.getLast?_concat]
  rfl

theorem sumPanels_append (f : Panel → Nat) (l l' : List TableEntry) :
    sumPanels f (l ++ l') = sumPanels f l + sumPanels f l' := by
  simp [sumPanels]

theorem sumPanels_finished (span : Nat) (e : TableEntry) : sumPanels Panel.span [finished span e] = span := by
  simp [sumPanels, finished, panelFor]

/-- Stations that lie in the order of one direction. -/
def Straight (xs : List Nat) : Prop := xs.Pairwise (· ≤ ·) ∨ xs.Pairwise (· ≥ ·)

theorem Straight.sublist {xs ys : List Nat} (h : Straight ys) (hs : xs.Sublist ys) : Straight xs :=
  h.imp (·.sublist hs) (·.sublist hs)

/-- The first station may stand twice. -/
theorem Straight.double {a : Nat} {xs : List Nat} (h : Straight (a :: xs)) : Straight (a :: a :: xs) := by
  refine h.imp (fun h => .cons ?_ h) (fun h => .cons ?_ h) <;>
    exact List.forall_mem_cons.2 ⟨le_rfl, fun _ => List.rel_of_pairwise_cons h⟩

/-- Distances along one direction add up. -/
theorem Straight.distance_add {a b c : Nat} {xs : List Nat} (h : Straight (a :: b :: c :: xs)) :
    distance c a = distance c b + distance b a := by
  simp only [Straight, List.pairwise_cons, List.mem_cons, forall_eq_or_imp] at h
  unfold distance
  omega

/-- A table on the way: all but its newest entry are finalized, and their spans add up to the distances of the last
two stations from the first (R121). -/
structure PanelsSoFar (start : Nat) (done : List TableEntry) (before newest : TableEntry) : Prop where
  finalized : ∀ e ∈ done ++ [before], e.panel.isSome = true
  unfinished : Unfinished newest
  spans : sumPanels Panel.span (done ++ [before]) = distance newest.x start + distance before.x start

/-- The next fetch keeps the sum (R121). -/
theorem PanelsSoFar.next {start : Nat} {done : List TableEntry} {before newest e : TableEntry}
    (h : PanelsSoFar start done before newest) (he : Unfinished e)
    (hs : Straight [start, before.x, newest.x, e.x]) :
    ∃ span, tableFetched (done ++ [before] ++ [newest]) e = done ++ [before] ++ [finished span newest] ++ [e] ∧
      PanelsSoFar start (done ++ [before]) (finished span newest) e := by
  have hspan : spanAtFetch (done ++ [before] ++ [newest]) e.x = distance e.x before.x := by
    simp [spanAtFetch]
  refine ⟨distance e.x before.x, ?_, ?_, he, ?_⟩
  · rw [tableFetched, hspan, onNewest_concat, finalizeEntry_unfinished h.unfinished]
  · intro x hx
    obtain hx | rfl := List.mem_append.1 hx |>.imp_right List.mem_singleton.1
    · exact h.finalized x hx
    · rfl
  · have hfirst : distance e.x before.x = distance e.x newest.x + distance newest.x before.x :=
      (hs.sublist (List.sublist_cons_self ..)).distance_add
    have hstart : distance newest.x start = distance newest.x before.x + distance before.x start :=
      hs.distance_add
    have hend : distance e.x start = distance e.x newest.x + distance newest.x start :=
      Straight.distance_add (xs := []) (hs.sublist (by simp))
    rw [sumPanels_append, h.spans, sumPanels_finished]
    change _ = distance e.x start + distance newest.x start
    omega

/-- The stations of a table. -/
def stations (table : List TableEntry) : List Nat := table.map TableEntry.x

/-- The fetches of a pass from its second vertical on keep the sum, and the stations in their order. -/
theorem foldl_tableFetched {start : Nat} {rest : List TableEntry} (hrest : ∀ e ∈ rest, Unfinished e)
    {done : List TableEntry} {before newest : TableEntry} (h : PanelsSoFar start done before newest)
    (hs : Straight (start :: before.x :: newest.x :: stations rest)) :
    ∃ done' before' newest',
      rest.foldl tableFetched (done ++ [before] ++ [newest]) = done' ++ [before'] ++ [newest'] ∧
      PanelsSoFar start done' before' newest' ∧ Straight [start, before'.x, newest'.x] ∧
      stations (done' ++ [before'] ++ [newest']) = stations (done ++ [before] ++ [newest] ++ rest) := by
  induction rest generalizing done before newest with
  | nil => exact ⟨done, before, newest, rfl, h, hs, by rw [List.append_nil]⟩
  | cons e rest ih =>
    obtain ⟨span, htable, hnext⟩ := h.next (hrest e List.mem_cons_self) (hs.sublist (by simp [stations]))
    obtain ⟨done', before', newest', hfold, hso, hstraight, hstations⟩ :=
      ih (fun x hx => hrest x (List.mem_cons_of_mem _ hx)) hnext
        (hs.sublist (.cons_cons _ (List.sublist_cons_self ..)))
    refine ⟨done', before', newest', ?_, hso, hstraight, ?_⟩
    · rw [List.foldl_cons, htable, hfold]
    · rw [hstations]
      simp [stations, finished]

/-- The close finalizes the newest entry with its distance from the one before it (R122). -/
theorem close_panels (done : List TableEntry) (before : TableEntry) {newest : TableEntry} (h : Unfinished newest) :
    onNewest (finalizeEntry (spanAtClose (done ++ [before] ++ [newest]))) (done ++ [before] ++ [newest]) =
      done ++ [before] ++ [finished (distance newest.x before.x) newest] := by
  have hspan : spanAtClose (done ++ [before] ++ [newest]) = distance newest.x before.x := by simp [spanAtClose]
  rw [hspan, onNewest_concat, finalizeEntry_unfinished h]

/-- The width of a table is the distance of its first and last stations. -/
theorem tableWidth_concat {table : List TableEntry} {start : Nat} {rest : List Nat} {newest : TableEntry}
    (h : stations (table ++ [newest]) = start :: rest) : tableWidth (table ++ [newest]) = distance newest.x start := by
  obtain _ | ⟨first, table⟩ := table
  · obtain ⟨rfl, -⟩ := List.cons.inj h
    rfl
  · obtain ⟨rfl, -⟩ := List.cons.inj h
    rw [tableWidth, List.getLast?_concat]
    rfl

/-- Settles O42: from the second vertical on, each fetch and the close add their span to a sum that telescopes. -/
theorem panelsCoverTheWidth : Obligations.PanelsCoverTheWidth := by
  intro es hlen hes hline
  obtain _ | ⟨first, _ | ⟨second, rest⟩⟩ := es
  · simp at hlen
  · simp at hlen
  have hstraight : Straight (stations (first :: second :: rest)) :=
    hline.imp (fun h => (h.map _ fun _ _ hab => Nat.le_of_lt hab)) (fun h => (h.map _ fun _ _ hab => Nat.le_of_lt hab))
  have hfirst : Unfinished first := hes first (by simp)
  have hbegun : tableFetched [first] second = [] ++ [finished (distance second.x first.x) first] ++ [second] := by
    rw [tableFetched, spanAtFetch, ← List.nil_append [first], onNewest_concat, finalizeEntry_unfinished hfirst]
    rfl
  have hso : PanelsSoFar first.x [] (finished (distance second.x first.x) first) second := by
    refine ⟨?_, hes second (by simp), ?_⟩
    · rintro e (_ | ⟨_, _ | _⟩)
      rfl
    · rw [List.nil_append, sumPanels_finished]
      simp [finished, distance]
  obtain ⟨done, before, newest, hfold, hend, hthree, hstations⟩ :=
    foldl_tableFetched (fun e he => hes e (by simp [he])) hso hstraight.double
  have hfetched : (first :: second :: rest).foldl tableFetched [] = done ++ [before] ++ [newest] := by
    rw [← hfold, ← hbegun]
    rfl
  have hkept : stations (done ++ [before] ++ [finished (distance newest.x before.x) newest]) =
      stations (first :: second :: rest) := by
    rw [show stations (first :: second :: rest) = stations (done ++ [before] ++ [newest]) from hstations.symm]
    simp [stations, finished]
  intro fetched closed
  have hclosed : closed = done ++ [before] ++ [finished (distance newest.x before.x) newest] := by
    rw [← close_panels done before hend.unfinished, ← hfetched]
    rfl
  rw [hclosed]
  refine ⟨?_, hkept, fun e he => ?_⟩
  · rw [tableWidth_concat hkept, sumPanels_append, hend.spans, sumPanels_finished]
    have hadd := hthree.distance_add
    change _ = 2 * distance newest.x first.x
    omega
  · obtain he | rfl := List.mem_append.1 he |>.imp_right List.mem_singleton.1
    · exact hend.finalized e he
    · rfl

end Sys2Proof.Machine
end

section
/-! SUPPORT. The two clocks (R3, R4), the record that a boundary appends (R27 to R31, R36), and which commands touch
the clocks at all. -/

namespace Sys2Proof.Machine

/-! ## Acts that leave the clocks and the ports as they are -/

/-- From s to t the clocks, the ports and the queue are the same. -/
structure SameBase (s t : State) : Prop where
  clock : t.clock = s.clock := by rfl
  ports : t.ports = s.ports := by rfl
  pending : t.pending = s.pending := by rfl

theorem SameBase.trans {s t u : State} (h : SameBase s t) (h' : SameBase t u) : SameBase s u :=
  ⟨h'.clock.trans h.clock, h'.ports.trans h.ports, h'.pending.trans h.pending⟩

theorem SameBase.ite {s t u : State} {c : Prop} [Decidable c] (h : SameBase s t) (h' : SameBase s u) :
    SameBase s (if c then t else u) := by
  split <;> assumption

theorem SameBase.of_keeps {bs : List Block} {s t : State} (hk : KeepsBut bs s t)
    (hb : .clock ∉ bs ∧ .ports ∉ bs ∧ .pending ∉ bs) : SameBase s t :=
  ⟨hk .clock hb.1, hk .ports hb.2.1, hk .pending hb.2.2⟩

theorem takeReport_sameBase (a : ReportArgs) (s : State) : SameBase s (takeReport a s).1 := by
  have haccepted (t : State) : SameBase t (handAccepted a.cls t) := .of_keeps (handAccepted_keeps _ t) (by decide)
  unfold takeReport
  split
  · refine .trans ?_ (haccepted _)
    exact .ite (.trans {} (.of_keeps (formFloor_keeps _) (by decide))) {}
  · exact .trans {} (haccepted _)
  · exact {}
  · exact {}

/-- The commands that set a clock or let it advance, the resets, and the events that POR itself makes. -/
def setsBase : Instr → Bool
  | .setClock _ _ | .stationClockAdvance | .uptimeAdvance => true
  | .stationReset _ | .resetNActivation | .porAssert | .porRelease => true
  | _ => false

theorem acts_sameBase {i : Instr} {s t : State} (h : Acts i s t) (hi : setsBase i = false) : SameBase s t := by
  have htake (u : State) : SameBase u (takeAttempt u) := .of_keeps (takeAttempt_keeps u) (by decide)
  have hevaluate (u : State) : SameBase u (evaluate u) := .of_keeps (evaluate_keeps u) (by decide)
  have hform (u : State) : SameBase u (formOutputs u) := .of_keeps (formOutputs_keeps u) (by decide)
  cases h with
  | setClock | stationClockAdvance | uptimeAdvance | stationReset | resetNActivation | porAssert | porRelease =>
    simp [setsBase] at hi
  | encoderPhaseChange | pPulse | setHistoryInterval | writeStagedPoint | clearStaged | writeVertical
  | clearVertical | writeMeter | defineSlot | clearRequest | setSlotPriority | readLines | lineForced | lineForcedHeld
  | fetchNotices | setNoticeEnable | setAttention | setRoute | setHash | clearUpstreamCounters => exact {}
  | stageSample => exact .of_keeps (takeSample_keeps s) (by decide)
  | configureStage | checkGauge => exact .trans {} (.of_keeps (startOver_keeps _) (by decide))
  | readHistory | seekHistory => exact .of_keeps (moveCursor_keeps _ _ s) (by decide)
  | setHistoryThreshold => exact .trans {} (.of_keeps (judgeReady_keeps _ _) (by decide))
  | installRating | setShift | setExtrapolationLimit =>
    exact .trans {} (.of_keeps (rateAgain_keeps _) (by decide))
  | armSlot | startRun => exact .trans {} (htake _)
  | intervalTimerExpiry => exact .of_keeps (intervalExpiry_keeps _ s) (by decide)
  | disarmSlot => exact .of_keeps (disarmSlot_keeps _ s) (by decide)
  | positionReached => exact .of_keeps (arrive_keeps _ s) (by decide)
  | depthReached => exact .trans {} (.of_keeps (startSettling_keeps _) (by decide))
  | homeReached => exact .trans {} (.of_keeps (endIdle_keeps _ _) (by decide))
  | proceed => exact .of_keeps (proceedRun_keeps s) (by decide)
  | cancelRun | moveTimerExpiry => exact .of_keeps (recallRun_keeps _ s) (by decide)
  | carriageFault => exact .of_keeps (tripEngine_keeps _ s) (by decide)
  | clearTrip => exact .trans (.of_keeps (enter_keeps .idle s) (by decide)) (htake _)
  | resetEngine => exact .of_keeps (resetEngine_keeps s) (by decide)
  | settleTimerExpiry => exact .of_keeps (startCounting_keeps s) (by decide)
  | countTimerExpiry => exact .of_keeps (endPoint_keeps s) (by decide)
  | pauseTimerExpiry => exact .of_keeps (restartPoint_keeps s) (by decide)
  | homeTimerExpiry => exact .of_keeps (homeExpiry_keeps s) (by decide)
  | setLevelCriteria | setRetreat => exact .trans {} (hevaluate _)
  | setWarningOutput | overrideOn | overrideOff | overrideAuto => exact .trans {} (hform _)
  | silence => exact .of_keeps (takeSilence_keeps s) (by decide)
  | dwellTimerExpiry => exact .of_keeps (dwellExpiry_keeps s) (by decide)
  | upstreamReport => exact takeReport_sameBase _ s
  | setUpstreamEntry => exact SameBase.ite (.trans {} (.of_keeps (formFloor_keeps _) (by decide))) {}
  | setUpstreamFilter => exact .trans {} (.of_keeps (judgeStaleness_keeps _) (by decide))
  | delayTimerExpiry => exact .of_keeps (delayExpiry_keeps _ s) (by decide)
  | staleTimerExpiry => exact .of_keeps (staleExpiry_keeps _ s) (by decide)
  | writeLines => exact .of_keeps (changeLines_keeps _ s) (by decide)
  | configureLine => exact .of_keeps (configureLine_keeps _ _ s) (by decide)
  | linePinChange => exact .trans {} (.of_keeps (pinChange_keeps _ _ _) (by decide))

theorem startOver_clock (s : State) : (startOver s).clock = s.clock := startOver_keeps s .clock (by decide)

theorem endByReset_clock (s : State) : (endByReset s).clock = s.clock := endByReset_keeps s .clock (by decide)

theorem stationReset_clock (s : State) : (stationReset s).clock = s.clock := by
  simp only [stationReset, restoreNotices, startOver_clock, restartSample_clock, stopDwell, endByReset_clock,
    disarmAll, clearLatches, clearNotices, resetPorts]

/-! ## The owners of the clocks (R3, R4) -/

/-- An act of a request moves neither the uptime nor its phase, and the station clock only as SET_CLOCK. -/
theorem acts_request_clock {i : Instr} {s t : State} (h : Acts i s t) (hport : i.port?.isSome = true) :
    t.clock.uptime = s.clock.uptime ∧ t.clock.phase = s.clock.phase ∧
      ((∀ q v, i ≠ .setClock q v) → t.clock = s.clock) := by
  have hsame (h : t.clock = s.clock) : t.clock.uptime = s.clock.uptime ∧ t.clock.phase = s.clock.phase ∧
      ((∀ q v, i ≠ .setClock q v) → t.clock = s.clock) := ⟨by rw [h], by rw [h], fun _ => h⟩
  cases hi : setsBase i
  case false => exact hsame (acts_sameBase h hi).clock
  case true =>
    cases h <;> try cases hi
    case setClock p v => exact ⟨rfl, rfl, fun hno => absurd rfl (hno p v)⟩
    case stationReset => exact hsame (stationReset_clock s)
    all_goals cases hport

/-- Settles O15: by the acts of a request. -/
theorem clockOwners : Obligations.ClockOwners := by
  intro i p s t hp h
  obtain ⟨u, v, hsu, huv, hvt⟩ := everyRunLeads i s t h
  have hu : u.clock = s.clock := hsu.keeps .clock (by decide)
  have hv : t.clock = v.clock := hvt.keeps .clock (by decide)
  rw [hv, ← hu]
  obtain rfl | hact := huv
  · exact ⟨rfl, rfl, fun _ => rfl⟩
  · exact acts_request_clock hact (by rw [hp]; rfl)

/-! ## SET_CLOCK and the advances (R3, R4) -/

section
variable {p : Port} {s : State}

theorem exec_setClock {v : Nat} (htake : Takes p 0x02 s) (hv : v ≤ 4294967295) :
    exec (.setClock p v) s = .next (setReply p ⟨.ok, u32 s.clock.clock⟩
      { closeWindow p s with clock := { s.clock with clock := v, clockPhase := 0 } }) := by
  have hrange : ¬ Config.clockMax < v := Nat.not_lt.2 hv
  change execSetClock p v s = _
  simp [execSetClock, request_taken htake, hrange, okReply]

theorem setClock_refuses {v : Nat} (htake : Takes p 0x02 s) (hv : 4294967295 < v) :
    Refuses (.setClock p v) p s ⟨.range, []⟩ := by
  have hrange : Config.clockMax < v := hv
  refine ⟨rfl, ?_⟩
  change execSetClock p v s = _
  simp [execSetClock, request_taken htake, hrange, rangeReply]

theorem exec_uptimeAdvance (hlive : s.ports.por = false) : exec .uptimeAdvance s = .next (advanceUptime s) :=
  congrArg Host.Outcome.next (unlessPor_live hlive _)

theorem exec_stationClockAdvance (hlive : s.ports.por = false) :
    exec .stationClockAdvance s = .next (advanceClock s) :=
  congrArg Host.Outcome.next (unlessPor_live hlive _)

/-- The station clock one second on (R3). -/
def secondLater (s : State) : State :=
  { s with clock := { s.clock with clock := s.clock.clock + 1, clockPhase := s.clock.clockPhase - 1000 } }

theorem atBoundary_secondLater : atBoundary (secondLater s) = true ↔
    (s.clock.clock + 1) % (s.history.interval * 60) = 0 ∧ s.history.mark < s.clock.clock + 1 := decide_eq_true_iff

theorem advanceClock_boundary (htop : s.clock.clock < 4294967295) (h : atBoundary (secondLater s) = true) :
    advanceClock s = takeBoundary (secondLater s) := (if_pos htop).trans (if_pos h)

theorem advanceClock_within
    (h : 4294967295 ≤ s.clock.clock ∨ (s.clock.clock + 1) % (s.history.interval * 60) ≠ 0 ∨
      s.clock.clock + 1 ≤ s.history.mark) :
    advanceClock s = { s with clock := { s.clock with
      clock := if s.clock.clock < 4294967295 then s.clock.clock + 1 else s.clock.clock
      clockPhase := s.clock.clockPhase - 1000 } } := by
  by_cases htop : s.clock.clock < 4294967295
  · have hno : ¬ atBoundary (secondLater s) = true := by
      rw [atBoundary_secondLater]
      rintro ⟨hmod, hmark⟩
      omega
    rw [if_pos htop]
    exact (if_pos htop).trans (if_neg hno)
  · rw [if_neg htop]
    exact if_neg htop

end

/-! ## A boundary (R27 to R31, R36) -/

/-- The store after a boundary: the record appended, the next interval seeded (R28 to R30). -/
def boundaryHistory (s : State) : HistoryStore :=
  { s.history.appendRecord (closingRecord s) with
    peak := s.stage.stilled, worst := s.stage.status, highest := s.warning.level }

theorem boundaryHistory_ring (s : State) : (boundaryHistory s).ring =
    (if s.history.ring.length < 96 then s.history.ring else s.history.ring.drop 1) ++ [closingRecord s] := by
  by_cases h : s.history.ring.length < 96
  · rw [if_pos h]
    exact congrArg (· ++ _) (if_neg (Nat.not_le.2 h))
  · rw [if_neg h]
    exact congrArg (· ++ _) (if_pos (Nat.not_lt.1 h))

theorem judgeReady_history (p : Port) (s : State) : (judgeReady p s).history = s.history :=
  judgeReady_keeps p s .history (by decide)

theorem judgeReady_ready (p : Port) (s : State) : ((judgeReady p s).notices.port.get p).historyReady =
    decide (s.history.thresholds.get p ≤ s.history.unread (s.history.cursors.get p)) := handReady_historyReady p _ s

theorem takeBoundary_history (s : State) : (takeBoundary s).history = boundaryHistory s :=
  (judgeReady_history .C _).trans ((judgeReady_history .T _).trans (judgeReady_history .L _))

theorem takeBoundary_notified (s : State) : Notified [18] s (takeBoundary s) :=
  .trans (t := { s with history := boundaryHistory s }) (.of_eq rfl) <|
    ((handReady_notified .L _ _).trans (handReady_notified .T _ _)).trans (handReady_notified .C _ _)

/-- Each port's HISTORY_READY is judged by the store after the boundary. -/
theorem takeBoundary_ready (s : State) (p : Port) :
    ((takeBoundary s).notices.port.get p).historyReady = decide ((boundaryHistory s).thresholds.get p ≤
      (boundaryHistory s).unread ((boundaryHistory s).cursors.get p)) := by
  let a : State := { s with history := boundaryHistory s }
  let b := judgeReady .L a
  let c := judgeReady .T b
  have hb : b.history = boundaryHistory s := judgeReady_history .L a
  have hc : c.history = boundaryHistory s := (judgeReady_history .T b).trans hb
  change ((judgeReady .C c).notices.port.get p).historyReady = _
  cases p with
  | L =>
    rw [show (judgeReady .C c).notices.port.get .L = b.notices.port.get .L from
      (handReady_port_other (by decide) _ c).trans (handReady_port_other (by decide) _ b)]
    exact judgeReady_ready .L a
  | T =>
    rw [show (judgeReady .C c).notices.port.get .T = c.notices.port.get .T from
      handReady_port_other (by decide) _ c, ← hb]
    exact judgeReady_ready .T b
  | C =>
    rw [← hc]
    exact judgeReady_ready .C c

/-- Settles O14: the advances by their cases, the boundary by the store that it leaves. -/
theorem clockCommands : Obligations.ClockCommands := by
  refine ⟨fun p v s htake => ⟨exec_setClock htake, setClock_refuses htake⟩, fun s hlive =>
    ⟨⟨_, exec_uptimeAdvance hlive, rfl, rfl, rfl, fun h => if_pos h, fun h => if_neg (Nat.not_lt.2 h)⟩,
      fun h => ?_, fun htop hmod hmark => ?_⟩⟩
  · rw [exec_stationClockAdvance hlive, advanceClock_within h]
  · let u := secondLater s
    have hexec : exec .stationClockAdvance s = .next (takeBoundary u) := by
      rw [exec_stationClockAdvance hlive, advanceClock_boundary htop (atBoundary_secondLater.2 ⟨hmod, hmark⟩)]
    have hhist : (takeBoundary u).history = boundaryHistory u := takeBoundary_history u
    have hkeeps : KeepsBut [.clock, .history, .notices] s (takeBoundary u) := by
      have := advanceClock_keeps s
      rwa [advanceClock_boundary htop (atBoundary_secondLater.2 ⟨hmod, hmark⟩)] at this
    refine ⟨takeBoundary u, hexec, takeBoundary_keeps u .clock (by decide), hkeeps, ?_⟩
    rw [hhist]
    exact ⟨boundaryHistory_ring u, rfl, rfl, rfl, rfl, rfl, ((takeBoundary_notified u).congr rfl rfl).kept, rfl, rfl,
      rfl,
      takeBoundary_ready u⟩

end Sys2Proof.Machine
end

section
/-! SUPPORT. What falls due (R3 to R5; log entry 2): the list of the part's timers holds each due command, in the
order of their ranks, so that its first due entry is the due command of the least rank. -/

namespace Sys2Proof.Machine

/-! ## The first due entry of a ranked list -/

/-- In a list whose commands stand in strictly rising rank, the first due one is the due one of the least rank. -/
theorem find_due_iff {l : List (Bool × Instr)} (h : l.Pairwise fun a b => dueRank a.2 < dueRank b.2) (c : Instr) :
    (l.find? Prod.fst).map Prod.snd = some c ↔ (true, c) ∈ l ∧ ∀ d, (true, d) ∈ l → dueRank c ≤ dueRank d := by
  induction l with
  | nil => simp
  | cons a l ih =>
    obtain ⟨due, x⟩ := a
    obtain ⟨hx, hl⟩ := List.pairwise_cons.1 h
    cases due with
    | false => simpa using ih hl
    | true =>
      have hmin (d : Instr) (hd : (true, d) ∈ l) : dueRank x < dueRank d := hx _ hd
      rw [List.find?_cons_of_pos rfl, Option.map_some, Option.some.injEq]
      constructor
      · rintro rfl
        refine ⟨List.mem_cons_self, fun d hd => ?_⟩
        obtain hd | hd := List.mem_cons.1 hd
        · rw [(Prod.mk.inj hd).2]
        · exact (hmin d hd).le
      · rintro ⟨hc, hleast⟩
        obtain hc | hc := List.mem_cons.1 hc
        · exact (Prod.mk.inj hc).2.symm
        · exact absurd (hleast x List.mem_cons_self) (hmin c hc).not_ge

theorem find_due_eq_none {l : List (Bool × Instr)} (h : ∀ c, (true, c) ∉ l) :
    (l.find? Prod.fst).map Prod.snd = none := by
  rw [Option.map_eq_none_iff, List.find?_eq_none]
  rintro ⟨due, c⟩ hc rfl
  exact h c hc

/-! ## Timers that have come -/

theorem dueBy_iff (x : Timer) (now : Nat) : x.dueBy now = true ↔ TimeCome x now := by
  cases x <;> simp [Timer.dueBy, TimeCome]

theorem TimeCome.runs {x : Timer} {now : Nat} (h : TimeCome x now) : x.isRunning = true := by
  obtain ⟨due, rfl, -⟩ := h
  rfl

/-- A timer that acts in some states is due in those states only. -/
theorem runs_dueBy_iff (states : Bool) (x : Timer) (now : Nat) :
    (states && x.isRunning && x.dueBy now) = true ↔ states = true ∧ TimeCome x now := by
  rw [Bool.and_eq_true, Bool.and_eq_true, dueBy_iff]
  exact ⟨fun ⟨⟨hst, _⟩, hcome⟩ => ⟨hst, hcome⟩, fun ⟨hst, hcome⟩ => ⟨⟨hst, hcome.runs⟩, hcome⟩⟩

theorem delayDue_iff (s : State) (i : Nat) :
    delayDue s i = true ↔ ∃ x rest, (entryAt s i).queue = x :: rest ∧ x.effective ≤ nowMs s := by
  unfold delayDue
  split <;> simp_all

theorem staleAt_iff (s : State) (i : Nat) :
    staleAt s.upstream.staleLimit (nowMs s) (entryAt s i) = true ↔ (entryAt s i).stale = false ∧
      ∃ r, (entryAt s i).last = some r ∧ r.arrival + s.upstream.staleLimit * 60000 ≤ nowMs s := by
  cases hstale : (entryAt s i).stale <;> cases hlast : (entryAt s i).last <;> simp [staleAt, staleDue, hstale, hlast]

/-! ## The list of the timers -/

theorem dueList_ranks (s : State) : (dueList s).map (fun x => dueRank x.2) = List.range 45 := rfl

theorem dueList_pairwise (s : State) : (dueList s).Pairwise fun a b => dueRank a.2 < dueRank b.2 := by
  have h := List.pairwise_lt_range (n := 45)
  rwa [← dueList_ranks s, List.pairwise_map] at h

section
variable {s : State}

theorem intervalDue_iff (k : Nat) : (intervalRuns k s && (slotAt s k).timer.dueBy (nowMs s)) = true ↔
    (slotAt s k).armed = true ∧ TimeCome (slotAt s k).timer (nowMs s) := runs_dueBy_iff ..

theorem moveDue_iff : (moveRuns s && s.engine.moveTimer.dueBy (nowMs s)) = true ↔
    (s.engine.state = .moving ∨ s.engine.state = .lowering) ∧ TimeCome s.engine.moveTimer (nowMs s) := by
  rw [moveRuns, runs_dueBy_iff]
  simp

theorem settleDue_iff : (settleRuns s && s.engine.settleTimer.dueBy (nowMs s)) = true ↔
    s.engine.state = .settling ∧ TimeCome s.engine.settleTimer (nowMs s) := by
  rw [settleRuns, runs_dueBy_iff, beq_iff_eq]

theorem countDue_iff : (countRuns s && s.engine.countTimer.dueBy (nowMs s)) = true ↔
    s.engine.state = .counting ∧ TimeCome s.engine.countTimer (nowMs s) := by
  rw [countRuns, runs_dueBy_iff, beq_iff_eq]

theorem pauseDue_iff : (pauseRuns s && s.engine.pauseTimer.dueBy (nowMs s)) = true ↔
    s.engine.state = .counting ∧ TimeCome s.engine.pauseTimer (nowMs s) := by
  rw [pauseRuns, runs_dueBy_iff, beq_iff_eq]

theorem homeDue_iff : (homeRuns s && s.engine.homeTimer.dueBy (nowMs s)) = true ↔
    s.engine.state = .homing ∧ TimeCome s.engine.homeTimer (nowMs s) := by
  rw [homeRuns, runs_dueBy_iff, beq_iff_eq]

/-- Every due entry of the list is a command whose time has come. -/
theorem dueNow_of_mem {c : Instr} (h : (true, c) ∈ dueList s) : DueNow c s := by
  simp only [dueList, List.mem_append, List.mem_cons, List.mem_map, List.mem_range, Prod.mk.injEq,
    List.not_mem_nil, or_false] at h
  obtain ((((⟨h, rfl⟩ | ⟨h, rfl⟩ | ⟨h, rfl⟩ | ⟨h, rfl⟩ | ⟨h, rfl⟩ | ⟨h, rfl⟩ | ⟨h, rfl⟩ | ⟨h, rfl⟩) |
    ⟨k, hk, h, rfl⟩) | ⟨k, hk, h, rfl⟩) | ⟨k, hk, h, rfl⟩) | ⟨h, rfl⟩ := h
  · have hcome := of_decide_eq_true h.symm
    exact hcome
  · have hcome := of_decide_eq_true h.symm
    exact hcome
  · exact moveDue_iff.1 h.symm
  · exact settleDue_iff.1 h.symm
  · exact countDue_iff.1 h.symm
  · exact pauseDue_iff.1 h.symm
  · exact homeDue_iff.1 h.symm
  · exact (dueBy_iff _ _).1 h.symm
  · exact ⟨hk, (intervalDue_iff k).1 h⟩
  · exact ⟨hk, (delayDue_iff s k).1 h⟩
  · exact ⟨hk, (staleAt_iff s k).1 h⟩
  · have hcome := of_decide_eq_true h.symm
    exact hcome

/-- Every command whose time has come is a due entry of the list. -/
theorem mem_of_dueNow {c : Instr} (h : DueNow c s) : (true, c) ∈ dueList s := by
  cases c with
  | stationClockAdvance | stageSample | uptimeAdvance => simpa [dueList, DueNow] using h
  | moveTimerExpiry => simp [dueList, -Bool.and_eq_true, moveDue_iff.2 h]
  | settleTimerExpiry => simp [dueList, settleDue_iff.2 h]
  | countTimerExpiry => simp [dueList, countDue_iff.2 h]
  | pauseTimerExpiry => simp [dueList, pauseDue_iff.2 h]
  | homeTimerExpiry => simp [dueList, homeDue_iff.2 h]
  | dwellTimerExpiry => simp [dueList, (dueBy_iff _ _).2 h]
  | intervalTimerExpiry k =>
    obtain ⟨hk, hcome⟩ := h
    have hmem := (intervalDue_iff k).2 hcome
    simp only [dueList, List.mem_append, List.mem_map, List.mem_range]
    exact .inl (.inl (.inl (.inr ⟨k, hk, by rw [hmem]⟩)))
  | delayTimerExpiry k =>
    obtain ⟨hk, hcome⟩ := h
    have hmem := (delayDue_iff s k).2 hcome
    simp only [dueList, List.mem_append, List.mem_map, List.mem_range]
    exact .inl (.inl (.inr ⟨k, hk, by rw [hmem]⟩))
  | staleTimerExpiry k =>
    obtain ⟨hk, hcome⟩ := h
    have hmem := (staleAt_iff s k).2 hcome
    simp only [dueList, List.mem_append, List.mem_map, List.mem_range]
    exact .inl (.inr ⟨k, hk, by rw [hmem]⟩)
  | _ => exact h.elim

theorem mem_dueList (c : Instr) : (true, c) ∈ dueList s ↔ DueNow c s := ⟨dueNow_of_mem, mem_of_dueNow⟩

end

/-- Settles O2: the queue is empty, so a step takes the first due entry of the list, or lets a millisecond pass. -/
theorem stepWhileIdle : Obligations.StepWhileIdle := by
  intro s hs
  have hstep : step s = .next (idle s) := by simp only [step, hs]
  have hfirst (c : Instr) : dueCommand s = some c ↔ DueNow c s ∧ ∀ d, DueNow d s → dueRank c ≤ dueRank d := by
    simpa only [dueCommand, mem_dueList] using find_due_iff (dueList_pairwise s) c
  refine ⟨fun hpor => ?_, fun hlive => ⟨hfirst, fun c hc hleast => ?_, fun hnone => ?_⟩⟩
  · rw [hstep, idle, if_pos hpor]
  · have hdue := (hfirst c).2 ⟨hc, hleast⟩
    simp only [hstep, idle, hlive, hdue, Bool.false_eq_true, if_false]
  · have hdue : dueCommand s = none := find_due_eq_none fun c hc => hnone c ((mem_dueList c).1 hc)
    refine ⟨hdue, ?_⟩
    simp only [hstep, idle, hlive, hdue, Bool.false_eq_true, if_false]
    rfl

end Sys2Proof.Machine
end

section
/-! SUPPORT. A tripped engine (R110 to R113): no step of a run's course moves it, and every command that drives the
run is given in another state. -/

namespace Sys2Proof.Machine

/-- The engine is TRIPPED with this record, and the results are these. -/
structure TrippedWith (record : TripRecord) (results : ResultStore) (s : State) : Prop where
  state : s.engine.state = .tripped
  trip : s.engine.trip = record
  results : s.results = results

section
variable {record : TripRecord} {results : ResultStore} {s t : State}

theorem TrippedWith.congr (hs : TrippedWith record results s) (he : t.engine = s.engine)
    (hr : t.results = s.results) : TrippedWith record results t :=
  ⟨by rw [he]; exact hs.state, by rw [he]; exact hs.trip, by rw [hr]; exact hs.results⟩

theorem keptByRun_trippedWith : KeptByRun (TrippedWith record results) where
  take s hs := by rwa [takeAttempt_busy (by simp [hs.state])]
  recalled s cause hr hs := by simp [hs.state, RunState.recallable] at hr
  pulse s hs := by rwa [meterPulse, if_neg (by simp [hs.state])]
  settled s active hs := by rwa [settledPassage, if_neg (by simp [hs.state])]
  trip s record hs := by rwa [tripEngine, if_pos hs.state]
  reset s hs := by rwa [endByReset, if_neg (by simp [hs.state, RunState.runActive])]

theorem course_trippedWith (h : Course s t) (hs : TrippedWith record results s) : TrippedWith record results t :=
  keptByRun_trippedWith.course_of_beside (fun _ _ hb hs => hs.congr hb.engine hb.results) h hs

/-- The commands that R111, R112 and R207 name. -/
def leavesTripped : Instr → Bool
  | .clearTrip _ | .resetEngine _ | .porAssert | .porRelease => true
  | _ => false

theorem acts_trippedWith {i : Instr} (h : Acts i s t) (hi : leavesTripped i = false)
    (hs : TrippedWith record results s) : TrippedWith record results t := by
  have hstate := hs.state
  cases hd : drivesRun i
  case false => exact course_trippedWith (acts_course h hd) hs
  case true =>
    cases h <;> try cases hd
    case positionReached hst => simp [hst] at hstate
    case depthReached hst => simp [hst] at hstate
    case homeReached hst => simp [hst] at hstate
    case proceed hst => simp [hst] at hstate
    case clearTrip => cases hi
    case resetEngine => cases hi
    case settleTimerExpiry hruns => simp [settleRuns, hstate] at hruns
    case countTimerExpiry hruns => simp [countRuns, hstate] at hruns
    case pauseTimerExpiry hruns => simp [pauseRuns, hstate] at hruns
    case homeTimerExpiry hruns => simp [homeRuns, hstate] at hruns
    case stationClockAdvance =>
      exact hs.congr (advanceClock_keeps s .engine (by decide)) (advanceClock_keeps s .results (by decide))
    case writeStagedPoint => exact hs.congr rfl rfl
    case clearStaged => exact hs.congr rfl rfl
    case installRating => exact course_trippedWith (rateAgain_course _) (hs.congr rfl rfl)
    case setSlotPriority => exact hs.congr rfl rfl
    case porAssert => cases hi
    case porRelease => cases hi

end

/-- Settles O40: every act of another command keeps the tripped engine with its record. -/
theorem trippedStays : Obligations.TrippedStays := by
  intro i s t hs h hclear hreset hassert hrelease
  have hi : leavesTripped i = false := by
    cases i with
    | clearTrip p => exact absurd rfl (hclear p)
    | resetEngine p => exact absurd rfl (hreset p)
    | porAssert => exact absurd rfl hassert
    | porRelease => exact absurd rfl hrelease
    | _ => rfl
  obtain ⟨u, v, hsu, huv, hvt⟩ := everyRunLeads i s t h
  have hu : TrippedWith s.engine.trip s.results u :=
    .congr ⟨hs, rfl, rfl⟩ (hsu.keeps .engine (by decide)) (hsu.keeps .results (by decide))
  have hv : TrippedWith s.engine.trip s.results v := by
    obtain rfl | hact := huv
    · exact hu
    · exact acts_trippedWith hact hi hu
  have ht := hv.congr (hvt.keeps .engine (by decide)) (hvt.keeps .results (by decide))
  exact ⟨ht.state, ht.trip, ht.results⟩

end Sys2Proof.Machine
end

section
/-! SUPPORT. What a station reset makes of the rest of the part does not depend on the ports: each of its parts,
from the notices' emptying to the offer of STARTING, commutes with a change of the ports (R205, R206). -/

namespace Sys2Proof.Machine

/-- A state with other ports. -/
def onPorts (x : PortUnit) (s : State) : State := { s with ports := x }

theorem onPorts_keeps (x : PortUnit) (s : State) : KeepsBut [.ports] s (onPorts x s) := by
  intro b hb
  cases b <;> first | rfl | simp at hb

section
variable (x : PortUnit) (s : State)

/-! ## Lines, and the states of the engine -/

theorem raiseIf_onPorts (v : Bool) (e : Source) : raiseIf v e (onPorts x s) = onPorts x (raiseIf v e s) := by
  cases v <;> rfl

theorem changeLines_onPorts (f : FieldLines) : changeLines f (onPorts x s) = onPorts x (changeLines f s) := by
  unfold changeLines judgeLines
  rw [← raiseIf_onPorts]
  rfl

theorem handPermit_onPorts (v : Permit) : handPermit v (onPorts x s) = onPorts x (handPermit v s) := by
  unfold handPermit
  rw [apply_ite (onPorts x), ← changeLines_onPorts]
  rfl

theorem handDriven_onPorts (v : Vector Bool 4) : handDriven v (onPorts x s) = onPorts x (handDriven v s) := by
  unfold handDriven
  rw [apply_ite (onPorts x), ← changeLines_onPorts]
  rfl

theorem enter_onPorts (st : RunState) : enter st (onPorts x s) = onPorts x (enter st s) := by
  have hconditions (t : State) : onPorts x (handCondition .trip (st == .tripped)
      (handCondition .proceedWanted (st == .holding) (handCondition .carriageWanted st.carriageWanted t))) =
      handCondition .trip (st == .tripped) (handCondition .proceedWanted (st == .holding)
        (handCondition .carriageWanted st.carriageWanted (onPorts x t))) := rfl
  unfold enter
  rw [hconditions, ← handPermit_onPorts]
  rfl

/-! ## Closes, recalls and the end of a run -/

theorem closeIfOpen_onPorts (cause : EndCause) : closeIfOpen cause (onPorts x s) = onPorts x (closeIfOpen cause s) := by
  unfold closeIfOpen
  rw [apply_ite (onPorts x)]
  rfl

/-- An operation on the engine's records alone. -/
theorem withEngine_onPorts (e : RunEngine) : withEngine e (onPorts x s) = onPorts x (withEngine e s) := rfl

theorem stopTimers_onPorts : stopTimers (onPorts x s) = onPorts x (stopTimers s) := rfl

theorem recallRun_onPorts (cause : EndCause) : recallRun cause (onPorts x s) = onPorts x (recallRun cause s) := by
  unfold recallRun
  dsimp only
  rw [stopTimers_onPorts, closeIfOpen_onPorts, withEngine_onPorts, enter_onPorts]
  rfl

theorem planEnd_onPorts (cause : EndCause) : planEnd cause (onPorts x s) = onPorts x (planEnd cause s) := by
  have hactive : (onPorts x s).plan.activeSlot = s.plan.activeSlot := rfl
  unfold planEnd
  rw [hactive]
  cases s.plan.activeSlot with
  | none => rfl
  | some k => by_cases h : cause = .complete <;> simp only [h, if_true, if_false] <;> rfl

theorem endRun_onPorts (cause : EndCause) : endRun cause (onPorts x s) = onPorts x (endRun cause s) := by
  unfold endRun
  rw [← planEnd_onPorts]
  rfl

theorem endByReset_onPorts : endByReset (onPorts x s) = onPorts x (endByReset s) := by
  unfold endByReset
  rw [apply_ite (onPorts x), ← endRun_onPorts, ← enter_onPorts, ← closeIfOpen_onPorts]
  rfl

/-! ## Fetches and takes -/

theorem enterMove_onPorts (st : RunState) : enterMove st (onPorts x s) = onPorts x (enterMove st s) := by
  unfold enterMove
  rw [enter_onPorts]
  rfl

theorem fetch_onPorts : fetch (onPorts x s) = onPorts x (fetch s) := by
  have hfault : fetchFault (onPorts x s) (poolRecord (onPorts x s) (nextIndex (onPorts x s))) =
      fetchFault s (poolRecord s (nextIndex s)) := rfl
  unfold fetch
  simp only [hfault]
  cases fetchFault s (poolRecord s (nextIndex s)) with
  | none =>
    change fetchRecord _ _ _ = onPorts x (fetchRecord _ _ _)
    unfold fetchRecord
    rw [← enterMove_onPorts]
    rfl
  | some cause => exact recallRun_onPorts x s cause

theorem takeSlot_onPorts (k : Nat) : takeSlot k (onPorts x s) = onPorts x (takeSlot k s) := by
  unfold takeSlot startRun startPass
  rw [← fetch_onPorts]
  rfl

theorem takeAttempt_onPorts : takeAttempt (onPorts x s) = onPorts x (takeAttempt s) := by
  have heligible : eligibleSlot (onPorts x s) = eligibleSlot s := rfl
  unfold takeAttempt
  rw [heligible]
  cases eligibleSlot s with
  | none => rfl
  | some k => exact takeSlot_onPorts x s k

/-! ## Evaluations and offers -/

theorem retreatRecall_onPorts : retreatRecall (onPorts x s) = onPorts x (retreatRecall s) := by
  unfold retreatRecall
  rw [apply_ite (onPorts x), ← recallRun_onPorts]
  rfl

theorem handLevelChange_onPorts (c : Nat × Nat) :
    handLevelChange (onPorts x s) c = onPorts x (handLevelChange s c) := by
  unfold handLevelChange judgeLevelTriggers
  dsimp only
  rw [apply_ite (onPorts x), ← takeAttempt_onPorts]
  rfl

theorem foldl_onPorts {α : Type} {f : State → α → State} (h : ∀ s a, f (onPorts x s) a = onPorts x (f s a))
    (as : List α) : as.foldl f (onPorts x s) = onPorts x (as.foldl f s) :=
  List.foldl_hom (onPorts x) h

theorem formOutputs_onPorts : formOutputs (onPorts x s) = onPorts x (formOutputs s) := by
  unfold formOutputs
  rw [← handDriven_onPorts]
  rfl

theorem retreatHanded_onPorts (changes : List (Nat × Nat)) :
    retreatHanded changes (onPorts x s) = onPorts x (retreatHanded changes s) := by
  unfold retreatHanded
  dsimp only
  rw [foldl_onPorts x s fun _ _ => rfl]
  rfl

theorem retreatJudged_onPorts (changes : List (Nat × Nat)) :
    retreatJudged changes (onPorts x s) = onPorts x (retreatJudged changes s) := by
  unfold retreatJudged
  rw [apply_ite (onPorts x), ← retreatRecall_onPorts, ← retreatHanded_onPorts]
  rfl

theorem handOn_onPorts (changes : List (Nat × Nat)) : handOn changes (onPorts x s) = onPorts x (handOn changes s) := by
  have heq (t : State) : handOn changes t =
      let u := formOutputs (changes.foldl handLevelChange (retreatJudged changes t))
      if t.warning.retreat && !retreatAfter t.warning t.stage.stilled then takeAttempt u else u := handOn_eq changes t
  rw [heq, heq]
  dsimp only
  rw [apply_ite (onPorts x), ← takeAttempt_onPorts, ← formOutputs_onPorts,
    ← foldl_onPorts x _ fun t c => handLevelChange_onPorts x t c, ← retreatJudged_onPorts]
  rfl

theorem evaluate_onPorts : evaluate (onPorts x s) = onPorts x (evaluate s) := by
  unfold evaluate
  rw [← handOn_onPorts]
  rfl

theorem offerToPlan_onPorts : offerToPlan (onPorts x s) = onPorts x (offerToPlan s) := by
  unfold offerToPlan
  rw [← takeAttempt_onPorts]
  rfl

theorem offer_onPorts : offer (onPorts x s) = onPorts x (offer s) := by
  have hrated : evaluate (recomputeDischarge (onPorts x s).stage.stilled (onPorts x s)) =
      onPorts x (evaluate (recomputeDischarge s.stage.stilled s)) := by
    rw [← evaluate_onPorts]
    rfl
  unfold offer
  rw [hrated, ← offerToPlan_onPorts]
  rfl

theorem startOver_onPorts : startOver (onPorts x s) = onPorts x (startOver s) := by
  unfold startOver setStatus
  rw [← offer_onPorts, ← raiseIf_onPorts]
  rfl

/-! ## The station reset -/

/-- A station reset after it has reached the ports (R205). -/
def resetBesidePorts (s : State) : State :=
  let t := stopDwell (endByReset (disarmAll (clearLatches (clearNotices s))))
  restoreNotices (startOver (restartSample { t with stage := t.stage.atReset }))

theorem resetBesidePorts_onPorts : resetBesidePorts (onPorts x s) = onPorts x (resetBesidePorts s) := by
  have hcleared : disarmAll (clearLatches (clearNotices (onPorts x s))) =
      onPorts x (disarmAll (clearLatches (clearNotices s))) := rfl
  have hrestored (t : State) : restoreNotices (onPorts x t) = onPorts x (restoreNotices t) := rfl
  unfold resetBesidePorts
  rw [hcleared, endByReset_onPorts, ← hrestored, ← startOver_onPorts]
  rfl

/-- The ports apart, a station reset makes the same of two states that differ in their ports only. -/
theorem stationReset_onPorts : KeepsBut [.ports] (stationReset s) (stationReset (onPorts x s)) := by
  have hreset (t : State) : stationReset t = resetBesidePorts (resetPorts t) := by
    simp only [stationReset, resetBesidePorts]
  have hports (y : PortUnit) : resetPorts (onPorts y s) = onPorts (resetPorts (onPorts y s)).ports s := rfl
  have hs : resetPorts s = onPorts (resetPorts s).ports s := rfl
  rw [hreset, hreset, hs, hports x, resetBesidePorts_onPorts, resetBesidePorts_onPorts]
  generalize resetBesidePorts s = t
  exact onPorts_keeps _ (onPorts _ t)

end

end Sys2Proof.Machine
end

section
/-! SUPPORT. The reset inputs (R206, R207): what POR and RESET_N make of the windows, and that a part held by POR sees
its inputs and windows only. -/

namespace Sys2Proof.Machine

/-! ## The windows at a reset (R201, R205) -/

/-- Every window that is open is to be discarded. -/
def WindowsDiscarded (t : State) : Prop := ∀ p w, (t.ports.port.get p).window = some w → w.discard = true

theorem atReset_window {x : PortState} {w : OpenWindow} (h : x.atReset.window = some w) : w.discard = true := by
  obtain ⟨v, -, rfl⟩ := Option.map_eq_some_iff.1 h
  rfl

theorem powerOn_windowsDiscarded (por : Bool) (s : State) : WindowsDiscarded (powerOn por s) := by
  intro p w hw
  rw [powerOn, PerPort.get_mapPorts] at hw
  exact atReset_window hw

theorem stationReset_windowsDiscarded (s : State) : WindowsDiscarded (stationReset s) := by
  intro p w hw
  rw [stationReset_ports, resetPorts, PerPort.get_mapPorts] at hw
  exact atReset_window hw

theorem stationReset_resetN (s : State) : (stationReset s).ports.resetN = s.ports.resetN := by
  rw [stationReset_ports]
  rfl

/-! ## While POR is active (R207) -/

/-- Nothing but the inputs and the windows is seen from s to t. -/
structure Seen (s t : State) : Prop where
  keeps : KeepsBut [.stage, .lines, .ports] s t
  stage : { t.stage with phaseA := s.stage.phaseA, phaseB := s.stage.phaseB } = s.stage
  lines : { t.lines with line := s.lines.line } = s.lines
  line : ∀ n, n < 16 →
    { lineAt t n with forced := (lineAt s n).forced, pin := (lineAt s n).pin } = lineAt s n
  buffer : ∀ p, bufferOf p t = bufferOf p s

theorem Seen.refl (s : State) : Seen s s := ⟨.refl _ s, rfl, rfl, fun _ _ => rfl, fun _ => rfl⟩

theorem Seen.trans {s t u : State} (h : Seen s t) (h' : Seen t u) : Seen s u where
  keeps := h.keeps.trans h'.keeps
  stage := (congrArg (fun x : StageUnit => { x with phaseA := s.stage.phaseA, phaseB := s.stage.phaseB })
    h'.stage).trans h.stage
  lines := (congrArg (fun x : FieldLines => { x with line := s.lines.line }) h'.lines).trans h.lines
  line n hn := (congrArg (fun x : FieldLine => { x with forced := (lineAt s n).forced, pin := (lineAt s n).pin })
    (h'.line n hn)).trans (h.line n hn)
  buffer p := (h'.buffer p).trans (h.buffer p)

/-- A change of the ports that leaves the buffers. -/
theorem Seen.of_ports {s t : State} (hk : KeepsBut [.ports] s t) (hb : ∀ p, bufferOf p t = bufferOf p s) :
    Seen s t := by
  have hstage : t.stage = s.stage := hk .stage (by decide)
  have hlines : t.lines = s.lines := hk .lines (by decide)
  exact ⟨hk.mono (by decide), by rw [hstage], by rw [hlines], fun n _ => by rw [lineAt, hlines]; rfl, hb⟩

theorem closeWindow_seen (p : Port) (s : State) : Seen s (closeWindow p s) :=
  .of_ports (setPort_keeps _ _ _) fun q => bufferOf_closeWindow p q s

theorem openWindow_seen (p : Port) (s : State) : Seen s (openWindow p s) := by
  cases h : (s.ports.port.get p).window with
  | some w =>
    rw [openWindow_open (by simp [h])]
    exact .refl s
  | none =>
    rw [openWindow_closed h]
    refine .of_ports (setPort_keeps _ _ _) fun q => ?_
    by_cases hq : q = p
    · subst hq
      rw [bufferOf, setPort, PerPort.get_set_self, bufferOf]
    · rw [bufferOf, setPort_other hq, bufferOf]

theorem withResetN_seen (v : Bool) (s : State) : Seen s (withResetN v s) :=
  .of_ports (onPorts_keeps _ s) fun _ => rfl

theorem withPhases_seen (a b : Level) (s : State) :
    Seen s { s with stage := { s.stage with phaseA := a, phaseB := b } } :=
  ⟨(withStage_keeps _ s).mono (by decide), rfl, rfl, fun _ _ => rfl, fun _ => rfl⟩

/-- A line whose pin and forced level alone change. -/
theorem putLine_seen {i : Nat} {x : FieldLine} {s : State}
    (hx : { x with forced := (lineAt s i).forced, pin := (lineAt s i).pin } = lineAt s i) :
    Seen s { s with lines := { s.lines with line := put s.lines.line i x } } := by
  refine ⟨fun b hb => ?_, rfl, rfl, fun n hn => ?_, fun _ => rfl⟩
  · cases b <;> simp at hb <;> rfl
  by_cases h : n = i
  · subst h
    rw [lineAt, at'_put_self _ hn]
    exact hx
  · rw [lineAt, at'_put_other _ h]
    rfl

theorem execLinePinChange_seen (i : Nat) (outside : Option Level) {s : State} (hpor : s.ports.por = true) :
    ∃ t, exec (.linePinChange i outside) s = .next t ∧ Seen s t := by
  have hforced : Seen s (setForced i outside s) := putLine_seen rfl
  refine ⟨_, rfl, ?_⟩
  dsimp only
  rw [if_pos hpor]
  split
  · exact .refl s
  · split
    · exact hforced
    · exact hforced.trans (putLine_seen rfl)

/-- An event that POR holds off. -/
theorem exec_held {i : Instr} {f : State → State} {s : State} (hexec : exec i s = .next (unlessPor s f))
    (hpor : s.ports.por = true) : ∃ t, exec i s = .next t ∧ Seen s t :=
  ⟨s, by rw [hexec, unlessPor_por hpor], .refl s⟩

/-- A command of a port whose windows are all to be discarded. -/
theorem exec_port_seen {i : Instr} {p : Port} {s : State} (hp : i.port? = some p) (hpor : s.ports.por = true) :
    ∃ t, exec i s = .next t ∧ Seen s t := by
  have hdead : windowDead p s = true := by simp [windowDead, hpor]
  by_cases h : i = .windowOpen p
  · subst h
    exact ⟨_, rfl, openWindow_seen p s⟩
  · exact ⟨_, (everyReleases i p hp h).exec_dead hdead, closeWindow_seen p s⟩

/-- Of every command but POR's own, a part held by POR sees the inputs and the windows. -/
theorem exec_seen {i : Instr} {s : State} (hpor : s.ports.por = true) (hassert : i ≠ .porAssert)
    (hrelease : i ≠ .porRelease) : ∃ t, exec i s = .next t ∧ Seen s t := by
  cases hp : i.port?
  case some p => exact exec_port_seen hp hpor
  case none =>
    cases i <;> simp only [Instr.port?, reduceCtorEq] at hp
    case resetNActivation => exact ⟨_, congrArg Host.Outcome.next (if_pos (by simp [hpor])), withResetN_seen true s⟩
    case resetNRelease => exact ⟨_, rfl, withResetN_seen false s⟩
    case porAssert => exact absurd rfl hassert
    case porRelease => exact absurd rfl hrelease
    case encoderPhaseChange a b =>
      refine ⟨_, ?_, withPhases_seen a b s⟩
      change Host.Outcome.next { s with stage := if s.ports.por then _ else _ } = _
      rw [if_pos hpor]
    case linePinChange i outside => exact execLinePinChange_seen i outside hpor
    all_goals exact exec_held rfl hpor

/-! ## RESET_N (R206) -/

theorem withResetN_self {s : State} (h : s.ports.resetN = true) : withResetN true s = s := by
  rw [← h]
  rfl

/-- Settles O12: a station reset at the activation of RESET_N is that of STATION_RESET, the ports apart. -/
theorem resetInputs : Obligations.ResetInputs := by
  intro s
  refine ⟨⟨_, rfl, rfl, rfl⟩, ?_, rfl, fun hpor hreset => ?_, fun hreset => ?_, fun hpor i hassert hrelease => ?_⟩
  · cases hpor : s.ports.por with
    | false => exact ⟨s, congrArg Host.Outcome.next (if_neg (by simp [hpor])), hpor, rfl, nofun⟩
    | true => exact ⟨_, congrArg Host.Outcome.next (if_pos hpor), rfl, rfl, fun _ => powerOn_windowsDiscarded false s⟩
  · refine ⟨stationReset (withResetN true s), stationReset (closeWindow .L s),
      congrArg Host.Outcome.next (if_neg (by simp [hpor, hreset])), stationReset_resetN _,
      fun p => bufferOf_stationReset p _, stationReset_windowsDiscarded _, fun hlive => ⟨?_, ?_⟩⟩
    · exact congrArg Host.Outcome.next ((if_neg (by simp [hlive])).trans (if_pos (by decide)))
    · exact stationReset_onPorts { s.ports with resetN := true } (closeWindow .L s)
  · refine congrArg Host.Outcome.next ((if_pos (by simp [hreset])).trans (withResetN_self hreset))
  · obtain ⟨t, hexec, hseen⟩ := exec_seen hpor hassert hrelease
    exact ⟨t, hexec, hseen.keeps, hseen.stage, hseen.lines, hseen.line, hseen.buffer⟩

end Sys2Proof.Machine
end

section
/-! SUPPORT. The requests that only read (section 11.4): each hands its port an answer made from the state, and
changes nothing else. -/

namespace Sys2Proof.Machine

/-! ## Every read answers -/

/-- What a read may answer. -/
def Reply.isAnswer (r : Reply) : Prop := r.status = .ok ∨ r.status = .empty ∨ r.status = .range

theorem isAnswer_ite {c : Prop} [Decidable c] {a b : Reply} (ha : a.isAnswer) (hb : b.isAnswer) :
    (if c then a else b).isAnswer := by
  split
  · exact ha
  · exact hb

theorem okReply_isAnswer (data : List Byte) : (okReply data).isAnswer := .inl rfl

theorem emptyReply_isAnswer (data : List Byte) : (emptyReply data).isAnswer := .inr (.inl rfl)

theorem rangeReply_isAnswer (data : List Byte) : (rangeReply data).isAnswer := .inr (.inr rfl)

theorem resultReply_isAnswer (log : List PassResult) (x : ResultSelector) : (resultReply log x).isAnswer := by
  refine isAnswer_ite ?_ (rangeReply_isAnswer _)
  cases selectResult log x with
  | some r => exact okReply_isAnswer _
  | none => exact emptyReply_isAnswer _

theorem entryReply_isAnswer (r : ResultStore) (n : Nat) : (entryReply r n).isAnswer := by
  refine isAnswer_ite ?_ (rangeReply_isAnswer _)
  cases r.table[n - 1]? with
  | some e => exact okReply_isAnswer _
  | none => exact emptyReply_isAnswer _

/-- A request of a read's code answers, and changes its port's buffer and window only. -/
def AnswersIfRead (i : Instr) : Prop :=
  ∀ p e s, encodeRequest i = some e → i.port? = some p → e.1 ∈ readCodes → Takes p e.1 s →
    ∃ r : Reply, exec i s = .next (setReply p r (closeWindow p s)) ∧ r.isAnswer

theorem AnswersIfRead.of_read {i : Instr} {p : Port} {code : Nat} {data : List Byte} {answer : State → Reply}
    (hport : i.port? = some p) (frame : encodeRequest i = some (code, data))
    (taken : ∀ s, exec i s = .next (readRequest code p s answer)) (hanswer : ∀ s, (answer s).isAnswer) :
    AnswersIfRead i := by
  intro q e s he hq _ htake
  obtain rfl := Option.some.inj (hport.symm.trans hq)
  obtain rfl := Option.some.inj (frame.symm.trans he)
  exact ⟨_, (taken s).trans (congrArg _ (readRequest_taken htake answer)), hanswer _⟩

theorem AnswersIfRead.of_other {i : Instr} (h : ∀ e, encodeRequest i = some e → e.1 ∉ readCodes) :
    AnswersIfRead i := fun _ e _ he _ hread _ => absurd hread (h e he)

theorem not_read_of_code {i : Instr} {code : Nat} {data : List Byte} (frame : encodeRequest i = some (code, data))
    (hcode : code ∉ readCodes) (e : Nat × List Byte) (he : encodeRequest i = some e) : e.1 ∉ readCodes := by
  obtain rfl := Option.some.inj (frame.symm.trans he)
  exact hcode

theorem everyAnswersIfRead : ∀ i : Instr, AnswersIfRead i
  | .readClock p => .of_read (p := p) rfl rfl (fun _ => rfl) fun _ => okReply_isAnswer _
  | .readStage p => .of_read (p := p) rfl rfl (fun _ => rfl) fun _ => okReply_isAnswer _
  | .readStageConfig p => .of_read (p := p) rfl rfl (fun _ => rfl) fun _ => okReply_isAnswer _
  | .readHistoryState p => .of_read (p := p) rfl rfl (fun _ => rfl) fun _ => okReply_isAnswer _
  | .readRating p => .of_read (p := p) rfl rfl (fun _ => rfl) fun _ => okReply_isAnswer _
  | .readStaged p => .of_read (p := p) rfl rfl (fun _ => rfl) fun _ => okReply_isAnswer _
  | .readSlotState p => .of_read (p := p) rfl rfl (fun _ => rfl) fun _ => okReply_isAnswer _
  | .getTarget p => .of_read (p := p) rfl rfl (fun _ => rfl) fun _ => okReply_isAnswer _
  | .readRunState p => .of_read (p := p) rfl rfl (fun _ => rfl) fun _ => okReply_isAnswer _
  | .readPass p => .of_read (p := p) rfl rfl (fun _ => rfl) fun _ => okReply_isAnswer _
  | .readWarning p => .of_read (p := p) rfl rfl (fun _ => rfl) fun _ => okReply_isAnswer _
  | .readUpstreamState p => .of_read (p := p) rfl rfl (fun _ => rfl) fun _ => okReply_isAnswer _
  | .readLineConfig p => .of_read (p := p) rfl rfl (fun _ => rfl) fun _ => okReply_isAnswer _
  | .peekNotices p => .of_read (p := p) rfl rfl (fun _ => rfl) fun _ => okReply_isAnswer _
  | .readNoticeRoutes p => .of_read (p := p) rfl rfl (fun _ => rfl) fun _ => okReply_isAnswer _
  | .rateStage p _ => .of_read (p := p) rfl rfl (fun _ => rfl) fun _ =>
    isAnswer_ite (okReply_isAnswer _) (rangeReply_isAnswer _)
  | .rateDischarge p _ => .of_read (p := p) rfl rfl (fun _ => rfl) fun _ =>
    isAnswer_ite (rangeReply_isAnswer _) (okReply_isAnswer _)
  | .readVertical p _ => .of_read (p := p) rfl rfl (fun _ => rfl) fun _ =>
    isAnswer_ite (okReply_isAnswer _) (rangeReply_isAnswer _)
  | .readMeter p _ => .of_read (p := p) rfl rfl (fun _ => rfl) fun _ =>
    isAnswer_ite (okReply_isAnswer _) (rangeReply_isAnswer _)
  | .readSlot p _ => .of_read (p := p) rfl rfl (fun _ => rfl) fun _ =>
    isAnswer_ite (okReply_isAnswer _) (rangeReply_isAnswer _)
  | .readUpstreamEntry p _ => .of_read (p := p) rfl rfl (fun _ => rfl) fun _ =>
    isAnswer_ite (okReply_isAnswer _) (rangeReply_isAnswer _)
  | .readResult p _ => .of_read (p := p) rfl rfl (fun _ => rfl) fun _ => resultReply_isAnswer _ _
  | .readPassVertical p _ => .of_read (p := p) rfl rfl (fun _ => rfl) fun _ => entryReply_isAnswer _ _
  | .readReply _ | .stationReset _ | .setClock _ _ | .configureStage _ _ | .checkGauge _ _ _ | .readHistory _ _ _
  | .seekHistory _ _ | .setHistoryThreshold _ _ | .setHistoryInterval _ _ | .writeStagedPoint _ _ _ _
  | .clearStaged _ | .installRating _ | .setShift _ _ | .setExtrapolationLimit _ _ | .writeVertical _ _ _
  | .clearVertical _ _ | .writeMeter _ _ _ | .defineSlot _ _ _ | .armSlot _ _ | .disarmSlot _ _ | .startRun _ _
  | .clearRequest _ _ | .setSlotPriority _ _ | .positionReached _ _ _ | .depthReached _ | .homeReached _
  | .proceed _ | .cancelRun _ | .carriageFault _ _ | .clearTrip _ | .resetEngine _ | .setLevelCriteria _ _
  | .setRetreat _ _ _ | .setWarningOutput _ _ _ _ | .overrideOn _ _ | .overrideOff _ _ | .overrideAuto _ _
  | .silence _ | .upstreamReport _ _ | .setUpstreamEntry _ _ _ _ _ | .setHash _ _ | .setUpstreamFilter _ _
  | .clearUpstreamCounters _ | .readLines _ _ | .configureLine _ _ | .writeLines _ _ _ | .fetchNotices _
  | .setNoticeEnable _ _ | .setAttention _ _ _ | .setRoute _ _ _ => .of_other (not_read_of_code rfl (by decide))
  | .badFrame _ _ | .windowOpen _ | .discardedWindow _ | .resetNActivation | .resetNRelease | .porAssert
  | .porRelease | .encoderPhaseChange _ _ | .pPulse _ | .stationClockAdvance | .stageSample | .moveTimerExpiry
  | .settleTimerExpiry | .countTimerExpiry | .pauseTimerExpiry | .homeTimerExpiry | .dwellTimerExpiry
  | .intervalTimerExpiry _ | .delayTimerExpiry _ | .staleTimerExpiry _ | .linePinChange _ _ | .uptimeAdvance =>
    .of_other nofun

/-! ## What each read answers -/

/-- A read taken answers from the state: nothing of what it reads is the port's window. -/
theorem exec_read {i : Instr} {p : Port} {code : Nat} {answer : State → Reply} {s : State} (htake : Takes p code s)
    (taken : exec i s = .next (readRequest code p s answer)) {r : Reply} (hr : answer (closeWindow p s) = r) :
    exec i s = .next (setReply p r (closeWindow p s)) := by
  rw [taken, readRequest_taken htake, hr]

theorem stagedList_length (staged : Vector (Option Breakpoint) 24) :
    (staged.toList.take (stagedCount staged)).length = stagedCount staged := by
  simp [stagedCount_le]

theorem completeCount_eq (es : List TableEntry) : completeCount es = (es.filter TableEntry.complete).length := by
  simp only [completeCount]

theorem optMark_eq {o : Option Int} {v : Bool} :
    optMark (o.map fun _ => v) = if o = none then u8 0 else markByte v := by
  cases o <;> rfl

theorem exec_readStaged {p : Port} {s : State} (htake : Takes p 0x23 s) :
    exec (.readStaged p) s = .next (setReply p ⟨.ok, u8 (stagedCount s.rating.staged) ++
      ((s.rating.staged.toList.take (stagedCount s.rating.staged)).map stagedData).flatten⟩ (closeWindow p s)) := by
  refine exec_read htake rfl ?_
  change okReply (counted stagedData (s.rating.staged.toList.take (stagedCount s.rating.staged))) = _
  rw [counted, stagedList_length]
  rfl

theorem resultReply_found {log : List PassResult} {x : ResultSelector} {r : PassResult}
    (hrange : selectorInRange x = true) (h : selectResult log x = some r) :
    resultReply log x = okReply (resultData r ++ idsData log) := by
  rw [resultReply, if_pos hrange, h]

theorem resultReply_none {log : List PassResult} {x : ResultSelector} (hrange : selectorInRange x = true)
    (h : selectResult log x = none) :
    resultReply log x = emptyReply (u8 (if log = [] then 0 else 3) ++ idsData log) := by
  rw [resultReply, if_pos hrange, h]
  cases log with
  | nil => rfl
  | cons r rest => simp [oldestId, newestId]; rfl

/-- A request without an operand answers OK with these data. -/
def ReadsAs (p : Port) (s : State) (x : Instr × Nat × List Byte) : Prop :=
  Takes p x.2.1 s → exec x.1 s = .next (setReply p ⟨.ok, x.2.2⟩ (closeWindow p s))

theorem ReadsAs.of_data {i : Instr} {p : Port} {code : Nat} {answer : State → List Byte} {s : State}
    {data : List Byte} (taken : exec i s = .next (readRequest code p s fun t => okReply (answer t)))
    (hdata : answer (closeWindow p s) = data) : ReadsAs p s (i, code, data) :=
  fun htake => exec_read htake taken (congrArg okReply hdata)

theorem readsAs_of_forall {p : Port} {s : State} {x : Instr × Nat × List Byte} {l : List (Instr × Nat × List Byte)}
    (h : ∀ y ∈ l, ReadsAs p s y) (hx : x ∈ l) : ReadsAs p s x := h x hx

/-- READ_PASS's data with the optional mark written out. -/
theorem passData_eq {r : ResultStore} :
    passData r = (let x := r.pass
      u8 (passStateCode x.state) ++ u16 x.runNumber ++ u16 x.passNumber
        ++ maskBytes 1 [x.slot.isSome, x.meter.isSome, x.meterIdent.isSome, x.ghStart.isSome, x.resultId.isSome]
        ++ u8 (x.slot.getD 0) ++ u8 (x.meter.getD 0) ++ u16 (x.meterIdent.getD 0) ++ u32 x.startStamp
        ++ i16 (x.ghStart.getD 0) ++ (if x.ghStart = none then u8 0 else markByte x.ghStartHeld)
        ++ u8 r.table.length ++ u8 (r.table.filter TableEntry.complete).length
        ++ u64 (sumPanels Panel.q r.table) ++ u64 (sumPanels Panel.area r.table) ++ u32 (x.resultId.getD 0)) := by
  simp only [passData, optMark_eq, completeCount_eq]
  rfl

/-- A request with a number as its operand answers OK with these data in a range, and RANGE outside it. -/
def NumberedAs (p : Port) (s : State) (x : (Nat → Instr) × Nat × Nat × Nat × (Nat → List Byte)) : Prop :=
  Takes p x.2.1 s → ∀ n,
    (n < x.2.2.1 ∨ x.2.2.2.1 < n → Refuses (x.1 n) p s ⟨.range, []⟩) ∧
      (x.2.2.1 ≤ n → n ≤ x.2.2.2.1 → exec (x.1 n) s = .next (setReply p ⟨.ok, x.2.2.2.2 n⟩ (closeWindow p s)))

theorem numberedAs_of_forall {p : Port} {s : State} {x : (Nat → Instr) × Nat × Nat × Nat × (Nat → List Byte)}
    {l : List ((Nat → Instr) × Nat × Nat × Nat × (Nat → List Byte))} (h : ∀ y ∈ l, NumberedAs p s y) (hx : x ∈ l) :
    NumberedAs p s x := h x hx

/-- The reads whose operand is a number in a range. -/
theorem exec_numbered {i : Nat → Instr} {p : Port} {code low high n : Nat} {answer : State → List Byte} {s : State}
    (htake : Takes p code s)
    (taken : exec (i n) s = .next (readRequest code p s fun t =>
      if within low high n then okReply (answer t) else rangeReply [])) {data : List Byte}
    (hdata : answer (closeWindow p s) = data) :
    (n < low ∨ high < n → Refuses (i n) p s ⟨.range, []⟩) ∧
      (low ≤ n → n ≤ high → exec (i n) s = .next (setReply p ⟨.ok, data⟩ (closeWindow p s))) := by
  refine ⟨fun hout => ⟨rfl, exec_read htake taken (if_neg ?_)⟩, fun hlow hhigh =>
    exec_read htake taken ((if_pos ?_).trans (congrArg okReply hdata))⟩
  · simp only [within, decide_eq_true_eq]
    omega
  · simpa [within] using ⟨hlow, hhigh⟩

theorem NumberedAs.of_data {i : Nat → Instr} {p : Port} {code low high : Nat} {answer : Nat → State → List Byte}
    {s : State} (taken : ∀ n, exec (i n) s = .next (readRequest code p s fun t =>
      if within low high n then okReply (answer n t) else rangeReply [])) {data : Nat → List Byte}
    (hdata : ∀ n, answer n (closeWindow p s) = data n) : NumberedAs p s (i, code, low, high, data) :=
  fun htake n => exec_numbered htake (taken n) (hdata n)

theorem exec_rateStage {p : Port} {h : Int} {s : State} (htake : Takes p 0x21 s) :
    (h < -1000 ∨ 15000 < h → Refuses (.rateStage p h) p s ⟨.range, []⟩) ∧
      (-1000 ≤ h → h ≤ 15000 → exec (.rateStage p h) s = .next (setReply p
        (okReply (dischargeData (s.rating.dischargeFor (some h)))) (closeWindow p s))) := by
  refine ⟨fun hout => ⟨rfl, exec_read htake rfl (if_neg ?_)⟩, fun hlow hhigh => exec_read htake rfl (if_pos ?_)⟩
  · simp only [stageInRange, withinInt, decide_eq_true_eq]
    omega
  · simpa [stageInRange, withinInt] using ⟨hlow, hhigh⟩

theorem exec_rateDischarge {p : Port} {q : Nat} {s : State} (htake : Takes p 0x22 s) (hq : q ≤ 4000000)
    {found : Option Int} (h : inverseRating s.rating.active q = found) :
    exec (.rateDischarge p q) s = .next (setReply p
      (okReply (maskBytes 1 [found.isSome, (found.map fun z => z - s.rating.shift).isSome] ++ optI16 found
        ++ optI16 (found.map fun z => z - s.rating.shift) ++ u8 s.rating.version)) (closeWindow p s)) := by
  subst h
  exact exec_read htake rfl (if_neg (by simpa [Config.dischargeMax] using hq))

theorem exec_rateDischarge_none {p : Port} {q : Nat} {s : State} (htake : Takes p 0x22 s) (hq : q ≤ 4000000)
    (h : inverseRating s.rating.active q = none) :
    exec (.rateDischarge p q) s =
      .next (setReply p ⟨.ok, [0, 0, 0, 0, 0] ++ u8 s.rating.version⟩ (closeWindow p s)) := by
  have hzeros : maskBytes 1 [false, false] ++ optI16 none ++ optI16 none = [0, 0, 0, 0, 0] := by decide
  rw [exec_rateDischarge htake hq h, ← hzeros]
  rfl

theorem exec_rateDischarge_some {p : Port} {q : Nat} {h : Int} {s : State} (htake : Takes p 0x22 s)
    (hq : q ≤ 4000000) (hsome : inverseRating s.rating.active q = some h) :
    exec (.rateDischarge p q) s = .next (setReply p
      ⟨.ok, u8 3 ++ i16 h ++ i16 (h - s.rating.shift) ++ u8 s.rating.version⟩ (closeWindow p s)) := by
  have hmask : maskBytes 1 [true, true] = u8 3 := by decide
  rw [exec_rateDischarge htake hq hsome, ← hmask]
  rfl

/-- The first of a log with an id is the one found. -/
theorem find_id {before after : List PassResult} {r : PassResult} (h : ∀ x ∈ before, x.id ≠ r.id) :
    (before ++ r :: after).find? (fun x => x.id == r.id) = some r := by
  rw [List.find?_append, List.find?_eq_none.2 (by simpa using h), Option.none_or, List.find?_cons_of_pos (by simp)]

theorem selectorInRange_ident {n : Nat} (h1 : 1 ≤ n) (h2 : n ≤ 4294967295) :
    selectorInRange (.ident n) = true := by
  simpa [selectorInRange, within] using ⟨h1, h2⟩

theorem refuses_selector {p : Port} {x : ResultSelector} {s : State} (htake : Takes p 0x50 s)
    (h : selectorInRange x = false) : Refuses (.readResult p x) p s ⟨.range, []⟩ :=
  ⟨rfl, exec_read htake rfl (if_neg (by simp [h]))⟩

/-- A selector outside its range. -/
theorem selectorInRange_false {x : ResultSelector}
    (h : x = .ident 0 ∨ (∃ n, x = .ident n ∧ 4294967295 < n) ∨ ∃ k, x = .unknown k) :
    selectorInRange x = false := by
  obtain rfl | ⟨n, rfl, hn⟩ | ⟨k, rfl⟩ := h
  · rfl
  · simpa [selectorInRange, within] using fun _ => hn
  · rfl

/-- A selector in its range that names no result. -/
theorem selectResult_none {log : List PassResult} {x : ResultSelector}
    (h : (log = [] ∧ (x = .newest ∨ x = .oldest)) ∨
      ∃ n, x = .ident n ∧ 1 ≤ n ∧ n ≤ 4294967295 ∧ ∀ r ∈ log, r.id ≠ n) :
    selectorInRange x = true ∧ selectResult log x = none := by
  obtain ⟨rfl, rfl | rfl⟩ | ⟨n, rfl, h1, h2, hn⟩ := h
  · exact ⟨rfl, rfl⟩
  · exact ⟨rfl, rfl⟩
  · exact ⟨selectorInRange_ident h1 h2, List.find?_eq_none.2 (by simpa using hn)⟩

/-- A selector in its range that names a result. -/
theorem selectResult_some {log : List PassResult} {x : ResultSelector} {r : PassResult}
    (h : (x = .newest ∧ log.getLast? = some r) ∨ (x = .oldest ∧ log.head? = some r) ∨
      (1 ≤ r.id ∧ r.id ≤ 4294967295 ∧ x = .ident r.id ∧
        ∃ before after, log = before ++ r :: after ∧ ∀ y ∈ before, y.id ≠ r.id)) :
    selectorInRange x = true ∧ selectResult log x = some r := by
  obtain ⟨rfl, hr⟩ | ⟨rfl, hr⟩ | ⟨h1, h2, rfl, before, after, rfl, hbefore⟩ := h
  · exact ⟨rfl, hr⟩
  · exact ⟨rfl, hr⟩
  · exact ⟨selectorInRange_ident h1 h2, find_id hbefore⟩

/-- Settles O6: the reply of each read is its layout of the state, and its operand's range decides the rest. -/
theorem readsChangeNothing : Obligations.ReadsChangeNothing := by
  refine ⟨fun i p e s he hp hread htake => everyAnswersIfRead i p e s he hp hread htake,
    fun i p code data s hmem htake => ?_, fun p h s htake => exec_rateStage htake, fun p q s htake =>
    ⟨fun hq => ⟨rfl, exec_read htake rfl (if_pos hq)⟩, fun hq => ⟨fun hnone => exec_rateDischarge_none htake hq hnone,
      fun h hsome => exec_rateDischarge_some htake hq hsome⟩⟩,
    fun i p code low high data s hmem htake n => ?_, fun p x s htake => ⟨fun hout =>
      refuses_selector htake (selectorInRange_false hout), fun hnone => ?_, fun r hsome => ?_⟩,
    fun p n s htake => ⟨fun hout => ⟨rfl, exec_read htake rfl (if_neg ?_)⟩, fun h1 h2 hlen => ?_,
      fun e h1 h2 hentry => ?_⟩⟩
  · refine readsAs_of_forall ?_ hmem htake
    simp only [List.forall_mem_cons]
    exact ⟨.of_data rfl rfl, .of_data rfl rfl, .of_data rfl rfl, .of_data rfl rfl, .of_data rfl rfl, exec_readStaged,
      .of_data rfl rfl, .of_data rfl rfl, .of_data rfl rfl, .of_data rfl passData_eq, .of_data rfl rfl,
      .of_data rfl rfl, .of_data rfl rfl, .of_data rfl rfl, .of_data rfl rfl, List.forall_mem_nil _⟩
  · refine numberedAs_of_forall ?_ hmem htake n
    simp only [List.forall_mem_cons]
    exact ⟨.of_data (answer := fun n t => verticalData (poolRecord t n) (recordInUse t n)) (fun _ => rfl) fun _ => rfl,
      .of_data (answer := fun n t => u16 (at' t.plan.meters n).a ++ u32 (at' t.plan.meters n).b
        ++ u8 (at' t.plan.meters n).pulses ++ u16 (at' t.plan.meters n).ident ++ twoValued (meterInUse t n))
        (fun _ => rfl) fun _ => rfl,
      .of_data (answer := fun n t => slotData t n) (fun _ => rfl) fun _ => rfl,
      .of_data (answer := fun n t => entryStateData t n) (fun _ => rfl) fun _ => rfl, List.forall_mem_nil _⟩
  · obtain ⟨hrange, hnone⟩ := selectResult_none hnone
    exact exec_read htake rfl (resultReply_none hrange hnone)
  · obtain ⟨hrange, hsome⟩ := selectResult_some hsome
    exact exec_read htake rfl (resultReply_found hrange hsome)
  · simp only [within, decide_eq_true_eq]
    omega
  · refine exec_read htake rfl ?_
    change entryReply s.results n = _
    rw [entryReply, if_pos (by simpa [within] using ⟨h1, h2⟩), List.getElem?_eq_none (by omega)]
    rfl
  · refine exec_read htake rfl ?_
    change entryReply s.results n = _
    rw [entryReply, if_pos (by simpa [within] using ⟨h1, h2⟩), hentry]
    rfl

end Sys2Proof.Machine
end

section
/-! SUPPORT. What an evaluation leaves, in the words of `Evaluated`, `EvaluatedFrom`, `IntervalTakes` and
`SlotsJudged` (R28, R68 to R72, R137 to R153): said once of the operations that evaluate, offer or form the floor. -/

namespace Sys2Proof.Machine

/-! ## The open interval (R28, R145) -/

/-- The greatest level of the open interval after a change of the level from a to b: a fall passes the level one
below the first. -/
structure LevelsTaken (a b : Nat) (h h' : HistoryStore) : Prop where
  others : { h' with highest := h.highest } = h
  rise : a < b → h'.highest = max h.highest b
  same : b = a → h'.highest = h.highest
  fall : b < a → h'.highest = max h.highest (a - 1)

theorem LevelsTaken.refl (a : Nat) (h : HistoryStore) : LevelsTaken a a h h :=
  ⟨rfl, fun h => absurd h (lt_irrefl a), fun _ => rfl, fun h => absurd h (lt_irrefl a)⟩

theorem levelPath_taken {a b : Nat} {changes : List (Nat × Nat)} (path : LevelPath a b changes) (h : HistoryStore) :
    LevelsTaken a b h (changes.foldl (fun x c => x.takeLevel c.2) h) := by
  obtain ⟨hab, rfl⟩ | falls := path
  · exact ⟨rfl, fun _ => rfl, fun hba => by omega, fun hba => by omega⟩
  · induction changes generalizing a h with
    | nil =>
      obtain rfl : a = b := falls
      exact .refl a h
    | cons c rest ih =>
      obtain ⟨rfl, ha, falls⟩ := falls
      have hle := falls.le
      obtain ⟨others, -, same, fall⟩ := ih (h.takeLevel (a - 1)) falls
      have hfirst : (h.takeLevel (a - 1)).highest = max h.highest (a - 1) := rfl
      rw [List.foldl_cons]
      refine ⟨(congrArg (fun x : HistoryStore => { x with highest := h.highest }) others).trans rfl,
        fun hab => by omega, fun hab => by omega, fun _ => ?_⟩
      by_cases hb : b = a - 1
      · rw [same hb, hfirst]
      · rw [fall (by omega), hfirst]
        omega

theorem handLevelChange_history (s : State) (c : Nat × Nat) :
    (handLevelChange s c).history = s.history.takeLevel c.2 :=
  judgeLevelTriggers_keeps c.1 c.2 _ .history (by decide)

theorem handLevels_history (changes : List (Nat × Nat)) (s : State) :
    (changes.foldl handLevelChange s).history = changes.foldl (fun x c => x.takeLevel c.2) s.history := by
  induction changes generalizing s with
  | nil => rfl
  | cons c rest ih => rw [List.foldl_cons, ih, handLevelChange_history, List.foldl_cons]

theorem handOn_history (changes : List (Nat × Nat)) (s : State) :
    (handOn changes s).history = changes.foldl (fun x c => x.takeLevel c.2) s.history := by
  have hhanded : (retreatHanded changes s).history = s.history := by rw [(retreatHanded_eq changes s).2]
  have hjudged : (retreatJudged changes s).history = s.history := by
    rw [← hhanded]
    unfold retreatJudged
    split
    · exact retreatRecall_keeps _ .history (by decide)
    · rfl
  rw [← hjudged, ← handLevels_history, handOn_eq]
  have hformed : (formOutputs (changes.foldl handLevelChange (retreatJudged changes s))).history =
      (changes.foldl handLevelChange (retreatJudged changes s)).history := formOutputs_keeps _ .history (by decide)
  rw [← hformed]
  split
  · exact takeAttempt_keeps _ .history (by decide)
  · rfl

theorem handOn_level (changes : List (Nat × Nat)) (s : State) :
    (handOn changes s).warning.level = s.warning.level := (handOn_warning changes s).2

theorem handOn_taken {a : Nat} {changes : List (Nat × Nat)} {s : State} (path : LevelPath a s.warning.level changes) :
    LevelsTaken a (handOn changes s).warning.level s.history (handOn changes s).history := by
  rw [handOn_history, handOn_level]
  exact levelPath_taken path s.history

theorem evaluate_taken (s : State) :
    LevelsTaken s.warning.level (evaluate s).warning.level s.history (evaluate s).history :=
  handOn_taken (s := { s with warning := (settleLevel 4 (evalInputs s) s.warning).1 })
    (settleLevel_path 4 (evalInputs s) s.warning).1

theorem LevelsTaken.peak {a b : Nat} {h h' : HistoryStore} (taken : LevelsTaken a b h h') : h'.peak = h.peak := by
  have hpeak := congrArg HistoryStore.peak taken.others
  exact hpeak

theorem LevelsTaken.worst {a b : Nat} {h h' : HistoryStore} (taken : LevelsTaken a b h h') : h'.worst = h.worst := by
  have hworst := congrArg HistoryStore.worst taken.others
  exact hworst

/-- The open interval after an event without an offer. -/
theorem LevelsTaken.intervalTakes {s t : State}
    (h : LevelsTaken s.warning.level t.warning.level s.history t.history) : IntervalTakes false s t := by
  obtain ⟨others, rise, same, fall⟩ := h
  have hpeak : t.history.peak = s.history.peak := LevelsTaken.peak ⟨others, rise, same, fall⟩
  have hworst : t.history.worst = s.history.worst := LevelsTaken.worst ⟨others, rise, same, fall⟩
  refine ⟨?_, rise, same, fall, fun _ => ⟨hpeak, hworst⟩, nofun⟩
  rw [← hpeak, ← hworst]
  exact others

theorem worseStatus_found (a b : StageStatus) :
    [StageStatus.lost, .starting, .suspect, .single, .good].find? (fun x => x == a || x == b) =
      some (worseStatus a b) := by
  cases a <;> cases b <;> decide

/-- The open interval after an offer of the Stage Unit. -/
theorem LevelsTaken.intervalOffered {s t : State} {h : HistoryStore}
    (taken : LevelsTaken s.warning.level t.warning.level s.history h)
    (ht : t.history = h.takeOffer t.stage.stilled t.stage.status) : IntervalTakes true s t := by
  obtain ⟨others, rise, same, fall⟩ := taken
  have hpeak : h.peak = s.history.peak := LevelsTaken.peak ⟨others, rise, same, fall⟩
  have hworst : h.worst = s.history.worst := LevelsTaken.worst ⟨others, rise, same, fall⟩
  have hhighest : t.history.highest = h.highest := by rw [ht]; rfl
  have hraised : t.history.peak = raisePeak s.history.peak t.stage.stilled := by rw [ht, ← hpeak]; rfl
  refine ⟨?_, fun hl => hhighest.trans (rise hl), fun hl => hhighest.trans (same hl),
    fun hl => hhighest.trans (fall hl), nofun, fun _ => ⟨fun hz => ?_, fun z hz hp => ?_, fun z b hz hp => ?_, ?_⟩⟩
  · rw [ht, ← hpeak, ← hworst]
    exact others
  · rw [hraised, hz]
    cases s.history.peak <;> rfl
  · rw [hraised, hz, hp]
    rfl
  · rw [hraised, hz, hp]
    simp only [raisePeak, Option.some.injEq]
    split <;> omega
  · rw [ht, ← hworst]
    exact worseStatus_found _ _

/-! ## The slots judged (R68 to R72, R76) -/

/-- A slot judged for an offer and for a report, where there are. -/
def offeredSlot (offered : Bool) (cls : Option Nat) (before now : Option Int) (x : Slot) : Slot :=
  let y := if offered = true then offerJudged before now x else x
  match cls with
  | some c => reportJudged c y
  | none => y

theorem offeredPlan_slots (offered : Bool) (cls : Option Nat) (stage : Option Int) (plan : PlanStore) :
    (offeredPlan offered cls stage plan).slots =
      plan.slots.map (offeredSlot offered cls plan.previousStage stage) := by
  unfold offeredPlan offeredSlot
  cases offered <;> cases cls <;> simp [PlanStore.judged, Function.comp_def]

theorem offeredPlan_activeSlot (offered : Bool) (cls : Option Nat) (stage : Option Int) (plan : PlanStore) :
    (offeredPlan offered cls stage plan).activeSlot = plan.activeSlot := by
  unfold offeredPlan
  cases offered <;> cases cls <;> rfl

theorem slotAt_of_map {s t : State} {f : Slot → Slot} (h : t.plan.slots = s.plan.slots.map f) {k : Nat} (hk : k < 4) :
    slotAt t k = f (slotAt s k) := by
  rw [slotAt, h, at'_map _ _ hk]
  rfl

/-- A slot as a take leaves it (R77). -/
def Slot.taken (x : Slot) : Slot := { x with request := x.definition.trigger.isLevel && x.request }

theorem either_of_bool {b : Bool} {P Q : Prop} (hp : b = true → P) (hq : b = false → Q) : P ∨ Q := by
  cases b
  · exact .inr (hq rfl)
  · exact .inl (hp rfl)

/-- A pass that begins writes the fetched records of the plan, and nothing else of it; the run is then active. -/
theorem PassBegins.plan_eq {n : Nat} {s t : State} (h : PassBegins n s t) :
    { t.plan with fetched := s.plan.fetched } = s.plan ∧ t.engine.state ≠ .idle := by
  obtain ⟨z, -, hused, hunused⟩ := h
  obtain ⟨entered, -, plan, -, -⟩ | ⟨recalled, plan⟩ := either_of_bool hused hunused
  · exact ⟨plan, by rw [entered.1]; decide⟩
  · exact ⟨by rw [plan], by rw [recalled.1.1.1]; decide⟩

/-- A take leaves its slot active, and that slot's flag of the EDGE kind cleared. -/
theorem TakenSlot.plan_eq {j : Nat} {s t : State} (h : TakenSlot j s t) :
    { t.plan with fetched := [] } = planTaken j s ∧ t.engine.state ≠ .idle := by
  obtain ⟨-, begins⟩ := h
  exact begins.plan_eq

theorem TakenSlot.activeSlot {j : Nat} {s t : State} (h : TakenSlot j s t) : t.plan.activeSlot = some j :=
  congrArg PlanStore.activeSlot h.plan_eq.1

theorem TakenSlot.previousStage {j : Nat} {s t : State} (h : TakenSlot j s t) :
    t.plan.previousStage = s.plan.previousStage := by
  have hplan := congrArg PlanStore.previousStage h.plan_eq.1
  exact hplan

theorem TakenSlot.slots {j : Nat} {s t : State} (h : TakenSlot j s t) :
    t.plan.slots = s.plan.slots.setIfInBounds j (slotAt s j).taken := congrArg PlanStore.slots h.plan_eq.1

theorem TakenSlot.slotAt_other {j k : Nat} {s t : State} (h : TakenSlot j s t) (hk : k ≠ j) :
    slotAt t k = slotAt s k := by
  rw [slotAt, h.slots]
  exact at'_put_other _ hk _

theorem TakenSlot.slotAt_self {k : Nat} {s t : State} (h : TakenSlot k s t) (hk : k < 4) :
    slotAt t k = (slotAt s k).taken := by
  rw [slotAt, h.slots]
  exact at'_put_self _ hk _

/-- A slot after an event: judged; or taken from IDLE besides, before or after it is judged for what the event hands
on. -/
def SlotFollows (judge later : Slot → Slot) (k : Nat) (s t : State) : Prop :=
  slotAt t k = later (judge (slotAt s k)) ∨
    (s.engine.state = .idle ∧ t.plan.activeSlot = some k ∧
      (slotAt t k = later (judge (slotAt s k)).taken ∨ slotAt t k = (later (judge (slotAt s k))).taken))

theorem RunFollows.slotFollows {own : List Nat} {offered : Bool} {cls : Option Nat} {s t : State}
    (h : RunFollows own offered cls s t) {k : Nat} (hk : k < 4) :
    SlotFollows (levelJudged s.warning.level t.warning.level)
      (offeredSlot offered cls s.plan.previousStage t.stage.stilled) k s t := by
  unfold RunFollows at h
  extract_lets later u v recalls ready first second handed at h
  obtain ⟨-, -, hrecalls, hfirst, hsecond, hkept⟩ := h
  have hjudged : v.plan.slots = s.plan.slots.map fun x =>
      offeredSlot offered cls s.plan.previousStage t.stage.stilled
        (levelJudged s.warning.level t.warning.level x) := by
    refine (offeredPlan_slots _ _ _ _).trans ?_
    simp [u, PlanStore.judged, Function.comp_def]
  have hstays (hplan : t.plan = v.plan) : slotAt t k = offeredSlot offered cls s.plan.previousStage t.stage.stilled
      (levelJudged s.warning.level t.warning.level (slotAt s k)) :=
    slotAt_of_map ((congrArg PlanStore.slots hplan).trans hjudged) hk
  by_cases hr : recalls
  · exact .inl (hstays (hrecalls hr).2)
  by_cases hready : ready ∧ ((EvaluationAsks s t ∧ first ≠ none) ∨ (handed ∧ second ≠ none))
  · obtain ⟨hready, htaken⟩ := hready
    by_cases hearly : EvaluationAsks s t ∧ first ≠ none
    · obtain ⟨hasks, hsome⟩ := hearly
      obtain ⟨j, hj⟩ := Option.ne_none_iff_exists'.1 hsome
      obtain ⟨plan, taken, hplan⟩ := hfirst hready hasks j hj
      have hslots : t.plan.slots = plan.slots.map (offeredSlot offered cls s.plan.previousStage t.stage.stilled) := by
        rw [hplan]
        refine (offeredPlan_slots _ _ _ _).trans ?_
        rw [show plan.previousStage = s.plan.previousStage from taken.previousStage]
      have hactive : t.plan.activeSlot = some j := by
        rw [hplan]
        exact (offeredPlan_activeSlot _ _ _ _).trans taken.activeSlot
      have hslot : slotAt t k = offeredSlot offered cls s.plan.previousStage t.stage.stilled
          (slotAt { t with plan := plan } k) := slotAt_of_map hslots hk
      have hu : slotAt u k = levelJudged s.warning.level t.warning.level (slotAt s k) := slotAt_of_map rfl hk
      by_cases hkj : k = j
      · subst hkj
        rw [taken.slotAt_self hk, hu] at hslot
        exact .inr ⟨hready.1, hactive, .inl hslot⟩
      · rw [taken.slotAt_other hkj, hu] at hslot
        exact .inl hslot
    · have hlate : ¬ EvaluationAsks s t ∨ first = none := by
        by_cases hasks : EvaluationAsks s t
        · exact .inr (by_contra fun hne => hearly ⟨hasks, hne⟩)
        · exact .inl hasks
      obtain ⟨hhanded, hsome⟩ := htaken.resolve_left hearly
      obtain ⟨j, hj⟩ := Option.ne_none_iff_exists'.1 hsome
      have taken := hsecond hready hlate hhanded j hj
      have hv : slotAt v k = offeredSlot offered cls s.plan.previousStage t.stage.stilled
          (levelJudged s.warning.level t.warning.level (slotAt s k)) := slotAt_of_map hjudged hk
      by_cases hkj : k = j
      · subst hkj
        exact .inr ⟨hready.1, taken.activeSlot, .inr (by rw [taken.slotAt_self hk, hv])⟩
      · exact .inl (by rw [taken.slotAt_other hkj, hv])
  · refine .inl (hstays (hkept hr ?_).2.2.2.1)
    by_cases hnot : ready
    · refine .inr ⟨?_, ?_⟩
      · by_contra hc
        simp only [not_or, not_not] at hc
        exact hready ⟨hnot, .inl hc⟩
      · by_contra hc
        simp only [not_or, not_not] at hc
        exact hready ⟨hnot, .inr hc⟩
    · exact .inl hnot

theorem eligibleSlot_none {s : State}
    (h : s.engine.state ≠ .idle ∨ ¬ TakeReady s ∨ s.plan.order.find? (slotAsks s) = none) :
    eligibleSlot s = none := by
  unfold eligibleSlot
  split
  · rename_i hc
    obtain ⟨hi, hr, -⟩ := (takeConditions_iff s).1 hc
    exact (h.resolve_left (not_not_intro hi)).resolve_left (not_not_intro hr)
  · rfl

/-- No slot that can be taken is left after an event that attempts a take (R76). -/
theorem RunFollows.nothing_eligible {own : List Nat} {offered : Bool} {cls : Option Nat} {s t : State}
    (h : RunFollows own offered cls s t)
    (hevent : offered = true ∨ cls.isSome = true ∨ EvaluationAsks s t) : eligibleSlot t = none := by
  unfold RunFollows at h
  extract_lets later u v recalls ready first second handed at h
  obtain ⟨-, -, hrecalls, hfirst, hsecond, hkept⟩ := h
  by_cases hr : recalls
  · exact eligibleSlot_none (.inl (by rw [(hrecalls hr).1.1.1.1]; decide))
  by_cases hready : ready
  case neg =>
    have hengine := (hkept hr (.inl hready)).1
    refine eligibleSlot_none ?_
    rw [hengine]
    exact (not_and_or.1 hready).imp_right .inl
  by_cases hearly : EvaluationAsks s t ∧ first ≠ none
  · obtain ⟨j, hj⟩ := Option.ne_none_iff_exists'.1 hearly.2
    obtain ⟨plan, taken, -⟩ := hfirst hready hearly.1 j hj
    exact eligibleSlot_none (.inl taken.plan_eq.2)
  have hlate : ¬ EvaluationAsks s t ∨ first = none := by
    by_cases hasks : EvaluationAsks s t
    · exact .inr (by_contra fun hne => hearly ⟨hasks, hne⟩)
    · exact .inl hasks
  by_cases hhanded : handed ∧ second ≠ none
  · obtain ⟨j, hj⟩ := Option.ne_none_iff_exists'.1 hhanded.2
    exact eligibleSlot_none (.inl (hsecond hready hlate hhanded.1 j hj).plan_eq.2)
  have hquiet : ¬ handed ∨ second = none := by
    by_cases hh : handed
    · exact .inr (by_contra fun hne => hhanded ⟨hh, hne⟩)
    · exact .inl hh
  have hplan := (hkept hr (.inr ⟨hlate, hquiet⟩)).2.2.2.1
  have hasks : t.plan.order.find? (slotAsks t) = second := by
    have hsame : slotAsks t = slotAsks v := by
      funext k
      simp only [slotAsks, slotAt, hplan]
    rw [hsame, hplan]
  refine eligibleSlot_none (.inr (.inr (hasks.trans ?_)))
  obtain hnot | hnone := hquiet
  · obtain ⟨hoff, hcls⟩ := not_or.1 hnot
    have hasked := (hevent.resolve_left hoff).resolve_left hcls
    have hv : v.plan = u.plan := by
      rw [Bool.not_eq_true] at hoff
      rw [Option.not_isSome_iff_eq_none] at hcls
      subst hoff hcls
      rfl
    have hsame : slotAsks v = slotAsks u := by
      funext k
      simp only [slotAsks, slotAt, hv]
    have : second = first := by rw [show second = v.plan.order.find? (slotAsks v) from rfl, hsame, hv]
    rw [this]
    exact hlate.resolve_left (not_not_intro hasked)
  · exact hnone

/-! ### By the trigger of the slot -/

theorem Slot.taken_level {x : Slot} (h : x.definition.trigger.isLevel = true) : x.taken = x := by
  simp [Slot.taken, h]

/-- A slot of the EDGE kind as an event that is newly met for it leaves it. -/
def Slot.edged (newly : Prop) [Decidable newly] (x : Slot) : Slot :=
  if x.armed = true ∧ newly then { x with request := true } else x

/-- A slot that has kept its definition, its armed flag and its timer. -/
structure SlotKept (x y : Slot) : Prop where
  definition : y.definition = x.definition
  armed : y.armed = x.armed
  timer : y.timer = x.timer

theorem SlotKept.trans {x y z : Slot} (h : SlotKept x y) (h' : SlotKept y z) : SlotKept x z :=
  ⟨h'.definition.trans h.definition, h'.armed.trans h.armed, h'.timer.trans h.timer⟩

theorem Slot.taken_kept (x : Slot) : SlotKept x x.taken := ⟨rfl, rfl, rfl⟩

theorem levelJudged_kept (a b : Nat) (x : Slot) : SlotKept x (levelJudged a b x) := by
  rw [← levelJudged_eq]
  exact ⟨rfl, rfl, rfl⟩

theorem offerJudged_kept (before now : Option Int) (x : Slot) : SlotKept x (offerJudged before now x) := by
  rw [← offerJudged_eq]
  exact ⟨rfl, rfl, rfl⟩

theorem reportJudged_kept (cls : Nat) (x : Slot) : SlotKept x (reportJudged cls x) := by
  rw [← reportJudged_eq]
  exact ⟨rfl, rfl, rfl⟩

theorem offeredSlot_kept (offered : Bool) (cls : Option Nat) (before now : Option Int) (x : Slot) :
    SlotKept x (offeredSlot offered cls before now x) := by
  have hoffer : SlotKept x (if offered = true then offerJudged before now x else x) := by
    split
    · exact offerJudged_kept before now x
    · exact ⟨rfl, rfl, rfl⟩
  unfold offeredSlot
  cases cls with
  | none => exact hoffer
  | some c => exact hoffer.trans (reportJudged_kept c _)

theorem SlotFollows.kept {judge later : Slot → Slot} {k : Nat} {s t : State} (h : SlotFollows judge later k s t)
    (hjudge : ∀ x, SlotKept x (judge x)) (hlater : ∀ x, SlotKept x (later x)) :
    SlotKept (slotAt s k) (slotAt t k) := by
  obtain h | ⟨-, -, h | h⟩ := h <;> rw [h]
  · exact (hjudge _).trans (hlater _)
  · exact ((hjudge _).trans (Slot.taken_kept _)).trans (hlater _)
  · exact ((hjudge _).trans (hlater _)).trans (Slot.taken_kept _)

/-- A slot of the LEVEL kind is judged whether it is taken or not. -/
theorem SlotFollows.level {judge later : Slot → Slot} {k : Nat} {s t : State} (h : SlotFollows judge later k s t)
    (hjudge : ∀ x, SlotKept x (judge x)) (hlater : ∀ x, SlotKept x (later x))
    (hlevel : (slotAt s k).definition.trigger.isLevel = true) : slotAt t k = later (judge (slotAt s k)) := by
  have hj : (judge (slotAt s k)).definition.trigger.isLevel = true := by rw [(hjudge _).definition, hlevel]
  obtain h | ⟨-, -, h | h⟩ := h
  · exact h
  · rw [h, Slot.taken_level hj]
  · rw [h, Slot.taken_level (by rw [(hlater _).definition, hj])]

/-- A slot of the EDGE kind that is judged for one event only. -/
theorem SlotFollows.edge {judge later : Slot → Slot} {newly : Prop} [Decidable newly] {k : Nat} {s t : State}
    (h : SlotFollows judge later k s t) (hedge : (slotAt s k).definition.trigger.isLevel = false)
    (hjudged : later (judge (slotAt s k)) = (slotAt s k).edged newly)
    (htaken : (later (judge (slotAt s k)).taken).request = true → (slotAt s k).armed = true ∧ newly) :
    EdgeFlag newly k s t := by
  have hon (hn : newly) (ha : (slotAt s k).armed = true) : ((slotAt s k).edged newly).request = true := by
    simp [Slot.edged, hn, ha]
  have hoff (hn : ¬ newly ∨ (slotAt s k).armed = false) : (slotAt s k).edged newly = slotAt s k := by
    refine if_neg fun hc => ?_
    obtain ⟨ha, hc⟩ := hc
    obtain hn | hn := hn
    · exact hn hc
    · simp [hn] at ha
  unfold EdgeFlag
  obtain h | ⟨hidle, hactive, h⟩ := h
  · rw [h, hjudged]
    exact ⟨fun hn ha _ => hon hn ha, fun hn => ⟨fun _ => by rw [hoff hn], fun hr => by rw [hoff hn, hr]⟩⟩
  · have hnot : ¬ (s.engine.state ≠ .idle ∨ t.plan.activeSlot ≠ some k) := by simp [hidle, hactive]
    refine ⟨fun _ _ hu => absurd hu hnot, fun hn => ⟨fun hu => absurd hu hnot, fun _ => ?_⟩⟩
    obtain h | h := h
    · rw [h, ← Bool.not_eq_true]
      intro hr
      obtain ⟨ha, hc⟩ := htaken hr
      obtain hn | hn := hn
      · exact hn hc
      · simp [hn] at ha
    · rw [h, hjudged, hoff hn]
      simp [Slot.taken, hedge]

theorem levelJudged_other {x : Slot} (h : ∀ l sense, x.definition.trigger ≠ .warningLevel l sense) (a b : Nat) :
    levelJudged a b x = x := by
  unfold levelJudged
  split
  · exact absurd ‹_› (h _ _)
  · exact absurd ‹_› (h _ _)
  · rfl

theorem offerJudged_other {x : Slot} (h : ∀ z sense, x.definition.trigger ≠ .stageRise z sense)
    (before now : Option Int) : offerJudged before now x = x := by
  unfold offerJudged
  split
  · exact absurd ‹_› (h _ _)
  · exact absurd ‹_› (h _ _)
  · exact absurd ‹_› (h _ _)
  · rfl

theorem reportJudged_other {x : Slot} (h : ∀ m, x.definition.trigger ≠ .upstream m) (cls : Nat) :
    reportJudged cls x = x := by
  unfold reportJudged
  split
  · exact absurd ‹_› (h _)
  · rfl

/-- A slot that no report judges. -/
theorem offeredSlot_unreported {x : Slot} (h : ∀ m, x.definition.trigger ≠ .upstream m) (offered : Bool)
    (cls : Option Nat) (before now : Option Int) :
    offeredSlot offered cls before now x = if offered = true then offerJudged before now x else x := by
  have hy : ∀ m, (if offered = true then offerJudged before now x else x).definition.trigger ≠ .upstream m := by
    intro m
    split
    · rw [(offerJudged_kept before now x).definition]
      exact h m
    · exact h m
  unfold offeredSlot
  cases cls with
  | none => rfl
  | some c => exact reportJudged_other hy c

/-- A slot that no offer judges. -/
theorem offeredSlot_unoffered {x : Slot} (h : ∀ z sense, x.definition.trigger ≠ .stageRise z sense) (offered : Bool)
    (cls : Option Nat) (before now : Option Int) :
    offeredSlot offered cls before now x = match cls with
      | some c => reportJudged c x
      | none => x := by
  unfold offeredSlot
  rw [offerJudged_other h, ite_self]

/-- A slot that neither judges. -/
theorem offeredSlot_other {x : Slot} (h : ∀ z sense, x.definition.trigger ≠ .stageRise z sense)
    (h' : ∀ m, x.definition.trigger ≠ .upstream m) (offered : Bool) (cls : Option Nat) (before now : Option Int) :
    offeredSlot offered cls before now x = x := by
  rw [offeredSlot_unreported h', offerJudged_other h, ite_self]

theorem offerJudged_edge {x : Slot} {z : Int} (h : x.definition.trigger = .stageRise z .edge)
    (before now : Option Int) [Decidable (∃ b y, before = some b ∧ now = some y ∧ b < z ∧ z ≤ y)] :
    offerJudged before now x = x.edged (∃ b y, before = some b ∧ now = some y ∧ b < z ∧ z ≤ y) := by
  unfold offerJudged Slot.edged
  rw [h]
  cases before <;> cases now <;> simp

theorem offerJudged_level {x : Slot} {z : Int} (h : x.definition.trigger = .stageRise z .level)
    (before now : Option Int) :
    ((offerJudged before now x).request = true ↔ ∃ y, now = some y ∧ z ≤ y) := by
  unfold offerJudged
  rw [h]
  cases before <;> cases now <;> simp

theorem reportJudged_edge {x : Slot} {m : Nat} (h : x.definition.trigger = .upstream m) (cls : Nat) :
    reportJudged cls x = x.edged (m ≤ cls) := by
  unfold reportJudged Slot.edged
  rw [h]

theorem levelJudged_edge {x : Slot} {l : Nat} (h : x.definition.trigger = .warningLevel l .edge) (a b : Nat) :
    levelJudged a b x = x.edged (a < l ∧ l ≤ b) := by
  unfold levelJudged Slot.edged
  rw [h]

theorem edged_taken {x : Slot} {newly : Prop} [Decidable newly] (hedge : x.definition.trigger.isLevel = false)
    (h : (x.taken.edged newly).request = true) : x.armed = true ∧ newly := by
  by_contra hc
  rw [Slot.edged, if_neg (c := x.taken.armed = true ∧ newly) hc] at h
  simp [Slot.taken, hedge] at h

theorem EdgeFlag.congr {p q : Prop} {k : Nat} {s t : State} (h : EdgeFlag p k s t) (hpq : p ↔ q) :
    EdgeFlag q k s t := by
  rw [← propext hpq]
  exact h

/-- What every event that `RunFollows` describes makes of the slots (R68 to R72, R76). -/
theorem RunFollows.slotsJudged {own : List Nat} {offered : Bool} {cls : Option Nat} {s t : State}
    (h : RunFollows own offered cls s t) : SlotsJudged offered cls s t := by
  classical
  refine ⟨fun k hk => ?_, fun hevent => h.nothing_eligible ?_⟩
  case refine_2 => exact hevent.imp_right fun h => h.imp_right fun h => h
  have hf := h.slotFollows hk
  have hjudge := levelJudged_kept s.warning.level t.warning.level
  have hlater := offeredSlot_kept offered cls s.plan.previousStage t.stage.stilled
  have hkept := hf.kept hjudge hlater
  refine ⟨hkept.definition, hkept.armed, hkept.timer, ?_⟩
  have hnone (x : Slot) {newly : Prop} [Decidable newly] (hn : ¬ newly) : x = x.edged newly := by
    rw [Slot.edged, if_neg fun hc => hn hc.2]
  cases htrigger : (slotAt s k).definition.trigger with
  | stageRise z sense =>
    have hj : levelJudged s.warning.level t.warning.level (slotAt s k) = slotAt s k :=
      levelJudged_other (by simp [htrigger]) _ _
    have hl := offeredSlot_unreported (x := slotAt s k) (by simp [htrigger]) offered cls s.plan.previousStage
      t.stage.stilled
    cases sense with
    | level =>
      have hslot := hf.level hjudge hlater (by rw [htrigger]; rfl)
      rw [hj, hl] at hslot
      refine ⟨fun ho => ?_, fun ho => ?_⟩
      · rw [hslot, if_pos ho]
        exact offerJudged_level htrigger _ _
      · rw [hslot, if_neg (by simp [ho])]
    | edge =>
      have hlt := offeredSlot_unreported (x := (slotAt s k).taken) (by simp [Slot.taken, htrigger]) offered cls
        s.plan.previousStage t.stage.stilled
      have hedge : (slotAt s k).definition.trigger.isLevel = false := by rw [htrigger]; rfl
      refine hf.edge hedge ?_ fun hr => ?_
      · rw [hj, hl]
        split
        · rename_i ho
          rw [offerJudged_edge (z := z) htrigger]
          congr 1
          simp [ho]
        · exact hnone _ (by simp_all)
      · rw [hj, hlt] at hr
        split at hr
        · rename_i ho
          rw [offerJudged_edge (z := z) (by exact htrigger)] at hr
          obtain ⟨ha, hn⟩ := edged_taken hedge hr
          exact ⟨ha, ho, hn⟩
        · simp [Slot.taken, hedge] at hr
  | warningLevel l sense =>
    have hl (x : Slot) (hx : x.definition = (slotAt s k).definition) :
        offeredSlot offered cls s.plan.previousStage t.stage.stilled x = x :=
      offeredSlot_other (by simp [hx, htrigger]) (by simp [hx, htrigger]) _ _ _ _
    cases sense with
    | level =>
      have hslot := hf.level hjudge hlater (by rw [htrigger]; rfl)
      rw [hl _ (hjudge _).definition] at hslot
      rw [hslot]
      unfold levelJudged LevelReached
      rw [htrigger]
      dsimp only
      refine ⟨fun hup => ?_, fun hdown => ?_, fun hup hdown => ?_⟩
      · rw [if_pos hup]
      · rw [if_neg (by omega), if_pos hdown]
      · rw [if_neg hup, if_neg hdown]
    | edge =>
      have hedge : (slotAt s k).definition.trigger.isLevel = false := by rw [htrigger]; rfl
      refine hf.edge hedge ?_ fun hr => ?_
      · rw [hl _ (hjudge _).definition, levelJudged_edge htrigger]
        congr
      · rw [hl _ (((hjudge _).trans (Slot.taken_kept _)).definition)] at hr
        simp [Slot.taken, (hjudge _).definition, hedge] at hr
  | upstream m =>
    have hj : levelJudged s.warning.level t.warning.level (slotAt s k) = slotAt s k :=
      levelJudged_other (by simp [htrigger]) _ _
    have hl (x : Slot) (hx : x.definition = (slotAt s k).definition) :=
      offeredSlot_unoffered (x := x) (by simp [hx, htrigger]) offered cls s.plan.previousStage t.stage.stilled
    have hedge : (slotAt s k).definition.trigger.isLevel = false := by rw [htrigger]; rfl
    refine hf.edge hedge ?_ fun hr => ?_
    · rw [hj, hl _ rfl]
      cases cls with
      | some c =>
        dsimp only
        rw [reportJudged_edge htrigger]
        congr 1
        simp
      | none => exact hnone _ (by simp)
    · rw [hj, hl (slotAt s k).taken rfl] at hr
      cases cls with
      | some c =>
        dsimp only at hr
        rw [reportJudged_edge (by exact htrigger)] at hr
        obtain ⟨ha, hn⟩ := edged_taken hedge hr
        exact ⟨ha, c, rfl, hn⟩
      | none => simp [Slot.taken, hedge] at hr
  | port | interval _ =>
    have hj (x : Slot) (hx : x.definition = (slotAt s k).definition) :
        levelJudged s.warning.level t.warning.level x = x := levelJudged_other (by simp [hx, htrigger]) _ _
    have hl (x : Slot) (hx : x.definition = (slotAt s k).definition) :
        offeredSlot offered cls s.plan.previousStage t.stage.stilled x = x :=
      offeredSlot_other (by simp [hx, htrigger]) (by simp [hx, htrigger]) _ _ _ _
    have hedge : (slotAt s k).definition.trigger.isLevel = false := by rw [htrigger]; rfl
    refine hf.edge hedge ?_ fun hr => ?_
    · rw [hj _ rfl, hl _ rfl]
      exact hnone _ (by simp)
    · rw [hj _ rfl, hl (slotAt s k).taken rfl] at hr
      simp [Slot.taken, hedge] at hr

end Sys2Proof.Machine
end

section
/-! SUPPORT. The Warning Unit after an evaluation, in the words of `Evaluated`, `EvaluatedFrom`, `RatedAndEvaluated`
and `FloorHanded` (R137 to R153, R167): what is handed on follows the settled level, and what comes after an
evaluation in a command leaves it. -/

namespace Sys2Proof.Machine

/-! ## The level settled -/

/-- An evaluation settles the level, its demand, silence and the dwell, and nothing else of the unit. -/
theorem settleLevel_settings (k : Nat) (i : EvalInputs) (w : WarningUnit) :
    { (settleLevel k i w).1 with
      level := w.level, demanded := w.demanded, partStage := w.partStage, partDischarge := w.partDischarge
      partRise := w.partRise, partFloor := w.partFloor, dwell := w.dwell, silence := w.silence } = w := by
  induction k generalizing w with
  | zero => rfl
  | succ k ih =>
    unfold settleLevel
    dsimp only
    split
    · rfl
    · split
      · rfl
      · split
        · have hfall := ih (fallLevel (formDemand i w))
          exact congrArg (fun x : WarningUnit => { x with
            level := w.level, demanded := w.demanded, partStage := w.partStage, partDischarge := w.partDischarge
            partRise := w.partRise, partFloor := w.partFloor, dwell := w.dwell, silence := w.silence }) hfall
        · rfl

/-- What `Evaluated` reads of the settings of a unit. -/
theorem settleLevel_keeps (k : Nat) (i : EvalInputs) (w : WarningUnit) :
    (settleLevel k i w).1.retreatStage = w.retreatStage ∧ (settleLevel k i w).1.retreatLevel = w.retreatLevel ∧
      (settleLevel k i w).1.criteria = w.criteria ∧ (settleLevel k i w).1.retreat = w.retreat ∧
      (settleLevel k i w).1.outputs = w.outputs := by
  have h := settleLevel_settings k i w
  have hfield {α : Type} (f : WarningUnit → α) := congrArg f h
  exact ⟨hfield (·.retreatStage), hfield (·.retreatLevel), hfield (·.criteria), hfield (·.retreat),
    hfield (·.outputs)⟩

/-- An evaluation leaves no demand above the level (R143). -/
theorem settleLevel_demanded (k : Nat) (i : EvalInputs) (w : WarningUnit)
    (h : k = 0 → (formDemand i w).demanded ≤ w.level) :
    (settleLevel k i w).1.demanded ≤ (settleLevel k i w).1.level := by
  induction k generalizing w with
  | zero => exact h rfl
  | succ k ih =>
    have hlevel : (formDemand i w).level = w.level := rfl
    unfold settleLevel
    dsimp only
    split
    · exact le_refl _
    · split
      · rename_i heq
        exact heq.le
      · rename_i hrise hne
        have hbelow : (formDemand i w).demanded < w.level := by omega
        split
        · refine ih _ fun _ => ?_
          rw [formDemand_fall i w hbelow]
          change _ ≤ w.level - 1
          omega
        · exact hbelow.le

/-! ## Retreat and the outputs -/

theorem retreatAfter_iff (w : WarningUnit) (stage : Option Int) : retreatAfter w stage = true ↔
    (∃ n, w.retreatLevel = some n ∧ n ≤ w.level) ∨
      ∃ r z, w.retreatStage = some r ∧ stage = some z ∧
        (if w.retreat = true then r - w.criteria.hysteresis else r) ≤ z := by
  unfold retreatAfter
  cases w.retreat <;> cases w.retreatLevel <;> cases w.retreatStage <;> cases stage <;> simp

theorem formOutput_iff (level : Nat) (silence : Bool) (o : WarningOutput) :
    let x := formOutput level silence o
    (x.automatic = true ↔ x.showLevel ≤ level ∧ (x.kind = .steady ∨ silence = false)) ∧
      (x.override = .auto → x.driven = x.automatic) ∧ (x.override = .on → x.driven = true) ∧
      (x.override = .off → x.driven = false) := by
  refine ⟨by simp [formOutput], fun h => ?_, fun h => ?_, fun h => ?_⟩ <;>
    simp only [formOutput] at h ⊢ <;> rw [h]

/-- Outputs formed show the level and silence, and their settings stand (R151, R153, R182). -/
theorem formOutputs_formed (s : State) : OutputsFormed (formOutputs s) := by
  have hw := formOutputs_warning s
  refine ⟨formOutputs_kept s, fun o ho => ?_⟩
  rw [hw] at ho ⊢
  obtain ⟨x, -, rfl⟩ := List.mem_map.1 (by simpa using ho : o ∈ s.warning.outputs.toList.map _)
  exact formOutput_iff _ _ x

theorem formed_settings (level : Nat) (silence : Bool) (outputs : Vector WarningOutput 4) {k : Nat} (hk : k < 4) :
    (at' (outputs.map (formOutput level silence)) k).override = (at' outputs k).override ∧
      (at' (outputs.map (formOutput level silence)) k).showLevel = (at' outputs k).showLevel ∧
      (at' (outputs.map (formOutput level silence)) k).kind = (at' outputs k).kind := by
  rw [at'_map _ _ hk]
  exact ⟨rfl, rfl, rfl⟩

theorem OutputsFormed.congr {s t : State} (h : OutputsFormed s) (hs : SameWarning s t) : OutputsFormed t := by
  obtain ⟨hkept, hformed⟩ := h
  refine ⟨?_, ?_⟩
  · rw [hs.kept, hs.warning]
    exact hkept
  · rw [hs.warning]
    exact hformed

/-! ## The notices of an evaluation (R143, R145, R149) -/

/-- What follows the handing on of retreat in an evaluation. -/
theorem handOn_after_retreat (changes : List (Nat × Nat)) (s : State) :
    Notified takeSources (retreatHanded changes s) (handOn changes s) ∧
      SameWarning (retreatJudged changes s) (changes.foldl handLevelChange (retreatJudged changes s)) := by
  have htaken (t : State) : Notified takeSources t (takeAttempt t) := (takeAttempt_moved t).notified
  have hrecalled : Notified takeSources (retreatHanded changes s) (retreatJudged changes s) :=
    (((recallRun_moved .retreat _).notified.mono (by decide)).ite (.refl _ _)).ite (.refl _ _)
  have hlevel (t : State) (c : Nat × Nat) : Notified takeSources t (handLevelChange t c) := by
    refine .trans (t := { t with history := t.history.takeLevel c.2 }) (.of_eq rfl) ?_
    rw [handLevelChange, judgeLevelTriggers_eq]
    refine Notified.ite (.trans ?_ (htaken _)) ?_ <;> exact .of_eq rfl
  have hlevels := hrecalled.trans (foldl_notified _ _ hlevel changes _)
  have hformed := hlevels.trans ((formOutputs_driven _).2.mono (by decide))
  refine ⟨?_, handLevels_sameWarning changes _⟩
  rw [handOn_eq]
  exact (hformed.trans (htaken _)).ite hformed

/-- What follows the raising of the changes in an evaluation. -/
theorem handOn_after_changes (changes : List (Nat × Nat)) (s : State) :
    Notified (2 :: takeSources) (changes.foldl raiseChange s) (handOn changes s) := by
  refine .trans ?_ ((handOn_after_retreat changes s).1.mono (by decide))
  exact ((handCondition_notified .retreat (retreatAfter s.warning s.stage.stilled) _).mono (by decide)).congr
    (s' := changes.foldl raiseChange s) (t' := retreatHanded changes s) rfl rfl

theorem raiseChange_pending (s : State) (c : Nat × Nat) :
    PendingWhereRouted (if c.1 < c.2 then 0 else 1) (raiseChange s c) := by
  unfold raiseChange
  split
  · exact raise_pendingWhereRouted .levelRise s
  · exact raise_pendingWhereRouted .levelFall s

theorem raiseChanges_pending {changes : List (Nat × Nat)} {c : Nat × Nat} (h : c ∈ changes) (s : State) :
    PendingWhereRouted (if c.1 < c.2 then 0 else 1) (changes.foldl raiseChange s) := by
  have hevent : (if c.1 < c.2 then 0 else 1) < 20 ∧
      (if c.1 < c.2 then 0 else 1) ∉ [2, 7, 10, 11, 14, 18] := by split <;> decide
  induction changes generalizing s with
  | nil => cases h
  | cons d rest ih =>
    rw [List.foldl_cons]
    obtain rfl | h := List.mem_cons.1 h
    · exact (raiseChanges_notified rest _).1.pending hevent.1 hevent.2 (raiseChange_pending s c)
    · exact ih h _

/-- A change of the level that an evaluation hands on is raised, and pending to its end. -/
theorem handOn_pending {changes : List (Nat × Nat)} {c : Nat × Nat} (h : c ∈ changes) (s : State) :
    PendingWhereRouted (if c.1 < c.2 then 0 else 1) (handOn changes s) := by
  refine (handOn_after_changes changes s).pending ?_ ?_ (raiseChanges_pending h s) <;> split <;> decide

theorem LevelPath.rise_mem {a b : Nat} {changes : List (Nat × Nat)} (h : LevelPath a b changes) (hab : a < b) :
    (a, b) ∈ changes := by
  obtain ⟨-, rfl⟩ | falls := h
  · exact List.mem_singleton_self _
  · exact absurd falls.le (by omega)

theorem LevelPath.fall_mem {a b : Nat} {changes : List (Nat × Nat)} (h : LevelPath a b changes) (hab : b < a) :
    (a, a - 1) ∈ changes := by
  obtain ⟨hrise, -⟩ | falls := h
  · omega
  · cases changes with
    | nil => exact absurd falls (by simp [Falls]; omega)
    | cons c rest =>
      obtain ⟨rfl, -, -⟩ := falls
      exact List.mem_cons_self

theorem LevelPath.same_nil {a : Nat} {changes : List (Nat × Nat)} (h : LevelPath a a changes) : changes = [] := by
  obtain ⟨hrise, -⟩ | falls := h
  · omega
  · cases changes with
    | nil => rfl
    | cons c rest =>
      obtain ⟨-, h1, falls⟩ := falls
      exact absurd falls.le (by omega)

/-! ## The handing on of an evaluation -/

theorem retreatJudged_sameWarning (changes : List (Nat × Nat)) (s : State) :
    SameWarning (retreatHanded changes s) (retreatJudged changes s) :=
  .ite (.ite (recallRun_sameWarning _ _) {}) {}

/-- Outputs are formed last in an evaluation, and a take leaves them. -/
theorem handOn_formed (changes : List (Nat × Nat)) (s : State) : OutputsFormed (handOn changes s) := by
  have hformed := formOutputs_formed (changes.foldl handLevelChange (retreatJudged changes s))
  rw [handOn_eq]
  exact hformed.congr (.ite (takeAttempt_sameWarning _) {})

theorem handOn_retreat (changes : List (Nat × Nat)) (s : State) :
    (handOn changes s).notices.retreat = (handOn changes s).warning.retreat := by
  have hkept := (handOn_after_retreat changes s).1.kept.2.1 .retreat 2 (by decide) (by decide)
  have hhanded : (retreatHanded changes s).warning.retreat = retreatAfter s.warning s.stage.stilled := by
    rw [(retreatHanded_eq changes s).2]
  rw [(handOn_warning changes s).1, ← hhanded, ← retreatHanded_retreat]
  exact hkept

/-- An evaluation of these inputs from unit w, its changes handed on after others, leaves what R143 to R153 say. -/
theorem handOn_evaluated {i : EvalInputs} {w : WarningUnit} {before : List (Nat × Nat)} {y : State}
    (hy : y.warning = (settleLevel 4 i w).1) (hstage : y.stage.stilled = i.stage) :
    Evaluated i w (handOn (before ++ (settleLevel 4 i w).2) y) := by
  obtain ⟨hretreatStage, hretreatLevel, hcriteria, hretreat, houtputs⟩ := settleLevel_keeps 4 i w
  obtain ⟨path, -, -⟩ := settleLevel_path 4 i w
  have hwarning := handOn_warning_eq (before ++ (settleLevel 4 i w).2) y
  have hlevel : (handOn (before ++ (settleLevel 4 i w).2) y).warning.level = (settleLevel 4 i w).1.level := by
    rw [hwarning, hy]
  refine ⟨?_, fun hrise => ?_, fun hfall => ?_, handOn_retreat _ y, ?_, handOn_formed _ y, fun k hk => ?_⟩
  · rw [hwarning, hy]
  · rw [hlevel] at hrise
    have hmem := path.rise_mem hrise
    have hpending := handOn_pending (List.mem_append_right before hmem) y
    rwa [if_pos hrise] at hpending
  · rw [hlevel] at hfall
    have hmem := path.fall_mem hfall
    have hpending := handOn_pending (List.mem_append_right before hmem) y
    rwa [if_neg (by simp)] at hpending
  · rw [(handOn_warning _ y).1, hlevel, hy, hstage, retreatAfter_iff, hretreatStage, hretreatLevel, hcriteria,
      hretreat]
  · rw [hwarning, hy, houtputs]
    exact formed_settings _ _ _ hk

theorem evaluate_evaluated (s : State) : Evaluated (evalInputs s) s.warning (evaluate s) :=
  handOn_evaluated (before := []) (y := { s with warning := (settleLevel 4 (evalInputs s) s.warning).1 }) rfl rfl

/-- An evaluation that leaves the level raises no change of it. -/
theorem evaluate_quiet {s : State} (h : (evaluate s).warning.level = s.warning.level) :
    Notified (2 :: takeSources) s (evaluate s) := by
  obtain ⟨path, -, -⟩ := settleLevel_path 4 (evalInputs s) s.warning
  have hlevel : (settleLevel 4 (evalInputs s) s.warning).1.level = s.warning.level :=
    (handOn_level _ _).symm.trans h
  rw [hlevel] at path
  have hnotified := handOn_after_changes (settleLevel 4 (evalInputs s) s.warning).2
    { s with warning := (settleLevel 4 (evalInputs s) s.warning).1 }
  rw [path.same_nil] at hnotified
  unfold evaluate
  dsimp only
  rw [path.same_nil]
  exact hnotified.congr rfl rfl

theorem evaluate_demanded (s : State) : (evaluate s).warning.demanded ≤ (evaluate s).warning.level := by
  have hwarning : (evaluate s).warning = _ := handOn_warning_eq _ _
  rw [hwarning]
  exact settleLevel_demanded 4 (evalInputs s) s.warning (by simp)

/-! ## What comes after an evaluation -/

/-- What follows leaves the Warning Unit, the driven values and retreat, and no event stops being pending. -/
theorem Evaluated.after {i : EvalInputs} {w : WarningUnit} {l : List Nat} {s t : State} (h : Evaluated i w s)
    (hs : SameWarning s t) (hn : Notified l s t) : Evaluated i w t := by
  obtain ⟨hwarning, hrise, hfall, hretreat, hiff, hformed, hkept⟩ := h
  have hw := hs.warning
  refine ⟨by rw [hw]; exact hwarning, fun hr => ?_, fun hr => ?_, ?_, by rw [hw]; exact hiff, hformed.congr hs, ?_⟩
  · exact hn.pending (by decide) (by decide) (hrise (by rwa [hw] at hr))
  · exact hn.pending (by decide) (by decide) (hfall (by rwa [hw] at hr))
  · rw [hs.retreat, hw]
    exact hretreat
  · unfold OutputSettingsKept
    rw [hw]
    exact hkept

theorem PendingAsBefore.trans {k : Nat} {s t u : State} (h : PendingAsBefore k s t) (h' : PendingAsBefore k t u) :
    PendingAsBefore k s u := fun p => (h' p).trans (h p)

/-- An evaluation of x's unit, prepared by what leaves the level's notices, and followed by what leaves them: with the
run that follows it is an evaluation from s to t. -/
theorem evaluatedFrom_of {own l : List Nat} {offered : Bool} {cls : Option Nat} {s x t : State}
    (hrun : RunFollows own offered cls s t) (hretreat : x.warning.retreat = s.warning.retreat)
    (hbefore : Notified own s x) (hown : 0 ∉ own ∧ 1 ∉ own) (hs : SameWarning (evaluate x) t)
    (hafter : Notified l (evaluate x) t) (hl : 0 ∉ l ∧ 1 ∉ l) : EvaluatedFrom (evalInputs x) x.warning s t := by
  refine ⟨(evaluate_evaluated x).after hs hafter, fun hlevel => ?_, fun hoff hon hstate => ?_⟩
  · rw [hs.warning] at hlevel
    have hquiet := evaluate_quiet hlevel
    exact ⟨(hbefore.kept.asBefore hown.1).trans ((hquiet.kept.asBefore (by decide)).trans
        (hafter.kept.asBefore hl.1)),
      (hbefore.kept.asBefore hown.2).trans ((hquiet.kept.asBefore (by decide)).trans
        (hafter.kept.asBefore hl.2))⟩
  · unfold RunFollows at hrun
    extract_lets later u v recalls ready first second handed at hrun
    obtain ⟨-, -, hrecalls, -⟩ := hrun
    exact (hrecalls ⟨hretreat ▸ hoff, hon, hstate⟩).1

/-! ## A new current discharge (R49, R50, R142) -/

theorem recomputeDischarge_rating (stage : Option Int) (s : State) :
    (recomputeDischarge stage s).rating =
      { s.rating with stageUsed := stage, current := s.rating.dischargeFor stage } := rfl

theorem recomputeDischarge_beyond (stage : Option Int) (s : State) :
    (recomputeDischarge stage s).notices.beyondRating = (s.rating.dischargeFor stage).mark.beyond :=
  NoticeUnit.hand_holds _ .beyondRating .beyondRating _

theorem beyond_eq (m : RatingMark) : m.beyond = (m == .above || m == .aboveLimit) := by cases m <;> decide

/-- The current discharge recomputed and an evaluation, prepared by what has left the Warning Unit and followed by
what leaves it. -/
theorem ratedAndEvaluated_of {own l : List Nat} {offered : Bool} {cls : Option Nat} {stage : Option Int}
    {s x t : State} (hrun : RunFollows own offered cls s t) (hclock : x.clock = s.clock)
    (hwarning : x.warning = s.warning) (hbefore : Notified own s x) (hown : 0 ∉ own ∧ 1 ∉ own) (h7 : 7 ∈ own)
    (hstage : stage = x.stage.stilled)
    (hs : SameWarning (evaluate (recomputeDischarge stage x)) t)
    (hrating : t.rating = (recomputeDischarge stage x).rating)
    (hafter : Notified l (evaluate (recomputeDischarge stage x)) t) (hl : 0 ∉ l ∧ 1 ∉ l ∧ 7 ∉ l) :
    RatedAndEvaluated x.rating stage x.stage.status x.stage.rise s t := by
  have hprepared : Notified own s (recomputeDischarge stage x) :=
    hbefore.trans ((handCondition_notified .beyondRating (x.rating.dischargeFor stage).mark.beyond
      { x with rating := { x.rating with current := x.rating.dischargeFor stage, stageUsed := stage } }).mono
      (fun k hk => by rw [List.mem_singleton.1 hk]; exact h7) |>.congr rfl rfl)
  have hbeyond : t.notices.beyondRating = (recomputeDischarge stage x).notices.beyondRating :=
    (hafter.kept.2.1 .beyondRating 7 (by decide) hl.2.2).trans
      ((handOn_notified _ _).kept.2.1 .beyondRating 7 (by decide) (by decide))
  have hinputs : evalInputs (recomputeDischarge stage x) =
      ⟨stage, x.stage.status, x.stage.rise, t.rating.current.discharge, nowMs s⟩ := by
    rw [hrating, hstage, evalInputs, nowMs, nowMs, ← hclock]
    rfl
  have hunit : (recomputeDischarge stage x).warning = s.warning :=
    (recomputeDischarge_keeps stage x .warning (by decide)).trans hwarning
  refine ⟨hrating, ?_, ?_⟩
  · rw [hbeyond, recomputeDischarge_beyond, hrating, ← beyond_eq]
    rfl
  · rw [← hinputs, ← hunit]
    exact evaluatedFrom_of hrun (by rw [hunit]) hprepared hown hs hafter ⟨hl.1, hl.2.1⟩

end Sys2Proof.Machine
end

section
/-! SUPPORT. What belongs to one port alone (R200): its cursor and threshold, its enables and attention settings. No
operation that the ports share writes them. -/

namespace Sys2Proof.Machine

/-! ## Cursors and thresholds (R31, R36) -/

/-- From s to t the ports' cursors and thresholds stand. -/
structure SameReaders (s t : State) : Prop where
  cursors : t.history.cursors = s.history.cursors := by rfl
  thresholds : t.history.thresholds = s.history.thresholds := by rfl

theorem SameReaders.trans {s t u : State} (h : SameReaders s t) (h' : SameReaders t u) : SameReaders s u :=
  ⟨h'.cursors.trans h.cursors, h'.thresholds.trans h.thresholds⟩

theorem SameReaders.ite {s t u : State} {c : Prop} [Decidable c] (h : SameReaders s t) (h' : SameReaders s u) :
    SameReaders s (if c then t else u) := by
  split <;> assumption

theorem SameReaders.of_keeps {bs : List Block} {s t : State} (hk : KeepsBut bs s t) (hb : .history ∉ bs) :
    SameReaders s t := by
  have hh : t.history = s.history := hk .history hb
  exact ⟨by rw [hh], by rw [hh]⟩

theorem handOn_sameReaders (changes : List (Nat × Nat)) (s : State) : SameReaders s (handOn changes s) := by
  have hlevels (h : HistoryStore) : (changes.foldl (fun x c => x.takeLevel c.2) h).cursors = h.cursors ∧
      (changes.foldl (fun x c => x.takeLevel c.2) h).thresholds = h.thresholds := by
    induction changes generalizing h with
    | nil => exact ⟨rfl, rfl⟩
    | cons c rest ih => exact ih (h.takeLevel c.2)
  have hhistory := handOn_history changes s
  exact ⟨by rw [hhistory, (hlevels _).1], by rw [hhistory, (hlevels _).2]⟩

theorem evaluate_sameReaders (s : State) : SameReaders s (evaluate s) := .trans {} (handOn_sameReaders _ _)

theorem dwellExpiry_sameReaders (s : State) : SameReaders s (dwellExpiry s) :=
  SameReaders.ite {} (.trans {} (handOn_sameReaders _ _))

theorem rateAgain_sameReaders (s : State) : SameReaders s (rateAgain s) := .trans {} (evaluate_sameReaders _)

theorem takeAttempt_sameReaders (s : State) : SameReaders s (takeAttempt s) :=
  .of_keeps (takeAttempt_keeps s) (by decide)

theorem offer_sameReaders (s : State) : SameReaders s (offer s) :=
  (rateAgain_sameReaders s).trans (.trans {} (takeAttempt_sameReaders _))

theorem startOver_sameReaders (s : State) : SameReaders s (startOver s) :=
  .trans (.of_keeps (setStatus_keeps _ s) (by decide)) (offer_sameReaders _)

theorem formFloor_sameReaders (s : State) : SameReaders s (formFloor s) :=
  SameReaders.ite {} (.trans {} (evaluate_sameReaders _))

theorem delayExpiry_sameReaders (i : Nat) (s : State) : SameReaders s (delayExpiry i s) := by
  simp only [delayExpiry]
  split
  · exact {}
  · exact SameReaders.ite {} (.trans {} (formFloor_sameReaders _))

theorem staleExpiry_sameReaders (i : Nat) (s : State) : SameReaders s (staleExpiry i s) :=
  SameReaders.ite (.trans {} (formFloor_sameReaders _)) {}

theorem raiseIf_sameReaders (b : Bool) (e : Source) (s : State) : SameReaders s (raiseIf b e s) := .ite {} {}

theorem judgeStaleness_sameReaders (s : State) : SameReaders s (judgeStaleness s) := by
  refine SameReaders.ite (.trans ?_ (formFloor_sameReaders _)) ?_
  all_goals exact .trans {} (raiseIf_sameReaders _ _ _)

theorem takeReport_sameReaders (a : ReportArgs) (s : State) : SameReaders s (takeReport a s).1 := by
  have haccepted (t : State) : SameReaders t (handAccepted a.cls t) :=
    .of_keeps (handAccepted_keeps a.cls t) (by decide)
  unfold takeReport
  split
  · exact .trans (SameReaders.ite (.trans {} (formFloor_sameReaders _)) {}) (haccepted _)
  · exact .trans {} (haccepted _)
  · exact {}
  · exact {}

/-! ## Settings of the Notice Unit (R192, R193) -/

/-- From n to m a port's enables, master enable and one-shot flag stand. -/
structure SameSettings (x y : PortNotices) : Prop where
  enables : y.enables = x.enables := by rfl
  master : y.master = x.master := by rfl
  oneShot : y.oneShot = x.oneShot := by rfl

theorem SameSettings.trans {x y z : PortNotices} (h : SameSettings x y) (h' : SameSettings y z) : SameSettings x z :=
  ⟨h'.enables.trans h.enables, h'.master.trans h.master, h'.oneShot.trans h.oneShot⟩

theorem SameSettings.ite {x y z : PortNotices} {c : Prop} [Decidable c] (h : SameSettings x y)
    (h' : SameSettings x z) : SameSettings x (if c then y else z) := by
  split <;> assumption

theorem NoticeUnit.Becomes.settings {n m : NoticeUnit} (h : n.Becomes m) (q : Port) :
    SameSettings (n.port.get q) (m.port.get q) := by
  induction h with
  | same => exact {}
  | @raise m e he _ ih =>
    refine ih.trans ?_
    rw [NoticeUnit.raise, PerPort.get_mapPorts]
    exact .ite {} {}
  | @hand m c v _ ih =>
    refine ih.trans ?_
    unfold NoticeUnit.hand
    dsimp only
    split
    · exact {}
    · rw [PerPort.get_mapPorts]
      exact .ite {} {}
  | @handReady m p v _ ih =>
    refine ih.trans ?_
    unfold NoticeUnit.handReady
    dsimp only
    split
    · exact {}
    · by_cases hq : q = p
      · subst hq
        rw [PerPort.get_set_self]
        exact .ite {} {}
      · rw [PerPort.get_set_other _ hq]
        exact {}

theorem setRoute_settings (n : NoticeUnit) (source : Nat) (route : BitVec 3) (q : Port) :
    SameSettings (n.port.get q) ((n.setRoute source route).port.get q) := by
  rw [setRoute_port]
  exact .ite (.ite {} (.ite {} {})) (.ite {} {})

/-- The own requests of the Notice Unit set their own port only. -/
theorem acts_settings {i : Instr} {p q : Port} {s t : State} (h : Acts i s t) (hp : i.port? = some p) (hq : q ≠ p)
    (hi : ∀ x, i ≠ .stationReset x) : SameSettings (s.notices.port.get q) (t.notices.port.get q) := by
  cases hsets : setsNotices i with
  | false => exact (acts_informs h hsets).settings q
  | true =>
    have hown {x : PortNotices} {r : Port} (hr : (some r : Option Port) = some p) :
        SameSettings (s.notices.port.get q) ((s.notices.port.set r x).get q) := by
      obtain rfl := Option.some.inj hr
      rw [PerPort.get_set_other _ hq]
      exact {}
    cases h with
    | fetchNotices | setNoticeEnable | setAttention => exact hown hp
    | setRoute => exact setRoute_settings _ _ _ q
    | stationReset => exact absurd rfl (hi _)
    | resetNActivation | porAssert | porRelease => cases hp
    | _ => cases hsets

/-! ## Isolation (R200) -/

/-- From s to t port q's cursor and threshold stand. -/
def ReaderKept (q : Port) (s t : State) : Prop :=
  t.history.cursors.get q = s.history.cursors.get q ∧ t.history.thresholds.get q = s.history.thresholds.get q

theorem SameReaders.readerKept {s t : State} (h : SameReaders s t) (q : Port) : ReaderKept q s t :=
  ⟨by rw [h.cursors], by rw [h.thresholds]⟩

theorem moveCursor_history (p : Port) (cursor : Nat) (s : State) :
    (moveCursor p cursor s).history = { s.history with cursors := s.history.cursors.set p cursor } := rfl

theorem acts_readerKept {i : Instr} {p q : Port} {s t : State} (h : Acts i s t) (hp : i.port? = some p)
    (hq : q ≠ p) (hi : ∀ x, i ≠ .stationReset x) : ReaderKept q s t := by
  have htake (u : State) : SameReaders u (takeAttempt u) := takeAttempt_sameReaders u
  have hform (u : State) : SameReaders u (formOutputs u) := .of_keeps (formOutputs_keeps u) (by decide)
  have hof {t : State} (h : SameReaders s t) : ReaderKept q s t := h.readerKept q
  cases h with
  | readHistory | seekHistory =>
    obtain rfl := Option.some.inj hp
    refine ⟨?_, rfl⟩
    rw [moveCursor_history, PerPort.get_set_other _ hq]
  | setHistoryThreshold =>
    obtain rfl := Option.some.inj hp
    exact ⟨rfl, PerPort.get_set_other _ hq _⟩
  | stationReset => exact absurd rfl (hi _)
  | setClock | setHistoryInterval | writeStagedPoint | clearStaged | writeVertical | clearVertical | writeMeter
  | defineSlot | clearRequest | setSlotPriority | readLines | fetchNotices | setNoticeEnable | setAttention | setRoute
  | setHash | clearUpstreamCounters => exact hof {}
  | configureStage | checkGauge => exact hof (.trans {} (startOver_sameReaders _))
  | installRating | setShift | setExtrapolationLimit => exact hof (.trans {} (rateAgain_sameReaders _))
  | armSlot | startRun => exact hof (.trans {} (htake _))
  | disarmSlot => exact hof (.of_keeps (disarmSlot_keeps _ s) (by decide))
  | positionReached => exact hof (.of_keeps (arrive_keeps _ s) (by decide))
  | depthReached => exact hof (.trans {} (.of_keeps (startSettling_keeps _) (by decide)))
  | homeReached => exact hof (.trans {} (.of_keeps (endIdle_keeps _ _) (by decide)))
  | proceed => exact hof (.of_keeps (proceedRun_keeps s) (by decide))
  | cancelRun => exact hof (.of_keeps (recallRun_keeps _ s) (by decide))
  | carriageFault => exact hof (.of_keeps (tripEngine_keeps _ s) (by decide))
  | clearTrip => exact hof (.trans (.of_keeps (enter_keeps .idle s) (by decide)) (htake _))
  | resetEngine => exact hof (.of_keeps (resetEngine_keeps s) (by decide))
  | setLevelCriteria | setRetreat => exact hof (.trans {} (evaluate_sameReaders _))
  | setWarningOutput | overrideOn | overrideOff | overrideAuto => exact hof (.trans {} (hform _))
  | silence => exact hof (.of_keeps (takeSilence_keeps s) (by decide))
  | upstreamReport => exact hof (takeReport_sameReaders _ s)
  | setUpstreamEntry => exact hof (SameReaders.ite (.trans {} (formFloor_sameReaders _)) {})
  | setUpstreamFilter => exact hof (.trans {} (judgeStaleness_sameReaders _))
  | writeLines => exact hof (.of_keeps (changeLines_keeps _ s) (by decide))
  | configureLine => exact hof (.of_keeps (configureLine_keeps _ _ s) (by decide))
  | _ => cases hp

theorem acts_request_ports {i : Instr} {s t : State} (h : Acts i s t) (hport : i.port?.isSome = true)
    (hi : ∀ x, i ≠ .stationReset x) : t.ports = s.ports := by
  cases hbase : setsBase i
  case false => exact (acts_sameBase h hbase).ports
  case true =>
    cases h with
    | setClock => rfl
    | stationReset => exact absurd rfl (hi _)
    | stationClockAdvance | uptimeAdvance | resetNActivation | porAssert | porRelease => cases hport
    | _ => cases hbase

/-- Settles O7: by the acts of a request. -/
theorem portsAreIsolated : Obligations.PortsAreIsolated := by
  intro i p q s t hp hq hi hexec
  obtain ⟨u, v, hsu, huv, hvt⟩ := everyRunLeads i s t hexec
  have hother : i.port? ≠ some q := by
    rw [hp]
    exact fun h => hq (Option.some.inj h).symm
  have hreader : ReaderKept q u v := by
    obtain rfl | hacts := huv
    · exact ⟨rfl, rfl⟩
    · exact acts_readerKept hacts hp hq hi
  have hsettings : SameSettings (u.notices.port.get q) (v.notices.port.get q) := by
    obtain rfl | hacts := huv
    · exact {}
    · exact acts_settings hacts hp hq hi
  have hports : v.ports = u.ports := by
    obtain rfl | hacts := huv
    · rfl
    · exact acts_request_ports hacts (by simp [hp]) hi
  have hhistory : u.history = s.history := hsu.keeps .history (by decide)
  have hhistory' : t.history = v.history := hvt.keeps .history (by decide)
  have hnotices : u.notices = s.notices := hsu.keeps .notices (by decide)
  have hnotices' : t.notices = v.notices := hvt.keeps .notices (by decide)
  refine ⟨?_, ?_, ?_, ?_, ?_, ?_⟩
  · rw [hhistory', hreader.1, hhistory]
  · rw [hhistory', hreader.2, hhistory]
  · rw [hvt.others q hother, hports, hsu.others q hother]
  · rw [hnotices', hsettings.enables, hnotices]
  · rw [hnotices', hsettings.master, hnotices]
  · rw [hnotices', hsettings.oneShot, hnotices]

end Sys2Proof.Machine
end

section
/-! SUPPORT. What a request's owner answers, and the requests that recompute the current discharge and evaluate
(R42 to R45, R49, R50). -/

namespace Sys2Proof.Machine

/-! ## An owner's answer (R201, R203) -/

/-- A request taken leaves what its owner makes, with the owner's reply. -/
theorem exec_owner {i : Instr} {p : Port} {code : Nat} {owner : State → State × Reply} {s t : State} {r : Reply}
    (htake : Takes p code s) (taken : exec i s = .next (request code p s owner))
    (h : owner (closeWindow p s) = (t, r)) : exec i s = .next (setReply p r t) := by
  rw [taken, request_taken htake, h]

/-- A request that its owner refuses. -/
theorem refuses_owner {i : Instr} {p : Port} {code : Nat} {owner : State → State × Reply} {s : State} {r : Reply}
    (htake : Takes p code s) (taken : exec i s = .next (request code p s owner))
    (h : owner (closeWindow p s) = (closeWindow p s, r)) (hr : r.status.isRefusal = true) : Refuses i p s r :=
  ⟨hr, exec_owner htake taken h⟩

theorem withinInt_iff {lo hi z : Int} : withinInt lo hi z = true ↔ lo ≤ z ∧ z ≤ hi := by simp [withinInt]

theorem within_iff {lo hi n : Nat} : within lo hi n = true ↔ lo ≤ n ∧ n ≤ hi := by simp [within]

/-! ## An evaluation that a request brings -/

/-- What an evaluation without an offer leaves of the slots, the run and the open interval. -/
structure EvaluationFollows (own : List Nat) (s t : State) : Prop where
  slots : SlotsJudged false none s t
  run : RunFollows own false none s t
  interval : IntervalTakes false s t

/-- An evaluation that a command has prepared. -/
theorem evaluate_evaluates {own : List Nat} {s x : State} (hp : Prepared own s x) (hh : x.history = s.history)
    (hown : 10 ∉ own ∧ 11 ∉ own ∧ 14 ∉ own) (hlevel : 0 ∉ own ∧ 1 ∉ own) :
    EvaluatedFrom (evalInputs x) x.warning s (evaluate x) ∧ EvaluationFollows own s (evaluate x) := by
  have hrun := evaluate_follows hown hp
  have htaken := evaluate_taken x
  rw [hp.level, hh] at htaken
  exact ⟨evaluatedFrom_of (l := []) hrun hp.retreat hp.notified hlevel {} (.refl _ _) (by simp),
    hrun.slotsJudged, hrun, htaken.intervalTakes⟩

theorem recomputeDischarge_notified (stage : Option Int) (s : State) : Notified [7] s (recomputeDischarge stage s) :=
  (handCondition_notified .beyondRating (s.rating.dischargeFor stage).mark.beyond
    { s with rating := { s.rating with current := s.rating.dischargeFor stage, stageUsed := stage } }).congr rfl rfl

/-- The current discharge recomputed and an evaluation, which a command has prepared. -/
theorem rateAgain_evaluates {own : List Nat} {s x : State} (hp : Prepared own s x) (hh : x.history = s.history)
    (hw : x.warning = s.warning) (hown : 10 ∉ own ∧ 11 ∉ own ∧ 14 ∉ own) (hlevel : 0 ∉ own ∧ 1 ∉ own) (h7 : 7 ∈ own) :
    RatedAndEvaluated x.rating x.stage.stilled x.stage.status x.stage.rise s (rateAgain x) ∧
      EvaluationFollows own s (rateAgain x) := by
  have hrun := rateAgain_follows hown h7 hp
  have htaken := evaluate_taken (recomputeDischarge x.stage.stilled x)
  have hlevels : (recomputeDischarge x.stage.stilled x).warning = s.warning :=
    (recomputeDischarge_keeps _ x .warning (by decide)).trans hw
  have hhistory : (recomputeDischarge x.stage.stilled x).history = s.history :=
    (recomputeDischarge_keeps _ x .history (by decide)).trans hh
  rw [hlevels, hhistory] at htaken
  exact ⟨ratedAndEvaluated_of (l := []) hrun hp.same.clock hw hp.notified hlevel h7 rfl {}
      (evaluate_keeps _ .rating (by decide)) (.refl _ _) (by simp),
    hrun.slotsJudged, hrun, htaken.intervalTakes⟩

/-! ## SET_SHIFT and SET_EXTRAPOLATION_LIMIT (R44, R45) -/

theorem rateAgain_blocks {x y : State} (hx : KeepsBut [.rating, .notices] x y) :
    KeepsBut [.rating, .warning, .notices, .lines, .history, .plan, .engine, .results] x (rateAgain y) :=
  (hx.mono (by decide)).trans ((rateAgain_keeps y).mono (by decide))

theorem withRating_keeps (r : RatingUnit) (s : State) : KeepsBut [.rating, .notices] s { s with rating := r } := by
  intro b hb
  cases b <;> simp at hb <;> rfl

/-- A setting of the Rating Unit taken: the unit is replaced, the current discharge recomputed, and an evaluation
made. -/
theorem rateAgain_setting {p : Port} {s : State} (r : RatingUnit) :
    let t := rateAgain { closeWindow p s with rating := r }
    RatedAndEvaluated r s.stage.stilled s.stage.status s.stage.rise s t ∧ EvaluationFollows [7] s t ∧
      t.warning.demanded ≤ t.warning.level ∧
      KeepsBut [.rating, .warning, .notices, .lines, .history, .plan, .engine, .results] (closeWindow p s) t := by
  have hp : Prepared [7] s { closeWindow p s with rating := r } :=
    ⟨⟨rfl, rfl, rfl, rfl, rfl⟩, rfl, .of_eq rfl, rfl, rfl⟩
  obtain ⟨hrated, hfollows⟩ := rateAgain_evaluates hp rfl rfl (by decide) (by decide) (by decide)
  exact ⟨hrated, hfollows, evaluate_demanded _, rateAgain_blocks (withRating_keeps r _)⟩

theorem setShift_refuses {p : Port} {s : State} (htake : Takes p 0x27 s) {z : Int} (h : z < -500 ∨ 500 < z) :
    Refuses (.setShift p z) p s ⟨.range, []⟩ :=
  refuses_owner htake rfl (if_neg (by rw [withinInt_iff]; omega)) rfl

theorem exec_setShift {p : Port} {s : State} (htake : Takes p 0x27 s) {z : Int} (h : -500 ≤ z) (h' : z ≤ 500) :
    exec (.setShift p z) s = .next (setReply p ⟨.ok, i16 s.rating.shift⟩
      (rateAgain { closeWindow p s with rating := withShift z s.rating })) :=
  exec_owner htake rfl (if_pos (withinInt_iff.2 ⟨h, h'⟩))

theorem setExtrapolationLimit_refuses {p : Port} {s : State} (htake : Takes p 0x28 s) {n : Nat} (h : 2000 < n) :
    Refuses (.setExtrapolationLimit p n) p s ⟨.range, []⟩ :=
  refuses_owner htake rfl (if_neg (by rw [within_iff]; omega)) rfl

theorem exec_setExtrapolationLimit {p : Port} {s : State} (htake : Takes p 0x28 s) {n : Nat} (h : n ≤ 2000) :
    exec (.setExtrapolationLimit p n) s = .next (setReply p ⟨.ok, u16 s.rating.limit⟩
      (rateAgain { closeWindow p s with rating := withLimit n s.rating })) :=
  exec_owner htake rfl (if_pos (within_iff.2 ⟨Nat.zero_le n, h⟩))

/-- Settles O27: both settings are a new Rating Unit rated again. -/
theorem ratingSettings : Obligations.RatingSettings := by
  intro p s
  refine ⟨fun htake z => ⟨setShift_refuses htake, fun h h' => ⟨_, exec_setShift htake h h', ?_⟩⟩,
    fun htake n => ⟨setExtrapolationLimit_refuses htake, fun h => ⟨_, exec_setExtrapolationLimit htake h, ?_⟩⟩⟩
  · obtain ⟨hrated, hfollows, hdemand, hkeeps⟩ := rateAgain_setting (p := p) (s := s) (withShift z s.rating)
    exact ⟨hrated, hfollows.slots, hfollows.run, hfollows.interval, hdemand, hkeeps⟩
  · obtain ⟨hrated, hfollows, hdemand, hkeeps⟩ := rateAgain_setting (p := p) (s := s) (withLimit n s.rating)
    exact ⟨hrated, hfollows.slots, hfollows.run, hfollows.interval, hdemand, hkeeps⟩

/-! ## The check of the staged table (R42) -/

/-- A staged list without an empty index and with every point above the one before it passes. -/
theorem checkStagedFrom_sound {i : Nat} {before : Option Breakpoint} {points : List Breakpoint}
    (h : (before.toList ++ points).IsChain PointsRise) : checkStagedFrom i before (points.map some) = none := by
  induction points generalizing i before with
  | nil => rfl
  | cons b rest ih =>
    have hrest : (some b).toList ++ rest = b :: rest := rfl
    cases before with
    | none => exact ih (before := some b) (by simpa using h)
    | some a =>
      simp only [Option.toList_some, List.singleton_append, List.isChain_cons_cons] at h
      obtain ⟨⟨hh, hq⟩, hchain⟩ := h
      simp only [List.map_cons, checkStagedFrom]
      rw [if_neg (by simpa using hh), if_neg (by omega)]
      exact ih (before := some b) hchain

theorem eq_map_some_of_length {α : Type} {l : List (Option α)} (h : (l.filterMap id).length = l.length) :
    l = (l.filterMap id).map some := by
  have hall := List.filterMap_length_eq_length.1 h
  clear h
  induction l with
  | nil => rfl
  | cons o rest ih =>
    have hrest := ih fun x hx => hall x (List.mem_cons_of_mem _ hx)
    cases o with
    | none => exact absurd (hall none List.mem_cons_self) (by simp)
    | some b => exact congrArg (some b :: ·) hrest

theorem pointsRise_pairwise (points : List Breakpoint) : points.Pairwise PointsRise ↔ points.IsChain PointsRise := by
  have htrans : IsTrans Breakpoint PointsRise := ⟨fun _ _ _ h h' => ⟨h.1.trans h'.1, h.2.trans h'.2⟩⟩
  exact List.isChain_iff_pairwise.symm

theorem stagedList_length_eq (staged : Vector (Option Breakpoint) 24) :
    (staged.toList.take (stagedCount staged)).length = stagedCount staged := stagedList_length staged

/-- The check passes exactly where R42 asks for nothing more. -/
theorem checkStaged_iff (staged : Vector (Option Breakpoint) 24) : checkStaged staged = none ↔
    2 ≤ stagedCount staged ∧ (stagedPoints staged).length = stagedCount staged ∧
      (stagedPoints staged).Pairwise PointsRise := by
  have hlist := stagedList_length staged
  simp only [checkStaged]
  by_cases hcount : stagedCount staged < 2
  · rw [if_pos hcount]
    simp only [reduceCtorEq, false_iff]
    omega
  · rw [if_neg hcount, pointsRise_pairwise]
    constructor
    · intro h
      obtain ⟨hlen, hchain⟩ := checkStagedFrom_none h
      exact ⟨by omega, hlen.trans hlist, hchain⟩
    · rintro ⟨-, hlen, hchain⟩
      rw [eq_map_some_of_length (hlen.trans hlist.symm)]
      exact checkStagedFrom_sound (before := none) hchain

/-- The check comes to index i where every index before it is sound. -/
theorem checkStagedFrom_reaches {k i : Nat} {before : Option Breakpoint} {l : List (Option Breakpoint)}
    (hi : i < l.length)
    (sound : ∀ j, j < i → ∃ b, l[j]? = some (some b) ∧
      ∀ a, (if j = 0 then before else l[j - 1]?.join) = some a → PointsRise a b) :
    checkStagedFrom k before l =
      checkStagedFrom (k + i) (if i = 0 then before else l[i - 1]?.join) (l.drop i) := by
  induction i generalizing k before l with
  | zero => rfl
  | succ i ih =>
    obtain ⟨b, hb, hrise⟩ := sound 0 (by omega)
    cases l with
    | nil => simp at hi
    | cons o rest =>
      obtain rfl : o = some b := by simpa using hb
      have hstep : checkStagedFrom k before (some b :: rest) = checkStagedFrom (k + 1) (some b) rest := by
        cases before with
        | none => rfl
        | some a =>
          obtain ⟨hh, hq⟩ := hrise a rfl
          simp only [checkStagedFrom]
          rw [if_neg (by simpa using hh), if_neg (by omega)]
      have hrest := ih (k := k + 1) (before := some b) (l := rest) (by simpa using hi) fun j hj => by
        obtain ⟨c, hc, hrise⟩ := sound (j + 1) (by omega)
        refine ⟨c, by simpa using hc, fun a ha => hrise a ?_⟩
        cases j with
        | zero => simpa using ha
        | succ j => simpa using ha
      rw [hstep, hrest, show k + 1 + i = k + (i + 1) by omega]
      cases i with
      | zero => rfl
      | succ i => simp

/-- An index of the staged table is sound: it holds a point, above the one before it. -/
def SoundIndex (staged : Vector (Option Breakpoint) 24) (j : Nat) : Prop :=
  (at' staged j).isSome = true ∧ (1 ≤ j → ∀ a b, at' staged (j - 1) = some a → at' staged j = some b →
    a.h < b.h ∧ a.q ≤ b.q)

theorem stagedList_get {staged : Vector (Option Breakpoint) 24} {j : Nat} (h : j < stagedCount staged) :
    (staged.toList.take (stagedCount staged))[j]? = some (at' staged j) := by
  have hle := stagedCount_le staged
  rw [List.getElem?_take_of_lt h, at'_eq staged (by omega)]
  simp [show j < 24 by omega]

/-- The check of the table at its first index that is not sound. -/
theorem checkStaged_at {staged : Vector (Option Breakpoint) 24} {i : Nat} (hcount : 2 ≤ stagedCount staged)
    (hi : i < stagedCount staged) (sound : ∀ j, j < i → SoundIndex staged j) : ∃ rest,
    checkStaged staged = checkStagedFrom i (if i = 0 then none else at' staged (i - 1)) (at' staged i :: rest) := by
  have hlist := stagedList_length staged
  have hjoin (j : Nat) (hj : j < stagedCount staged) :
      (staged.toList.take (stagedCount staged))[j]?.join = at' staged j := by rw [stagedList_get hj]; rfl
  have hreach := checkStagedFrom_reaches (k := 0) (before := none) (i := i)
    (l := staged.toList.take (stagedCount staged)) (by omega) fun j hj => by
      obtain ⟨hsome, hrise⟩ := sound j hj
      obtain ⟨b, hb⟩ := Option.isSome_iff_exists.1 hsome
      refine ⟨b, by rw [stagedList_get (by omega), hb], fun a ha => ?_⟩
      split at ha
      · cases ha
      · rw [hjoin _ (by omega)] at ha
        exact hrise (by omega) a b ha hb
  refine ⟨(staged.toList.take (stagedCount staged)).drop (i + 1), ?_⟩
  have hdrop : (staged.toList.take (stagedCount staged)).drop i =
      at' staged i :: (staged.toList.take (stagedCount staged)).drop (i + 1) := by
    have hget := List.getElem?_eq_some_iff.1 (stagedList_get hi)
    obtain ⟨hlt, hget⟩ := hget
    rw [List.drop_eq_getElem_cons hlt, hget]
  rw [Nat.zero_add, hdrop] at hreach
  simp only [checkStaged]
  rw [if_neg (by omega), hreach]
  congr 1
  split
  · rfl
  · exact hjoin _ (by omega)

/-! ## INSTALL_RATING (R42, R43) -/

theorem installRating_refuses {p : Port} {s : State} {fault : StagedFault} (htake : Takes p 0x26 s)
    (h : checkStaged s.rating.staged = some fault) :
    Refuses (.installRating p) p s ⟨.range, stagedFaultData fault⟩ := by
  refine refuses_owner htake rfl ?_ rfl
  change (match checkStaged s.rating.staged with
    | some fault => (closeWindow p s, rangeReply (stagedFaultData fault))
    | none => _) = _
  rw [h]
  rfl

theorem exec_installRating {p : Port} {s : State} (htake : Takes p 0x26 s)
    (h : checkStaged s.rating.staged = none) :
    exec (.installRating p) s = .next (setReply p
      ⟨.ok, u8 (nextVersion s.rating.version) ++ u8 (stagedPoints s.rating.staged).length⟩
      (rateAgain (raise .ratingInstalled { closeWindow p s with rating := s.rating.install }))) := by
  refine exec_owner htake rfl ?_
  change (match checkStaged s.rating.staged with
    | some fault => (closeWindow p s, rangeReply (stagedFaultData fault))
    | none => _) = _
  rw [h]
  rfl

/-- The first fault of a table whose indices are sound up to it. -/
theorem installRating_refuses_at {p : Port} {s : State} (htake : Takes p 0x26 s) {i : Nat}
    (hcount : 2 ≤ stagedCount s.rating.staged) (hi : i < stagedCount s.rating.staged)
    (sound : ∀ j, j < i → SoundIndex s.rating.staged j) :
    (at' s.rating.staged i = none → Refuses (.installRating p) p s ⟨.range, u8 1 ++ u8 i⟩) ∧
      ∀ a b, 1 ≤ i → at' s.rating.staged (i - 1) = some a → at' s.rating.staged i = some b →
        (b.h ≤ a.h → Refuses (.installRating p) p s ⟨.range, u8 2 ++ u8 i⟩) ∧
        (a.h < b.h → b.q < a.q → Refuses (.installRating p) p s ⟨.range, u8 3 ++ u8 i⟩) := by
  obtain ⟨rest, hcheck⟩ := checkStaged_at hcount hi sound
  refine ⟨fun hnone => ?_, fun a b h1 ha hb => ?_⟩
  · rw [hnone] at hcheck
    exact installRating_refuses (fault := .emptyIndex i) htake (hcheck.trans (by rfl))
  · rw [if_neg (by omega), ha, hb] at hcheck
    simp only [checkStagedFrom] at hcheck
    refine ⟨fun hh => ?_, fun hh hq => ?_⟩
    · rw [if_pos (by omega)] at hcheck
      exact installRating_refuses (fault := .stageOrder i) htake hcheck
    · rw [if_neg (by omega), if_pos hq] at hcheck
      exact installRating_refuses (fault := .dischargeOrder i) htake hcheck

theorem rateAgain_installed (p : Port) (s : State) :
    let t := rateAgain (raise .ratingInstalled { closeWindow p s with rating := s.rating.install })
    RatedAndEvaluated s.rating.install s.stage.stilled s.stage.status s.stage.rise s t ∧
      EvaluationFollows [7, 8] s t ∧ PendingWhereRouted 8 t ∧ t.warning.demanded ≤ t.warning.level ∧
      KeepsBut [.rating, .warning, .notices, .lines, .history, .plan, .engine, .results] (closeWindow p s) t := by
  have hraised := raise_notified .ratingInstalled { closeWindow p s with rating := s.rating.install }
  have hp : Prepared [7, 8] s (raise .ratingInstalled { closeWindow p s with rating := s.rating.install }) :=
    ⟨⟨rfl, rfl, rfl, rfl, rfl⟩, rfl, (hraised.mono (by decide)).congr rfl rfl, rfl, rfl⟩
  obtain ⟨hrated, hfollows⟩ := rateAgain_evaluates hp rfl rfl (by decide) (by decide) (by decide)
  refine ⟨hrated, hfollows, ?_, evaluate_demanded _, rateAgain_blocks ?_⟩
  · have hpending := raise_pendingWhereRouted .ratingInstalled { closeWindow p s with rating := s.rating.install }
    have hrecomputed := (recomputeDischarge_notified s.stage.stilled _).pending (by decide) (by decide) hpending
    exact (handOn_notified _ _).pending (by decide) (by decide) hrecomputed
  · exact (withRating_keeps _ _).trans ((raise_keeps _ _).mono (by decide))

/-- Settles O26: the check walks to its first fault, and an install is a new Rating Unit rated again. -/
theorem installRating : Obligations.InstallRating := by
  refine ⟨checkStaged_iff, fun p s htake => ⟨fun hcount => ?_, fun hfault => ?_, fun hcount i hi sound =>
    installRating_refuses_at htake hcount hi sound, fun hnone => ⟨_, exec_installRating htake hnone, ?_⟩⟩⟩
  · exact installRating_refuses (fault := .count _) htake (if_pos hcount)
  · obtain ⟨fault, h⟩ := Option.ne_none_iff_exists'.1 hfault
    exact ⟨_, installRating_refuses htake h⟩
  · obtain ⟨hrated, hfollows, hpending, hdemand, hkeeps⟩ := rateAgain_installed p s
    exact ⟨hrated, hfollows.slots, hfollows.run, hfollows.interval, hpending, hdemand, hkeeps⟩

end Sys2Proof.Machine
end

section
/-! SUPPORT. SET_LEVEL_CRITERIA, SET_RETREAT, the level against its demand and the dwell timer's expiry (R136, R143 to
R149). -/

namespace Sys2Proof.Machine

/-! ## Ranges and order of the criteria (R136) -/

theorem firstFault_none_iff (fields : List Bool) : firstFault fields = none ↔ ∀ b ∈ fields, b = true := by
  simp [firstFault, List.findIdx?_eq_none_iff]

theorem tri_levels {j : Nat} (h1 : 1 ≤ j) (h3 : j ≤ 3) : j = 1 ∨ j = 2 ∨ j = 3 := by omega

theorem triAll_iff {α : Type} (t : Tri (Option α)) (f : α → Bool) :
    (∀ b ∈ (triList t).map (·.all f), b = true) ↔
      ∀ j x, 1 ≤ j → j ≤ 3 → triAt t j = some x → f x = true := by
  have hall (o : Option α) : o.all f = true ↔ ∀ x, o = some x → f x = true := by cases o <;> simp
  simp only [triList, List.map_cons, List.map_nil, List.forall_mem_cons, hall]
  constructor
  · rintro ⟨h1, h2, h3, -⟩ j x hj hj' hx
    obtain rfl | rfl | rfl := tri_levels hj hj'
    · exact h1 x hx
    · exact h2 x hx
    · exact h3 x hx
  · intro h
    exact ⟨fun x => h 1 x (by omega) (by omega), fun x => h 2 x (by omega) (by omega),
      fun x => h 3 x (by omega) (by omega), List.forall_mem_nil _⟩

theorem criteriaFields_fit (a : CriteriaArgs) : firstFault (criteriaFieldsInRange a) = none ↔
    (∀ j x, 1 ≤ j → j ≤ 3 → triAt a.stage j = some x → -1000 ≤ x ∧ x ≤ 15000) ∧
      (∀ j x, 1 ≤ j → j ≤ 3 → triAt a.discharge j = some x → 1 ≤ x ∧ x ≤ 4000000) ∧
      (∀ j x, 1 ≤ j → j ≤ 3 → triAt a.rise j = some x → 1 ≤ x ∧ x ≤ 5000) ∧
      a.hysteresis ≤ 1000 ∧ a.dischargeHysteresis ≤ 500 ∧ a.dwell ≤ 240 := by
  rw [firstFault_none_iff, criteriaFieldsInRange]
  simp only [List.forall_mem_append, triAll_iff, List.forall_mem_cons, within_iff, stageInRange, withinInt_iff,
    Nat.zero_le, true_and, and_assoc]
  exact ⟨fun ⟨hs, hd, hr, hh, hq, hw, _⟩ => ⟨hs, hd, hr, hh, hq, hw⟩,
    fun ⟨hs, hd, hr, hh, hq, hw⟩ => ⟨hs, hd, hr, hh, hq, hw, List.forall_mem_nil _⟩⟩

/-- The thresholds present never decrease with the level. -/
def Ascending (f : Nat → Option Int) : Prop :=
  ∀ i j x y, 1 ≤ i → i < j → j ≤ 3 → f i = some x → f j = some y → x ≤ y

theorem ascending_iff (f : Nat → Option Int) : Ascending f ↔
    (∀ x y, f 1 = some x → f 2 = some y → x ≤ y) ∧ (∀ x y, f 1 = some x → f 3 = some y → x ≤ y) ∧
      ∀ x y, f 2 = some x → f 3 = some y → x ≤ y := by
  constructor
  · intro h
    exact ⟨fun x y => h 1 2 x y (by omega) (by omega) (by omega), fun x y => h 1 3 x y (by omega) (by omega)
      (by omega), fun x y => h 2 3 x y (by omega) (by omega) (by omega)⟩
  · rintro ⟨h12, h13, h23⟩ i j x y h1 hij h3
    obtain ⟨rfl, rfl⟩ | ⟨rfl, rfl⟩ | ⟨rfl, rfl⟩ : (i = 1 ∧ j = 2) ∨ (i = 1 ∧ j = 3) ∨ (i = 2 ∧ j = 3) := by omega
    · exact h12 x y
    · exact h13 x y
    · exact h23 x y

theorem firstDecrease_none (t : Tri (Option Int)) :
    firstDecrease 1 none (triList t) = none ↔ Ascending fun j => triAt t j := by
  rw [ascending_iff]
  obtain ⟨one, two, three⟩ := t
  cases one <;> cases two <;> cases three <;> simp [firstDecrease, triList, triAt]
  split
  · simp only [reduceCtorEq, false_iff]
    omega
  · split
    · simp only [reduceCtorEq, false_iff]
      omega
    · simp only [true_iff]
      omega

/-- The same of thresholds that are whole numbers. -/
theorem firstDecrease_none_nat (t : Tri (Option Nat)) :
    firstDecrease 1 none ((triList t).map (·.map Int.ofNat)) = none ↔
      Ascending fun j => (triAt t j).map Int.ofNat := by
  have hat : (fun j => (triAt t j).map Int.ofNat) = fun j =>
      triAt (⟨t.one.map Int.ofNat, t.two.map Int.ofNat, t.three.map Int.ofNat⟩ : Tri (Option Int)) j := by
    funext j
    match j with
    | 0 | 1 | 2 | _ + 3 => rfl
  rw [hat, ← firstDecrease_none]
  rfl

theorem orderFault_none (a : CriteriaArgs) : orderFault a = none ↔
    Ascending (fun j => triAt a.stage j) ∧ Ascending (fun j => (triAt a.discharge j).map Int.ofNat) ∧
      Ascending (fun j => (triAt a.rise j).map Int.ofNat) := by
  rw [← firstDecrease_none, ← firstDecrease_none_nat, ← firstDecrease_none_nat]
  simp only [orderFault]
  split <;> simp_all

/-! ## SET_LEVEL_CRITERIA and SET_RETREAT (R136, R148) -/

/-- Settings of the Warning Unit taken, and an evaluation. -/
theorem evaluate_setting {p : Port} {s : State} {w : WarningUnit} (hretreat : w.retreat = s.warning.retreat)
    (hlevel : w.level = s.warning.level) :
    let t := evaluate { closeWindow p s with warning := w }
    KeepsBut evaluationBlocks (closeWindow p s) t ∧ EvaluatedFrom (evalInputs s) w s t ∧
      EvaluationFollows [] s t := by
  have hp : Prepared [] s { closeWindow p s with warning := w } :=
    ⟨⟨rfl, rfl, rfl, rfl, rfl⟩, rfl, .of_eq rfl, hretreat, hlevel⟩
  obtain ⟨hfrom, hfollows⟩ := evaluate_evaluates hp rfl (by simp) (by simp)
  exact ⟨((withWarning_keeps w _).mono (by decide)).trans (evaluate_keeps _), hfrom, hfollows⟩

theorem setLevelCriteria_refuses_field {p : Port} {a : CriteriaArgs} {s : State} {f : Nat}
    (htake : Takes p 0x61 s) (h : firstFault (criteriaFieldsInRange a) = some f) :
    Refuses (.setLevelCriteria p a) p s ⟨.range, u8 f⟩ := by
  refine refuses_owner htake rfl ?_ rfl
  simp only [h]
  rfl

theorem setLevelCriteria_refuses_order {p : Port} {a : CriteriaArgs} {s : State} {kind j : Nat}
    (htake : Takes p 0x61 s) (h : firstFault (criteriaFieldsInRange a) = none) (ho : orderFault a = some (kind, j)) :
    Refuses (.setLevelCriteria p a) p s ⟨.range, u8 kind ++ u8 j⟩ := by
  refine refuses_owner htake rfl ?_ rfl
  simp only [h, ho]
  rfl

theorem exec_setLevelCriteria {p : Port} {a : CriteriaArgs} {s : State} (htake : Takes p 0x61 s)
    (h : firstFault (criteriaFieldsInRange a) = none) (ho : orderFault a = none) :
    exec (.setLevelCriteria p a) s = .next (setReply p ⟨.ok, []⟩ (evaluate { closeWindow p s with
      warning := { s.warning with criteria := criteriaOf a, dwell := .stopped } })) := by
  refine exec_owner htake rfl ?_
  simp only [h, ho]
  rfl

theorem retreatLevelOf_none_iff (level : RetreatLevelArg) :
    retreatLevelOf level = none ↔ ¬ (level = .none ∨ ∃ n, level = .number n ∧ 1 ≤ n ∧ n ≤ 3) := by
  cases level with
  | number n =>
    simp only [retreatLevelOf, ite_eq_right_iff, reduceCtorEq, imp_false, within_iff, RetreatLevelArg.number.injEq,
      false_or]
    exact not_congr ⟨fun h => ⟨n, rfl, h⟩, by rintro ⟨m, rfl, h⟩; exact h⟩
  | none => simp [retreatLevelOf]
  | unknown tag => simp [retreatLevelOf]

theorem retreatStage_fits (stage : Option Int) :
    stage.all stageInRange = true ↔ ∀ z, stage = some z → -1000 ≤ z ∧ z ≤ 15000 := by
  cases stage with
  | none => simp
  | some z => simp [stageInRange, withinInt]

theorem setRetreat_refuses {p : Port} {stage : Option Int} {level : RetreatLevelArg} {s : State}
    (htake : Takes p 0x62 s) (h : retreatLevelOf level = none ∨ ¬ stage.all stageInRange = true) :
    Refuses (.setRetreat p stage level) p s ⟨.range, []⟩ := by
  refine refuses_owner htake rfl ?_ rfl
  cases hl : retreatLevelOf level with
  | none => rfl
  | some l => exact if_neg (h.resolve_left (by simp [hl]))

theorem exec_setRetreat {p : Port} {stage : Option Int} {level : RetreatLevelArg} {l : Option Nat} {s : State}
    (htake : Takes p 0x62 s) (hl : retreatLevelOf level = some l) (hstage : stage.all stageInRange = true) :
    exec (.setRetreat p stage level) s = .next (setReply p ⟨.ok, retreatData s.warning⟩ (evaluate { closeWindow p s with
      warning := { s.warning with retreatStage := stage, retreatLevel := l } })) := by
  refine exec_owner htake rfl ?_
  simp only [hl]
  exact if_pos hstage

/-- Settles O46: both requests evaluate with a new setting. -/
theorem criteriaAndRetreat : Obligations.CriteriaAndRetreat := by
  refine ⟨fun a => ⟨criteriaFields_fit a, orderFault_none a⟩, fun p a s htake =>
    ⟨fun f => setLevelCriteria_refuses_field htake, fun kind j => setLevelCriteria_refuses_order htake,
      fun h ho => ⟨_, exec_setLevelCriteria htake h ho, ?_⟩⟩, fun p stage level s htake => ⟨fun hnot => ?_,
      fun ⟨hstage, hlevel⟩ => ?_⟩⟩
  · obtain ⟨hkeeps, hfrom, hfollows⟩ := evaluate_setting (p := p) (s := s)
      (w := { s.warning with criteria := criteriaOf a, dwell := .stopped }) rfl rfl
    exact ⟨hkeeps, hfrom, hfollows.slots, hfollows.run, hfollows.interval⟩
  · refine setRetreat_refuses htake ?_
    rw [retreatLevelOf_none_iff, retreatStage_fits]
    exact (not_and_or.1 hnot).symm
  · obtain ⟨l, hl⟩ := Option.ne_none_iff_exists'.1 fun hnone => (retreatLevelOf_none_iff level).1 hnone hlevel
    refine ⟨_, exec_setRetreat htake hl ((retreatStage_fits stage).2 hstage), ?_⟩
    obtain ⟨hkeeps, hfrom, hfollows⟩ := evaluate_setting (p := p) (s := s)
      (w := { s.warning with retreatStage := stage, retreatLevel := l }) rfl rfl
    have hunit := hfrom.1.1
    obtain ⟨hsetStage, hsetLevel, hcriteria, -, -⟩ := settleLevel_keeps 4 (evalInputs s)
      { s.warning with retreatStage := stage, retreatLevel := l }
    have hsetting := (congrArg WarningUnit.retreatLevel hunit).trans hsetLevel
    refine ⟨hkeeps, (congrArg WarningUnit.criteria hunit).trans hcriteria,
      (congrArg WarningUnit.retreatStage hunit).trans hsetStage, fun hn => hsetting.trans ?_, fun n hn =>
      hsetting.trans ?_, hfollows.slots, hfollows.run, hfollows.interval, ?_⟩
    · subst hn
      exact (Option.some.inj hl).symm
    · subst hn
      simp only [retreatLevelOf] at hl
      split at hl
      · exact (Option.some.inj hl).symm
      · cases hl
    · rw [hsetting]
      exact hfrom

end Sys2Proof.Machine
end

section
/-! SUPPORT. The level against its demand, and the fall at an expiry of the dwell timer (R143 to R146). -/

namespace Sys2Proof.Machine

/-! ## The level settled (R143 to R145) -/

theorem StageStatus.current_iff (x : StageStatus) :
    x.current = true ↔ x = .good ∨ x = .suspect ∨ x = .single := by cases x <;> decide

theorem settleLevel_rise {k : Nat} {i : EvalInputs} {w : WarningUnit} (h : w.level < (formDemand i w).demanded) :
    settleLevel (k + 1) i w = (riseLevel (formDemand i w), [(w.level, (formDemand i w).demanded)]) := by
  unfold settleLevel
  exact if_pos h

theorem settleLevel_same {k : Nat} {i : EvalInputs} {w : WarningUnit} (h : (formDemand i w).demanded = w.level) :
    settleLevel (k + 1) i w = ({ formDemand i w with dwell := .stopped }, []) := by
  unfold settleLevel
  exact (if_neg (by change ¬ w.level < _; omega)).trans (if_pos h)

/-- A demand below the level awaits its dwell, where the dwell has time left. -/
theorem settleLevel_waits {k : Nat} {i : EvalInputs} {w : WarningUnit} {x : Timer}
    (h : (formDemand i w).demanded < w.level) (hx : dwellBelow i w = x) (hspent : dwellSpent i w.dwell x = false) :
    settleLevel (k + 1) i w = ({ formDemand i w with dwell := x }, []) := by
  unfold settleLevel
  have hdwell : dwellBelow i (formDemand i w) = x := hx
  refine (if_neg (by change ¬ w.level < _; omega)).trans ((if_neg (by change ¬ _ = w.level; omega)).trans ?_)
  rw [hdwell]
  exact if_neg (by simp [show (formDemand i w).dwell = w.dwell from rfl, hspent])

/-- A dwell that runs, or is held, stays as it is. -/
theorem settleLevel_stays {k : Nat} {i : EvalInputs} {w : WarningUnit} (h : (formDemand i w).demanded < w.level)
    (hx : dwellBelow i w = w.dwell) (hspent : dwellSpent i w.dwell w.dwell = false) :
    settleLevel (k + 1) i w = (formDemand i w, []) := settleLevel_waits h hx hspent

/-- A demand below the level whose dwell has no time left falls at once (log entry 9). -/
theorem settleLevel_falls {k : Nat} {i : EvalInputs} {w : WarningUnit} (h : (formDemand i w).demanded < w.level)
    (hspent : dwellSpent i w.dwell (dwellBelow i w) = true) :
    (settleLevel (k + 1) i w).1 = (settleLevel k i (fallLevel (formDemand i w))).1 := by
  rw [settleLevel]
  dsimp only
  have hlevel : (formDemand i w).level = w.level := rfl
  have hdwell : dwellSpent i (formDemand i w).dwell (dwellBelow i (formDemand i w)) = true := hspent
  rw [if_neg (by omega), if_neg (by omega), if_pos hdwell]

theorem dwellBelow_current {i : EvalInputs} {w : WarningUnit} (h : i.status.current = true) :
    dwellBelow i w = match w.dwell with
      | .stopped => .running (i.now + w.criteria.dwell * 60000)
      | .running due => .running due
      | .held left => .running (i.now + left) := by
  unfold dwellBelow
  exact if_pos h

theorem dwellBelow_held {i : EvalInputs} {w : WarningUnit} (h : ¬ i.status.current = true) :
    dwellBelow i w = match w.dwell with
      | .stopped => .held (w.criteria.dwell * 60000)
      | .running due => .held (due - i.now)
      | .held left => .held left := by
  unfold dwellBelow
  exact if_neg h

/-- A dwell of no time lets the level fall to its demand at once. -/
theorem settleLevel_spent {k : Nat} {i : EvalInputs} {w : WarningUnit} (hstatus : i.status.current = true)
    (hdwell : w.dwell = .stopped) (hfull : w.criteria.dwell * 60000 = 0) (hle : (formDemand i w).demanded ≤ w.level)
    (hk : w.level < k + (formDemand i w).demanded) :
    (settleLevel k i w).1.level = (formDemand i w).demanded ∧
      (settleLevel k i w).1.demanded = (formDemand i w).demanded := by
  induction k generalizing w with
  | zero => omega
  | succ k ih =>
    by_cases heq : (formDemand i w).demanded = w.level
    · rw [settleLevel_same heq]
      exact ⟨heq.symm, rfl⟩
    · have hbelow : (formDemand i w).demanded < w.level := by omega
      have hspent : dwellSpent i w.dwell (dwellBelow i w) = true := by
        rw [dwellBelow_current hstatus, hdwell]
        simp [dwellSpent, Timer.isRunning, Timer.left, hfull]
      have hfall := formDemand_fall i w hbelow
      have hlevel : (fallLevel (formDemand i w)).level = w.level - 1 := rfl
      rw [settleLevel_falls hbelow hspent, ← hfall]
      exact ih (w := fallLevel (formDemand i w)) rfl hfull (by omega) (by omega)

/-! ## A recall by retreat, whatever the changes (R109) -/

theorem handLevels_busy (changes : List (Nat × Nat)) {s : State} (busy : s.engine.state ≠ .idle) :
    ∃ history plan, changes.foldl handLevelChange s = { s with history, plan } := by
  induction changes generalizing s with
  | nil => exact ⟨s.history, s.plan, rfl⟩
  | cons c rest ih =>
    have hstep : handLevelChange s c =
        { s with history := s.history.takeLevel c.2, plan := levelledPlan c.1 c.2 s } := by
      have hjudged := judgeLevelTriggers_eq c.1 c.2 { s with history := s.history.takeLevel c.2 }
      have hbusy : takeAttempt { s with history := s.history.takeLevel c.2, plan := levelledPlan c.1 c.2 s } = _ :=
        takeAttempt_busy busy
      exact hjudged.trans ((ite_congr rfl (fun _ => hbusy) fun _ => rfl).trans (ite_self _))
    obtain ⟨history, plan, h⟩ := ih (s := handLevelChange s c) (by rw [hstep]; exact busy)
    exact ⟨history, plan, by rw [List.foldl_cons, h, hstep]⟩

theorem handOn_recalled {changes : List (Nat × Nat)} {x : State} (was : x.warning.retreat = false)
    (now : retreatAfter x.warning x.stage.stilled = true) (recallable : x.engine.state.recallable = true) :
    Recalled .retreat x (handOn changes x) := by
  obtain ⟨-, heq⟩ := retreatHanded_eq changes x
  have hsame : RunSame (retreatHanded changes x) x := by constructor <;> rw [heq]
  have hstate : (retreatHanded changes x).engine.state.recallable = true := by rw [heq]; exact recallable
  have hrecalled := recallRun_recalled .retreat (retreatHanded changes x)
  have hjudged : retreatJudged changes x = recallRun .retreat (retreatHanded changes x) :=
    (if_pos (by simp [was, now])).trans (if_pos hstate)
  obtain ⟨history, plan, hlevels⟩ :=
    handLevels_busy changes (s := retreatJudged changes x) (by rw [hjudged, hrecalled.state]; decide)
  rw [handOn_eq, if_neg (by simp [was])]
  change Recalled .retreat x (formOutputs (changes.foldl handLevelChange (retreatJudged changes x)))
  rw [hlevels, hjudged]
  exact hsame.recalled (hrecalled.left ((RunLeft.others _ _ _).trans (formOutputs_left _)))

/-! ## The dwell timer's expiry (R145) -/

theorem runs_iff (x : Timer) : Runs x ↔ x.isRunning = true := by
  cases x <;> simp [Runs, Timer.isRunning]

theorem exec_dwellTimerExpiry_stopped {s : State} (hpor : s.ports.por = false) (h : ¬ Runs s.warning.dwell) :
    exec .dwellTimerExpiry s = .next s := by
  rw [runs_iff] at h
  exact congrArg Host.Outcome.next ((unlessPor_live hpor _).trans (if_neg h))

theorem exec_dwellTimerExpiry {s : State} (hpor : s.ports.por = false) (h : Runs s.warning.dwell) :
    exec .dwellTimerExpiry s = .next (dwellExpiry s) := by
  rw [runs_iff] at h
  exact congrArg Host.Outcome.next ((unlessPor_live hpor _).trans (if_pos h))

theorem fallLevel_eq {w : WarningUnit} (h : 1 ≤ w.level) : fallLevel w = { w with
    level := w.level - 1, silence := w.silence && decide (w.level ≠ 1), dwell := .stopped } := by
  have hcalm : (w.level - 1 != 0) = decide (w.level ≠ 1) := by
    rw [Bool.eq_iff_iff]
    simp only [bne_iff_ne, ne_eq, decide_eq_true_eq]
    omega
  rw [fallLevel, hcalm]

theorem dwellExpiry_eq {s : State} (h : 1 ≤ s.warning.level) :
    dwellExpiry s = handOn ([(s.warning.level, s.warning.level - 1)] ++
      (settleLevel 4 (evalInputs s) (fallLevel s.warning)).2)
      { s with warning := (settleLevel 4 (evalInputs s) (fallLevel s.warning)).1 } := if_neg (by omega)

theorem dwellExpiry_evaluates {s : State} (h : 1 ≤ s.warning.level) :
    Evaluated (evalInputs s) (fallLevel s.warning) (dwellExpiry s) ∧ PendingWhereRouted 1 (dwellExpiry s) ∧
      (s.warning.retreat = false → (dwellExpiry s).warning.retreat = true → s.engine.state.recallable = true →
        Recalled .retreat s (dwellExpiry s)) := by
  rw [dwellExpiry_eq h]
  obtain ⟨-, hretreat, -⟩ := settleLevel_path 4 (evalInputs s) (fallLevel s.warning)
  refine ⟨handOn_evaluated rfl rfl, ?_, fun hoff hon hstate => ?_⟩
  · have hpending := handOn_pending (changes := [(s.warning.level, s.warning.level - 1)] ++
      (settleLevel 4 (evalInputs s) (fallLevel s.warning)).2) (c := (s.warning.level, s.warning.level - 1)) (by simp)
      { s with warning := (settleLevel 4 (evalInputs s) (fallLevel s.warning)).1 }
    rwa [if_neg (by simp)] at hpending
  · rw [(handOn_warning _ _).1] at hon
    have hrecalled := handOn_recalled (changes := [(s.warning.level, s.warning.level - 1)] ++
      (settleLevel 4 (evalInputs s) (fallLevel s.warning)).2) (hretreat.trans hoff) hon hstate
    exact RunSame.recalled ⟨rfl, rfl, rfl, rfl, rfl⟩ hrecalled

/-- The changes of an expiry that leaves the level below are one path of falls. -/
theorem dwellExpiry_taken {s : State} (h : 1 ≤ s.warning.level)
    (hfall : (settleLevel 4 (evalInputs s) (fallLevel s.warning)).1.level < s.warning.level) :
    LevelsTaken s.warning.level (dwellExpiry s).warning.level s.history (dwellExpiry s).history := by
  obtain ⟨path, -, -⟩ := settleLevel_path 4 (evalInputs s) (fallLevel s.warning)
  have hlevel : (fallLevel s.warning).level = s.warning.level - 1 := rfl
  rw [dwellExpiry_eq h]
  refine handOn_taken (s := { s with warning := (settleLevel 4 (evalInputs s) (fallLevel s.warning)).1 }) (.inr ?_)
  refine ⟨rfl, h, path.resolve_left ?_⟩
  rintro ⟨hrise, -⟩
  omega

/-- Settles O45: by the branches of the settling, and the fall that an expiry hands on before its evaluation. -/
theorem levelAndDwell : Obligations.LevelAndDwell := by
  refine ⟨fun i w h3 => ⟨fun h => settleLevel_rise h, fun h => settleLevel_same h, fun h hstatus => ?_,
    fun h hstatus => ?_⟩, fun s hpor => ⟨exec_dwellTimerExpiry_stopped hpor, fun hruns h1 h3 =>
      ⟨_, exec_dwellTimerExpiry hpor hruns, ?_⟩⟩⟩
  · rw [← StageStatus.current_iff] at hstatus
    have hbelow := dwellBelow_current (w := w) hstatus
    refine ⟨fun hd hfull => ?_, fun due hd => ?_, fun left hd hleft => ?_, fun hd hfull => ?_⟩
    · rw [hd] at hbelow
      exact settleLevel_waits h hbelow (by simp [dwellSpent, Timer.left, hfull])
    · exact settleLevel_stays h (by rw [hbelow, hd]) (by simp [dwellSpent, hd, Timer.isRunning])
    · rw [hd] at hbelow
      exact settleLevel_waits h hbelow (by simp [dwellSpent, Timer.left, hleft])
    · obtain ⟨hlevel, hdemanded⟩ := settleLevel_spent (k := 4) hstatus hd hfull h.le (by omega)
      rw [hlevel, hdemanded]
      exact ⟨rfl, h⟩
  · rw [← StageStatus.current_iff] at hstatus
    have hbelow := dwellBelow_held (w := w) hstatus
    refine ⟨fun hd => ?_, fun due hd => ?_, fun left hd => ?_⟩
    · exact settleLevel_waits h (hbelow.trans (by rw [hd])) (by simp [dwellSpent, Timer.isRunning])
    · exact settleLevel_waits h (hbelow.trans (by rw [hd])) (by simp [dwellSpent, Timer.isRunning])
    · exact settleLevel_stays h (by rw [hbelow, hd]) (by simp [dwellSpent, hd, Timer.isRunning])
  · obtain ⟨hevaluated, hpending, hrecalled⟩ := dwellExpiry_evaluates h1
    rw [fallLevel_eq h1] at hevaluated
    refine ⟨dwellExpiry_keeps s, hevaluated, hpending, hrecalled, fun hfall => ?_⟩
    dsimp only at hfall
    rw [← fallLevel_eq h1] at hfall
    have hrun := dwellExpiry_follows h1 hfall
    exact ⟨hrun.slotsJudged, hrun, (dwellExpiry_taken h1 hfall).intervalTakes⟩

end Sys2Proof.Machine
end

section
/-! SUPPORT. What an offer of the Stage Unit leaves (R16, R20, R28, R49, R69, R76), and the requests that start the
Stage Unit over (R22 to R24). -/

namespace Sys2Proof.Machine

/-! ## An offer (R20) -/

/-- What an offer from s leaves in t: the stage is rated and evaluated, the slots are judged, and the open interval
takes it. -/
structure OfferFollows (own : List Nat) (rating : RatingUnit) (stage : Option Int) (status : StageStatus)
    (rise : Option Int) (s t : State) : Prop where
  rated : RatedAndEvaluated rating stage status rise s t
  slots : SlotsJudged true none s t
  run : RunFollows own true none s t
  interval : IntervalTakes true s t
  previousStage : t.plan.previousStage = stage

/-- The state in which an offer has been rated, evaluated, and taken by the History Store and the Plan Store. -/
def offerTaken (s : State) : State :=
  let p := rateAgain s
  { p with
    history := p.history.takeOffer p.stage.stilled p.stage.status
    plan := { p.plan with
      slots := p.plan.slots.map fun x => { x with request := riseFlag p.plan.previousStage p.stage.stilled x }
      previousStage := p.stage.stilled } }

theorem offer_eq (s : State) : offer s = takeAttempt (offerTaken s) := rfl

theorem offer_stage (s : State) : (offer s).stage = s.stage := offer_keeps s .stage (by decide)

theorem takeAttempt_previousStage (s : State) : (takeAttempt s).plan.previousStage = s.plan.previousStage := by
  obtain ⟨-, -, j, -, h⟩ | ⟨-, h⟩ := takeAttempt_spec s <;> rw [h]
  exact (takeSlot_taken j s).previousStage

/-- The sources that an offer may change besides those of its preparation. -/
def offerSources : List Nat := 7 :: [0, 1, 2] ++ takeSources

theorem evaluate_notified (s : State) : Notified ([0, 1, 2] ++ takeSources) s (evaluate s) :=
  (handOn_notified (settleLevel 4 (evalInputs s) s.warning).2
    { s with warning := (settleLevel 4 (evalInputs s) s.warning).1 }).congr rfl rfl

theorem offer_notified (s : State) : Notified offerSources s (offer s) := by
  have hrated : Notified offerSources s (rateAgain s) :=
    ((recomputeDischarge_notified s.stage.stilled s).mono (by decide)).trans
      ((evaluate_notified (recomputeDischarge s.stage.stilled s)).mono (by decide))
  exact (hrated.congr (t' := offerTaken s) rfl rfl).trans ((takeAttempt_moved _).notified.mono (by decide))

/-- An offer that a command has prepared. -/
theorem offer_offers {own : List Nat} {s x : State} (hp : Prepared own s x) (hh : x.history = s.history)
    (hw : x.warning = s.warning) (hown : 10 ∉ own ∧ 11 ∉ own ∧ 14 ∉ own) (hlevel : 0 ∉ own ∧ 1 ∉ own) (h7 : 7 ∈ own) :
    OfferFollows own x.rating x.stage.stilled x.stage.status x.stage.rise s (offer x) := by
  have hrun := offer_follows hown h7 hp
  have hstage : (rateAgain x).stage = x.stage := rateAgain_keeps x .stage (by decide)
  have hsame : SameWarning (rateAgain x) (offer x) :=
    .trans (t := offerTaken x) {} (takeAttempt_sameWarning _)
  have hafter : Notified takeSources (rateAgain x) (offer x) :=
    ((takeAttempt_moved (offerTaken x)).notified).congr rfl rfl
  have hlevels := evaluate_taken (recomputeDischarge x.stage.stilled x)
  have hunit : (recomputeDischarge x.stage.stilled x).warning = s.warning :=
    (recomputeDischarge_keeps _ x .warning (by decide)).trans hw
  have hstore : (recomputeDischarge x.stage.stilled x).history = s.history :=
    (recomputeDischarge_keeps _ x .history (by decide)).trans hh
  have htaken : LevelsTaken s.warning.level (offer x).warning.level s.history (rateAgain x).history := by
    rw [hsame.warning, ← hunit, ← hstore]
    exact hlevels
  have hhistory : (offer x).history =
      (rateAgain x).history.takeOffer (offer x).stage.stilled (offer x).stage.status := by
    have hkept : (offer x).history = (offerTaken x).history := takeAttempt_keeps _ .history (by decide)
    rw [hkept, offer_stage, ← hstage]
    rfl
  have hrating : (offer x).rating = (recomputeDischarge x.stage.stilled x).rating :=
    (takeAttempt_keeps (offerTaken x) .rating (by decide)).trans (evaluate_keeps _ .rating (by decide))
  refine ⟨ratedAndEvaluated_of hrun hp.same.clock hw hp.notified hlevel h7 rfl hsame hrating hafter (by decide),
    hrun.slotsJudged, hrun, htaken.intervalOffered hhistory, ?_⟩
  rw [offer_eq, takeAttempt_previousStage]
  exact congrArg StageUnit.stilled hstage

/-! ## STARTING set and offered (R16, R26) -/

theorem setStatus_stage (status : StageStatus) (s : State) :
    (setStatus status s).stage = { s.stage with status := status } :=
  (raiseIf_keeps _ .stageStatus { s with stage := { s.stage with status := status } }) .stage (by decide)

theorem setStatus_pending {status : StageStatus} {s : State} (h : s.stage.status ≠ status) :
    PendingWhereRouted 3 (setStatus status s) := by
  have hraised := raise_pendingWhereRouted .stageStatus { s with stage := { s.stage with status := status } }
  rw [setStatus, raiseIf, if_pos (by simpa using h)]
  exact hraised

theorem startOver_stage (s : State) : (startOver s).stage = { s.stage with status := .starting } :=
  (offer_stage _).trans (setStatus_stage .starting s)

theorem startOver_pending {s : State} (h : s.stage.status ≠ .starting) : PendingWhereRouted 3 (startOver s) :=
  (offer_notified _).pending (by decide) (by decide) (setStatus_pending h)

/-- STARTING offered, by a command that has prepared it. -/
theorem startOver_offers {own : List Nat} {s x : State} (hp : Prepared own s x) (hh : x.history = s.history)
    (hw : x.warning = s.warning) (hown : 10 ∉ own ∧ 11 ∉ own ∧ 14 ∉ own) (hlevel : 0 ∉ own ∧ 1 ∉ own) (h3 : 3 ∈ own)
    (h7 : 7 ∈ own) :
    OfferFollows own x.rating x.stage.stilled .starting x.stage.rise s (startOver x) := by
  have hkeeps := setStatus_keeps .starting x
  have hrating : (setStatus .starting x).rating = x.rating := hkeeps .rating (by decide)
  have hstage := setStatus_stage .starting x
  have hoffers := offer_offers (setStatus_prepared .starting h3 hp) ((hkeeps .history (by decide)).trans hh)
    ((hkeeps .warning (by decide)).trans hw) hown hlevel h7
  rw [hrating, hstage] at hoffers
  exact hoffers

/-- A Stage Unit started over, the port's window being closed. -/
theorem startOver_unit {p : Port} {s : State} (u : StageUnit) :
    let t := startOver { closeWindow p s with stage := u }
    OfferFollows [3, 7] s.rating u.stilled .starting u.rise s t ∧ t.stage = { u with status := .starting } ∧
      (u.status ≠ .starting → PendingWhereRouted 3 t) ∧
      KeepsBut [.stage, .history, .rating, .plan, .engine, .results, .warning, .lines, .notices] (closeWindow p s)
        t := by
  have hp : Prepared [3, 7] s { closeWindow p s with stage := u } :=
    ⟨⟨rfl, rfl, rfl, rfl, rfl⟩, rfl, .of_eq rfl, rfl, rfl⟩
  exact ⟨startOver_offers hp rfl rfl (by decide) (by decide) (by decide) (by decide), startOver_stage _,
    fun h => startOver_pending (s := { closeWindow p s with stage := u }) h,
    ((withStage_keeps u _).mono (by decide)).trans ((startOver_keeps _).mono (by decide))⟩

/-! ## CONFIGURE_STAGE (R22, R23) -/

theorem twoValuedOf_isSome (n : Nat) : (twoValuedOf n).isSome = true ↔ n ≤ 1 := by
  match n with
  | 0 | 1 | _ + 2 => simp [twoValuedOf]

theorem twoValuedOf_some {n : Nat} {b : Bool} (h : twoValuedOf n = some b) : b = decide (n = 0) := by
  match n with
  | 0 | 1 => exact (Option.some.inj h).symm
  | _ + 2 => cases h

theorem channelOf_isSome (n : Nat) : (channelOf n).isSome = true ↔ n ≤ 1 := by
  match n with
  | 0 | 1 | _ + 2 => simp [channelOf]

theorem channelOf_some {n : Nat} {c : Channel} (h : channelOf n = some c) : c = if n = 0 then .f else .p := by
  match n with
  | 0 | 1 => exact (Option.some.inj h).symm
  | _ + 2 => cases h

theorem offsetInRange_iff {z : Int} : offsetInRange z = true ↔ -20000 ≤ z ∧ z ≤ 20000 := withinInt_iff

theorem stageInRange_iff {z : Int} : stageInRange z = true ↔ -1000 ≤ z ∧ z ≤ 15000 := withinInt_iff

theorem stageConfigOf_isSome (a : StageArgs) : (stageConfigOf a).isSome = true ↔
    a.fEnable ≤ 1 ∧ a.pEnable ≤ 1 ∧ a.preferred ≤ 1 ∧ stageArgsInRange a = true := by
  rw [← twoValuedOf_isSome, ← twoValuedOf_isSome, ← channelOf_isSome, stageConfigOf]
  cases twoValuedOf a.fEnable with
  | none => simp
  | some _ => cases twoValuedOf a.pEnable with
    | none => simp
    | some _ => cases channelOf a.preferred with
      | none => simp
      | some _ => by_cases h : stageArgsInRange a = true <;> simp [h]

theorem stageArgsInRange_iff (a : StageArgs) : stageArgsInRange a = true ↔
    -20000 ≤ a.fOffset ∧ a.fOffset ≤ 20000 ∧ 1 ≤ a.fStep ∧ a.fStep ≤ 10000 ∧ 1 ≤ a.fMaxStep ∧ a.fMaxStep ≤ 2000 ∧
    -20000 ≤ a.pOffset ∧ a.pOffset ≤ 20000 ∧ 1 ≤ a.pGain ∧ a.pGain ≤ 16777215 ∧ a.pZero ≤ 65535 ∧ 1 ≤ a.pMin ∧
    a.pMin ≤ 65535 ∧ 1 ≤ a.tolerance ∧ a.tolerance ≤ 500 ∧ 1 ≤ a.disagreeLimit ∧ a.disagreeLimit ≤ 255 ∧
    1 ≤ a.windowLength ∧ a.windowLength ≤ 32 ∧ 1 ≤ a.period ∧ a.period ≤ 60 ∧ 1 ≤ a.riseWindow ∧
    a.riseWindow ≤ 8 := by
  simp only [stageArgsInRange, Bool.and_eq_true, offsetInRange_iff, within_iff, Nat.zero_le, true_and, and_assoc]

/-- The configuration that a CONFIGURE_STAGE carries. -/
theorem stageConfigOf_some {a : StageArgs} {c : StageConfig} (h : stageConfigOf a = some c) : c = {
    fEnable := decide (a.fEnable = 0), pEnable := decide (a.pEnable = 0)
    preferred := if a.preferred = 0 then .f else .p
    fOffset := a.fOffset, fStep := a.fStep, fMaxStep := a.fMaxStep, pOffset := a.pOffset
    pGain := a.pGain, pZero := a.pZero, pMin := a.pMin, tolerance := a.tolerance
    disagreeLimit := a.disagreeLimit, windowLength := a.windowLength, period := a.period
    riseWindow := a.riseWindow } := by
  obtain ⟨f, p, ch, hf, hp, hch, hin⟩ : ∃ f p ch, twoValuedOf a.fEnable = some f ∧ twoValuedOf a.pEnable = some p ∧
      channelOf a.preferred = some ch ∧ stageArgsInRange a = true := by
    have hsome := (stageConfigOf_isSome a).1 (by rw [h]; rfl)
    obtain ⟨hf, hp, hch, hin⟩ := hsome
    obtain ⟨f, hf⟩ := Option.isSome_iff_exists.1 ((twoValuedOf_isSome _).2 hf)
    obtain ⟨p, hp⟩ := Option.isSome_iff_exists.1 ((twoValuedOf_isSome _).2 hp)
    obtain ⟨ch, hch⟩ := Option.isSome_iff_exists.1 ((channelOf_isSome _).2 hch)
    exact ⟨f, p, ch, hf, hp, hch, hin⟩
  simp only [stageConfigOf, hf, hp, hch, hin, if_true] at h
  rw [← Option.some.inj h, twoValuedOf_some hf, twoValuedOf_some hp, channelOf_some hch]

/-- Settles O19: a taken configuration is a new Stage Unit that starts over. -/
theorem configureStage : Obligations.ConfigureStage := by
  refine ⟨fun a => ?_, fun p a s htake => ⟨fun hnone => refuses_owner htake rfl ?_ rfl, fun c hc =>
    ⟨stageConfigOf_some hc, _, exec_owner htake rfl (t := startOver (restartSample
      { closeWindow p s with stage := s.stage.configured c })) ?_, ?_⟩⟩⟩
  · rw [stageConfigOf_isSome, stageArgsInRange_iff]
  · simp only [hnone]
    rfl
  · simp only [hc]
    rfl
  · obtain ⟨hfollows, hstage, hpending, hkeeps⟩ := startOver_unit (p := p) (s := s)
      { s.stage.configured c with sampleDue := nowMs s + c.period * 1000, gateCount := 0 }
    exact ⟨hstage, hpending, hfollows.slots, hfollows.run, hfollows.interval, hfollows.previousStage,
      hfollows.rated, hkeeps⟩

/-! ## CHECK_GAUGE (R24) -/

theorem checkGauge_outside {p : Port} {s : State} (htake : Takes p 0x06 s) {channel : Nat} {reading : Int}
    (h : 1 < channel ∨ reading < -1000 ∨ 15000 < reading) :
    Refuses (.checkGauge p channel reading) p s ⟨.range, []⟩ := by
  refine refuses_owner htake rfl ?_ rfl
  cases hc : channelOf channel with
  | none => rfl
  | some c =>
    have hchannel := (channelOf_isSome channel).1 (by rw [hc]; rfl)
    exact if_pos (by rw [Bool.not_eq_true', ← Bool.not_eq_true, stageInRange_iff]; omega)

section Reading

variable {p : Port} {s : State} {channel : Nat} {c : Channel} {reading : Int} (htake : Takes p 0x06 s)
  (hc : channelOf channel = some c) (hlo : -1000 ≤ reading) (hhi : reading ≤ 15000)
include htake hc hlo hhi

theorem checkGauge_without (h : s.stage.last c = none) :
    Refuses (.checkGauge p channel reading) p s ⟨.state, []⟩ := by
  have hin : stageInRange reading = true := stageInRange_iff.2 ⟨hlo, hhi⟩
  have hlast : (closeWindow p s).stage.last c = none := h
  refine refuses_owner htake rfl ?_ rfl
  simp only [hc, hin, hlast]
  rfl

theorem checkGauge_offset {v : LastValue} (h : s.stage.last c = some v)
    (hout : reading - v.raw < -20000 ∨ 20000 < reading - v.raw) :
    Refuses (.checkGauge p channel reading) p s ⟨.range, []⟩ := by
  have hin : stageInRange reading = true := stageInRange_iff.2 ⟨hlo, hhi⟩
  have hlast : (closeWindow p s).stage.last c = some v := h
  have hoffset : offsetInRange (reading - v.raw) = false := by
    rw [← Bool.not_eq_true, offsetInRange_iff]
    omega
  refine refuses_owner htake rfl ?_ rfl
  simp only [hc, hin, hlast, hoffset]
  rfl

theorem exec_checkGauge {v : LastValue} (h : s.stage.last c = some v) (hlow : -20000 ≤ reading - v.raw)
    (hhigh : reading - v.raw ≤ 20000) :
    exec (.checkGauge p channel reading) s = .next (setReply p ⟨.ok, i16 (reading - v.raw)⟩
      (startOver { closeWindow p s with stage := s.stage.gauged c reading v })) := by
  have hin : stageInRange reading = true := stageInRange_iff.2 ⟨hlo, hhi⟩
  have hlast : (closeWindow p s).stage.last c = some v := h
  have hoffset : offsetInRange (reading - v.raw) = true := offsetInRange_iff.2 ⟨hlow, hhigh⟩
  refine exec_owner htake rfl ?_
  simp only [hc, hin, hlast, hoffset]
  rfl

omit htake hc in
/-- A reading in its range needs no clamp. -/
theorem gaugedValue_eq (v : LastValue) : gaugedValue reading v = ⟨reading, v.raw, false⟩ := by
  have hin : stageInRange reading = true := stageInRange_iff.2 ⟨hlo, hhi⟩
  have hclamp : clamp (-1000) 15000 reading = reading := by simp only [clamp]; omega
  simp only [gaugedValue, hin, hclamp]
  rfl

end Reading

/-- Settles O20: a taken reading is a new offset of a Stage Unit that starts over. -/
theorem checkGauge : Obligations.CheckGauge := by
  intro p reading s htake
  refine ⟨fun channel h => checkGauge_outside htake h, fun hlo hhi => ⟨
    checkGauge_without htake (c := .f) rfl hlo hhi, checkGauge_without htake (c := .p) rfl hlo hhi,
    fun v h hout => checkGauge_offset htake (c := .f) rfl hlo hhi h hout,
    fun v h hout => checkGauge_offset htake (c := .p) rfl hlo hhi h hout,
    fun v h hlow hhigh => ⟨_, exec_checkGauge htake (c := .f) rfl hlo hhi h hlow hhigh, ?_⟩,
    fun v h hlow hhigh => ⟨_, exec_checkGauge htake (c := .p) rfl hlo hhi h hlow hhigh, ?_⟩⟩⟩
  · obtain ⟨hfollows, hstage, hpending, hkeeps⟩ := startOver_unit (p := p) (s := s) (s.stage.gauged .f reading v)
    refine ⟨hstage.trans ?_, hpending, hfollows.slots, hfollows.run, hfollows.interval, hfollows.previousStage,
      hfollows.rated, hkeeps⟩
    rw [StageUnit.gauged, gaugedValue_eq hlo hhi]
    rfl
  · obtain ⟨hfollows, hstage, hpending, hkeeps⟩ := startOver_unit (p := p) (s := s) (s.stage.gauged .p reading v)
    refine ⟨hstage.trans ?_, hpending, hfollows.slots, hfollows.run, hfollows.interval, hfollows.previousStage,
      hfollows.rated, hkeeps⟩
    rw [StageUnit.gauged, gaugedValue_eq hlo hhi]
    rfl

end Sys2Proof.Machine
end

section
/-! SUPPORT. What a stage sample makes of the Stage Unit, which notices it raises, and its offer (R5 to R19). -/

namespace Sys2Proof.Machine

/-! ## The channels (R6 to R13) -/

/-- A judgement writes the judgement, the anchor and the candidate run, and nothing else. -/
theorem judgeF_writes (u : StageUnit) (v : Int) : ∃ j a n z,
    (u.judgeF v).1 = { u with fJudgement := j, anchor := a, runLength := n, runValue := z } := by
  simp only [StageUnit.judgeF]
  repeat' split
  all_goals exact ⟨_, _, _, _, rfl⟩

theorem sampleF_valid {u : StageUnit} (h : u.fValid = true) : u.sampleF =
    ({ (u.judgeF u.convertF.value).1 with fLast := some u.convertF, encoderError := false },
      (u.judgeF u.convertF.value).2) := if_pos h

theorem sampleF_invalid {u : StageUnit} (h : u.fValid = false) : u.sampleF =
    ({ u with fJudgement := .invalid, encoderError := false }, false) := if_neg (by rw [h]; exact Bool.false_ne_true)

/-- Steps 1 and 2 of a sample write channel F and nothing else, and clear the encoder-error mark. -/
theorem sampleF_writes (u : StageUnit) : ∃ j l a n z, u.sampleF.1 =
    { u with fJudgement := j, fLast := l, anchor := a, runLength := n, runValue := z, encoderError := false } := by
  cases h : u.fValid with
  | true =>
    obtain ⟨j, a, n, z, hj⟩ := judgeF_writes u u.convertF.value
    rw [sampleF_valid h, hj]
    exact ⟨_, _, _, _, _, rfl⟩
  | false =>
    rw [sampleF_invalid h]
    exact ⟨_, _, _, _, _, rfl⟩

/-- The P value valid for selection after a sample. -/
def StageUnit.pSelected (u : StageUnit) : Option LastValue :=
  if u.pValid u.gateCount then some (u.convertP u.gateCount) else none

theorem sampleP_eq (u : StageUnit) : u.sampleP =
    ({ u with
        gateCount := 0, lastN := u.gateCount, signal := u.signalAfter u.gateCount, pLast := u.pSelected.or u.pLast },
      u.pSelected, signalRaises u.signal (u.signalAfter u.gateCount)) := by
  cases h : u.pValid u.gateCount <;> simp [StageUnit.sampleP, StageUnit.pSelected, h]

theorem still_writes (u : StageUnit) (selected : Option LastValue) : ∃ w m o,
    u.still selected = { u with window := w, stilled := m, stilledOver := o } := by
  cases selected with
  | none => exact ⟨_, _, _, rfl⟩
  | some v => exact ⟨_, _, _, rfl⟩

/-! ## The outcome of a sample -/

/-- The F value valid for selection after a sample. -/
def StageUnit.fAfter (u : StageUnit) : Option LastValue := u.sampleF.1.fSelected

/-- What a sample selects, with the status it gives. -/
def StageUnit.selection (u : StageUnit) : Option LastValue × StageStatus :=
  selectChannel u.cfg u.fAfter u.pSelected

/-- What steps 1 to 4 of a sample make of the Stage Unit: all but stilling. -/
def StageUnit.judged (u : StageUnit) : StageUnit :=
  { u.sampleF.1 with
    gateCount := 0, lastN := u.gateCount, signal := u.signalAfter u.gateCount, pLast := u.pSelected.or u.pLast
    disagree := disagreeAfter u.disagree u.selection.2 }

theorem sample_eq (u : StageUnit) : u.sample = {
    unit := u.judged.still u.selection.1
    status := u.selection.2
    spike := u.sampleF.2
    loss := signalRaises u.signal (u.signalAfter u.gateCount)
    disagree := u.selection.2 == .suspect && decide (u.disagree < u.cfg.disagreeLimit) &&
      disagreeAfter u.disagree u.selection.2 == u.cfg.disagreeLimit } := by
  obtain ⟨j, l, a, n, z, h⟩ := sampleF_writes u
  have hp : u.sampleF.1.sampleP = ({ u.sampleF.1 with
      gateCount := 0, lastN := u.gateCount, signal := u.signalAfter u.gateCount, pLast := u.pSelected.or u.pLast },
      u.pSelected, signalRaises u.signal (u.signalAfter u.gateCount)) := by
    rw [sampleP_eq, h]
    rfl
  simp only [StageUnit.sample, hp]
  rfl

/-- The Stage Unit as a sample of u leaves it, but for rise, status, stamps and timer. -/
theorem sample_writes (u : StageUnit) : ∃ j l a n z w m o,
    u.judged = { u with
      fJudgement := j, fLast := l, anchor := a, runLength := n, runValue := z, encoderError := false
      gateCount := 0, lastN := u.gateCount, signal := u.signalAfter u.gateCount, pLast := u.pSelected.or u.pLast
      disagree := disagreeAfter u.disagree u.selection.2 } ∧
    u.sample.unit = { u.judged with window := w, stilled := m, stilledOver := o } := by
  obtain ⟨j, l, a, n, z, h⟩ := sampleF_writes u
  obtain ⟨w, m, o, hs⟩ := still_writes u.judged u.selection.1
  refine ⟨j, l, a, n, z, w, m, o, ?_, (congrArg SampleOutcome.unit (sample_eq u)).trans hs⟩
  rw [StageUnit.judged, h]

/-! ## The Stage Unit after a sample -/

/-- A sample, but for its status and its offer. -/
def sampleRaised (s : State) : State :=
  let o := s.stage.sample
  raiseIf o.disagree .disagree (raiseIf o.loss .signalLoss (raiseIf o.spike .floatSpike (stampSample o.unit s)))

theorem takeSample_eq (s : State) : takeSample s = offer (setStatus s.stage.sample.status (sampleRaised s)) := rfl

theorem sampleRaised_keeps (s : State) :
    KeepsBut [.notices] (stampSample s.stage.sample.unit s) (sampleRaised s) :=
  (raiseIf_keeps _ .floatSpike _).trans ((raiseIf_keeps _ .signalLoss _).trans (raiseIf_keeps _ .disagree _))

theorem sampleRaised_stage (s : State) :
    (sampleRaised s).stage = (stampSample s.stage.sample.unit s).stage := sampleRaised_keeps s .stage (by decide)

theorem takeSample_stage (s : State) : (takeSample s).stage =
    { (stampSample s.stage.sample.unit s).stage with status := s.stage.sample.status } := by
  rw [takeSample_eq, offer_stage, setStatus_stage, sampleRaised_stage]

/-! ## The notices of a sample (R7, R12, R15, R26) -/

theorem PendingAsBefore.of_notified {l : List Nat} {s t : State} {k : Nat} (h : Notified l s t) (hk : k ∉ l) :
    PendingAsBefore k s t := h.kept.asBefore hk

/-- An event raised within a command or not, its source changed by nothing else in it. -/
theorem raiseIf_pending {l m : List Nat} {s x t : State} {e : Source} {v : Bool} (before : Notified l s x)
    (after : Notified m (raiseIf v e x) t) (hl : sourceNumber e ∉ l) (hm : sourceNumber e ∉ m)
    (hevent : sourceNumber e ∉ [2, 7, 10, 11, 14, 18]) :
    (v = true → PendingWhereRouted (sourceNumber e) t) ∧ (v = false → PendingAsBefore (sourceNumber e) s t) := by
  cases v with
  | true =>
    exact ⟨fun _ => after.pending (sourceNumber_lt e) hevent (raise_pendingWhereRouted e x), nofun⟩
  | false =>
    exact ⟨nofun, fun _ => (PendingAsBefore.of_notified before hl).trans (.of_notified after hm)⟩

/-- Whether a sample raises FLOAT_SPIKE, SIGNAL_LOSS and DISAGREE, and STAGE_STATUS. -/
structure SampleNotices (o : SampleOutcome) (before : StageStatus) (s t : State) : Prop where
  spike : (o.spike = true → PendingWhereRouted 5 t) ∧ (o.spike = false → PendingAsBefore 5 s t)
  loss : (o.loss = true → PendingWhereRouted 4 t) ∧ (o.loss = false → PendingAsBefore 4 s t)
  disagree : (o.disagree = true → PendingWhereRouted 6 t) ∧ (o.disagree = false → PendingAsBefore 6 s t)
  status : (before ≠ o.status → PendingWhereRouted 3 t) ∧ (before = o.status → PendingAsBefore 3 s t)

theorem setStatus_notified (status : StageStatus) (s : State) : Notified [3] s (setStatus status s) :=
  (raiseIf_notified (s.stage.status != status) .stageStatus { s with stage := { s.stage with status } }).congr rfl rfl

theorem takeSample_notices (s : State) :
    SampleNotices s.stage.sample s.stage.status s (takeSample s) := by
  let o := s.stage.sample
  let x0 := stampSample o.unit s
  let x1 := raiseIf o.spike .floatSpike x0
  let x2 := raiseIf o.loss .signalLoss x1
  have h0 : Notified [] s x0 := .of_eq rfl
  have h1 : Notified [5] x0 x1 := raiseIf_notified o.spike .floatSpike x0
  have h2 : Notified [4] x1 x2 := raiseIf_notified o.loss .signalLoss x1
  have h3 : Notified [6] x2 (sampleRaised s) := raiseIf_notified o.disagree .disagree x2
  have h4 : Notified [3] (sampleRaised s) (setStatus o.status (sampleRaised s)) := setStatus_notified _ _
  have h5 : Notified offerSources (setStatus o.status (sampleRaised s)) (takeSample s) := offer_notified _
  have hstatus : (sampleRaised s).stage.status = s.stage.status := by
    rw [sampleRaised_stage]
    obtain ⟨j, l, a, n, z, w, m, v, hj, hu⟩ := sample_writes s.stage
    simp only [stampSample, hu, hj]
  have h45 := (h4.mono (m := 3 :: offerSources) (by decide)).trans (h5.mono (by decide))
  have h345 := (h3.mono (m := [6, 3] ++ offerSources) (by decide)).trans (h45.mono (by decide))
  have h2345 := (h2.mono (m := [4, 6, 3] ++ offerSources) (by decide)).trans (h345.mono (by decide))
  have h01 := (h0.mono (m := [5]) (by decide)).trans h1
  have h012 := (h01.mono (m := [5, 4]) (by decide)).trans (h2.mono (by decide))
  have h0123 := (h012.mono (m := [5, 4, 6]) (by decide)).trans (h3.mono (by decide))
  refine ⟨raiseIf_pending (e := .floatSpike) h0 h2345 (by decide) (by decide) (by decide),
    raiseIf_pending (e := .signalLoss) h01 h345 (by decide) (by decide) (by decide),
    raiseIf_pending (e := .disagree) h012 h45 (by decide) (by decide) (by decide), fun h => ?_, fun h => ?_⟩
  · exact h5.pending (by decide) (by decide) (setStatus_pending (by rw [hstatus]; exact h))
  · have hraised := (raiseIf_pending (e := .stageStatus) (v := (sampleRaised s).stage.status != o.status)
      (x := { sampleRaised s with stage := { (sampleRaised s).stage with status := o.status } })
      (h0123.congr rfl rfl) h5 (by decide) (by decide) (by decide)).2
    exact hraised (by rw [hstatus, h]; exact bne_self_eq_false _)

/-! ## Selection, stilling and rise (R14 to R19) -/

theorem selectChannel_value (c : StageConfig) (f p : Option LastValue) : (selectChannel c f p).1 =
    match c.preferred with
    | .f => f.or p
    | .p => p.or f := by
  cases f <;> cases p <;> cases h : c.preferred <;> simp [selectChannel, h]

theorem stageBack_eq (h : HistoryStore) (k : Nat) :
    h.stageBack k = (h.ring.reverse[k - 1]?).bind IntervalRecord.stage := by
  cases hr : h.ring.reverse[k - 1]? <;> simp [HistoryStore.stageBack, hr]

theorem joinWindow_eq {n : Nat} {w : List Int} {v : Int} (h : w.length ≤ n) :
    joinWindow n w v = (if w.length = n then w.drop 1 else w) ++ [v] := by
  by_cases hn : w.length = n
  · subst hn
    simp [joinWindow]
  · rw [joinWindow, if_neg (by omega), if_neg hn]

theorem disagreeAfter_eq (n : Nat) (status : StageStatus) :
    disagreeAfter n status = if status = .suspect then min 255 (n + 1) else 0 := by
  have htop : saturate 255 (n + 1) = min 255 (n + 1) := by
    simp only [saturate, Nat.min_def]
    split <;> split <;> omega
  cases status with
  | suspect => exact htop
  | _ => rfl

/-- DISAGREE is raised where the counter comes to its limit (R15). -/
theorem disagrees_iff (n limit : Nat) (status : StageStatus) :
    ((status == .suspect && decide (n < limit) && disagreeAfter n status == limit) = true ↔
      n < limit ∧ disagreeAfter n status = limit) := by
  simp only [Bool.and_eq_true, beq_iff_eq, decide_eq_true_eq]
  refine ⟨fun h => ⟨h.1.2, h.2⟩, fun h => ⟨⟨?_, h.1⟩, h.2⟩⟩
  by_contra hs
  rw [disagreeAfter_eq, if_neg hs] at h
  omega

theorem signalRaises_iff (a b : Signal) : signalRaises a b = true ↔
    (a = .present ∧ b = .loss) ∨ (a = .loss ∧ b = .present) := by
  cases a <;> cases b <;> simp [signalRaises]

theorem converted_eq (offset raw : Int) : converted offset raw =
    ⟨clamp (-1000) 15000 (offset + raw), raw,
      decide (offset + raw < -1000) || decide (15000 < offset + raw)⟩ := by
  have hover : (!stageInRange (offset + raw)) =
      (decide (offset + raw < -1000) || decide (15000 < offset + raw)) := by
    rw [Bool.eq_iff_iff, Bool.not_eq_true', ← Bool.not_eq_true, stageInRange_iff]
    simp
    omega
  rw [converted, hover]

/-! ## The sample (R5) -/

/-- An offer of a sample's result. -/
theorem takeSample_offers (s : State) :
    OfferFollows [3, 4, 5, 6, 7] s.rating (takeSample s).stage.stilled (takeSample s).stage.status
      (takeSample s).stage.rise s (takeSample s) := by
  have hkeeps := sampleRaised_keeps s
  have hnotified : Notified [3, 4, 5, 6, 7] s (sampleRaised s) := by
    have hraised (v : Bool) (e : Source) (x : State) (he : sourceNumber e ∈ [3, 4, 5, 6, 7]) :
        Notified [3, 4, 5, 6, 7] x (raiseIf v e x) :=
      (raiseIf_notified v e x).mono fun k hk => by rwa [List.mem_singleton.1 hk]
    have hstamp : Notified [3, 4, 5, 6, 7] s (stampSample s.stage.sample.unit s) := .of_eq rfl
    exact hstamp.trans ((hraised _ .floatSpike _ (by decide)).trans ((hraised _ .signalLoss _ (by decide)).trans
      (hraised _ .disagree _ (by decide))))
  have hp : Prepared [3, 4, 5, 6, 7] s (sampleRaised s) :=
    ⟨⟨hkeeps .clock (by decide), rfl, hkeeps .plan (by decide), hkeeps .engine (by decide),
      hkeeps .results (by decide)⟩, hkeeps .lines (by decide), hnotified,
      congrArg WarningUnit.retreat (hkeeps .warning (by decide)),
      congrArg WarningUnit.level (hkeeps .warning (by decide))⟩
  have hset := setStatus_keeps s.stage.sample.status (sampleRaised s)
  have hoffers := offer_offers (setStatus_prepared s.stage.sample.status (by decide) hp)
    ((hset .history (by decide)).trans (hkeeps .history (by decide)))
    ((hset .warning (by decide)).trans (hkeeps .warning (by decide))) (by decide) (by decide) (by decide)
  have hrating : (setStatus s.stage.sample.status (sampleRaised s)).rating = s.rating :=
    (hset .rating (by decide)).trans (hkeeps .rating (by decide))
  rw [hrating, ← offer_stage (setStatus s.stage.sample.status (sampleRaised s))] at hoffers
  rw [takeSample_eq]
  exact hoffers

/-- What a sample makes of channel F. -/
theorem sample_channelF (u : StageUnit) :
    let t := u.sample.unit
    (u.cfg.fEnable = false ∨ u.encoderError = true → t.fJudgement = .invalid ∧ t.fLast = u.fLast ∧
      t.anchor = u.anchor ∧ t.runLength = u.runLength ∧ t.runValue = u.runValue ∧ u.sample.spike = false) ∧
    (u.cfg.fEnable = true → u.encoderError = false →
      let judged := u.judgeF u.convertF.value
      t.fLast = some u.convertF ∧ t.fJudgement = judged.1.fJudgement ∧ t.anchor = judged.1.anchor ∧
      t.runLength = judged.1.runLength ∧ t.runValue = judged.1.runValue ∧ u.sample.spike = judged.2) := by
  obtain ⟨-, -, -, -, -, w, m, o, -, hu⟩ := sample_writes u
  have hspike : u.sample.spike = u.sampleF.2 := congrArg SampleOutcome.spike (sample_eq u)
  refine ⟨fun h => ?_, fun hf he => ?_⟩
  · have hvalid : u.fValid = false := by
      obtain h | h := h <;> simp [StageUnit.fValid, h]
    simp [hu, hspike, StageUnit.judged, sampleF_invalid hvalid]
  · have hvalid : u.fValid = true := by simp [StageUnit.fValid, hf, he]
    simp [hu, hspike, StageUnit.judged, sampleF_valid hvalid]

/-- What a sample makes of channel P. -/
theorem sample_channelP (u : StageUnit) :
    let t := u.sample.unit
    (u.cfg.pEnable = true → u.cfg.pMin ≤ u.gateCount →
      t.signal = .present ∧ t.pLast = some (u.convertP u.gateCount)) ∧
    (u.cfg.pEnable = true → u.gateCount < u.cfg.pMin → t.signal = .loss ∧ t.pLast = u.pLast) ∧
    (u.cfg.pEnable = false → t.signal = .none ∧ t.pLast = u.pLast) ∧
    u.sample.loss = signalRaises u.signal t.signal := by
  obtain ⟨j, l, a, n, z, w, m, o, hj, hu⟩ := sample_writes u
  have hloss := congrArg SampleOutcome.loss (sample_eq u)
  have hsignal : u.sample.unit.signal = u.signalAfter u.gateCount := by rw [hu, hj]
  have hlast : u.sample.unit.pLast = u.pSelected.or u.pLast := by rw [hu, hj]
  simp only [hlast, hsignal]
  refine ⟨fun he hn => ?_, fun he hn => ?_, fun he => ?_, hloss⟩
  · simp [StageUnit.signalAfter, StageUnit.pSelected, StageUnit.pValid, he, hn]
  · simp [StageUnit.signalAfter, StageUnit.pSelected, StageUnit.pValid, he, Nat.not_le.2 hn]
  · simp [StageUnit.signalAfter, StageUnit.pSelected, StageUnit.pValid, he]

/-- The values that a sample's selection has, as its outcome shows them. -/
theorem sample_selects (u : StageUnit) :
    let t := u.sample.unit
    u.fAfter = (if t.fJudgement = .accepted ∨ t.fJudgement = .reanchored then t.fLast else none) ∧
    u.pSelected = (if u.cfg.pEnable = true ∧ u.cfg.pMin ≤ u.gateCount then t.pLast else none) := by
  obtain ⟨j, l, a, n, z, w, m, o, hj, hu⟩ := sample_writes u
  have hf : u.sample.unit.fJudgement = u.sampleF.1.fJudgement ∧ u.sample.unit.fLast = u.sampleF.1.fLast := by
    rw [hu]
    exact ⟨rfl, rfl⟩
  have hlast : u.sample.unit.pLast = u.pSelected.or u.pLast := by rw [hu, hj]
  constructor
  · rw [hf.1, hf.2, StageUnit.fAfter, StageUnit.fSelected]
    cases u.sampleF.1.fJudgement <;> rfl
  · rw [hlast]
    by_cases h : u.cfg.pEnable = true ∧ u.cfg.pMin ≤ u.gateCount
    · rw [if_pos h]
      simp [StageUnit.pSelected, StageUnit.pValid, h.1, h.2]
    · rw [if_neg h, StageUnit.pSelected, if_neg (by simpa [StageUnit.pValid] using h)]

theorem sample_disagree (u : StageUnit) :
    let t := u.sample.unit
    t.disagree = (if u.sample.status = .suspect then min 255 (u.disagree + 1) else 0) ∧
    (u.sample.disagree = true ↔ u.disagree < u.cfg.disagreeLimit ∧ t.disagree = u.cfg.disagreeLimit) := by
  obtain ⟨j, l, a, n, z, w, m, o, hj, hu⟩ := sample_writes u
  have hcount : u.sample.unit.disagree = disagreeAfter u.disagree u.selection.2 := by rw [hu, hj]
  have hdisagree := congrArg SampleOutcome.disagree (sample_eq u)
  have hstatus : u.sample.status = u.selection.2 := congrArg SampleOutcome.status (sample_eq u)
  exact ⟨by rw [hcount, disagreeAfter_eq, hstatus], by rw [hdisagree, hcount]; exact disagrees_iff _ _ _⟩

theorem sample_status (u : StageUnit) :
    (∀ a b, u.fAfter = some a → u.pSelected = some b →
      u.sample.status = if (a.value - b.value).natAbs ≤ u.cfg.tolerance then .good else .suspect) ∧
    (∀ a, u.fAfter = some a → u.pSelected = none → u.sample.status = .single) ∧
    (∀ b, u.fAfter = none → u.pSelected = some b → u.sample.status = .single) ∧
    (u.fAfter = none → u.pSelected = none → u.sample.status = .lost) := by
  have hstatus : u.sample.status = u.selection.2 := congrArg SampleOutcome.status (sample_eq u)
  rw [hstatus, StageUnit.selection]
  refine ⟨fun a b ha hb => ?_, fun a ha hb => ?_, fun b ha hb => ?_, fun ha hb => ?_⟩ <;> rw [ha, hb] <;> rfl

theorem sample_stills (u : StageUnit) :
    let t := u.sample.unit
    (u.selection.1 = none → t.window = u.window ∧ t.stilled = u.stilled ∧ t.stilledOver = u.stilledOver) ∧
    ∀ v, u.selection.1 = some v → u.window.length ≤ u.cfg.windowLength →
      t.window = (if u.window.length = u.cfg.windowLength then u.window.drop 1 else u.window) ++ [v.value] ∧
      t.stilled = some (roundDiv t.window.sum t.window.length) ∧ t.stilledOver = v.overRange := by
  obtain ⟨j, l, a, n, z, w, m, o, hj, -⟩ := sample_writes u
  have hunit : u.sample.unit = u.judged.still u.selection.1 := congrArg SampleOutcome.unit (sample_eq u)
  rw [hunit]
  refine ⟨fun h => ?_, fun v h hlength => ?_⟩ <;> rw [h, hj]
  · exact ⟨rfl, rfl, rfl⟩
  · exact ⟨joinWindow_eq hlength, rfl, rfl⟩

theorem takeSample_settings (s : State) :
    let t := (takeSample s).stage
    t.cfg = s.stage.cfg ∧ t.count = s.stage.count ∧ t.encoderError = false ∧ t.phaseA = s.stage.phaseA ∧
    t.phaseB = s.stage.phaseB ∧ t.gateCount = 0 ∧ t.lastN = s.stage.gateCount ∧ t.stamp = s.clock.clock ∧
    t.sampleUptime = s.clock.uptime ∧ t.sampleDue = nowMs s + s.stage.cfg.period * 1000 ∧
    t.rise = riseOf t.stilled (s.history.stageBack s.stage.cfg.riseWindow) := by
  obtain ⟨j, l, a, n, z, w, m, o, hj, hu⟩ := sample_writes s.stage
  rw [takeSample_stage, stampSample, hu, hj]
  exact ⟨rfl, rfl, rfl, rfl, rfl, rfl, rfl, rfl, rfl, rfl, rfl⟩

/-- Settles O18: the sample step by step, and its offer. -/
theorem stageSample : Obligations.StageSample := by
  intro s hpor
  have hexec : exec .stageSample s = .next (takeSample s) := congrArg _ (unlessPor_live hpor takeSample)
  have hoffers := takeSample_offers s
  have hprevious := hoffers.previousStage
  obtain ⟨hcfg, hcount, herror, ha, hb, hgate, hn, hstamp, huptime, hdue, hrise⟩ := takeSample_settings s
  obtain ⟨hspike, hloss, hdisagree, hstatus⟩ := takeSample_notices s
  obtain ⟨hinvalid, hvalid⟩ := sample_channelF s.stage
  obtain ⟨hpresent, hlost, hnone, hraises⟩ := sample_channelP s.stage
  obtain ⟨hcounter, hlimit⟩ := sample_disagree s.stage
  obtain ⟨hboth, hf, hp, hneither⟩ := sample_status s.stage
  obtain ⟨hstands, hstills⟩ := sample_stills s.stage
  obtain ⟨hfSelected, hpSelected⟩ := sample_selects s.stage
  have hvalue := selectChannel_value s.stage.cfg s.stage.fAfter s.stage.pSelected
  rw [hraises] at hloss
  rw [hfSelected, hpSelected] at hvalue
  simp only [hfSelected, hpSelected] at hboth hf hp hneither
  refine ⟨_, hexec, (takeSample_keeps s).mono (by decide), hcfg, hcount, herror, ha, hb, hgate, hn, hstamp,
    huptime, hdue, ?_, ?_, ?_, ?_, ?_, ?_, ?_, ?_, ?_, ?_, ?_, ?_, ?_, ?_, hprevious, hoffers.rated, hoffers.slots,
    hoffers.run, hoffers.interval⟩
  all_goals try rw [takeSample_stage]
  · intro h
    obtain ⟨hj, hl, ha, hr, hv, hs⟩ := hinvalid h
    exact ⟨hj, hl, ha, hr, hv, hspike.2 hs⟩
  · intro hf he
    obtain ⟨hl, hj, ha, hr, hv, hs⟩ := hvalid hf he
    have hconverted := converted_eq s.stage.cfg.fOffset (roundDiv (s.stage.count * s.stage.cfg.fStep) 1000)
    exact ⟨hl.trans (congrArg some hconverted), hj, ha, hr, hv, fun h => hspike.1 (hs.trans h),
      fun h => hspike.2 (hs.trans h)⟩
  · intro he hmin
    obtain ⟨hs, hl⟩ := hpresent he hmin
    exact ⟨hs, hl.trans (congrArg some (converted_eq _ _))⟩
  · exact hlost
  · exact hnone
  · exact fun h => hloss.1 ((signalRaises_iff _ _).2 h)
  · intro h
    refine hloss.2 (Bool.eq_false_iff.2 fun hr => ?_)
    obtain ⟨h1, h2⟩ | ⟨h1, h2⟩ := (signalRaises_iff _ _).1 hr <;>
      obtain h | h | h := h <;> simp_all [stampSample]
  · exact hcounter
  · exact fun h h' => hdisagree.1 (hlimit.2 ⟨h, h'⟩)
  · intro h
    refine hdisagree.2 (Bool.eq_false_iff.2 fun hr => ?_)
    obtain ⟨h1, h2⟩ := hlimit.1 hr
    obtain h | h := h
    · exact h h2
    · exact absurd (h.trans h2) (by omega)
  · intro _
    have hback := stageBack_eq s.history (s.stage.cfg.riseWindow)
    rw [takeSample_stage, hback] at hrise
    exact hrise
  · refine ⟨hboth, hf, hp, fun h h' => ⟨hneither h h', hstands ?_⟩, fun v hv _ hlength => hstills v ?_ hlength⟩
    · rw [StageUnit.selection, hfSelected, hpSelected]
      have hnone : selectChannel s.stage.cfg none none = (none, .lost) := rfl
      exact congrArg Prod.fst ((congrArg₂ (selectChannel s.stage.cfg) h h').trans hnone)
    · rw [StageUnit.selection, hfSelected, hpSelected, hvalue]
      exact hv
  · exact hstatus.1
  · exact hstatus.2

end Sys2Proof.Machine
end

section
/-! SUPPORT. The floor formed and handed on, an accepted report, and the settings of the Upstream Filter (R140, R159 to
R169). -/

namespace Sys2Proof.Machine

/-! ## The floor formed (R140, R167) -/

/-- What a command of the Upstream Filter leaves of the Warning Unit, the slots, the run and the open interval. -/
structure FloorFollows (own : List Nat) (cls : Option Nat) (s t : State) : Prop where
  floor : FloorHanded s t
  slots : SlotsJudged false cls s t
  run : RunFollows own false cls s t
  interval : IntervalTakes false s t

/-- A command has changed the station table and raised notices, and nothing else that an evaluation reads. -/
structure TablePrepared (own : List Nat) (s x : State) : Prop where
  prepared : Prepared own s x
  history : x.history = s.history
  warning : x.warning = s.warning
  inputs : evalInputs x = evalInputs s
  floor : x.upstream.floor = s.upstream.floor

/-- The floor formed again or left, and what leaves the Warning Unit, the History Store and the floor. -/
theorem floorFollows_of {own l : List Nat} {cls : Option Nat} {s x q t : State} (hx : TablePrepared own s x)
    (hown : 0 ∉ own ∧ 1 ∉ own) (hq : q = formFloor x ∨ q = x) (hrun : RunFollows own false cls s t)
    (hsame : SameWarning q t) (hafter : Notified l q t) (hl : 0 ∉ l ∧ 1 ∉ l) (hhistory : t.history = q.history)
    (hupstream : t.upstream = q.upstream) : FloorFollows own cls s t := by
  suffices h : FloorHanded s t ∧ LevelsTaken s.warning.level t.warning.level s.history t.history from
    ⟨h.1, hrun.slotsJudged, hrun, h.2.intervalTakes⟩
  rw [FloorHanded, hhistory, hupstream, hsame.warning]
  by_cases hformed : q = x
  · rw [hformed, hx.warning, hx.history, hx.floor]
    exact ⟨⟨fun _ => rfl, fun h => absurd rfl h⟩, .refl _ _⟩
  · have hq : q = formFloor x := hq.resolve_right hformed
    have hdiffer : x.upstream.greatest ≠ x.upstream.floor := fun h => hformed (hq.trans (formFloor_same h))
    let y : State := { x with
      upstream := { x.upstream with floor := x.upstream.greatest }
      warning := { x.warning with floor := x.upstream.greatest } }
    have hevaluated : q = evaluate y := by
      rw [hq]
      exact if_neg hdiffer
    have hfloor : q.upstream.floor = x.upstream.greatest := by
      rw [hevaluated]
      exact congrArg UpstreamFilter.floor (evaluate_sameUpstream y).upstream
    have htaken := evaluate_taken y
    rw [← hevaluated] at htaken
    have hlevel : x.warning.level = s.warning.level := congrArg WarningUnit.level hx.warning
    change LevelsTaken x.warning.level _ _ _ at htaken
    have hstore : y.history = s.history := hx.history
    rw [hlevel, hstore] at htaken
    refine ⟨⟨fun h => absurd (hfloor.symm.trans (h.trans hx.floor.symm)) hdiffer, fun _ => ?_⟩, htaken⟩
    have hfrom := evaluatedFrom_of (x := y) hrun hx.prepared.retreat (hx.prepared.notified.congr rfl rfl) hown
      (hevaluated ▸ hsame) (hevaluated ▸ hafter) hl
    have hinputs : evalInputs y = evalInputs s := hx.inputs
    have hunit : y.warning = { s.warning with floor := q.upstream.floor } := by rw [hfloor, ← hx.warning]
    rw [hinputs, hunit] at hfrom
    exact hfrom

/-- The floor formed again or left at the end of a command. -/
theorem formFloor_hands {own : List Nat} {s x t : State} (hx : TablePrepared own s x)
    (hown : 10 ∉ own ∧ 11 ∉ own ∧ 14 ∉ own) (hlevel : 0 ∉ own ∧ 1 ∉ own) (ht : t = formFloor x ∨ t = x) :
    FloorFollows own none s t := by
  have hp := hx.prepared
  refine floorFollows_of (l := []) hx hlevel ht ?_ {} (.refl _ _) (by simp) rfl rfl
  obtain rfl | rfl := ht
  · exact formFloor_follows hown hp
  · exact runFollows hown hp.same hp.lines hp.notified hp.retreat (hp.level ▸ Evaluation.none t) (.refl own t) rfl

theorem formFloor_upstream (s : State) :
    (formFloor s).upstream = { s.upstream with floor := (formFloor s).upstream.greatest } := by
  rw [formFloor_greatest]
  by_cases h : s.upstream.greatest = s.upstream.floor
  · rw [formFloor_same h, h]
  · have hformed : formFloor s = evaluate { s with
        upstream := { s.upstream with floor := s.upstream.greatest }
        warning := { s.warning with floor := s.upstream.greatest } } := if_neg h
    rw [hformed]
    exact (evaluate_sameUpstream _).upstream

theorem formFloor_notified (s : State) : Notified ([0, 1, 2] ++ takeSources) s (formFloor s) :=
  (Notified.refl _ s).ite ((evaluate_notified { s with
    upstream := { s.upstream with floor := s.upstream.greatest }
    warning := { s.warning with floor := s.upstream.greatest } }).congr rfl rfl)

/-! ## SET_UPSTREAM_ENTRY (R159) -/

theorem addressElsewhere_iff (u : UpstreamFilter) (i a : Nat) : addressElsewhere u i a = true ↔
    a ≠ 0 ∧ ∃ j, j < 16 ∧ j ≠ i ∧ (at' u.entries j).address = a := by
  simp [addressElsewhere]

theorem entryFits_iff (u : UpstreamFilter) (i a d tr : Nat) :
    (entryArgsInRange i a d tr && !addressElsewhere u i a) = true ↔
      i ≤ 15 ∧ a ≤ 65535 ∧ d ≤ 3 ∧ tr ≤ 1440 ∧ ¬ (a ≠ 0 ∧ ∃ j, j < 16 ∧ j ≠ i ∧ (at' u.entries j).address = a) := by
  rw [← addressElsewhere_iff]
  simp only [entryArgsInRange, Bool.and_eq_true, within_iff, Nat.zero_le, true_and, Bool.not_eq_true',
    Bool.not_eq_true, and_assoc]

/-- The floor formed again under a condition: what a command of the table leaves. -/
theorem formFloorIf_hands {own : List Nat} {s x : State} (hx : TablePrepared own s x)
    (hown : 10 ∉ own ∧ 11 ∉ own ∧ 14 ∉ own) (hlevel : 0 ∉ own ∧ 1 ∉ own) (c : Prop) [Decidable c] :
    let t := if c then formFloor x else x
    FloorFollows own none s t ∧ KeepsBut floorBlocks x t ∧ Notified ([0, 1, 2] ++ takeSources) x t ∧
      t.upstream = { x.upstream with floor := if c then t.upstream.greatest else x.upstream.floor } := by
  by_cases h : c
  · simp only [if_pos h]
    exact ⟨formFloor_hands hx hown hlevel (.inl rfl), formFloor_keeps x, formFloor_notified x, formFloor_upstream x⟩
  · simp only [if_neg h]
    exact ⟨formFloor_hands hx hown hlevel (.inr rfl), .refl _ x, .refl _ x, trivial⟩

/-- An entry written by a command is all it prepares. -/
theorem setEntry_prepared (i : Nat) (e : StationEntry) {s x : State} (hx : x.notices = s.notices)
    (hsame : KeepsBut [.ports] s x) : TablePrepared [] s (setEntry i e x) where
  prepared := ⟨⟨hsame .clock (by decide), rfl, hsame .plan (by decide), hsame .engine (by decide),
    hsame .results (by decide)⟩, hsame .lines (by decide), .of_eq hx,
    congrArg WarningUnit.retreat (hsame .warning (by decide)),
    congrArg WarningUnit.level (hsame .warning (by decide))⟩
  history := hsame .history (by decide)
  warning := hsame .warning (by decide)
  inputs := by
    have hclock : x.clock = s.clock := hsame .clock (by decide)
    have hstage : x.stage = s.stage := hsame .stage (by decide)
    have hrating : x.rating = s.rating := hsame .rating (by decide)
    simp only [evalInputs, nowMs, setEntry_clock, setEntry_stage, setEntry_rating, hclock, hstage, hrating]
  floor := by
    have hupstream : x.upstream = s.upstream := hsame .upstream (by decide)
    rw [setEntry_floor, hupstream]

theorem closeWindow_keeps (p : Port) (s : State) : KeepsBut [.ports] s (closeWindow p s) := setPort_keeps _ _ _

theorem setUpstreamEntry_refuses {p : Port} {i a d tr : Nat} {s : State} (htake : Takes p 0x73 s)
    (h : ¬ (entryArgsInRange i a d tr && !addressElsewhere s.upstream i a) = true) :
    Refuses (.setUpstreamEntry p i a d tr) p s ⟨.range, []⟩ := refuses_owner htake rfl (if_neg h) rfl

theorem exec_setUpstreamEntry {p : Port} {i a d tr : Nat} {s : State} (htake : Takes p 0x73 s)
    (h : (entryArgsInRange i a d tr && !addressElsewhere s.upstream i a) = true) :
    exec (.setUpstreamEntry p i a d tr) s = .next (setReply p
      ⟨.ok, u16 (entryAt s i).address ++ u8 (entryAt s i).contribution⟩
      (if 0 < (entryAt s i).contribution then formFloor (setEntry i ⟨a, d, tr, none, 0, false, []⟩ (closeWindow p s))
        else setEntry i ⟨a, d, tr, none, 0, false, []⟩ (closeWindow p s))) :=
  exec_owner htake rfl (if_pos h)

/-! ## SET_UPSTREAM_FILTER (R161) -/

theorem capArgOf_isSome (c : CapArg) :
    (capArgOf c).isSome = true ↔ c = .drop ∨ ∃ n, c = .cap n ∧ n ≤ 3 := by
  cases c with
  | cap n =>
    by_cases h : n ≤ 3 <;> simp [capArgOf, within, h]
  | drop => simp [capArgOf]
  | unknown _ => simp [capArgOf]

/-- Whether a filter's fields lie in their ranges. -/
def FilterInRange (a : FilterArgs) : Prop :=
  a.hashEnable ≤ 1 ∧ a.acceptAll ≤ 1 ∧ 10 ≤ a.staleLimit ∧ a.staleLimit ≤ 2880 ∧
    ∀ c ∈ a.classMap.toList, c = CapArg.drop ∨ ∃ n, c = CapArg.cap n ∧ n ≤ 3

theorem filterCaps_iff (a : FilterArgs) :
    (within 10 2880 a.staleLimit && a.classMap.all fun x => (capArgOf x).isSome) = true ↔
      10 ≤ a.staleLimit ∧ a.staleLimit ≤ 2880 ∧
        ∀ c ∈ a.classMap.toList, c = CapArg.drop ∨ ∃ n, c = CapArg.cap n ∧ n ≤ 3 := by
  simp only [Bool.and_eq_true, within_iff, and_assoc, Vector.all_eq_true_iff_forall_mem, capArgOf_isSome,
    Vector.mem_toList_iff]

theorem setUpstreamFilter_refuses {p : Port} {a : FilterArgs} {s : State} (htake : Takes p 0x75 s)
    (h : ¬ FilterInRange a) : Refuses (.setUpstreamFilter p a) p s ⟨.range, []⟩ := by
  refine refuses_owner htake rfl ?_ rfl
  cases hh : twoValuedOf a.hashEnable with
  | none => rfl
  | some enable => cases ha : twoValuedOf a.acceptAll with
    | none => rfl
    | some all =>
      refine if_neg fun hcaps => h ⟨(twoValuedOf_isSome _).1 (by rw [hh]; rfl),
        (twoValuedOf_isSome _).1 (by rw [ha]; rfl), (filterCaps_iff a).1 hcaps⟩

theorem exec_setUpstreamFilter {p : Port} {a : FilterArgs} {s : State} (htake : Takes p 0x75 s) (h : FilterInRange a) :
    exec (.setUpstreamFilter p a) s = .next (setReply p ⟨.ok, filterData s.upstream⟩ (judgeStaleness
      { closeWindow p s with
        upstream := s.upstream.withSettings (decide (a.hashEnable = 0)) (decide (a.acceptAll = 0)) a })) := by
  obtain ⟨hh, ha, hcaps⟩ := h
  obtain ⟨enable, hh⟩ := Option.isSome_iff_exists.1 ((twoValuedOf_isSome _).2 hh)
  obtain ⟨all, ha⟩ := Option.isSome_iff_exists.1 ((twoValuedOf_isSome _).2 ha)
  refine exec_owner htake rfl ?_
  rw [← twoValuedOf_some hh, ← twoValuedOf_some ha]
  simp only [hh, ha]
  exact if_pos ((filterCaps_iff a).2 hcaps)

/-- What the stale limit makes of an entry. -/
def staleJudgedEntry (s : State) (e : StationEntry) : StationEntry :=
  if staleAt s.upstream.staleLimit (nowMs s) e then e.madeStale else e

/-- Whether the stale limit makes an entry stale. -/
def anyStale (s : State) : Bool := s.upstream.entries.any (staleAt s.upstream.staleLimit (nowMs s))

/-- Every entry judged at the stale limit, before the floor is formed. -/
def staleJudged (s : State) : State :=
  raiseIf (anyStale s) .upstreamStale
    { s with upstream := { s.upstream with entries := s.upstream.entries.map (staleJudgedEntry s) } }

theorem judgeStaleness_eq (s : State) :
    judgeStaleness s = if anyStale s = true then formFloor (staleJudged s) else staleJudged s := rfl

theorem staleJudged_keeps (s : State) : KeepsBut [.upstream, .notices] s (staleJudged s) :=
  ((withUpstream_keeps _ s).mono (by decide)).trans ((raiseIf_keeps _ .upstreamStale _).mono (by decide))

theorem staleJudged_notified (s : State) : Notified [16] s (staleJudged s) :=
  (raiseIf_notified (anyStale s) .upstreamStale
    { s with upstream := { s.upstream with entries := s.upstream.entries.map (staleJudgedEntry s) } }).congr rfl rfl

theorem staleJudged_upstream (s : State) : (staleJudged s).upstream =
    { s.upstream with entries := s.upstream.entries.map (staleJudgedEntry s) } :=
  (raiseIf_keeps (anyStale s) .upstreamStale
    { s with upstream := { s.upstream with entries := s.upstream.entries.map (staleJudgedEntry s) } }) .upstream
    (by decide)

theorem staleJudged_pending {s : State} (h : anyStale s = true) : PendingWhereRouted 16 (staleJudged s) := by
  rw [staleJudged, raiseIf, if_pos h]
  exact raise_pendingWhereRouted .upstreamStale _

theorem anyStale_iff (s : State) : anyStale s = true ↔
    ∃ i, i < 16 ∧ staleAt s.upstream.staleLimit (nowMs s) (entryAt s i) = true := by
  rw [anyStale, Vector.any_eq_true]
  constructor
  · rintro ⟨i, hi, h⟩
    exact ⟨i, hi, by rwa [entryAt, at'_eq _ hi]⟩
  · rintro ⟨i, hi, h⟩
    exact ⟨i, hi, by rwa [entryAt, at'_eq _ hi] at h⟩

/-- New filter settings prepare an evaluation with the floor that the judged entries form. -/
theorem staleJudged_prepared {p : Port} {s : State} {u : UpstreamFilter} (hfloor : u.floor = s.upstream.floor) :
    TablePrepared [16] s (staleJudged { closeWindow p s with upstream := u }) where
  prepared := by
    have hkeeps := staleJudged_keeps { closeWindow p s with upstream := u }
    have hwindow : Notified [16] s { closeWindow p s with upstream := u } := .of_eq rfl
    have hnotified := hwindow.trans (staleJudged_notified _)
    exact ⟨⟨hkeeps .clock (by decide), rfl, hkeeps .plan (by decide), hkeeps .engine (by decide),
      hkeeps .results (by decide)⟩, hkeeps .lines (by decide), hnotified,
      congrArg WarningUnit.retreat (hkeeps .warning (by decide)),
      congrArg WarningUnit.level (hkeeps .warning (by decide))⟩
  history := staleJudged_keeps _ .history (by decide)
  warning := staleJudged_keeps _ .warning (by decide)
  inputs := by
    have hkeeps := staleJudged_keeps { closeWindow p s with upstream := u }
    have hclock : (staleJudged { closeWindow p s with upstream := u }).clock = s.clock := hkeeps .clock (by decide)
    have hstage : (staleJudged { closeWindow p s with upstream := u }).stage = s.stage := hkeeps .stage (by decide)
    have hrating : (staleJudged { closeWindow p s with upstream := u }).rating = s.rating :=
      hkeeps .rating (by decide)
    simp only [evalInputs, nowMs, hclock, hstage, hrating]
  floor := by rw [staleJudged_upstream]; exact hfloor

/-- The filter settings taken, and the entries that they make stale. -/
theorem judgeStaleness_settings {p : Port} {a : FilterArgs} {s : State} :
    let u := s.upstream.withSettings (decide (a.hashEnable = 0)) (decide (a.acceptAll = 0)) a
    let x : State := { closeWindow p s with upstream := u }
    let t := judgeStaleness x
    FloorFollows [16] none s t ∧ KeepsBut floorBlocks (closeWindow p s) t ∧
      t.upstream = { u with
        entries := u.entries.map (staleJudgedEntry x)
        floor := if anyStale x = true then t.upstream.greatest else s.upstream.floor } ∧
      (anyStale x = true → PendingWhereRouted 16 t) := by
  intro u x t
  obtain ⟨hfollows, hkeeps, hnotified, hupstream⟩ := formFloorIf_hands (staleJudged_prepared (p := p) (s := s)
    (u := u) rfl) (by decide) (by decide) (anyStale x = true)
  rw [← judgeStaleness_eq] at hfollows hkeeps hnotified hupstream
  rw [staleJudged_upstream] at hupstream
  refine ⟨hfollows, ?_, hupstream, fun h => hnotified.pending (by decide) (by decide) (staleJudged_pending h)⟩
  exact ((withUpstream_keeps u (closeWindow p s)).mono (by decide)).trans
    (((staleJudged_keeps x).mono (by decide)).trans hkeeps)

/-- Each entry as the filter settings leave it. -/
theorem staleJudged_entry {s t : State} {i : Nat} (hi : i < 16)
    (h : t.upstream.entries = s.upstream.entries.map (staleJudgedEntry s)) :
    (¬ ((entryAt s i).stale = false ∧
      ∃ r, (entryAt s i).last = some r ∧ r.arrival + s.upstream.staleLimit * 60000 ≤ nowMs s) →
        entryAt t i = entryAt s i) ∧
    ((entryAt s i).stale = false ∧
      (∃ r, (entryAt s i).last = some r ∧ r.arrival + s.upstream.staleLimit * 60000 ≤ nowMs s) →
        anyStale s = true ∧ entryAt t i = (entryAt s i).madeStale) := by
  have hentry : entryAt t i = staleJudgedEntry s (entryAt s i) := by
    rw [entryAt, h, at'_map _ _ hi]
    rfl
  rw [hentry, ← staleAt_iff]
  exact ⟨fun hnot => if_neg hnot, fun hspent => ⟨(anyStale_iff s).2 ⟨i, hi, hspent⟩, if_pos hspent⟩⟩

theorem withSettings_cap (a : FilterArgs) (ha : FilterInRange a) (u : UpstreamFilter) (enable all : Bool) {c : Nat}
    (hc : c < 8) :
    capArgOf (a.classMap[c]?.getD .drop) = some (at' (u.withSettings enable all a).classMap c) := by
  have hget : a.classMap[c]?.getD .drop = a.classMap[c] := by simp [hc]
  have hmem : a.classMap[c] ∈ a.classMap.toList := by simp
  obtain ⟨-, -, -, -, hcaps⟩ := ha
  obtain ⟨cap, hcap⟩ := Option.isSome_iff_exists.1 ((capArgOf_isSome _).2 (hcaps _ hmem))
  rw [hget, hcap, UpstreamFilter.withSettings, at'_eq _ hc]
  simp [hcap]

/-- An expiry while POR is inactive. -/
theorem exec_live {i : Instr} {f : State → State} {s t : State} (hpor : s.ports.por = false)
    (hexec : exec i s = .next (unlessPor s f)) (h : f s = t) : exec i s = .next t := by
  rw [hexec, unlessPor_live hpor, h]

/-! ## The timers of an entry (R165, R166) -/

theorem delayExpiry_eq {i : Nat} {s : State} {x : QueueItem} {rest : List QueueItem}
    (h : (entryAt s i).queue = x :: rest) :
    let t := setEntry i { entryAt s i with contribution := x.value, queue := rest } s
    delayExpiry i s = if x.value ≠ (entryAt s i).contribution then formFloor t else t := by
  simp only [delayExpiry, h, ite_not]

theorem staleExpiry_eq {i : Nat} {s : State} (hlast : (entryAt s i).last ≠ none)
    (hstale : (entryAt s i).stale = false) :
    staleExpiry i s = formFloor (raise .upstreamStale (setEntry i (entryAt s i).madeStale s)) := by
  obtain ⟨r, hr⟩ := Option.ne_none_iff_exists'.1 hlast
  simp [staleExpiry, hr, hstale]

/-- An entry made stale prepares an evaluation. -/
theorem raiseStale_prepared (i : Nat) (s : State) :
    TablePrepared [16] s (raise .upstreamStale (setEntry i (entryAt s i).madeStale s)) where
  prepared := by
    have hwritten : Notified [16] s (setEntry i (entryAt s i).madeStale s) := .of_eq rfl
    exact ⟨⟨rfl, rfl, rfl, rfl, rfl⟩, rfl, hwritten.trans (raise_notified .upstreamStale _), rfl, rfl⟩
  history := rfl
  warning := rfl
  inputs := rfl
  floor := rfl

/-- Settles O50: every command of the table prepares the floor, which is then formed again or left. -/
theorem upstreamTable : Obligations.UpstreamTable := by
  refine ⟨fun p i a d tr s htake => ?_, fun p a s htake => ⟨fun hnot => setUpstreamFilter_refuses htake hnot,
    fun hfits => ⟨_, exec_setUpstreamFilter htake hfits, ?_⟩⟩, fun p s htake => exec_owner htake rfl rfl,
    fun i s hpor hi => ⟨fun hq => ?_, fun x rest hq => ?_, fun hidle => ?_, fun hlast hstale => ?_⟩⟩
  · have hfits := entryFits_iff s.upstream i a d tr
    refine ⟨fun hnot => setUpstreamEntry_refuses htake (mt hfits.1 hnot), fun h =>
      ⟨_, exec_setUpstreamEntry htake (hfits.2 h), ?_⟩⟩
    obtain ⟨hfollows, hkeeps, -, hupstream⟩ := formFloorIf_hands
      (setEntry_prepared i ⟨a, d, tr, none, 0, false, []⟩ (s := s) (x := closeWindow p s) rfl (closeWindow_keeps p s))
      (by decide) (by decide) (0 < (entryAt s i).contribution)
    refine ⟨((setEntry_keeps i _ _).mono (by decide)).trans hkeeps, hupstream.trans ?_, hfollows.floor,
      hfollows.slots, hfollows.run, hfollows.interval⟩
    simp only [Nat.pos_iff_ne_zero, ite_not]
    rfl
  · obtain ⟨hfollows, hkeeps, hupstream, hpending⟩ := judgeStaleness_settings (p := p) (a := a) (s := s)
    have hfield {α : Type} (f : UpstreamFilter → α) := congrArg f hupstream
    have hentry (i : Nat) (hi : i < 16) := staleJudged_entry (s := { closeWindow p s with
      upstream := s.upstream.withSettings (decide (a.hashEnable = 0)) (decide (a.acceptAll = 0)) a }) hi
      (hfield UpstreamFilter.entries)
    refine ⟨hkeeps, by rw [hfield UpstreamFilter.hashEnable]; exact decide_eq_true_iff,
      by rw [hfield UpstreamFilter.acceptAll]; exact decide_eq_true_iff, hfield UpstreamFilter.staleLimit,
      fun c hc => ?_, hfield UpstreamFilter.hash, hfield UpstreamFilter.counters, hfollows.floor, hfollows.slots,
      hfollows.run, hfollows.interval, fun hnone => ?_, fun i hi => ⟨(hentry i hi).1, fun hspent => ?_⟩⟩
    · rw [hfield UpstreamFilter.classMap]
      exact withSettings_cap a hfits s.upstream (decide (a.hashEnable = 0)) (decide (a.acceptAll = 0)) hc
    · refine (hfield UpstreamFilter.floor).trans (if_neg fun hany => ?_)
      obtain ⟨i, hi, hspent⟩ := (anyStale_iff _).1 hany
      have hjudged := (staleAt_iff _ i).1 hspent
      exact hnone i hi hjudged
    · obtain ⟨hany, hstale⟩ := (hentry i hi).2 hspent
      exact ⟨hpending hany, (hfield UpstreamFilter.floor).trans (if_pos hany), hstale⟩
  · exact exec_live hpor rfl (delayExpiry_empty hq)
  · refine ⟨_, exec_live hpor rfl (delayExpiry_eq hq), ?_⟩
    obtain ⟨hfollows, hkeeps, -, hupstream⟩ := formFloorIf_hands
      (setEntry_prepared i { entryAt s i with contribution := x.value, queue := rest } (s := s) (x := s) rfl
        (.refl _ s)) (by decide) (by decide) (x.value ≠ (entryAt s i).contribution)
    refine ⟨((setEntry_keeps i _ _).mono (by decide)).trans hkeeps, hupstream.trans ?_, hfollows.floor,
      hfollows.slots, hfollows.run, hfollows.interval, fun hsame => ?_⟩
    · simp only [ne_eq, ite_not]
      rfl
    · simp only [hsame, ne_eq, not_true_eq_false, if_false]
      exact ⟨rfl, rfl⟩
  · exact exec_live hpor rfl (staleExpiry_idle hidle)
  · refine ⟨_, exec_live hpor rfl (staleExpiry_eq hlast hstale), ?_⟩
    have hx := raiseStale_prepared i s
    have hfollows := formFloor_hands hx (by decide) (by decide) (.inl rfl)
    refine ⟨?_, formFloor_upstream _, hfollows.floor, hfollows.slots, hfollows.run, hfollows.interval, ?_⟩
    · exact ((setEntry_keeps i _ s).mono (by decide)).trans
        (((raise_keeps .upstreamStale _).mono (by decide)).trans (formFloor_keeps _))
    · exact (formFloor_notified _).pending (by decide) (by decide) (raise_pendingWhereRouted .upstreamStale _)

end Sys2Proof.Machine
end

section
/-! SUPPORT. UPSTREAM_REPORT: its ranges, its dispositions, and what an accepted report makes of its entry (R162 to
R169). -/

namespace Sys2Proof.Machine

/-! ## Ranges and dispositions (R162) -/

theorem reportInRange_iff (a : ReportArgs) : reportInRange a = true ↔
    1 ≤ a.address ∧ a.address ≤ 65535 ∧ a.stamp ≤ 4294967295 ∧ a.cls ≤ 7 ∧ -1000 ≤ a.stage ∧ a.stage ≤ 15000 ∧
      a.level ≤ 3 := by
  simp only [reportInRange, Bool.and_eq_true, within_iff, stageInRange_iff, Nat.zero_le, true_and, and_assoc]

theorem countUp_eq (n : Nat) : countUp n = min 65535 (n + 1) := by
  simp only [countUp, saturate, Nat.min_def]
  split <;> split <;> omega

/-- A report whose class is dropped. -/
theorem dispose_class {u : UpstreamFilter} {a : ReportArgs} (h : at' u.classMap a.cls = none) :
    u.dispose a = .droppedClass := by simp only [UpstreamFilter.dispose, h]

section Capped

variable {u : UpstreamFilter} {a : ReportArgs} {cap : Nat} (hcap : at' u.classMap a.cls = some cap)
include hcap

theorem dispose_filter (hfind : u.find? a.address = none)
    (h : ¬ ((u.hashEnable = true ∧ u.hash.getLsbD (hashBin a.address) = true) ∨ u.acceptAll = true)) :
    u.dispose a = .droppedFilter := by
  simp only [UpstreamFilter.dispose, hcap, hfind]
  exact if_neg (by simpa using h)

theorem dispose_neighbour (hfind : u.find? a.address = none)
    (h : (u.hashEnable = true ∧ u.hash.getLsbD (hashBin a.address) = true) ∨ u.acceptAll = true) :
    u.dispose a = .neighbour := by
  simp only [UpstreamFilter.dispose, hcap, hfind]
  exact if_pos (by simpa using h)

theorem dispose_order {i : Nat} {r : LastReport} (hfind : u.find? a.address = some i)
    (hlast : (at' u.entries i).last = some r) (h : a.stamp ≤ r.stamp) : u.dispose a = .droppedOrder := by
  simp only [UpstreamFilter.dispose, hcap, hfind, hlast, if_pos h]

theorem dispose_table {i : Nat} (hfind : u.find? a.address = some i)
    (h : ∀ r, (at' u.entries i).last = some r → r.stamp < a.stamp) : u.dispose a = .table := by
  simp only [UpstreamFilter.dispose, hcap, hfind]
  cases hlast : (at' u.entries i).last with
  | none => rfl
  | some r => exact if_neg (by have := h r hlast; omega)

end Capped

/-! ## The report taken -/

/-- A report in range, by its disposition. -/
theorem exec_upstreamReport {p : Port} {a : ReportArgs} {s t : State} {r : Reply} (htake : Takes p 0x70 s)
    (hin : reportInRange a = true) (h : takeReport a (closeWindow p s) = (t, r)) :
    exec (.upstreamReport p a) s = .next (setReply p r t) :=
  exec_owner htake rfl ((if_pos hin).trans h)

theorem handAccepted_notified (cls : Nat) (s : State) : Notified (15 :: takeSources) s (handAccepted cls s) := by
  have hraised : Notified (15 :: takeSources) s (raise .upstreamAccepted s) :=
    (raise_notified .upstreamAccepted s).mono (by decide)
  rw [handAccepted_eq]
  have hjudged : Notified (15 :: takeSources) s { raise .upstreamAccepted s with
      plan := offeredPlan false (some cls) s.stage.stilled s.plan } := hraised.congr rfl rfl
  exact hjudged.trans ((takeAttempt_moved _).notified.mono (by decide))

theorem handAccepted_pending (cls : Nat) (s : State) : PendingWhereRouted 15 (handAccepted cls s) := by
  rw [handAccepted_eq]
  have hraised : PendingWhereRouted 15 { raise .upstreamAccepted s with
      plan := offeredPlan false (some cls) s.stage.stilled s.plan } := raise_pendingWhereRouted .upstreamAccepted s
  have htaken := (takeAttempt_moved { raise .upstreamAccepted s with
    plan := offeredPlan false (some cls) s.stage.stilled s.plan }).notified
  exact htaken.pending (by decide) (by decide) hraised

/-- A neighbour's report handed on. -/
theorem neighbour_handed (p : Port) (cls : Nat) (s : State) :
    let t := handAccepted cls (countReport .neighbour (closeWindow p s))
    KeepsBut (.upstream :: runBlocks) (closeWindow p s) t ∧
      t.upstream = (countReport .neighbour (closeWindow p s)).upstream ∧ PendingWhereRouted 15 t ∧
      RunFollows [15] false (some cls) s t := by
  have hkeeps := handAccepted_keeps cls (countReport .neighbour (closeWindow p s))
  have hp : Prepared [15] s (countReport .neighbour (closeWindow p s)) :=
    ⟨⟨rfl, rfl, rfl, rfl, rfl⟩, rfl, .of_eq rfl, rfl, rfl⟩
  exact ⟨((withUpstream_keeps _ (closeWindow p s)).mono (by decide)).trans (hkeeps.mono (by decide)),
    hkeeps .upstream (by decide), handAccepted_pending _ _, (handAccepted_follows cls hp).2⟩

/-- The counter of a disposition that drops a report. -/
theorem countReport_eq (s : State) :
    countReport .droppedClass s = { s with upstream := { s.upstream with
      counters := { s.upstream.counters with droppedClass := min 65535 (s.upstream.counters.droppedClass + 1) } } } ∧
    countReport .droppedFilter s = { s with upstream := { s.upstream with
      counters := { s.upstream.counters with droppedFilter := min 65535 (s.upstream.counters.droppedFilter + 1) } } } ∧
    countReport .droppedOrder s = { s with upstream := { s.upstream with
      counters := { s.upstream.counters with droppedOrder := min 65535 (s.upstream.counters.droppedOrder + 1) } } } ∧
    countReport .neighbour s = { s with upstream := { s.upstream with
      counters := { s.upstream.counters with neighbour := min 65535 (s.upstream.counters.neighbour + 1) } } } ∧
    countReport .table s = { s with upstream := { s.upstream with
      counters := { s.upstream.counters with table := min 65535 (s.upstream.counters.table + 1) } } } := by
  simp only [countReport, UpstreamCounters.count, countUp_eq, and_self]

theorem takeReport_class {a : ReportArgs} {s : State} (h : s.upstream.dispose a = .droppedClass) :
    takeReport a s = (countReport .droppedClass s, ⟨.ok, [2, 255, 0, 0, 0, 0, 0, 0, 0]⟩) := by
  simp only [takeReport, h]
  cases s.upstream.find? a.address <;> rfl

theorem takeReport_filter {a : ReportArgs} {s : State} (h : s.upstream.dispose a = .droppedFilter) :
    takeReport a s = (countReport .droppedFilter s, ⟨.ok, [4, 255, 0, 0, 0, 0, 0, 0, 0]⟩) := by
  simp only [takeReport, h]
  cases s.upstream.find? a.address <;> rfl

theorem takeReport_neighbour {a : ReportArgs} {s : State} (h : s.upstream.dispose a = .neighbour) :
    takeReport a s = (handAccepted a.cls (countReport .neighbour s), ⟨.ok, [1, 255, 0, 0, 0, 0, 0, 0, 0]⟩) := by
  simp only [takeReport, h]
  rfl

theorem takeReport_order {a : ReportArgs} {s : State} {i : Nat} {r : LastReport}
    (h : s.upstream.dispose a = .droppedOrder) (hfind : s.upstream.find? a.address = some i)
    (hlast : (entryAt s i).last = some r) : takeReport a s =
      (countReport .droppedOrder s, ⟨.ok, [3] ++ u8 i ++ [0, 0] ++ u32 r.stamp ++ [0]⟩) := by
  simp only [takeReport, h, hfind, hlast]
  simp only [reportData, List.append_assoc]
  rfl

theorem takeReport_table {a : ReportArgs} {s : State} {i : Nat} (h : s.upstream.dispose a = .table)
    (hfind : s.upstream.find? a.address = some i) : takeReport a s = takeTableReport i a s := by
  simp only [takeReport, h, hfind]

/-! ## A TABLE report (R163, R164) -/

theorem replaceNewest_append (c : Nat) (before : List QueueItem) (x : QueueItem) :
    replaceNewest c (before ++ [x]) = before ++ [⟨c, x.effective⟩] := by
  induction before with
  | nil => rfl
  | cons y rest ih =>
    cases rest with
    | nil => rfl
    | cons z rest => exact congrArg (y :: ·) ih

/-- What an accepted report writes in its entry, whatever its handling. -/
theorem accept_writes (e : StationEntry) (a : ReportArgs) (c now : Nat) :
    let e' := (e.accept a c now).1
    e'.address = e.address ∧ e'.stepDown = e.stepDown ∧ e'.travel = e.travel ∧ e'.stale = false ∧
      e'.last = some ⟨a.stamp, a.stage, a.level, a.cls, now⟩ := by
  simp only [StationEntry.accept, StationEntry.place]
  split
  · simp
  · split <;> simp

theorem accept_current {e : StationEntry} (h : e.travel = 0) (a : ReportArgs) (c now : Nat) :
    e.accept a c now = ({ e with
      last := some ⟨a.stamp, a.stage, a.level, a.cls, now⟩, stale := false, contribution := c }, .current) := if_pos h

theorem accept_queued {e : StationEntry} (h : e.travel ≠ 0) (hq : e.queue.length < 4) (a : ReportArgs) (c now : Nat) :
    e.accept a c now = ({ e with
      last := some ⟨a.stamp, a.stage, a.level, a.cls, now⟩, stale := false
      queue := e.queue ++ [⟨c, now + e.travel * 60000⟩] }, .queued) := (if_neg h).trans (if_pos hq)

theorem accept_replaced {e : StationEntry} (h : e.travel ≠ 0) (hq : 4 ≤ e.queue.length) (a : ReportArgs)
    (c now : Nat) : e.accept a c now = ({ e with
      last := some ⟨a.stamp, a.stage, a.level, a.cls, now⟩, stale := false
      queue := replaceNewest c e.queue }, .replaced) := (if_neg h).trans (if_neg (Nat.not_lt.2 hq))

/-- A report takes effect at once exactly where its entry has no travel time. -/
theorem accept_handling (e : StationEntry) (a : ReportArgs) (c now : Nat) :
    (e.accept a c now).2 = .current ↔ e.travel = 0 := by
  by_cases h : e.travel = 0
  · rw [accept_current h]
    simp [h]
  · by_cases hq : e.queue.length < 4
    · rw [accept_queued h hq]
      simp [h]
    · rw [accept_replaced h (Nat.not_lt.1 hq)]
      simp [h]

/-- A report written in its entry and counted, and then handed on. -/
theorem tableReport_handed (p : Port) (i cls : Nat) (e : StationEntry) (s : State) (c : Prop) [Decidable c] :
    let x := countReport .table (setEntry i e (closeWindow p s))
    let t := handAccepted cls (if c then formFloor x else x)
    FloorFollows [15] (some cls) s t ∧ KeepsBut (.upstream :: evaluationBlocks) (closeWindow p s) t ∧
      PendingWhereRouted 15 t ∧ t.upstream = { s.upstream with
        entries := s.upstream.entries.setIfInBounds i e
        counters := { s.upstream.counters with table := min 65535 (s.upstream.counters.table + 1) }
        floor := if c then t.upstream.greatest else s.upstream.floor } := by
  intro x t
  have hp : Prepared [15] s x := ⟨⟨rfl, rfl, rfl, rfl, rfl⟩, rfl, .of_eq rfl, rfl, rfl⟩
  have hx : TablePrepared [15] s x := ⟨hp, rfl, rfl, rfl, rfl⟩
  obtain ⟨-, hkeeps, -, hupstream⟩ := formFloorIf_hands hx (by decide) (by decide) c
  have hhanded := handAccepted_keeps cls (if c then formFloor x else x)
  have hkept : t.upstream = (if c then formFloor x else x).upstream := hhanded .upstream (by decide)
  have hrun : RunFollows [15] false (some cls) s t := by
    by_cases h : c
    · simp only [t, if_pos h]
      exact (handAccepted_follows cls hp).1
    · simp only [t, if_neg h]
      exact (handAccepted_follows cls hp).2
  have hquiet : (if c then formFloor x else x) = formFloor x ∨ (if c then formFloor x else x) = x := by
    split
    · exact .inl rfl
    · exact .inr rfl
  refine ⟨floorFollows_of hx (by decide) hquiet hrun (handAccepted_sameWarning _ _) (handAccepted_notified _ _)
    (by decide) (hhanded .history (by decide)) hkept, ?_, handAccepted_pending _ _, ?_⟩
  · exact ((withUpstream_keeps x.upstream (closeWindow p s)).mono (by decide)).trans
      ((hkeeps.mono (by decide)).trans (hhanded.mono (by decide)))
  · rw [← countUp_eq, hkept]
    exact hupstream

theorem takeTableReport_eq (p : Port) (i : Nat) {a : ReportArgs} {s : State} {cap : Nat}
    (hcap : at' s.upstream.classMap a.cls = some cap) :
    let c := contributionOf cap a.level (entryAt s i).stepDown
    let r := (entryAt s i).accept a c (nowMs s)
    let x := countReport .table (setEntry i r.1 (closeWindow p s))
    takeTableReport i a (closeWindow p s) = (handAccepted a.cls (if r.2 = .current then formFloor x else x),
      ⟨.ok, [0] ++ u8 i ++ u8 c ++ u8 (handlingCode r.2) ++ [0, 0, 0, 0, 0]⟩) := by
  have hcapOf : capOf (closeWindow p s).upstream a.cls = cap := congrArg (Option.getD · 0) hcap
  simp only [takeTableReport, hcapOf, reportData, List.append_assoc]
  rfl

theorem takeReport_accepted (p : Port) {a : ReportArgs} {s : State} {cap i : Nat}
    (hcap : at' s.upstream.classMap a.cls = some cap) (hfind : s.upstream.find? a.address = some i)
    (hlast : ∀ r, (entryAt s i).last = some r → r.stamp < a.stamp) :
    let c := contributionOf cap a.level (entryAt s i).stepDown
    let r := (entryAt s i).accept a c (nowMs s)
    let x := countReport .table (setEntry i r.1 (closeWindow p s))
    takeReport a (closeWindow p s) = (handAccepted a.cls (if r.2 = .current then formFloor x else x),
      ⟨.ok, [0] ++ u8 i ++ u8 c ++ u8 (handlingCode r.2) ++ [0, 0, 0, 0, 0]⟩) := by
  have hdispose : (closeWindow p s).upstream.dispose a = .table := dispose_table hcap hfind hlast
  have hfound : (closeWindow p s).upstream.find? a.address = some i := hfind
  rw [takeReport_table hdispose hfound]
  exact takeTableReport_eq p i hcap

/-- Settles O48: the dispositions in order, and a TABLE report as an entry written, a floor formed or left, and the
report handed on. -/
theorem upstreamReports : Obligations.UpstreamReports := by
  intro p a s htake
  have hrange := reportInRange_iff a
  obtain ⟨hclass, hfilter, horder, hcounted, -⟩ := countReport_eq (closeWindow p s)
  refine ⟨fun hnot => refuses_owner htake rfl (if_neg (mt hrange.1 hnot)) rfl, fun hfits hcap => ?_,
    fun cap hfits hcap => ⟨fun hfind hnot => ?_, fun hfind hneighbour => ?_, fun i r hfind hlast hle => ?_,
      fun i hfind hlast => ?_⟩⟩
  · exact (exec_upstreamReport htake (hrange.2 hfits) (takeReport_class (dispose_class hcap))).trans
      (by rw [hclass]; rfl)
  · exact (exec_upstreamReport htake (hrange.2 hfits) (takeReport_filter (dispose_filter hcap hfind hnot))).trans
      (by rw [hfilter]; rfl)
  · obtain ⟨hkeeps, hupstream, hpending, hrun⟩ := neighbour_handed p a.cls s
    refine ⟨_, exec_upstreamReport htake (hrange.2 hfits) (takeReport_neighbour (dispose_neighbour hcap hfind
      hneighbour)), hkeeps, hupstream.trans ?_, hpending, hrun.slotsJudged, hrun⟩
    rw [hcounted]
    rfl
  · exact (exec_upstreamReport htake (hrange.2 hfits) (takeReport_order (dispose_order hcap hfind hlast hle) hfind
      hlast)).trans (by rw [horder]; rfl)
  · have htaken := exec_upstreamReport htake (hrange.2 hfits) (takeReport_accepted p hcap hfind hlast)
    obtain ⟨haddress, hstep, htravel, hstale, hreport⟩ := accept_writes (entryAt s i) a
      (contributionOf cap a.level (entryAt s i).stepDown) (nowMs s)
    obtain ⟨hfollows, hkeeps, hpending, hupstream⟩ := tableReport_handed p i a.cls
      ((entryAt s i).accept a (contributionOf cap a.level (entryAt s i).stepDown) (nowMs s)).1 s
      (((entryAt s i).accept a (contributionOf cap a.level (entryAt s i).stepDown) (nowMs s)).2 = .current)
    refine ⟨_, ((entryAt s i).accept a (contributionOf cap a.level (entryAt s i).stepDown) (nowMs s)).1,
      handlingCode ((entryAt s i).accept a (contributionOf cap a.level (entryAt s i).stepDown) (nowMs s)).2,
      htaken, hkeeps, hpending, hfollows.slots, hfollows.run, hfollows.interval, hfollows.floor, ?_, haddress,
      hstep, htravel, hstale, hreport, fun h => ?_, fun h hq => ?_, fun h hq => ?_⟩
    · simpa only [accept_handling] using hupstream
    · rw [accept_current h]
      exact ⟨rfl, rfl, rfl⟩
    · rw [accept_queued h hq]
      exact ⟨rfl, rfl, rfl⟩
    · rw [accept_replaced h hq]
      refine ⟨rfl, rfl, fun before x hbefore => ?_⟩
      rw [hbefore]
      exact replaceNewest_append _ before x

end Sys2Proof.Machine
end

section
/-! SUPPORT. The requests of the Notice Unit (R189, R192 to R195). -/

namespace Sys2Proof.Machine

/-! ## FETCH_NOTICES (R195) -/

/-- A port's notices after a fetch. -/
def fetchedNotices (n : NoticeUnit) (p : Port) : PortNotices :=
  { n.port.get p with
    pendingSet := n.holdingSet p
    master := (n.port.get p).master && !(n.port.get p).oneShot }.judge

theorem exec_fetchNotices {p : Port} {s : State} (htake : Takes p 0x90 s) : exec (.fetchNotices p) s =
    .next (setReply p ⟨.ok, setBytes 3 (s.notices.port.get p).pendingSet.toNat ++
        setBytes 3 (fetchedNotices s.notices p).pendingSet.toNat ++ markByte (fetchedNotices s.notices p).master⟩
      { closeWindow p s with notices := { s.notices with
        port := s.notices.port.set p (fetchedNotices s.notices p) } }) := by
  have hget : portNotices p (fetchNotices p (closeWindow p s)) = fetchedNotices s.notices p := PerPort.get_set_self ..
  refine exec_owner htake rfl ?_
  rw [hget]
  rfl

/-- Only conditions hold on from fetch to fetch. -/
theorem NoticeUnit.holdingSet_event (n : NoticeUnit) (p : Port) {k : Nat} (h : k ∉ [2, 7, 10, 11, 14, 18]) :
    (n.holdingSet p).getLsbD k = false := by
  by_cases hk : k < 20
  · rw [← Bool.not_eq_true, n.holdingSet_bit p hk]
    rintro ⟨-, ⟨c, rfl, -⟩ | ⟨rfl, -⟩⟩
    · cases c <;> exact h (by decide)
    · exact h (by decide)
  · exact BitVec.getLsbD_of_ge _ _ (by omega)

/-! ## SET_ATTENTION and SET_NOTICE_ENABLE (R192, R193) -/

theorem setAttention_refuses {p : Port} {m o : Nat} {s : State} (htake : Takes p 0x94 s) (h : 1 < m ∨ 1 < o) :
    Refuses (.setAttention p m o) p s ⟨.range, []⟩ := by
  refine refuses_owner htake rfl ?_ rfl
  cases hm : twoValuedOf m with
  | none => rfl
  | some master => cases ho : twoValuedOf o with
    | none => rfl
    | some oneShot =>
      have hm := (twoValuedOf_isSome m).1 (by rw [hm]; rfl)
      have ho := (twoValuedOf_isSome o).1 (by rw [ho]; rfl)
      omega

theorem exec_setAttention {p : Port} {m o : Nat} {s : State} (htake : Takes p 0x94 s) (hm : m ≤ 1) (ho : o ≤ 1) :
    exec (.setAttention p m o) s = .next (setReply p
      ⟨.ok, markByte (s.notices.port.get p).master ++ markByte (s.notices.port.get p).oneShot ++
        sourcesData (s.notices.port.get p).pendingSet⟩
      (setPortNotices p { s.notices.port.get p with master := decide (m = 0), oneShot := decide (o = 0) }.judge
        (closeWindow p s))) := by
  obtain ⟨master, hm⟩ := Option.isSome_iff_exists.1 ((twoValuedOf_isSome _).2 hm)
  obtain ⟨oneShot, ho⟩ := Option.isSome_iff_exists.1 ((twoValuedOf_isSome _).2 ho)
  refine exec_owner htake rfl ?_
  rw [← twoValuedOf_some hm, ← twoValuedOf_some ho]
  simp only [hm, ho]
  rfl

/-! ## SET_ROUTE (R189) -/

theorem portCode_lt (p : Port) : portCode p < 3 := by cases p <;> decide

theorem rerouted_self (n : NoticeUnit) {source : Nat} (h : source ≤ 19) (route : BitVec 8) (q : Port) :
    (n.rerouted source (route.setWidth 3)).routed source q = route.getLsbD (portCode q) := by
  have hput : at' (put n.routes source (route.setWidth 3)) source = route.setWidth 3 :=
    at'_put_self n.routes (by omega) _
  have hrouted : (n.rerouted source (route.setWidth 3)).routed source q =
      (at' (put n.routes source (route.setWidth 3)) source).getLsbD (portCode q) := rfl
  rw [hrouted, hput, BitVec.getLsbD_setWidth, decide_eq_true (portCode_lt q), Bool.true_and]

section Rerouted

variable {n : NoticeUnit} {q : Port} {source : Nat} {route : BitVec 8} (hq : PortNoticesInv n q) (h : source ≤ 19)
include hq h

theorem setRoute_other {k : Nat} (hk : k ≠ source) :
    ((n.setRoute source (route.setWidth 3)).port.get q).pendingSet.getLsbD k =
      (n.port.get q).pendingSet.getLsbD k := by
  by_cases hlt : k < 20
  · rw [setRoute_bit hq (by omega) _ hlt, if_neg fun hc => hk hc.1]
  · rw [BitVec.getLsbD_of_ge _ _ (by omega), BitVec.getLsbD_of_ge _ _ (by omega)]

omit hq in
theorem setRoute_stays (hold : n.routed source q = true) (hnew : route.getLsbD (portCode q) = true) :
    ((n.setRoute source (route.setWidth 3)).port.get q).pendingSet = (n.port.get q).pendingSet := by
  rw [setRoute_port, rerouted_self n h, if_pos hnew, if_pos hold]

/-- A source that was not routed to the port was not pending there. -/
theorem not_pending_of_not_routed (hold : n.routed source q = false) :
    (n.port.get q).pendingSet.getLsbD source = false := by
  simpa [hold] using mt (hq.routed source (by omega))

theorem setRoute_event (hevent : source ∉ [2, 7, 10, 11, 14, 18]) (hold : n.routed source q = false) :
    ((n.setRoute source (route.setWidth 3)).port.get q).pendingSet.getLsbD source = false := by
  rw [setRoute_bit hq (by omega) _ (by omega)]
  split
  · exact NoticeUnit.holdingSet_event _ q hevent
  · exact not_pending_of_not_routed hq h hold

theorem setRoute_removed (hnew : route.getLsbD (portCode q) = false) :
    ((n.setRoute source (route.setWidth 3)).port.get q).pendingSet.getLsbD source = false := by
  have hself := rerouted_self n h route q
  rw [setRoute_bit hq (by omega) _ (by omega)]
  split
  · rw [← Bool.not_eq_true, NoticeUnit.holdingSet_bit _ q (by omega), hself, hnew]
    exact fun hc => Bool.false_ne_true hc.1
  · rename_i hsame
    rw [hself, hnew] at hsame
    exact not_pending_of_not_routed hq h (by simpa using hsame)

end Rerouted

theorem setRoute_refuses {p : Port} {source : Nat} {route : BitVec 8} {s : State} (htake : Takes p 0x95 s)
    (h : 19 < source ∨ 8 ≤ route.toNat) : Refuses (.setRoute p source route) p s ⟨.range, []⟩ := by
  refine refuses_owner htake rfl (if_neg ?_) rfl
  rw [Bool.and_eq_true, within_iff, decide_eq_true_iff]
  omega

theorem routeData_eq (r : BitVec 3) : routeData r = u8 r.toNat := by
  revert r
  decide

theorem exec_setRoute {p : Port} {source : Nat} {route : BitVec 8} {s : State} (htake : Takes p 0x95 s)
    (h : source ≤ 19) (hr : route.toNat < 8) : exec (.setRoute p source route) s =
      .next (setReply p ⟨.ok, u8 (at' s.notices.routes source).toNat⟩
        { closeWindow p s with notices := s.notices.setRoute source (route.setWidth 3) }) := by
  rw [← routeData_eq]
  refine exec_owner htake rfl (if_pos ?_)
  rw [Bool.and_eq_true, within_iff, decide_eq_true_iff]
  exact ⟨⟨Nat.zero_le _, h⟩, hr⟩

/-- Settles O53: each request sets the notices of its port or the route of its source. -/
theorem noticeRequests : Obligations.NoticeRequests := by
  intro p s
  refine ⟨fun htake => ⟨_, exec_fetchNotices htake, rfl, rfl, rfl, rfl, rfl, fun c k hk => ?_,
      s.notices.holdingSet_ready p, fun k => s.notices.holdingSet_event p⟩,
    fun htake marks => ⟨fun h => refuses_owner htake rfl (if_neg (Nat.not_lt.2 h)) rfl,
      fun h => exec_owner htake rfl (if_pos h)⟩,
    fun htake m o => ⟨setAttention_refuses htake, exec_setAttention htake⟩,
    fun htake n route => ⟨setRoute_refuses htake, fun hn hr hs => ⟨_, exec_setRoute htake hn hr, ?_⟩⟩⟩
  · rw [mem_conditionNumbers hk]
    exact s.notices.holdingSet_condition p c
  · refine ⟨?_, setRoute_noticeInv (s := closeWindow p s) hs hn (route.setWidth 3), rfl, fun c => by cases c <;> rfl,
      fun q => ?_⟩
    · intro b hb
      cases b <;> simp at hb <;> rfl
    · obtain ⟨henables, hmaster, honeShot⟩ := setRoute_settings s.notices n (route.setWidth 3) q
      exact ⟨henables, hmaster, honeShot, (setRoute_attention (hs q) n (route.setWidth 3)).1,
        fun k => setRoute_other (hs q) hn, setRoute_stays hn, setRoute_event (hs q) hn, setRoute_removed (hs q) hn⟩

end Sys2Proof.Machine
end

section
/-! SUPPORT. READ_HISTORY: the records of a ring numbered without a gap, from a cursor on (R31, R32, R36). -/

namespace Sys2Proof.Machine

/-! ## A ring numbered from a on (R30) -/

/-- The records from number c on are the ring without those before c. -/
theorem ahead_eq_drop {ring : List IntervalRecord} {a : Nat} (c : Nat)
    (h : ring.map IntervalRecord.seq = List.range' a ring.length) :
    (ring.filter fun r => decide (c ≤ r.seq)) = ring.drop (c - a) := by
  induction ring generalizing a with
  | nil => simp
  | cons r rest ih =>
    rw [List.length_cons, List.range'_succ, List.map_cons, List.cons.injEq] at h
    obtain ⟨hr, hrest⟩ := h
    have hdrop := ih hrest
    by_cases hc : c ≤ a
    · rw [List.filter_cons_of_pos (by simpa [hr] using hc), hdrop, Nat.sub_eq_zero_of_le hc,
        Nat.sub_eq_zero_of_le (by omega)]
      rfl
    · rw [List.filter_cons_of_neg (by simpa [hr] using hc), hdrop, show c - a = (c - (a + 1)) + 1 by omega]
      rfl

section Ring

variable {h : HistoryStore} {a : Nat} (hseq : h.ring.map IntervalRecord.seq = List.range' a h.ring.length)
include hseq

theorem ring_get {i : Nat} {r : IntervalRecord} (hr : h.ring[i]? = some r) : r.seq = a + i := by
  have hget := congrArg (·[i]?) hseq
  simp only [List.getElem?_map, hr, Option.map_some] at hget
  have hi : i < h.ring.length := (List.getElem?_eq_some_iff.1 hr).1
  rw [List.getElem?_range' hi] at hget
  simpa using hget

theorem oldest_eq (hne : h.ring ≠ []) : h.oldest = some a := by
  cases hring : h.ring with
  | nil => exact absurd hring hne
  | cons r rest =>
    have hr := ring_get hseq (i := 0) (r := r) (by simp [hring])
    simp [HistoryStore.oldest, hring, hr]

theorem newest_eq (hne : h.ring ≠ []) : h.newest = some (a + (h.ring.length - 1)) := by
  have hget : h.ring[h.ring.length - 1]? = some (h.ring.getLast hne) := by
    rw [← List.getLast?_eq_getElem?, List.getLast?_eq_some_getLast hne]
  rw [HistoryStore.newest, List.getLast?_eq_some_getLast hne, Option.map_some, ring_get hseq hget]

/-- The unread count of a cursor is the number of records from it on (R31). -/
theorem unread_eq (c : Nat) : h.unread c = (h.ring.filter fun r => decide (c ≤ r.seq)).length := by
  rw [ahead_eq_drop c hseq, List.length_drop]
  by_cases hne : h.ring = []
  · simp [HistoryStore.unread, HistoryStore.behind, HistoryStore.oldest, HistoryStore.newest, hne]
  · have hpos := List.length_pos_iff.2 hne
    simp only [HistoryStore.unread, HistoryStore.behind, oldest_eq hseq hne, newest_eq hseq hne, decide_eq_true_eq]
    split <;> omega

/-- A read starts at the first record from the cursor on (R32). -/
theorem caughtUp_first {c : Nat} {first : IntervalRecord} {rest : List IntervalRecord}
    (hahead : (h.ring.filter fun r => decide (c ≤ r.seq)) = first :: rest) :
    h.caughtUp c = first.seq ∧ h.gap c = min 65535 (first.seq - c) ∧
      (h.ring.filter fun r => decide (first.seq ≤ r.seq)) = first :: rest := by
  have hdrop := ahead_eq_drop c hseq
  rw [hahead] at hdrop
  have hget : h.ring[c - a]? = some first := by
    have hhead := congrArg (·[0]?) hdrop
    simpa using hhead.symm
  have hfirst := ring_get hseq hget
  have hne : h.ring ≠ [] := fun hnil => by simp [hnil] at hget
  have hsame : first.seq - a = c - a := by omega
  refine ⟨?_, ?_, by rw [ahead_eq_drop _ hseq, hsame, ← hdrop]⟩
  · simp only [HistoryStore.caughtUp, HistoryStore.behind, oldest_eq hseq hne, decide_eq_true_eq, Option.getD_some]
    split <;> omega
  · simp only [HistoryStore.gap, oldest_eq hseq hne, saturate, Nat.min_def]
    split <;> split <;> omega

/-- A cursor beyond the ring stays. -/
theorem caughtUp_beyond {c : Nat} (hahead : (h.ring.filter fun r => decide (c ≤ r.seq)) = []) :
    h.caughtUp c = c ∧ h.unread c = 0 := by
  have hzero : h.unread c = 0 := by rw [unread_eq hseq, hahead]; rfl
  refine ⟨?_, hzero⟩
  rw [HistoryStore.caughtUp]
  by_cases hbehind : h.behind c = true
  · have hall : h.ring.length = 0 := by simpa [HistoryStore.unread, hbehind] using hzero
    simp [HistoryStore.behind, HistoryStore.oldest, List.length_eq_zero_iff.1 hall] at hbehind
  · rw [if_neg hbehind]

end Ring

/-! ## READ_HISTORY (R32) -/

theorem readHistory_refuses {p : Port} {maximum advance : Nat} {s : State} (htake : Takes p 0x10 s)
    (h : maximum = 0 ∨ 4 < maximum ∨ 1 < advance) : Refuses (.readHistory p maximum advance) p s ⟨.range, []⟩ := by
  refine refuses_owner htake rfl ?_ rfl
  cases hadvance : twoValuedOf advance with
  | none => rfl
  | some yes =>
    have hle := (twoValuedOf_isSome advance).1 (by rw [hadvance]; rfl)
    exact if_pos (by rw [Bool.not_eq_true', ← Bool.not_eq_true, within_iff]; omega)

theorem exec_readHistory {p : Port} {maximum advance : Nat} {s : State} (htake : Takes p 0x10 s) (h1 : 1 ≤ maximum)
    (h4 : maximum ≤ 4) (ha : advance ≤ 1) {after : Nat} {r : Reply}
    (hafter : readCursor s.history (s.history.cursors.get p) maximum (decide (advance = 0)) = after)
    (hreply : historyReply s.history (s.history.cursors.get p) maximum after = r) :
    exec (.readHistory p maximum advance) s = .next (setReply p r (moveCursor p after (closeWindow p s))) := by
  subst hafter hreply
  obtain ⟨yes, hyes⟩ := Option.isSome_iff_exists.1 ((twoValuedOf_isSome _).2 ha)
  rw [← twoValuedOf_some hyes]
  refine exec_owner htake rfl ?_
  simp only [hyes]
  exact if_neg (by simp [within_iff.2 ⟨h1, h4⟩])

theorem moveCursor_withHistory (p : Port) (c : Nat) (s : State) :
    let h := { s.history with cursors := s.history.cursors.set p c }
    let t := moveCursor p c s
    KeepsBut [.history, .notices] s t ∧ t.history = h ∧ NoticesKeptBut [18] s t ∧
      (∀ q, q ≠ p → t.notices.port.get q = s.notices.port.get q) ∧
      (t.notices.port.get p).historyReady = decide (h.thresholds.get p ≤ h.unread (h.cursors.get p)) :=
  judgeReady_withHistory p _ s

theorem set_get_cursor (h : HistoryStore) (p : Port) : h.cursors.set p (h.cursors.get p) = h.cursors := by
  cases p <;> rfl

/-- Settles O21: the records from the cursor on are a suffix of the ring. -/
theorem readHistory : Obligations.ReadHistory := by
  intro p maximum advance s htake hs
  refine ⟨readHistory_refuses htake, fun h1 h4 ha => ?_⟩
  intro cursor ahead
  refine ⟨fun hahead => ?_, fun first rest hahead => ?_⟩
  · obtain ⟨hcaught, hunread⟩ := caughtUp_beyond hs.sequence (c := cursor) hahead
    have hafter : readCursor s.history cursor maximum (decide (advance = 0)) = cursor := by
      simp [readCursor, hcaught, hunread, HistoryStore.recordsFrom]
    have hreply : historyReply s.history cursor maximum cursor = ⟨.empty, u32 cursor ++ u32 s.history.nextSeq⟩ := by
      simp only [historyReply, hcaught, hunread, if_true]
      rfl
    obtain ⟨hkeeps, hhistory, hnotices, hother, -⟩ := moveCursor_withHistory p cursor (closeWindow p s)
    have hexec := exec_readHistory htake h1 h4 ha hafter hreply
    refine ⟨_, hexec, fun b hb => ?_, hnotices, hother⟩
    by_cases hh : b = .history
    · subst hh
      refine hhistory.trans ?_
      change { s.history with cursors := s.history.cursors.set p (s.history.cursors.get p) } = s.history
      rw [set_get_cursor]
    · exact hkeeps b (by simp_all)
  · intro records after left
    obtain ⟨hcaught, hgap, hfrom⟩ := caughtUp_first hs.sequence (c := cursor) hahead
    have hunread : s.history.unread first.seq = ahead.length := by
      rw [unread_eq hs.sequence, hfrom, hahead]
    have hrecords : s.history.recordsFrom first.seq (min maximum (s.history.unread first.seq)) = records := by
      rw [HistoryStore.recordsFrom, hfrom, hunread, ← hahead]
      simp [records, List.take_eq_take_iff]
    have hafter : readCursor s.history cursor maximum (decide (advance = 0)) = after := by
      simp only [readCursor, hcaught, hrecords, decide_eq_true_eq]
      rfl
    have hleft : s.history.unread after = left := unread_eq hs.sequence after
    have hreply : historyReply s.history cursor maximum after =
        ⟨.ok, u16 (min 65535 (first.seq - cursor)) ++ u8 records.length ++ (records.map recordData).flatten ++
          u32 after ++ u8 left⟩ := by
      have hsome : s.history.unread first.seq ≠ 0 := by rw [hunread, hahead]; exact Nat.succ_ne_zero _
      simp only [historyReply, hcaught, hsome, if_false, hgap, hrecords, hleft, counted, okReply, List.append_assoc]
    have hexec := exec_readHistory htake h1 h4 ha hafter hreply
    obtain ⟨hkeeps, hhistory, hnotices, hother, hready⟩ := moveCursor_withHistory p after (closeWindow p s)
    refine ⟨_, hexec, hkeeps, hhistory, hnotices, hother, ?_⟩
    rw [hready, ← hleft]
    simp only [PerPort.get_set_self]
    rfl

end Sys2Proof.Machine
end

section
/-! SUPPORT. The records of the pool and the meters: their ranges, when they are in use, and what is written (R60 to
R64). -/

namespace Sys2Proof.Machine

/-! ## WRITE_VERTICAL and CLEAR_VERTICAL (R61, R62) -/

/-- Whether the fields of a WRITE_VERTICAL lie in their ranges. -/
def VerticalFits (a : VerticalArgs) : Prop :=
  a.x ≤ 400000 ∧ a.method ≤ 3 ∧ 20 ≤ a.countTime ∧ a.countTime ≤ 180 ∧ a.next ≤ 64 ∧
    ((a.depthMode = 0 ∧ ∃ d, a.depth = some d ∧ d ≤ 20000) ∨ (a.depthMode = 1 ∧ a.depth = none))

theorem depthModeOf_some {n : Nat} {m : DepthMode} (h : depthModeOf n = some m) : depthModeCode m = n := by
  match n with
  | 0 | 1 => cases h; rfl
  | _ + 2 => cases h

theorem methodOf_some {n : Nat} {m : Method} (h : methodOf n = some m) : methodCode m = n := by
  match n with
  | 0 | 1 | 2 | 3 => cases h; rfl
  | _ + 4 => cases h

theorem methodOf_isSome (n : Nat) : (methodOf n).isSome = true ↔ n ≤ 3 := by
  match n with
  | 0 | 1 | 2 | 3 | _ + 4 => simp [methodOf]

theorem depthMode_fits (n : Nat) (d : Option Nat) : (∃ m, depthModeOf n = some m ∧ depthFits m d = true) ↔
    (n = 0 ∧ ∃ x, d = some x ∧ x ≤ 20000) ∨ (n = 1 ∧ d = none) := by
  match n with
  | 0 => cases d <;> simp [depthModeOf, depthFits, within]
  | 1 => cases d <;> simp [depthModeOf, depthFits]
  | _ + 2 => simp [depthModeOf]

/-- The record that a WRITE_VERTICAL in range makes. -/
theorem verticalOf_fits {a : VerticalArgs} (h : VerticalFits a) : ∃ r, verticalOf a = some r ∧ r.used = true ∧
    r.x = a.x ∧ depthModeCode r.depthMode = a.depthMode ∧ r.depth = a.depth ∧ methodCode r.method = a.method ∧
    r.countTime = a.countTime ∧ r.next = a.next := by
  obtain ⟨hx, hmethod, hlow, hhigh, hnext, hdepth⟩ := h
  obtain ⟨mode, hmode, hdepth⟩ := (depthMode_fits a.depthMode a.depth).2 hdepth
  obtain ⟨method, hmethod⟩ := Option.isSome_iff_exists.1 ((methodOf_isSome _).2 hmethod)
  simp only [verticalOf, hmode, hmethod, hdepth]
  rw [if_pos (by simp [within_iff, hx, hlow, hhigh, hnext])]
  exact ⟨_, rfl, rfl, rfl, depthModeOf_some hmode, rfl, methodOf_some hmethod, rfl, rfl⟩

theorem verticalOf_unfit {a : VerticalArgs} (h : ¬ VerticalFits a) : verticalOf a = none := by
  cases hmode : depthModeOf a.depthMode with
  | none => simp only [verticalOf, hmode]
  | some mode => cases hmethod : methodOf a.method with
    | none => simp only [verticalOf, hmode, hmethod]
    | some method =>
      simp only [verticalOf, hmode, hmethod]
      refine if_neg fun hin => h ?_
      simp only [Bool.and_eq_true, within_iff, and_assoc] at hin
      obtain ⟨-, hx, hdepth, hlow, hhigh, -, hnext⟩ := hin
      exact ⟨hx, (methodOf_isSome _).1 (by rw [hmethod]; rfl), hlow, hhigh, hnext,
        (depthMode_fits _ _).1 ⟨mode, hmode, hdepth⟩⟩

theorem poolIndex_iff {i : Nat} : poolIndexInRange i = true ↔ 1 ≤ i ∧ i ≤ 64 := within_iff

theorem writeVertical_refuses {p : Port} {i : Nat} {a : VerticalArgs} {s : State} (htake : Takes p 0x31 s)
    (h : ¬ (1 ≤ i ∧ i ≤ 64 ∧ VerticalFits a)) : Refuses (.writeVertical p i a) p s ⟨.range, []⟩ := by
  refine refuses_owner htake rfl ?_ rfl
  cases hi : poolIndexInRange i with
  | false => rfl
  | true =>
    obtain ⟨hlow, hhigh⟩ := poolIndex_iff.1 hi
    rw [verticalOf_unfit fun hfits => h ⟨hlow, hhigh, hfits⟩]
    rfl

section Written

variable {p : Port} {i : Nat} {a : VerticalArgs} {s : State} {r : VerticalRecord} (htake : Takes p 0x31 s)
  (hi : 1 ≤ i ∧ i ≤ 64) (hr : verticalOf a = some r)
include htake hi hr

theorem writeVertical_inUse (h : recordInUse s i = true) :
    Refuses (.writeVertical p i a) p s ⟨.inUse, []⟩ := by
  refine refuses_owner htake rfl ?_ rfl
  simp only [poolIndex_iff.2 hi, hr]
  exact if_pos h

theorem exec_writeVertical (h : recordInUse s i = false) : exec (.writeVertical p i a) s =
    .next (setReply p ⟨.ok, twoValued (poolRecord s i).used⟩ (setPoolRecord i r (closeWindow p s))) := by
  refine exec_owner htake rfl ?_
  simp only [poolIndex_iff.2 hi, hr]
  exact if_neg (by rw [Bool.not_eq_true]; exact h)

end Written

/-- The outcomes of a CLEAR_VERTICAL. -/
theorem clearVertical_outcomes {p : Port} {i : Nat} {s : State} (htake : Takes p 0x32 s) :
    (i = 0 ∨ 64 < i → Refuses (.clearVertical p i) p s ⟨.range, []⟩) ∧
    (1 ≤ i → i ≤ 64 → recordInUse s i = true → Refuses (.clearVertical p i) p s ⟨.inUse, []⟩) ∧
    (1 ≤ i → i ≤ 64 → recordInUse s i = false → exec (.clearVertical p i) s =
      .next (setReply p ⟨.ok, twoValued (poolRecord s i).used⟩ (setPoolRecord i {} (closeWindow p s)))) := by
  have hin (h : 1 ≤ i ∧ i ≤ 64) : ¬ (!poolIndexInRange i) = true := by simp [poolIndex_iff.2 h]
  refine ⟨fun h => refuses_owner htake rfl (if_pos ?_) rfl, fun h1 h64 huse => ?_, fun h1 h64 huse => ?_⟩
  · rw [Bool.not_eq_true', ← Bool.not_eq_true, poolIndex_iff]
    omega
  · exact refuses_owner htake rfl ((if_neg (hin ⟨h1, h64⟩)).trans (if_pos huse)) rfl
  · exact exec_owner htake rfl ((if_neg (hin ⟨h1, h64⟩)).trans
      (if_neg (by rw [Bool.not_eq_true]; exact huse)))

/-! ## Records and meters in use (R63, R64) -/

theorem recordInUse_iff (s : State) (i : Nat) : recordInUse s i = true ↔ ∃ k, s.plan.activeSlot = some k ∧
    match (slotAt s k).definition.plan with
    | .empty => False
    | .listed first count => first ≤ i ∧ i < first + count
    | .linked _ => i ∈ s.plan.fetched := by
  cases hk : s.plan.activeSlot with
  | none => simp [recordInUse, hk]
  | some k => cases hplan : (slotAt s k).definition.plan <;> simp [recordInUse, hk, hplan]

theorem meterInUse_iff (s : State) (m : Nat) : meterInUse s m = true ↔ ∃ k, k < 4 ∧
    (slotAt s k).definition.meter = m ∧ ((slotAt s k).armed = true ∨ s.plan.activeSlot = some k) := by
  simp [meterInUse]

/-- Whether the fields of a WRITE_METER lie in their ranges. -/
theorem meterFits_iff (m : Nat) (a : MeterArgs) : (within 0 3 m && meterArgsInRange a) = true ↔
    m ≤ 3 ∧ a.a ≤ 500 ∧ a.b ≤ 4000000 ∧ 1 ≤ a.pulses ∧ a.pulses ≤ 8 ∧ a.ident ≤ 65535 := by
  simp only [meterArgsInRange, Bool.and_eq_true, within_iff, Nat.zero_le, true_and, and_assoc]

theorem meter_inside {m : Nat} {a : MeterArgs}
    (h : m ≤ 3 ∧ a.a ≤ 500 ∧ a.b ≤ 4000000 ∧ 1 ≤ a.pulses ∧ a.pulses ≤ 8 ∧ a.ident ≤ 65535) :
    ¬ (!(within 0 3 m && meterArgsInRange a)) = true := by
  rw [Bool.not_eq_true', Bool.not_eq_false, meterFits_iff]
  exact h

/-- Settles O28: each request by its ranges and by what is in use. -/
theorem planRecords : Obligations.PlanRecords := by
  refine ⟨fun p i a s htake => ⟨writeVertical_refuses htake, fun hgood huse => ?_, fun hgood huse => ?_⟩,
    fun p i s htake => clearVertical_outcomes htake, fun i s => recordInUse_iff s i,
    fun p m a s htake => ⟨fun hnot => ?_, fun hgood huse => ?_, fun hgood huse => ?_⟩⟩
  · obtain ⟨h1, h64, hfits⟩ := hgood
    obtain ⟨r, hr, -⟩ := verticalOf_fits hfits
    exact writeVertical_inUse htake ⟨h1, h64⟩ hr huse
  · obtain ⟨h1, h64, hfits⟩ := hgood
    obtain ⟨r, hr, hfields⟩ := verticalOf_fits hfits
    exact ⟨r, exec_writeVertical htake ⟨h1, h64⟩ hr huse, hfields⟩
  · refine refuses_owner htake rfl (if_pos ?_) rfl
    rw [Bool.not_eq_true', ← Bool.not_eq_true, meterFits_iff]
    exact hnot
  · exact refuses_owner htake rfl ((if_neg (meter_inside hgood)).trans (if_pos ((meterInUse_iff _ m).2 huse))) rfl
  · exact exec_owner htake rfl ((if_neg (meter_inside hgood)).trans (if_neg (mt (meterInUse_iff _ m).1 huse)))

end Sys2Proof.Machine
end

section
/-! SUPPORT. DEFINE_SLOT: its frame, the ranges of its fields, its checks in order and the slot it leaves (R65, R66,
R204). -/

namespace Sys2Proof.Machine

/-! ## The fields (R65) -/

theorem runModeOf_some {n : Nat} {m : RunMode} (h : runModeOf n = some m) :
    m = if n = 0 then .traverse else .stepped := by
  match n with
  | 0 | 1 => cases h; rfl
  | _ + 2 => cases h

theorem runModeOf_isSome (n : Nat) : (runModeOf n).isSome = true ↔ n ≤ 1 := by
  match n with
  | 0 | 1 | _ + 2 => simp [runModeOf]

theorem settledSenseOf_some {n : Nat} {m : SettledSense} (h : settledSenseOf n = some m) :
    m = if n = 0 then .ignore else .level := by
  match n with
  | 0 | 1 => cases h; rfl
  | _ + 2 => cases h

theorem settledSenseOf_isSome (n : Nat) : (settledSenseOf n).isSome = true ↔ n ≤ 1 := by
  match n with
  | 0 | 1 | _ + 2 => simp [settledSenseOf]

theorem slotFields_fit (k : Nat) (a : SlotArgs) : firstFault (slotFieldsInRange k a) = none ↔
    k ≤ 3 ∧ (planOf a.plan).isSome = true ∧ a.mode ≤ 1 ∧ (passesOf a.passes).isSome = true ∧ a.meter ≤ 3 ∧
    800 ≤ a.coefficient ∧ a.coefficient ≤ 950 ∧ a.settleTime ≤ 120 ∧ a.settledSense ≤ 1 ∧
    a.pauseLimit ≤ 300 ∧ 10 ≤ a.tolerance ∧ a.tolerance ≤ 5000 ∧ 10 ≤ a.moveTimeout ∧
    a.moveTimeout ≤ 900 ∧ 60 ≤ a.homeTimeout ∧ a.homeTimeout ≤ 1800 ∧ (triggerOf a.trigger).isSome = true := by
  rw [firstFault_none_iff, slotFieldsInRange]
  simp only [List.forall_mem_cons, slotInRange, within_iff, runModeOf_isSome, settledSenseOf_isSome, Nat.zero_le,
    true_and, and_assoc]
  simp

theorem planOf_listed_isSome (f n : Nat) :
    (planOf (.listed f n)).isSome = true ↔ 1 ≤ f ∧ 3 ≤ n ∧ n ≤ 40 ∧ f + n - 1 ≤ 64 := by
  simp only [planOf]
  split
  · rename_i h
    simp only [Bool.and_eq_true, within_iff, decide_eq_true_eq] at h
    simp only [Option.isSome_some, true_iff]
    omega
  · rename_i h
    simp only [Bool.and_eq_true, within_iff, decide_eq_true_eq] at h
    simp only [Option.isSome_none, Bool.false_eq_true, false_iff]
    omega

theorem planOf_listed_some {f n : Nat} {x : Plan} (h : planOf (.listed f n) = some x) : x = .listed f n := by
  simp only [planOf] at h
  split at h
  · exact (Option.some.inj h).symm
  · cases h

theorem planOf_linked (f : Nat) : planOf (.linked f) = if 1 ≤ f ∧ f ≤ 64 then some (.linked f) else none := by
  simp only [planOf, within_iff]

theorem passesOf_number (n : Nat) : passesOf (.number n) = if 1 ≤ n ∧ n ≤ 4 then some (.number n) else none := by
  simp only [passesOf, within_iff]

/-- A trigger whose sense is coded. -/
theorem triggerSense_map (c : Nat) (f : TriggerSense → Trigger) : (triggerSenseOf c).map f =
    if c = 0 then some (f .edge) else if c = 1 then some (f .level) else none := by
  match c with
  | 0 | 1 | _ + 2 => simp [triggerSenseOf]

/-- Only an EMPTY plan is carried as EMPTY. -/
theorem planOf_empty_iff {a : PlanArg} {x : Plan} (h : planOf a = some x) : x = .empty ↔ a = .empty := by
  cases a with
  | empty => simpa [planOf] using h.symm
  | listed f n => simp [planOf_listed_some h]
  | linked f =>
    rw [planOf_linked] at h
    split at h
    · simp [← Option.some.inj h]
    · cases h
  | unknown n => cases h

/-! ## The frame (R204) -/

theorem encodeFrame_defineSlot (p : Port) (k : Nat) (a : SlotArgs) (hplan : (encPlanArg a.plan).length = 3)
    (hpasses : (encPassesArg a.passes).length = 2) (htrigger : (encTriggerArg a.trigger).length = 4) :
    encodeFrame (.defineSlot p k a) = some ([0x36, 24] ++ u8 k ++ encPlanArg a.plan ++ u8 a.mode ++
      encPassesArg a.passes ++ u8 a.meter ++ u16 a.coefficient ++ u8 a.settleTime ++ u8 a.settledSense ++
      u16 a.pauseLimit ++ u16 a.tolerance ++ u16 a.moveTimeout ++ u16 a.homeTimeout ++ encTriggerArg a.trigger) := by
  have hlength : (u8 k ++ encSlotArgs a).length = 24 := by
    simp only [encSlotArgs, List.length_append, hplan, hpasses, htrigger, u8_length, u16_length]
  have hframe : encodeFrame (.defineSlot p k a) =
      some (u8 0x36 ++ u8 (u8 k ++ encSlotArgs a).length ++ (u8 k ++ encSlotArgs a)) := rfl
  rw [hframe, hlength, encSlotArgs]
  simp only [List.append_assoc]
  rfl

/-! ## The checks (R66) -/

/-- No line has the function. -/
theorem lineMissing_iff (s : State) (fn : LineFunction) : (s.lines.find? fn).isNone = true ↔
    ∀ i, i < 16 → (lineAt s i).function ≠ fn := by
  simp [FieldLines.find?, lineAt]

theorem settledLineMissing_iff (s : State) (d : SlotDefinition) : settledLineMissing s d = true ↔
    d.settledSense = .level ∧ ∀ i, i < 16 → (lineAt s i).function ≠ .settledIn := by
  rw [settledLineMissing, Bool.and_eq_true, beq_iff_eq, lineMissing_iff]

theorem meterEmpty_iff (s : State) (m : Nat) : meterEmpty s m = true ↔ (at' s.plan.meters m).b = 0 := beq_iff_eq

/-- Checks 2 to 4 of a DEFINE_SLOT in their order. -/
theorem defineRefusal_eq (s : State) (k : Nat) (d : SlotDefinition) :
    let missing := ∀ i, i < 16 → (lineAt s i).function ≠ .settledIn
    (s.plan.activeSlot = some k → defineRefusal s k d = some ⟨.inUse, []⟩) ∧
    (s.plan.activeSlot ≠ some k → d.plan ≠ .empty → (at' s.plan.meters d.meter).b = 0 →
      defineRefusal s k d = some ⟨.range, u8 4⟩) ∧
    (s.plan.activeSlot ≠ some k → d.plan ≠ .empty → (at' s.plan.meters d.meter).b ≠ 0 → d.settledSense = .level →
      missing → defineRefusal s k d = some ⟨.range, u8 7⟩) ∧
    (s.plan.activeSlot ≠ some k →
      d.plan = .empty ∨ ((at' s.plan.meters d.meter).b ≠ 0 ∧ ¬ (d.settledSense = .level ∧ missing)) →
      defineRefusal s k d = none) := by
  intro missing
  simp only [defineRefusal, meterEmpty_iff, settledLineMissing_iff]
  refine ⟨fun h => if_pos h, fun h hp hb => (if_neg h).trans (if_pos ⟨hp, hb⟩), fun h hp hb hs hl =>
    (if_neg h).trans ((if_neg fun hc => hb hc.2).trans (if_pos ⟨hp, hs, hl⟩)), fun h hready => ?_⟩
  have hfit : ¬ (d.plan ≠ .empty ∧ (at' s.plan.meters d.meter).b = 0) := fun hc =>
    hready.elim (fun hp => hc.1 hp) fun hr => hr.1 hc.2
  have hseen : ¬ (d.plan ≠ .empty ∧ d.settledSense = .level ∧ missing) := fun hc =>
    hready.elim (fun hp => hc.1 hp) fun hr => hr.2 hc.2
  exact (if_neg h).trans ((if_neg hfit).trans (if_neg hseen))

/-- The definition carried by fields in their ranges. -/
theorem definitionOf_fits {k : Nat} {a : SlotArgs} (h : firstFault (slotFieldsInRange k a) = none) :
    ∃ d, definitionOf a = some d ∧ d.meter = a.meter ∧ d.coefficient = a.coefficient ∧ d.settleTime = a.settleTime ∧
      d.pauseLimit = a.pauseLimit ∧ d.tolerance = a.tolerance ∧ d.moveTimeout = a.moveTimeout ∧
      d.homeTimeout = a.homeTimeout ∧ planOf a.plan = some d.plan ∧
      d.mode = (if a.mode = 0 then .traverse else .stepped) ∧
      d.settledSense = (if a.settledSense = 0 then .ignore else .level) ∧
      passesOf a.passes = some d.passes ∧ triggerOf a.trigger = some d.trigger := by
  obtain ⟨-, hplan, hmode, hpasses, -, -, -, -, hsense, -, -, -, -, -, -, -, htrigger⟩ := (slotFields_fit k a).1 h
  obtain ⟨plan, hplan⟩ := Option.isSome_iff_exists.1 hplan
  obtain ⟨mode, hmode⟩ := Option.isSome_iff_exists.1 ((runModeOf_isSome _).2 hmode)
  obtain ⟨passes, hpasses⟩ := Option.isSome_iff_exists.1 hpasses
  obtain ⟨sense, hsense⟩ := Option.isSome_iff_exists.1 ((settledSenseOf_isSome _).2 hsense)
  obtain ⟨trigger, htrigger⟩ := Option.isSome_iff_exists.1 htrigger
  simp only [definitionOf, hplan, hmode, hpasses, hsense, htrigger]
  exact ⟨_, rfl, rfl, rfl, rfl, rfl, rfl, rfl, rfl, rfl, runModeOf_some hmode, settledSenseOf_some hsense, rfl, rfl⟩

/-- A definition in range, refused or taken as its checks say. -/
theorem defineSlot_checked {p : Port} {k : Nat} {a : SlotArgs} {s : State} {d : SlotDefinition}
    (htake : Takes p 0x36 s) (h : firstFault (slotFieldsInRange k a) = none) (hd : definitionOf a = some d) :
    (∀ r, defineRefusal s k d = some r → r.status.isRefusal = true → Refuses (.defineSlot p k a) p s r) ∧
      (defineRefusal s k d = none → exec (.defineSlot p k a) s = .next (setReply p
        ⟨.ok, twoValued (slotAt s k).armed⟩ { closeWindow p s with
          plan := s.plan.withSlot k ⟨d, false, false, .stopped⟩ })) := by
  refine ⟨fun r hr hrefuse => refuses_owner htake rfl ?_ hrefuse, fun hr => exec_owner htake rfl ?_⟩
  · have hrefusal : defineRefusal (closeWindow p s) k d = some r := hr
    simp only [h, hd, hrefusal]
  · have hrefusal : defineRefusal (closeWindow p s) k d = none := hr
    simp only [h, hd, hrefusal]
    rfl

theorem defineSlot_refuses {p : Port} {k f : Nat} {a : SlotArgs} {s : State} (htake : Takes p 0x36 s)
    (h : firstFault (slotFieldsInRange k a) = some f) : Refuses (.defineSlot p k a) p s ⟨.range, u8 f⟩ := by
  refine refuses_owner htake rfl ?_ rfl
  simp only [h]
  rfl

/-- Settles O29: the fields by their ranges, the frame by its parts, and the checks in order. -/
theorem slotDefinitions : Obligations.SlotDefinitions := by
  refine ⟨slotFields_fit, planOf_listed_isSome, fun p k a plan passes trigger hplan hpasses htrigger => ?_,
    ⟨rfl, fun n => rfl, fun f n x => planOf_listed_some, planOf_linked, passesOf_number, rfl, fun n => rfl⟩,
    ⟨rfl, fun n => rfl, fun h c => ?_, fun l c => ?_, fun h => ?_, fun c => ?_⟩,
    fun p k a s htake => ⟨fun f => defineSlot_refuses htake, fun hfits => ?_⟩⟩
  · have hplan : plan = encPlanArg a.plan ∧ plan.length = 3 := by
      obtain ⟨ha, rfl⟩ | ⟨f, n, ha, rfl⟩ | ⟨f, ha, rfl⟩ := hplan <;> rw [ha] <;> exact ⟨rfl, rfl⟩
    have hpasses : passes = encPassesArg a.passes ∧ passes.length = 2 := by
      obtain ⟨n, ha, rfl⟩ | ⟨ha, rfl⟩ := hpasses <;> rw [ha] <;> exact ⟨rfl, rfl⟩
    have htrigger : trigger = encTriggerArg a.trigger ∧ trigger.length = 4 := by
      obtain ⟨ha, rfl⟩ | ⟨h, sense, ha, rfl⟩ | ⟨l, sense, ha, rfl⟩ | ⟨h, ha, rfl⟩ | ⟨c, ha, rfl⟩ := htrigger <;>
        rw [ha] <;> exact ⟨rfl, rfl⟩
    obtain ⟨rfl, hplan⟩ := hplan
    obtain ⟨rfl, hpasses⟩ := hpasses
    obtain ⟨rfl, htrigger⟩ := htrigger
    exact encodeFrame_defineSlot p k a hplan hpasses htrigger
  · simp only [triggerOf, stageInRange_iff, triggerSense_map]
  · simp only [triggerOf, within_iff, triggerSense_map]
  · simp only [triggerOf, within_iff]
  · simp only [triggerOf, within_iff, Nat.zero_le, true_and]
  · obtain ⟨d, hd, hmeter, hcoefficient, hsettle, hpause, htolerance, hmove, hhome, hplan, hmode, hsense, hpasses,
      htrigger⟩ := definitionOf_fits hfits
    obtain ⟨hrefuses, htakes⟩ := defineSlot_checked (p := p) (k := k) htake hfits hd
    obtain ⟨hactive, hempty, hmissing, hnone⟩ := defineRefusal_eq s k d
    have hlevel : a.settledSense = 0 ∨ a.settledSense = 1 := by
      obtain ⟨-, -, -, -, -, -, -, -, hle, -⟩ := (slotFields_fit k a).1 hfits
      omega
    have hlevel_iff : d.settledSense = .level ↔ a.settledSense = 1 := by
      rw [hsense]
      obtain h | h := hlevel <;> simp [h]
    simp only [ne_eq, planOf_empty_iff hplan, hmeter, hlevel_iff] at hempty hmissing hnone
    refine ⟨fun h => hrefuses _ (hactive h) rfl, fun h hp hb => hrefuses _ (hempty h hp hb) rfl,
      fun h hp hb hs hl => hrefuses _ (hmissing h hp hb hs hl) rfl, fun h hready => ⟨d, hd, htakes (hnone h ?_), hmeter,
      hcoefficient, hsettle, hpause, htolerance, hmove, hhome, hplan, hmode, hsense, hpasses, htrigger⟩⟩
    obtain hp | ⟨hb, hzero | hl⟩ := hready
    · exact .inl hp
    · exact .inr ⟨hb, fun hs => absurd (hzero.symm.trans hs.1) (by decide)⟩
    · exact .inr ⟨hb, fun hs => hl hs.2⟩

end Sys2Proof.Machine
end

section
/-! SUPPORT. SET_WARNING_OUTPUT, the override requests and SILENCE: each replaces a setting and forms the outputs again
(R151 to R154). -/

namespace Sys2Proof.Machine

/-! ## Outputs formed again (R153, R182) -/

/-- What a request that forms the outputs again leaves. -/
structure OutputsFollow (sources : List Nat) (p : Port) (s t : State) : Prop where
  keeps : KeepsBut [.warning, .lines, .notices] (closeWindow p s) t
  formed : OutputsFormed t
  lines : LinesFollow s t
  notices : NoticesKeptBut sources s t
  permit : t.lines.permit = s.lines.permit

theorem formOutputs_outputsFollow {own : List Nat} {p : Port} {s x : State}
    (hx : KeepsBut [.warning, .notices] (closeWindow p s) x) (hn : Notified own s x) :
    OutputsFollow (17 :: own) p s (formOutputs x) := by
  obtain ⟨hstep, hnotified⟩ := formOutputs_driven x
  have hlines : s.lines = x.lines := (hx .lines (by decide)).symm
  have hfollows : DrivenStep s (formOutputs x) := hstep.congr (l := []) hlines rfl (.refl _ _)
  have hsources : ∀ k, k ∈ [17] → k ∈ 17 :: own := by simp
  exact ⟨(hx.mono (by decide)).trans ((formOutputs_keeps x).mono (by decide)), formOutputs_formed x, hfollows.follows,
    ((hn.mono fun k hk => List.mem_cons_of_mem _ hk).trans (hnotified.mono hsources)).kept, hfollows.1⟩

/-- The settings of an output after the outputs are formed again. -/
theorem formOutputs_output (s : State) {k : Nat} (hk : k < 4) :
    let o := at' (formOutputs s).warning.outputs k
    o.override = (at' s.warning.outputs k).override ∧ o.showLevel = (at' s.warning.outputs k).showLevel ∧
      o.kind = (at' s.warning.outputs k).kind := by
  rw [formOutputs_warning]
  exact formed_settings _ _ _ hk

theorem withWarning_prepared {p : Port} {s : State} (w : WarningUnit) :
    KeepsBut [.warning, .notices] (closeWindow p s) { closeWindow p s with warning := w } :=
  (withWarning_keeps w _).mono (by decide)

/-! ## SET_WARNING_OUTPUT (R151) -/

theorem outputKindOf_some {n : Nat} {k : OutputKind} (h : outputKindOf n = some k) : outputKindCode k = n := by
  match n with
  | 0 | 1 => cases h; rfl
  | _ + 2 => cases h

theorem outputKindOf_isSome (n : Nat) : (outputKindOf n).isSome = true ↔ n ≤ 1 := by
  match n with
  | 0 | 1 | _ + 2 => simp [outputKindOf]

theorem setWarningOutput_refuses {p : Port} {k l c : Nat} {s : State} (htake : Takes p 0x63 s)
    (h : 3 < k ∨ l = 0 ∨ 3 < l ∨ 1 < c) : Refuses (.setWarningOutput p k l c) p s ⟨.range, []⟩ := by
  refine refuses_owner htake rfl ?_ rfl
  cases hc : outputKindOf c with
  | none => rfl
  | some kind =>
    have hle := (outputKindOf_isSome c).1 (by rw [hc]; rfl)
    exact if_neg (by rw [Bool.and_eq_true, within_iff, within_iff]; omega)

theorem exec_setWarningOutput {p : Port} {k l c : Nat} {kind : OutputKind} {s : State} (htake : Takes p 0x63 s)
    (hk : k ≤ 3) (hl : 1 ≤ l ∧ l ≤ 3) (hc : outputKindOf c = some kind) :
    exec (.setWarningOutput p k l c) s = .next (setReply p
      ⟨.ok, u8 (at' s.warning.outputs k).showLevel ++ u8 (outputKindCode (at' s.warning.outputs k).kind)⟩
      (formOutputs (setOutput k { at' s.warning.outputs k with showLevel := l, kind := kind } (closeWindow p s)))) := by
  refine exec_owner htake rfl ?_
  simp only [hc]
  exact if_pos (by rw [Bool.and_eq_true, within_iff, within_iff]; exact ⟨⟨Nat.zero_le _, hk⟩, hl⟩)

theorem warningOutput_set {p : Port} {s : State} {k l c : Nat} (htake : Takes p 0x63 s) (hk : k ≤ 3) (hl : 1 ≤ l)
    (hl' : l ≤ 3) (hc : c ≤ 1) :
    let old := at' s.warning.outputs k
    ∃ t, exec (.setWarningOutput p k l c) s =
        .next (setReply p ⟨.ok, u8 old.showLevel ++ u8 (outputKindCode old.kind)⟩ t) ∧
      OutputsFollow [17] p s t ∧ { t.warning with outputs := s.warning.outputs } = s.warning ∧
      (at' t.warning.outputs k).showLevel = l ∧ outputKindCode (at' t.warning.outputs k).kind = c ∧
      ∀ j, j ≤ 3 → (at' t.warning.outputs j).override = (at' s.warning.outputs j).override ∧
        (j ≠ k → (at' t.warning.outputs j).showLevel = (at' s.warning.outputs j).showLevel ∧
          (at' t.warning.outputs j).kind = (at' s.warning.outputs j).kind) := by
  obtain ⟨kind, hkind⟩ := Option.isSome_iff_exists.1 ((outputKindOf_isSome _).2 hc)
  let x := setOutput k { at' s.warning.outputs k with showLevel := l, kind := kind } (closeWindow p s)
  have hself : at' x.warning.outputs k = { at' s.warning.outputs k with showLevel := l, kind := kind } :=
    at'_put_self _ (by omega) _
  obtain ⟨hoverride, hlevel, hkept⟩ := formOutputs_output x (k := k) (by omega)
  rw [hself] at hoverride hlevel hkept
  refine ⟨_, exec_setWarningOutput htake hk ⟨hl, hl'⟩ hkind,
    formOutputs_outputsFollow (own := []) (withWarning_prepared _) (.of_eq rfl), ?_, hlevel,
    (congrArg outputKindCode hkept).trans (outputKindOf_some hkind), fun j hj => ?_⟩
  · rw [formOutputs_warning]
    rfl
  · obtain ⟨hoverride', hlevel', hkept'⟩ := formOutputs_output x (k := j) (by omega)
    by_cases hjk : j = k
    · subst hjk
      exact ⟨hoverride, fun hne => absurd rfl hne⟩
    · have hother : at' x.warning.outputs j = at' s.warning.outputs j := at'_put_other _ hjk _
      rw [hother] at hoverride' hlevel' hkept'
      exact ⟨hoverride', fun _ => ⟨hlevel', hkept'⟩⟩

/-! ## The override requests (R152) -/

theorem setOverrides_output (v : Override) (mask : BitVec 8) (s : State) {k : Nat} (hk : k < 4) :
    at' (setOverrides v mask s).warning.outputs k =
      if mask.getLsbD k = true then { at' s.warning.outputs k with override := v } else at' s.warning.outputs k := by
  rw [at'_eq _ hk, at'_eq _ hk]
  simp [setOverrides]

theorem override_set {p : Port} {s : State} {i : Instr} {code : Nat} {v : Override} {mask : BitVec 8}
    (htake : Takes p code s) (hexec : ∀ s, exec i s = .next (overrideRequest code v p mask s))
    (hmask : mask.toNat ≤ 15) :
    ∃ t, exec i s = .next (setReply p
        ⟨.ok, (s.warning.outputs.toList.map fun o => u8 (overrideCode o.override)).flatten⟩ t) ∧
      OutputsFollow [17] p s t ∧ { t.warning with outputs := s.warning.outputs } = s.warning ∧
      ∀ k, k ≤ 3 → (at' t.warning.outputs k).override =
          (if mask.getLsbD k = true then v else (at' s.warning.outputs k).override) ∧
        (at' t.warning.outputs k).showLevel = (at' s.warning.outputs k).showLevel ∧
        (at' t.warning.outputs k).kind = (at' s.warning.outputs k).kind := by
  refine ⟨_, exec_owner htake (hexec s) (if_neg (Nat.not_lt.2 hmask)),
    formOutputs_outputsFollow (own := []) (withWarning_prepared _) (.of_eq rfl), ?_, fun k hk => ?_⟩
  · rw [formOutputs_warning]
    rfl
  · obtain ⟨hoverride, hlevel, hkept⟩ := formOutputs_output (setOverrides v mask (closeWindow p s)) (k := k) (by omega)
    rw [setOverrides_output v mask _ (by omega)] at hoverride hlevel hkept
    refine ⟨hoverride.trans ?_, hlevel.trans ?_, hkept.trans ?_⟩ <;> split <;> rfl

theorem override_refuses {p : Port} {s : State} {i : Instr} {code : Nat} {v : Override} {mask : BitVec 8}
    (htake : Takes p code s) (hexec : ∀ s, exec i s = .next (overrideRequest code v p mask s))
    (hmask : 15 < mask.toNat) :
    Refuses i p s ⟨.range, []⟩ := refuses_owner htake (hexec s) (if_pos hmask) rfl

/-! ## SILENCE (R154) -/

theorem silence_taken {p : Port} {s : State} (htake : Takes p 0x67 s) (h : 1 ≤ s.warning.level) :
    ∃ t, exec (.silence p) s = .next (setReply p
        ⟨.ok, u8 s.warning.level ++ markByte s.warning.silence ++ markByte true⟩ t) ∧
      OutputsFollow [17, 19] p s t ∧ t.warning.silence = true ∧ t.warning.level = s.warning.level ∧
      PendingWhereRouted 19 t ∧
      { t.warning with silence := s.warning.silence, outputs := s.warning.outputs } = s.warning ∧
      OutputSettingsKept s.warning t := by
  let x := raise .silenced { closeWindow p s with warning := { s.warning with silence := true } }
  have htaken : takeSilence (closeWindow p s) = formOutputs x := if_neg (Nat.ne_of_gt h)
  have hwarning := formOutputs_warning x
  have hnotified : Notified [19] s x :=
    (raise_notified .silenced { closeWindow p s with warning := { s.warning with silence := true } }).congr rfl rfl
  have hkeeps : KeepsBut [.warning, .notices] (closeWindow p s) x :=
    (withWarning_prepared { s.warning with silence := true }).trans ((raise_keeps .silenced _).mono (by decide))
  refine ⟨formOutputs x, exec_owner htake rfl ?_, formOutputs_outputsFollow hkeeps hnotified, ?_, ?_, ?_, ?_,
    fun k hk => formOutputs_output x hk⟩
  · simp only [htaken, hwarning]
    rfl
  · rw [hwarning]
    rfl
  · rw [hwarning]
    rfl
  · exact (formOutputs_driven x).2.pending (by decide) (by decide) (raise_pendingWhereRouted .silenced _)
  · rw [hwarning]
    rfl

/-- Settles O47: each request sets a setting and forms the outputs again. -/
theorem warningOutputs : Obligations.WarningOutputs := by
  intro p s
  refine ⟨fun htake k l c => ⟨setWarningOutput_refuses htake, fun hk hl hl' hc => ?_⟩, fun mask i code v hi htake => ?_,
    fun htake => ⟨fun h => exec_owner htake rfl ?_, fun h => ?_⟩⟩
  · obtain ⟨t, hexec, ⟨hkeeps, hformed, hlines, hnotices, hpermit⟩, hset⟩ := warningOutput_set htake hk hl hl' hc
    exact ⟨t, hexec, hkeeps, hformed, hlines, hnotices, hpermit, hset⟩
  · have hexec : ∀ s, exec i s = .next (overrideRequest code v p mask s) := by
      simp only [List.mem_cons, Prod.mk.injEq, List.not_mem_nil, or_false] at hi
      obtain ⟨rfl, rfl, rfl⟩ | ⟨rfl, rfl, rfl⟩ | ⟨rfl, rfl, rfl⟩ := hi <;> exact fun _ => rfl
    refine ⟨override_refuses htake hexec, fun hmask => ?_⟩
    obtain ⟨t, hexec, ⟨hkeeps, hformed, hlines, hnotices, hpermit⟩, hset⟩ := override_set htake hexec hmask
    exact ⟨t, hexec, hkeeps, hformed, hlines, hnotices, hpermit, hset⟩
  · have hcalm : takeSilence (closeWindow p s) = closeWindow p s := if_pos h
    have hlevel : (closeWindow p s).warning.level = 0 := h
    simp only [hcalm, hlevel]
    rfl
  · obtain ⟨t, hexec, ⟨hkeeps, hformed, hlines, hnotices, hpermit⟩, hset⟩ := silence_taken htake h
    exact ⟨t, hexec, hkeeps, hformed, hlines, hnotices, hpermit, hset⟩

end Sys2Proof.Machine
end

section
/-! SUPPORT. The requests that arm, request and clear slots, and the takes that they attempt (R71, R73 to R77, R80). -/

namespace Sys2Proof.Machine

/-! ## A take attempt (R76, R77) -/

theorem takeAttempt_attempted (u : State) : TakeAttempted u (takeAttempt u) := by
  refine ⟨takeAttempt_none, fun hidle hready j hj => ?_⟩
  rw [takeAttempt_taken hidle hready hj]
  exact ⟨takeSlot_taken j u, (takeSlot_moved j u).step.follows, (takeSlot_moved j u).notified.kept⟩

/-- A take attempt changes at most the flag of a slot. -/
theorem takeAttempt_slot (u : State) {k : Nat} (hk : k < 4) :
    (slotAt (takeAttempt u) k).armed = (slotAt u k).armed ∧ (slotAt (takeAttempt u) k).timer = (slotAt u k).timer := by
  obtain ⟨-, -, j, -, h⟩ | ⟨-, h⟩ := takeAttempt_spec u <;> rw [h]
  · have htaken := takeSlot_taken j u
    by_cases hkj : k = j
    · subst hkj
      rw [htaken.slotAt_self hk]
      exact ⟨rfl, rfl⟩
    · rw [htaken.slotAt_other hkj]
      exact ⟨rfl, rfl⟩
  · exact ⟨rfl, rfl⟩

theorem updateSlot_slot (f : Slot → Slot) (s : State) {k : Nat} (hk : k < 4) :
    slotAt (updateSlot k f s) k = f (slotAt s k) := at'_put_self _ hk _

theorem slotInRange_iff {k : Nat} : slotInRange k = true ↔ k ≤ 3 := by simp [slotInRange, within_iff]

/-! ## ARM_SLOT (R74) -/

theorem armSlot_refuses_range {p : Port} {k : Nat} {s : State} (htake : Takes p 0x37 s) (h : 3 < k) :
    Refuses (.armSlot p k) p s ⟨.range, []⟩ := by
  refine refuses_owner htake rfl (if_pos ?_) rfl
  rw [Bool.not_eq_true', ← Bool.not_eq_true, slotInRange_iff]
  omega

theorem armRefusal_eq (s : State) (d : SlotDefinition) :
    let unfit := (at' s.plan.meters d.meter).b = 0 ∨
      (d.settledSense = .level ∧ ∀ i, i < 16 → (lineAt s i).function ≠ .settledIn)
    (d.plan = .empty → armRefusal s d = some ⟨.state, []⟩) ∧
      (d.plan ≠ .empty → unfit → armRefusal s d = some ⟨.range, []⟩) ∧
      (d.plan ≠ .empty → ¬ unfit → armRefusal s d = none) := by
  intro unfit
  have hunfit : (meterEmpty s d.meter || settledLineMissing s d) = true ↔ unfit := by
    rw [Bool.or_eq_true, meterEmpty_iff, settledLineMissing_iff]
  exact ⟨fun h => if_pos h, fun h hu => (if_neg h).trans (if_pos (hunfit.2 hu)),
    fun h hu => (if_neg h).trans (if_neg (mt hunfit.1 hu))⟩

/-- An ARM_SLOT in range, refused or taken as its checks say. -/
theorem armSlot_checked {p : Port} {k : Nat} {s : State} (htake : Takes p 0x37 s) (hk : k ≤ 3) :
    (∀ r, armRefusal s (slotAt s k).definition = some r → r.status.isRefusal = true → Refuses (.armSlot p k) p s r) ∧
      (armRefusal s (slotAt s k).definition = none → exec (.armSlot p k) s = .next (setReply p ⟨.ok, []⟩
        (if (slotAt s k).armed = true then closeWindow p s else armSlot k (closeWindow p s)))) := by
  have hin : ¬ (!slotInRange k) = true := by simp [slotInRange_iff.2 hk]
  refine ⟨fun r hr hrefuse => refuses_owner htake rfl ((if_neg hin).trans ?_) hrefuse,
    fun hr => exec_owner htake rfl ((if_neg hin).trans ?_)⟩
  · have hrefusal : armRefusal (closeWindow p s) (slotAt (closeWindow p s) k).definition = some r := hr
    rw [hrefusal]
  · have hrefusal : armRefusal (closeWindow p s) (slotAt (closeWindow p s) k).definition = none := hr
    rw [hrefusal]
    rfl

/-- A slot as an ARM_SLOT leaves it. -/
def slotArmed (s : State) (x : Slot) : Slot :=
  { x with armed := true, request := armedFlag s x, timer := intervalTimer s x.definition }

theorem armSlot_eq (k : Nat) (s : State) : armSlot k s = takeAttempt (updateSlot k (slotArmed s) s) := rfl

theorem armedFlag_edge {s : State} {x : Slot} (h : x.definition.trigger.isLevel = false) :
    armedFlag s x = x.request := by
  unfold armedFlag
  split <;> simp_all [Trigger.isLevel]

theorem intervalTimer_none {s : State} {d : SlotDefinition} (h : ∀ n, d.trigger ≠ .interval n) :
    intervalTimer s d = .stopped := by
  unfold intervalTimer
  split
  · exact absurd ‹_› (h _)
  · rfl

theorem intervalTimer_interval {s : State} {d : SlotDefinition} {h : Nat} (ht : d.trigger = .interval h) :
    intervalTimer s d = .running (nowMs s + h * 3600000) := by
  simp only [intervalTimer, intervalPeriod, ht]
  rfl

/-- What an ARM_SLOT makes of a slot, by its trigger (R71, R74). -/
theorem slotArmed_fields (s : State) (x : Slot) :
    let y := slotArmed s x
    let d := x.definition
    (∀ h, d.trigger = .interval h → y.timer = .running (nowMs s + h * 3600000)) ∧
      (∀ h z, d.trigger = .stageRise h .level → s.stage.stilled = some z → (y.request = true ↔ h ≤ z)) ∧
      (∀ h, d.trigger = .stageRise h .level → s.stage.stilled = none → y.request = false) ∧
      (∀ l, d.trigger = .warningLevel l .level → (y.request = true ↔ l ≤ s.warning.level)) ∧
      (d.trigger.isLevel = false → y.request = x.request) ∧
      ((∀ h, d.trigger ≠ .interval h) → y.timer = .stopped) := by
  refine ⟨fun h => intervalTimer_interval, fun h z ht hz => ?_, fun h ht hz => ?_, fun l ht => ?_, armedFlag_edge,
    intervalTimer_none⟩
  · simp [slotArmed, armedFlag, ht, hz]
  · simp [slotArmed, armedFlag, ht, hz]
  · simp [slotArmed, armedFlag, ht]

/-- Settles O30: the checks in order, and the arming followed by a take attempt. -/
theorem armSlotTaken : Obligations.ArmSlot := by
  intro p k s htake
  obtain ⟨hempty, hunfit, hfit⟩ := armRefusal_eq s (slotAt s k).definition
  refine ⟨armSlot_refuses_range htake, fun hk hp => (armSlot_checked htake hk).1 _ (hempty hp) rfl,
    fun hk hp hu => (armSlot_checked htake hk).1 _ (hunfit hp hu) rfl, fun hk hp hu harmed => ?_,
    fun hk hp hu harmed => ?_⟩
  · exact ((armSlot_checked htake hk).2 (hfit hp hu)).trans (by rw [if_pos harmed])
  · have hexec := (armSlot_checked htake hk).2 (hfit hp hu)
    rw [if_neg (by rw [harmed]; exact Bool.false_ne_true)] at hexec
    obtain ⟨hinterval, hrise, hlost, hlevel, hedge, hstopped⟩ := slotArmed_fields s (slotAt s k)
    obtain ⟨harm, htimer⟩ := takeAttempt_slot (updateSlot k (slotArmed (closeWindow p s)) (closeWindow p s)) (k := k)
      (by omega)
    rw [updateSlot_slot _ _ (by omega)] at harm htimer
    exact ⟨_, slotArmed s (slotAt s k), hexec,
      ((updateSlot_keeps k _ (closeWindow p s)).mono (by decide)).trans (takeAttempt_keeps _), rfl, rfl, hinterval,
      hrise, hlost, hlevel, hedge, hstopped, harm, htimer, takeAttempt_attempted _⟩

/-! ## START_RUN (R73) -/

/-- Slots ask after a START_RUN as before it, and its own slot asks besides. -/
theorem slotAsks_setRequest {s : State} {k : Nat} (hk : k ≤ 3) (harmed : (slotAt s k).armed = true) :
    slotAsks (setRequest k s) = fun i => i == k || slotAsks s i := by
  funext i
  by_cases hi : i = k
  · subst hi
    have hslot : slotAt (setRequest i s) i = { slotAt s i with request := true } := updateSlot_slot _ _ (by omega)
    simp [slotAsks, hslot, harmed]
  · have hslot : slotAt (setRequest k s) i = slotAt s i := at'_put_other _ hi _
    simp [slotAsks, hslot, hi]

theorem startRun_refuses {p : Port} {k : Nat} {s : State} (htake : Takes p 0x39 s) :
    (3 < k → Refuses (.startRun p k) p s ⟨.range, []⟩) ∧
      (k ≤ 3 → (slotAt s k).armed = false → Refuses (.startRun p k) p s ⟨.state, []⟩) := by
  refine ⟨fun hk => refuses_owner htake rfl (if_pos ?_) rfl, fun hk harmed =>
    refuses_owner htake rfl ((if_neg ?_).trans (if_neg ?_)) rfl⟩
  · rw [Bool.not_eq_true', ← Bool.not_eq_true, slotInRange_iff]
    omega
  · simp [slotInRange_iff.2 hk]
  · rw [Bool.not_eq_true]
    exact harmed

theorem exec_startRun {p : Port} {k : Nat} {s : State} (htake : Takes p 0x39 s) (hk : k ≤ 3)
    (harmed : (slotAt s k).armed = true) : exec (.startRun p k) s =
      .next (setReply p (okReply (startOutcome (setRequest k (closeWindow p s)) k))
        (takeAttempt (setRequest k (closeWindow p s)))) :=
  exec_owner htake rfl ((if_neg (by simp [slotInRange_iff.2 hk])).trans (if_pos harmed))

/-- The rows of R76 but the last as the bits of a number. -/
theorem maskNat_rows (a b c d : Bool) : maskNat [a, b, c, d, false] < 16 ∧
    (maskNat [a, b, c, d, false]).testBit 0 = a ∧ (maskNat [a, b, c, d, false]).testBit 1 = b ∧
    (maskNat [a, b, c, d, false]).testBit 2 = c ∧ (maskNat [a, b, c, d, false]).testBit 3 = d := by
  revert a b c d
  decide

theorem lineMissing_not (s : State) (fn : LineFunction) :
    (s.lines.find? fn).isSome = true ↔ ∃ i, i < 16 ∧ (lineAt s i).function = fn := by
  rw [← Bool.not_eq_false, Option.isSome_eq_false_iff, lineMissing_iff]
  simp

theorem status_current_iff (x : StageStatus) : x.current = true ↔ x ≠ .starting ∧ x ≠ .lost := by
  cases x <;> decide

/-- The conditions of R76 that a state with a slot that asks does not meet. -/
theorem unmet_rows {s : State} (hasks : (List.range 4).any (slotAsks s) = true) :
    let unmet := maskNat ((takeConditions s).map (!·))
    unmet < 16 ∧ (unmet.testBit 0 = true ↔ s.engine.state ≠ .idle) ∧
      (unmet.testBit 1 = true ↔ s.warning.retreat = true) ∧
      (unmet.testBit 2 = true ↔ s.stage.stilled = none ∨ s.stage.status = .starting ∨ s.stage.status = .lost) ∧
      (unmet.testBit 3 = true ↔ ¬ ((∃ i, i < 16 ∧ (lineAt s i).function = .meterIn) ∧
        ∃ i, i < 16 ∧ (lineAt s i).function = .permitOut)) := by
  simp only [takeConditions, hasks, List.map_cons, List.map_nil, Bool.not_true]
  obtain ⟨hlt, h0, h1, h2, h3⟩ := maskNat_rows (!(s.engine.state == .idle)) (!!s.warning.retreat)
    (!(s.stage.stilled.isSome && s.stage.status.current))
    (!((s.lines.find? .meterIn).isSome && (s.lines.find? .permitOut).isSome))
  refine ⟨hlt, by rw [h0]; simp, by rw [h1]; simp, ?_, ?_⟩
  · rw [h2, Bool.not_eq_true', ← Bool.not_eq_true, Bool.and_eq_true, status_current_iff]
    cases s.stage.stilled <;> cases s.stage.status <;> simp
  · rw [h3, Bool.not_eq_true', ← Bool.not_eq_true, Bool.and_eq_true, lineMissing_not, lineMissing_not]

/-- No slot is eligible where a take attempt is not ready. -/
theorem startOutcome_waiting {s : State} {k : Nat} (h : ¬ (s.engine.state = .idle ∧ TakeReady s)) :
    startOutcome s k = u8 2 ++ u8 (maskNat ((takeConditions s).map (!·))) ∧ takeAttempt s = s := by
  have hnone : eligibleSlot s = none := if_neg fun hc => h (by
    obtain ⟨hidle, hready, -⟩ := (takeConditions_iff s).1 hc
    exact ⟨hidle, hready⟩)
  refine ⟨by simp only [startOutcome, hnone]; rfl, takeAttempt_none ?_⟩
  by_cases hidle : s.engine.state = .idle
  · exact .inr (.inl fun hready => h ⟨hidle, hready⟩)
  · exact .inl hidle

theorem startOutcome_taken {s : State} {j k : Nat} (hidle : s.engine.state = .idle) (hready : TakeReady s)
    (hj : s.plan.order.find? (slotAsks s) = some j) :
    startOutcome s k = if j = k then [0, 0] else u8 1 ++ u8 j := by
  have hasks := List.find?_some hj
  have hall := (takeConditions_iff s).2 ⟨hidle, hready, j, slotAsks_lt hasks, hasks⟩
  have heligible : eligibleSlot s = some j := (if_pos hall).trans hj
  simp only [startOutcome, heligible]
  rfl

/-- Settles O31: a START_RUN sets the flag of its slot and attempts a take. -/
theorem takesOfSlots : Obligations.TakesOfSlots := by
  intro p k s htake
  refine ⟨(startRun_refuses htake).1, (startRun_refuses htake).2, fun hk harmed hnot => ?_,
    fun hk harmed hready j hj hfind => ?_⟩
  · have hasks := slotAsks_setRequest (s := closeWindow p s) hk harmed
    have hany : (List.range 4).any (slotAsks (setRequest k (closeWindow p s))) = true := by
      rw [hasks, List.any_eq_true]
      exact ⟨k, List.mem_range.2 (by omega), by simp⟩
    obtain ⟨hlt, h0, h1, h2, h3⟩ := unmet_rows hany
    obtain ⟨houtcome, hquiet⟩ := startOutcome_waiting (s := setRequest k (closeWindow p s)) (k := k) (fun hc => hnot (by
      obtain ⟨hidle, hretreat, hstage, hstarting, hlost, hlines⟩ := hc
      exact ⟨hidle, hretreat, ⟨hstage, hstarting, hlost⟩, hlines⟩))
    refine ⟨_, hlt, h0, h1, h2, h3, (exec_startRun htake hk harmed).trans ?_⟩
    rw [houtcome, hquiet]
    rfl
  · obtain ⟨hidle, hretreat, ⟨hstage, hstarting, hlost⟩, hlines⟩ := hready
    have htakeReady : TakeReady (setRequest k (closeWindow p s)) := ⟨hretreat, hstage, hstarting, hlost, hlines⟩
    have hfirst : (setRequest k (closeWindow p s)).plan.order.find? (slotAsks (setRequest k (closeWindow p s))) =
        some j := by
      rw [slotAsks_setRequest (s := closeWindow p s) hk harmed]
      exact hfind
    have htaken : takeAttempt (setRequest k (closeWindow p s)) = takeSlot j (setRequest k (closeWindow p s)) :=
      takeAttempt_taken hidle htakeReady hfirst
    have hmoved := takeSlot_moved j (setRequest k (closeWindow p s))
    refine ⟨takeSlot j (setRequest k (closeWindow p s)), (exec_startRun htake hk harmed).trans ?_, ?_,
      takeSlot_taken j _, hmoved.step.follows, hmoved.notified.kept⟩
    · rw [htaken, startOutcome_taken (s := setRequest k (closeWindow p s)) hidle htakeReady hfirst]
      rfl
    · rw [← htaken]
      exact ((updateSlot_keeps k _ (closeWindow p s)).mono (by decide)).trans (takeAttempt_keeps _)

/-! ## Flags and priority (R71, R73, R75, R80) -/

theorem disarmSlot_quiet {p : Port} {k : Nat} {s : State} (htake : Takes p 0x38 s) (hk : k ≤ 3)
    (h : s.plan.activeSlot ≠ some k ∨ s.engine.state = .homing) :
    exec (.disarmSlot p k) s = .next (setReply p ⟨.ok, twoValued (slotAt s k).armed⟩ { closeWindow p s with
      plan := s.plan.withSlot k ⟨(slotAt s k).definition, false, false, .stopped⟩ }) := by
  have hquiet : ¬ (s.plan.activeSlot = some k ∧ s.engine.state.recallable = true) := by
    rintro ⟨hactive, hrecallable⟩
    obtain h | h := h
    · exact h hactive
    · rw [h] at hrecallable
      cases hrecallable
  refine exec_owner htake rfl ((if_pos (slotInRange_iff.2 hk)).trans ?_)
  have hdisarmed : disarmSlot k (closeWindow p s) = updateSlot k
      (fun x => { x with armed := false, request := false, timer := .stopped }) (closeWindow p s) := if_neg hquiet
  rw [hdisarmed]
  rfl

theorem setSlotPriority_taken {p : Port} {c : Nat} {s : State} (htake : Takes p 0x3B s) {data : List Byte}
    (hdata : data = u8 (priorityCode s.plan.priority) ++ (s.plan.order.map u8).flatten) :
    (c = 0 → exec (.setSlotPriority p c) s = .next (setReply p ⟨.ok, data⟩ { closeWindow p s with
      plan := { s.plan with priority := .fixed, order := [0, 1, 2, 3] } })) ∧
      (c = 1 → exec (.setSlotPriority p c) s = .next (setReply p ⟨.ok, data⟩ { closeWindow p s with
        plan := { s.plan with priority := .rotating } })) := by
  subst hdata
  refine ⟨fun hc => ?_, fun hc => ?_⟩ <;> subst hc <;> exact exec_owner htake rfl rfl

theorem intervalExpiry_due {k h : Nat} {s : State} (harmed : (slotAt s k).armed = true)
    (htrigger : (slotAt s k).definition.trigger = .interval h) (hruns : Runs (slotAt s k).timer) :
    intervalExpiry k s = takeAttempt { s with
      plan := s.plan.withSlot k
        ⟨(slotAt s k).definition, true, true, .running (nowMs s + h * 3600000)⟩ } := by
  have hdue : intervalRuns k s = true := by rw [intervalRuns, harmed, (runs_iff _).1 hruns]; rfl
  have hexpired : intervalExpiry k s = takeAttempt (updateSlot k
      (fun y => { y with request := true, timer := intervalTimer s y.definition }) s) := if_pos hdue
  rw [hexpired, updateSlot, intervalTimer_interval htrigger, harmed]
  rfl

/-- Settles O32: each request or expiry sets its slot, and the expiry attempts a take. -/
theorem slotFlags : Obligations.SlotFlags := by
  intro p s
  have hout {k : Nat} (hk : 3 < k) : ¬ slotInRange k = true := by rw [slotInRange_iff]; omega
  refine ⟨fun htake k => ⟨fun hk => refuses_owner htake rfl (if_neg (hout hk)) rfl, disarmSlot_quiet htake⟩,
    fun htake k => ⟨fun hk => refuses_owner htake rfl (if_neg (hout hk)) rfl,
      fun hk => exec_owner htake rfl (if_pos (slotInRange_iff.2 hk))⟩,
    fun htake c => ⟨fun hc => ?_, fun data => setSlotPriority_taken htake⟩,
    fun hpor k h hk => ⟨fun hidle => exec_live hpor rfl (if_neg ?_), fun harmed htrigger hruns => ?_⟩⟩
  · refine refuses_owner htake rfl ?_ rfl
    match c with
    | _ + 2 => rfl
  · rw [intervalRuns, Bool.and_eq_true, ← runs_iff]
    rintro ⟨harmed, hruns⟩
    obtain h | h := hidle
    · rw [h] at harmed
      cases harmed
    · exact h hruns
  · let u : State := { s with
      plan := s.plan.withSlot k
        ⟨(slotAt s k).definition, true, true, .running (nowMs s + h * 3600000)⟩ }
    have hslot : slotAt u k = ⟨(slotAt s k).definition, true, true, .running (nowMs s + h * 3600000)⟩ :=
      at'_put_self _ (by omega) _
    obtain ⟨harm, htimer⟩ := takeAttempt_slot u (k := k) (by omega)
    rw [hslot] at harm htimer
    exact ⟨_, exec_live hpor rfl (intervalExpiry_due harmed htrigger hruns),
      ((withPlan_keeps _ s).mono (by decide)).trans (takeAttempt_keeps u), harm, htimer, takeAttempt_attempted u⟩

end Sys2Proof.Machine
end

section
/-! SUPPORT. The course of a run by its requests and expiries: PROCEED, the recalls, SETTLING and COUNTING, and the end
of a point (R86 to R88, R91 to R93, R97 to R108). -/

namespace Sys2Proof.Machine

/-! ## The checks of a fetch, PROCEED (R93, R107) -/

theorem fetchFault_tooLong {s : State} {r : VerticalRecord} (h : 40 ≤ s.engine.fetchCount) :
    fetchFault s r = some .planTooLong := if_pos h

theorem fetchFault_unused {s : State} {r : VerticalRecord} (h : s.engine.fetchCount < 40) (hused : r.used = false) :
    fetchFault s r = some .planEmpty := (if_neg (Nat.not_le.2 h)).trans (if_pos hused)

/-- The order that a used record has to keep, by the number of records fetched before it. -/
theorem fetchFault_order {s : State} {r : VerticalRecord} (hused : r.used = true) :
    (s.engine.fetchCount = 0 → fetchFault s r = none) ∧
      (s.engine.fetchCount = 1 → fetchFault s r = if r.x = s.engine.vertical.x then some .planOrder else none) ∧
      (2 ≤ s.engine.fetchCount → s.engine.fetchCount < 40 →
        (s.engine.direction = some .increasing →
          fetchFault s r = if s.engine.vertical.x < r.x then none else some .planOrder) ∧
        (s.engine.direction = some .decreasing →
          fetchFault s r = if r.x < s.engine.vertical.x then none else some .planOrder)) := by
  have hforty : Config.passVerticals = 40 := rfl
  refine ⟨fun h => ?_, fun h => ?_, fun h h' => ⟨fun hd => ?_, fun hd => ?_⟩⟩
  · simp [fetchFault, hused, h, hforty]
  · simp [fetchFault, hused, h, hforty]
  · have hone : s.engine.fetchCount ≠ 1 := by omega
    by_cases hx : s.engine.vertical.x < r.x
    · simp [fetchFault, hused, h, Nat.not_le.2 h', hone, hd, hx, hforty]
    · simp [fetchFault, hused, h, Nat.not_le.2 h', hone, hd, hx, hforty, Nat.not_lt.1 hx]
  · have hone : s.engine.fetchCount ≠ 1 := by omega
    by_cases hx : r.x < s.engine.vertical.x
    · simp [fetchFault, hused, h, Nat.not_le.2 h', hone, hd, hx, hforty]
    · simp [fetchFault, hused, h, Nat.not_le.2 h', hone, hd, hx, hforty, Nat.not_lt.1 hx]

theorem exec_proceed {p : Port} {s : State} (htake : Takes p 0x45 s) (hholding : s.engine.state = .holding) :
    exec (.proceed p) s = .next (setReply p ⟨.ok, targetData (proceedRun (closeWindow p s))⟩
      (proceedRun (closeWindow p s))) := exec_owner htake rfl (if_pos hholding)

theorem proceedRun_vertical {s : State} (h : s.engine.holdKind = some .nextVertical) : proceedRun s = fetch s := by
  simp only [proceedRun, h]

theorem proceedRun_pass {s : State} (h : s.engine.holdKind = some .nextPass) :
    proceedRun s = startPass (nextNumber s.engine.passNumber) s := by
  simp only [proceedRun, h]

/-- A PROCEED before a vertical fetches it, or recalls with the cause of its check's first failure. -/
theorem proceed_vertical {p : Port} {s : State} (htake : Takes p 0x45 s) (hholding : s.engine.state = .holding)
    (hkind : s.engine.holdKind = some .nextVertical) :
    let fault := fetchFault s (poolRecord s (nextIndex s))
    (∀ cause, fault = some cause → ∃ t,
      exec (.proceed p) s = .next (setReply p ⟨.ok, targetData t⟩ t) ∧ Recalled cause s t ∧
      KeepsBut [.engine, .results, .lines, .notices] (closeWindow p s) t ∧ LinesFollow s t ∧
      NoticesKeptBut passSources s t) ∧
    (fault = none → ∃ t, exec (.proceed p) s = .next (setReply p ⟨.ok, targetData t⟩ t) ∧
      KeepsBut runBlocks (closeWindow p s) t ∧ NextFetched (nextIndex s) s t ∧ LinesFollow s t ∧
      NoticesKeptBut passSources s t) := by
  have hexec := exec_proceed htake hholding
  rw [proceedRun_vertical (s := closeWindow p s) hkind] at hexec
  have hmoved := fetch_moved (closeWindow p s)
  have hspec := fetch_spec (closeWindow p s)
  obtain ⟨cause', hfault, hfetch⟩ | ⟨hfault, hfetch⟩ := fetch_cases (closeWindow p s)
  · refine ⟨fun cause hcause => ⟨_, hexec, (hspec.2 cause hcause).1, ?_, hmoved.step.follows, hmoved.notified.kept⟩,
      fun hnone => ?_⟩
    · rw [hfetch]
      exact recallRun_keeps cause' _
    · have hsome : fetchFault s (poolRecord s (nextIndex s)) = some cause' := hfault
      rw [hnone] at hsome
      cases hsome
  · refine ⟨fun cause hcause => ?_, fun hnone => ⟨_, hexec, fetch_keeps _, hspec.1 hnone, hmoved.step.follows,
      hmoved.notified.kept⟩⟩
    have hno : fetchFault s (poolRecord s (nextIndex s)) = none := hfault
    rw [hcause] at hno
    cases hno

/-- Settles O33: the checks of a fetch in their order, and a PROCEED by its hold kind. -/
theorem fetches : Obligations.Fetches := by
  refine ⟨fun s r => ⟨fetchFault_tooLong, fetchFault_unused, fun hused => (fetchFault_order hused).1,
    fun hused => (fetchFault_order hused).2.1, fun hused => (fetchFault_order hused).2.2⟩, fun p s htake => ⟨?_,
    proceed_vertical htake, fun hholding hkind => ?_⟩⟩
  · exact fun hnot => refuses_owner htake rfl (if_neg hnot) rfl
  · have hexec := exec_proceed htake hholding
    rw [proceedRun_pass (s := closeWindow p s) hkind] at hexec
    have hmoved := startPass_moved (nextNumber s.engine.passNumber) (closeWindow p s)
    have hbegins : PassBegins (nextNumber s.engine.passNumber) s
        (startPass (nextNumber s.engine.passNumber) (closeWindow p s)) :=
      RunSame.passBegins (s := closeWindow p s) ⟨rfl, rfl, rfl, rfl, rfl⟩ (startPass_begins _ _)
    exact ⟨_, hexec, startPass_keeps _ _, hmoved.step.follows, hmoved.notified.kept, hbegins⟩

/-! ## Recalls (R75, R88, R98, R108) -/

theorem recallable_iff (x : RunState) : x.recallable = true ↔ ¬ (x = .idle ∨ x = .homing ∨ x = .tripped) := by
  cases x <;> decide

theorem recallable_not_homing {x : RunState} (h : x.recallable = true) : x ≠ .homing := by
  rintro rfl
  cases h

/-- A slot disarmed during its run, and the run's recall. -/
theorem disarmSlot_recalls {k : Nat} {s : State} (hactive : s.plan.activeSlot = some k)
    (h : s.engine.state.recallable = true) :
    disarmSlot k s = recallRun .cancelled
      (updateSlot k (fun x => { x with armed := false, request := false, timer := .stopped }) s) := by
  exact if_pos ⟨hactive, h⟩

/-- A recall reads nothing of the Plan Store but the definition of the active slot. -/
theorem Recalled.of_plan {cause : EndCause} {s t : State} {plan : PlanStore}
    (h : Recalled cause { s with plan := plan } t)
    (hd : activeDefinition { s with plan := plan } = activeDefinition s) : Recalled cause s t := by
  obtain ⟨⟨hentered, hengine⟩, hcloses⟩ := h
  have hpoint : pointStopped { s with plan := plan } = pointStopped s := by
    simp only [pointStopped, pausedNow, hd]
    rfl
  rw [hd, hpoint] at hengine
  exact ⟨⟨hentered, hengine⟩, hcloses⟩

/-- A slot changed but for its definition leaves the active one's definition as it is. -/
theorem activeDefinition_withSlot {k : Nat} (hk : k ≤ 3) {x : Slot} (s : State)
    (h : x.definition = (slotAt s k).definition) :
    activeDefinition { s with plan := s.plan.withSlot k x } = activeDefinition s := by
  by_cases hactive : s.engine.slot.getD 0 = k
  · have hself : at' (s.plan.withSlot k x).slots k = x := at'_put_self _ (by omega) _
    simp only [activeDefinition, hactive, hself]
    exact h
  · exact congrArg Slot.definition (at'_put_other _ hactive _)

theorem moveRuns_iff (s : State) : moveRuns s = true ↔
    (s.engine.state = .moving ∨ s.engine.state = .lowering) ∧ Runs s.engine.moveTimer := by
  simp [moveRuns, runs_iff]

/-- Settles O34: each is the recall of the engine with its cause. -/
theorem recalls : Obligations.Recalls := by
  refine ⟨fun p s htake => ⟨fun hnot => ?_, fun hyes => ?_⟩, fun p k s htake hk hactive hyes => ?_, fun s hpor =>
    ⟨fun hnot => ?_, fun hruns hstate => ?_⟩⟩
  · exact refuses_owner htake rfl (if_neg fun hr => (recallable_iff _).1 hr hnot) rfl
  · have hmoved := recallRun_moved .cancelled (closeWindow p s)
    exact ⟨_, exec_owner htake rfl (if_pos hyes), recallRun_recalled _ _, recallRun_keeps _ _, hmoved.step.follows,
      hmoved.notified.kept⟩
  · let u : State := { closeWindow p s with
      plan := s.plan.withSlot k ⟨(slotAt s k).definition, false, false, .stopped⟩ }
    have hexec : exec (.disarmSlot p k) s =
        .next (setReply p ⟨.ok, twoValued (slotAt s k).armed⟩ (recallRun .cancelled u)) :=
      exec_owner htake rfl ((if_pos (slotInRange_iff.2 hk)).trans
        (by rw [disarmSlot_recalls (s := closeWindow p s) hactive hyes]; rfl))
    have hmoved := recallRun_moved .cancelled u
    have hrecalled : Recalled .cancelled { s with plan := u.plan } (recallRun .cancelled u) :=
      recallRun_recalled .cancelled u
    exact ⟨_, hexec, hrecalled.of_plan (activeDefinition_withSlot hk s rfl),
      ((withPlan_keeps _ (closeWindow p s)).mono (by decide)).trans ((recallRun_keeps _ u).mono (by decide)),
      hmoved.step.follows, hmoved.notified.kept, recallRun_keeps _ u .plan (by decide)⟩
  · refine exec_live hpor rfl (if_neg fun hr => ?_)
    obtain ⟨hstate, hruns⟩ := (moveRuns_iff s).1 hr
    obtain h | h := hnot
    · exact h hruns
    · exact hstate.elim h.1 h.2
  · have hmoved := recallRun_moved .timeout s
    exact ⟨_, exec_live hpor rfl (if_pos ((moveRuns_iff s).2 ⟨hstate, hruns⟩)), recallRun_recalled _ _,
      recallRun_keeps _ _, hmoved.step.follows, hmoved.notified.kept⟩

/-! ## SETTLING and COUNTING (R97, R100 to R103) -/

/-- A pause timer that starts has its whole time left, so that its point is not restarted. -/
theorem pausePoint_results {s : State} (h : s.engine.pauseTimer = .stopped) : (pausePoint s).results = s.results := by
  have hleft : ¬ ((pauseTimerAtPause s).isRunning && (pauseTimerAtPause s).left (nowMs s) == 0) = true := by
    by_cases hlimit : (activeDefinition s).pauseLimit = 0 <;>
      simp [pauseTimerAtPause, h, hlimit, startTimer, Timer.isRunning, Timer.left]
  exact (congrArg State.results (if_neg hleft)).trans rfl

theorem startCounting_keepsResults (s : State) : KeepsBut stateBlocks s (startCounting s) := by
  have hunfolded : startCounting s = if (activeDefinition s).settledSense = .level ∧
      (countingEntered s).lines.anyActive .settledIn = false then pausePoint (countingEntered s)
      else countingEntered s := rfl
  have hentered : (countingEntered s).results = s.results := enter_keeps .counting _ .results (by decide)
  have hresults : (startCounting s).results = s.results := by
    rw [hunfolded]
    split
    · exact (pausePoint_results (by rw [countingEntered_engine])).trans hentered
    · exact hentered
  intro b hb
  by_cases hr : b = .results
  · subst hr
    exact hresults
  · exact startCounting_keeps s b (by simp_all [recallBlocks, stateBlocks])

theorem startSettling_keepsResults (s : State) : KeepsBut stateBlocks s (startSettling s) := by
  have hentered := enter_keeps .settling s
  unfold startSettling
  dsimp only
  split
  · exact hentered.trans (startCounting_keepsResults _)
  · exact hentered.trans ((withEngine_keeps _ _).mono (by decide))

theorem settleRuns_iff (s : State) : settleRuns s = true ↔ s.engine.state = .settling ∧ Runs s.engine.settleTimer := by
  simp [settleRuns, runs_iff]

theorem countRuns_iff (s : State) : countRuns s = true ↔ s.engine.state = .counting ∧ Runs s.engine.countTimer := by
  simp [countRuns, runs_iff]

theorem pauseRuns_iff (s : State) : pauseRuns s = true ↔ s.engine.state = .counting ∧ Runs s.engine.pauseTimer := by
  simp [pauseRuns, runs_iff]

/-- Settles O36: both lead to the SETTLING or the COUNTING that statements name. -/
theorem settling : Obligations.Settling := by
  refine ⟨fun p s htake => ⟨fun hnot => refuses_owner htake rfl (if_neg hnot) rfl, fun hlowering => ?_⟩,
    fun s hpor => ⟨fun hnot => exec_live hpor rfl (if_neg ?_), fun hsettling hruns => ?_⟩⟩
  · let u : State := { closeWindow p s with engine := { s.engine with moveTimer := .stopped } }
    obtain ⟨hbegun, hmoved⟩ := startSettling_begun u
    have hexec : exec (.depthReached p) s = .next (setReply p ⟨.ok, targetData (startSettling u)⟩ (startSettling u)) :=
      exec_owner htake rfl (if_pos hlowering)
    exact ⟨_, hexec, ((withEngine_keeps _ (closeWindow p s)).mono (by decide)).trans (startSettling_keepsResults u),
      hmoved.step.follows, hmoved.notified.kept, hbegun⟩
  · rw [settleRuns_iff]
    rintro ⟨hsettling, hruns⟩
    exact hnot.elim (fun h => h hsettling) fun h => h hruns
  · obtain ⟨hbegun, hmoved⟩ := startCounting_begun s
    exact ⟨_, exec_live hpor rfl (if_pos ((settleRuns_iff s).2 ⟨hsettling, hruns⟩)), hbegun,
      startCounting_keepsResults s, hmoved.step.follows, hmoved.notified.kept⟩

/-! ## The end of a point (R101, R103 to R106) -/

theorem restartPoint_restarts (s : State) : PointRestarts s.engine.point.paused s (restartPoint s) := by
  refine ⟨rfl, newestBecomes _ ?_⟩
  rw [← onNewest_eq]
  rfl

theorem exec_countTimerExpiry {s : State} (hpor : s.ports.por = false) (hcounting : s.engine.state = .counting)
    (hruns : Runs s.engine.countTimer) : exec .countTimerExpiry s = .next (endPoint s) :=
  exec_live hpor rfl (if_pos ((countRuns_iff s).2 ⟨hcounting, hruns⟩))

/-- Settles O37: the end of a point and the restart of one, or nothing. -/
theorem counting : Obligations.Counting := by
  intro s hpor
  refine ⟨fun hnot => exec_live hpor rfl (if_neg ?_), fun hcounting hruns => ?_,
    fun hnot => exec_live hpor rfl (if_neg ?_), fun hcounting hruns => ?_⟩
  · rw [countRuns_iff]
    rintro ⟨hcounting, hruns⟩
    exact hnot.elim (fun h => h hcounting) fun h => h hruns
  · obtain ⟨hends, hmoved⟩ := endPoint_ends s
    exact ⟨_, exec_countTimerExpiry hpor hcounting hruns, endPoint_keeps s, hends, hmoved.step.follows,
      hmoved.notified.kept⟩
  · rw [pauseRuns_iff]
    rintro ⟨hcounting, hruns⟩
    exact hnot.elim (fun h => h hcounting) fun h => h hruns
  · exact ⟨_, exec_live hpor rfl (if_pos ((pauseRuns_iff s).2 ⟨hcounting, hruns⟩)), restartPoint_keeps s,
      restartPoint_restarts s⟩

/-- Settles O43: the last point of the last vertical closes the pass. -/
theorem passCompletes : Obligations.PassCompletes := by
  intro s hpor hcounting hruns hlast hmore hthree
  obtain ⟨-, -, hcloses⟩ := (endPoint_ends s).1.1 hlast
  exact ⟨_, exec_countTimerExpiry hpor hcounting hruns, endPoint_keeps s, hcloses hmore hthree⟩

end Sys2Proof.Machine
end

section
/-! SUPPORT. POSITION_REACHED: its refusals, the points it lays out, and a vertical of depth 0 (R95, R96). -/

namespace Sys2Proof.Machine

/-! ## The points of a vertical (R96) -/

/-- The method at a depth other than 0 is reduced where several points would lie too close (R96). -/
theorem methodAtDepth_eq (m : Method) {depth : Nat} (h : depth ≠ 0) :
    let reduced := depth < 750 ∧ (m = .p28 ∨ m = .p268)
    methodAtDepth m depth = (if reduced then .p6 else m, decide reduced) := by
  cases m <;> by_cases hd : depth < 750 <;> simp [methodAtDepth, h, hd]

/-- The depth of a point at a fraction of a vertical's depth, in thousandths. -/
def pointAt (depth fraction : Nat) : Nat := (roundDiv ((depth : Int) * fraction) 1000).toNat

theorem pointDepthsOf_eq (m : Method) {depth : Nat} (h : depth ≠ 0) :
    pointDepthsOf m depth = (fractionsOf m).map (pointAt depth) := by
  cases m <;> simp [pointDepthsOf, h, fractionsOf, pointAt]

/-- A point at half a millimetre or more does not round to the surface. -/
theorem pointAt_pos {depth f : Nat} (hf : 500 ≤ depth * f) : pointAt depth f ≠ 0 := by
  rw [pointAt, ← Nat.cast_mul, roundDiv_natCast]
  omega

theorem goToPoint_surface {s : State} {rest : List Nat} (h : s.engine.vertical.pointDepths = 0 :: rest) :
    goToPoint s = startSettling s := by
  simp only [goToPoint, h]

theorem goToPoint_deep {s : State} {d : Nat} {rest : List Nat} (h : s.engine.vertical.pointDepths = d :: rest)
    (hd : d ≠ 0) : goToPoint s = enterMove .lowering s := by
  unfold goToPoint
  rw [h]
  split
  · simp_all
  · rfl

theorem arrivalOf_surface {v : WorkingVertical} {depth : Nat} (h : depth ≠ 0) (hsurf : v.methodFetched = .surf) :
    (arrivalOf v depth).pointDepths = [0] := by
  simp [arrivalOf, hsurf, methodAtDepth, h, pointDepthsOf_eq _ h, fractionsOf, pointAt, roundDiv]

/-- Under every method but SURF the first point of a vertical lies below the surface. -/
theorem arrivalOf_deep {v : WorkingVertical} {depth : Nat} (h : depth ≠ 0) (hsurf : v.methodFetched ≠ .surf) :
    ∃ d rest, (arrivalOf v depth).pointDepths = d :: rest ∧ d ≠ 0 := by
  have hdeep {m : Method} {f : Nat} {fs : List Nat} (hm : (methodAtDepth v.methodFetched depth).1 = m)
      (hfs : fractionsOf m = f :: fs) (hf : 500 ≤ depth * f) :
      ∃ d rest, (arrivalOf v depth).pointDepths = d :: rest ∧ d ≠ 0 :=
    ⟨pointAt depth f, fs.map (pointAt depth),
      by simp only [arrivalOf, hm, pointDepthsOf_eq _ h, hfs, List.map_cons], pointAt_pos hf⟩
  have hmethod := congrArg Prod.fst (methodAtDepth_eq v.methodFetched h)
  cases hv : v.methodFetched <;> simp only [hv] at hmethod hdeep hsurf
  case surf => exact absurd rfl hsurf
  case p6 => exact hdeep (m := .p6) (by simpa using hmethod) rfl (by omega)
  case p28 =>
    by_cases hd : depth < 750
    · exact hdeep (m := .p6) (by simpa [hd] using hmethod) rfl (by omega)
    · exact hdeep (m := .p28) (by simpa [hd] using hmethod) rfl (by omega)
  case p268 =>
    by_cases hd : depth < 750
    · exact hdeep (m := .p6) (by simpa [hd] using hmethod) rfl (by omega)
    · exact hdeep (m := .p268) (by simpa [hd] using hmethod) rfl (by omega)

/-! ## Its checks (R95) -/

theorem withinTolerance_iff {s : State} {reported : Nat} : withinTolerance s reported = true ↔
    ((reported : Int) - s.engine.vertical.x).natAbs ≤ (activeDefinition s).tolerance :=
  decide_eq_true_iff

theorem arrivalInRange_iff {reported : Nat} {sounded : Option Nat} : arrivalInRange reported sounded = true ↔
    reported ≤ 400000 ∧ ∀ z, sounded = some z → z ≤ 20000 := by
  cases sounded <;> simp [arrivalInRange, within_iff]

theorem depthAtArrival_none {v : WorkingVertical} {sounded : Option Nat} :
    depthAtArrival v sounded = none ↔ v.depthMode = .sound ∧ sounded = none := by
  unfold depthAtArrival
  cases v.depthMode <;> simp

theorem depthAtArrival_some {v : WorkingVertical} {sounded : Option Nat} {depth : Nat}
    (h : (v.depthMode = .fixed ∧ v.fetchedDepth = some depth) ∨ (v.depthMode = .sound ∧ sounded = some depth)) :
    depthAtArrival v sounded = some depth := by
  unfold depthAtArrival
  obtain ⟨hmode, hdepth⟩ | ⟨hmode, hdepth⟩ := h <;> simp [hmode, hdepth]

/-- POSITION_REACHED in MOVING with its fields in range and near the vertical. -/
theorem positionReached_near {p : Port} {reported : Nat} {sounded : Option Nat} {s : State} (htake : Takes p 0x42 s)
    (hmoving : s.engine.state = .moving) (hrange : arrivalInRange reported sounded = true)
    (hnear : withinTolerance s reported = true) :
    (depthAtArrival s.engine.vertical sounded = none →
      Refuses (.positionReached p reported sounded) p s ⟨.range, []⟩) ∧
    ∀ depth, depthAtArrival s.engine.vertical sounded = some depth →
      exec (.positionReached p reported sounded) s = .next (setReply p
        ⟨.ok, targetData (arrive depth (closeWindow p s))⟩ (arrive depth (closeWindow p s))) := by
  have hstate : ¬ (closeWindow p s).engine.state ≠ .moving := not_not_intro hmoving
  have hboth : (arrivalInRange reported sounded && withinTolerance (closeWindow p s) reported) = true :=
    Bool.and_eq_true_iff.2 ⟨hrange, hnear⟩
  refine ⟨fun hnone => refuses_owner htake rfl ((if_neg hstate).trans ((if_pos hboth).trans ?_)) rfl,
    fun depth hdepth => exec_owner htake rfl ((if_neg hstate).trans ((if_pos hboth).trans ?_))⟩
  · have hnone' : depthAtArrival (closeWindow p s).engine.vertical sounded = none := hnone
    rw [hnone']
    rfl
  · have hsome : depthAtArrival (closeWindow p s).engine.vertical sounded = some depth := hdepth
    rw [hsome]
    rfl

theorem positionReached_refuses {p : Port} {reported : Nat} {sounded : Option Nat} {s : State}
    (htake : Takes p 0x42 s) :
    (s.engine.state ≠ .moving → Refuses (.positionReached p reported sounded) p s ⟨.state, []⟩) ∧
    (s.engine.state = .moving → 400000 < reported ∨ (∃ z, sounded = some z ∧ 20000 < z) ∨
      ¬ ((reported : Int) - s.engine.vertical.x).natAbs ≤ (activeDefinition s).tolerance ∨
        (s.engine.vertical.depthMode = .sound ∧ sounded = none) →
      Refuses (.positionReached p reported sounded) p s ⟨.range, []⟩) := by
  refine ⟨fun hnot => refuses_owner htake rfl (if_pos hnot) rfl, fun hmoving hbad => ?_⟩
  by_cases hfit : arrivalInRange reported sounded = true ∧ withinTolerance s reported = true
  · obtain ⟨hrange, hnear⟩ := hfit
    refine (positionReached_near htake hmoving hrange hnear).1 (depthAtArrival_none.2 ?_)
    obtain ⟨hreported, hsounded⟩ := arrivalInRange_iff.1 hrange
    obtain h | ⟨z, hz, h⟩ | h | h := hbad
    · omega
    · exact absurd (hsounded z hz) (by omega)
    · exact absurd (withinTolerance_iff.1 hnear) h
    · exact h
  · refine refuses_owner htake rfl ((if_neg (not_not_intro hmoving)).trans (if_neg ?_)) rfl
    rw [Bool.and_eq_true]
    exact hfit

/-! ## What follows an arrival (R96, R105, R106, R118, R119) -/

/-- A vertical as an arrival lays it out, its move timer stopped. -/
def laidOut (v : WorkingVertical) (s : State) : State :=
  { s with engine := { s.engine with vertical := v, moveTimer := .stopped } }

theorem arrive_eq (depth : Nat) (s : State) :
    let v := arrivalOf s.engine.vertical depth
    arrive depth s = if depth = 0 then completeVertical (recordArrival v (laidOut v s))
      else goToPoint (recordArrival v (laidOut v s)) := rfl

theorem recordArrival_eq (v : WorkingVertical) (s : State) : recordArrival v s = tabled (newestAs (fun e =>
    { e with depth := v.depth, methodUsed := v.methodUsed, pointDepths := v.pointDepths
             methodReduced := e.methodReduced || v.methodReduced }) s.results.table) s := by
  rw [← onNewest_eq]
  rfl

/-- An arrival at a vertical of depth 0 completes it. -/
theorem arrive_dry (s : State) :
    let v := s.engine.vertical
    let laid := { v with
      depth := some 0, methodUsed := some v.methodFetched, pointDepths := [], pointOrdinal := 0 }
    VerticalEnds (fun e => entryCompleted s { e with
      depth := some 0, methodUsed := some v.methodFetched, pointDepths := []
      methodReduced := e.methodReduced || v.methodReduced })
      { s with engine := { s.engine with vertical := laid, moveTimer := .stopped } } (arrive 0 s) ∧
    PermitMoved passSources s (arrive 0 s) := by
  intro v laid
  have hlaid : arrivalOf s.engine.vertical 0 = laid := by
    simp [arrivalOf, methodAtDepth, pointDepthsOf, laid, v]
  have harrive := arrive_eq 0 s
  simp only [hlaid, if_true] at harrive
  have hdone : recordCompletion (recordArrival laid (laidOut laid s)) = tabled (newestAs (fun e => entryCompleted s
      { e with depth := some 0, methodUsed := some v.methodFetched, pointDepths := []
               methodReduced := e.methodReduced || v.methodReduced })
      (laidOut laid s).results.table) (laidOut laid s) := by
    rw [recordCompletion_eq, recordArrival_eq]
    simp only [tabled, newestAs_twice]
    rfl
  obtain ⟨hends, hmoved⟩ := completeVertical_ends hdone
  rw [harrive]
  exact ⟨hends, hmoved.before (.of_eq rfl) rfl⟩

/-- An arrival at a vertical with water: its points are laid out, and the engine goes to the first. -/
theorem arrive_wet {depth : Nat} (h : depth ≠ 0) (s : State) :
    let v := s.engine.vertical
    let laid := arrivalOf v depth
    let u := laidOut laid s
    (arrive depth s).plan = s.plan ∧
    NewestBecomes (fun e => { e with
      depth := laid.depth, methodUsed := laid.methodUsed, pointDepths := laid.pointDepths
      methodReduced := e.methodReduced || laid.methodReduced }) s (arrive depth s) ∧
    (v.methodFetched ≠ .surf → Entered .lowering (arrive depth s) ∧ (arrive depth s).engine = { u.engine with
      state := .lowering, holdKind := none, homingCause := none
      moveTimer := .running (nowMs s + (activeDefinition s).moveTimeout * 1000) }) ∧
    (v.methodFetched = .surf → SettlingBegun u (arrive depth s)) ∧ PermitMoved passSources s (arrive depth s) := by
  intro v laid u
  have harrive := arrive_eq depth s
  simp only [h, if_false] at harrive
  have hrecorded := recordArrival_eq laid u
  generalize hw : recordArrival laid u = w at hrecorded
  have hw' : recordArrival (arrivalOf s.engine.vertical depth) (laidOut (arrivalOf s.engine.vertical depth) s) = w := hw
  rw [hw'] at harrive
  rw [harrive]
  have hgo : KeepsBut stateBlocks w (goToPoint w) := by
    unfold goToPoint
    split
    · exact startSettling_keepsResults w
    · exact enterMove_keeps .lowering w
  have hresults := hgo .results (by decide)
  have hdepths : w.engine.vertical.pointDepths = laid.pointDepths := by rw [hrecorded]; rfl
  have hplan : w.plan = s.plan := by rw [hrecorded]; rfl
  have hnotices : w.notices = s.notices := by rw [hrecorded]; rfl
  have hlines : w.lines = s.lines := by rw [hrecorded]; rfl
  refine ⟨(hgo .plan (by decide)).trans hplan, newestBecomes _ ?_, fun hsurf => ?_, fun hsurf => ?_, ?_⟩
  · rw [show (goToPoint w).results = w.results from hresults, hrecorded]
    rfl
  · obtain ⟨d, rest, hd, hne⟩ := arrivalOf_deep h hsurf
    rw [goToPoint_deep (hdepths.trans hd) hne]
    refine ⟨enterMove_entered _ _, ?_⟩
    rw [enterMove_engine, enter_engine, hrecorded]
    rfl
  · rw [goToPoint_surface (hdepths.trans (arrivalOf_surface h hsurf))]
    have hbegun := (startSettling_begun w).1
    rw [hrecorded] at hbegun ⊢
    exact hbegun
  · have hmoved : PermitMoved passSources w (goToPoint w) := by
      unfold goToPoint
      split
      · exact (startSettling_begun w).2
      · exact (enterMove_moved .lowering w).mono (by decide)
    exact hmoved.before (.of_eq hnotices) hlines

/-- A laid out vertical with water, as statements write it. -/
theorem arrivalOf_wet (v : WorkingVertical) {depth : Nat} (h : depth ≠ 0) :
    let reduced := depth < 750 ∧ (v.methodFetched = .p28 ∨ v.methodFetched = .p268)
    let method := if reduced then Method.p6 else v.methodFetched
    arrivalOf v depth = { v with
      depth := some depth, methodUsed := some method
      methodReduced := v.methodReduced || decide reduced
      pointDepths := (match method with
        | .p6 => [600]
        | .p28 => [200, 800]
        | .p268 => [200, 600, 800]
        | .surf => [0]).map fun f => (roundDiv ((depth : Int) * f) 1000).toNat
      pointOrdinal := 1 } := by
  intro reduced method
  have hmethod : methodAtDepth v.methodFetched depth = (method, decide reduced) := methodAtDepth_eq v.methodFetched h
  simp only [arrivalOf, hmethod, pointDepthsOf_eq _ h, h, if_false]
  generalize method = m
  cases m <;> simp [fractionsOf, pointAt]

/-- Settles O35: the checks in order, and the arrival by the depth it gives. -/
theorem arrivals : Obligations.Arrivals := by
  intro p reported sounded s htake v near
  refine ⟨(positionReached_refuses htake).1, (positionReached_refuses htake).2,
    fun hmoving hreported hsounded hnear depth hdepth => ?_⟩
  have hexec := (positionReached_near htake hmoving (arrivalInRange_iff.2 ⟨hreported, hsounded⟩)
    (withinTolerance_iff.2 hnear)).2 depth (depthAtArrival_some hdepth)
  have hkeeps := arrive_keeps depth (closeWindow p s)
  by_cases hzero : depth = 0
  · subst hzero
    obtain ⟨hends, hmoved⟩ := arrive_dry (closeWindow p s)
    exact ⟨_, hexec, hkeeps, hmoved.step.follows, hmoved.notified.kept, fun _ => hends, fun h => absurd rfl h⟩
  · obtain ⟨hplan, hnewest, hdeep, hsurface, hmoved⟩ := arrive_wet hzero (closeWindow p s)
    refine ⟨_, hexec, hkeeps, hmoved.step.follows, hmoved.notified.kept, fun h => absurd h hzero, fun _ => ?_⟩
    have hlaid := arrivalOf_wet s.engine.vertical hzero
    intro reduced method laid u
    have hwet : arrivalOf (closeWindow p s).engine.vertical depth = laid := hlaid
    rw [hwet] at hnewest hdeep hsurface
    exact ⟨hplan, hnewest, hdeep, hsurface⟩

end Sys2Proof.Machine
end

section
/-! SUPPORT. The carriage home, or not in time: the end of a run, the take that may follow it, and the lines on the way
from one permit to the next (R79, R85, R89, R99, R176, R181, R184). -/

namespace Sys2Proof.Machine

/-! ## The lines from one permit to the next (R176, R181, R184) -/

theorem handPermit_lines {s t : State} (v : Permit) (h : t.lines = s.lines) :
    (handPermit v t).lines = (handPermit v s).lines := by
  unfold handPermit
  rw [h]
  split
  · exact h
  · simp only [changeLines, judgeLines, raiseIf_lines, h]

/-- Between two permits that are not WITHDRAWN, a line that is not a PERMIT_OUT output sees no change. -/
theorem handPermit_untouched {i : Nat} {s : State} (hi : i < 16)
    (hline : (lineAt s i).function ≠ .permitOut ∨ (lineAt s i).direction = .input) {v : Permit}
    (hs : s.lines.permit ≠ .withdrawn) (hv : v ≠ .withdrawn) : LineUntouched i s (handPermit v s) := by
  unfold handPermit
  split
  · exact .of_eq rfl
  · refine changeLines_untouched { s.lines with permit := v } s rfl hi ?_
    obtain hfn | hd := hline
    · have hvalue : FieldLines.value { s.lines with permit := v } (lineAt s i) = s.lines.value (lineAt s i) := by
        cases h : (lineAt s i).function <;>
          first
            | exact absurd h hfn
            | simp [FieldLines.value, FieldLines.tripHold, h, beq_eq_false_iff_ne.2 hs, beq_eq_false_iff_ne.2 hv]
      simp [FieldLines.presented, FieldLines.drive, FieldLines.pullUpActs, hvalue, hfn, beq_eq_false_iff_ne.2 hfn]
    · simp [FieldLines.presented, FieldLines.drive, FieldLines.pullUpActs, hd, beq_eq_false_iff_ne.2 hs,
        beq_eq_false_iff_ne.2 hv]

/-- A PERMIT_OUT output drives its pin by the permit, and is watched so, unless the permit is WITHDRAWN. -/
theorem permitOut_drive {f : FieldLines} {l : FieldLine} (hfn : l.function = .permitOut) (hd : l.direction = .output) :
    f.watched l = (f.permit == .active) ∧
      f.drive l = if f.permit = .withdrawn then none else some (l.levelFor (f.permit == .active)) := by
  simp [FieldLines.watched, FieldLines.value, FieldLines.drive, hfn, hd]

theorem LineFollows.config {i : Nat} {s t : State} (h : LineFollows i s t) :
    (lineAt t i).direction = (lineAt s i).direction ∧ (lineAt t i).arm = (lineAt s i).arm ∧
      ∀ v, (lineAt t i).levelFor v = (lineAt s i).levelFor v := by
  have hfield {α : Type} (f : FieldLine → α) := congrArg f h.1
  exact ⟨hfield FieldLine.direction, hfield FieldLine.arm, fun v => hfield (fun l => l.levelFor v)⟩

theorem LineFollows.line_eq {i : Nat} {s t : State} (h : LineFollows i s t) : lineAt t i =
    { lineAt s i with pin := (lineAt t i).pin, changed := (lineAt t i).changed } := by
  conv_rhs => rw [← h.1]

/-- What a PERMIT_OUT output makes of a permit that is not the one before, neither having to be ACTIVE. -/
theorem LineFollows.permitOut {i : Nat} {s t : State} (h : LineFollows i s t)
    (hfn : (lineAt s i).function = .permitOut) (hd : (lineAt s i).direction = .output)
    (ht : t.lines.permit ≠ .withdrawn) (hst : s.lines.permit ≠ t.lines.permit) :
    (lineAt t i).pin = (lineAt s i).levelFor (t.lines.permit == .active) ∧
      lineMoved s.lines t.lines i =
        ((lineAt s i).arm && ((s.lines.permit == .active) != (t.lines.permit == .active))) := by
  obtain ⟨hdir, harm, hlevel⟩ := h.config
  have hfn' := h.function_eq.trans hfn
  obtain ⟨hwatched, hdrive⟩ := permitOut_drive (f := s.lines) hfn hd
  obtain ⟨hwatched', hdrive'⟩ := permitOut_drive (f := t.lines) hfn' (hdir.trans hd)
  rw [if_neg ht, hlevel] at hdrive'
  obtain ⟨-, -, hpin, -, -⟩ := h
  refine ⟨?_, by rw [lineMoved_eq, harm, hwatched, hwatched']⟩
  have hpresented : t.lines.presented (lineAt t i) ≠ s.lines.presented (lineAt s i) := by
    intro heq
    have hsame : t.lines.drive (lineAt t i) = s.lines.drive (lineAt s i) := congrArg Prod.fst heq
    rw [hdrive', hdrive] at hsame
    split at hsame
    · cases hsame
    · have hvalue := levelFor_injective _ (Option.some.inj hsame)
      cases hps : s.lines.permit <;> cases hpt : t.lines.permit <;> simp_all
  rw [hpin hpresented, FieldLines.pinLevel, hdrive']

/-- A PERMIT_OUT output as the permit passes from ACTIVE through RELEASED to ACTIVE. -/
theorem permitOut_pulsed {i : Nat} {s u t : State} (hsu : LineFollows i s u) (hut : LineFollows i u t)
    (hfn : (lineAt s i).function = .permitOut) (hd : (lineAt s i).direction = .output)
    (hs : s.lines.permit = .active) (hu : u.lines.permit = .released) (ht : t.lines.permit = .active) :
    lineAt t i = { lineAt s i with
      pin := (lineAt s i).levelFor true, changed := (lineAt s i).changed || (lineAt s i).arm } ∧
    ((lineAt s i).arm = true → PendingWhereRouted 17 t) := by
  obtain ⟨hdir, harm, hlevel⟩ := hsu.config
  obtain ⟨-, hmoved⟩ := hsu.permitOut hfn hd (by rw [hu]; decide) (by rw [hs, hu]; decide)
  obtain ⟨hpin, hmoved'⟩ := hut.permitOut (hsu.function_eq.trans hfn) (hdir.trans hd) (by rw [ht]; decide)
    (by rw [hu, ht]; decide)
  have hchanged := hsu.2.2.2.1
  obtain ⟨-, -, -, hchanged', hraised⟩ := id hut
  rw [hs, hu] at hmoved
  rw [hu, ht, harm] at hmoved'
  rw [ht, hlevel] at hpin
  rw [hmoved] at hchanged
  rw [hmoved', hchanged] at hchanged'
  refine ⟨?_, fun h => hraised (by rw [hmoved', h]; rfl)⟩
  have hline := hut.line_eq
  rw [hpin, hchanged', hsu.line_eq] at hline
  rw [hline]
  cases (lineAt s i).arm <;> simp

theorem enter_lines (st : RunState) (s : State) : (enter st s).lines = (handPermit st.permit s).lines := by
  simp only [enter, handCondition_lines]
  exact handPermit_lines _ rfl

theorem recallRun_lines (cause : EndCause) (s : State) : (recallRun cause s).lines = (handPermit .active s).lines := by
  rw [recallRun_eq]
  exact (enter_lines .homing _).trans (handPermit_lines _ (closeIfOpen_lines cause (stopTimers s)))

theorem fetch_lines (s : State) : (fetch s).lines = (handPermit .active s).lines := by
  obtain ⟨cause, -, h⟩ | ⟨-, h⟩ := fetch_cases s <;> rw [h]
  · exact recallRun_lines cause s
  · rw [fetchRecord_eq]
    exact (enter_lines .moving _).trans (handPermit_lines _ rfl)

theorem takeSlot_lines (j : Nat) (s : State) : (takeSlot j s).lines = (handPermit .active s).lines := by
  rw [takeSlot_eq, startPass_eq]
  exact (fetch_lines _).trans (handPermit_lines _ rfl)

/-- A take from a permit that is not WITHDRAWN concerns the PERMIT_OUT outputs alone. -/
theorem takeSlot_untouched {i j : Nat} {s : State} (hi : i < 16)
    (hline : (lineAt s i).function ≠ .permitOut ∨ (lineAt s i).direction = .input)
    (hs : s.lines.permit ≠ .withdrawn) : LineUntouched i s (takeSlot j s) :=
  (handPermit_untouched hi hline hs (by decide)).trans (.of_eq (takeSlot_lines j s))

/-! ## What a take leaves of the engine's records (R89, R90) -/

theorem PassBegins.engine_kept {n : Nat} {s t : State} (h : PassBegins n s t) :
    t.engine.lastEnd = s.engine.lastEnd ∧ t.engine.trip = s.engine.trip ∧ t.notices.trip = false ∧
      t.lines.permit = .active := by
  obtain ⟨z, -, hused, hunused⟩ := h
  obtain ⟨entered, engine, -⟩ | ⟨⟨⟨entered, engine⟩, -⟩, -⟩ := either_of_bool hused hunused
  all_goals
    obtain ⟨-, permit, -, -, trip⟩ := entered
    exact ⟨by rw [engine], by rw [engine], trip, permit⟩

theorem TakenSlot.engine_kept {j : Nat} {s t : State} (h : TakenSlot j s t) :
    t.engine.lastEnd = s.engine.lastEnd ∧ t.engine.trip = s.engine.trip ∧ t.notices.trip = false ∧
      t.lines.permit = .active := h.2.engine_kept

theorem TakenSlot.order {j : Nat} {s t : State} (h : TakenSlot j s t) : t.plan.order = s.plan.order := by
  have horder := congrArg PlanStore.order h.plan_eq.1
  exact horder

/-! ## The run's end at home (R79, R99) -/

/-- The engine at home, its run ended with a cause, before a take is attempted. -/
def homeEnded (cause : EndCause) (s : State) : State :=
  endRun cause (enter .idle (withEngine { s.engine with homeTimer := .stopped } s))

theorem homeArrived_eq {cause : EndCause} {s : State} (h : s.engine.homingCause = some cause) :
    homeArrived s = takeAttempt (homeEnded cause s) := by
  simp only [homeArrived, h]
  rfl

theorem homeEnded_entered (cause : EndCause) (s : State) : Entered .idle (homeEnded cause s) :=
  endRun_entered cause (enter_entered .idle _)

theorem homeEnded_engine (cause : EndCause) (s : State) : (homeEnded cause s).engine = { s.engine with
    state := .idle, holdKind := none, homingCause := none, homeTimer := .stopped, slot := none
    lastEnd := some ⟨s.engine.runNumber, s.engine.slot, cause, s.clock.clock⟩ } := by
  rw [homeEnded, endRun_engine, enter_engine, enter_clock]
  rfl

/-- A Plan Store at the end of a run of slot k (R79). -/
def planEnded (cause : EndCause) (k : Nat) (s : State) : PlanStore :=
  let ended : Slot := { slotAt s k with
    armed := false, timer := .stopped
    request := (slotAt s k).definition.trigger.isLevel && (slotAt s k).request }
  { (if cause = .complete then s.plan.withSlot k ended else s.plan) with
    order := if cause = .complete ∧ s.plan.priority = .rotating then s.plan.order.erase k ++ [k] else s.plan.order
    activeSlot := none }

theorem homeEnded_plan {cause : EndCause} {k : Nat} {s : State} (h : s.plan.activeSlot = some k) :
    (homeEnded cause s).plan = planEnded cause k s := by
  have hplan (x : State) (hx : x.plan = s.plan) : (planEnd cause x).plan = planEnded cause k s := by
    simp only [planEnd, hx, h, planEnded]
    split <;> simp [updateSlot, slotAt, hx, PlanStore.withSlot, put]
  exact hplan _ (enter_plan .idle _)

theorem homeEnded_moved (cause : EndCause) (s : State) : PermitMoved [10, 11, 13, 14, 17] s (homeEnded cause s) ∧
    PendingWhereRouted 13 (homeEnded cause s) := by
  let x := enter .idle (withEngine { s.engine with homeTimer := .stopped } s)
  have hentered : PermitMoved [10, 11, 13, 14, 17] s x :=
    ((enter_moved .idle _).mono (by decide)).before (.of_eq rfl) rfl
  have hlines : (endRun cause x).lines = x.lines := endRun_keeps cause x .lines (by decide)
  have hnotices : (endRun cause x).notices = (raise .runEnded x).notices := planEnd_notices cause _
  have hended : PendingWhereRouted 13 (raise .runEnded x) := raise_pendingWhereRouted .runEnded x
  refine ⟨hentered.after (((raise_notified .runEnded x).mono (by decide)).congr rfl hnotices) hlines, ?_⟩
  unfold PendingWhereRouted at hended ⊢
  rw [homeEnded, hnotices]
  exact hended

theorem homeEnded_keeps (cause : EndCause) (s : State) :
    KeepsBut [.plan, .engine, .lines, .notices] s (homeEnded cause s) :=
  ((withEngine_keeps _ s).mono (by decide)).trans
    (((enter_keeps .idle _).mono (by decide)).trans ((endRun_keeps cause _).mono (by decide)))

/-- The state in which a take is attempted at the end of a run at home, as statements write it. -/
def atHome (cause : EndCause) (plan : PlanStore) (s : State) : State :=
  { s with
    plan := plan
    engine := { s.engine with
      state := .idle, holdKind := none, homingCause := none, homeTimer := .stopped, slot := none
      lastEnd := some ⟨s.engine.runNumber, s.engine.slot, cause, s.clock.clock⟩ } }

/-- The take attempt at the end of a run at home: what it leaves where nothing is taken, and the slot that it takes. -/
theorem homeEnded_takes {cause : EndCause} {k : Nat} {s : State} (hactive : s.plan.activeSlot = some k) :
    let t := takeAttempt (homeEnded cause s)
    let u := atHome cause (planEnded cause k s) s
    let taken := u.plan.order.find? (slotAsks u)
    (¬ TakeReady s ∨ taken = none →
      Entered .idle t ∧ t.engine = u.engine ∧ t.plan = u.plan ∧ t.results = s.results ∧ LinesFollow s t) ∧
    (TakeReady s → ∀ j, taken = some j → TakenSlot j u t ∧
      (∀ i, i < 16 → (lineAt s i).function ≠ .permitOut → LineFollows i s t) ∧
      (s.lines.permit = .active → ∀ i, i < 16 → (lineAt s i).function = .permitOut → (lineAt s i).direction = .output →
        lineAt t i = { lineAt s i with
          pin := (lineAt s i).levelFor true
          changed := (lineAt s i).changed || (lineAt s i).arm } ∧
        ((lineAt s i).arm = true → PendingWhereRouted 17 t))) := by
  have hentered := homeEnded_entered cause s
  have hengine := homeEnded_engine cause s
  have hplan := homeEnded_plan (cause := cause) hactive
  have hkeeps := homeEnded_keeps cause s
  have hfollows := (homeEnded_moved cause s).1.step.follows
  generalize homeEnded cause s = w at *
  intro t u taken
  have hready : TakeReady w ↔ TakeReady s :=
    TakeReady.iff (congrArg WarningUnit.retreat (hkeeps .warning (by decide))) (hkeeps .stage (by decide)) hfollows
  have hasks : slotAsks w = slotAsks u := by
    funext i
    simp only [slotAsks, slotAt, hplan]
    rfl
  have hfirst : w.plan.order.find? (slotAsks w) = taken := by rw [hasks, hplan]; rfl
  refine ⟨fun hnot => ?_, fun hs j hj => ?_⟩
  · have ht : t = w := takeAttempt_none (.inr (hnot.imp (mt hready.1) hfirst.trans))
    rw [ht]
    exact ⟨hentered, hengine, hplan, hkeeps .results (by decide), hfollows⟩
  · have ht : t = takeSlot j w := takeAttempt_taken hentered.1 (hready.2 hs) (hfirst.trans hj)
    have hmoved := takeSlot_moved j w
    have hsame : RunSame w u := ⟨(hkeeps .clock (by decide)).symm, (hkeeps .stage (by decide)).symm, hplan.symm,
      hengine.symm, (hkeeps .results (by decide)).symm⟩
    have hreleased : w.lines.permit = .released := hentered.2.1
    rw [ht]
    refine ⟨hsame.takenSlot (takeSlot_taken j w), fun i hi hfn => ?_, fun hpermit i hi hfn hd => ?_⟩
    · have hw := hfollows i hi
      have hother : (lineAt w i).function ≠ .permitOut := by rw [hw.function_eq]; exact hfn
      exact hw.then_untouched (takeSlot_untouched hi (.inl hother) (by rw [hreleased]; decide))
        (hmoved.notified.pending (by decide) (by decide))
    · exact permitOut_pulsed (hfollows i hi) (hmoved.step.follows i hi) hfn hd hpermit hreleased
        (takeSlot_taken j w).engine_kept.2.2.2

/-- What the end of a run at home leaves whatever the take attempt answers. -/
theorem homeEnded_ends {cause : EndCause} {k : Nat} {s : State} (hactive : s.plan.activeSlot = some k) :
    let t := takeAttempt (homeEnded cause s)
    KeepsBut runBlocks s t ∧ RunEnded cause s t ∧ NoticesKeptBut (13 :: takeSources) s t ∧
      t.plan.order = (planEnded cause k s).order := by
  have hengine := homeEnded_engine cause s
  have hplan := homeEnded_plan (cause := cause) hactive
  have hkeeps := (homeEnded_keeps cause s).mono (cs := runBlocks) (by decide)
  obtain ⟨hmoved, hended⟩ := homeEnded_moved cause s
  have hlast : (homeEnded cause s).engine.lastEnd =
      some ⟨s.engine.runNumber, s.engine.slot, cause, s.clock.clock⟩ := by rw [hengine]
  generalize homeEnded cause s = w at *
  intro t
  have htake : KeepsBut runBlocks s t := hkeeps.trans (takeAttempt_keeps w)
  obtain ⟨-, -, j, -, ht⟩ | ⟨-, ht⟩ := takeAttempt_spec w
  · have hnoted := (takeSlot_moved j w).notified
    have htaken := takeSlot_taken j w
    refine ⟨htake, ?_⟩
    have ht' : t = takeSlot j w := ht
    rw [ht']
    exact ⟨⟨htaken.engine_kept.1.trans hlast, hnoted.pending (by decide) (by decide) hended⟩,
      ((hmoved.notified.mono (by decide)).trans (hnoted.mono (by decide))).kept, htaken.order.trans (by rw [hplan])⟩
  · refine ⟨htake, ?_⟩
    have ht' : t = w := ht
    rw [ht']
    exact ⟨⟨hlast, hended⟩, (hmoved.notified.mono (by decide)).kept, by rw [hplan]⟩

/-! ## HOME_REACHED, and the home timer (R99) -/

theorem homeRuns_iff (s : State) : homeRuns s = true ↔ s.engine.state = .homing ∧ Runs s.engine.homeTimer := by
  simp [homeRuns, runs_iff]

theorem homeReached_other {p : Port} {s : State} (htake : Takes p 0x44 s) :
    (s.engine.state = .idle →
      exec (.homeReached p) s = .next (setReply p ⟨.ok, targetData s⟩ (closeWindow p s))) ∧
    (s.engine.state ≠ .idle → s.engine.state ≠ .homing → Refuses (.homeReached p) p s ⟨.state, []⟩) := by
  refine ⟨fun hidle => exec_owner htake rfl ?_, fun hidle hhoming => refuses_owner htake rfl ?_ rfl⟩
  · have hstate : (closeWindow p s).engine.state = .idle := hidle
    simp only [hstate]
    rfl
  · have hstate : (closeWindow p s).engine.state = s.engine.state := rfl
    simp only [hstate]
    rfl

theorem exec_homeReached {p : Port} {cause : EndCause} {s : State} (htake : Takes p 0x44 s)
    (hhoming : s.engine.state = .homing) (hcause : s.engine.homingCause = some cause) :
    exec (.homeReached p) s = .next (setReply p ⟨.ok, targetData (takeAttempt (homeEnded cause (closeWindow p s)))⟩
      (takeAttempt (homeEnded cause (closeWindow p s)))) := by
  refine exec_owner htake rfl ?_
  have hstate : (closeWindow p s).engine.state = .homing := hhoming
  simp only [hstate, homeArrived_eq (s := closeWindow p s) hcause]
  rfl

/-- The home timer's expiry in HOMING: the engine trips, and its run ends. -/
theorem homeExpiry_trips {s : State} (h : homeRuns s = true) :
    let t := homeExpiry s
    Tripped .homeTimeout t ∧ RunEnded .homeTimeout s t ∧ RecordsKept s t ∧
      KeepsBut [.plan, .engine, .lines, .notices] s t ∧ t.plan = { s.plan with activeSlot := none } ∧
      LinesFollow s t ∧ NoticesKeptBut (13 :: passSources) s t := by
  let x : State := withEngine { (stopTimers s).engine with trip := .homeTimeout } (stopTimers s)
  have hexpired : homeExpiry s = endRun .homeTimeout (enter .tripped x) := if_pos h
  have hentered : Entered .tripped (endRun .homeTimeout (enter .tripped x)) :=
    endRun_entered .homeTimeout (enter_entered .tripped x)
  obtain ⟨hengine, hplan, hlines, -, hpending, hnoted⟩ :=
    endRun_ended (cause := .homeTimeout) (by decide) (enter .tripped x)
  have hkeeps : KeepsBut [.plan, .engine, .lines, .notices] s (endRun .homeTimeout (enter .tripped x)) :=
    ((stopTimers_keeps s).mono (by decide)).trans (((withEngine_keeps _ _).mono (by decide)).trans
      (((enter_keeps .tripped x).mono (by decide)).trans ((endRun_keeps _ _).mono (by decide))))
  have hmoved : PermitMoved (13 :: passSources) s (endRun .homeTimeout (enter .tripped x)) :=
    (((enter_moved .tripped x).mono (m := 13 :: passSources) (by decide)).before (s := s) (.of_eq rfl) rfl).after
      (hnoted.mono (by decide)) hlines
  rw [enter_engine, enter_clock] at hengine
  rw [enter_plan] at hplan
  intro t
  have ht : t = endRun .homeTimeout (enter .tripped x) := hexpired
  rw [ht]
  refine ⟨⟨hentered, by rw [hengine]; rfl, by rw [hengine]; exact ⟨rfl, rfl, rfl, rfl⟩, by rw [hengine]; rfl,
    by rw [hengine], by rw [hplan]⟩, ⟨by rw [hengine]; rfl, hpending⟩, ?_, hkeeps, hplan, hmoved.step.follows,
    hmoved.notified.kept⟩
  have hpoint := pointKept_of (s := s) (t := endRun .homeTimeout (enter .tripped x)) (by rw [hengine]; rfl)
    (by rw [hengine]; rfl)
  refine ⟨?_, ?_, ?_, ?_, ?_, ?_, ?_, hpoint⟩ <;> rw [hengine] <;> rfl

/-- Settles O38: HOME_REACHED by the engine's state, and the home timer's expiry. -/
theorem homeComing : Obligations.HomeComing := by
  refine ⟨fun p s htake => ⟨(homeReached_other htake).1, (homeReached_other htake).2,
    fun cause k hhoming hcause hactive _ => ?_⟩, fun s hpor => ⟨fun hnot => ?_, fun hhoming hruns => ?_⟩⟩
  · obtain ⟨hkeeps, hended, hnotices, horder⟩ := homeEnded_ends (cause := cause) (s := closeWindow p s) hactive
    refine ⟨_, exec_homeReached htake hhoming hcause, hkeeps, hended, hnotices, fun hc hp => ?_, fun hc => ?_, ?_⟩
    · exact horder.trans (if_pos ⟨hc, hp⟩)
    · refine horder.trans (if_neg fun ⟨hc', hp⟩ => ?_)
      have hp' : s.plan.priority = .rotating := hp
      rw [hp'] at hc
      exact hc.elim (fun h => h hc') nofun
    · rw [horder]
      intro ended slots u taken
      obtain ⟨hnone, htaken⟩ := homeEnded_takes (cause := cause) (s := closeWindow p s) hactive
      refine ⟨hnone, fun hready j hj => ?_⟩
      obtain ⟨hslot, hothers, hpermitOut⟩ := htaken hready j hj
      exact ⟨hslot, hothers, fun inv => hpermitOut (inv.permit.trans (by rw [hhoming]; rfl))⟩
  · refine exec_live hpor rfl (if_neg fun h => ?_)
    obtain ⟨hhoming, hruns⟩ := (homeRuns_iff s).1 h
    exact hnot.elim (fun h => h hhoming) fun h => h hruns
  · exact ⟨_, exec_live hpor rfl rfl, homeExpiry_trips ((homeRuns_iff s).2 ⟨hhoming, hruns⟩)⟩

end Sys2Proof.Machine
end

section
/-! SUPPORT. CARRIAGE_FAULT, CLEAR_TRIP and RESET_ENGINE (R83, R110 to R112). -/

namespace Sys2Proof.Machine

/-! ## CARRIAGE_FAULT (R110) -/

theorem carriageFault_tripped {p : Port} {code : Nat} {s : State} (htake : Takes p 0x47 s)
    (h : s.engine.state = .tripped) :
    exec (.carriageFault p code) s = .next (setReply p ⟨.ok, u8 7⟩ (closeWindow p s)) := by
  have hsame : tripEngine (.fault code) (closeWindow p s) = closeWindow p s := if_pos h
  have hstate : (closeWindow p s).engine.state = .tripped := h
  refine exec_owner htake rfl ?_
  dsimp only
  rw [hsame, hstate]
  rfl

theorem exec_carriageFault {p : Port} {code : Nat} {s : State} (htake : Takes p 0x47 s) :
    exec (.carriageFault p code) s =
      .next (setReply p ⟨.ok, u8 7⟩ (tripEngine (.fault code) (closeWindow p s))) := by
  refine exec_owner htake rfl ?_
  dsimp only
  rw [tripEngine_state]
  rfl

theorem carriageFault_trips {p : Port} {code : Nat} {s : State} (htake : Takes p 0x47 s) (inv : EngineInv s)
    (h : s.engine.state ≠ .tripped) :
    ∃ t, exec (.carriageFault p code) s = .next (setReply p ⟨.ok, u8 7⟩ t) ∧ TripTaken (.fault code) s t ∧
      KeepsBut runBlocks (closeWindow p s) t ∧ LinesFollow s t ∧ NoticesKeptBut (13 :: passSources) s t := by
  obtain ⟨htaken, hmoved⟩ := tripEngine_taken (record := .fault code) (s := closeWindow p s) h (inv.congr {})
  exact ⟨_, exec_carriageFault htake, htaken, tripEngine_keeps _ _, hmoved.step.follows, hmoved.notified.kept⟩

/-! ## CLEAR_TRIP (R111) -/

theorem tripClearable_iff (s : State) :
    tripClearable s = true ↔ s.engine.state = .tripped ∧ s.lines.anyActive .limitIn = false := by
  simp [tripClearable]

/-- A PERMIT_OUT output as the permit passes from WITHDRAWN through RELEASED to ACTIVE follows it as in one step. -/
theorem permitOut_restored {i : Nat} {s u t : State} (hsu : LineFollows i s u) (hut : LineFollows i u t)
    (hfn : (lineAt s i).function = .permitOut) (hd : (lineAt s i).direction = .output)
    (hs : s.lines.permit = .withdrawn) (hu : u.lines.permit = .released) (ht : t.lines.permit = .active) :
    LineFollows i s t := by
  obtain ⟨hdir, harm, hlevel⟩ := hsu.config
  obtain ⟨hdir', harm', hlevel'⟩ := hut.config
  have hfn' := hsu.function_eq.trans hfn
  obtain ⟨-, hmoved⟩ := hsu.permitOut hfn hd (by rw [hu]; decide) (by rw [hs, hu]; decide)
  obtain ⟨hpin, hmoved'⟩ := hut.permitOut hfn' (hdir.trans hd) (by rw [ht]; decide) (by rw [hu, ht]; decide)
  obtain ⟨-, hdrive⟩ := permitOut_drive (f := s.lines) hfn hd
  obtain ⟨hwatched, -⟩ := permitOut_drive (f := s.lines) hfn hd
  obtain ⟨hwatched', hdrive'⟩ := permitOut_drive (f := t.lines) (hut.function_eq.trans hfn')
    (hdir'.trans (hdir.trans hd))
  have hthrough : lineMoved s.lines t.lines i = (lineAt s i).arm := by
    rw [lineMoved_eq, hwatched, hwatched', hs, ht, harm', harm]
    exact Bool.and_true _
  have hstill : lineMoved s.lines u.lines i = false := by
    rw [hmoved, hs, hu]
    exact Bool.and_false _
  have hlast : lineMoved u.lines t.lines i = (lineAt s i).arm := by
    rw [hmoved', hu, ht, harm]
    exact Bool.and_true _
  have hdiffers : t.lines.presented (lineAt t i) ≠ s.lines.presented (lineAt s i) := by
    intro heq
    have hsame : t.lines.drive (lineAt t i) = s.lines.drive (lineAt s i) := congrArg Prod.fst heq
    rw [hdrive', hdrive, hs, ht] at hsame
    cases hsame
  have hline := hut.line_eq
  rw [hsu.line_eq] at hline
  have hchanged := hsu.2.2.2.1
  obtain ⟨-, -, -, hchanged', hraised⟩ := id hut
  refine ⟨by rw [hline], fun heq => absurd heq hdiffers, fun _ => ?_, ?_, fun hm => hraised ?_⟩
  · rw [hpin, FieldLines.pinLevel, hdrive', ht, hlevel', hlevel]
    rfl
  · rw [hchanged', hchanged, hstill, hlast, hthrough, Bool.or_false]
  · rw [hlast, ← hthrough]
    exact hm

/-- A take from IDLE reads neither the state, nor the hold kind, nor the homing cause from which it came. -/
theorem TakenSlot.of_idle {j : Nat} {s t : State} (h : TakenSlot j { s with
    engine := { s.engine with state := .idle, holdKind := none, homingCause := none } } t) : TakenSlot j s t := h

/-- The take attempt at the entry to IDLE from TRIPPED. -/
theorem idleEntered_takes (s : State) :
    let t := takeAttempt (enter .idle s)
    let first := s.plan.order.find? (slotAsks s)
    KeepsBut runBlocks s t ∧ t.engine.trip = s.engine.trip ∧ t.notices.trip = false ∧
      (s.lines.permit = .withdrawn → LinesFollow s t) ∧ NoticesKeptBut takeSources s t ∧
      (¬ TakeReady s ∨ first = none → Entered .idle t ∧
        t.engine = { s.engine with state := .idle, holdKind := none, homingCause := none } ∧
        t.plan = s.plan ∧ t.results = s.results) ∧
      (TakeReady s → ∀ j, first = some j → TakenSlot j s t) := by
  have hentered := enter_entered .idle s
  have hengine : (enter .idle s).engine = { s.engine with state := .idle, holdKind := none, homingCause := none } :=
    enter_engine .idle s
  have hplan := enter_plan .idle s
  have hkeeps := enter_keeps .idle s
  have hmoved := enter_moved .idle s
  have hfollows := hmoved.step.follows
  generalize enter .idle s = w at *
  intro t first
  have hready : TakeReady w ↔ TakeReady s :=
    TakeReady.iff (congrArg WarningUnit.retreat (hkeeps .warning (by decide))) (hkeeps .stage (by decide)) hfollows
  have hasks : slotAsks w = slotAsks s := by
    funext i
    simp only [slotAsks, slotAt, hplan]
  have hfirst : w.plan.order.find? (slotAsks w) = first := by rw [hasks, hplan]
  have htake : KeepsBut runBlocks s t := (hkeeps.mono (by decide)).trans (takeAttempt_keeps w)
  obtain ⟨-, hw, j, hj, ht⟩ | ⟨hnot, ht⟩ := takeAttempt_spec w
  · have htaken := takeSlot_taken j w
    have hslot := takeSlot_moved j w
    have hsame : RunSame w { s with
        engine := { s.engine with state := .idle, holdKind := none, homingCause := none } } :=
      ⟨(hkeeps .clock (by decide)).symm, (hkeeps .stage (by decide)).symm, hplan.symm, hengine.symm,
        (hkeeps .results (by decide)).symm⟩
    obtain ⟨-, htrip, hno, hactive⟩ := htaken.engine_kept
    have hreleased : w.lines.permit = .released := hentered.2.1
    refine ⟨htake, ?_⟩
    have ht' : t = takeSlot j w := ht
    rw [ht']
    refine ⟨htrip.trans (by rw [hengine]), hno, fun hwithdrawn i hi => ?_,
      ((hmoved.notified.mono (by decide)).trans hslot.notified).kept, fun hnone => ?_, fun _ j' hj' => ?_⟩
    · have hfollow := hfollows i hi
      by_cases hline : (lineAt s i).function = .permitOut ∧ (lineAt s i).direction = .output
      · exact permitOut_restored hfollow (hslot.step.follows i hi) hline.1 hline.2 hwithdrawn hreleased hactive
      · have hother : (lineAt w i).function ≠ .permitOut ∨ (lineAt w i).direction = .input := by
          rw [hfollow.function_eq, hfollow.config.1]
          cases hd : (lineAt s i).direction <;> simp_all
        exact hfollow.then_untouched (takeSlot_untouched hi hother (by rw [hreleased]; decide))
          (hslot.notified.pending (by decide) (by decide))
    · exact absurd hnone (not_or.2 ⟨not_not_intro (hready.1 hw), by rw [← hfirst, hj]; nofun⟩)
    · obtain rfl : j = j' := Option.some.inj (hj.symm.trans (hfirst.trans hj'))
      exact (hsame.takenSlot htaken).of_idle
  · refine ⟨htake, ?_⟩
    have ht' : t = w := ht
    rw [ht']
    refine ⟨by rw [hengine], hentered.2.2.2.2, fun _ => hfollows, (hmoved.notified.mono (by decide)).kept, fun _ =>
      ⟨hentered, hengine, hplan, hkeeps .results (by decide)⟩, fun hs j hj => ?_⟩
    obtain h | h | h := hnot
    · exact absurd hentered.1 h
    · exact absurd (hready.2 hs) h
    · rw [hfirst, hj] at h
      cases h

theorem clearTrip_refuses {p : Port} {s : State} (htake : Takes p 0x48 s)
    (h : s.engine.state ≠ .tripped ∨ s.lines.anyActive .limitIn = true) :
    Refuses (.clearTrip p) p s ⟨.state, []⟩ := by
  refine refuses_owner htake rfl (if_neg fun hc => ?_) rfl
  obtain ⟨htripped, hlimit⟩ := (tripClearable_iff _).1 hc
  exact h.elim (fun h => h htripped) fun h => absurd (h.symm.trans hlimit) nofun

theorem exec_clearTrip {p : Port} {s : State} (htake : Takes p 0x48 s) (htripped : s.engine.state = .tripped)
    (hlimit : s.lines.anyActive .limitIn = false) :
    exec (.clearTrip p) s = .next (setReply p ⟨.ok, tripData s.engine.trip⟩
      (takeAttempt (enter .idle (closeWindow p s)))) :=
  exec_owner htake rfl (if_pos ((tripClearable_iff (closeWindow p s)).2 ⟨htripped, hlimit⟩))

/-! ## RESET_ENGINE (R83, R112) -/

/-- An active run that a reset ends: halted in IDLE, and ended. -/
theorem endByReset_active {s : State} (h : s.engine.state.runActive = true) :
    endByReset s = endRun .reset (haltedIn .idle s.engine.trip .reset s) := by
  have hengine := closeIfOpen_engine .reset (stopTimers s)
  have hkept : haltedIn .idle s.engine.trip .reset s = enter .idle (closeIfOpen .reset (stopTimers s)) := by
    unfold haltedIn
    dsimp only
    generalize closeIfOpen .reset (stopTimers s) = x at *
    have htrip : x.engine.trip = s.engine.trip := by rw [hengine]; rfl
    rw [← htrip]
    rfl
  rw [hkept]
  exact if_pos h

theorem endByReset_idle {s : State} (h : s.engine.state.runActive = false) : endByReset s = s := by
  simp [endByReset, h]

/-- What a RESET_ENGINE does before it clears the flags, by the engine's state. -/
theorem resetEngine_cases (s : State) :
    (s.engine.state.runActive = true ∧
      resetEngine s = clearRequests (endRun .reset (haltedIn .idle s.engine.trip .reset s))) ∨
    (s.engine.state = .tripped ∧ s.lines.anyActive .limitIn = false ∧
      resetEngine s = clearRequests (enter .idle s)) ∨
    ((s.engine.state = .idle ∨ (s.engine.state = .tripped ∧ s.lines.anyActive .limitIn = true)) ∧
      resetEngine s = clearRequests s) := by
  have hreset : resetEngine s = clearRequests
      (if tripClearable (endByReset s) then enter .idle (endByReset s) else endByReset s) := rfl
  by_cases hactive : s.engine.state.runActive = true
  · have hidle : (endByReset s).engine.state = .idle := by rw [endByReset_state, if_pos hactive]
    have hno : ¬ tripClearable (endByReset s) = true := fun h => by
      rw [tripClearable_iff, hidle] at h
      exact absurd h.1 nofun
    rw [if_neg hno, endByReset_active hactive] at hreset
    exact .inl ⟨hactive, hreset⟩
  · rw [endByReset_idle (by simpa using hactive)] at hreset
    by_cases hclear : tripClearable s = true
    · rw [if_pos hclear] at hreset
      obtain ⟨htripped, hlimit⟩ := (tripClearable_iff s).1 hclear
      exact .inr (.inl ⟨htripped, hlimit, hreset⟩)
    · rw [if_neg hclear] at hreset
      rw [tripClearable_iff] at hclear
      refine .inr (.inr ⟨?_, hreset⟩)
      cases hs : s.engine.state <;> simp_all [RunState.runActive]

/-- The Plan Store once every request flag is cleared and the order list restored (R80, R83). -/
theorem clearRequests_plan {s x : State} (h : { x.plan with activeSlot := s.plan.activeSlot } = s.plan) :
    let t := clearRequests x
    t.plan.order = [0, 1, 2, 3] ∧
      { t.plan with slots := s.plan.slots, order := s.plan.order, activeSlot := s.plan.activeSlot } = s.plan ∧
      ∀ k, k ≤ 3 → slotAt t k = { slotAt s k with request := false } := by
  have hfield {α : Type} (f : PlanStore → α) := congrArg f h
  have hslots : x.plan.slots = s.plan.slots := hfield PlanStore.slots
  refine ⟨rfl, ?_, fun k hk => ?_⟩
  · rw [← h]
    rfl
  · refine (slotAt_of_map (s := x) rfl (by omega)).trans ?_
    rw [slotAt, hslots]
    rfl

/-- RESET_ENGINE during a run: the run ends with cause RESET. -/
theorem resetEngine_active (s : State) :
    let x := endRun .reset (haltedIn .idle s.engine.trip .reset s)
    let t := clearRequests x
    Entered .idle t ∧ t.plan.activeSlot = none ∧ RunEnded .reset s t ∧ RecordsKept s t ∧
      t.engine.trip = s.engine.trip ∧ t.engine.slot = none ∧ t.engine.holdKind = none ∧
      t.engine.homingCause = none ∧ WorkTimersStopped t.engine ∧ t.engine.homeTimer = .stopped ∧
      ClosesOpenPass t.stage.status .reset s t ∧ { x.plan with activeSlot := s.plan.activeSlot } = s.plan ∧
      PermitMoved (13 :: passSources) s t := by
  have hentered : Entered .idle (haltedIn .idle s.engine.trip .reset s) := enter_entered _ _
  have hengine := haltedIn_engine .idle s.engine.trip .reset s (by decide) (by decide)
  have hkept := haltedIn_keeps .idle s.engine.trip .reset s
  have hmoved := (haltedIn_moved .idle s.engine.trip .reset s).mono (m := 13 :: passSources) (by decide)
  obtain ⟨hended, hplan, hlines, hresults, hpending, hnoted⟩ :=
    endRun_ended (cause := .reset) (by decide) (haltedIn .idle s.engine.trip .reset s)
  have hkeep := endRun_keeps .reset (haltedIn .idle s.engine.trip .reset s)
  have hstate := endRun_entered .reset hentered
  rw [hengine, hkept .clock (by decide)] at hended
  rw [hkept .plan (by decide)] at hplan
  have hcloses := haltedIn_closes hnoted (by rw [hended]) hresults
    ((hkeep .rating (by decide)).trans (hkept .rating (by decide)))
    ((hkeep .stage (by decide)).trans (hkept .stage (by decide)))
  have hall := hmoved.after (hnoted.mono (by decide)) hlines
  generalize endRun .reset (haltedIn .idle s.engine.trip .reset s) = x at *
  have hfield {α : Type} (f : RunEngine → α) := congrArg f hended
  have hpoint : PointKept s (clearRequests x) := pointKept_of (hfield RunEngine.point) (hfield RunEngine.countTimer)
  refine ⟨hstate, congrArg PlanStore.activeSlot hplan, ⟨hfield RunEngine.lastEnd, hpending⟩, ?_, hfield RunEngine.trip,
    hfield RunEngine.slot, hfield RunEngine.holdKind, hfield RunEngine.homingCause, ?_, hfield RunEngine.homeTimer,
    hcloses, by rw [hplan], hall.after (.of_eq rfl) rfl⟩
  · exact ⟨hfield RunEngine.runNumber, hfield RunEngine.passNumber, hfield RunEngine.fetchCount,
      hfield RunEngine.direction, hfield RunEngine.ghStart, hfield RunEngine.ghStartHeld, hfield RunEngine.vertical,
      hpoint⟩
  · exact ⟨hfield RunEngine.moveTimer, hfield RunEngine.settleTimer, hfield RunEngine.countTimer,
      hfield RunEngine.pauseTimer⟩

/-- Settles O39: the trip, and the ways out of TRIPPED and of a run. -/
theorem tripsAndResets : Obligations.TripsAndResets := by
  refine ⟨fun p code s htake inv => ⟨carriageFault_tripped htake, carriageFault_trips htake inv⟩,
    fun p s htake => ⟨clearTrip_refuses htake, fun htripped hlimit => ?_⟩, fun p s htake => ?_⟩
  · obtain ⟨hkeeps, htrip, hno, hlines, hnotices, htakes⟩ := idleEntered_takes (closeWindow p s)
    exact ⟨_, exec_clearTrip htake htripped hlimit, hkeeps, htrip, hno,
      fun inv => hlines (inv.permit.trans (by rw [htripped]; rfl)), hnotices, htakes⟩
  · let c := closeWindow p s
    have hexec : exec (.resetEngine p) s = .next (setReply p
        ⟨.ok, u8 (runStateCode (resetEngine c).engine.state)⟩ (resetEngine c)) := exec_owner htake rfl rfl
    refine ⟨resetEngine c, hexec, resetEngine_keeps c, ?_⟩
    obtain ⟨hactive, ht⟩ | ⟨htripped, hlimit, ht⟩ | ⟨hrest, ht⟩ := resetEngine_cases c
    all_goals rw [ht]
    · obtain ⟨hidle, hslot, hended, hkept, htrip, hnone, hhold, hcause, hwork, hhome, hcloses, hplan, hmoved⟩ :=
        resetEngine_active c
      obtain ⟨horder, hothers, hslots⟩ := clearRequests_plan hplan
      have hstate {x : RunState} (hx : x.runActive = false) : ¬ s.engine.state = x := by
        rintro rfl
        exact absurd (hactive.symm.trans hx) nofun
      refine ⟨hmoved.step.follows, hmoved.notified.kept, horder, hothers, hslots, fun _ => ⟨hidle, hslot, hended, hkept,
        htrip, hnone, hhold, hcause, hwork, hhome, hcloses⟩, fun h => absurd (hactive.symm.trans h) nofun,
        fun h => absurd h (hstate rfl), fun h => absurd h ?_⟩
      exact not_or.2 ⟨hstate rfl, fun h => hstate rfl h.1⟩
    · have hmoved := (enter_moved .idle c).mono (m := 13 :: passSources) (by decide)
      have hplan := enter_plan .idle c
      obtain ⟨horder, hothers, hslots⟩ := clearRequests_plan (s := c) (x := enter .idle c) (by rw [hplan])
      have hactiveSlot := congrArg PlanStore.activeSlot hplan
      have hinactive : ¬ s.engine.state.runActive = true := fun h => by
        have htripped' : s.engine.state = .tripped := htripped
        rw [htripped'] at h
        cases h
      refine ⟨hmoved.step.follows, hmoved.notified.kept, horder, hothers, hslots, fun h => absurd h hinactive,
        fun _ => ⟨enter_keeps .idle c .results (by decide), hactiveSlot⟩,
        fun _ _ => ⟨enter_entered .idle c, enter_engine .idle c⟩, fun h => ?_⟩
      obtain h | ⟨-, h⟩ := h
      · exact absurd (h.symm.trans htripped) nofun
      · exact absurd (h.symm.trans hlimit) nofun
    · obtain ⟨horder, hothers, hslots⟩ := clearRequests_plan (s := c) (x := c) rfl
      have hmoved : PermitMoved (13 :: passSources) c (clearRequests c) := ⟨.of_eq rfl, .of_eq rfl⟩
      refine ⟨hmoved.step.follows, hmoved.notified.kept, horder, hothers, hslots, fun h => ?_, fun _ => ⟨rfl, rfl⟩,
        fun htripped hlimit => ?_, fun _ => ⟨rfl, rfl, rfl⟩⟩
      · have hactive : c.engine.state.runActive = true := h
        obtain h | ⟨h, -⟩ := hrest <;> rw [h] at hactive <;> cases hactive
      · obtain h | ⟨-, h⟩ := hrest
        · exact absurd (h.symm.trans htripped) nofun
        · exact absurd (h.symm.trans hlimit) nofun

end Sys2Proof.Machine
end

section
/-! SUPPORT. What the pin change of an input line hands to the owner of its function, in the words of `PassageHanded`
(R101 to R104, R110, R154, R177, R184). -/

namespace Sys2Proof.Machine

/-! ## What R184's judgement leaves (R184) -/

theorem ClosesOpenPass.left {cause : EndCause} {s t t' : State} (h : ClosesOpenPass t.stage.status cause s t)
    (hl : RunLeft t t') : ClosesOpenPass t'.stage.status cause s t' := by
  obtain ⟨hshut, hclosed, hnone⟩ := h
  refine ⟨hl.engine ▸ hshut, fun ho => ?_, fun hc => hl.results ▸ hnone hc⟩
  obtain ⟨hdone, r, hr, hof, hheld, hrest⟩ := hclosed ho
  refine ⟨hl.pending (by decide) (by decide) hdone, r, hl.results ▸ hr, ?_, hl.stage ▸ hheld, hrest⟩
  rw [hl.results, hl.stage]
  exact hof.left hl.rating

theorem Held.left {kind : HoldKind} {s t t' : State} (h : Held kind s t) (hl : RunLeft t t') (hp : t'.plan = t.plan) :
    Held kind s t' := by
  obtain ⟨hentered, hengine, hplan, hresults⟩ := h
  exact ⟨hentered.left hl, hl.engine ▸ hengine, hp ▸ hplan, hl.results ▸ hresults⟩

theorem VerticalCompletes.left {done : TableEntry → TableEntry} {s t t' : State} (h : VerticalCompletes done s t)
    (hl : RunLeft t t') (hp : t'.plan = t.plan) : VerticalCompletes done s t' := by
  obtain ⟨hheld, hfetch, hshort⟩ := h
  refine ⟨fun hm hd => (hheld hm hd).left hl hp, fun hm hd => ⟨fun hf => ((hfetch hm hd).1 hf).left hl hp,
    fun cause hf => ?_⟩, fun hm hc => ?_⟩
  · obtain ⟨hrecalled, hplan⟩ := (hfetch hm hd).2 cause hf
    exact ⟨hrecalled.left hl, hp.trans hplan⟩
  · obtain ⟨hrecalled, hplan⟩ := hshort hm hc
    exact ⟨hrecalled.left hl, hp.trans hplan⟩

theorem PassCloses.left {s t t' : State} (h : PassCloses s t) (hl : RunLeft t t') (hp : t'.plan = t.plan) :
    PassCloses s t' := by
  obtain ⟨hdone, r, ⟨hlast, hstepped, htraverse⟩, hr⟩ := h
  refine ⟨hl.pending (by decide) (by decide) hdone, r, ⟨fun h => ?_, fun h hd => (hstepped h hd).left hl hp,
    fun h hd => (htraverse h hd).left hl hp⟩, hr⟩
  obtain ⟨hrecalled, hplan⟩ := hlast h
  exact ⟨hrecalled.left hl, hp.trans hplan⟩

theorem VerticalEnds.left {done : TableEntry → TableEntry} {s t t' : State} (h : VerticalEnds done s t)
    (hl : RunLeft t t') (hp : t'.plan = t.plan) : VerticalEnds done s t' := by
  obtain ⟨hstate, hcompletes, hcloses⟩ := h
  exact ⟨hl.engine ▸ hstate, hcompletes.left hl hp, fun hm hc => (hcloses hm hc).left hl hp⟩

theorem PointEnds.left {s t t' : State} (h : PointEnds s t) (hl : RunLeft t t') (hp : t'.plan = t.plan) :
    PointEnds s t' := by
  obtain ⟨hlast, hnext⟩ := h
  refine ⟨fun h => (hlast h).left hl hp, fun h => ?_⟩
  obtain ⟨hentered, hengine, hplan, hnewest⟩ := hnext h
  refine ⟨hentered.left hl, hl.engine ▸ hengine, hp.trans hplan, ?_⟩
  unfold NewestBecomes at hnewest ⊢
  rw [hl.results]
  exact hnewest

/-- What R184 makes of a state: the line's latch, and LINE_CHANGE. -/
structure LineJudged (t t' : State) : Prop where
  keeps : KeepsBut [.lines, .notices] t t'
  permit : t'.lines.permit = t.lines.permit
  warnKept : t'.lines.warnKept = t.lines.warnKept
  notified : Notified [17] t t'

theorem judgeLine_lineJudged (i : Nat) (moved : Bool) (s : State) : LineJudged s (judgeLine i moved s) := by
  obtain ⟨hpermit, hkept, -⟩ := judgeLine_line i moved s
  exact ⟨judgeLine_keeps i moved s, hpermit, hkept, (judgeLine_notified i moved s).mono (pinSources_line _)⟩

theorem LineJudged.left {t t' : State} (h : LineJudged t t') : RunLeft t t' := by
  have hrating := h.keeps .rating (by decide)
  exact ⟨h.keeps .stage (by decide), h.keeps .engine (by decide), h.keeps .results (by decide), h.permit,
    ⟨congrArg RatingUnit.active hrating, congrArg RatingUnit.version hrating⟩, [17], by decide, by decide, by decide,
    h.notified⟩

theorem TripTaken.judged {record : TripRecord} {s t t' : State} (h : TripTaken record s t) (hj : LineJudged t t') :
    TripTaken record s t' := by
  have hl := hj.left
  have hengine : t'.engine = t.engine := hj.keeps .engine (by decide)
  have hplan : t'.plan = t.plan := hj.keeps .plan (by decide)
  have hclock : t'.clock = t.clock := hj.keeps .clock (by decide)
  have hcounted : countedNow t' = countedNow t := by simp only [countedNow, nowMs_eq hclock, hengine]
  have hpaused : pausedNow t' = pausedNow t := by
    simp only [pausedNow, nowMs_eq hclock, hengine, activeDefinition_eq hplan (congrArg RunEngine.slot hengine)]
  obtain ⟨⟨hentered, htripped⟩, hcloses, hrecords, hp, hw, hdone, hended, hidle⟩ := h
  refine ⟨⟨hentered.left hl, ?_⟩, hcloses.left hl, ?_, hplan.trans hp, (hj.keeps .warning (by decide)).trans hw,
    fun hc => (hdone hc).trans (hj.notified.kept.asBefore (by decide)), fun hs => ?_, fun hs => ?_⟩
  · rw [hengine, hplan]
    exact htripped
  · unfold RecordsKept PointKept at hrecords ⊢
    rw [hengine, hcounted, hpaused]
    exact hrecords
  · obtain ⟨hlast, hraised⟩ := hended hs
    exact ⟨hengine ▸ hlast, hl.pending (by decide) (by decide) hraised⟩
  · obtain ⟨hlast, hbefore⟩ := hidle hs
    exact ⟨hengine ▸ hlast, hbefore.trans (hj.notified.kept.asBefore (by decide))⟩

/-! ## The pin change of an input line (R175, R177) -/

/-- A passage of a line with function fn, active or not, handed to its owner. The trip hold keeps the value of a
METER_IN and of a SETTLED_IN line inactive. -/
def handed (i : Nat) (fn : LineFunction) (active : Bool) (s : State) : State :=
  match fn, active with
  | .meterIn, true => if s.lines.tripHold then s else meterPulse s
  | .settledIn, _ => if s.lines.tripHold then s else settledPassage active s
  | .limitIn, true => tripEngine (.limit i) s
  | .ackIn, true => takeSilence s
  | _, _ => s

theorem handPassage_handed {i : Nat} {fn : LineFunction} {active before after : Bool} {s : State}
    (hheld : fn = .meterIn ∨ fn = .settledIn →
      before = (!active && !s.lines.tripHold) ∧ after = (active && !s.lines.tripHold))
    (hfree : fn = .limitIn ∨ fn = .ackIn → before = !active ∧ after = active) :
    handPassage i fn before after s = handed i fn active s := by
  have hdiffer : (!active) ≠ active := by cases active <;> decide
  cases fn
  case meterIn | settledIn =>
    obtain ⟨rfl, rfl⟩ := hheld (by simp)
    cases hh : s.lines.tripHold <;> cases active <;> simp [handPassage, handed, hh]
  case limitIn | ackIn =>
    obtain ⟨rfl, rfl⟩ := hfree (by simp)
    cases after <;> simp [handPassage, handed]
  all_goals simp [handPassage, handed]

/-- The pin change of an input line is its passage and then R184's judgement. -/
theorem pinChange_input {i : Nat} {level : Level} {s : State} (hi : i < 16) (hd : (lineAt s i).direction = .input)
    (hpin : (lineAt s i).pin ≠ level) :
    pinChange i level s = judgeLine i true (handed i (lineAt s i).function (level == (lineAt s i).polarity)
      (setPin i level s)) := by
  have hline := lineAt_setPin hi level s
  have hhold : (setPin i level s).lines.tripHold = s.lines.tripHold := rfl
  have hbefore : (lineAt s i).pinState = !(level == (lineAt s i).polarity) := by
    unfold FieldLine.pinState
    cases h : (lineAt s i).pin <;> cases h' : level <;> cases (lineAt s i).polarity <;> simp_all
  have hafter : (lineAt (setPin i level s) i).pinState = (level == (lineAt s i).polarity) := by rw [hline]; rfl
  have hd' : (lineAt (setPin i level s) i).direction = .input := by rw [hline]; exact hd
  have hfn : (lineAt (setPin i level s) i).function = (lineAt s i).function := by rw [hline]
  have hmoved : (s.lines.watched (lineAt s i) != (setPin i level s).lines.watched (lineAt (setPin i level s) i)) =
      true := by
    simp only [FieldLines.watched, hd, hd', hbefore, hafter]
    cases level == (lineAt s i).polarity <;> rfl
  unfold pinChange
  dsimp only
  rw [hmoved]
  congr 1
  refine handPassage_handed (fun h => ?_) (fun h => ?_) <;>
    obtain h | h := h <;> simp [FieldLines.value, h, hfn, hbefore, hafter, hhold]

/-! ## Passages that leave lines and notices alone (R101 to R103) -/

section quiet
variable {i : Nat} {level : Level} {s : State} {moved : Bool}

theorem pinJudged_of_quiet {t : State} (hi : i < 16) (h : Quiet (setPin i level s) t) :
    PinJudged i s (judgeLine i moved t) := by
  obtain ⟨hnotices, hlines⟩ := h
  obtain ⟨hpermit, hkept, harm⟩ := judgeLine_line i moved t
  have hnoted : Notified (pinSources (lineAt t i)) s (judgeLine i moved t) :=
    (Notified.of_eq (s := s) (t := t) hnotices).trans (judgeLine_notified i moved t)
  have hsame : pinSources (lineAt (judgeLine i moved t) i) = pinSources (lineAt t i) := by
    simp only [pinSources, harm hi]
  exact ⟨hsame ▸ hnoted.kept, hpermit.trans (by rw [hlines]; rfl), hkept.trans (by rw [hlines]; rfl)⟩

/-- The pin and R184's judgement change no more than a hand-on between them and the lines and notices. -/
theorem judged_keeps {bs : List Block} {t : State} (h : KeepsBut bs (setPin i level s) t) :
    KeepsBut (.lines :: .notices :: bs) s (judgeLine i moved t) :=
  ((setPin_keeps i level s).mono (by simp)).trans ((h.mono (by simp +contextual)).trans
    ((judgeLine_keeps i moved t).mono (by simp [lineBlocks])))

theorem pinOnly (hi : i < 16) : PinOnly i s (judgeLine i moved (setPin i level s)) :=
  ⟨judged_keeps (.refl [] _), pinJudged_of_quiet hi ⟨rfl, rfl⟩⟩

theorem judgeLine_engine (t : State) : (judgeLine i moved t).engine = t.engine :=
  judgeLine_keeps i moved t .engine (by decide)

/-- A hand-on that writes the point, the count timer and the pause timer. -/
theorem pointTimed (hi : i < 16) (point : PointRecord) (count pause : Timer) :
    let e := { s.engine with point := point, countTimer := count, pauseTimer := pause }
    PointTimed i s (judgeLine i moved (withEngine e (setPin i level s))) ∧
      (judgeLine i moved (withEngine e (setPin i level s))).engine = e := by
  intro e
  have hengine : (judgeLine i moved (withEngine e (setPin i level s))).engine = e := judgeLine_engine _
  refine ⟨⟨?_, pinJudged_of_quiet hi ⟨rfl, rfl⟩, by rw [hengine]⟩, hengine⟩
  exact (judged_keeps (withEngine_keeps e _)).mono (by decide)

end quiet

theorem tripHold_iff (f : FieldLines) : f.tripHold = true ↔ f.permit = .withdrawn := by simp [FieldLines.tripHold]

/-- A METER_IN passage is counted where a point is counted, and not held or waiting (R101). -/
theorem handed_meterIn (i : Nat) (active : Bool) (s : State) :
    handed i .meterIn active s = if active = true ∧ s.lines.permit ≠ .withdrawn ∧ s.engine.state = .counting ∧
        s.engine.point.paused = false ∧ s.engine.point.restartWait = false then
      withEngine { s.engine with
        point := { s.engine.point with pulses := min 65535 (s.engine.point.pulses + 1) } } s
    else s := by
  cases active
  · simp [handed]
  · by_cases hw : s.lines.permit = .withdrawn
    · simp [handed, (tripHold_iff _).2 hw, hw]
    · have hhold : s.lines.tripHold = false := by rw [← Bool.not_eq_true, tripHold_iff]; exact hw
      simp [handed, hhold, hw, meterPulse, saturate_eq_min]

/-- A SETTLED_IN passage reaches the engine in COUNTING under sense LEVEL, without the trip hold (R102, R177). -/
theorem handed_settledIn (i : Nat) (active : Bool) (s : State) :
    handed i .settledIn active s = if (s.engine.state = .counting ∧ s.lines.permit ≠ .withdrawn) ∧
        (activeDefinition s).settledSense = .level then
      if active = true then settledActivation s else settledDeactivation s
    else s := by
  by_cases hw : s.lines.permit = .withdrawn
  · simp [handed, (tripHold_iff _).2 hw, hw]
  · have hhold : s.lines.tripHold = false := by rw [← Bool.not_eq_true, tripHold_iff]; exact hw
    simp [handed, hhold, hw, settledPassage]

/-! ## Pauses (R102, R103) -/

/-- An engine whose point has become paused, with its pause timer. -/
def pausedAt (timer : Timer) (s : State) : RunEngine :=
  { s.engine with
    point := { s.engine.point with paused := true, pausedSince := some (nowMs s) }
    countTimer := s.engine.countTimer.hold (nowMs s)
    pauseTimer := timer }

theorem pausePoint_pauses {s : State} {timer : Timer} (htimer : pauseTimerAtPause s = timer)
    (hleft : timer ≠ .running (nowMs s + 0)) (hgrown : ∀ due, timer = .running due → nowMs s ≤ due) :
    pausePoint s = withEngine (pausedAt timer s) s := by
  have hnot : ¬ (timer.isRunning && timer.left (nowMs s) == 0) = true := by
    cases timer with
    | running due =>
      have hge := hgrown due rfl
      have hne : due ≠ nowMs s := fun h => hleft (congrArg Timer.running (h.trans (Nat.add_zero _).symm))
      simp [Timer.isRunning, Timer.left]
      omega
    | _ => simp [Timer.isRunning]
  unfold pausePoint
  rw [htimer]
  exact if_neg hnot

theorem pausePoint_spent {s : State} (htimer : pauseTimerAtPause s = .running (nowMs s + 0)) :
    pausePoint s = restartPoint (withEngine (pausedAt (.running (nowMs s + 0)) s) s) := by
  unfold pausePoint
  rw [htimer]
  exact if_pos (by simp [Timer.isRunning, Timer.left])

/-- The pause timer at a pause: started at the first, run on at a later one. -/
theorem pauseTimerAtPause_eq (s : State) :
    (s.engine.pauseTimer = .stopped → pauseTimerAtPause s = if (activeDefinition s).pauseLimit = 0 then .stopped
      else .running (nowMs s + (activeDefinition s).pauseLimit * 1000)) ∧
    ∀ left, s.engine.pauseTimer = .held left → (activeDefinition s).pauseLimit ≠ 0 →
      pauseTimerAtPause s = .running (nowMs s + left) := by
  refine ⟨fun h => ?_, fun left h hlimit => ?_⟩
  · by_cases hlimit : (activeDefinition s).pauseLimit = 0 <;> simp [pauseTimerAtPause, h, hlimit, startTimer]
  · simp [pauseTimerAtPause, h, hlimit]

/-- A pause with no pause time left restarts the point at once, paused (log entry 18). -/
theorem restartPoint_paused (timer : Timer) (s : State) :
    PointRestarts true s (restartPoint (withEngine (pausedAt timer s) s)) := by
  refine ⟨rfl, newestBecomes _ ?_⟩
  rw [← onNewest_eq]
  rfl

/-! ## Resumptions (R101 to R103) -/

theorem settledActivation_waiting {s : State} (h : s.engine.point.restartWait = true) :
    settledActivation s = withEngine { s.engine with
      point := { s.engine.point with restartWait := false, paused := false, pausedSince := none }
      countTimer := .running (nowMs s + s.engine.vertical.countTime * 1000) } s := if_pos h

/-- An engine whose paused point resumes with a time left. -/
def resumedAt (left : Nat) (s : State) : RunEngine :=
  { s.engine with
    point := { s.engine.point with paused := false, pausedMs := pausedNow s, pausedSince := none }
    countTimer := .running (nowMs s + left)
    pauseTimer := s.engine.pauseTimer.hold (nowMs s) }

theorem settledActivation_resumes {s : State} {left : Nat} (hwait : s.engine.point.restartWait = false)
    (hpaused : s.engine.point.paused = true) (hcount : s.engine.countTimer = .held left) :
    settledActivation s = if left = 0 then endPoint (withEngine (resumedAt left s) s)
      else withEngine (resumedAt left s) s := by
  simp only [settledActivation, hwait, hpaused, hcount, Timer.resume, Timer.isRunning, Timer.left, Bool.false_eq_true,
    if_false, if_true, Bool.true_and, beq_iff_eq, Nat.add_sub_cancel_left, resumedAt]

theorem settledActivation_running {s : State} (hwait : s.engine.point.restartWait = false)
    (hpaused : s.engine.point.paused = false) : settledActivation s = s := by
  simp [settledActivation, hwait, hpaused]

theorem settledDeactivation_pauses {s : State} (hwait : s.engine.point.restartWait = false)
    (hpaused : s.engine.point.paused = false) : settledDeactivation s = pausePoint s := by
  simp [settledDeactivation, hwait, hpaused]

/-- A point that a resumption with no count time left ends: its end reads nothing that the resumption writes but the
paused mark. -/
theorem pointEnds_resumed {s t : State} {left : Nat} (h : PointEnds (withEngine (resumedAt left s) s) t) :
    PointEnds { s with engine := { s.engine with point := { s.engine.point with paused := false } } } t := h

/-! ## Silence and trips (R110, R153, R154) -/

section handedOn
variable {i : Nat} {level : Level} {s : State} {moved : Bool}

theorem takeSilence_silences (h : 1 ≤ s.warning.level) :
    let t := judgeLine i moved (takeSilence (setPin i level s))
    Silenced s t ∧ KeepsBut [.warning, .lines, .notices] s t ∧ NoticesKeptBut [17, 19] s t ∧
      t.lines.permit = s.lines.permit := by
  let y := setPin i level s
  let x := raise .silenced { y with warning := { y.warning with silence := true } }
  have htaken : takeSilence y = formOutputs x := if_neg (Nat.ne_of_gt h)
  have hwarning := formOutputs_warning x
  have hsilent : ∀ k, k < 4 → _ := fun k hk => formOutputs_output x hk
  obtain ⟨hnoted, hpermit⟩ := takeSilence_notified y
  have hj := judgeLine_lineJudged i moved (takeSilence y)
  have hkeeps := judged_keeps (i := i) (level := level) (moved := moved) (takeSilence_keeps y)
  have hwarned : (judgeLine i moved (takeSilence y)).warning = (formOutputs x).warning := by
    rw [← htaken]
    exact hj.keeps .warning (by decide)
  have hkept : (judgeLine i moved (takeSilence y)).lines.warnKept = (formOutputs x).lines.warnKept := by
    rw [hj.warnKept, htaken]
  have hraised : PendingWhereRouted 19 (takeSilence y) := by
    rw [htaken]
    exact (formOutputs_driven x).2.pending (by decide) (by decide) (raise_pendingWhereRouted .silenced _)
  refine ⟨⟨?_, hj.left.pending (by decide) (by decide) hraised, ?_, ?_, ?_⟩, hkeeps.mono (by decide), ?_,
    hj.permit.trans hpermit⟩
  · rw [hwarned, hwarning]
    rfl
  · have hformed := formOutputs_formed x
    unfold OutputsFormed at hformed ⊢
    rw [hwarned, hkept]
    exact hformed
  · unfold OutputSettingsKept
    rw [hwarned]
    exact hsilent
  · rw [hwarned, hwarning]
    rfl
  · exact ((hnoted.congr (s' := s) rfl rfl).trans (hj.notified.mono (by decide))).kept

/-- A trip by a LIMIT_IN line, whatever the records of the engine that trips. -/
theorem tripEngine_trips {record : TripRecord} {s : State} (h : s.engine.state ≠ .tripped) :
    (tripEngine record s).engine.state = .tripped ∧ (tripEngine record s).engine.trip = record ∧
      ClosesOpenPass (tripEngine record s).stage.status .trip s (tripEngine record s) := by
  have hengine := haltedIn_engine .tripped record .trip s (by decide) (by decide)
  have hkept := haltedIn_keeps .tripped record .trip s
  refine ⟨tripEngine_state record s, ?_⟩
  rw [tripEngine_eq h]
  split
  · obtain ⟨hended, -, -, hresults, -, hnoted⟩ :=
      endRun_ended (cause := .trip) (by decide) (haltedIn .tripped record .trip s)
    have hkeep := endRun_keeps .trip (haltedIn .tripped record .trip s)
    rw [hengine] at hended
    exact ⟨by rw [hended], haltedIn_closes hnoted (by rw [hended]) hresults
      ((hkeep .rating (by decide)).trans (hkept .rating (by decide)))
      ((hkeep .stage (by decide)).trans (hkept .stage (by decide)))⟩
  · exact ⟨by rw [hengine], haltedIn_closes (.refl [] _) (by rw [hengine]) rfl (hkept .rating (by decide))
      (hkept .stage (by decide))⟩

theorem limit_trips (h : s.engine.state ≠ .tripped) :
    let t := judgeLine i moved (tripEngine (.limit i) (setPin i level s))
    t.engine.state = .tripped ∧ t.engine.trip = .limit i ∧ ClosesOpenPass t.stage.status .trip s t ∧
      NoticesKeptBut (13 :: passSources) s t ∧ (EngineInv s → TripTaken (.limit i) s t) := by
  let y := setPin i level s
  have hj := judgeLine_lineJudged i moved (tripEngine (.limit i) y)
  obtain ⟨hstate, htrip, hcloses⟩ := tripEngine_trips (record := .limit i) (s := y) h
  have hengine := judgeLine_engine (i := i) (moved := moved) (tripEngine (.limit i) y)
  have hnoted : Notified (13 :: passSources) s (tripEngine (.limit i) y) :=
    (tripEngine_moved (.limit i) y).notified.congr rfl rfl
  refine ⟨by rw [hengine]; exact hstate, by rw [hengine]; exact htrip, hcloses.left hj.left,
    (hnoted.trans (hj.notified.mono (by decide))).kept, fun inv => ?_⟩
  have hy : EngineInv y := inv.congr {}
  exact (tripEngine_taken (s := y) h hy).1.judged hj

/-! ## Pauses and resumptions in words (R102, R103) -/

theorem paused_timed (hi : i < 16) (timer : Timer) {due : Nat} (hcount : s.engine.countTimer = .running due) :
    let t := judgeLine i moved (withEngine (pausedAt timer (setPin i level s)) (setPin i level s))
    PointTimed i s t ∧ t.engine.point.paused = true ∧ t.engine.countTimer = .held (due - nowMs s) ∧
      t.engine.point.pulses = s.engine.point.pulses ∧ t.engine.point.pausedMs = s.engine.point.pausedMs ∧
      t.engine.pauseTimer = timer := by
  obtain ⟨htimed, hengine⟩ := pointTimed (level := level) (moved := moved) (s := s) hi
    { s.engine.point with paused := true, pausedSince := some (nowMs s) } (.held (due - nowMs s)) timer
  have hpaused : pausedAt timer (setPin i level s) = { s.engine with
      point := { s.engine.point with paused := true, pausedSince := some (nowMs s) }
      countTimer := .held (due - nowMs s), pauseTimer := timer } := by
    have hcount' : (setPin i level s).engine.countTimer = .running due := hcount
    simp only [pausedAt, hcount', Timer.hold]
    rfl
  rw [hpaused]
  exact ⟨htimed, by rw [hengine], by rw [hengine], by rw [hengine], by rw [hengine], by rw [hengine]⟩

theorem pause_first (hi : i < 16) {due : Nat} (hcount : s.engine.countTimer = .running due)
    (hstopped : s.engine.pauseTimer = .stopped) :
    let t := judgeLine i moved (pausePoint (setPin i level s))
    PointTimed i s t ∧ t.engine.point.paused = true ∧ t.engine.countTimer = .held (due - nowMs s) ∧
      t.engine.point.pulses = s.engine.point.pulses ∧
      t.engine.pauseTimer = if (activeDefinition s).pauseLimit = 0 then .stopped
        else .running (nowMs s + (activeDefinition s).pauseLimit * 1000) := by
  let y := setPin i level s
  have hnow : nowMs y = nowMs s := rfl
  have htimer : pauseTimerAtPause y = if (activeDefinition s).pauseLimit = 0 then .stopped
    else .running (nowMs s + (activeDefinition s).pauseLimit * 1000) := (pauseTimerAtPause_eq y).1 hstopped
  have hpauses := pausePoint_pauses htimer (fun h => by
    split at h
    · cases h
    · have hsum := Timer.running.inj h
      omega) fun due' h => by
    split at h
    · cases h
    · have hsum := Timer.running.inj h
      omega
  rw [hpauses]
  obtain ⟨htimed, hpaused, hheld, hpulses, -, hpause⟩ := paused_timed (level := level) (moved := moved) hi _ hcount
  exact ⟨htimed, hpaused, hheld, hpulses, hpause⟩

theorem pause_again (hi : i < 16) {due left : Nat} (hcount : s.engine.countTimer = .running due)
    (hheld : s.engine.pauseTimer = .held left) (hlimit : (activeDefinition s).pauseLimit ≠ 0) :
    let t := judgeLine i moved (pausePoint (setPin i level s))
    (left ≠ 0 → PointTimed i s t ∧ t.engine.point.paused = true ∧ t.engine.countTimer = .held (due - nowMs s) ∧
      t.engine.point.pulses = s.engine.point.pulses ∧ t.engine.point.pausedMs = s.engine.point.pausedMs ∧
      t.engine.pauseTimer = .running (nowMs s + left)) ∧
    (left = 0 → PointRestarts true s t ∧ KeepsBut [.engine, .results, .lines, .notices] s t ∧ PinJudged i s t) := by
  let y := setPin i level s
  have hnow : nowMs y = nowMs s := rfl
  have htimer : pauseTimerAtPause y = .running (nowMs s + left) := (pauseTimerAtPause_eq y).2 left hheld hlimit
  refine ⟨fun hne => ?_, fun hzero => ?_⟩
  · have hpauses := pausePoint_pauses htimer (fun h => by
      have hsum := Timer.running.inj h
      omega) fun due' h => by
      have hsum := Timer.running.inj h
      omega
    rw [hpauses]
    exact paused_timed hi _ hcount
  · subst hzero
    have hspent := pausePoint_spent htimer
    have hkeeps : KeepsBut [.engine, .results] y (pausePoint y) := pausePoint_keeps y
    rw [hspent] at hkeeps ⊢
    obtain ⟨hengine, hnewest⟩ := restartPoint_paused (.running (nowMs y + 0)) y
    generalize hx : restartPoint (withEngine (pausedAt (.running (nowMs y + 0)) y) y) = x at *
    have hj := judgeLine_lineJudged i moved x
    refine ⟨⟨(judgeLine_engine x).trans hengine, ?_⟩, (judged_keeps hkeeps).mono (by decide),
      pinJudged_of_quiet hi (by subst hx; exact ⟨rfl, rfl⟩)⟩
    unfold NewestBecomes at hnewest ⊢
    rw [hj.left.results]
    exact hnewest

theorem resume_ends {left : Nat} (hzero : left = 0) (hwait : s.engine.point.restartWait = false)
    (hpaused : s.engine.point.paused = true) (hcount : s.engine.countTimer = .held left) :
    let t := judgeLine i moved (settledActivation (setPin i level s))
    PointEnds { s with engine := { s.engine with point := { s.engine.point with paused := false } } } t ∧
      KeepsBut runBlocks s t ∧ NoticesKeptBut passSources s t := by
  let y := setPin i level s
  have hends := settledActivation_resumes (s := y) hwait hpaused hcount
  rw [if_pos hzero] at hends
  have hj := judgeLine_lineJudged i moved (settledActivation y)
  obtain ⟨hpoint, hmoved⟩ := endPoint_ends (withEngine (resumedAt left y) y)
  have hkeeps : KeepsBut runBlocks y (settledActivation y) := by
    rw [hends]
    exact ((withEngine_keeps _ y).mono (by decide)).trans (endPoint_keeps _)
  have hnoted : Notified passSources s (settledActivation y) := by
    rw [hends]
    exact hmoved.notified.congr rfl rfl
  refine ⟨?_, (judged_keeps hkeeps).mono (by decide), (hnoted.trans (hj.notified.mono (by decide))).kept⟩
  rw [← hends] at hpoint
  have hresumed := pointEnds_resumed hpoint
  exact hresumed.left hj.left (hj.keeps .plan (by decide))

end handedOn

/-! ## The whole passage (R177) -/

/-- What is handed on changes the permit at most once, for every function but ACK_IN. -/
theorem handed_moved {fn : LineFunction} (h : fn ≠ .ackIn) (i : Nat) (active : Bool) (s : State) :
    KeepsBut runBlocks s (handed i fn active s) ∧ PermitMoved (13 :: passSources) s (handed i fn active s) := by
  have hsame : KeepsBut runBlocks s s ∧ PermitMoved (13 :: passSources) s s := ⟨.refl _ s, .refl _ s⟩
  cases fn
  case ackIn => exact absurd rfl h
  case meterIn =>
    rw [handed_meterIn]
    split
    · exact ⟨(withEngine_keeps _ s).mono (by decide), ⟨.of_eq rfl, .of_eq rfl⟩⟩
    · exact hsame
  case settledIn =>
    have hunfolded : handed i .settledIn active s = if s.lines.tripHold then s else settledPassage active s := rfl
    rw [hunfolded]
    split
    · exact hsame
    · exact ⟨settledPassage_keeps active s, (settledPassage_moved active s).mono (by decide)⟩
  case limitIn =>
    cases active
    · exact hsame
    · exact ⟨tripEngine_keeps _ s, tripEngine_moved _ s⟩
  all_goals exact hsame

theorem handed_ackIn (i : Nat) (active : Bool) (s : State) :
    handed i .ackIn active s = if active = true then takeSilence s else s := by
  cases active <;> rfl

/-- The trip hold apart, what is handed on by the pin change of an input line is what statements name. -/
theorem judged_passage {i : Nat} {fn : LineFunction} {active moved : Bool} {level : Level} {s : State} {p : Prop}
    (hi : i < 16) (hp : active = true ↔ p) :
    PassageHanded i fn p s (judgeLine i moved (handed i fn active (setPin i level s))) := by
  have honly (h : handed i fn active (setPin i level s) = setPin i level s) :
      PinOnly i s (judgeLine i moved (handed i fn active (setPin i level s))) := by
    rw [h]
    exact pinOnly hi
  have hinactive (h : ¬ p) : active = false := by rw [← Bool.not_eq_true, hp]; exact h
  have hsettled (hfn : fn = .settledIn) (hs : (s.engine.state = .counting ∧ s.lines.permit ≠ .withdrawn) ∧
      (activeDefinition s).settledSense = .level) : handed i fn active (setPin i level s) =
        if active = true then settledActivation (setPin i level s) else settledDeactivation (setPin i level s) := by
    subst hfn
    exact (handed_settledIn i active (setPin i level s)).trans (if_pos hs)
  refine ⟨fun h => honly ?_, fun hfn ha hc hpaused hwait => ?_, fun hfn ha h => honly ?_, fun hfn ha h => honly ?_,
    fun hfn ha h => ?_, fun hfn ha h => ?_, fun hfn h => honly ?_, fun hfn => ?_, fun hfn h => honly ?_,
    fun due hfn ha hs hpaused hwait hcount hstopped => ?_,
    fun due left hfn ha hs hpaused hwait hcount hheld hlimit => ?_,
    fun hfn ha hs hwait hpaused hcount => ?_, fun left hfn ha hs hwait hpaused hcount hne => ?_,
    fun hfn ha hs hwait => ?_⟩
  · obtain rfl | rfl | ⟨k, rfl⟩ | ⟨hfn, ha⟩ := h
    · rfl
    · rfl
    · rfl
    · rw [hinactive ha]
      cases fn
      case settledIn => exact absurd rfl hfn
      all_goals rfl
  · subst hfn
    have hcounted : handed i .meterIn active (setPin i level s) = withEngine { s.engine with
        point := { s.engine.point with pulses := min 65535 (s.engine.point.pulses + 1) } } (setPin i level s) :=
      (handed_meterIn i active (setPin i level s)).trans (if_pos ⟨hp.2 ha, hc.2, hc.1, hpaused, hwait⟩)
    rw [hcounted]
    exact ⟨(judged_keeps (withEngine_keeps _ _)).mono (by decide), pinJudged_of_quiet hi ⟨rfl, rfl⟩,
      judgeLine_engine _⟩
  · subst hfn
    refine (handed_meterIn i active (setPin i level s)).trans (if_neg fun ⟨_, hpermit, hstate, hpaused, hwait⟩ => ?_)
    obtain h | h | h := h
    · exact h ⟨hstate, hpermit⟩
    · exact absurd (h.symm.trans hpaused) nofun
    · exact absurd (h.symm.trans hwait) nofun
  · subst hfn
    rw [hp.2 ha]
    exact if_pos h
  · subst hfn
    rw [hp.2 ha]
    exact limit_trips h
  · subst hfn
    rw [hp.2 ha]
    exact takeSilence_silences h
  · subst hfn
    have hcalm : takeSilence (setPin i level s) = setPin i level s := if_pos h
    rw [handed_ackIn, hcalm, ite_self]
  · obtain ⟨hkeeps, hmoved⟩ := handed_moved hfn i active (setPin i level s)
    have hj := judgeLine_lineJudged i moved (handed i fn active (setPin i level s))
    exact ⟨(hj.keeps .warning (by decide)).trans (hkeeps .warning (by decide)), hj.warnKept.trans hmoved.step.1⟩
  · by_cases hs : (s.engine.state = .counting ∧ s.lines.permit ≠ .withdrawn) ∧
        (activeDefinition s).settledSense = .level
    · rw [hsettled hfn hs]
      obtain h | ⟨ha, hpaused, hwait⟩ | ⟨ha, h⟩ := h
      · exact absurd hs h
      · rw [if_pos (hp.2 ha)]
        exact settledActivation_running (s := setPin i level s) hwait hpaused
      · rw [hinactive ha]
        refine (if_neg Bool.false_ne_true).trans (if_pos ?_)
        rw [Bool.or_eq_true]
        exact h.symm
    · subst hfn
      exact (handed_settledIn i active (setPin i level s)).trans (if_neg hs)
  · rw [hsettled hfn hs, hinactive ha, if_neg Bool.false_ne_true]
    rw [settledDeactivation_pauses (s := setPin i level s) hwait hpaused]
    exact pause_first hi hcount hstopped
  · rw [hsettled hfn hs, hinactive ha, if_neg Bool.false_ne_true]
    rw [settledDeactivation_pauses (s := setPin i level s) hwait hpaused]
    exact pause_again hi hcount hheld hlimit
  · rw [hsettled hfn hs, if_pos (hp.2 ha)]
    exact resume_ends rfl hwait hpaused hcount
  · rw [hsettled hfn hs, if_pos (hp.2 ha), settledActivation_resumes (s := setPin i level s) hwait hpaused hcount,
      if_neg hne]
    obtain ⟨htimed, hengine⟩ := pointTimed (level := level) (moved := moved) (s := s) hi
      { s.engine.point with paused := false, pausedMs := pausedNow s, pausedSince := none }
      (.running (nowMs s + left)) (s.engine.pauseTimer.hold (nowMs s))
    exact ⟨htimed, congrArg (fun e => e.point.paused) hengine, congrArg RunEngine.countTimer hengine,
      congrArg RunEngine.pauseTimer hengine⟩
  · rw [hsettled hfn hs, if_pos (hp.2 ha), settledActivation_waiting (s := setPin i level s) hwait]
    obtain ⟨htimed, hengine⟩ := pointTimed (level := level) (moved := moved) (s := s) hi
      { s.engine.point with restartWait := false, paused := false, pausedSince := none }
      (.running (nowMs s + s.engine.vertical.countTime * 1000)) s.engine.pauseTimer
    exact ⟨htimed, congrArg (fun e => e.point.restartWait) hengine, congrArg (fun e => e.point.paused) hengine,
      congrArg RunEngine.countTimer hengine⟩

end Sys2Proof.Machine
end

section
/-! SUPPORT. The level a pin takes, and what its change does (R176, R177, R184). -/

namespace Sys2Proof.Machine

/-! ## The lines through a pin change (R176, R184) -/

theorem handed_follows (i : Nat) (fn : LineFunction) (active : Bool) (s : State) :
    LinesFollow s (handed i fn active s) := by
  by_cases h : fn = .ackIn
  · subst h
    rw [handed_ackIn]
    have hsilent : LinesFollow s (takeSilence s) := by
      unfold takeSilence
      split
      · exact (DrivenStep.of_eq rfl).follows
      · let x := raise .silenced { s with warning := { s.warning with silence := true } }
        have hstep : DrivenStep s (formOutputs x) := (formOutputs_driven x).1.congr (l := []) rfl rfl (.refl _ _)
        exact hstep.follows
    split
    · exact hsilent
    · exact (DrivenStep.of_eq rfl).follows
  · exact (handed_moved h i active s).2.step.follows

/-- An input line whose function is none that the permit drives presents the same whatever the permit. -/
theorem presented_input {f g : FieldLines} {l m : FieldLine} (hd : l.direction = .input) (hfn : l.function ≠ .permitOut)
    (hd' : m.direction = l.direction) (hfn' : m.function = l.function) (hpull : m.pullUp = l.pullUp) :
    g.presented m = f.presented l := by
  simp [FieldLines.presented, FieldLines.drive, FieldLines.pullUpActs, hd, hd', hfn', hpull, beq_eq_false_iff_ne.2 hfn]

/-- What is handed on leaves the input line of which it is the passage. -/
theorem handed_line {i : Nat} {active : Bool} {s : State} (hi : i < 16) (hd : (lineAt s i).direction = .input) :
    lineAt (handed i (lineAt s i).function active s) i = lineAt s i := by
  by_cases hfn : (lineAt s i).function = .permitOut
  · rw [hfn]
    rfl
  · have hfollows := handed_follows i (lineAt s i).function active s i hi
    have hpull : (lineAt (handed i (lineAt s i).function active s) i).pullUp = (lineAt s i).pullUp := by
      rw [hfollows.line_eq]
    exact hfollows.2.1 (presented_input hd hfn hfollows.config.1 hfollows.function_eq hpull)

theorem judgeLine_lineAt {i j : Nat} {moved : Bool} {s : State} (hj : j < 16) :
    lineAt (judgeLine i moved s) j =
      if j = i then { lineAt s i with changed := (lineAt s i).changed || (moved && (lineAt s i).arm) }
      else lineAt s j := by
  unfold judgeLine
  by_cases h : (moved && (lineAt s i).arm) = true
  · rw [if_pos h, h]
    by_cases hji : j = i
    · subst hji
      rw [if_pos rfl, Bool.or_true]
      exact at'_put_self _ hj _
    · rw [if_neg hji]
      exact at'_put_other _ hji _
  · have hstill : (moved && (lineAt s i).arm) = false := by simpa using h
    rw [if_neg h, hstill]
    by_cases hji : j = i
    · subst hji
      rw [if_pos rfl, Bool.or_false]
    · rw [if_neg hji]

/-- A line other than the one that is judged or set sees no change. -/
theorem lineUntouched_of {j : Nat} {s t : State} (hline : lineAt t j = lineAt s j)
    (hpermit : t.lines.permit = s.lines.permit) (hkept : t.lines.warnKept = s.lines.warnKept) :
    LineUntouched j s t := by
  obtain ⟨hpresented, hwatched, -⟩ := FieldLines.see_eq hpermit hkept
  exact ⟨hline, by rw [hpresented], by rw [hwatched]⟩

/-- The lines after the pin change of an input line. -/
theorem pinChange_lines {i : Nat} {level : Level} {s : State} (hi : i < 16) (hd : (lineAt s i).direction = .input)
    (hpin : (lineAt s i).pin ≠ level) :
    let t := pinChange i level s
    lineAt t i = { lineAt s i with
      pin := level, changed := (lineAt s i).changed || (lineAt s i).arm } ∧
    ((lineAt s i).arm = true → PendingWhereRouted 17 t) ∧
    ∀ j, j < 16 → j ≠ i → LineFollows j s t := by
  rw [pinChange_input hi hd hpin]
  have hset := lineAt_setPin hi level s
  have hfn : (lineAt (setPin i level s) i).function = (lineAt s i).function := by rw [hset]
  have hhanded := handed_line (active := level == (lineAt s i).polarity) hi
    (show (lineAt (setPin i level s) i).direction = .input by rw [hset]; exact hd)
  rw [hfn, hset] at hhanded
  have hfollows := handed_follows i (lineAt s i).function (level == (lineAt s i).polarity) (setPin i level s)
  generalize handed i (lineAt s i).function (level == (lineAt s i).polarity) (setPin i level s) = x at *
  have hj := judgeLine_lineJudged i true x
  refine ⟨?_, fun harm => ?_, fun j hj16 hji => ?_⟩
  · rw [judgeLine_lineAt hi, if_pos rfl, hhanded]
    simp
  · have harm' : (lineAt x i).arm = true := by rw [hhanded]; exact harm
    unfold judgeLine
    rw [if_pos (by rw [harm']; rfl)]
    exact raise_pendingWhereRouted .lineChange _
  · have hfirst : LineUntouched j s (setPin i level s) := lineUntouched_of (at'_put_other _ hji _) rfl rfl
    have hlast : LineUntouched j x (judgeLine i true x) :=
      lineUntouched_of (by rw [judgeLine_lineAt hj16, if_neg hji]) hj.permit hj.warnKept
    exact (hfirst.then_follows (hfollows j hj16)).then_untouched hlast
      (hj.notified.pending (by decide) (by decide))

/-! ## Another configuration of the lines -/

section relined
variable {s t : State} {line : Vector FieldLine 16}

theorem KeepsBut.relined {bs : List Block} (h : KeepsBut bs { s with lines := { s.lines with line := line } } t)
    (hb : .lines ∈ bs) : KeepsBut bs s t := by
  refine KeepsBut.trans ?_ h
  intro b hn
  cases b
  case lines => exact absurd hb hn
  all_goals rfl

theorem PinOnly.relined {i : Nat} (h : PinOnly i { s with lines := { s.lines with line := line } } t) :
    PinOnly i s t := ⟨h.1.relined (by decide), h.2⟩

theorem PointTimed.relined {i : Nat} (h : PointTimed i { s with lines := { s.lines with line := line } } t) :
    PointTimed i s t := ⟨h.1.relined (by decide), h.2⟩

/-- Two states that differ in the lines alone, not in the permit nor the driven values, hand a passage on alike. -/
theorem PassageHanded.relined {i : Nat} {fn : LineFunction} {p : Prop}
    (h : PassageHanded i fn p { s with lines := { s.lines with line := line } } t) : PassageHanded i fn p s t := by
  obtain ⟨hquiet, hpulse, hnoPulse, htripped, htrips, hsilences, hcalm, hwarning, hsensed, hpause, hagain, hends,
    hresumes, hwaits⟩ := h
  refine ⟨fun h => (hquiet h).relined, fun hfn ha hc hp hw => ?_, fun hfn ha h => (hnoPulse hfn ha h).relined,
    fun hfn ha h => (htripped hfn ha h).relined, fun hfn ha hs => ?_, fun hfn ha hl => ?_,
    fun hfn hl => (hcalm hfn hl).relined, hwarning, fun hfn h => (hsensed hfn h).relined,
    fun due hfn ha hs hp hw hc ht => ?_, fun due left hfn ha hs hp hw hc ht hl => ?_, fun hfn ha hs hw hp hc => ?_,
    fun left hfn ha hs hw hp hc hl => ?_, fun hfn ha hs hw => ?_⟩
  · obtain ⟨hkeeps, hrest⟩ := hpulse hfn ha hc hp hw
    exact ⟨hkeeps.relined (by decide), hrest⟩
  · obtain ⟨hstate, htrip, hcloses, hnotices, htaken⟩ := htrips hfn ha hs
    exact ⟨hstate, htrip, hcloses, hnotices, fun inv => htaken (inv.congr {})⟩
  · obtain ⟨hsilent, hkeeps, hrest⟩ := hsilences hfn ha hl
    exact ⟨hsilent, hkeeps.relined (by decide), hrest⟩
  · obtain ⟨htimed, hrest⟩ := hpause due hfn ha hs hp hw hc ht
    exact ⟨htimed.relined, hrest⟩
  · obtain ⟨hleft, hspent⟩ := hagain due left hfn ha hs hp hw hc ht hl
    refine ⟨fun h => ?_, fun h => ?_⟩
    · obtain ⟨htimed, hrest⟩ := hleft h
      exact ⟨htimed.relined, hrest⟩
    · obtain ⟨hrestarts, hkeeps, hjudged⟩ := hspent h
      exact ⟨hrestarts, hkeeps.relined (by decide), hjudged⟩
  · obtain ⟨hpoint, hkeeps, hnotices⟩ := hends hfn ha hs hw hp hc
    exact ⟨hpoint, hkeeps.relined (by decide), hnotices⟩
  · obtain ⟨htimed, hrest⟩ := hresumes left hfn ha hs hw hp hc hl
    exact ⟨htimed.relined, hrest⟩
  · obtain ⟨htimed, hrest⟩ := hwaits hfn ha hs hw
    exact ⟨htimed.relined, hrest⟩

end relined

/-! ## The outside forces a level (R176) -/

theorem lineAt_setForced {i : Nat} (hi : i < 16) (outside : Option Level) (s : State) :
    lineAt (setForced i outside s) i = { lineAt s i with forced := outside } := at'_put_self _ hi _

/-- The level that a pin takes is the one that statements name. -/
theorem TakesLevel.pinLevel {i : Nat} {outside : Option Level} {level : Level} {s : State} (hi : i < 16)
    (h : TakesLevel i outside level s) :
    (setForced i outside s).lines.pinLevel (lineAt (setForced i outside s) i) = level := by
  obtain ⟨hdriven, hopen⟩ := h
  rw [lineAt_setForced hi]
  let f := (setForced i outside s).lines
  let l := { lineAt s i with forced := outside }
  have hdrive : f.drive l = s.lines.drive (lineAt s i) := rfl
  have hpull : f.pullUpActs l = s.lines.pullUpActs (lineAt s i) := rfl
  by_cases hdrives : (lineAt s i).direction = .output ∧
      ¬ ((lineAt s i).function = .permitOut ∧ s.lines.permit = .withdrawn)
  · have hsome : s.lines.drive (lineAt s i) = some ((lineAt s i).levelFor (s.lines.value (lineAt s i))) := by
      simp only [FieldLines.drive, hdrives.1, if_neg hdrives.2]
    have hlevel : f.pinLevel l = (lineAt s i).levelFor (s.lines.value (lineAt s i)) := by
      simp only [FieldLines.pinLevel, hdrive, hsome]
    exact hlevel.trans (hdriven hdrives).symm
  · obtain ⟨hforced, hhigh, hstays⟩ := hopen hdrives
    have hnone : s.lines.drive (lineAt s i) = none := by
      cases hd : (lineAt s i).direction
      · simp only [FieldLines.drive, hd]
      · have hw : (lineAt s i).function = .permitOut ∧ s.lines.permit = .withdrawn := by
          by_contra hn
          exact hdrives ⟨hd, hn⟩
        simp only [FieldLines.drive, hd, if_pos hw]
    have hacts : s.lines.pullUpActs (lineAt s i) = true ↔ (lineAt s i).pullUp = true ∧
        ¬ ((lineAt s i).function = .permitOut ∧ s.lines.permit = .withdrawn) := by
      by_cases hfn : (lineAt s i).function = .permitOut <;> by_cases hw : s.lines.permit = .withdrawn <;>
        simp [FieldLines.pullUpActs, hnone, hfn, hw]
    have hlevel : f.pinLevel l = match outside with
        | some v => v
        | none => if s.lines.pullUpActs (lineAt s i) then .high else (lineAt s i).pin := by
      simp only [FieldLines.pinLevel, hdrive, hpull, hnone]
      cases outside <;> rfl
    refine hlevel.trans ?_
    cases outside with
    | some v => exact (hforced v rfl).symm
    | none =>
      by_cases hp : s.lines.pullUpActs (lineAt s i) = true
      · obtain ⟨hpullUp, hw⟩ := hacts.1 hp
        exact (if_pos hp).trans (hhigh rfl hpullUp hw).symm
      · refine (if_neg hp).trans (hstays rfl ?_).symm
        rw [hacts, not_and_or, Bool.not_eq_true, not_not] at hp
        exact hp

/-- LINE_PIN_CHANGE of a line that exists, by the level its pin takes. -/
theorem exec_linePinChange {i : Nat} {outside : Option Level} {level : Level} {s : State} (hi : i < 16)
    (h : TakesLevel i outside level s) :
    (level = (lineAt s i).pin → exec (.linePinChange i outside) s = .next (setForced i outside s)) ∧
    ((lineAt s i).pin ≠ level → s.ports.por = false →
      exec (.linePinChange i outside) s = .next (pinChange i level (setForced i outside s))) := by
  have hexec : exec (.linePinChange i outside) s = execLinePinChange i outside s := rfl
  have hline : ¬ 16 ≤ i := by omega
  rw [hexec, execLinePinChange, if_neg hline]
  dsimp only
  rw [h.pinLevel hi]
  refine ⟨fun hsame => by rw [if_pos hsame], fun hdiffers hpor => ?_⟩
  rw [if_neg (Ne.symm hdiffers), hpor, if_neg Bool.false_ne_true]

/-- The pin change of an output whose value does not read its pin. -/
theorem pinChange_output {i : Nat} {level : Level} {s : State} (hi : i < 16) (hd : (lineAt s i).direction = .output)
    (hfn : (lineAt s i).function = .general ∨ (lineAt s i).function = .permitOut ∨
      ∃ k, (lineAt s i).function = .warnOut k) : pinChange i level s = setPin i level s := by
  have hline := lineAt_setPin hi level s
  have hvalue : (setPin i level s).lines.value (lineAt (setPin i level s) i) = s.lines.value (lineAt s i) := by
    rw [hline]
    obtain h | h | ⟨k, h⟩ := hfn
    · simp only [FieldLines.value, h, hd]
    · simp only [FieldLines.value, h]
      rfl
    · simp only [FieldLines.value, h]
      rfl
  have hwatched : (setPin i level s).lines.watched (lineAt (setPin i level s) i) =
      s.lines.watched (lineAt s i) := by
    have hd' : (lineAt (setPin i level s) i).direction = .output := by rw [hline]; exact hd
    simp only [FieldLines.watched, hd, hd', hvalue]
  unfold pinChange
  dsimp only
  rw [hvalue, hwatched, bne_self_eq_false]
  simp only [handPassage, if_true, judgeLine, Bool.false_and, Bool.false_eq_true, if_false]

/-- The pin change of an input, its level forced or left open by the outside. -/
theorem linePinChange_input {i : Nat} {outside : Option Level} {level : Level} {s : State} (hi : i < 16)
    (hpin : (lineAt s i).pin ≠ level) (hd : (lineAt s i).direction = .input) :
    let old := lineAt s i
    let t := pinChange i level (setForced i outside s)
    KeepsBut (.warning :: runBlocks) s t ∧ (lineAt t i).pin = level ∧ (lineAt t i).forced = outside ∧
      (old.arm = true → (lineAt t i).changed = true ∧ PendingWhereRouted 17 t) ∧
      (old.arm = false → (lineAt t i).changed = old.changed) ∧
      { lineAt t i with pin := old.pin, forced := old.forced, changed := old.changed } = old ∧
      (∀ j, j < 16 → j ≠ i → LineFollows j s t) ∧
      PassageHanded i old.function (level = old.polarity) s t := by
  have hline := lineAt_setForced hi outside s
  have hd' : (lineAt (setForced i outside s) i).direction = .input := by rw [hline]; exact hd
  have hpin' : (lineAt (setForced i outside s) i).pin ≠ level := by rw [hline]; exact hpin
  obtain ⟨hnew, hraised, hothers⟩ := pinChange_lines hi hd' hpin'
  have hpassage : PassageHanded i (lineAt s i).function (level = (lineAt s i).polarity) (setForced i outside s)
      (pinChange i level (setForced i outside s)) := by
    rw [pinChange_input hi hd' hpin', hline]
    exact judged_passage hi beq_iff_eq
  rw [hline] at hnew hraised
  refine ⟨((setForced_keeps i outside s).mono (by decide)).trans (pinChange_keeps i level _), by rw [hnew],
    by rw [hnew], fun harm => ⟨by rw [hnew]; simp [harm], hraised harm⟩, fun harm => by rw [hnew]; simp [harm],
    by rw [hnew], fun j hj hji => ?_, hpassage.relined⟩
  have hforced : LineUntouched j s (setForced i outside s) := lineUntouched_of (at'_put_other _ hji _) rfl rfl
  exact hforced.then_follows (hothers j hj hji)

/-- Settles O52: the level a pin takes, and the pin change by direction and function. -/
theorem pinChanges : Obligations.PinChanges := by
  refine ⟨fun i outside s hi => congrArg Host.Outcome.next (if_pos hi),
    fun i outside s hi h => (exec_linePinChange hi h).1 rfl,
    fun i outside level s hpor hi h hpin hd hfn => ?_, fun i outside level s hpor hi h hpin hd =>
      ⟨_, (exec_linePinChange hi h).2 hpin hpor, linePinChange_input hi hpin hd⟩⟩
  have hline := lineAt_setForced hi outside s
  rw [(exec_linePinChange hi h).2 hpin hpor]
  exact congrArg Host.Outcome.next (pinChange_output hi (by rw [hline]; exact hd) (by rw [hline]; exact hfn))

end Sys2Proof.Machine
end

section
/-! SUPPORT. READ_LINES and WRITE_LINES (R180, R185). -/

namespace Sys2Proof.Machine

/-! ## READ_LINES (R185) -/

theorem clearReturned_line {i : Nat} (hi : i < 16) (s : State) :
    lineAt (clearReturned s) i = { lineAt s i with changed := false } := by
  have hmap : lineAt (clearReturned s) i =
      if (lineAt s i).changed then { lineAt s i with changed := false } else lineAt s i := at'_map _ _ hi
  rw [hmap]
  split
  · rfl
  · rename_i h
    rw [Bool.not_eq_true] at h
    rw [← h]

/-- READ_LINES by its operand. -/
theorem readLines_answers {p : Port} {clear : Nat} {s : State} (htake : Takes p 0x80 s) :
    (1 < clear → Refuses (.readLines p clear) p s ⟨.range, []⟩) ∧
    (clear = 1 → exec (.readLines p clear) s =
      .next (setReply p ⟨.ok, linesData s.lines⟩ (closeWindow p s))) ∧
    (clear = 0 → ∃ f, exec (.readLines p clear) s =
        .next (setReply p ⟨.ok, linesData s.lines⟩ { closeWindow p s with lines := f }) ∧
      { f with line := s.lines.line } = s.lines ∧
      ∀ i, i < 16 → at' f.line i = { lineAt s i with changed := false }) := by
  refine ⟨fun h => refuses_owner htake rfl ?_ rfl, fun h => ?_, fun h => ?_⟩
  · match clear with
    | _ + 2 => rfl
  · subst h
    exact exec_owner htake rfl rfl
  · subst h
    exact ⟨(clearReturned (closeWindow p s)).lines, exec_owner htake rfl rfl, rfl, fun i hi => clearReturned_line hi _⟩

/-! ## WRITE_LINES (R180) -/

theorem writeLatches_line {i : Nat} (hi : i < 16) (mask : BitVec 16) (values : Vector Nat 16) (f : FieldLines) :
    at' (writeLatches mask values f).line i = if latchWritten mask i (at' f.line i) then
      { at' f.line i with latch := at' values i == 0 } else at' f.line i := by
  simp [writeLatches, at', hi]

/-- A line of new contents with its pin settled against what it was. -/
def settledLine (f g : FieldLines) (old l : FieldLine) : FieldLine :=
  if f.presented l = g.presented old then l else { l with pin := f.pinLevel l }

theorem settlePins_at {f g : FieldLines} {i : Nat} (hi : i < 16) :
    at' (f.settlePins g).line i = settledLine f g (at' g.line i) (at' f.line i) := by
  simp [FieldLines.settlePins, settledLine, at', hi]

/-- Whether new contents change the watched value of an armed line. -/
def lineTold (f : FieldLines) (s : State) (i : Nat) : Bool :=
  let m := settledLine f s.lines (lineAt s i) (at' f.line i)
  m.arm && (s.lines.watched (lineAt s i) != f.watched m)

theorem lineMoved_told {f : FieldLines} {s : State} {i : Nat} (hi : i < 16) :
    lineMoved s.lines (f.settlePins s.lines) i = lineTold f s i := by
  have hwatched : (f.settlePins s.lines).watched = f.watched := (FieldLines.see_eq rfl rfl).2.1
  rw [lineMoved, settlePins_at hi, hwatched]
  rfl

/-- What new contents make of the lines (R176, R184). -/
theorem changeLines_told (f : FieldLines) (s : State) {i : Nat} (hi : i < 16) :
    let m := settledLine f s.lines (lineAt s i) (at' f.line i)
    lineAt (changeLines f s) i = (if lineTold f s i then { m with changed := true } else m) ∧
      (lineTold f s i = true → PendingWhereRouted 17 (changeLines f s)) := by
  refine ⟨?_, fun h => changeLines_raises f s hi ((lineMoved_told hi).trans h)⟩
  simp only [lineAt, changeLines, judgeLines, raiseIf_lines]
  rw [at'_eq _ hi, Vector.getElem_mapIdx, ← at'_eq _ hi, lineMoved_told hi, settlePins_at hi]

/-- A line that a WRITE_LINES leaves with its latch, or writes. -/
def writtenLine (mask : BitVec 16) (values : Vector Nat 16) (i : Nat) (l : FieldLine) : FieldLine :=
  if latchWritten mask i l then { l with latch := at' values i == 0 } else l

/-- The lines after a WRITE_LINES: pin and change of state follow a written output whose latch changes. -/
theorem writeLines_line {mask : BitVec 16} {values : Vector Nat 16} {s : State} {i : Nat} (hi : i < 16) :
    let t := changeLines (writeLatches mask values s.lines) s
    let old := lineAt s i
    let new := writtenLine mask values i old
    let moved := old.direction = .output ∧ new.latch ≠ old.latch
    (moved → lineAt t i = { new with pin := new.levelFor new.latch, changed := old.changed || old.arm } ∧
      (old.arm = true → PendingWhereRouted 17 t)) ∧
    (¬ moved → lineAt t i = new) := by
  intro t old new moved
  let f := writeLatches mask values s.lines
  have hnew : at' f.line i = new := writeLatches_line hi mask values s.lines
  obtain ⟨hpresented, hwatched, hpin⟩ := FieldLines.see_eq (f := f) (g := s.lines) rfl rfl
  obtain ⟨hline, hraised⟩ := changeLines_told f s hi
  have htold : lineTold f s i = ((settledLine f s.lines old new).arm &&
      (s.lines.watched old != s.lines.watched (settledLine f s.lines old new))) := by
    rw [lineTold, hnew, hwatched]
  rw [hnew] at hline
  refine ⟨fun ⟨hd, hlatch⟩ => ?_, fun hnot => ?_⟩
  · have hwritten : latchWritten mask i old = true := by
      by_contra h
      exact hlatch (congrArg FieldLine.latch (if_neg h))
    have hfn : old.function = .general := by
      have hboth := hwritten
      simp only [latchWritten, Bool.and_eq_true, beq_iff_eq] at hboth
      exact hboth.2
    have hset : new = { old with latch := at' values i == 0 } := if_pos hwritten
    have hd' : new.direction = .output := by rw [hset]; exact hd
    have hfn' : new.function = .general := by rw [hset]; exact hfn
    have harm : new.arm = old.arm := by rw [hset]
    have hdrives {l : FieldLine} (h : l.direction = .output) (h' : l.function = .general) :
        s.lines.drive l = some (l.levelFor l.latch) ∧ s.lines.watched l = l.latch := by
      simp [FieldLines.drive, FieldLines.watched, FieldLines.value, h, h']
    have hlevel : ∀ v, new.levelFor v = old.levelFor v := by rw [hset]; exact fun _ => rfl
    have hdiffers : f.presented new ≠ s.lines.presented old := by
      rw [hpresented]
      intro heq
      have hsame := congrArg Prod.fst heq
      simp only [FieldLines.presented, (hdrives hd' hfn').1, (hdrives hd hfn).1, hlevel] at hsame
      exact hlatch (levelFor_injective _ (Option.some.inj hsame))
    have hsettled : settledLine f s.lines old new = { new with pin := new.levelFor new.latch } := by
      have hdrive : s.lines.pinLevel new = new.levelFor new.latch := by
        simp only [FieldLines.pinLevel, (hdrives hd' hfn').1]
      exact (if_neg hdiffers).trans (by rw [hpin, hdrive])
    have hwatch : s.lines.watched { new with pin := new.levelFor new.latch } = new.latch :=
      (hdrives (l := { new with pin := new.levelFor new.latch }) hd' hfn').2
    have harmed : lineTold f s i = old.arm := by
      rw [htold, hsettled, hwatch, (hdrives hd hfn).2, harm]
      have hne : (old.latch != new.latch) = true := bne_iff_ne.2 (Ne.symm hlatch)
      rw [hne, Bool.and_true]
    have hchanged : new.changed = old.changed := by rw [hset]
    rw [harmed, hsettled] at hline
    refine ⟨hline.trans ?_, fun h => hraised (harmed.trans h)⟩
    cases harm' : old.arm
    · simp [hchanged]
    · simp
  · have hsame : f.presented new = s.lines.presented old ∧ s.lines.watched new = s.lines.watched old := by
      rw [hpresented]
      by_cases hwritten : latchWritten mask i old = true
      · have hset : new = { old with latch := at' values i == 0 } := if_pos hwritten
        cases hd : old.direction
        · rw [hset]
          simp [FieldLines.presented, FieldLines.drive, FieldLines.pullUpActs, FieldLines.watched, FieldLine.pinState,
            hd]
        · have hlatch : new.latch = old.latch := by
            by_contra h
            exact hnot ⟨hd, h⟩
          have hkept : new = old := by
            have hvalue : (at' values i == 0) = old.latch := (congrArg FieldLine.latch hset).symm.trans hlatch
            rw [hset, hvalue]
          rw [hkept]
          exact ⟨rfl, rfl⟩
      · have hset : new = old := if_neg hwritten
        rw [hset]
        exact ⟨rfl, rfl⟩
    have hsettled : settledLine f s.lines old new = new := if_pos hsame.1
    rw [htold, hsettled, hsame.2, bne_self_eq_false, Bool.and_false] at hline
    exact hline

/-- What a written line keeps, and what its latch becomes. -/
structure LineWritten (mask : BitVec 16) (values : Vector Nat 16) (i : Nat) (old new : FieldLine) : Prop where
  latch : mask.getLsbD i = true ∧ old.function = .general → (new.latch = true ↔ at' values i = 0)
  kept : ¬ (mask.getLsbD i = true ∧ old.function = .general) → new.latch = old.latch
  config : { new with latch := old.latch } = old

theorem writtenLine_written (mask : BitVec 16) (values : Vector Nat 16) (i : Nat) (l : FieldLine) :
    LineWritten mask values i l (writtenLine mask values i l) := by
  have hwritten : latchWritten mask i l = true ↔ mask.getLsbD i = true ∧ l.function = .general := by
    simp [latchWritten]
  unfold writtenLine
  split
  · rename_i h
    exact ⟨fun _ => beq_iff_eq, fun hn => absurd (hwritten.1 h) hn, rfl⟩
  · rename_i h
    exact ⟨fun hw => absurd (hwritten.2 hw) h, fun _ => rfl, rfl⟩

/-- The values of a WRITE_LINES are in range. -/
theorem values_iff (values : Vector Nat 16) :
    (values.all fun v => v ≤ 1) = true ↔ ∀ i, i < 16 → at' values i ≤ 1 := by
  rw [Vector.all_eq_true]
  refine ⟨fun h i hi => ?_, fun h i hi => ?_⟩
  · rw [at'_eq _ hi]
    simpa using h i hi
  · have hvalue := h i hi
    rw [at'_eq _ hi] at hvalue
    simpa using hvalue

theorem writeLines_refuses {p : Port} {mask : BitVec 16} {values : Vector Nat 16} {s : State} (htake : Takes p 0x83 s)
    (h : ∃ i, i < 16 ∧ 1 < at' values i) : Refuses (.writeLines p mask values) p s ⟨.range, []⟩ := by
  refine refuses_owner htake rfl (if_neg ?_) rfl
  rw [values_iff]
  intro hall
  obtain ⟨i, hi, hbig⟩ := h
  exact absurd (hall i hi) (by omega)

theorem writeLines_taken {p : Port} {mask : BitVec 16} {values : Vector Nat 16} {s : State} (htake : Takes p 0x83 s)
    (h : ∀ i, i < 16 → at' values i ≤ 1) :
    ∃ t, exec (.writeLines p mask values) s = .next (setReply p ⟨.ok, writtenData mask s.lines⟩ t) ∧
      KeepsBut [.lines, .notices] (closeWindow p s) t ∧ t.lines.permit = s.lines.permit ∧
      t.lines.warnKept = s.lines.warnKept ∧ NoticesKeptBut [17] s t ∧
      ∀ i, i < 16 →
        let old := lineAt s i
        let written := mask.getLsbD i = true ∧ old.function = .general
        let moved := old.direction = .output ∧ (lineAt t i).latch ≠ old.latch
        (written → ((lineAt t i).latch = true ↔ at' values i = 0)) ∧
        (¬ written → (lineAt t i).latch = old.latch) ∧
        (moved → (lineAt t i).pin = (lineAt t i).levelFor (lineAt t i).latch) ∧
        (¬ moved → (lineAt t i).pin = old.pin) ∧
        (moved → old.arm = true → (lineAt t i).changed = true ∧ PendingWhereRouted 17 t) ∧
        (¬ moved ∨ old.arm = false → (lineAt t i).changed = old.changed) ∧
        (lineAt t i).function = old.function ∧ (lineAt t i).direction = old.direction ∧
        (lineAt t i).polarity = old.polarity ∧ (lineAt t i).arm = old.arm ∧
        (lineAt t i).pullUp = old.pullUp ∧ (lineAt t i).forced = old.forced := by
  let c := closeWindow p s
  have hexec : exec (.writeLines p mask values) s = .next (setReply p ⟨.ok, writtenData mask s.lines⟩
      (changeLines (writeLatches mask values c.lines) c)) := exec_owner htake rfl (if_pos ((values_iff values).2 h))
  have hnoted : Notified [17] s (changeLines (writeLatches mask values c.lines) c) :=
    (changeLines_notified _ c).congr rfl rfl
  refine ⟨_, hexec, changeLines_keeps _ c, changeLines_permit _ c, ?_, hnoted.kept, fun i hi => ?_⟩
  · rw [changeLines, judgeLines, raiseIf_lines]
    rfl
  · obtain ⟨hmoves, hstays⟩ := writeLines_line (mask := mask) (values := values) (s := c) hi
    obtain ⟨hlatch, hkept, hconfig⟩ := writtenLine_written mask values i (lineAt c i)
    have hfield {α : Type} (f : FieldLine → α) := congrArg f hconfig
    generalize writtenLine mask values i (lineAt c i) = new at *
    by_cases hm : (lineAt c i).direction = .output ∧ new.latch ≠ (lineAt c i).latch
    · obtain ⟨hline, hraised⟩ := hmoves hm
      rw [hline]
      refine ⟨hlatch, hkept, fun _ => rfl, fun h => absurd hm h, fun _ harm => ⟨?_, hraised harm⟩, fun h => ?_,
        hfield FieldLine.function, hfield FieldLine.direction, hfield FieldLine.polarity, hfield FieldLine.arm,
        hfield FieldLine.pullUp, hfield FieldLine.forced⟩
      · have harm' : (lineAt c i).arm = true := harm
        simp [harm']
      · have harm' : (lineAt c i).arm = false := h.resolve_left (not_not_intro hm)
        simp only [harm', Bool.or_false]
        rfl
    · rw [hstays hm]
      exact ⟨hlatch, hkept, fun h => absurd h hm, fun _ => hfield FieldLine.pin, fun h => absurd h hm,
        fun _ => hfield FieldLine.changed, hfield FieldLine.function, hfield FieldLine.direction,
        hfield FieldLine.polarity, hfield FieldLine.arm, hfield FieldLine.pullUp, hfield FieldLine.forced⟩

end Sys2Proof.Machine
end

section
/-! SUPPORT. CONFIGURE_LINE: its checks, and the new configuration presented with the pin change that it makes (R178,
R179). -/

namespace Sys2Proof.Machine

/-! ## The configuration that a request carries (R178, R179) -/

/-- A line configured with these values, its latch, pin and forced level kept and its change of state cleared. -/
def lineSet (fn : LineFunction) (direction : LineDirection) (polarity : Level) (pullUp arm : Bool) (l : FieldLine) :
    FieldLine :=
  { l with
    function := fn, direction := direction, polarity := polarity, pullUp := pullUp, arm := arm, changed := false }

theorem lineFields_iff (a : LineArgs) : firstFault (lineFieldsInRange a) = none ↔ a.line < 16 ∧
    (lineFunctionOf a.function a.output).isSome = true ∧
    (directionUnread a || (directionOf a.direction).isSome) = true ∧ (polarityOf a.polarity).isSome = true ∧
    (twoValuedOf a.pullUp).isSome = true ∧ (twoValuedOf a.arm).isSome = true := by
  rw [firstFault_none_iff]
  simp [lineFieldsInRange, within_iff, Nat.lt_succ_iff]

/-- A configuration in range, with the direction that its function fixes or that the request carries. -/
theorem configuredLine_set {a : LineArgs} {fn : LineFunction} (h : firstFault (lineFieldsInRange a) = none)
    (hfn : lineFunctionOf a.function a.output = some fn) (l : FieldLine) :
    ∃ direction polarity, polarityOf a.polarity = some polarity ∧
      (fn = .general → directionOf a.direction = some direction) ∧
      direction = directionFor fn direction ∧
      configuredLine a l =
        some (lineSet fn direction polarity (decide (a.pullUp = 0)) (decide (a.arm = 0)) l) := by
  obtain ⟨-, -, hdirection, hpolarity, hpull, harm⟩ := (lineFields_iff a).1 h
  obtain ⟨polarity, hp⟩ := Option.isSome_iff_exists.1 hpolarity
  obtain ⟨pullUp, hu⟩ := Option.isSome_iff_exists.1 hpull
  obtain ⟨arm, ha⟩ := Option.isSome_iff_exists.1 harm
  have hset : configuredLine a l = some (lineSet fn (directionFor fn ((directionOf a.direction).getD .input)) polarity
      pullUp arm l) := by
    simp only [configuredLine, hfn, hp, hu, ha]
    rfl
  rw [twoValuedOf_some hu, twoValuedOf_some ha] at hset
  refine ⟨_, polarity, hp, fun hgeneral => ?_, by cases fn <;> rfl, hset⟩
  subst hgeneral
  simp only [directionUnread, hfn, Bool.false_or] at hdirection
  obtain ⟨d, hd⟩ := Option.isSome_iff_exists.1 hdirection
  rw [hd]
  rfl

/-! ## The checks (R178) -/

/-- The other lines with a function, in order. -/
def otherLines (s : State) (line : Nat) (fn : LineFunction) : List Nat :=
  (List.range 16).filter fun i => i != line && (lineAt s i).function == fn

/-- As many other lines hold a function as may hold it. -/
def FunctionFull (s : State) (line : Nat) (fn : LineFunction) : Prop :=
  (fn = .limitIn ∧ 2 ≤ (otherLines s line fn).length) ∨
    (fn ≠ .general ∧ fn ≠ .limitIn ∧ 1 ≤ (otherLines s line fn).length)

theorem holdingLine_full {s : State} {line : Nat} {fn : LineFunction} (h : FunctionFull s line fn) :
    holdingLine s line fn = (otherLines s line fn).head? := by
  obtain ⟨rfl, hmany⟩ | ⟨hgeneral, hlimit, hmany⟩ := h
  · exact if_neg (by exact Nat.not_lt.2 hmany)
  · cases fn
    case general => exact absurd rfl hgeneral
    case limitIn => exact absurd rfl hlimit
    all_goals exact if_neg (Nat.not_lt.2 hmany)

theorem holdingLine_free {s : State} {line : Nat} {fn : LineFunction} (h : ¬ FunctionFull s line fn) :
    holdingLine s line fn = none := by
  obtain ⟨hlimit, hothers⟩ := not_or.1 h
  cases fn
  case general => rfl
  case limitIn => exact if_pos (Nat.not_le.1 fun hmany => hlimit ⟨rfl, hmany⟩)
  all_goals exact if_pos (Nat.not_le.1 fun hmany => hothers ⟨nofun, nofun, hmany⟩)

theorem runningLineChanges_iff (s : State) (old new : FieldLine) : runningLineChanges s old new = true ↔
    s.plan.activeSlot ≠ none ∧
      (old.function = .meterIn ∨ old.function = .settledIn ∨ old.function = .permitOut) ∧
      (new.function ≠ old.function ∨ new.polarity ≠ old.polarity) := by
  simp only [runningLineChanges, Bool.and_eq_true, Bool.or_eq_true, beq_iff_eq, bne_iff_ne, Option.isSome_iff_ne_none,
    or_assoc, and_assoc, ne_comm]

theorem settledLineTaken_iff (s : State) (old new : FieldLine) : settledLineTaken s old new = true ↔
    (∃ k, k ≤ 3 ∧ (slotAt s k).armed = true ∧ (slotAt s k).definition.settledSense = .level) ∧
      old.function = .settledIn ∧ new.function ≠ .settledIn := by
  simp only [settledLineTaken, Bool.and_eq_true, beq_iff_eq, bne_iff_ne, List.any_eq_true, List.mem_range]
  constructor
  · rintro ⟨⟨hold, hnew⟩, k, hk, harmed, hsense⟩
    exact ⟨⟨k, by omega, harmed, hsense⟩, hold, hnew⟩
  · rintro ⟨⟨k, hk, harmed, hsense⟩, hold, hnew⟩
    exact ⟨⟨hold, hnew⟩, k, by omega, harmed, hsense⟩

/-- A new configuration would change the meaning of a line that a gauging or an armed slot reads. -/
def LineInUse (s : State) (old new : FieldLine) : Prop :=
  (s.plan.activeSlot ≠ none ∧
      (old.function = .meterIn ∨ old.function = .settledIn ∨ old.function = .permitOut) ∧
      (new.function ≠ old.function ∨ new.polarity ≠ old.polarity)) ∨
    ((∃ k, k ≤ 3 ∧ (slotAt s k).armed = true ∧ (slotAt s k).definition.settledSense = .level) ∧
      old.function = .settledIn ∧ new.function ≠ .settledIn)

theorem lineRefusal_eq (s : State) (line : Nat) (new : FieldLine) :
    (FunctionFull s line new.function → ∀ j rest, otherLines s line new.function = j :: rest →
      lineRefusal s line new = some ⟨.range, u8 j⟩) ∧
    (¬ FunctionFull s line new.function → LineInUse s (lineAt s line) new →
      lineRefusal s line new = some ⟨.inUse, []⟩) ∧
    (¬ FunctionFull s line new.function → ¬ LineInUse s (lineAt s line) new → lineRefusal s line new = none) := by
  have huse : (runningLineChanges s (lineAt s line) new || settledLineTaken s (lineAt s line) new) = true ↔
      LineInUse s (lineAt s line) new := by
    rw [Bool.or_eq_true, runningLineChanges_iff, settledLineTaken_iff]
    rfl
  refine ⟨fun hfull j rest hj => ?_, fun hfree hin => ?_, fun hfree hout => ?_⟩
  · simp only [lineRefusal, holdingLine_full hfull, hj, List.head?_cons]
    rfl
  · simp only [lineRefusal, holdingLine_free hfree]
    exact if_pos (huse.2 hin)
  · simp only [lineRefusal, holdingLine_free hfree]
    exact if_neg (mt huse.1 hout)

theorem configureLine_refuses_range {p : Port} {a : LineArgs} {f : Nat} {s : State} (htake : Takes p 0x82 s)
    (h : firstFault (lineFieldsInRange a) = some f) : Refuses (.configureLine p a) p s ⟨.range, u8 f⟩ := by
  refine refuses_owner htake rfl ?_ rfl
  simp only [h]
  rfl

/-- A CONFIGURE_LINE in range, refused or taken as its checks say. -/
theorem configureLine_checked {p : Port} {a : LineArgs} {new : FieldLine} {s : State} (htake : Takes p 0x82 s)
    (h : firstFault (lineFieldsInRange a) = none) (hnew : configuredLine a (lineAt s a.line) = some new) :
    (∀ r, lineRefusal s a.line new = some r → r.status.isRefusal = true → Refuses (.configureLine p a) p s r) ∧
      (lineRefusal s a.line new = none → exec (.configureLine p a) s = .next (setReply p
        ⟨.ok, lineConfigData (lineAt s a.line)⟩ (configureLine a.line new (closeWindow p s)))) := by
  have hnew' : configuredLine a (lineAt (closeWindow p s) a.line) = some new := hnew
  refine ⟨fun r hr hrefuse => refuses_owner htake rfl ?_ hrefuse, fun hr => exec_owner htake rfl ?_⟩
  · have hr' : lineRefusal (closeWindow p s) a.line new = some r := hr
    simp only [h, hnew', hr']
  · have hr' : lineRefusal (closeWindow p s) a.line new = none := hr
    simp only [h, hnew', hr']
    rfl

end Sys2Proof.Machine
end

section
/-! SUPPORT. A new configuration with its drive and pull-up set, and the pin change that follows under it (R176,
R179). -/

namespace Sys2Proof.Machine

/-! ## The level that a new configuration gives the pin (R176) -/

/-- The level of a pin once a new configuration is presented. -/
def presentedPin (f : FieldLines) (old new : FieldLine) : Level := (settledLine f f old new).pin

theorem input_of_not_output {d : LineDirection} (h : d ≠ .output) : d = .input := by
  cases d
  · rfl
  · exact absurd rfl h

/-- The parts of a direction and a function that belong together. -/
def DirectionFits (l : FieldLine) : Prop := l.direction = directionFor l.function l.direction

theorem DirectionFits.output {l : FieldLine} (h : DirectionFits l) (hd : l.direction = .output) :
    l.function = .general ∨ l.function = .permitOut ∨ ∃ k, l.function = .warnOut k := by
  unfold DirectionFits at h
  rw [hd] at h
  cases hfn : l.function <;> simp_all [directionFor]

theorem DirectionFits.input {l : FieldLine} (h : DirectionFits l) (hd : l.direction = .input) :
    l.function ≠ .permitOut ∧ ∀ k, l.function ≠ .warnOut k := by
  unfold DirectionFits at h
  rw [hd] at h
  cases hfn : l.function <;> simp_all [directionFor]

section pins
variable {f : FieldLines} {old new : FieldLine}

theorem presentedPin_same (h : f.presented new = f.presented old) : presentedPin f old new = new.pin :=
  congrArg FieldLine.pin (if_pos h)

theorem presentedPin_differs (h : f.presented new ≠ f.presented old) : presentedPin f old new = f.pinLevel new :=
  congrArg FieldLine.pin (if_neg h)

/-- The new configuration drives the same with its pin settled. -/
theorem drive_presentedPin : f.drive { new with pin := presentedPin f old new } = f.drive new := by
  by_cases h : f.presented new = f.presented old
  · rw [presentedPin_same h]
  · rw [presentedPin_differs h]
    exact drive_settled f new

theorem presentedPin_driven {v : Level} (hnew : f.drive new = some v) (hold : f.drive old ≠ some v) :
    presentedPin f old new = v := by
  have hdiffers : f.presented new ≠ f.presented old := fun h =>
    hold ((congrArg Prod.fst h).symm.trans hnew)
  rw [presentedPin_differs hdiffers]
  simp only [FieldLines.pinLevel, hnew]

/-- An input's drive, and its pull-up, which acts but for a PERMIT_OUT line. -/
theorem presented_of_input (hd : new.direction = .input) (hfn : new.function ≠ .permitOut) :
    f.presented new = (none, new.pullUp) := by
  simp [FieldLines.presented, FieldLines.drive, FieldLines.pullUpActs, hd, beq_eq_false_iff_ne.2 hfn]

theorem presentedPin_high (hd : new.direction = .input) (hfn : new.function ≠ .permitOut) (hpull : new.pullUp = true)
    (hforced : new.forced = none) (hold : old.direction = .output ∨ old.pullUp = false) :
    presentedPin f old new = .high := by
  have hpresented := presented_of_input (f := f) hd hfn
  have hdrive : f.drive new = none := congrArg Prod.fst hpresented
  have hacts : f.pullUpActs new = true := (congrArg Prod.snd hpresented).trans hpull
  have hdiffers : f.presented new ≠ f.presented old := by
    intro h
    rw [hpresented, hpull] at h
    have hnone : none = f.drive old := congrArg Prod.fst h
    have hup : true = f.pullUpActs old := congrArg Prod.snd h
    simp only [FieldLines.pullUpActs, ← hnone] at hup
    obtain hd' | hp := hold
    · simp only [FieldLines.drive, hd'] at hnone
      split at hnone
      · rename_i hw
        simp [hw.1, hw.2] at hup
      · cases hnone
    · simp [hp] at hup
  rw [presentedPin_differs hdiffers]
  simp only [FieldLines.pinLevel, hdrive, hforced, hacts, if_true]

theorem presentedPin_forced {v : Level} (hd : new.direction = .input) (hforced : new.forced = some v)
    (hold : f.drive old ≠ none) : presentedPin f old new = v := by
  have hdrive : f.drive new = none := by simp only [FieldLines.drive, hd]
  have hdiffers : f.presented new ≠ f.presented old := fun h =>
    hold ((congrArg Prod.fst h).symm.trans hdrive)
  rw [presentedPin_differs hdiffers]
  simp only [FieldLines.pinLevel, hdrive, hforced]

theorem presentedPin_latched (hd : new.direction = .output) (hfn : new.function = .general)
    (hold : old.direction = .input) : presentedPin f old new = new.levelFor new.latch := by
  refine presentedPin_driven ?_ ?_
  · simp [FieldLines.drive, FieldLines.value, hd, hfn]
  · simp [FieldLines.drive, hold]

end pins

/-! ## The lines with a new configuration (R176, R179) -/

/-- A state with other lines, the permit and the driven values as they are. -/
def relined (line : Vector FieldLine 16) (s : State) : State := { s with lines := { s.lines with line := line } }

/-- The lines of a state but line i. -/
def LinesApart (i : Nat) (line : Vector FieldLine 16) (s : State) : Prop :=
  ∀ j, j < 16 → j ≠ i → at' line j = lineAt s j

theorem LinesApart.untouched {i j : Nat} {line : Vector FieldLine 16} {s : State} (h : LinesApart i line s)
    (hj : j < 16) (hji : j ≠ i) : LineUntouched j s (relined line s) := lineUntouched_of (h j hj hji) rfl rfl

/-- What presenting a new configuration of line i makes of a state. -/
structure Presented (i : Nat) (new : FieldLine) (s t : State) : Prop where
  pin : (lineAt t i).pin = presentedPin s.lines (lineAt s i) new
  line : lineAt t i = { new with pin := (lineAt t i).pin, changed := (lineAt t i).changed }
  still : (lineAt t i).pin = new.pin ∨ new.direction = .output →
    (∃ line, t = relined line s ∧ LinesApart i line s) ∧ (lineAt t i).changed = new.changed
  told : new.direction = .input → (lineAt t i).pin ≠ new.pin →
    (lineAt t i).changed = (new.changed || new.arm) ∧ (new.arm = true → PendingWhereRouted 17 t) ∧
      PassageHanded i new.function ((lineAt t i).pin = new.polarity) s t ∧
      ∃ line active moved, t = judgeLine i moved (handed i new.function active (relined line s)) ∧
        LinesApart i line s ∧ (active = true ↔ (lineAt t i).pin = new.polarity)
  others : ∀ j, j < 16 → j ≠ i → LineFollows j s t

theorem put_apart (i : Nat) (new : FieldLine) (s : State) : LinesApart i (put s.lines.line i new) s :=
  fun _ _ hji => at'_put_other _ hji _

theorem put_put_apart (i : Nat) (new l : FieldLine) (s : State) :
    LinesApart i (put (put s.lines.line i new) i l) s :=
  fun j hj hji => (at'_put_other _ hji _).trans (put_apart i new s j hj hji)

theorem presentLine_eq {i : Nat} (hi : i < 16) (new : FieldLine) (s : State) :
    let x := relined (put s.lines.line i new) s
    let level := presentedPin s.lines (lineAt s i) new
    presentLine i new s = if level = new.pin then x else pinChange i level x := by
  have hline : at' (put s.lines.line i new) i = new := at'_put_self _ hi _
  have hlevel : (at' (FieldLines.settlePins { s.lines with line := put s.lines.line i new } s.lines).line i).pin =
      presentedPin s.lines (lineAt s i) new := by
    obtain ⟨hpresented, -, hpin⟩ :=
      FieldLines.see_eq (f := { s.lines with line := put s.lines.line i new }) (g := s.lines) rfl rfl
    rw [settlePins_at hi]
    simp only [hline, presentedPin, settledLine, hpresented, hpin]
    rfl
  unfold presentLine
  dsimp only
  rw [hlevel]
  rfl

theorem presentLine_presented {i : Nat} (hi : i < 16) {new : FieldLine} (hfit : DirectionFits new) (s : State) :
    Presented i new s (presentLine i new s) := by
  have heq := presentLine_eq hi new s
  let x := relined (put s.lines.line i new) s
  have hx : lineAt x i = new := at'_put_self _ hi _
  by_cases hpin : presentedPin s.lines (lineAt s i) new = new.pin
  · have ht : presentLine i new s = x := heq.trans (if_pos hpin)
    rw [ht]
    exact ⟨by rw [hx, hpin], by rw [hx], fun _ => ⟨⟨_, rfl, put_apart i new s⟩, by rw [hx]⟩,
      fun _ h => absurd (by rw [hx]) h, fun j hj hji => ((put_apart i new s).untouched hj hji).follows⟩
  · have ht : presentLine i new s = pinChange i (presentedPin s.lines (lineAt s i) new) x := heq.trans (if_neg hpin)
    cases hd : new.direction
    · have hd' : (lineAt x i).direction = .input := by rw [hx]; exact hd
      have hpin' : (lineAt x i).pin ≠ presentedPin s.lines (lineAt s i) new := by rw [hx]; exact Ne.symm hpin
      obtain ⟨hnew, hraised, hothers⟩ := pinChange_lines hi hd' hpin'
      have hchange := pinChange_input hi hd' hpin'
      rw [hx] at hnew hraised hchange
      have hpassage : PassageHanded i new.function (presentedPin s.lines (lineAt s i) new = new.polarity) x
          (pinChange i (presentedPin s.lines (lineAt s i) new) x) := by
        rw [hchange]
        exact judged_passage hi beq_iff_eq
      rw [ht]
      generalize pinChange i (presentedPin s.lines (lineAt s i) new) x = t at *
      have hlevel : (lineAt t i).pin = presentedPin s.lines (lineAt s i) new := by rw [hnew]
      refine ⟨hlevel, by rw [hnew], fun h => ?_,
        fun _ _ => ⟨by rw [hnew], hraised, ?_, _, _, _, hchange, put_put_apart i new _ s, ?_⟩,
        fun j hj hji => ((put_apart i new s).untouched hj hji).then_follows (hothers j hj hji)⟩
      · obtain h | h := h
        · exact absurd (hlevel.symm.trans h) hpin
        · exact absurd (hd.symm.trans h) nofun
      · rw [hlevel]
        exact hpassage.relined
      · rw [hlevel]
        exact beq_iff_eq
    · have hfn := hfit.output hd
      rw [ht, pinChange_output hi (by rw [hx]; exact hd) (by rw [hx]; exact hfn)]
      have hnew := lineAt_setPin hi (presentedPin s.lines (lineAt s i) new) x
      rw [hx] at hnew
      refine ⟨by rw [hnew], by rw [hnew], fun _ => ⟨⟨_, rfl, put_put_apart i new _ s⟩, by rw [hnew]⟩,
        fun h => absurd (hd.symm.trans h) nofun, fun j hj hji => ?_⟩
      have hset : LineUntouched j x (setPin i (presentedPin s.lines (lineAt s i) new) x) :=
        lineUntouched_of (at'_put_other _ hji _) rfl rfl
      exact (((put_apart i new s).untouched hj hji).trans hset).follows

end Sys2Proof.Machine
end

section
/-! SUPPORT. A configuration put in force: the trip that it may make and the take attempt (R76, R110, R178, R179). -/

namespace Sys2Proof.Machine

/-! ## What a passage makes of the engine's state -/

theorem pausePoint_state (s : State) : (pausePoint s).engine.state = s.engine.state := by
  unfold pausePoint
  dsimp only
  split <;> rfl

/-- The end of a point leaves COUNTING for a state of the run. -/
theorem endPoint_not_idle (s : State) : (endPoint s).engine.state ≠ .idle := by
  obtain ⟨hlast, hnext⟩ := (endPoint_ends s).1
  by_cases h : s.engine.vertical.pointOrdinal < s.engine.vertical.pointDepths.length
  · rw [(hnext h).1.1]
    decide
  · obtain ⟨hstate | hstate | hstate, -⟩ := hlast (by omega) <;> rw [hstate] <;> decide

theorem settledPassage_not_idle {s : State} (active : Bool) (h : s.engine.state ≠ .idle) :
    (settledPassage active s).engine.state ≠ .idle := by
  unfold settledPassage
  split
  · split
    · unfold settledActivation
      dsimp only
      split
      · exact h
      · split
        · split
          · exact endPoint_not_idle _
          · exact h
        · exact h
    · unfold settledDeactivation
      split
      · exact h
      · rw [pausePoint_state]
        exact h
  · exact h

/-- A run that is active, or a trip, does not pass to IDLE by a passage. -/
theorem handed_not_idle {s : State} (i : Nat) (fn : LineFunction) (active : Bool) (h : s.engine.state ≠ .idle) :
    (handed i fn active s).engine.state ≠ .idle := by
  unfold handed
  split
  · split
    · exact h
    · unfold meterPulse
      split <;> exact h
  · split
    · exact h
    · exact settledPassage_not_idle _ h
  · rw [tripEngine_state]
    decide
  · have hengine : (takeSilence s).engine = s.engine := takeSilence_keeps s .engine (by decide)
    rw [hengine]
    exact h
  · exact h

theorem takeSilence_driven (s : State) : DrivenStep s (takeSilence s) := by
  unfold takeSilence
  split
  · exact .of_eq rfl
  · let x := raise .silenced { s with warning := { s.warning with silence := true } }
    exact (formOutputs_driven x).1.congr (l := []) rfl rfl (.refl _ _)

theorem judgeLine_untouched {i j : Nat} {moved : Bool} (s : State) (hj : j < 16) (hji : j ≠ i) :
    LineUntouched j s (judgeLine i moved s) := by
  obtain ⟨hpermit, hkept, -⟩ := judgeLine_line i moved s
  exact lineUntouched_of (by rw [judgeLine_lineAt hj, if_neg hji]) hpermit hkept

/-- Blocks that no run reads. -/
theorem RunSame.of_keeps {s t : State} (h : KeepsBut [.warning, .lines, .notices] s t) : RunSame s t :=
  ⟨h .clock (by decide), h .stage (by decide), h .plan (by decide), h .engine (by decide), h .results (by decide)⟩

theorem RunSame.relined {s t : State} {line : Vector FieldLine 16} (h : RunSame (relined line s) t) : RunSame s t :=
  ⟨h.clock, h.stage, h.plan, h.engine, h.results⟩

/-- A passage that neither times a count nor trips is at most a silence. -/
theorem handed_aside {s : State} {i : Nat} {fn : LineFunction} {active : Bool}
    (hcount : fn = .meterIn ∨ fn = .settledIn → s.engine.state ≠ .counting)
    (hlimit : ¬ (fn = .limitIn ∧ active = true ∧ s.engine.state ≠ .tripped)) :
    handed i fn active s = s ∨ (fn = .ackIn ∧ handed i fn active s = takeSilence s) := by
  cases fn
  case meterIn =>
    rw [handed_meterIn]
    exact .inl (if_neg fun h => hcount (.inl rfl) h.2.2.1)
  case settledIn =>
    rw [handed_settledIn]
    exact .inl (if_neg fun h => hcount (.inr rfl) h.1.1)
  case limitIn =>
    cases active
    · exact .inl rfl
    · refine .inl (if_pos ?_)
      by_contra h
      exact hlimit ⟨rfl, rfl, h⟩
  case ackIn =>
    cases active
    · exact .inl rfl
    · exact .inr ⟨rfl, rfl⟩
  all_goals exact .inl rfl

section presented
variable {i : Nat} {new : FieldLine} {s t : State}

/-- The sources that a pin change may change where it is handed to no run. -/
def ownSources (l : FieldLine) : List Nat := if l.function = .ackIn then [17, 19] else pinSources l

/-- The run is left alone, and every other line but those that the driven values drive. -/
structure LeftAlone (i : Nat) (s t : State) : Prop where
  run : RunSame s t
  permit : t.lines.permit = s.lines.permit
  notified : Notified (ownSources (lineAt t i)) s t
  untouched : ∀ j, j < 16 → j ≠ i → (∀ k, (lineAt s j).function ≠ .warnOut k) → LineUntouched j s t

theorem Presented.arm (h : Presented i new s t) :
    (lineAt t i).arm = new.arm ∧ (lineAt t i).function = new.function := by
  rw [h.line]
  exact ⟨rfl, rfl⟩

/-- A new configuration leaves the run alone where its pin change is handed to none. -/
theorem Presented.aside (hi : i < 16) (h : Presented i new s t)
    (hcount : new.function = .meterIn ∨ new.function = .settledIn →
      s.engine.state ≠ .counting ∨ (lineAt t i).pin = new.pin)
    (hlimit : ¬ (new.function = .limitIn ∧ (lineAt t i).pin = new.polarity ∧ (lineAt t i).pin ≠ new.pin ∧
      s.engine.state ≠ .tripped)) :
    LeftAlone i s t := by
  by_cases hstill : (lineAt t i).pin = new.pin ∨ new.direction = .output
  · obtain ⟨⟨line, ht, hapart⟩, -⟩ := h.still hstill
    rw [ht]
    exact ⟨⟨rfl, rfl, rfl, rfl, rfl⟩, rfl, .of_eq rfl, fun j hj hji _ => hapart.untouched hj hji⟩
  · obtain ⟨hpin, hd⟩ := not_or.1 hstill
    have hd' := input_of_not_output hd
    obtain ⟨-, -, -, line, active, moved, ht, hapart, hactive⟩ := h.told hd' hpin
    obtain ⟨harm, hfn⟩ := h.arm
    have haside := handed_aside (s := relined line s) (i := i) (fn := new.function) (active := active)
      (fun hf => (hcount hf).resolve_right hpin) (fun ⟨hf, ha, hs⟩ => hlimit ⟨hf, hactive.1 ha, hpin, hs⟩)
    obtain hsame | ⟨hack, hsilent⟩ := haside
    · rw [hsame] at ht
      have hj := judgeLine_lineJudged i moved (relined line s)
      have hnoted := judgeLine_notified i moved (relined line s)
      have harm' := (judgeLine_line i moved (relined line s)).2.2 hi
      have hlast {j : Nat} (hj16 : j < 16) (hji : j ≠ i) :=
        judgeLine_untouched (moved := moved) (relined line s) hj16 hji
      rw [← ht] at hj hnoted harm' hlast
      have hown : ∀ k, k ∈ pinSources (lineAt (relined line s) i) → k ∈ ownSources (lineAt t i) := by
        intro k hk
        unfold ownSources
        split
        · exact List.mem_cons.2 (.inl (List.mem_singleton.1 (pinSources_line _ k hk)))
        · unfold pinSources at hk ⊢
          rw [harm']
          exact hk
      have hsame : RunSame (relined line s) t := .of_keeps (hj.keeps.mono (by decide))
      refine ⟨hsame.relined, hj.permit, (hnoted.mono hown).congr rfl rfl, fun j hj16 hji _ => ?_⟩
      exact (hapart.untouched hj16 hji).trans (hlast hj16 hji)
    · rw [hsilent] at ht
      have hj := judgeLine_lineJudged i moved (takeSilence (relined line s))
      have hlast {j : Nat} (hj16 : j < 16) (hji : j ≠ i) :=
        judgeLine_untouched (moved := moved) (takeSilence (relined line s)) hj16 hji
      rw [← ht] at hj hlast
      obtain ⟨hnoted, hpermit⟩ := takeSilence_notified (relined line s)
      have hsame : RunSame (relined line s) t :=
        .of_keeps (((takeSilence_keeps _).mono (by decide)).trans (hj.keeps.mono (by decide)))
      have hown : ownSources (lineAt t i) = [17, 19] := if_pos (hfn.trans hack)
      refine ⟨hsame.relined, hj.permit.trans hpermit,
        hown ▸ (hnoted.trans (hj.notified.mono (by decide))).congr rfl rfl, fun j hj16 hji hfn => ?_⟩
      have hfirst := hapart.untouched hj16 hji
      have hsilence : LineUntouched j (relined line s) (takeSilence (relined line s)) :=
        ((takeSilence_driven _).2 j hj16).2 fun k hk => hfn k (by rw [← hfirst.1]; exact hk)
      exact (hfirst.trans hsilence).trans (hlast hj16 hji)

/-- The run that a passage interrupts, or the trip, was there before it. -/
theorem Presented.idle (h : Presented i new s t) (hidle : t.engine.state = .idle) : s.engine.state = .idle := by
  by_contra hs
  by_cases hstill : (lineAt t i).pin = new.pin ∨ new.direction = .output
  · obtain ⟨⟨line, ht, hapart⟩, -⟩ := h.still hstill
    rw [ht] at hidle
    exact hs hidle
  · obtain ⟨hpin, hd⟩ := not_or.1 hstill
    have hd' := input_of_not_output hd
    obtain ⟨-, -, -, line, active, moved, ht, -, -⟩ := h.told hd' hpin
    have hengine : t.engine = (handed i new.function active (relined line s)).engine := by
      rw [ht]
      exact judgeLine_engine _
    rw [hengine] at hidle
    exact handed_not_idle (s := relined line s) i new.function active hs hidle

end presented

/-! ## A configuration in force (R179) -/

/-- A new configuration makes an active LIMIT_IN line of one that was none, or has its pin change to active. -/
def LineTrips (old new : FieldLine) (pin : Level) : Prop :=
  new.function = .limitIn ∧ pin = new.polarity ∧ (old.function ≠ .limitIn ∨ old.polarity ≠ old.pin ∨ pin ≠ old.pin)

/-- What a configuration put in force makes of the state in which it is presented: a trip at the still pin of an
active LIMIT_IN line, the trip that its pin change made, the state itself, or a take. -/
inductive LineConfigured (i : Nat) (old new : FieldLine) (s u : State) : State → Prop
  | trips (htrips : LineTrips old new (lineAt u i).pin) (hstill : (lineAt u i).pin = new.pin)
      (hrun : s.engine.state ≠ .tripped) : LineConfigured i old new s u (tripEngine (.limit i) u)
  | tripped (htrips : LineTrips old new (lineAt u i).pin) (hstate : u.engine.state = .tripped) :
      LineConfigured i old new s u u
  | stays (hquiet : ¬ LineTrips old new (lineAt u i).pin)
      (hnone : u.engine.state ≠ .idle ∨ ¬ TakeReady u ∨ u.plan.order.find? (slotAsks u) = none) :
      LineConfigured i old new s u u
  | takes (j : Nat) (hquiet : ¬ LineTrips old new (lineAt u i).pin) (hidle : u.engine.state = .idle)
      (hready : TakeReady u) (hfirst : u.plan.order.find? (slotAsks u) = some j) :
      LineConfigured i old new s u (takeSlot j u)

theorem limitActive_iff (f : FieldLines) (l : FieldLine) :
    limitActive f l = true ↔ l.function = .limitIn ∧ l.pin = l.polarity := by
  unfold limitActive
  rw [Bool.and_eq_true, beq_iff_eq]
  refine and_congr_right fun h => ?_
  simp [FieldLines.value, h, FieldLine.pinState]

theorem configureLine_configured {i : Nat} (hi : i < 16) {new : FieldLine} (hfit : DirectionFits new) (s : State)
    (hpin : new.pin = (lineAt s i).pin) :
    LineConfigured i (lineAt s i) new s (presentLine i new s) (configureLine i new s) := by
  have hp := presentLine_presented hi hfit s
  have hcases : configureLine i new s = takeAttempt
    (if limitActive (presentLine i new s).lines (lineAt (presentLine i new s) i) &&
        !limitActive s.lines (lineAt s i) then tripEngine (.limit i) (presentLine i new s)
      else presentLine i new s) := rfl
  rw [hcases]
  generalize presentLine i new s = u at *
  have hlimit : limitActive u.lines (lineAt u i) = true ↔
      new.function = .limitIn ∧ (lineAt u i).pin = new.polarity := by
    rw [limitActive_iff, hp.line]
  have hold := limitActive_iff s.lines (lineAt s i)
  by_cases htrips : LineTrips (lineAt s i) new (lineAt u i).pin
  · obtain ⟨hfn, hactive, hnew⟩ := id htrips
    have htripped (hstate : u.engine.state = .tripped) : LineConfigured i (lineAt s i) new s u (takeAttempt
        (if limitActive u.lines (lineAt u i) && !limitActive s.lines (lineAt s i) then tripEngine (.limit i) u
          else u)) := by
      have hno : tripEngine (.limit i) u = u := if_pos hstate
      rw [hno, ite_self, takeAttempt_none (.inl (by rw [hstate]; decide))]
      exact .tripped htrips hstate
    by_cases hstill : (lineAt u i).pin = new.pin
    · obtain ⟨⟨line, hu, -⟩, -⟩ := hp.still (.inl hstill)
      have hengine : u.engine = s.engine := by rw [hu]; rfl
      by_cases hrun : s.engine.state = .tripped
      · exact htripped (by rw [hengine]; exact hrun)
      · have hinactive : limitActive s.lines (lineAt s i) = false := by
          rw [← Bool.not_eq_true, hold]
          rintro ⟨hfn', hpol⟩
          obtain h | h | h := hnew
          · exact h hfn'
          · exact h hpol.symm
          · exact h (hstill.trans hpin)
        have hentered : (tripEngine (.limit i) u).engine.state ≠ .idle := by rw [tripEngine_state]; decide
        rw [hlimit.2 ⟨hfn, hactive⟩, hinactive]
        exact (takeAttempt_none (.inl hentered)).symm ▸ .trips htrips hstill hrun
    · have hd : new.direction = .input := by rw [hfit, hfn]; rfl
      obtain ⟨-, -, hpassage, -⟩ := hp.told hd hstill
      obtain ⟨-, -, -, hagain, hnow, -⟩ := hpassage
      by_cases hrun : s.engine.state = .tripped
      · have hkept : u.engine = s.engine := (hagain hfn hactive hrun).1 .engine (by decide)
        exact htripped (by rw [hkept]; exact hrun)
      · exact htripped (hnow hfn hactive hrun).1
  · have hsame : ¬ (limitActive u.lines (lineAt u i) && !limitActive s.lines (lineAt s i)) = true := by
      rw [Bool.and_eq_true, Bool.not_eq_true', hlimit]
      rintro ⟨⟨hfn, hactive⟩, hinactive⟩
      refine Bool.eq_false_iff.1 hinactive (hold.2 ?_)
      by_contra hnot
      refine htrips ⟨hfn, hactive, ?_⟩
      by_cases hfn' : (lineAt s i).function = .limitIn
      · exact .inr (.inl fun h => hnot ⟨hfn', h.symm⟩)
      · exact .inl hfn'
    rw [if_neg hsame]
    obtain ⟨hidle, hready, j, hfirst, htake⟩ | ⟨hnone, htake⟩ := takeAttempt_spec u
    · rw [htake]
      exact .takes j htrips hidle hready hfirst
    · rw [htake]
      exact .stays htrips hnone

end Sys2Proof.Machine
end

section
/-! SUPPORT. The lines after a CONFIGURE_LINE: the one that is configured, and those that are not (R176, R179, R184). -/

namespace Sys2Proof.Machine

section configured
variable {i : Nat} {old new : FieldLine} {s u t : State}

theorem Presented.engine_kept (hp : Presented i new s u)
    (hstill : (lineAt u i).pin = new.pin ∨ new.direction = .output) : u.engine = s.engine := by
  obtain ⟨⟨line, hu, -⟩, -⟩ := hp.still hstill
  rw [hu]
  rfl

/-- The run is left alone by a configuration that trips nothing, where no point is counted. -/
theorem Presented.aside_quiet (hp : Presented i new s u) (hi : i < 16) (hpin : new.pin = (lineAt s i).pin)
    (hquiet : ¬ LineTrips (lineAt s i) new (lineAt u i).pin)
    (hcount : s.engine.state ≠ .counting ∨
      ¬ ((new.function = .meterIn ∨ new.function = .settledIn) ∧ (lineAt u i).pin ≠ new.pin)) : LeftAlone i s u :=
  hp.aside hi (fun hfn => hcount.imp_right fun h => by_contra fun hne => h ⟨hfn, hne⟩)
    fun ⟨hfn, hactive, hmoved, _⟩ => hquiet ⟨hfn, hactive, .inr (.inr (hpin ▸ hmoved))⟩

theorem Presented.aside_idle (hp : Presented i new s u) (hi : i < 16) (hpin : new.pin = (lineAt s i).pin)
    (hquiet : ¬ LineTrips (lineAt s i) new (lineAt u i).pin) (hidle : u.engine.state = .idle) : LeftAlone i s u :=
  hp.aside_quiet hi hpin hquiet (.inl (by rw [hp.idle hidle]; decide))

theorem LineConfigured.keeps (h : LineConfigured i old new s u t) : KeepsBut runBlocks u t := by
  cases h
  case trips => exact tripEngine_keeps _ u
  case takes j _ _ _ _ => exact takeSlot_keeps j u
  all_goals exact .refl _ u

theorem LineConfigured.moved (h : LineConfigured i old new s u t) : PermitMoved (13 :: takeSources) u t := by
  cases h
  case trips => exact (tripEngine_moved _ u).mono (by decide)
  case takes j _ _ _ _ => exact (takeSlot_moved j u).mono (by decide)
  all_goals exact .refl _ u

theorem LineConfigured.follows (h : LineConfigured i old new s u t) : LinesFollow u t := h.moved.step.follows

/-- A trip or a take changes the engine's state. -/
theorem LineConfigured.settled (h : LineConfigured i old new s u t) (hp : Presented i new s u)
    (hstate : t.engine.state = u.engine.state) : t = u := by
  cases h
  case trips _ hstill hrun =>
    rw [tripEngine_state, hp.engine_kept (.inl hstill)] at hstate
    exact absurd hstate.symm hrun
  case takes j _ hidle _ _ => exact absurd (hstate.trans hidle) (takeSlot_busy j u)
  all_goals rfl

/-- A configuration whose pin stays, in an engine that stays, leaves everything but the lines. -/
theorem LineConfigured.still (h : LineConfigured i old new s u t) (hp : Presented i new s u)
    (hstill : (lineAt u i).pin = new.pin ∨ new.direction = .output) (hstate : t.engine.state = s.engine.state) :
    (∃ line, t = relined line s ∧ LinesApart i line s) ∧ (lineAt t i).changed = new.changed := by
  have ht : t = u := h.settled hp (by rw [hp.engine_kept hstill]; exact hstate)
  rw [ht]
  exact hp.still hstill

/-- The configured line, its pin and its change of state set apart. -/
theorem LineConfigured.line (h : LineConfigured i old new s u t) (hi : i < 16) (hp : Presented i new s u) :
    lineAt t i = { new with pin := (lineAt t i).pin, changed := (lineAt t i).changed } := by
  have hline := (h.follows i hi).line_eq
  rw [hp.line] at hline
  exact hline

/-- A configured input sees no permit and no driven value. -/
theorem LineConfigured.input (h : LineConfigured i old new s u t) (hi : i < 16) (hfit : DirectionFits new)
    (hp : Presented i new s u) (hd : new.direction = .input) : lineAt t i = lineAt u i := by
  have hu : (lineAt u i).direction = .input ∧ (lineAt u i).function = new.function := by
    rw [hp.line]
    exact ⟨hd, rfl⟩
  have hfollows := h.follows i hi
  refine hfollows.2.1 (presented_input hu.1 (hu.2 ▸ (hfit.input hd).1) hfollows.config.1 hfollows.function_eq ?_)
  rw [hfollows.line_eq]

/-- The pin of a configured output shows a level that it drives newly. -/
theorem LineConfigured.driven (h : LineConfigured i old new s u t) (hi : i < 16)
    (hp : Presented i new s u) {v : Level} (hnew : t.lines.drive (lineAt t i) = some v)
    (hold : s.lines.drive (lineAt s i) ≠ some v) : (lineAt t i).pin = v := by
  obtain ⟨-, hsame, hdiffers, -, -⟩ := h.follows i hi
  by_cases hpresented : t.lines.presented (lineAt t i) = u.lines.presented (lineAt u i)
  · have hdrive : u.lines.drive (lineAt u i) = some v := (congrArg Prod.fst hpresented).symm.trans hnew
    have hd : new.direction = .output := by
      have hline := hp.line
      cases hd : new.direction
      · rw [hline] at hdrive
        simp [FieldLines.drive, hd] at hdrive
      · rfl
    obtain ⟨⟨line, hu, -⟩, -⟩ := hp.still (.inr hd)
    have hdrives : u.lines.drive = s.lines.drive := by
      obtain ⟨hpresents, -, -⟩ := FieldLines.see_eq (f := u.lines) (g := s.lines) (by rw [hu]; rfl) (by rw [hu]; rfl)
      funext l
      exact congrArg (fun f => (f l).1) hpresents
    rw [hsame hpresented, hp.pin]
    rw [hdrives, hp.line, hp.pin] at hdrive
    exact presentedPin_driven (drive_presentedPin.symm.trans hdrive) hold
  · rw [hdiffers hpresented, FieldLines.pinLevel, hnew]

/-- Every line but the configured one follows the passage, and the trip or the take after it. -/
theorem LineConfigured.others (h : LineConfigured i (lineAt s i) new s u t) (hi : i < 16) (hp : Presented i new s u)
    (hpin : new.pin = (lineAt s i).pin) {j : Nat} (hj : j < 16) (hji : j ≠ i) : LineFollows j s t := by
  have hfirst := hp.others j hj hji
  have hfollows := h.follows j hj
  have hmoved := h.moved
  cases h
  case trips _ hstill _ =>
    obtain ⟨⟨line, hu, hapart⟩, -⟩ := hp.still (.inl hstill)
    rw [hu] at hfollows ⊢
    exact (hapart.untouched hj hji).then_follows hfollows
  case takes k hquiet hidle _ _ =>
    have huntouched := hp.aside_idle hi hpin hquiet hidle
    by_cases hwarn : ∃ n, (lineAt s j).function = .warnOut n
    · obtain ⟨n, hn⟩ := hwarn
      exact hfirst.then_untouched ((hmoved.step.2 j hj).2 n (hfirst.function_eq.trans hn))
        (hmoved.notified.pending (by decide) (by decide))
    · exact (huntouched.untouched j hj hji fun n hn => hwarn ⟨n, hn⟩).then_follows hfollows
  all_goals exact hfirst

end configured

end Sys2Proof.Machine
end

section
/-! SUPPORT. What a CONFIGURE_LINE leaves of its line, of the warning and of the run (R76, R110, R154, R176, R179,
R184). -/

namespace Sys2Proof.Machine

section configured
variable {i : Nat} {new : FieldLine} {s u t : State}

/-! ## The configured line (R176, R184) -/

/-- A new configuration of line i keeps what it does not name: the pin, the latch and the forced level. -/
structure Reconfigures (i : Nat) (new : FieldLine) (s : State) : Prop where
  line : i < 16
  fits : DirectionFits new
  pin : new.pin = (lineAt s i).pin
  latch : new.latch = (lineAt s i).latch
  forced : new.forced = (lineAt s i).forced
  changed : new.changed = false

/-- A new configuration of line i, presented and in force. -/
structure InForce (i : Nat) (new : FieldLine) (s u t : State) : Prop where
  set : Reconfigures i new s
  presented : Presented i new s u
  notified : Notified (17 :: handedSources new.function) s u
  outcome : LineConfigured i (lineAt s i) new s u t

theorem configureLine_inForce (h : Reconfigures i new s) :
    InForce i new s (presentLine i new s) (configureLine i new s) :=
  ⟨h, presentLine_presented h.line h.fits s, (presentLine_frame h.line new s).1,
    configureLine_configured h.line h.fits s h.pin⟩

theorem InForce.config (h : InForce i new s u t) :
    lineAt t i = { new with pin := (lineAt t i).pin, changed := (lineAt t i).changed } :=
  h.outcome.line h.set.line h.presented

theorem InForce.input (h : InForce i new s u t) (hd : (lineAt t i).direction = .input) :
    new.direction = .input ∧ lineAt t i = lineAt u i := by
  have hd' : new.direction = .input := by
    rw [h.config] at hd
    exact hd
  exact ⟨hd', h.outcome.input h.set.line h.set.fits h.presented hd'⟩

theorem InForce.output (h : InForce i new s u t) (hd : (lineAt t i).direction = .output) : new.direction = .output := by
  rw [h.config] at hd
  exact hd

theorem InForce.high (h : InForce i new s u t) (hd : (lineAt t i).direction = .input) (hpull : new.pullUp = true)
    (hforced : (lineAt s i).forced = none)
    (hold : (lineAt s i).direction = .output ∨ (lineAt s i).pullUp = false) : (lineAt t i).pin = .high := by
  obtain ⟨hd', hsame⟩ := h.input hd
  rw [hsame, h.presented.pin]
  exact presentedPin_high hd' (h.set.fits.input hd').1 hpull (h.set.forced.trans hforced) hold

theorem InForce.pin_forced (h : InForce i new s u t) (hd : (lineAt t i).direction = .input) {v : Level}
    (hforced : (lineAt s i).forced = some v) (hold : s.lines.drive (lineAt s i) ≠ none) : (lineAt t i).pin = v := by
  obtain ⟨hd', hsame⟩ := h.input hd
  rw [hsame, h.presented.pin]
  exact presentedPin_forced hd' (h.set.forced.trans hforced) hold

theorem InForce.latched (h : InForce i new s u t) (hfn : new.function = .general)
    (hd : (lineAt t i).direction = .output) (hold : (lineAt s i).direction = .input) :
    (lineAt t i).pin = (lineAt t i).levelFor (lineAt t i).latch := by
  have hfn' : (lineAt t i).function = .general := by rw [h.config]; exact hfn
  refine h.outcome.driven h.set.line h.presented ?_ ?_
  · simp [FieldLines.drive, FieldLines.value, hd, hfn']
  · simp [FieldLines.drive, hold]

/-- A pin that stays is one that the presentation leaves, of an input as of an output. -/
theorem InForce.stays (h : InForce i new s u t)
    (hstill : (lineAt t i).direction = .input → (lineAt t i).pin = (lineAt s i).pin)
    (hstate : t.engine.state = s.engine.state) :
    (lineAt t i).changed = false ∧ PendingAsBefore 17 s t := by
  have hpresented : (lineAt u i).pin = new.pin ∨ new.direction = .output := by
    cases hd : new.direction
    · have hd' : (lineAt t i).direction = .input := by rw [h.config]; exact hd
      rw [← (h.input hd').2, hstill hd', h.set.pin]
      exact .inl rfl
    · exact .inr rfl
  obtain ⟨⟨line, ht, -⟩, hchanged⟩ := h.outcome.still h.presented hpresented hstate
  rw [hchanged, h.set.changed, ht]
  exact ⟨rfl, fun _ => rfl⟩

theorem InForce.unarmed (h : InForce i new s u t) (hd : (lineAt t i).direction = .input)
    (harm : (lineAt t i).arm = false) : (lineAt t i).changed = false := by
  obtain ⟨hd', hsame⟩ := h.input hd
  have harm' : new.arm = false := by
    rw [h.config] at harm
    exact harm
  rw [hsame]
  by_cases hstill : (lineAt u i).pin = new.pin
  · exact (h.presented.still (.inl hstill)).2.trans h.set.changed
  · rw [(h.presented.told hd' hstill).1, h.set.changed, harm']
    rfl

/-- An input whose pin moves, with what its passage hands on. -/
theorem InForce.told (h : InForce i new s u t) (hd : (lineAt t i).direction = .input)
    (hmoved : (lineAt t i).pin ≠ (lineAt s i).pin) : lineAt t i = lineAt u i ∧
    (lineAt u i).changed = (new.changed || new.arm) ∧ (new.arm = true → PendingWhereRouted 17 u) ∧
      PassageHanded i new.function ((lineAt u i).pin = new.polarity) s u := by
  obtain ⟨hd', hsame⟩ := h.input hd
  rw [hsame, ← h.set.pin] at hmoved
  obtain ⟨hchanged, hraised, hpassage, -⟩ := h.presented.told hd' hmoved
  exact ⟨hsame, hchanged, hraised, hpassage⟩

theorem InForce.armed (h : InForce i new s u t) (hd : (lineAt t i).direction = .input)
    (hmoved : (lineAt t i).pin ≠ (lineAt s i).pin) (harm : (lineAt t i).arm = true) :
    (lineAt t i).changed = true ∧ PendingWhereRouted 17 t := by
  obtain ⟨hsame, hchanged, hraised, -⟩ := h.told hd hmoved
  have harm' : new.arm = true := by
    rw [h.config] at harm
    exact harm
  rw [hsame, hchanged, harm', Bool.or_true]
  exact ⟨rfl, h.outcome.moved.notified.pending (by decide) (by decide) (hraised harm')⟩

/-! ## The warning (R154) -/

theorem LineConfigured.warning {old : FieldLine} (h : LineConfigured i old new s u t) : t.warning = u.warning :=
  h.keeps .warning (by decide)

/-- Where a pin does not pass to its active level, or the function is not ACK_IN, or no level is reached, the warning
stands. -/
theorem InForce.unsilenced (h : InForce i new s u t)
    (hno : ¬ (new.function = .ackIn ∧ (lineAt t i).pin ≠ (lineAt s i).pin ∧ (lineAt t i).pin = (lineAt t i).polarity ∧
      1 ≤ s.warning.level)) :
    t.warning = s.warning ∧ t.lines.warnKept = s.lines.warnKept ∧ PendingAsBefore 19 s t := by
  have hlater : PendingAsBefore 19 u t := h.outcome.moved.notified.kept.asBefore (by decide)
  have hkept : t.lines.warnKept = u.lines.warnKept := h.outcome.moved.step.1
  rw [h.outcome.warning, hkept]
  suffices hfirst : u.warning = s.warning ∧ u.lines.warnKept = s.lines.warnKept ∧ PendingAsBefore 19 s u from
    ⟨hfirst.1, hfirst.2.1, fun p => (hlater p).trans (hfirst.2.2 p)⟩
  by_cases hstill : (lineAt u i).pin = new.pin ∨ new.direction = .output
  · obtain ⟨⟨line, hu, -⟩, -⟩ := h.presented.still hstill
    rw [hu]
    exact ⟨rfl, rfl, fun _ => rfl⟩
  · obtain ⟨hpin, hd⟩ := not_or.1 hstill
    have hd' := input_of_not_output hd
    have hsame := h.outcome.input h.set.line h.set.fits h.presented hd'
    have hpassage := (h.presented.told hd' hpin).2.2.1
    obtain ⟨honly, -, -, -, -, -, hcalm, hwarning, -⟩ := hpassage
    by_cases hack : new.function = .ackIn
    · have hpinOnly : PinOnly i s u := by
        by_cases hactive : (lineAt u i).pin = new.polarity
        · refine hcalm hack (Nat.eq_zero_of_not_pos fun hlevel => hno ⟨hack, ?_, ?_, hlevel⟩)
          · rw [hsame, ← h.set.pin]
            exact hpin
          · rw [hsame, hactive, h.presented.line]
        · exact honly (.inr (.inr (.inr ⟨by rw [hack]; decide, hactive⟩)))
      obtain ⟨hkeeps, hnoted, -, hkept'⟩ := hpinOnly
      have hsources : 19 ∉ pinSources (lineAt u i) := fun hmem =>
        absurd (List.mem_singleton.1 (pinSources_line _ _ hmem)) (by decide)
      exact ⟨hkeeps .warning (by decide), hkept', hnoted.asBefore hsources⟩
    · obtain ⟨hwarn, hkept'⟩ := hwarning hack
      refine ⟨hwarn, hkept', h.notified.kept.asBefore ?_⟩
      cases hfn : new.function
      case ackIn => exact absurd hfn hack
      case warnOut k => exact (by decide : 19 ∉ [17])
      all_goals decide

theorem InForce.silenced (h : InForce i new s u t) (hfn : new.function = .ackIn)
    (hmoved : (lineAt t i).pin ≠ (lineAt s i).pin) (hactive : (lineAt t i).pin = (lineAt t i).polarity)
    (hlevel : 1 ≤ s.warning.level) : Silenced s t := by
  have hd : (lineAt t i).direction = .input := by
    rw [h.config]
    exact h.set.fits.trans (by rw [hfn]; rfl)
  obtain ⟨hsame, -, -, hpassage⟩ := h.told hd hmoved
  obtain ⟨-, -, -, -, -, hsilences, -⟩ := hpassage
  rw [hsame, h.presented.line] at hactive
  obtain ⟨⟨hsilent, hraised, hformed, hsettings, hrest⟩, -⟩ := hsilences hfn hactive hlevel
  have hwarning := h.outcome.warning
  have hkept : t.lines.warnKept = u.lines.warnKept := h.outcome.moved.step.1
  refine ⟨by rw [hwarning]; exact hsilent,
    h.outcome.moved.notified.pending (by decide) (by decide) hraised, ?_, ?_, by rw [hwarning]; exact hrest⟩
  · unfold OutputsFormed at hformed ⊢
    rw [hwarning, hkept]
    exact hformed
  · unfold OutputSettingsKept at hsettings ⊢
    rw [hwarning]
    exact hsettings

/-- A configuration of no ACK_IN line leaves the warning. -/
theorem InForce.warning (h : InForce i new s u t) (hfn : new.function ≠ .ackIn) : t.warning = s.warning :=
  (h.unsilenced fun ⟨hack, _⟩ => hfn hack).1

/-! ## The run (R76, R77, R110) -/

theorem InForce.passage (h : InForce i new s u t) (hd : (lineAt t i).direction = .input)
    (hmoved : (lineAt t i).pin ≠ (lineAt s i).pin) (hbusy : s.engine.state ≠ .idle) :
    PassageHanded i new.function ((lineAt t i).pin = (lineAt t i).polarity) s t := by
  obtain ⟨hsame, -, -, hpassage⟩ := h.told hd hmoved
  have hpolarity : (lineAt t i).polarity = new.polarity := by rw [h.config]
  have hpin : (lineAt u i).pin ≠ new.pin := by
    rw [h.set.pin, ← hsame]
    exact hmoved
  rw [hpolarity, hsame]
  have hoverall := h.outcome
  cases hoverall
  case trips _ hstill _ => exact absurd hstill hpin
  case takes hidle _ _ => exact absurd (h.presented.idle hidle) hbusy
  all_goals exact hpassage

end configured

end Sys2Proof.Machine
end

section
/-! SUPPORT. What a CONFIGURE_LINE makes of the run, and the statement about the lines' requests (R76, R77, R89 to R93,
R101 to R104, R110, R154, R175 to R185). -/

namespace Sys2Proof.Machine

section run
variable {i : Nat} {new : FieldLine} {s u t : State}

/-- The trip that a configuration makes, at a pin that stays or by the passage of a pin that moves. -/
theorem InForce.tripped (h : InForce i new s u t) (htrips : LineTrips (lineAt s i) new (lineAt u i).pin) :
    t.engine.state = .tripped ∧ NoticesKeptBut (13 :: passSources) s t ∧
      (s.engine.state ≠ .tripped → t.engine.trip = .limit i ∧ ClosesOpenPass t.stage.status .trip s t ∧
        (EngineInv s → TripTaken (.limit i) s t)) := by
  have hnoted : Notified (13 :: passSources) s u := by
    have hfirst := h.notified
    rw [htrips.1] at hfirst
    exact hfirst.mono (by decide)
  have hp := h.presented
  have hd : new.direction = .input := by rw [h.set.fits, htrips.1]; rfl
  have hout := h.outcome
  cases hout
  case trips _ hstill hrun =>
    obtain ⟨⟨line, hu, -⟩, -⟩ := hp.still (.inl hstill)
    have hmoved := (tripEngine_moved (.limit i) u).notified
    rw [hu] at hnoted hmoved ⊢
    obtain ⟨hstate, htrip, hcloses⟩ := tripEngine_trips (record := .limit i) (s := relined line s) hrun
    refine ⟨hstate, (hnoted.trans hmoved).kept, fun _ => ⟨htrip, hcloses, fun inv => ?_⟩⟩
    have inv' : EngineInv (relined line s) := inv.congr {}
    exact (tripEngine_taken (s := relined line s) hrun inv').1
  case tripped _ hstate =>
    refine ⟨hstate, hnoted.kept, fun hrun => ?_⟩
    have hmoved : (lineAt u i).pin ≠ new.pin := fun hstill => by
      rw [hp.engine_kept (.inl hstill)] at hstate
      exact hrun hstate
    obtain ⟨-, -, -, -, hnow, -⟩ := (hp.told hd hmoved).2.2.1
    obtain ⟨-, htrip, hcloses, -, htaken⟩ := hnow htrips.1 htrips.2.1 hrun
    exact ⟨htrip, hcloses, htaken⟩
  case stays hquiet _ => exact absurd htrips hquiet
  case takes hquiet _ _ _ => exact absurd htrips hquiet

/-- What stands of a run that a configuration leaves alone. -/
def RunStands (i : Nat) (s t : State) : Prop :=
  t.engine = s.engine ∧ t.plan = s.plan ∧ t.results = s.results ∧ t.lines.permit = s.lines.permit ∧
    NoticesKeptBut (ownSources (lineAt t i)) s t

theorem LeftAlone.stands (h : LeftAlone i s t) : RunStands i s t :=
  ⟨h.run.engine, h.run.plan, h.run.results, h.permit, h.notified.kept⟩

/-- During a run nothing is taken: a configuration that trips nothing leaves what its presentation made. -/
theorem InForce.busy (h : InForce i new s u t) (hquiet : ¬ LineTrips (lineAt s i) new (lineAt u i).pin)
    (hbusy : s.engine.state ≠ .idle) : t = u := by
  have hp := h.presented
  have hout := h.outcome
  cases hout
  case trips htrips _ _ => exact absurd htrips hquiet
  case takes _ hidle _ _ => exact absurd (hp.idle hidle) hbusy
  all_goals rfl

theorem InForce.stands (h : InForce i new s u t) (hquiet : ¬ LineTrips (lineAt s i) new (lineAt u i).pin)
    (hbusy : s.engine.state ≠ .idle)
    (hstill : ¬ ((new.function = .meterIn ∨ new.function = .settledIn) ∧ (lineAt u i).pin ≠ new.pin)) :
    RunStands i s t := by
  rw [h.busy hquiet hbusy]
  exact (h.presented.aside_quiet h.set.line h.set.pin hquiet (.inr hstill)).stands

theorem InForce.passes (h : InForce i new s u t) (hquiet : ¬ LineTrips (lineAt s i) new (lineAt u i).pin)
    (hbusy : s.engine.state ≠ .idle) (hfn : new.function = .meterIn ∨ new.function = .settledIn) :
    NoticesKeptBut passSources s t := by
  have hnoted := h.notified
  rw [h.busy hquiet hbusy]
  obtain hfn | hfn := hfn
  all_goals
    rw [hfn] at hnoted
    exact (hnoted.mono (by decide)).kept

/-- A tripped engine stays as it is, whatever the configuration. -/
theorem InForce.tripped_stands (h : InForce i new s u t) (hs : s.engine.state = .tripped) : RunStands i s t := by
  have hp := h.presented
  have halone : LeftAlone i s u :=
    hp.aside h.set.line (fun _ => .inl (by rw [hs]; decide)) fun ⟨_, _, _, hrun⟩ => hrun hs
  have hout := h.outcome
  cases hout
  case trips _ _ hrun => exact absurd hs hrun
  case takes _ hidle _ _ => exact absurd ((hp.idle hidle).symm.trans hs) (by decide)
  all_goals exact halone.stands

/-- From IDLE a configuration that trips nothing takes the first slot that asks, or leaves the run alone. -/
theorem InForce.idle (h : InForce i new s u t) (hquiet : ¬ LineTrips (lineAt s i) new (lineAt u i).pin)
    (hidle : s.engine.state = .idle) :
    (¬ TakeReady t ∨ s.plan.order.find? (slotAsks s) = none → RunStands i s t) ∧
      (TakeReady t → ∀ j, s.plan.order.find? (slotAsks s) = some j →
        TakenSlot j s t ∧ NoticesKeptBut (ownSources (lineAt t i) ++ takeSources) s t) := by
  have halone := h.presented.aside_quiet h.set.line h.set.pin hquiet (.inl (by rw [hidle]; decide))
  have hstate : u.engine.state = .idle := by rw [halone.run.engine]; exact hidle
  have hown : ownSources (lineAt t i) = ownSources (lineAt u i) := by
    rw [h.config, h.presented.line]
    rfl
  have hready : TakeReady t ↔ TakeReady u :=
    TakeReady.iff (congrArg WarningUnit.retreat h.outcome.warning) (h.outcome.keeps .stage (by decide))
      h.outcome.follows
  rw [hready, halone.run.asks, hown]
  have hout := h.outcome
  cases hout
  case trips htrips _ _ => exact absurd htrips hquiet
  case tripped htrips _ => exact absurd htrips hquiet
  case stays _ hnone =>
    refine ⟨fun _ => halone.stands, fun hr j hj => ?_⟩
    obtain hno | hno | hno := hnone
    · exact absurd hstate hno
    · exact absurd hr hno
    · rw [hno] at hj
      cases hj
  case takes k _ _ hr hfirst =>
    refine ⟨fun hno => ?_, fun _ j hj => ?_⟩
    · obtain hno | hno := hno
      · exact absurd hr hno
      · rw [hfirst] at hno
        cases hno
    · obtain rfl := Option.some.inj (hfirst.symm.trans hj)
      exact ⟨halone.run.symm.takenSlot (takeSlot_taken k u),
        ((halone.notified.mono fun _ => List.mem_append_left _).trans
          ((takeSlot_moved k u).notified.mono fun _ => List.mem_append_right _)).kept⟩

/-! ## The reply and the whole request (R178, R179) -/

theorem InForce.trips_iff (h : InForce i new s u t) :
    LineTrips (lineAt s i) new (lineAt t i).pin ↔ LineTrips (lineAt s i) new (lineAt u i).pin := by
  by_cases hfn : new.function = .limitIn
  · have hd : new.direction = .input := by rw [h.set.fits, hfn]; rfl
    rw [h.outcome.input h.set.line h.set.fits h.presented hd]
  · exact ⟨fun htrips => absurd htrips.1 hfn, fun htrips => absurd htrips.1 hfn⟩

theorem InForce.passes_iff (h : InForce i new s u t) :
    ((new.function = .meterIn ∨ new.function = .settledIn) ∧ (lineAt t i).pin ≠ (lineAt s i).pin) ↔
      ((new.function = .meterIn ∨ new.function = .settledIn) ∧ (lineAt u i).pin ≠ new.pin) := by
  refine and_congr_right fun hfn => ?_
  have hd : new.direction = .input := by
    rw [h.set.fits]
    obtain hfn | hfn := hfn <;> rw [hfn] <;> rfl
  rw [h.outcome.input h.set.line h.set.fits h.presented hd, h.set.pin]

end run

/-- The line that a request in range configures. -/
theorem lineSet_reconfigures {i : Nat} {fn : LineFunction} {direction : LineDirection} {polarity : Level}
    {pullUp arm : Bool} {s : State} (hi : i < 16) (hfit : direction = directionFor fn direction) :
    Reconfigures i (lineSet fn direction polarity pullUp arm (lineAt s i)) s :=
  ⟨hi, hfit, rfl, rfl, rfl, rfl⟩

/-- What a configuration in force makes of the run, in the words of the statement, the trip being told by the pin that
the line has then. -/
theorem InForce.run_told {i : Nat} {new : FieldLine} {s u t : State} (h : InForce i new s u t) {trips passes : Prop}
    (htrips : trips ↔ LineTrips (lineAt s i) new (lineAt t i).pin)
    (hpasses : passes ↔ (new.function = .meterIn ∨ new.function = .settledIn) ∧ (lineAt t i).pin ≠ (lineAt s i).pin) :
    (trips → t.engine.state = .tripped ∧ NoticesKeptBut (13 :: passSources) s t ∧
      (s.engine.state ≠ .tripped → t.engine.trip = .limit i ∧ ClosesOpenPass t.stage.status .trip s t ∧
        (EngineInv s → TripTaken (.limit i) s t))) ∧
    (s.engine.state ≠ .idle → ¬ trips → ¬ passes → RunStands i s t) ∧
    (s.engine.state ≠ .idle → ¬ trips → passes → NoticesKeptBut passSources s t) ∧
    (s.engine.state = .tripped → RunStands i s t) ∧
    (s.engine.state = .idle → ¬ trips →
      (¬ TakeReady t ∨ s.plan.order.find? (slotAsks s) = none → RunStands i s t) ∧
      (TakeReady t → ∀ j, s.plan.order.find? (slotAsks s) = some j →
        TakenSlot j s t ∧ NoticesKeptBut (ownSources (lineAt t i) ++ takeSources) s t)) := by
  rw [h.trips_iff] at htrips
  rw [h.passes_iff] at hpasses
  rw [htrips, hpasses]
  exact ⟨h.tripped, fun hbusy hquiet hstill => h.stands hquiet hbusy hstill,
    fun hbusy hquiet hmoves => h.passes hquiet hbusy hmoves.1, h.tripped_stands,
    fun hidle hquiet => h.idle hquiet hidle⟩

/-- Settles O51: READ_LINES and WRITE_LINES line by line, and CONFIGURE_LINE by its checks, its presentation and what
follows it. -/
theorem lineRequests : Obligations.LineRequests := by
  refine ⟨fun p clear s htake => readLines_answers htake,
    fun p mask values s htake => ⟨writeLines_refuses htake, writeLines_taken htake⟩, fun p a s htake =>
      ⟨fun f hf => configureLine_refuses_range htake hf, fun fn hrange hfn => ?_⟩⟩
  intro old others full inUse
  obtain ⟨direction, polarity, hpolarity, hdirection, hfit, hnew⟩ := configuredLine_set hrange hfn old
  let new := lineSet fn direction polarity (decide (a.pullUp = 0)) (decide (a.arm = 0)) old
  have hi := ((lineFields_iff a).1 hrange).1
  obtain ⟨hrefuses, htaken⟩ := configureLine_checked htake hrange hnew
  obtain ⟨hfull, huse, hfree⟩ := lineRefusal_eq s a.line new
  have hinUse : inUse ↔ LineInUse s old new := by
    have hpol : polarityOf a.polarity ≠ some old.polarity ↔ polarity ≠ old.polarity := by
      rw [hpolarity, ne_eq, Option.some.injEq]
    simp only [inUse, hpol]
    rfl
  refine ⟨fun j rest h hj => hrefuses _ (hfull h j rest hj) rfl,
    fun h h' => hrefuses _ (huse h (hinUse.1 h')) rfl, fun h h' => ?_⟩
  have hexec := htaken (hfree h (mt hinUse.2 h'))
  have hforce := configureLine_inForce (s := closeWindow p s) (lineSet_reconfigures (fn := fn) (polarity := polarity)
    (pullUp := decide (a.pullUp = 0)) (arm := decide (a.arm = 0)) hi hfit)
  have hkeeps := configureLine_keeps a.line new (closeWindow p s)
  have hothers {j : Nat} (hj : j < 16) (hji : j ≠ a.line) :=
    hforce.outcome.others hi hforce.presented hforce.set.pin hj hji
  refine ⟨_, hexec, hkeeps, hforce.warning, ?_, fun j hj hji => hothers hj hji, ?_⟩
  · intro line
    have hfield {α : Type} (f : FieldLine → α) := congrArg f hforce.config
    have hpol : line.polarity = polarity := hfield FieldLine.polarity
    have hdir : line.direction = direction := hfield FieldLine.direction
    have hpull : line.pullUp = decide (a.pullUp = 0) := hfield FieldLine.pullUp
    have harm : line.arm = decide (a.arm = 0) := hfield FieldLine.arm
    have hsilences : (fn = .ackIn ∧ line.pin ≠ old.pin ∧ line.pin = line.polarity ∧ 1 ≤ s.warning.level →
        Silenced s _) ∧ _ := ⟨fun ⟨hack, hmoved, hactive, hlevel⟩ => hforce.silenced hack hmoved hactive hlevel,
          hforce.unsilenced⟩
    refine ⟨hfield FieldLine.function, by rw [hpol]; exact hpolarity, by rw [hpull, decide_eq_true_iff],
      by rw [harm, decide_eq_true_iff], hfield FieldLine.latch, fun hgeneral => by rw [hdir]; exact hdirection hgeneral,
      fun hin => ?_, fun hout => ?_, hfield FieldLine.forced,
      fun v hdrive hold => hforce.outcome.driven hi hforce.presented hdrive hold,
      fun hd hup => hforce.high hd (decide_eq_true hup), fun hd v => hforce.pin_forced hd, hforce.latched,
      fun hpin hstate => hforce.stays (fun _ => hpin) hstate, fun hd hstate => (hforce.stays ?_ hstate).1,
      hforce.unarmed, hforce.armed, hsilences, hforce.passage⟩
    · rw [hdir, hfit]
      obtain rfl | rfl | rfl | rfl := hin <;> rfl
    · rw [hdir, hfit]
      obtain rfl | ⟨k, rfl⟩ := hout <;> rfl
    · exact fun hd' => absurd (hd'.symm.trans hd) nofun
  · intro pin trips first passes own
    have hown : own = ownSources (lineAt (configureLine a.line new (closeWindow p s)) a.line) := by
      have hfn' : (lineAt (configureLine a.line new (closeWindow p s)) a.line).function = fn :=
        congrArg FieldLine.function hforce.config
      unfold ownSources
      rw [hfn']
    have htrips : trips ↔ LineTrips old new pin := by
      have hpol : polarityOf a.polarity = some pin ↔ pin = polarity := by
        rw [hpolarity, Option.some.injEq, eq_comm]
      simp only [trips, hpol]
      rfl
    obtain ⟨htripped, hstands, hpasses, hkept, hidle⟩ := hforce.run_told htrips (passes := passes) Iff.rfl
    rw [hown]
    have inv (h : EngineInv s) : EngineInv (closeWindow p s) := h.congr {}
    refine ⟨fun ht => ?_, hstands, hpasses, hkept, fun hs hno => ?_⟩
    · obtain ⟨hstate, hnoted, hrun⟩ := htripped ht
      refine ⟨hstate, hnoted, fun hs => ?_⟩
      obtain ⟨htrip, hcloses, htaken⟩ := hrun hs
      exact ⟨htrip, hcloses, fun h => htaken (inv h)⟩
    · obtain ⟨hleft, htakes⟩ := hidle hs hno
      refine ⟨hleft, fun hr j hj => ?_⟩
      obtain ⟨htaken, hnoted⟩ := htakes hr j hj
      exact ⟨RunSame.takenSlot ⟨rfl, rfl, rfl, rfl, rfl⟩ htaken, hnoted⟩

end Sys2Proof.Machine
end

section
/-! SUPPORT. STARTING offered to an engine that has no run: nothing is taken and nothing recalled, the level does not
fall, and LINE_CHANGE comes of the lines alone (R76, R143, R144, R184). -/

namespace Sys2Proof.Machine

/-! ## The level and the dwell under STARTING (R143, R144) -/

/-- Without a current sample and with no dwell pending the level rises, or its dwell is held whole. -/
theorem settleLevel_starting {i : EvalInputs} {w : WarningUnit} (hi : i.status = .starting) (hw : w.dwell = .stopped)
    (k : Nat) : settleLevel (k + 1) i w =
      let d := formDemand i w
      if w.level < d.demanded then (riseLevel d, [(w.level, d.demanded)])
      else ({ d with dwell := if d.demanded = w.level then .stopped else .held (w.criteria.dwell * 60000) }, []) := by
  have hlevel : (formDemand i w).level = w.level := rfl
  have hcriteria : (formDemand i w).criteria = w.criteria := rfl
  have hdwell : (formDemand i w).dwell = .stopped := hw
  have hbelow : dwellBelow i (formDemand i w) = .held (w.criteria.dwell * 60000) := by
    simp [dwellBelow, hi, StageStatus.current, hdwell, hcriteria]
  dsimp only [settleLevel]
  rw [hlevel, hbelow, hdwell]
  split
  · rfl
  · split <;> rfl

/-! ## An evaluation handed on where nothing is recalled or taken (R146) -/

theorem retreatRecall_calm {s : State} (h : s.engine.state.recallable = false) : retreatRecall s = s := by
  simp [retreatRecall, h]

theorem not_takeReady_starting {s : State} (h : s.stage.status = .starting) : ¬ TakeReady s :=
  fun hready => hready.2.2.1 h

theorem handOn_calm {changes : List (Nat × Nat)} {x : State} {a b : Nat} (hpath : LevelPath a b changes)
    (hcalm : x.engine.state.recallable = false) (hstart : x.stage.status = .starting) :
    ∃ history plan, handOn changes x = formOutputs { retreatHanded changes x with history, plan } := by
  have hheld := (retreatHanded_eq changes x).2
  have hcalm' : (retreatHanded changes x).engine.state.recallable = false := by rw [hheld]; exact hcalm
  have hstart' : (retreatHanded changes x).stage.status = .starting := by rw [hheld]; exact hstart
  have hon := handOn_eq changes x
  dsimp only at hon
  rw [retreatRecall_calm hcalm', ite_self] at hon
  obtain ⟨history, hlevels⟩ := levels_handed hpath (retreatHanded changes x)
  have hnone : takeAttempt { retreatHanded changes x with
      history := history, plan := levelledPlan a b (retreatHanded changes x) } = _ :=
    takeAttempt_none (.inr (.inl (not_takeReady_starting hstart')))
  rw [hnone, ite_self] at hlevels
  rw [hlevels] at hon
  refine ⟨history, levelledPlan a b (retreatHanded changes x), hon.trans ?_⟩
  split
  · refine takeAttempt_none (.inr (.inl (not_takeReady_starting ?_)))
    rw [formOutputs_keeps _ .stage (by decide)]
    exact hstart'
  · rfl

/-- A rise is raised as LEVEL_RISE. -/
theorem raiseChanges_rise {changes : List (Nat × Nat)} (h : ∀ c ∈ changes, c.1 < c.2) (s : State) :
    Notified [0] s (changes.foldl raiseChange s) := by
  induction changes generalizing s with
  | nil => exact .refl _ s
  | cons c rest ih =>
    have hrise : raiseChange s c = raise .levelRise s := by
      unfold raiseChange
      rw [if_pos (h c List.mem_cons_self)]
    rw [List.foldl_cons, hrise]
    exact (raise_notified .levelRise s).trans (ih (fun d hd => h d (List.mem_cons_of_mem _ hd)) _)

theorem retreatHanded_rise {changes : List (Nat × Nat)} (h : ∀ c ∈ changes, c.1 < c.2) (s : State) :
    Notified [0, 2] s (retreatHanded changes s) :=
  ((raiseChanges_rise h s).mono (by decide)).trans
    (((handCondition_notified .retreat (retreatAfter s.warning s.stage.stilled) _).mono (by decide)).congr
      (s' := changes.foldl raiseChange s) (t' := retreatHanded changes s) rfl rfl)

/-- An evaluation under STARTING, with no run to recall and no dwell pending, is followed by the outputs' forming. -/
theorem evaluate_calm {r : State} (hcalm : r.engine.state.recallable = false) (hstart : r.stage.status = .starting)
    (hdwell : r.warning.dwell = .stopped) :
    ∃ w, evaluate r = formOutputs w ∧ w.lines = r.lines ∧ Notified [0, 2] r w := by
  have hpath := (settleLevel_path 4 (evalInputs r) r.warning).1
  have hsettled := settleLevel_starting (i := evalInputs r) (w := r.warning) hstart hdwell 3
  have hevaluate : evaluate r = handOn (settleLevel 4 (evalInputs r) r.warning).2
    { r with warning := (settleLevel 4 (evalInputs r) r.warning).1 } := rfl
  rw [hevaluate]
  generalize settleLevel 4 (evalInputs r) r.warning = settled at *
  have hrises : ∀ c ∈ settled.2, c.1 < c.2 := by
    intro c hc
    rw [hsettled] at hc
    dsimp only at hc
    split at hc
    · rename_i hlt
      rw [List.mem_singleton.1 hc]
      exact hlt
    · cases hc
  let x : State := { r with warning := settled.1 }
  obtain ⟨history, plan, hon⟩ := handOn_calm (x := x) hpath hcalm hstart
  have hlines : (retreatHanded settled.2 x).lines = x.lines := by rw [(retreatHanded_eq settled.2 x).2]
  have hrise : Notified [0, 2] x (retreatHanded settled.2 x) := retreatHanded_rise hrises x
  generalize retreatHanded settled.2 x = h at *
  exact ⟨_, hon, hlines, hrise.congr rfl rfl⟩

theorem setStatus_same {status : StageStatus} {s : State} (h : s.stage.status = status) :
    (setStatus status s).notices = s.notices := by
  have hno : (s.stage.status != status) = false := by rw [h, bne_self_eq_false]
  unfold setStatus
  rw [hno]
  rfl

/-- STARTING offered to an engine without a run, no dwell being pending: what the outputs' forming follows. -/
theorem startOver_calm {y : State} (hcalm : y.engine.state.recallable = false) (hdwell : y.warning.dwell = .stopped) :
    ∃ w history plan, startOver y = { formOutputs w with history, plan } ∧ w.lines = y.lines ∧
      Notified [0, 2, 3, 7] y w ∧ (y.stage.status = .starting → PendingAsBefore 3 y w) := by
  have hz := setStatus_keeps .starting y
  have hstatus := setStatus_notified .starting y
  have hsame (h : y.stage.status = .starting) : (setStatus .starting y).notices = y.notices := setStatus_same h
  have hstart : (setStatus .starting y).stage.status = .starting := by rw [setStatus_stage]
  have hunfolded : startOver y = offer (setStatus .starting y) := rfl
  rw [hunfolded]
  generalize setStatus .starting y = z at *
  have hr := recomputeDischarge_keeps z.stage.stilled z
  have hrated : Notified [7] z (recomputeDischarge z.stage.stilled z) := recomputeDischarge_notified _ z
  have hkept : (offerTaken z).stage = z.stage := rateAgain_keeps z .stage (by decide)
  have hnone : offer z = offerTaken z :=
    (offer_eq z).trans (takeAttempt_none (.inr (.inl (not_takeReady_starting (hkept ▸ hstart)))))
  have htaken : offerTaken z = { evaluate (recomputeDischarge z.stage.stilled z) with
      history := (offerTaken z).history, plan := (offerTaken z).plan } := rfl
  rw [hnone, htaken]
  generalize (offerTaken z).history = history, (offerTaken z).plan = plan
  clear hkept hnone htaken
  generalize recomputeDischarge z.stage.stilled z = r at *
  have hengine : r.engine = y.engine := (hr .engine (by decide)).trans (hz .engine (by decide))
  have hwarning : r.warning = y.warning := (hr .warning (by decide)).trans (hz .warning (by decide))
  have hstage : r.stage = z.stage := hr .stage (by decide)
  have hlines : r.lines = y.lines := (hr .lines (by decide)).trans (hz .lines (by decide))
  obtain ⟨w, hevaluate, hkeptLines, hrise⟩ := evaluate_calm (r := r) (by rw [hengine]; exact hcalm)
    (by rw [hstage]; exact hstart) (by rw [hwarning]; exact hdwell)
  refine ⟨w, history, plan, by rw [hevaluate], hkeptLines.trans hlines, ?_, fun h p => ?_⟩
  · have hnoted : Notified [0, 2, 3, 7] y r := (hstatus.mono (by decide)).trans (hrated.mono (by decide))
    exact hnoted.trans (hrise.mono (by decide))
  · have hbefore := (hrise.kept.asBefore (k := 3) (by decide) p).trans (hrated.kept.asBefore (by decide) p)
    rw [hsame h] at hbefore
    exact hbefore

/-! ## LINE_CHANGE comes of the lines (R184) -/

/-- LINE_CHANGE is raised only where an armed line's watched value differs. -/
def LinesRaise (s t : State) : Prop :=
  (∀ i, i < 16 → lineMoved s.lines t.lines i = false) → PendingAsBefore 17 s t

theorem LinesRaise.of_notified {l : List Nat} {s t : State} (h : Notified l s t) (hl : 17 ∉ l) : LinesRaise s t :=
  fun _ => h.kept.asBefore hl

theorem LinesRaise.before {s t u : State} (h : LinesRaise t u) (hs : PendingAsBefore 17 s t)
    (hl : t.lines = s.lines) : LinesRaise s u := fun hstill p =>
  (h (fun i hi => by rw [hl]; exact hstill i hi) p).trans (hs p)

theorem LinesRaise.after {s t u : State} (h : LinesRaise s t) (hu : PendingAsBefore 17 t u)
    (hl : u.lines = t.lines) : LinesRaise s u := fun hstill p =>
  (hu p).trans (h (fun i hi => by rw [← hl]; exact hstill i hi) p)

theorem changeLines_raise (f : FieldLines) (s : State) (hf : f.line = s.lines.line) :
    LinesRaise s (changeLines f s) := by
  intro hstill
  have hany : (List.range 16).any (lineMoved s.lines (f.settlePins s.lines)) = false := by
    rw [List.any_eq_false]
    intro i hi
    have hi16 := List.mem_range.1 hi
    obtain ⟨hpermit, hkept, hline⟩ := changeLines_line f s hf
    obtain ⟨-, hwatched, -⟩ := FieldLines.see_eq hpermit hkept
    obtain ⟨-, -, hsees, harm⟩ := changedLine_sees f s.lines (lineAt s i)
    have hmoved := hstill i hi16
    rw [lineMoved_eq, hwatched, hline i hi16, hsees, harm] at hmoved
    rw [lineMoved_settlePins hf hi16]
    exact Bool.eq_false_iff.1 hmoved
  have hnotices : (changeLines f s).notices = s.notices := by
    simp only [changeLines, judgeLines, hany, raiseIf]
    rfl
  exact fun p => by rw [hnotices]

theorem handPermit_raise (v : Permit) (s : State) : LinesRaise s (handPermit v s) := by
  unfold handPermit
  split
  · exact fun _ _ => rfl
  · exact changeLines_raise _ s rfl

theorem handDriven_raise (v : Vector Bool 4) (s : State) : LinesRaise s (handDriven v s) := by
  unfold handDriven
  split
  · exact fun _ _ => rfl
  · exact changeLines_raise _ s rfl

theorem formOutputs_raise (s : State) : LinesRaise s (formOutputs s) := by
  unfold formOutputs
  exact (handDriven_raise _ _).before (fun _ => rfl) rfl

theorem enter_raise (st : RunState) (s : State) : LinesRaise s (enter st s) := by
  let x := withEngine { s.engine with
    state := st
    holdKind := if st = .holding then s.engine.holdKind else none
    homingCause := if st = .homing then s.engine.homingCause else none } s
  have hpermit : LinesRaise s (handPermit st.permit x) := (handPermit_raise st.permit x).before (fun _ => rfl) rfl
  have hconditions : Notified [10, 11, 14] (handPermit st.permit x) (enter st s) :=
    (((handCondition_notified .carriageWanted st.carriageWanted (handPermit st.permit x)).mono (by decide)).trans
      ((handCondition_notified .proceedWanted (st == .holding) _).mono (by decide))).trans
      ((handCondition_notified .trip (st == .tripped) _).mono (by decide))
  exact hpermit.after (hconditions.kept.asBefore (by decide)) rfl

theorem LineUntouched.unmoved {i : Nat} {s t : State} (h : LineUntouched i s t) :
    lineMoved s.lines t.lines i = false := by
  obtain ⟨hline, -, hwatched⟩ := h
  rw [lineMoved_eq, hline, hwatched, bne_self_eq_false, Bool.and_false]

/-- A permit and then driven values: a line that either moves has moved over both. -/
theorem LinesRaise.then_driven {s t u : State} (h : LinesRaise s t) (hp : PermitStep s t) (h' : LinesRaise t u)
    (hd : DrivenStep t u) : LinesRaise s u := by
  intro hstill
  have hboth (i : Nat) (hi : i < 16) : lineMoved s.lines t.lines i = false ∧ lineMoved t.lines u.lines i = false := by
    have hmoved := hstill i hi
    by_cases hwarn : ∃ k, (lineAt s i).function = .warnOut k
    · obtain ⟨k, hk⟩ := hwarn
      have hfirst := (hp.2 i hi).2 k hk
      refine ⟨hfirst.unmoved, ?_⟩
      obtain ⟨hline, -, hwatched⟩ := hfirst
      rw [lineMoved_eq] at hmoved ⊢
      rw [hline, hwatched]
      exact hmoved
    · have hfn := (hp.2 i hi).1.function_eq
      have hlast := (hd.2 i hi).2 fun k hk => hwarn ⟨k, hfn.symm.trans hk⟩
      refine ⟨?_, hlast.unmoved⟩
      obtain ⟨hline, -, hwatched⟩ := hlast
      rw [lineMoved_eq] at hmoved ⊢
      rw [hline, hwatched] at hmoved
      exact hmoved
  exact fun p => (h' (fun i hi => (hboth i hi).2) p).trans (h (fun i hi => (hboth i hi).1) p)

end Sys2Proof.Machine
end

section
/-! SUPPORT. The run that a station reset ends (R89, R113, R184). -/

namespace Sys2Proof.Machine

/-- What the end of the run by a reset makes of a state: the run ended and the engine in IDLE, or nothing where no run
is active. -/
structure RunReset (s t : State) : Prop where
  entered : Entered (if s.engine.state = .tripped then .tripped else .idle) t
  records : RecordsKept s t
  trip : t.engine.trip = s.engine.trip
  ended : s.engine.state.runActive = true → RunEnded .reset s t
  stood : s.engine.state.runActive = false → t.engine.lastEnd = s.engine.lastEnd ∧ PendingAsBefore 13 s t
  closes : ClosesOpenPass s.stage.status .reset s t
  unclosed : s.engine.passOpen = false → PendingAsBefore 12 s t
  plan : t.plan = { s.plan with activeSlot := none }
  moved : PermitMoved (13 :: passSources) s t
  raise : LinesRaise s t
  untouched : ∀ i, i < 16 → (lineAt s i).function ≠ .permitOut ∨ (lineAt s i).direction = .input → LineUntouched i s t

theorem haltedIn_raise (st : RunState) (record : TripRecord) (cause : EndCause) (s : State) :
    LinesRaise s (haltedIn st record cause s) := by
  let x := withEngine { (closeIfOpen cause (stopTimers s)).engine with trip := record }
    (closeIfOpen cause (stopTimers s))
  have hnoted : Notified [12] s x := (closeIfOpen_notified cause (stopTimers s)).congr rfl rfl
  exact (enter_raise st x).before (hnoted.kept.asBefore (by decide)) (closeIfOpen_lines cause (stopTimers s))

theorem haltedIn_lines (st : RunState) (record : TripRecord) (cause : EndCause) (s : State) :
    (haltedIn st record cause s).lines = (handPermit st.permit s).lines :=
  (enter_lines st _).trans (handPermit_lines _ (closeIfOpen_lines cause (stopTimers s)))

theorem RunState.permit_active {st : RunState} (h : st.runActive = true) : st.permit ≠ .withdrawn := by
  cases st
  case idle | tripped => cases h
  all_goals decide

theorem endByReset_ends {s : State} (h : s.engine.state.runActive = true) (inv : EngineInv s) :
    RunReset s (endByReset s) := by
  obtain ⟨hidle, -, hended, -, htrip, -, -, -, -, -, hcloses, -, hmoved⟩ := resetEngine_active s
  obtain ⟨hengine, hplan, hlines, -, -, hnoted⟩ :=
    endRun_ended (cause := .reset) (by decide) (haltedIn .idle s.engine.trip .reset s)
  have hkept : (haltedIn .idle s.engine.trip .reset s).plan = s.plan := haltedIn_keeps _ _ _ s .plan (by decide)
  have hstage : (endRun .reset (haltedIn .idle s.engine.trip .reset s)).stage = s.stage :=
    (endRun_keeps .reset _ .stage (by decide)).trans (haltedIn_keeps _ _ _ s .stage (by decide))
  have hpermit : s.lines.permit ≠ .withdrawn := by
    rw [inv.permit]
    exact RunState.permit_active h
  have hstate : ¬ s.engine.state = .tripped := fun ht => by rw [ht] at h; cases h
  rw [haltedIn_engine .idle s.engine.trip .reset s (by decide) (by decide)] at hengine
  have hfield {α : Type} (f : RunEngine → α) := congrArg f hengine
  have hrecords : RecordsKept s (endRun .reset (haltedIn .idle s.engine.trip .reset s)) :=
    ⟨hfield RunEngine.runNumber, hfield RunEngine.passNumber, hfield RunEngine.fetchCount, hfield RunEngine.direction,
      hfield RunEngine.ghStart, hfield RunEngine.ghStartHeld, hfield RunEngine.vertical,
      pointKept_of (hfield RunEngine.point) (hfield RunEngine.countTimer)⟩
  rw [endByReset_active h]
  refine ⟨by rw [if_neg hstate]; exact hidle, hrecords, htrip, fun _ => hended,
    fun hno => absurd (h.symm.trans hno) nofun, ?_, fun hopen => ?_, by rw [hplan, hkept], ?_, ?_, fun i hi hline => ?_⟩
  · rw [← hstage]
    exact hcloses
  · have hclosed := (haltedIn_notified_closed .idle s.engine.trip .reset hopen).kept
    exact fun p => (hnoted.kept.asBefore (by decide) p).trans (hclosed.asBefore (by decide) p)
  · exact hmoved.after (.of_eq rfl) rfl
  · exact (haltedIn_raise .idle _ .reset s).after (hnoted.kept.asBefore (by decide)) hlines
  · exact (handPermit_untouched hi hline hpermit (v := .released) (by decide)).trans
      (.of_eq (hlines.trans (haltedIn_lines .idle _ .reset s)))

theorem endByReset_stands {s : State} (h : s.engine.state.runActive = false) (inv : EngineInv s) :
    RunReset s s := by
  have hclosed : s.engine.passOpen = false := by
    have hkind : s.engine.holdKind = none := by
      refine Option.not_isSome_iff_eq_none.1 ?_
      rw [inv.holdKind, beq_iff_eq]
      intro hs
      rw [hs] at h
      cases h
    rw [inv.passOpen, hkind]
    cases hs : s.engine.state <;> simp_all [RunState.runActive, RunState.measures]
  have hslot : s.plan.activeSlot = none := by
    have hnone := inv.slot
    rw [h] at hnone
    rw [inv.activeSlot]
    simpa using hnone
  have hstate : (if s.engine.state = .tripped then RunState.tripped else .idle) = s.engine.state := by
    cases hs : s.engine.state <;> simp_all [RunState.runActive]
  refine ⟨?_, ⟨rfl, rfl, rfl, rfl, rfl, rfl, rfl, rfl, rfl, rfl, rfl, rfl⟩, rfl,
    fun ha => absurd (ha.symm.trans h) nofun, fun _ => ⟨rfl, fun _ => rfl⟩,
    ⟨hclosed, fun ho => absurd (ho.symm.trans hclosed) nofun, fun _ => rfl⟩,
    fun _ _ => rfl, by rw [← hslot], .refl _ s, fun _ _ => rfl, fun _ _ _ => .of_eq rfl⟩
  rw [hstate]
  exact ⟨rfl, inv.permit, inv.carriageWanted, inv.proceedWanted, inv.trip⟩

theorem endByReset_resets {s : State} (inv : EngineInv s) : RunReset s (endByReset s) := by
  cases h : s.engine.state.runActive
  · rw [endByReset_idle h]
    exact endByReset_stands h inv
  · exact endByReset_ends h inv

end Sys2Proof.Machine
end

section
/-! SUPPORT. A station reset from its clearing to its offer of STARTING: what each part leaves (R205). -/

namespace Sys2Proof.Machine

/-! ## The parts of a station reset (R205) -/

/-- The buffers, the notices, the latches and the slots cleared. -/
def resetCleared (s : State) : State := disarmAll (clearLatches (clearNotices (resetPorts s)))

/-- The active run ended. -/
def resetEnded (s : State) : State := endByReset (resetCleared s)

/-- The dwell stopped and the Stage Unit cleared, before STARTING is set and offered. -/
def resetOffering (s : State) : State :=
  restartSample { stopDwell (resetEnded s) with stage := (resetEnded s).stage.atReset }

/-- STARTING offered. -/
def resetOffered (s : State) : State := startOver (resetOffering s)

theorem stationReset_eq (s : State) : stationReset s = restoreNotices (resetOffered s) := rfl

section parts
variable {s : State}

theorem resetCleared_inv (inv : EngineInv s) : EngineInv (resetCleared s) := inv.congr {}

theorem resetCleared_slotAt {k : Nat} (hk : k < 4) : slotAt (resetCleared s) k = (slotAt s k).atReset :=
  slotAt_of_map (s := s) rfl hk

theorem resetCleared_lineAt {i : Nat} (hi : i < 16) :
    lineAt (resetCleared s) i = { lineAt s i with changed := false } := at'_map _ _ hi

theorem resetCleared_port (p : Port) : (resetCleared s).notices.port.get p =
    { s.notices.port.get p with pendingSet := 0#20, master := false, oneShot := false }.judge :=
  PerPort.get_mapPorts ..

theorem resetEnded_resets (inv : EngineInv s) : RunReset (resetCleared s) (resetEnded s) :=
  endByReset_resets (resetCleared_inv inv)

theorem resetEnded_keeps (b : Block) (hb : b ∉ runBlocks) : sameBlock (resetCleared s) (resetEnded s) b :=
  endByReset_keeps (resetCleared s) b hb

theorem resetEnded_stage : (resetEnded s).stage = s.stage := resetEnded_keeps .stage (by decide)

theorem resetEnded_warning : (resetEnded s).warning = s.warning := resetEnded_keeps .warning (by decide)

theorem resetEnded_clock : (resetEnded s).clock = s.clock := resetEnded_keeps .clock (by decide)

theorem resetEnded_history : (resetEnded s).history = s.history := resetEnded_keeps .history (by decide)

theorem resetEnded_rating : (resetEnded s).rating = s.rating := resetEnded_keeps .rating (by decide)

/-- The Stage Unit that STARTING is set in. -/
theorem resetOffering_stage : (resetOffering s).stage =
    { s.stage.atReset with sampleDue := nowMs s + s.stage.cfg.period * 1000, gateCount := 0 } := by
  have hnow : nowMs (resetEnded s) = nowMs s := nowMs_eq resetEnded_clock
  have hstage : (resetOffering s).stage = { (resetEnded s).stage.atReset with
      sampleDue := nowMs (resetEnded s) + (resetEnded s).stage.cfg.period * 1000, gateCount := 0 } := rfl
  rw [hstage, hnow, resetEnded_stage]

theorem resetOffering_warning : (resetOffering s).warning = { s.warning with dwell := .stopped } := by
  have hwarning : (resetOffering s).warning = { (resetEnded s).warning with dwell := .stopped } := rfl
  rw [hwarning, resetEnded_warning]

theorem resetOffering_rest (inv : EngineInv s) : (resetOffering s).engine.state = .idle ∨
    (resetOffering s).engine.state = .tripped := by
  have hstate : (resetOffering s).engine.state = _ := (resetEnded_resets inv).entered.1
  rw [hstate]
  split
  · exact .inr rfl
  · exact .inl rfl

theorem resetOffering_calm (inv : EngineInv s) : (resetOffering s).engine.state.recallable = false := by
  obtain h | h := resetOffering_rest inv <;> rw [h] <;> rfl

/-! ## The offer (R20, R49, R69, R142) -/

theorem resetOffered_follows : OfferFollows [3, 7] (resetOffering s).rating (resetOffering s).stage.stilled .starting
    (resetOffering s).stage.rise (resetOffering s) (resetOffered s) :=
  startOver_offers ⟨⟨rfl, rfl, rfl, rfl, rfl⟩, rfl, .of_eq rfl, rfl, rfl⟩ rfl rfl (by decide) (by decide) (by decide)
    (by decide)

theorem resetOffered_stage : (resetOffered s).stage = { (resetOffering s).stage with status := .starting } :=
  startOver_stage _

/-- With STARTING offered nothing is taken, and no run is there to recall. -/
theorem resetOffered_stands (inv : EngineInv s) :
    (resetOffered s).engine = (resetEnded s).engine ∧ (resetOffered s).results = (resetEnded s).results ∧
      (resetOffered s).lines.permit = (resetEnded s).lines.permit ∧
      (resetOffered s).plan = offeredPlan true none (resetOffered s).stage.stilled
        ((resetEnded s).plan.judged (levelJudged s.warning.level (resetOffered s).warning.level)) ∧
      NoticesKeptBut ([3, 7] ++ [0, 1, 2, 17]) (resetEnded s) (resetOffered s) := by
  obtain ⟨-, -, -, -, -, hstands⟩ := (resetOffered_follows (s := s)).run
  have hcalm := resetOffering_calm inv
  have hstart : (resetOffered s).stage.status = .starting := by rw [resetOffered_stage]
  have hall := hstands (fun ⟨_, _, h⟩ => absurd (h.symm.trans hcalm) nofun)
    (.inl fun ⟨_, hready⟩ => not_takeReady_starting hstart hready)
  have hlevel : (resetOffering s).warning.level = s.warning.level := by rw [resetOffering_warning]
  rw [hlevel] at hall
  exact hall

/-! ## The lines over both parts (R176, R181, R182, R184) -/

theorem resetOffered_driven (inv : EngineInv s) : DrivenStep (resetEnded s) (resetOffered s) ∧
    LinesRaise (resetEnded s) (resetOffered s) ∧ Notified [0, 2, 3, 7, 17] (resetEnded s) (resetOffered s) ∧
    (s.stage.status = .starting → PendingAsBefore 3 (resetEnded s) (resetOffered s)) := by
  obtain ⟨w, history, plan, hoffered, hlines, hnoted, hstill⟩ := startOver_calm (resetOffering_calm inv)
    (show (resetOffering s).warning.dwell = .stopped by rw [resetOffering_warning])
  obtain ⟨hdriven, hformed⟩ := formOutputs_driven w
  have hraise := formOutputs_raise w
  have hbefore : PendingAsBefore 17 (resetEnded s) w := hnoted.kept.asBefore (by decide)
  have hoffered' : resetOffered s = { formOutputs w with history := history, plan := plan } := hoffered
  rw [hoffered']
  refine ⟨hdriven.congr (l := []) hlines.symm rfl (.of_eq rfl), (hraise.before hbefore hlines).after (fun _ => rfl) rfl,
    ((hnoted.mono (by decide)).trans (hformed.mono (by decide))).congr rfl rfl, fun h p => ?_⟩
  have hstarting : (resetOffering s).stage.status = .starting := by
    rw [resetOffering_stage]
    exact h
  exact (hformed.kept.asBefore (by decide) p).trans (hstill hstarting p)

theorem resetOffered_lines (inv : EngineInv s) : LinesFollow (resetCleared s) (resetOffered s) ∧
    LinesRaise (resetCleared s) (resetOffered s) := by
  have hreset := resetEnded_resets inv
  obtain ⟨hdriven, hraise, hnoted, -⟩ := resetOffered_driven inv
  exact ⟨hreset.moved.step.then_driven hdriven hnoted, hreset.raise.then_driven hreset.moved.step hraise hdriven⟩

end parts

/-- A WARN_OUT line whose driven value stays sees no new driven values. -/
theorem DrivenStep.untouched {s t : State} (h : DrivenStep s t) {i : Nat} (hi : i < 16)
    (hkept : ∀ k, (lineAt s i).function = .warnOut k → at' t.lines.warnKept k = at' s.lines.warnKept k) :
    LineUntouched i s t := by
  obtain ⟨hpermit, hlines⟩ := h
  obtain ⟨hfollows, huntouched⟩ := hlines i hi
  by_cases hwarn : ∃ k, (lineAt s i).function = .warnOut k
  · obtain ⟨k, hk⟩ := hwarn
    have hvalue (l : FieldLine) (hl : l.function = .warnOut k) : t.lines.value l = s.lines.value l := by
      simp only [FieldLines.value, hl, hkept k hk]
    have hsee : t.lines.presented (lineAt s i) = s.lines.presented (lineAt s i) := by
      simp only [FieldLines.presented, FieldLines.pullUpActs, FieldLines.drive, hvalue _ hk, hpermit]
    have hpresented : t.lines.presented (lineAt t i) = t.lines.presented (lineAt s i) := by
      rw [hfollows.line_eq]
      simp only [FieldLines.presented, FieldLines.pullUpActs, FieldLines.drive, FieldLines.value, hk]
      rfl
    refine ⟨hfollows.2.1 (hpresented.trans hsee), hsee, ?_⟩
    simp only [FieldLines.watched, hvalue _ hk]
  · exact huntouched fun k hk => hwarn ⟨k, hk⟩

/-- A line that neither the permit nor a driven value concerns is left with its latch cleared. -/
theorem resetOffered_untouched {s : State} (inv : EngineInv s) {i : Nat} (hi : i < 16)
    (hfn : (lineAt s i).function ≠ .permitOut)
    (hkept : ∀ k, (lineAt s i).function = .warnOut k →
      at' (resetOffered s).lines.warnKept k = at' s.lines.warnKept k) :
    LineUntouched i (resetCleared s) (resetOffered s) := by
  have hreset := resetEnded_resets inv
  have hfn' : (lineAt (resetCleared s) i).function = (lineAt s i).function := by rw [resetCleared_lineAt hi]
  have hfirst := hreset.untouched i hi (.inl (by rw [hfn']; exact hfn))
  refine hfirst.trans ((resetOffered_driven inv).1.untouched hi fun k hk => ?_)
  rw [hfirst.1, hfn'] at hk
  have hpermit : (resetEnded s).lines.warnKept = s.lines.warnKept := hreset.moved.step.1
  rw [hpermit]
  exact hkept k hk

end Sys2Proof.Machine
end

section
/-! SUPPORT. What a station reset keeps and clears, block by block (R205, R113, R157, R187, R199). -/

namespace Sys2Proof.Machine

/-! ## The conditions that hold, pending again (R199) -/

theorem restoreNotices_port (s : State) (p : Port) : (restoreNotices s).notices.port.get p =
    { s.notices.port.get p with
      pendingSet := (s.notices.port.get p).pendingSet ||| s.notices.holdingSet p }.judge :=
  PerPort.get_mapPorts ..

/-- An event is pending after the restoring where it was before. -/
theorem restoreNotices_event (s : State) (p : Port) {k : Nat} (hk : k < 20) (hevent : k ∉ [2, 7, 10, 11, 14, 18]) :
    ((restoreNotices s).notices.port.get p).pendingSet.getLsbD k = (s.notices.port.get p).pendingSet.getLsbD k := by
  have hnone : (s.notices.holdingSet p).getLsbD k = false := by
    rw [← Bool.not_eq_true, NoticeUnit.holdingSet_bit _ p hk]
    rintro ⟨-, ⟨c, rfl, -⟩ | ⟨rfl, -⟩⟩
    · cases c <;> exact hevent (by decide)
    · exact hevent (by decide)
  have hset : ((restoreNotices s).notices.port.get p).pendingSet =
      (s.notices.port.get p).pendingSet ||| s.notices.holdingSet p := by
    rw [restoreNotices_port]
    rfl
  rw [hset, BitVec.getLsbD_or, hnone, Bool.or_false]

theorem restoreNotices_routed (s : State) (k : Nat) (p : Port) :
    (restoreNotices s).notices.routed k p = s.notices.routed k p := rfl

theorem restoreNotices_pending {s : State} {k : Nat} (hk : k < 20) (hevent : k ∉ [2, 7, 10, 11, 14, 18])
    (h : PendingWhereRouted k s) : PendingWhereRouted k (restoreNotices s) := fun p hp => by
  rw [restoreNotices_event s p hk hevent]
  exact h p hp

section offered
variable {s : State}

/-! ## The Stage Unit, the open interval and the rating (R26, R28, R49) -/

theorem resetOffered_unit : (resetOffered s).stage = { s.stage.atReset with
    sampleDue := nowMs s + s.stage.cfg.period * 1000, gateCount := 0, status := .starting } := by
  rw [resetOffered_stage, resetOffering_stage]

theorem resetOffered_stilled : (resetOffered s).stage.stilled = s.stage.stilled := by
  rw [resetOffered_unit]
  rfl

theorem resetOffered_status (h : s.stage.status ≠ .starting) : PendingWhereRouted 3 (resetOffered s) := by
  have hstatus : (resetOffering s).stage.status ≠ .starting := by
    rw [resetOffering_stage]
    exact h
  exact startOver_pending hstatus

theorem resetOffering_history : (resetOffering s).history = s.history := resetEnded_history (s := s)

theorem resetOffered_interval : IntervalTakes true s (resetOffered s) := by
  have hinterval := (resetOffered_follows (s := s)).interval
  unfold IntervalTakes at hinterval ⊢
  rw [resetOffering_history, resetOffering_warning] at hinterval
  exact hinterval

/-- The worst status of an interval that takes STARTING (R28). -/
theorem worst_starting {a b : StageStatus} (h : [StageStatus.lost, .starting, .suspect, .single, .good].find?
    (fun x => x == a || x == .starting) = some b) : b = worseStatus a .starting := by
  cases a <;> exact (Option.some.inj h).symm

theorem resetOffering_rating : (resetOffering s).rating = s.rating := resetEnded_rating (s := s)

theorem resetOffered_rating : (resetOffered s).rating =
    { s.rating with stageUsed := s.stage.stilled, current := s.rating.dischargeFor s.stage.stilled } := by
  obtain ⟨hrating, -, -⟩ := (resetOffered_follows (s := s)).rated
  rw [resetOffering_rating, resetOffering_stage] at hrating
  exact hrating

/-! ## The Plan Store (R83, R69, R70) -/

/-- A slot disarmed, and then judged for an offer and a change of the level. -/
def slotAfterReset (before stage : Option Int) (a b : Nat) (x : Slot) : Slot :=
  offerJudged before stage (levelJudged a b x.atReset)

theorem resetOffered_plan (inv : EngineInv s) :
    (resetOffered s).plan = { s.plan with
      slots := s.plan.slots.map
        (slotAfterReset s.plan.previousStage s.stage.stilled s.warning.level (resetOffered s).warning.level)
      activeSlot := none, previousStage := s.stage.stilled } := by
  obtain ⟨-, -, -, hplan, -⟩ := resetOffered_stands inv
  have hended : (resetEnded s).plan = { s.plan with slots := s.plan.slots.map Slot.atReset, activeSlot := none } :=
    (resetEnded_resets inv).plan
  rw [resetOffered_stilled, hended] at hplan
  refine Eq.trans hplan ?_
  simp only [offeredPlan, PlanStore.judged, if_true, Vector.map_map]
  rfl

/-- What a disarmed slot's flag is after the reset's offer and its change of the level. -/
theorem slotAfterReset_slot (before stage : Option Int) (a b : Nat) (x : Slot) :
    let y := slotAfterReset before stage a b x
    y.definition = x.definition ∧ y.armed = false ∧ y.timer = .stopped ∧
      (x.definition.trigger.isLevel = false → y.request = false) ∧
      (∀ h, x.definition.trigger = .stageRise h .level → (y.request = true ↔ ∃ z, stage = some z ∧ h ≤ z)) ∧
      ∀ l, x.definition.trigger = .warningLevel l .level → (y.request = true ↔ a < l ∧ l ≤ b) := by
  intro y
  have hy : y = offerJudged before stage (levelJudged a b x.atReset) := rfl
  have hreset : x.atReset.definition.trigger = x.definition.trigger := rfl
  cases htrigger : x.definition.trigger with
  | warningLevel l sense =>
    rw [htrigger] at hreset
    cases sense with
    | edge =>
      have hsame : y = x.atReset := by
        simp [hy, levelJudged, offerJudged, Slot.atReset, htrigger]
      rw [hsame]
      exact ⟨rfl, rfl, rfl, fun _ => rfl, nofun, nofun⟩
    | level =>
      have hjudged : y = { x.atReset with request := decide (a < l ∧ l ≤ b) } := by
        by_cases h : a < l ∧ l ≤ b <;> by_cases h' : b < l ∧ l ≤ a <;>
          simp [hy, levelJudged, offerJudged, Slot.atReset, htrigger, h, h']
      rw [hjudged]
      exact ⟨rfl, rfl, rfl, nofun, nofun, fun l' hl' => by cases hl'; exact decide_eq_true_iff⟩
  | stageRise h sense =>
    rw [htrigger] at hreset
    have hlevel : levelJudged a b x.atReset = x.atReset := by simp only [levelJudged, hreset]
    rw [hlevel] at hy
    cases sense with
    | edge =>
      have hsame : y = x.atReset := by
        rw [hy]
        cases before <;> cases stage <;> simp [offerJudged, Slot.atReset, htrigger]
      rw [hsame]
      exact ⟨rfl, rfl, rfl, fun _ => rfl, nofun, nofun⟩
    | level =>
      have hjudged : y = { x.atReset with request := decide (∃ z, stage = some z ∧ h ≤ z) } := by
        rw [hy]
        cases before <;> cases stage <;> simp [offerJudged, Slot.atReset, htrigger]
      rw [hjudged]
      exact ⟨rfl, rfl, rfl, nofun, fun h' hh' => by cases hh'; exact decide_eq_true_iff, nofun⟩
  | _ =>
    rw [htrigger] at hreset
    have hsame : y = x.atReset := by simp only [hy, levelJudged, offerJudged, hreset]
    rw [hsame]
    exact ⟨rfl, rfl, rfl, fun _ => rfl, nofun, nofun⟩

end offered

end Sys2Proof.Machine
end

section
/-! SUPPORT. The run, the warning, the lines and the notices after a station reset's offer (R113, R143, R144, R157,
R187, R199). -/

namespace Sys2Proof.Machine

/-! ## The records of the run (R113) -/

/-- The definition that the engine reads depends on its slot and on the slots' definitions. -/
theorem activeDefinition_of {s t : State} (hslot : t.engine.slot = s.engine.slot)
    (h : ∀ k, k < 4 → (slotAt t k).definition = (slotAt s k).definition) : activeDefinition t = activeDefinition s := by
  unfold activeDefinition
  rw [hslot]
  by_cases hk : s.engine.slot.getD 0 < 4
  · exact h _ hk
  · have houtside (v : Vector Slot 4) : at' v (s.engine.slot.getD 0) = default := by
      simp [at', hk]
    rw [houtside, houtside]

/-- What reads the engine's records alone is the same with another plan that keeps the slots' definitions. -/
theorem recordsKept_of {s t : State} (hengine : t.engine = s.engine) (hclock : t.clock = s.clock)
    (h : ∀ k, k < 4 → (slotAt t k).definition = (slotAt s k).definition) : RecordsKept s t := by
  have hcounted : countedNow t = countedNow s := by simp only [countedNow, nowMs_eq hclock, hengine]
  have hpaused : pausedNow t = pausedNow s := by
    simp only [pausedNow, nowMs_eq hclock, hengine, activeDefinition_of (congrArg RunEngine.slot hengine) h]
  unfold RecordsKept PointKept
  rw [hcounted, hpaused, hengine]
  exact ⟨rfl, rfl, rfl, rfl, rfl, rfl, rfl, rfl, rfl, rfl, rfl, rfl⟩

theorem RecordsKept.trans {s t u : State} (h : RecordsKept s t) (h' : RecordsKept t u) : RecordsKept s u := by
  obtain ⟨h1, h2, h3, h4, h5, h6, h7, h8, h9, h10, h11, h12⟩ := h
  obtain ⟨k1, k2, k3, k4, k5, k6, k7, k8, k9, k10, k11, k12⟩ := h'
  exact ⟨k1.trans h1, k2.trans h2, k3.trans h3, k4.trans h4, k5.trans h5, k6.trans h6, k7.trans h7, k8.trans h8,
    k9.trans h9, k10.trans h10, k11.trans h11, k12.trans h12⟩

section offered
variable {s : State}

theorem resetOffered_clock : (resetOffered s).clock = (resetEnded s).clock := startOver_keeps _ .clock (by decide)

theorem resetOffered_slots (inv : EngineInv s) {k : Nat} (hk : k < 4) : slotAt (resetOffered s) k =
    slotAfterReset s.plan.previousStage s.stage.stilled s.warning.level (resetOffered s).warning.level (slotAt s k) :=
  slotAt_of_map (by rw [resetOffered_plan inv]) hk

theorem resetOffered_records (inv : EngineInv s) : RecordsKept s (resetOffered s) := by
  have hreset := resetEnded_resets inv
  have hplan : (resetEnded s).plan.slots = (resetCleared s).plan.slots := by rw [hreset.plan]
  have hcleared : RecordsKept s (resetCleared s) :=
    recordsKept_of rfl rfl fun k hk => by rw [resetCleared_slotAt hk]; rfl
  refine (hcleared.trans hreset.records).trans (recordsKept_of (resetOffered_stands inv).1 resetOffered_clock
    fun k hk => ?_)
  have hended : slotAt (resetEnded s) k = (slotAt s k).atReset := by
    rw [slotAt, hplan]
    exact resetCleared_slotAt hk
  rw [hended, resetOffered_slots inv hk]
  exact (slotAfterReset_slot _ _ _ _ _).1

/-- The engine after the reset: the run ended, and the open pass closed with the gauge height of the last offer before
it. -/
theorem resetOffered_engine (inv : EngineInv s) :
    Entered (if s.engine.state = .tripped then .tripped else .idle) (resetOffered s) ∧
      (resetOffered s).engine.trip = s.engine.trip ∧
      (s.engine.state.runActive = true → RunEnded .reset s (resetOffered s)) ∧
      (s.engine.state.runActive = false → (resetOffered s).engine.lastEnd = s.engine.lastEnd) ∧
      ClosesOpenPass s.stage.status .reset s (resetOffered s) := by
  obtain ⟨⟨hstate, hpermit, hcarriage, hproceed, htripped⟩, -, htrip, hended, hstood, ⟨hshut, hcloses, hnone⟩, -, -⟩ :=
    resetEnded_resets inv
  obtain ⟨hengine, hresults, hsame, -, -, hholds, -⟩ := resetOffered_stands inv
  obtain ⟨-, -, hnoted, -⟩ := resetOffered_driven inv
  have hrating : (resetOffered s).rating.active = s.rating.active ∧
      (resetOffered s).rating.version = s.rating.version := by
    rw [resetOffered_rating]
    exact ⟨rfl, rfl⟩
  refine ⟨⟨by rw [hengine]; exact hstate, hsame.trans hpermit,
    (hholds .carriageWanted 10 (by decide) (by decide)).trans hcarriage,
    (hholds .proceedWanted 11 (by decide) (by decide)).trans hproceed,
    (hholds .trip 14 (by decide) (by decide)).trans htripped⟩, by rw [hengine]; exact htrip, fun ha => ?_, fun hi => ?_,
    by rw [hengine]; exact hshut, fun ho => ?_, fun hc => hresults.trans (hnone hc)⟩
  · obtain ⟨hlast, hraised⟩ := hended ha
    exact ⟨by rw [hengine]; exact hlast, hnoted.pending (by decide) (by decide) hraised⟩
  · rw [hengine]
    exact (hstood hi).1
  · obtain ⟨hdone, r, hr, hof, hheld, hrest⟩ := hcloses ho
    refine ⟨hnoted.pending (by decide) (by decide) hdone, r, hresults.trans hr, ?_, hheld, hrest⟩
    unfold ResultOf at hof ⊢
    have hstilled : (resetEnded s).stage.stilled = s.stage.stilled := by rw [resetEnded_stage]
    rw [resetEnded_rating, hstilled] at hof
    rw [hresults, hrating.1, hrating.2, resetOffered_stilled]
    exact hof

end offered

/-! ## The level and the dwell (R143, R144, R157) -/

/-- An evaluation under STARTING with no dwell pending. -/
theorem Evaluated.starting {i : EvalInputs} {w : WarningUnit} {t : State} (h : Evaluated i w t)
    (hi : i.status = .starting) (hw : w.dwell = .stopped) :
    let demand := (formDemand i w).demanded
    (t.warning.criteria = w.criteria ∧ t.warning.floor = w.floor ∧ t.warning.retreatStage = w.retreatStage ∧
      t.warning.retreatLevel = w.retreatLevel ∧ t.warning.demanded = demand) ∧
    (demand ≤ w.level → t.warning.level = w.level ∧ t.warning.silence = w.silence) ∧
    (demand < w.level → t.warning.dwell = .held (w.criteria.dwell * 60000)) ∧
    (w.level ≤ demand → t.warning.dwell = .stopped ∧ t.warning.level = demand) := by
  intro demand
  have hwarning := h.1
  rw [settleLevel_starting hi hw 3] at hwarning
  dsimp only at hwarning
  by_cases hlt : w.level < (formDemand i w).demanded
  · rw [if_pos hlt] at hwarning
    rw [hwarning]
    exact ⟨⟨rfl, rfl, rfl, rfl, rfl⟩, fun hle => absurd hlt (Nat.not_lt.2 hle),
      fun hbelow => absurd hlt (Nat.lt_asymm hbelow), fun _ => ⟨rfl, rfl⟩⟩
  · rw [if_neg hlt] at hwarning
    rw [hwarning]
    refine ⟨⟨rfl, rfl, rfl, rfl, rfl⟩, fun _ => ⟨rfl, rfl⟩, fun hbelow => if_neg (Nat.ne_of_lt hbelow), fun hge => ?_⟩
    have heq : (formDemand i w).demanded = w.level := Nat.le_antisymm (Nat.not_lt.1 hlt) hge
    exact ⟨if_pos heq, heq.symm⟩

/-- Outputs formed again from the same level, silence and settings are the same. -/
theorem OutputsFormed.same {s t : State} (hs : OutputsFormed s) (ht : OutputsFormed t)
    (hkept : OutputSettingsKept s.warning t) (hlevel : t.warning.level = s.warning.level)
    (hsilence : t.warning.silence = s.warning.silence) :
    t.warning.outputs = s.warning.outputs ∧ t.lines.warnKept = s.lines.warnKept := by
  have houtputs : t.warning.outputs = s.warning.outputs := by
    refine Vector.ext fun k hk => ?_
    obtain ⟨hoverride, hshow, hkind⟩ := hkept k hk
    rw [at'_eq _ hk, at'_eq _ hk] at hoverride hshow hkind
    obtain ⟨hauto, hfollows, hon, hoff⟩ := ht.2 _ (by simp : t.warning.outputs[k] ∈ t.warning.outputs.toList)
    obtain ⟨hauto', hfollows', hon', hoff'⟩ := hs.2 _ (by simp : s.warning.outputs[k] ∈ s.warning.outputs.toList)
    rw [hlevel, hsilence, hshow, hkind, ← hauto'] at hauto
    have hautomatic : t.warning.outputs[k].automatic = s.warning.outputs[k].automatic := Bool.eq_iff_iff.2 hauto
    have hdriven : t.warning.outputs[k].driven = s.warning.outputs[k].driven := by
      cases ho : s.warning.outputs[k].override
      · rw [hfollows (hoverride.trans ho), hfollows' ho, hautomatic]
      · rw [hon (hoverride.trans ho), hon' ho]
      · rw [hoff (hoverride.trans ho), hoff' ho]
    cases h : t.warning.outputs[k]
    cases h' : s.warning.outputs[k]
    simp_all
  exact ⟨houtputs, by rw [ht.1, hs.1, houtputs]⟩

theorem resetOffered_evaluated {s : State} : Evaluated
    ⟨s.stage.stilled, .starting, none, (resetOffered s).rating.current.discharge, nowMs s⟩
      { s.warning with dwell := .stopped } (resetOffered s) ∧
    (resetOffered s).notices.beyondRating =
      ((resetOffered s).rating.current.mark == .above || (resetOffered s).rating.current.mark == .aboveLimit) ∧
    ((resetOffered s).warning.level = s.warning.level → PendingAsBefore 0 (resetEnded s) (resetOffered s)) := by
  obtain ⟨-, hbeyond, hevaluated, hsame, -⟩ := (resetOffered_follows (s := s)).rated
  have hnow : nowMs (resetOffering s) = nowMs s := nowMs_eq (resetEnded_clock (s := s))
  have hunit : (resetOffering s).stage.stilled = s.stage.stilled ∧ (resetOffering s).stage.rise = none := by
    rw [resetOffering_stage]
    exact ⟨rfl, rfl⟩
  rw [hnow, hunit.1, hunit.2, resetOffering_warning] at hevaluated
  rw [resetOffering_warning] at hsame
  exact ⟨hevaluated, hbeyond, fun h => (hsame h).1⟩

end Sys2Proof.Machine
end

section
/-! SUPPORT. The lines and the notices after a station reset, and the statement about it (R187, R199, R205). -/

namespace Sys2Proof.Machine

section offered
variable {s : State}

/-! ## The lines (R176, R187) -/

theorem resetCleared_presented {i : Nat} (hi : i < 16) :
    (resetCleared s).lines.presented (lineAt (resetCleared s) i) = s.lines.presented (lineAt s i) := by
  rw [resetCleared_lineAt hi]
  rfl

theorem resetCleared_moved {i : Nat} (hi : i < 16) (f : FieldLines) :
    lineMoved (resetCleared s).lines f i = lineMoved s.lines f i := by
  have hwatched : (resetCleared s).lines.watched (at' (resetCleared s).lines.line i) =
      s.lines.watched (at' s.lines.line i) := by
    have hline : at' (resetCleared s).lines.line i = { lineAt s i with changed := false } := resetCleared_lineAt hi
    rw [hline]
    rfl
  unfold lineMoved
  rw [hwatched]

/-- A line keeps its configuration through a reset, and its pin what it presents. -/
theorem resetOffered_line (inv : EngineInv s) {i : Nat} (hi : i < 16) :
    lineAt (resetOffered s) i = { lineAt s i with
      pin := (lineAt (resetOffered s) i).pin, changed := (lineAt (resetOffered s) i).changed } ∧
    ((resetOffered s).lines.presented (lineAt (resetOffered s) i) = s.lines.presented (lineAt s i) →
      (lineAt (resetOffered s) i).pin = (lineAt s i).pin) ∧
    ((resetOffered s).lines.presented (lineAt (resetOffered s) i) ≠ s.lines.presented (lineAt s i) →
      (lineAt (resetOffered s) i).pin = (resetOffered s).lines.pinLevel (lineAt (resetOffered s) i)) := by
  have hfollows := (resetOffered_lines inv).1 i hi
  have hline := hfollows.line_eq
  obtain ⟨-, hsame, hdiffers, -, -⟩ := hfollows
  rw [resetCleared_presented hi] at hsame hdiffers
  rw [resetCleared_lineAt hi] at hline hsame
  refine ⟨hline, fun h => ?_, hdiffers⟩
  rw [hsame h]

/-- A latch is set after the reset only where the reset moves an armed line (R187). -/
theorem resetOffered_changed (inv : EngineInv s) {i : Nat} (hi : i < 16)
    (h : (lineAt s i).arm = false ∨ lineMoved s.lines (resetOffered s).lines i = false ∨
      ((lineAt s i).function ≠ .permitOut ∧ ∀ k, (lineAt s i).function = .warnOut k →
        at' (resetOffered s).lines.warnKept k = at' s.lines.warnKept k)) :
    (lineAt (resetOffered s) i).changed = false := by
  have hfollows := (resetOffered_lines inv).1 i hi
  have harm : (lineAt (resetOffered s) i).arm = (lineAt s i).arm := by
    rw [hfollows.config.2.1, resetCleared_lineAt hi]
  have hunmoved : lineMoved (resetCleared s).lines (resetOffered s).lines i = false := by
    obtain h | h | ⟨hfn, hkept⟩ := h
    · rw [lineMoved_eq, harm, h, Bool.false_and]
    · rw [resetCleared_moved hi]
      exact h
    · exact (resetOffered_untouched inv hi hfn hkept).unmoved
  obtain ⟨-, -, -, hchanged, -⟩ := hfollows
  rw [hchanged, hunmoved, resetCleared_lineAt hi]
  rfl

/-! ## The notices (R184, R189, R199) -/

theorem resetOffered_routes (inv : EngineInv s) : (resetOffered s).notices.routes = s.notices.routes :=
  (resetOffered_driven inv).2.2.1.kept.1.trans (resetEnded_resets inv).moved.notified.kept.1

/-- A port's settings after the reset's offer, its enable and its one-shot flag cleared. -/
theorem resetOffered_port (inv : EngineInv s) (p : Port) :
    ((resetOffered s).notices.port.get p).enables = (s.notices.port.get p).enables ∧
      ((resetOffered s).notices.port.get p).master = false ∧
      ((resetOffered s).notices.port.get p).oneShot = false ∧
      ((resetOffered s).notices.port.get p).historyReady = (s.notices.port.get p).historyReady := by
  obtain ⟨-, -, hfirst⟩ := (resetEnded_resets inv).moved.notified.kept
  obtain ⟨-, -, hlast⟩ := (resetOffered_driven inv).2.2.1.kept
  obtain ⟨henables, hmaster, honeShot, hready, -⟩ := hfirst p
  obtain ⟨henables', hmaster', honeShot', hready', -⟩ := hlast p
  rw [resetCleared_port] at henables hmaster honeShot hready
  exact ⟨henables'.trans henables, hmaster'.trans hmaster, honeShot'.trans honeShot,
    (hready' (by decide)).trans (hready (by decide))⟩

theorem resetCleared_bit (p : Port) (k : Nat) :
    ((resetCleared s).notices.port.get p).pendingSet.getLsbD k = false := by
  rw [resetCleared_port]
  exact BitVec.getLsbD_zero

/-- An event that neither the end of the run nor the offer raises is not pending. -/
theorem resetOffered_unraised {k : Nat} (hrun : PendingAsBefore k (resetCleared s) (resetEnded s))
    (hoffer : PendingAsBefore k (resetEnded s) (resetOffered s)) (p : Port) :
    ((resetOffered s).notices.port.get p).pendingSet.getLsbD k = false :=
  (hoffer p).trans ((hrun p).trans (resetCleared_bit p k))

/-- The four events that a reset raises, each where its condition is met. -/
theorem resetOffered_raises (inv : EngineInv s) {k : Nat} {raised : Bool}
    (h : (k, raised) ∈ [(0, decide (s.warning.level < (resetOffered s).warning.level)),
      (3, s.stage.status != .starting), (12, s.engine.passOpen), (13, s.engine.state.runActive)]) :
    (raised = true → PendingWhereRouted k (resetOffered s)) ∧
      (raised = false → ∀ p, ((resetOffered s).notices.port.get p).pendingSet.getLsbD k = false) := by
  have hreset := resetEnded_resets inv
  have hfirst := hreset.moved.notified.kept
  obtain ⟨-, -, hnoted, hstill⟩ := resetOffered_driven inv
  have hlast := hnoted.kept
  obtain ⟨-, -, hended, -, -, hcloses, -⟩ := resetOffered_engine inv
  obtain ⟨hevaluated, -, hlevel⟩ := resetOffered_evaluated (s := s)
  simp only [List.mem_cons, Prod.mk.injEq, List.not_mem_nil, or_false] at h
  obtain ⟨rfl, rfl⟩ | ⟨rfl, rfl⟩ | ⟨rfl, rfl⟩ | ⟨rfl, rfl⟩ := h
  · refine ⟨fun hrise => hevaluated.2.1 (of_decide_eq_true hrise), fun hno => ?_⟩
    obtain ⟨-, hbelow, -, habove⟩ := hevaluated.starting rfl rfl
    refine resetOffered_unraised (hfirst.asBefore (by decide)) (hlevel ?_)
    have hle := of_decide_eq_false hno
    obtain hdemand | hdemand := Nat.le_total
      (formDemand ⟨s.stage.stilled, .starting, none, (resetOffered s).rating.current.discharge, nowMs s⟩
        { s.warning with dwell := .stopped }).demanded s.warning.level
    · exact (hbelow hdemand).1
    · have heq := (habove hdemand).2
      omega
  · refine ⟨fun hs => resetOffered_status (by simpa using hs), fun hs => ?_⟩
    exact resetOffered_unraised (hfirst.asBefore (by decide)) (hstill (by simpa using hs))
  · exact ⟨fun ho => (hcloses ho).1,
      fun ho => resetOffered_unraised (hreset.unclosed ho) (hlast.asBefore (by decide))⟩
  · exact ⟨fun ha => (hended ha).2,
      fun hi => resetOffered_unraised (hreset.stood hi).2 (hlast.asBefore (by decide))⟩

/-- Where no armed line moves, LINE_CHANGE is not pending. -/
theorem resetOffered_lineChange (inv : EngineInv s)
    (h : ∀ i, i < 16 → lineMoved s.lines (resetOffered s).lines i = false) (p : Port) :
    ((resetOffered s).notices.port.get p).pendingSet.getLsbD 17 = false :=
  ((resetOffered_lines inv).2 (fun i hi => (resetCleared_moved hi _).trans (h i hi)) p).trans (resetCleared_bit p 17)

end offered

/-! ## The whole reset (R205) -/

theorem stationReset_plan {s : State} (inv : EngineInv s) :
    let t := restoreNotices (resetOffered s)
    t.plan.pool = s.plan.pool ∧ t.plan.meters = s.plan.meters ∧ t.plan.order = s.plan.order ∧
      t.plan.priority = s.plan.priority ∧ t.plan.fetched = s.plan.fetched ∧ t.plan.activeSlot = none ∧
      t.plan.previousStage = s.stage.stilled ∧
      ∀ k, k < 4 → (slotAt t k).definition = (slotAt s k).definition ∧
        (slotAt t k).armed = false ∧ (slotAt t k).timer = .stopped ∧
        ((slotAt s k).definition.trigger.isLevel = false → (slotAt t k).request = false) ∧
        (∀ h, (slotAt s k).definition.trigger = .stageRise h .level →
          ((slotAt t k).request = true ↔ ∃ z, s.stage.stilled = some z ∧ h ≤ z)) ∧
        ∀ l, (slotAt s k).definition.trigger = .warningLevel l .level →
          ((slotAt t k).request = true ↔ LevelReached l s t) := by
  have hplan := resetOffered_plan inv
  have hslots {k : Nat} (hk : k < 4) := resetOffered_slots inv hk
  generalize resetOffered s = o at *
  have hfield {α : Type} (f : PlanStore → α) := congrArg f hplan
  refine ⟨hfield PlanStore.pool, hfield PlanStore.meters, hfield PlanStore.order, hfield PlanStore.priority,
    hfield PlanStore.fetched, hfield PlanStore.activeSlot, hfield PlanStore.previousStage, fun k hk => ?_⟩
  have hslot : slotAt (restoreNotices o) k = _ := hslots hk
  rw [hslot]
  exact slotAfterReset_slot _ _ _ _ _

theorem stationReset_history {s t : State} (h : IntervalTakes true s t) (hstatus : t.stage.status = .starting) :
    t.history.ring = s.history.ring ∧ t.history.mark = s.history.mark ∧ t.history.nextSeq = s.history.nextSeq ∧
      t.history.interval = s.history.interval ∧ t.history.cursors = s.history.cursors ∧
      t.history.thresholds = s.history.thresholds ∧ t.history.worst = worseStatus s.history.worst .starting := by
  obtain ⟨hothers, -, -, -, -, hoffered⟩ := h
  obtain ⟨-, -, -, hworst⟩ := hoffered rfl
  have hfield {α : Type} (f : HistoryStore → α) := congrArg f hothers
  rw [hstatus] at hworst
  exact ⟨hfield HistoryStore.ring, hfield HistoryStore.mark, hfield HistoryStore.nextSeq,
    hfield HistoryStore.interval, hfield HistoryStore.cursors, hfield HistoryStore.thresholds, worst_starting hworst⟩

theorem stationReset_lines {s : State} (inv : EngineInv s) {i : Nat} (hi : i < 16) :
    let t := restoreNotices (resetOffered s)
    (lineAt t i).function = (lineAt s i).function ∧
      (lineAt t i).direction = (lineAt s i).direction ∧
      (lineAt t i).polarity = (lineAt s i).polarity ∧ (lineAt t i).pullUp = (lineAt s i).pullUp ∧
      (lineAt t i).latch = (lineAt s i).latch ∧ (lineAt t i).arm = (lineAt s i).arm ∧
      (lineAt t i).forced = (lineAt s i).forced ∧
      (t.lines.presented (lineAt t i) = s.lines.presented (lineAt s i) → (lineAt t i).pin = (lineAt s i).pin) ∧
      (t.lines.presented (lineAt t i) ≠ s.lines.presented (lineAt s i) →
        (lineAt t i).pin = t.lines.pinLevel (lineAt t i)) ∧
      ((lineAt s i).arm = false ∨ lineMoved s.lines t.lines i = false ∨
          ((lineAt s i).function ≠ .permitOut ∧ ∀ k, (lineAt s i).function = .warnOut k →
            at' t.lines.warnKept k = at' s.lines.warnKept k) →
        (lineAt t i).changed = false) := by
  obtain ⟨hline, hsame, hdiffers⟩ := resetOffered_line inv hi
  have hchanged := resetOffered_changed inv hi
  generalize resetOffered s = o at *
  have hfield {α : Type} (f : FieldLine → α) := congrArg f hline
  exact ⟨hfield FieldLine.function, hfield FieldLine.direction, hfield FieldLine.polarity, hfield FieldLine.pullUp,
    hfield FieldLine.latch, hfield FieldLine.arm, hfield FieldLine.forced, hsame, hdiffers, hchanged⟩

theorem stationReset_port {s : State} (inv : EngineInv s) (p : Port) :
    let t := restoreNotices (resetOffered s)
    (t.notices.port.get p).enables = (s.notices.port.get p).enables ∧
      (t.notices.port.get p).master = false ∧ (t.notices.port.get p).oneShot = false ∧
      (t.notices.port.get p).attention = false ∧
      (∀ c k, (c, k) ∈ conditionNumbers → (t.notices.port.get p).pendingSet.getLsbD k =
        (s.notices.routed k p && t.notices.holds c)) ∧
      (t.notices.port.get p).historyReady = (s.notices.port.get p).historyReady ∧
      (t.notices.port.get p).pendingSet.getLsbD 18 =
        (s.notices.routed 18 p && (s.notices.port.get p).historyReady) ∧
      ((t.notices.port.get p).pendingSet.getLsbD 17 = true ↔
        s.notices.routed 17 p = true ∧ ∃ i, i < 16 ∧ lineMoved s.lines t.lines i = true) ∧
      (∀ k raised, (k, raised) ∈ [(0, decide (s.warning.level < t.warning.level)),
          (3, s.stage.status != .starting), (12, s.engine.passOpen), (13, s.engine.state.runActive)] →
        (t.notices.port.get p).pendingSet.getLsbD k = (s.notices.routed k p && raised)) ∧
      ∀ k, k ∈ [1, 4, 5, 6, 8, 9, 15, 16, 19] → (t.notices.port.get p).pendingSet.getLsbD k = false := by
  have hroutes := resetOffered_routes inv
  obtain ⟨henables, hmaster, honeShot, hready⟩ := resetOffered_port inv p
  have hinv : PortNoticesInv (restoreNotices (resetOffered s)).notices p := stationReset_noticeInv s p
  have hraises {k : Nat} {raised : Bool} := resetOffered_raises (k := k) (raised := raised) inv
  have hlineChange (h) := resetOffered_lineChange inv h p
  have hmoved {i : Nat} (hi : i < 16) (hm : lineMoved s.lines (resetOffered s).lines i = true) :
      PendingWhereRouted 17 (resetOffered s) :=
    ((resetOffered_lines inv).1 i hi).2.2.2.2 ((resetCleared_moved hi _).trans hm)
  have hnone {k : Nat} (hk : k ∈ [1, 4, 5, 6, 8, 9, 15, 16, 19]) :
      ((resetOffered s).notices.port.get p).pendingSet.getLsbD k = false := by
    have hlists : k ∉ 13 :: passSources ∧ k ∉ [0, 2, 3, 7, 17] := by
      revert k
      decide
    exact resetOffered_unraised ((resetEnded_resets inv).moved.notified.kept.asBefore hlists.1)
      ((resetOffered_driven inv).2.2.1.kept.asBefore hlists.2) p
  generalize resetOffered s = o at *
  intro t
  have hrouted (k : Nat) : t.notices.routed k p = s.notices.routed k p := by
    have ht : t.notices.routes = s.notices.routes := hroutes
    simp only [NoticeUnit.routed, ht]
  have hsettings : (t.notices.port.get p).enables = (o.notices.port.get p).enables ∧
      (t.notices.port.get p).master = (o.notices.port.get p).master ∧
      (t.notices.port.get p).oneShot = (o.notices.port.get p).oneShot ∧
      (t.notices.port.get p).historyReady = (o.notices.port.get p).historyReady := by
    rw [restoreNotices_port]
    exact ⟨rfl, rfl, rfl, rfl⟩
  have hevent {k : Nat} (hk : k < 20) (he : k ∉ [2, 7, 10, 11, 14, 18]) := restoreNotices_event o p hk he
  obtain ⟨henables', hmaster', honeShot', hready'⟩ := hsettings
  refine ⟨henables'.trans henables, hmaster'.trans hmaster, honeShot'.trans honeShot, ?_, fun c k hk => ?_,
    hready'.trans hready, ?_, ⟨fun h => ?_, fun ⟨hr, i, hi, hm⟩ => ?_⟩, fun k raised hk => ?_, fun k hk => ?_⟩
  · rw [hinv.attention, hmaster', hmaster]
    rfl
  · rw [← hrouted]
    exact hinv.condition c k hk
  · rw [← hrouted, ← hready, ← hready']
    exact hinv.ready
  · refine ⟨(hrouted 17).symm.trans (hinv.routed 17 (by decide) h), ?_⟩
    by_contra hstill
    have hunset := hlineChange fun i hi => Bool.eq_false_iff.2 fun hm => hstill ⟨i, hi, hm⟩
    rw [hevent (by decide) (by decide), hunset] at h
    cases h
  · rw [hevent (by decide) (by decide)]
    exact hmoved hi hm p ((hrouted 17).trans hr)
  · obtain ⟨hyes, hno⟩ := hraises hk
    have hbounds : k < 20 ∧ k ∉ [2, 7, 10, 11, 14, 18] := by
      simp only [List.mem_cons, Prod.mk.injEq, List.not_mem_nil, or_false] at hk
      obtain ⟨rfl, -⟩ | ⟨rfl, -⟩ | ⟨rfl, -⟩ | ⟨rfl, -⟩ := hk <;> decide
    rw [hevent hbounds.1 hbounds.2]
    cases raised with
    | false => rw [hno rfl p, Bool.and_false]
    | true =>
      rw [Bool.and_true]
      cases hr : s.notices.routed k p with
      | true => exact hyes rfl p ((hrouted k).trans hr)
      | false =>
        rw [← Bool.not_eq_true]
        intro hb
        have hall := hinv.routed k hbounds.1 ((hevent hbounds.1 hbounds.2).trans hb)
        rw [hrouted, hr] at hall
        cases hall
  · have hbounds : k < 20 ∧ k ∉ [2, 7, 10, 11, 14, 18] := by
      revert k
      decide
    rw [hevent hbounds.1 hbounds.2]
    exact hnone hk

theorem exec_stationReset {s : State} (h : windowDead .L s = false) :
    exec (.stationReset .L) s = .next (stationReset (closeWindow .L s)) := by
  have hexec : exec (.stationReset .L) s = .next (if windowDead .L s then closeWindow .L s
    else stationReset (closeWindow .L s)) := rfl
  rw [hexec, h]
  rfl

theorem stationReset_pending (s : State) : (stationReset s).pending = s.pending := by
  have hrestored (x : State) : (restoreNotices x).pending = x.pending := rfl
  have hstarted : (resetOffered s).pending = (resetOffering s).pending :=
    startOver_keeps (resetOffering s) .pending (by decide)
  have hoffering (x : State) :
      (restartSample { stopDwell x with stage := x.stage.atReset }).pending = x.pending := rfl
  have hended : (resetEnded s).pending = (resetCleared s).pending := resetEnded_keeps .pending (by decide)
  rw [stationReset_eq, hrestored, hstarted, resetOffering, hoffering, hended]
  rfl

/-- The Warning Unit after a station reset (R143, R144, R157). -/
theorem stationReset_warning (s : State) :
    let t := restoreNotices (resetOffered s)
    t.warning.criteria = s.warning.criteria ∧ t.warning.floor = s.warning.floor ∧
      t.warning.retreatStage = s.warning.retreatStage ∧
      t.warning.retreatLevel = s.warning.retreatLevel ∧
      let i : EvalInputs := ⟨s.stage.stilled, .starting, none, t.rating.current.discharge, nowMs s⟩
      let w := { s.warning with dwell := .stopped }
      let demand := (formDemand i w).demanded
      Evaluated i w t ∧ t.warning.demanded = demand ∧
      t.notices.beyondRating = (t.rating.current.mark == .above || t.rating.current.mark == .aboveLimit) ∧
      (demand ≤ s.warning.level →
        t.warning.level = s.warning.level ∧ t.warning.silence = s.warning.silence ∧
          (OutputsFormed s → t.warning.outputs = s.warning.outputs ∧
            t.lines.warnKept = s.lines.warnKept)) ∧
      (demand < s.warning.level → t.warning.dwell = .held (s.warning.criteria.dwell * 60000)) ∧
      (s.warning.level ≤ demand → t.warning.dwell = .stopped ∧ t.warning.level = demand) := by
  obtain ⟨hevaluated, hbeyond, -⟩ := resetOffered_evaluated (s := s)
  obtain ⟨⟨hcriteria, hfloor, hstage, hlevel, hdemanded⟩, hbelow, hheld, habove⟩ := hevaluated.starting rfl rfl
  generalize resetOffered s = o at *
  obtain ⟨hunit, hrise, hfall, hretreat, hjudged, hformed, hsettings⟩ := hevaluated
  refine ⟨hcriteria, hfloor, hstage, hlevel, ⟨hunit, fun h => ?_, fun h => ?_, hretreat, hjudged, hformed, hsettings⟩,
    hdemanded, hbeyond, fun h => ?_, hheld, habove⟩
  · exact restoreNotices_pending (by decide) (by decide) (hrise h)
  · exact restoreNotices_pending (by decide) (by decide) (hfall h)
  · obtain ⟨hsame, hsilence⟩ := hbelow h
    exact ⟨hsame, hsilence, fun hs => hs.same hformed hsettings hsame hsilence⟩

/-- The Run Engine after a station reset (R113). -/
theorem stationReset_engine {s : State} (inv : EngineInv s) :
    let t := restoreNotices (resetOffered s)
    Entered (if s.engine.state = .tripped then .tripped else .idle) t ∧ EngineInv t ∧ RecordsKept s t ∧
      t.engine.trip = s.engine.trip ∧
      (s.engine.state.runActive = true → RunEnded .reset s t) ∧
      (s.engine.state.runActive = false → t.engine.lastEnd = s.engine.lastEnd) ∧
      ClosesOpenPass s.stage.status .reset s t := by
  have hinv : EngineInv (restoreNotices (resetOffered s)) := course_engineInv (stationReset_course s) inv
  have hrecords := resetOffered_records inv
  obtain ⟨hentered, htrip, hended, hstood, hshut, hcloses, hnone⟩ := resetOffered_engine inv
  generalize resetOffered s = o at *
  refine ⟨hentered, hinv, hrecords, htrip, fun ha => ?_, hstood, hshut, fun ho => ?_, hnone⟩
  · obtain ⟨hlast, hraised⟩ := hended ha
    exact ⟨hlast, restoreNotices_pending (by decide) (by decide) hraised⟩
  · obtain ⟨hdone, hrest⟩ := hcloses ho
    exact ⟨restoreNotices_pending (by decide) (by decide) hdone, hrest⟩

/-- Settles O13: a station reset is its clearing, the end of the run, and its offer of STARTING. -/
theorem stationResets : Obligations.StationReset := by
  intro s hlive inv
  let c := closeWindow .L s
  have invc : EngineInv c := inv.congr {}
  refine ⟨_, exec_stationReset hlive, stationReset_clock c, (stationReset_sameUpstream c).upstream, ?_,
    fun p => ⟨bufferOf_stationReset p c, fun w hw => stationReset_windowsDiscarded c p w hw⟩, ?_⟩
  · exact stationReset_pending c
  have hstage := resetOffered_unit (s := c)
  have hstarted (h : s.stage.status ≠ .starting) := resetOffered_status (s := c) h
  have hinterval := resetOffered_interval (s := c)
  have hrating := resetOffered_rating (s := c)
  have hplan := stationReset_plan invc
  have hengine := stationReset_engine invc
  have hwarning := stationReset_warning c
  have hlines {i : Nat} (hi : i < 16) := stationReset_lines invc hi
  have hroutes := resetOffered_routes invc
  have hports := stationReset_port invc
  rw [stationReset_eq]
  generalize resetOffered c = o at *
  have hunit {α : Type} (f : StageUnit → α) := congrArg f hstage
  refine ⟨?_, hinterval, stationReset_history hinterval (hunit StageUnit.status), ?_, hplan, hengine, hwarning,
    fun i hi => hlines hi, hroutes, hports⟩
  · exact ⟨hunit StageUnit.cfg, hunit StageUnit.count, hunit StageUnit.signal, hunit StageUnit.lastN,
      hunit StageUnit.stilled, hunit StageUnit.status, hunit StageUnit.window, hunit StageUnit.anchor,
      hunit StageUnit.runLength, hunit StageUnit.disagree, hunit StageUnit.fLast, hunit StageUnit.pLast,
      hunit StageUnit.encoderError, hunit StageUnit.rise, hunit StageUnit.sampleDue, hunit StageUnit.fJudgement,
      hunit StageUnit.stamp, hunit StageUnit.sampleUptime, hunit StageUnit.gateCount, hunit StageUnit.stilledOver,
      fun h => restoreNotices_pending (by decide) (by decide) (hstarted h)⟩
  · have hrated {α : Type} (f : RatingUnit → α) := congrArg f hrating
    exact ⟨hrated RatingUnit.active, hrated RatingUnit.version, hrated RatingUnit.staged, hrated RatingUnit.shift,
      hrated RatingUnit.limit, hrated RatingUnit.stageUsed, hrated RatingUnit.current⟩

end Sys2Proof.Machine
end
